-- ==== Sys2Proof/Word.lean ====
section
/-!
DEFINITION. The word types of the Tabdestra 7700 (R12, R16, R47) and the plain table type every
sparse store of the machine uses.
-/
namespace Sys2Proof

/-- A byte of a memory, a scratchpad or an image (R12). -/
abbrev Byte := BitVec 8
/-- A 32-bit word: a bound, a sideband word, a landing counter, a thid (R33, R39, R47, R238). -/
abbrev Word32 := BitVec 32
/-- A 64-bit dword: a scalar register or a control register (R47). -/
abbrev Word := BitVec 64
/-- A 512-bit vector register or one 64-byte line (R16). -/
abbrev Vec := BitVec 512

/-- A sparse store: keys strictly rising, no entry equal to what an unlisted key reads as. -/
abbrev Tbl (α : Type) := List (Nat × α)

end Sys2Proof
end

