-- ==== Sys2Proof/Syntax.lean ====
section
/-!
DEFINITION. The instructions and events of the Tabdestra 7700: one constructor of Instr for each row
of spec/opcode_table.json. An instruction carries the fields of its format (R216, R217); an event
carries what the spec says travels with it.
-/
namespace Sys2Proof

/-- The guard of the common header (R216, R219). -/
structure Head where
  guard : BitVec 4
  gneg  : Bool
  deriving DecidableEq, Repr

/-- An operand field: the 8-bit specifier (R220, R221) with its synchronised-read or wait-empty bit (R217, R222). -/
structure Fld where
  spec : BitVec 8
  sync : Bool
  deriving DecidableEq, Repr

/-- Format codes (R224); code 0x6 is reserved. -/
inductive Fmt where
  | d | s | bf | e4 | e5 | f4 | raw | i64 | i32 | i16 | i8 | u64 | u32 | u16 | u8
  deriving DecidableEq, Repr

/-- The type of a scalar floating-point instruction (R226, R273). -/
inductive FTy where
  | d | s | bf
  deriving DecidableEq, Repr

/-- Rounding codes (R225): the mode of fpctl.rm, or a mode carried by the instruction. -/
inductive Rc where
  | dyn | rn | rz | ru | rd
  deriving DecidableEq, Repr

/-- Conditions of cmp and cmpi (R267). -/
inductive Cond where
  | eq | ne | lt | ge | ltu | geu | tst
  deriving DecidableEq, Repr

/-- Conditions of fcmp and vcmp (R276, R284). -/
inductive FCond where
  | eq | ne | lt | le | gt | ge | un | ord
  deriving DecidableEq, Repr

/-- Sign operations of fsgn and vfsgn (R278, R286). -/
inductive SgnOp where
  | cpy | ncpy | xsgn | neg | abs
  deriving DecidableEq, Repr

/-- Shift kinds of shi and vsh (R266, R291). -/
inductive ShKind where
  | ll | rl | ra | rot
  deriving DecidableEq, Repr

/-- Bit counts and reversal (R270). -/
inductive BitsOp where
  | pop | clz | ctz | rev
  deriving DecidableEq, Repr

/-- Lane-wise logic (R291). -/
inductive LogOp where
  | and | or | xor | andn
  deriving DecidableEq, Repr

/-- Mask combinations (R292). -/
inductive MaskOp where
  | and | or | xor | andn | not
  deriving DecidableEq, Repr

/-- Access sizes (R227). -/
inductive Sz where
  | b | h | w | dw
  deriving DecidableEq, Repr

/-- Ordering of an access (R227, R294, R299). -/
inductive MOrd where
  | plain | acq | rel | ar
  deriving DecidableEq, Repr

/-- Operations of amod and amos (R299). -/
inductive AtOp where
  | swap | add | and | or | xor | min | max | minu | maxu
  deriving DecidableEq, Repr

/-- Scopes of fence (R301). -/
inductive Scope where
  | core | grp | dev | host
  deriving DecidableEq, Repr

/-- Targets of ldsb and stsb (R303). -/
inductive SbTgt where
  | dev | spb | fmt
  deriving DecidableEq, Repr

/-- The array a hire names (R317). -/
inductive HireKind where
  | at | sl | sh | bk
  deriving DecidableEq, Repr

/-- Engine fields of hire (R317). -/
structure HireEng where
  sta  : BitVec 17
  cofs : BitVec 14
  hc   : Bool
  dfmt : BitVec 4
  dsp  : Bool
  ent  : BitVec 4
  cls  : BitVec 2
  rc   : Rc
  lnum : BitVec 3
  kind : HireKind
  arr  : BitVec 7
  deriving DecidableEq, Repr

/-- Engine fields of batld (R321). -/
structure BatEng where
  km1  : BitVec 15
  fmt  : BitVec 4
  sp   : BitVec 2
  kb   : BitVec 3
  ssp  : Bool
  lnum : BitVec 3
  deriving DecidableEq, Repr

/-- Engine fields of copy and copyr (R323). -/
structure CopyEng where
  ssp  : BitVec 3
  dsp  : BitVec 3
  sfmt : BitVec 4
  dfmt : BitVec 4
  rc   : Rc
  lnum : BitVec 3
  cbn  : BitVec 4
  port : BitVec 3
  bk   : Bool
  ent  : BitVec 4
  op   : BitVec 2
  deriving DecidableEq, Repr

/-- Engine fields of mcast (R327). -/
structure McastEng where
  base : BitVec 11
  len  : BitVec 11
  lnum : BitVec 3
  deriving DecidableEq, Repr

/-- The map flit of R372. -/
structure MapFlit where
  n    : BitVec 5
  gx   : BitVec 5
  gw   : BitVec 2
  list : BitVec 240
  deriving DecidableEq, Repr

/-- The three task messages (R140, R311). -/
inductive TaskOp where
  | tset (n : Word32)
  | tdec
  | tenq
  deriving DecidableEq, Repr

/-- What spawn sends to the target core (R253): the captured record dwords, the register image, the
sheet when sv = 1, the entry point and the issuer. -/
structure SpawnReq where
  core  : Nat
  src   : Word32
  dst   : Fld
  ctl   : Word
  entry : Word
  init  : List Word
  image : List Word
  sheet : Option (List Word)
  deriving DecidableEq, Repr

/-- Firmware's request to create a queue (R168, R171). -/
structure QueueReq where
  part : BitVec 5
  cls  : BitVec 2
  lgn  : BitVec 4
  hw   : Bool
  base : Word
  stat : Word
  rdes : Bool
  rput : Bool
  rwake : Bool
  deriving DecidableEq, Repr

/-- A peer port firmware pairs with a partition (R199): its number, the length of the peer window in the remote device, and
the base and length of the partition's own. -/
structure PeerReq where
  port   : BitVec 3
  remote : Nat
  base   : Nat
  len    : Nat
  deriving DecidableEq, Repr

/-- A partition descriptor (R159) with the trap vector firmware sets (R209) and its peer ports (R199). -/
structure PartDesc where
  pnum     : BitVec 5
  base     : Nat
  len      : Nat
  slates   : Word
  shingles : Word
  halves   : Word
  uppers   : Word
  root     : Word
  hostBase : Word
  hostLen  : Word
  tvec     : Word
  /-- the peer ports paired with the partition -/
  pairs    : List PeerReq
  deriving DecidableEq, Repr

/-- A torus direction (R7, R189). -/
inductive Dir where
  | east | west | south | north
  deriving DecidableEq, Repr

/-- The rows of spec/opcode_table.json. -/
inductive Instr where
  -- control, threads, messages, context (R242 to R262)
  | nop (h : Head)
  | br (h : Head) (disp : BitVec 24)
  | brl (h : Head) (a : BitVec 8) (disp : BitVec 24)
  | jr (h : Head) (a : Fld)
  | jrl (h : Head) (d a : Fld)
  | loop (h : Head) (a : BitVec 8) (disp : BitVec 24)
  | loopi (h : Head) (n : BitVec 16) (disp : BitVec 24)
  | exit (h : Head)
  | yield (h : Head)
  | waitc (h : Head) (mask : BitVec 4) (n : BitVec 16)
  | waiteEv (h : Head) (d a : Fld)
  | waiteL (h : Head) (d b : Fld) (n : BitVec 16)
  | waiteCb (h : Head) (d b : Fld) (n : BitVec 16)
  | waiteBk (h : Head) (d a : Fld)
  | trap (h : Head) (n : BitVec 4) (code : BitVec 16)
  | eret (h : Head)
  | eretNext (h : Head)
  | spawn (h : Head) (d a b : Fld) (imm : BitVec 32)
  | kill (h : Head) (d a : Fld)
  | migr (h : Head) (d a : Fld)
  | send (h : Head) (d a b : Fld)
  | recv (h : Head) (d : Fld)
  | recvTry (h : Head) (d b : Fld)
  | signal (h : Head) (d a b : Fld)
  | swap (h : Head) (d a b : Fld)
  | ctxsv (h : Head) (d a b : Fld) (dev : Bool) (cap : BitVec 16)
  | ctxld (h : Head) (d a : Fld) (dev : Bool)
  -- integers (R264 to R272)
  | add (h : Head) (d a b : Fld)
  | sub (h : Head) (d a b : Fld)
  | addi (h : Head) (d a : Fld) (imm : BitVec 16)
  | mul (h : Head) (d a b : Fld)
  | mulh (h : Head) (d a b : Fld)
  | mulhu (h : Head) (d a b : Fld)
  | div (h : Head) (d a b : Fld)
  | divu (h : Head) (d a b : Fld)
  | rem (h : Head) (d a b : Fld)
  | remu (h : Head) (d a b : Fld)
  | and (h : Head) (d a b : Fld)
  | or (h : Head) (d a b : Fld)
  | xor (h : Head) (d a b : Fld)
  | andi (h : Head) (d a : Fld) (imm : BitVec 16)
  | ori (h : Head) (d a : Fld) (imm : BitVec 16)
  | xori (h : Head) (d a : Fld) (imm : BitVec 16)
  | shl (h : Head) (d a b : Fld)
  | shr (h : Head) (d a b : Fld)
  | sra (h : Head) (d a b : Fld)
  | shi (h : Head) (d a : Fld) (kind : ShKind) (n : BitVec 6)
  | min (h : Head) (d a b : Fld) (u : Bool)
  | max (h : Head) (d a b : Fld) (u : Bool)
  | cmp (h : Head) (d a b : Fld) (c : Cond)
  | cmpi (h : Head) (d a : Fld) (c : Cond) (imm : BitVec 16)
  | sel (h : Head) (d a b : Fld) (p : BitVec 4) (neg : Bool)
  | movi (h : Head) (d : Fld) (zx : Bool) (imm : BitVec 32)
  | movh (h : Head) (d a : Fld) (imm : BitVec 32)
  | lea (h : Head) (d : Fld) (imm : BitVec 32)
  | bits (h : Head) (d a : Fld) (op : BitsOp)
  | ext (h : Head) (d a : Fld) (sgn : Bool) (pos wm1 : BitVec 6)
  | ins (h : Head) (d a b : Fld) (pos wm1 : BitVec 6)
  | plog (h : Head) (d a b : Fld) (tbl : BitVec 4)
  | plogGet (h : Head) (d : Fld)
  | plogSet (h : Head) (a : Fld)
  -- scalar floating point (R273 to R278)
  | fadd (h : Head) (d a b : Fld) (t : FTy) (rc : Rc)
  | fsub (h : Head) (d a b : Fld) (t : FTy) (rc : Rc)
  | fmul (h : Head) (d a b : Fld) (t : FTy) (rc : Rc)
  | fma (h : Head) (d a b c : Fld) (t : FTy) (rc : Rc)
  | fdiv (h : Head) (d a b : Fld) (t : FTy) (rc : Rc)
  | fsqrt (h : Head) (d a : Fld) (t : FTy) (rc : Rc)
  | fmin (h : Head) (d a b : Fld) (t : FTy)
  | fmax (h : Head) (d a b : Fld) (t : FTy)
  | fcmp (h : Head) (d a b : Fld) (t : FTy) (c : FCond)
  | fcvt (h : Head) (d a : Fld) (tgt src : Fmt) (rc : Rc)
  | fcvti (h : Head) (d a : Fld) (tgt src : FTy) (rc : Rc)
  | fsgn (h : Head) (d a b : Fld) (t : FTy) (op : SgnOp)
  -- vectors (R279 to R292)
  | vadd (h : Head) (d a b : Fld) (m : BitVec 3) (t : FTy) (rc : Rc)
  | vsub (h : Head) (d a b : Fld) (m : BitVec 3) (t : FTy) (rc : Rc)
  | vmul (h : Head) (d a b : Fld) (m : BitVec 3) (t : FTy) (rc : Rc)
  | vfma (h : Head) (d a b : Fld) (c : BitVec 8) (m : BitVec 3) (t : FTy) (rc : Rc)
  | vdiv (h : Head) (d a b : Fld) (m : BitVec 3) (t : FTy) (rc : Rc)
  | vsqrt (h : Head) (d a : Fld) (m : BitVec 3) (t : FTy) (rc : Rc)
  | vmin (h : Head) (d a b : Fld) (m : BitVec 3) (t : FTy)
  | vmax (h : Head) (d a b : Fld) (m : BitVec 3) (t : FTy)
  | vcmp (h : Head) (d a b : Fld) (m : BitVec 3) (t : Fmt) (c : FCond)
  | vsel (h : Head) (d a b : Fld) (m : BitVec 3) (t : Fmt)
  | vcvt (h : Head) (d a : Fld) (m : BitVec 3) (tgt src : Fmt) (q : BitVec 3) (rc : Rc)
  | vred (h : Head) (d a : Fld) (m : BitVec 3) (t : FTy) (rc : Rc)
  | vdot (h : Head) (d a b : Fld) (m : BitVec 3) (t : FTy) (rc : Rc)
  | vperm (h : Head) (d a b : Fld) (m : BitVec 3) (t : Fmt)
  | vbcast (h : Head) (d a : Fld) (m : BitVec 3) (t : Fmt) (k : BitVec 6)
  | vext (h : Head) (d a : Fld) (t : Fmt) (k : BitVec 6)
  | vins (h : Head) (d a : Fld) (t : Fmt) (k : BitVec 6)
  | viadd (h : Head) (d a b : Fld) (m : BitVec 3) (t : Fmt) (sat : Bool)
  | visub (h : Head) (d a b : Fld) (m : BitVec 3) (t : Fmt) (sat : Bool)
  | vimul (h : Head) (d a b : Fld) (m : BitVec 3) (t : Fmt)
  | vlog (h : Head) (d a b : Fld) (m : BitVec 3) (t : Fmt) (op : LogOp)
  | vsh (h : Head) (d a b : Fld) (m : BitVec 3) (t : Fmt) (op : ShKind)
  | vmov (h : Head) (d a : Fld) (m : BitVec 3) (t : Fmt)
  | vmask (h : Head) (d a b : Fld) (op : MaskOp)
  | vfsgn (h : Head) (d a b : Fld) (m : BitVec 3) (t : FTy) (op : SgnOp)
  | vscan (h : Head) (d a : Fld) (m : BitVec 3) (t : FTy) (rc : Rc)
  | viota (h : Head) (d : Fld) (m : BitVec 3) (t : Fmt)
  -- memory, tasks, synchronisation (R293 to R314)
  | lds (h : Head) (d a : Fld) (typed : Bool) (z : Sz) (imm : BitVec 16)
  | sts (h : Head) (a b : Fld) (typed : Bool) (z : Sz) (imm : BitVec 16)
  | vlds (h : Head) (d a : Fld) (typed : Bool) (m : BitVec 3) (imm : BitVec 16)
  | vsts (h : Head) (a b : Fld) (typed : Bool) (m : BitVec 3) (imm : BitVec 16)
  | ldd (h : Head) (d a : Fld) (typed : Bool) (o : MOrd) (z : Sz) (imm : BitVec 16)
  | std (h : Head) (a b : Fld) (typed : Bool) (o : MOrd) (z : Sz) (imm : BitVec 16)
  | vldd (h : Head) (d a : Fld) (typed : Bool) (m : BitVec 3) (imm : BitVec 16)
  | vstd (h : Head) (a b : Fld) (typed : Bool) (m : BitVec 3) (imm : BitVec 16)
  | ldh (h : Head) (d a : Fld) (z : Sz) (imm : BitVec 16)
  | sth (h : Head) (a b : Fld) (z : Sz) (imm : BitVec 16)
  | amod (h : Head) (d a b : Fld) (o : MOrd) (dw : Bool) (op : AtOp)
  | casd (h : Head) (d a b c : Fld) (o : MOrd) (dw : Bool)
  | amos (h : Head) (d a b : Fld) (dw : Bool) (op : AtOp)
  | cass (h : Head) (d a b c : Fld) (dw : Bool)
  | fence (h : Head) (sc : Scope)
  | publish (h : Head) (d : Fld)
  | ldsb (h : Head) (d a : Fld) (tg : SbTgt) (imm : BitVec 16)
  | stsb (h : Head) (a b : Fld) (tg : SbTgt) (imm : BitVec 16)
  | vgas (h : Head) (d a b : Fld) (m : BitVec 3) (t : Fmt) (sc : BitVec 3)
  | vscs (h : Head) (a b c : Fld) (m : BitVec 3) (t : Fmt) (sc : BitVec 3)
  | pgmigNear (h : Head) (d a : Fld)
  | pgmigFar (h : Head) (d a : Fld)
  | cbset (h : Head) (d a : Fld) (size : BitVec 11) (lgn : BitVec 4)
  | cbpop (h : Head) (d b : Fld)
  | cbpush (h : Head) (d b : Fld)
  | tenq (h : Head) (a : Fld)
  | tdec (h : Head) (a : Fld)
  | tset (h : Head) (a b : Fld)
  | barAw (h : Head) (d : Fld) (k : BitVec 4)
  | barArr (h : Head) (d : Fld) (k : BitVec 4)
  | barWait (h : Head) (d a : Fld) (k : BitVec 4)
  | qput (h : Head) (d a b : Fld)
  -- engines, dual, system (R315 to R338)
  | hire (h : Head) (d a b c : Fld) (e : HireEng)
  | batld (h : Head) (d a b : Fld) (e : BatEng)
  | batfree (h : Head) (a : Fld)
  | copy (h : Head) (d a b c : Fld) (e : CopyEng)
  | copyr (h : Head) (d a b c : Fld) (e : CopyEng)
  | book (h : Head) (d a : Fld)
  | bookH (h : Head) (d a : Fld)
  | unbook (h : Head) (d a : Fld)
  | hstatCp (h : Head) (d a : Fld)
  | hstatBk (h : Head) (d a : Fld)
  | hstatBt (h : Head) (d a : Fld)
  | dual (mask : BitVec 4)
  | bndr (h : Head) (d a : Fld) (j : BitVec 3)
  | bndw (h : Head) (d a : Fld) (j : BitVec 3) (mx : Bool)
  | tanr (h : Head) (d a : Fld) (j : BitVec 3) (vec : Bool)
  | tanw (h : Head) (d a : Fld) (j : BitVec 3) (vec : Bool)
  | csrr (h : Head) (d : Fld) (n : BitVec 12)
  | csrw (h : Head) (d a : Fld) (n : BitVec 12)
  | csrs (h : Head) (d a : Fld) (n : BitVec 12)
  | csrc (h : Head) (d a : Fld) (n : BitVec 12)
  | tlbiVa (h : Head) (d a : Fld)
  | tlbiAll (h : Head) (d a : Fld)
  | tlbiLva (h : Head) (d a : Fld)
  | tlbiLall (h : Head) (d a : Fld)
  | hold (h : Head) (d a : Fld)
  | halt (h : Head)
  | ebreak (h : Head) (n : BitVec 16)
  | mcast (h : Head) (d a b c : Fld) (e : McastEng)
  -- events: start-up (R349 to R354, R369 to R373)
  | discovery (sx sy : BitVec 5) (west : Bool) (fuse : BitVec 32)
  | report (sx sy : BitVec 5) (fuse : BitVec 32)
  | map (x y : BitVec 5) (flit : MapFlit)
  | linePacket (core : Nat) (data : BitVec 1024)
  | endFlit (core : Nat) (lines : Nat)
  | bootAck (parent : Option Nat)
  | startFlit (core : Nat) (ts : Word)
  | attestationRequest (nonce : BitVec 256)
  -- events: stop and hold (R164 to R167, R355 to R358)
  | synchronisedStop (part : Option Nat)
  | sweepToken (core : Nat) (dir : Dir)
  | tenantRestore (part : Nat)
  -- events: seats, waits, migration, traps (R53 to R58, R204)
  | threadSeating (core : Nat)
  | contextSaveDone (seat : Nat)
  | contextFetchDone (seat : Nat)
  | sliceExpiry (thid : Word32)
  | seatedWaitTimeout (thid : Word32)
  | fullBitChange (thid : Word32)
  | waitEvent (thid : Word32)
  | migrationArrival (thid : Word32) (core : Nat)
  | postedCauseTaken (thid : Word32)
  | threadFreed (thid : Word32)
  -- events: home ports and pages (R293, R81, R82)
  | homePortAccess (thid : Word32) (id : Nat)
  | accessAnswer (thid : Word32)
  | statusAnswer (thid : Word32) (dst : Fld) (value : Word)
  | rowThrottle (core row : Nat)
  | refreshSplit (op : Nat)
  -- events: tracer copies (R83 to R95, R380)
  | registrationRequest (op core : Nat)
  | stencilRegister (core : Nat)
  | registrationGrant (op core : Nat)
  | copyRunning (op : Nat)
  | slotHandover (core slot : Nat)
  | startMessage (op : Nat)
  | tracerLine (core : Nat)
  | copyData (op line : Nat)
  | copyReport (op : Nat)
  -- events: hires and bookings (R101 to R127)
  | hirePlacement (ridge : Nat)
  | hireStart (op : Nat)
  | arrayWindowEnd (op : Nat) (mismatch : Bool)
  | landingLine (op : Nat)
  | hireLanded (op : Nat)
  | bookAttempt (ridge idx : Nat)
  | pendingBookAttempt (ridge idx : Nat)
  | bookingStart (ridge idx : Nat)
  | bookingEnd (ridge idx : Nat)
  -- events: tasks, kernels, queues (R140 to R177, R253, R254)
  | taskMessage (src : Word32) (name : Word) (op : TaskOp)
  | spawnRequest (req : SpawnReq)
  | killRequest (src : Word32) (dst : Fld) (target : Word)
  | launchPacket (slot : Nat)
  | dispatchAck (kernel rank : Nat)
  | kernelRelease (kernel : Nat)
  | kernelRetirement (kernel : Nat)
  | queueCreate (req : QueueReq)
  | wakeWrite (part : Nat) (data : BitVec 512)
  | queueDestroy (qid : Nat)
  | queueDestroyed (qid : Nat)
  | unmappingEnd (slot : Nat)
  | idleUnmap (slot : Nat)
  | qputRequest (src : Word32) (dst : Fld) (capAddr : Word) (cap : BitVec 256) (packet : BitVec 512)
  -- events: barriers (R178 to R183, R313)
  | barrierArrival (src : Word32) (k : BitVec 4) (dst : Fld) (wait : Bool)
  | barrierRelease (part : Nat) (k : BitVec 4) (core : Nat)
  | barrierWithdrawal (src : Word32) (k : BitVec 4)
  -- events: links (R190 to R199, R256 to R258)
  | queueEntry (core : Nat) (dir : Dir) (value : Word)
  | creditReturn (core : Nat) (dir : Dir)
  | probeTokenSend (core : Nat)
  | probeToken (origin core : Nat) (dir : Dir) (hops : Nat)
  | mailboxDelivery (src : Word32) (dst : Fld) (target : Word) (value : Word)
  | sendRetry (src : Word32)
  | signalDelivery (src : Word32) (dst : Fld) (target : Word) (mask : Word)
  | publishApply (src : Word32) (dst : Fld)
  | peerWrite (port : Nat) (offset : Nat) (line : Vec)
  | frameAvailable (core : Nat) (frame : Option Nat)
  | shootdown (core : Nat) (va : Option Word) (op : Nat)
  | migrationComplete (op : Nat)
  | pageEviction (part : Nat) (va : Word) (frame : Option Nat)
  | pageRetire (part : Nat) (va : Word)
  | peerPortFailure (port : Nat)
  | thermalExcursion (die : Nat) (peak : Nat)
  | supplyDroop (die : Nat) (depth : Nat)
  | tenantSwitch (part : Nat) (ts : Word)
  | partitionCreate (desc : PartDesc)
  | partitionDestroy (part : Nat)
  | dispatchMulticast (kernel rank : Nat)
  | evictionComplete (op : Nat)
  | hostWritePerformed (id : Nat)
  -- events that carry nothing (last: a compiled constructor with fields needs a small index)
  | tickBoundary
  | reset
  | reportTimeout
  | imageSend
  | firmwareStart
  | holdRequest
  | resumeRequest
  | holdReached
  | resumptionComplete
  | retentionPowerLoss
  | lifeLogWrite
  | compaction
  | slotGrant
  | linkDownTimeout
  | linkRetrain
  | prietLinkDown
  | refreshWindowEnd
  | hang
  deriving DecidableEq, Repr

end Sys2Proof
end

