-- ==== Sys2Proof/WellFormed.lean ====
section
/-!
DEFINITION. Which terms of Instr are instructions the encoding can hold (R216 to R218 and the entries'
own limits). An event is no instruction and has no encoding, so it is not well formed.
-/
namespace Sys2Proof

/-- The format codes with floating-point lanes, set F of R280. -/
def Fmt.isF : Fmt → Bool
  | .d | .s | .bf => true
  | _ => false
/-- The integer format codes, set I of R280. -/
def Fmt.isI : Fmt → Bool
  | .i64 | .i32 | .i16 | .i8 | .u64 | .u32 | .u16 | .u8 => true
  | _ => false
/-- Set M of R280: everything but FP4. -/
def Fmt.isM : Fmt → Bool
  | .f4 => false
  | _ => true
/-- The format codes of fcvt and vcvt (R277, R287). -/
def Fmt.isC : Fmt → Bool
  | .f4 | .raw => false
  | _ => true

/-- Bits of one element (R224); a raw element is a byte. -/
def Fmt.bits : Fmt → Nat
  | .d | .i64 | .u64 => 64
  | .s | .i32 | .u32 => 32
  | .bf | .i16 | .u16 => 16
  | .e4 | .e5 | .i8 | .u8 | .raw => 8
  | .f4 => 4

/-- Lanes of a vector register at a format (R16). -/
def Fmt.lanes (f : Fmt) : Nat := 512 / f.bits

/-- The parts of a conversion: r of R287. -/
def cvtParts (tgt src : Fmt) : Nat := max tgt.lanes src.lanes / min tgt.lanes src.lanes

/-- A field the form reserves holds zero (R218). -/
def Fld.isZero (f : Fld) : Bool := f.spec == 0#8 && !f.sync

def FTy.fmt : FTy → Fmt
  | .d => .d
  | .s => .s
  | .bf => .bf

/-- A control-register number that R228 assigns. -/
def csrAssigned (n : BitVec 12) : Bool :=
  [0x000, 0x001, 0x002, 0x003, 0x004, 0x010, 0x011, 0x012, 0x013, 0x014, 0x015, 0x016,
   0x020, 0x021, 0x022, 0x030, 0x031, 0x032].contains n.toNat

/-- A scalar access with the type and order its opcode allows (R227, R296). -/
def typedOk (typed : Bool) (z : Sz) : Bool := !(typed && z == .b)

namespace WellFormed

/-- The fields of hire that its kind and its destination reserve, and the codes of dfmt (R317, R224). -/
def hire (d : Fld) (e : HireEng) : Bool :=
  (e.kind == .bk || (d.spec == 0#8 && e.ent == 0#4)) && (e.kind == .at || e.arr == 0#7) &&
  (if e.dsp then e.dfmt != 6#4 else e.dfmt == 0#4)

/-- The fields of copy and copyr that their spaces reserve, and the format codes their spaces look at (R323, R224). -/
def copy (e : CopyEng) : Bool :=
  (e.dsp == 5#3 || e.cbn == 0#4) && (e.ssp == 4#3 || e.dsp == 4#3 || e.port == 0#3) &&
  (e.bk || e.ent == 0#4) && (decide (e.ssp.toNat < 2) || e.sfmt != 6#4) &&
  (decide (e.dsp.toNat < 2) || e.dsp == 5#3 || e.dfmt != 6#4)

/-- The operand of .neg and .abs that is reserved (R278). -/
def sgn (op : SgnOp) (b : Fld) : Bool :=
  match op with
  | .neg | .abs => b.isZero
  | .cpy | .ncpy | .xsgn => true

/-- The instruction has an encoding and decodes without cause 0x00 to 0x02. -/
def instr : Instr → Bool
  | .nop _ | .br _ _ | .brl _ _ _ | .jr _ _ | .jrl _ _ _ | .loop _ _ _ | .loopi _ _ _ | .exit _ | .yield _ => true
  | .waitc _ mask _ => mask != 0#4
  | .waiteEv _ _ _ | .waiteL _ _ _ _ | .waiteCb _ _ _ _ | .waiteBk _ _ _ | .trap _ _ _ | .eret _ | .eretNext _ => true
  | .spawn _ _ _ _ _ | .kill _ _ _ | .migr _ _ _ | .send _ _ _ _ | .recv _ _ | .recvTry _ _ _ => true
  | .signal _ _ _ _ | .swap _ _ _ _ | .ctxsv _ _ _ _ _ _ | .ctxld _ _ _ _ => true
  | .add _ _ _ _ | .sub _ _ _ _ | .addi _ _ _ _ | .mul _ _ _ _ | .mulh _ _ _ _ | .mulhu _ _ _ _ => true
  | .div _ _ _ _ | .divu _ _ _ _ | .rem _ _ _ _ | .remu _ _ _ _ | .and _ _ _ _ | .or _ _ _ _ | .xor _ _ _ _ => true
  | .andi _ _ _ _ | .ori _ _ _ _ | .xori _ _ _ _ | .shl _ _ _ _ | .shr _ _ _ _ | .sra _ _ _ _ => true
  | .shi _ _ _ _ _ | .min _ _ _ _ _ | .max _ _ _ _ _ | .cmp _ _ _ _ _ | .cmpi _ _ _ _ _ | .sel _ _ _ _ _ _ => true
  | .movi _ _ _ _ | .movh _ _ _ _ | .lea _ _ _ | .bits _ _ _ _ => true
  | .ext _ _ _ _ pos wm1 => pos.toNat + wm1.toNat + 1 ≤ 64
  | .ins _ _ _ _ pos wm1 => pos.toNat + wm1.toNat + 1 ≤ 64
  | .plog _ _ _ _ _ => true
  | .plogGet _ _ | .plogSet _ _ => true
  | .fadd _ _ _ _ _ _ | .fsub _ _ _ _ _ _ | .fmul _ _ _ _ _ _ | .fma _ _ _ _ _ _ _ | .fdiv _ _ _ _ _ _ => true
  | .fsqrt _ _ _ _ _ | .fmin _ _ _ _ _ | .fmax _ _ _ _ _ | .fcmp _ _ _ _ _ _ => true
  | .fcvt _ _ _ tgt src _ => tgt.isC && src.isC && !(tgt.isI && src.isI)
  | .fcvti _ _ _ _ _ _ => true
  | .fsgn _ _ _ b _ op => sgn op b
  | .vadd _ _ _ _ _ _ _ | .vsub _ _ _ _ _ _ _ | .vmul _ _ _ _ _ _ _ | .vfma _ _ _ _ _ _ _ _ => true
  | .vdiv _ _ _ _ _ _ _ | .vsqrt _ _ _ _ _ _ | .vmin _ _ _ _ _ _ | .vmax _ _ _ _ _ _ => true
  | .vcmp _ _ _ _ _ t c => t.isF || (t.isI && c != .un && c != .ord)
  | .vsel _ _ _ _ _ t => t.isM
  | .vcvt _ _ _ _ tgt src q _ =>
    tgt.isC && src.isC && !(tgt.isI && src.isI) && decide (q.toNat < cvtParts tgt src)
  | .vred _ _ _ _ _ _ | .vdot _ _ _ _ _ _ _ => true
  | .vperm _ _ _ _ _ t => t.isM
  | .vbcast _ _ _ _ t k => t.isM && decide (k.toNat < t.lanes)
  | .vext _ _ _ t k => t.isM && decide (k.toNat < t.lanes)
  | .vins _ _ _ t k => t.isM && decide (k.toNat < t.lanes)
  | .viadd _ _ _ _ _ t _ | .visub _ _ _ _ _ t _ | .vimul _ _ _ _ _ t => t.isI
  | .vlog _ _ _ _ _ t _ | .vsh _ _ _ _ _ t _ => t.isI
  | .vmov _ _ _ _ t => t.isM
  | .vmask _ _ _ b op => op != .not || b.isZero
  | .vfsgn _ _ _ b _ _ op => sgn op b
  | .vscan _ _ _ _ _ _ => true
  | .viota _ _ _ t => t.isI
  | .lds _ _ _ typed z _ | .sts _ _ _ typed z _ => typedOk typed z
  | .vlds _ _ _ _ _ _ | .vsts _ _ _ _ _ _ => true
  | .ldd _ _ _ typed o z _ | .std _ _ _ typed o z _ => typedOk typed z && o != .ar
  | .vldd _ _ _ _ _ _ | .vstd _ _ _ _ _ _ | .ldh _ _ _ _ _ | .sth _ _ _ _ _ => true
  | .amod _ _ _ _ _ _ _ | .casd _ _ _ _ _ _ _ | .amos _ _ _ _ _ _ | .cass _ _ _ _ _ _ => true
  | .fence _ _ | .publish _ _ | .ldsb _ _ _ _ _ | .stsb _ _ _ _ _ => true
  | .vgas _ _ _ _ _ t _ | .vscs _ _ _ _ _ t _ => t.isM
  | .pgmigNear _ _ _ | .pgmigFar _ _ _ | .cbset _ _ _ _ _ | .cbpop _ _ _ | .cbpush _ _ _ => true
  | .tenq _ _ | .tdec _ _ | .tset _ _ _ | .barAw _ _ _ | .barArr _ _ _ | .barWait _ _ _ _ | .qput _ _ _ _ => true
  | .hire _ d _ _ _ e => hire d e
  | .batld _ _ _ _ e => decide (e.fmt.toNat ≤ 5)
  | .batfree _ _ => true
  | .copy _ _ _ _ _ e => copy e
  | .copyr _ _ _ _ _ e => copy e
  | .book _ _ _ | .bookH _ _ _ | .unbook _ _ _ | .hstatCp _ _ _ | .hstatBk _ _ _ | .hstatBt _ _ _ => true
  | .dual _ => true
  | .bndr _ _ _ j | .bndw _ _ _ j _ => j ≤ 4#3
  | .tanr _ _ _ j _ | .tanw _ _ _ j _ => j != 0#3 && j ≤ 4#3
  | .csrr _ _ n => csrAssigned n
  | .csrw _ _ _ n | .csrs _ _ _ n | .csrc _ _ _ n => csrAssigned n
  | .tlbiVa _ _ _ | .tlbiAll _ _ _ | .tlbiLva _ _ _ | .tlbiLall _ _ _ | .hold _ _ _ | .halt _ | .ebreak _ _ => true
  | .mcast _ _ _ _ _ _ => true
  | .tickBoundary | .reset | .discovery _ _ _ _ | .report _ _ _ | .reportTimeout | .map _ _ _ | .imageSend => false
  | .linePacket _ _ | .endFlit _ _ | .bootAck _ | .startFlit _ _ | .firmwareStart | .attestationRequest _ => false
  | .holdRequest | .resumeRequest | .synchronisedStop _ | .sweepToken _ _ | .holdReached | .resumptionComplete => false
  | .retentionPowerLoss | .tenantRestore _ | .lifeLogWrite | .threadSeating _ | .contextSaveDone _ => false
  | .contextFetchDone _ | .sliceExpiry _ | .seatedWaitTimeout _ | .fullBitChange _ | .waitEvent _ => false
  | .migrationArrival _ _ | .postedCauseTaken _ | .threadFreed _ | .homePortAccess _ _ | .accessAnswer _ => false
  | .statusAnswer _ _ _ | .rowThrottle _ _ | .refreshSplit _ | .registrationRequest _ _ | .stencilRegister _ => false
  | .registrationGrant _ _ | .copyRunning _ | .slotHandover _ _ | .startMessage _ | .tracerLine _ => false
  | .copyData _ _ | .copyReport _ | .hirePlacement _ | .hireStart _ | .arrayWindowEnd _ _ | .landingLine _ => false
  | .hireLanded _ | .bookAttempt _ _ | .pendingBookAttempt _ _ | .bookingStart _ _ | .bookingEnd _ _ => false
  | .compaction | .taskMessage _ _ _ | .spawnRequest _ | .killRequest _ _ _ | .launchPacket _ => false
  | .dispatchAck _ _ | .kernelRelease _ | .kernelRetirement _ | .hang | .queueCreate _ | .wakeWrite _ _ => false
  | .queueDestroy _ | .queueDestroyed _ | .slotGrant | .unmappingEnd _ | .idleUnmap _ | .qputRequest _ _ _ _ _ => false
  | .barrierArrival _ _ _ _ | .barrierRelease _ _ _ | .barrierWithdrawal _ _ | .queueEntry _ _ _ => false
  | .creditReturn _ _ | .probeTokenSend _ | .probeToken _ _ _ _ | .mailboxDelivery _ _ _ _ | .sendRetry _ => false
  | .signalDelivery _ _ _ _ | .publishApply _ _ | .linkDownTimeout | .linkRetrain | .peerWrite _ _ _ => false
  | .frameAvailable _ _ | .shootdown _ _ _ | .migrationComplete _ | .pageEviction _ _ _ | .pageRetire _ _ => false
  | .prietLinkDown | .peerPortFailure _ | .thermalExcursion _ _ | .supplyDroop _ _ | .tenantSwitch _ _ => false
  | .partitionCreate _ | .partitionDestroy _ | .dispatchMulticast _ _ | .refreshWindowEnd => false
  | .evictionComplete _ | .hostWritePerformed _ => false

end WellFormed
end Sys2Proof
end

