-- ==== Sys2Proof/Decode.lean ====
section
/-!
DEFINITION. Decoding and encoding (R211, R216 to R229 and the entries R242 to R338). Each opcode, with
the sub-form its fn selects, has one layout: a list of slots from bit 10 upward, read or reserved. The
decoder splits the word along the layout and refuses by the lowest offending bit; the encoder joins the
same slots.
-/
namespace Sys2Proof

/-- Why a word is no instruction: the cause and its tval (R218). -/
inductive Reject where
  /-- cause 0x00 -/
  | length
  /-- cause 0x01, tval the opcode -/
  | opcode (op : Nat)
  /-- cause 0x02, tval the lowest offending bit -/
  | field (pos : Nat)
  /-- the bytes end before the instruction does -/
  | truncated
  deriving DecidableEq, Repr

/-- A run of bits of a layout: read, or reserved. -/
inductive Slot where
  | f (n : Nat)
  | r (n : Nat)
  deriving DecidableEq, Repr

/-- The position of the lowest set bit among the low n bits of w. -/
def lowBit : Nat → Nat → Option Nat
  | 0, _ => none
  | n + 1, w => if w % 2 = 1 then some 0 else (lowBit n (w / 2)).map (· + 1)

/-- The values of the read slots of w, lowest first. -/
def fieldsOf : List Slot → Nat → List Nat
  | [], _ => []
  | .f n :: L, w => w % 2 ^ n :: fieldsOf L (w / 2 ^ n)
  | .r n :: L, w => fieldsOf L (w / 2 ^ n)

/-- The positions at which reserved slots are set, one for each such slot. -/
def reservedOf : List Slot → Nat → Nat → List Nat
  | [], _, _ => []
  | .f n :: L, p, w => reservedOf L (p + n) (w / 2 ^ n)
  | .r n :: L, p, w =>
    match lowBit n w with
    | some i => (p + i) :: reservedOf L (p + n) (w / 2 ^ n)
    | none => reservedOf L (p + n) (w / 2 ^ n)

/-- The word whose read slots hold the values and whose reserved slots are zero. -/
def joinFields : List Slot → List Nat → Nat
  | [], _ => 0
  | .r n :: L, vs => 2 ^ n * joinFields L vs
  | .f n :: L, v :: vs => v % 2 ^ n + 2 ^ n * joinFields L vs
  | .f n :: L, [] => 2 ^ n * joinFields L []

/-! ### Formats (R217): guard, gneg and bit 15, then the format's own bits -/

def slotHead : List Slot := [.f 4, .f 1, .r 1]
def slotIf (b : Bool) (n : Nat) : Slot := if b then .f n else .r n
/-- Bits 47:16 of S, Q, M and L with the operand fields used, fn given. -/
def layOps (d a b : Bool) (fn : List Slot) : List Slot :=
  slotHead ++ [slotIf d 8, slotIf a 8, slotIf b 8, slotIf d 1, slotIf a 1, slotIf b 1] ++ fn
def fnR : List Slot := [.r 5]
def layS (d a b : Bool) (fn imm : List Slot) : List Slot := layOps d a b fn ++ imm
/-- Format Q with c used. -/
def layQ (d a b : Bool) (fn : List Slot) : List Slot := layOps d a b fn ++ [.f 8, .f 1, .r 7]
/-- Format M. -/
def layM (d a b : Bool) (fn imm : List Slot) : List Slot := layOps d a b fn ++ [.r 16] ++ imm
/-- Format B with a used or not. -/
def layB (a : Bool) (imm : Slot) : List Slot := slotHead ++ [.f 24, slotIf a 8, imm]
def immR : List Slot := [.r 16]
def immF : List Slot := [.f 16]

/-! ### Field codes -/

def fmtOf (n : Nat) : Fmt :=
  match n with
  | 1 => .s | 2 => .bf | 3 => .e4 | 4 => .e5 | 5 => .f4 | 7 => .raw | 8 => .i64 | 9 => .i32
  | 10 => .i16 | 11 => .i8 | 12 => .u64 | 13 => .u32 | 14 => .u16 | 15 => .u8 | _ => .d
def fmtCode : Fmt → Nat
  | .d => 0 | .s => 1 | .bf => 2 | .e4 => 3 | .e5 => 4 | .f4 => 5 | .raw => 7 | .i64 => 8 | .i32 => 9
  | .i16 => 10 | .i8 => 11 | .u64 => 12 | .u32 => 13 | .u16 => 14 | .u8 => 15
/-- A 4-bit code outside a set of formats (R224). -/
def fmtBad (p : Fmt → Bool) (n : Nat) : Bool := n == 6 || !p (fmtOf n)

def ftyOf (n : Nat) : FTy :=
  match n with
  | 1 => .s | 2 => .bf | _ => .d
def ftyCode : FTy → Nat
  | .d => 0 | .s => 1 | .bf => 2
def rcOf (n : Nat) : Rc :=
  match n with
  | 4 => .rn | 5 => .rz | 6 => .ru | 7 => .rd | _ => .dyn
def rcCode : Rc → Nat
  | .dyn => 0 | .rn => 4 | .rz => 5 | .ru => 6 | .rd => 7
/-- The reserved rounding codes (R225). -/
def rcBad (n : Nat) : Bool := n == 1 || n == 2 || n == 3
def condOf (n : Nat) : Cond :=
  match n with
  | 1 => .ne | 2 => .lt | 3 => .ge | 4 => .ltu | 5 => .geu | 6 => .tst | _ => .eq
def condCode : Cond → Nat
  | .eq => 0 | .ne => 1 | .lt => 2 | .ge => 3 | .ltu => 4 | .geu => 5 | .tst => 6
def fcondOf (n : Nat) : FCond :=
  match n with
  | 1 => .ne | 2 => .lt | 3 => .le | 4 => .gt | 5 => .ge | 6 => .un | 7 => .ord | _ => .eq
def fcondCode : FCond → Nat
  | .eq => 0 | .ne => 1 | .lt => 2 | .le => 3 | .gt => 4 | .ge => 5 | .un => 6 | .ord => 7
def sgnOf (n : Nat) : SgnOp :=
  match n with
  | 1 => .ncpy | 2 => .xsgn | 3 => .neg | 4 => .abs | _ => .cpy
def sgnCode : SgnOp → Nat
  | .cpy => 0 | .ncpy => 1 | .xsgn => 2 | .neg => 3 | .abs => 4
def shOf (n : Nat) : ShKind :=
  match n with
  | 1 => .rl | 2 => .ra | 3 => .rot | _ => .ll
def shCode : ShKind → Nat
  | .ll => 0 | .rl => 1 | .ra => 2 | .rot => 3
def bitsOf (n : Nat) : BitsOp :=
  match n with
  | 1 => .clz | 2 => .ctz | 3 => .rev | _ => .pop
def bitsCode : BitsOp → Nat
  | .pop => 0 | .clz => 1 | .ctz => 2 | .rev => 3
def logOf (n : Nat) : LogOp :=
  match n with
  | 1 => .or | 2 => .xor | 3 => .andn | _ => .and
def logCode : LogOp → Nat
  | .and => 0 | .or => 1 | .xor => 2 | .andn => 3
def maskOf (n : Nat) : MaskOp :=
  match n with
  | 1 => .or | 2 => .xor | 3 => .andn | 4 => .not | _ => .and
def maskCode : MaskOp → Nat
  | .and => 0 | .or => 1 | .xor => 2 | .andn => 3 | .not => 4
def szOf (n : Nat) : Sz :=
  match n with
  | 1 => .h | 2 => .w | 3 => .dw | _ => .b
def szCode : Sz → Nat
  | .b => 0 | .h => 1 | .w => 2 | .dw => 3
def ordOf (n : Nat) : MOrd :=
  match n with
  | 1 => .acq | 2 => .rel | 3 => .ar | _ => .plain
def ordCode : MOrd → Nat
  | .plain => 0 | .acq => 1 | .rel => 2 | .ar => 3
def atOf (n : Nat) : AtOp :=
  match n with
  | 1 => .add | 2 => .and | 3 => .or | 4 => .xor | 5 => .min | 6 => .max | 7 => .minu | 8 => .maxu | _ => .swap
def atCode : AtOp → Nat
  | .swap => 0 | .add => 1 | .and => 2 | .or => 3 | .xor => 4 | .min => 5 | .max => 6 | .minu => 7 | .maxu => 8
def scopeOf (n : Nat) : Scope :=
  match n with
  | 1 => .grp | 2 => .dev | 3 => .host | _ => .core
def scopeCode : Scope → Nat
  | .core => 0 | .grp => 1 | .dev => 2 | .host => 3
def sbOf (n : Nat) : SbTgt :=
  match n with
  | 1 => .spb | 2 => .fmt | _ => .dev
def sbCode : SbTgt → Nat
  | .dev => 0 | .spb => 1 | .fmt => 2
def hkOf (n : Nat) : HireKind :=
  match n with
  | 1 => .sl | 2 => .sh | 3 => .bk | _ => .at
def hkCode : HireKind → Nat
  | .at => 0 | .sl => 1 | .sh => 2 | .bk => 3

def headOf (g n : Nat) : Head := ⟨BitVec.ofNat 4 g, n == 1⟩
def fldOf (x s : Nat) : Fld := ⟨BitVec.ofNat 8 x, s == 1⟩
def bitOf (b : Bool) : Nat := if b then 1 else 0
def bv (w n : Nat) : BitVec w := BitVec.ofNat w n

/-! ### Decoded rows -/

/-- A decoded word: the offences of its fields, each a test and a bit position, and the instruction. -/
structure Dec where
  bad : List (Bool × Nat)
  ins : Instr

def ok (i : Instr) : Dec := ⟨[], i⟩

/-- One encoding: length code, layout from bit 10, and what the read slots stand for. -/
structure Form where
  len : Nat
  lay : List Slot
  rd  : List Nat → Dec

def fNone (c : Head → Instr) : Form :=
  ⟨1, layS false false false fnR immR, fun | [g, n] => ok (c (headOf g n)) | _ => ok (.nop ⟨0, false⟩)⟩
def nopD : Dec := ok (.nop ⟨0, false⟩)

/-- d, a and b, nothing else. -/
def fDAB (c : Head → Fld → Fld → Fld → Instr) : Form :=
  ⟨1, layS true true true fnR immR, fun
    | [g, n, d, a, b, x, y, z] => ok (c (headOf g n) (fldOf d x) (fldOf a y) (fldOf b z))
    | _ => nopD⟩
/-- d and a, nothing else. -/
def fDA (c : Head → Fld → Fld → Instr) : Form :=
  ⟨1, layS true true false fnR immR, fun
    | [g, n, d, a, x, y] => ok (c (headOf g n) (fldOf d x) (fldOf a y))
    | _ => nopD⟩
/-- a alone. -/
def fA (c : Head → Fld → Instr) : Form :=
  ⟨1, layS false true false fnR immR, fun
    | [g, n, a, y] => ok (c (headOf g n) (fldOf a y))
    | _ => nopD⟩
/-- d alone. -/
def fD (c : Head → Fld → Instr) : Form :=
  ⟨1, layS true false false fnR immR, fun
    | [g, n, d, x] => ok (c (headOf g n) (fldOf d x))
    | _ => nopD⟩
/-- d and a with a sub-form number of w bits in fn. -/
def fDAsub (w : Nat) (c : Head → Fld → Fld → Instr) : Form :=
  ⟨1, layS true true false [.f w, .r (5 - w)] immR, fun
    | [g, n, d, a, x, y, _] => ok (c (headOf g n) (fldOf d x) (fldOf a y))
    | _ => nopD⟩
/-- d, a and imm16. -/
def fDAI (c : Head → Fld → Fld → BitVec 16 → Instr) : Form :=
  ⟨1, layS true true false fnR immF, fun
    | [g, n, d, a, x, y, i] => ok (c (headOf g n) (fldOf d x) (fldOf a y) (bv 16 i))
    | _ => nopD⟩
/-- min and max: fn bit 43. -/
def fMM (c : Head → Fld → Fld → Fld → Bool → Instr) : Form :=
  ⟨1, layS true true true [.f 1, .r 4] immR, fun
    | [g, n, d, a, b, x, y, z, u] => ok (c (headOf g n) (fldOf d x) (fldOf a y) (fldOf b z) (u == 1))
    | _ => nopD⟩
/-- Scalar floating point with a rounding code (R273). -/
def fFp3 (c : Head → Fld → Fld → Fld → FTy → Rc → Instr) : Form :=
  ⟨1, layS true true true [.f 3, .f 2] immR, fun
    | [g, n, d, a, b, x, y, z, r, t] =>
      ⟨[(rcBad r, 43), (t == 3, 46)], c (headOf g n) (fldOf d x) (fldOf a y) (fldOf b z) (ftyOf t) (rcOf r)⟩
    | _ => nopD⟩
/-- fmin and fmax: the rounding bits must be zero (R275). -/
def fFpM (c : Head → Fld → Fld → Fld → FTy → Instr) : Form :=
  ⟨1, layS true true true [.f 3, .f 2] immR, fun
    | [g, n, d, a, b, x, y, z, r, t] =>
      ⟨[(r != 0, 43), (t == 3, 46)], c (headOf g n) (fldOf d x) (fldOf a y) (fldOf b z) (ftyOf t)⟩
    | _ => nopD⟩
def fnMask : List Slot := [.f 3, .r 2]
/-- Vector floating point, two operands, with a rounding code (R281, R282). -/
def fV3 (c : Head → Fld → Fld → Fld → BitVec 3 → FTy → Rc → Instr) : Form :=
  ⟨1, layS true true true fnMask [.f 4, .f 3, .r 9], fun
    | [g, n, d, a, b, x, y, z, m, t, r] =>
      ⟨[(fmtBad Fmt.isF t, 48), (rcBad r, 52)],
       c (headOf g n) (fldOf d x) (fldOf a y) (fldOf b z) (bv 3 m) (ftyOf t) (rcOf r)⟩
    | _ => nopD⟩
/-- Vector floating point, one operand, with a rounding code. -/
def fV2 (c : Head → Fld → Fld → BitVec 3 → FTy → Rc → Instr) : Form :=
  ⟨1, layS true true false fnMask [.f 4, .f 3, .r 9], fun
    | [g, n, d, a, x, y, m, t, r] =>
      ⟨[(fmtBad Fmt.isF t, 48), (rcBad r, 52)],
       c (headOf g n) (fldOf d x) (fldOf a y) (bv 3 m) (ftyOf t) (rcOf r)⟩
    | _ => nopD⟩
/-- vmin and vmax. -/
def fVM (c : Head → Fld → Fld → Fld → BitVec 3 → FTy → Instr) : Form :=
  ⟨1, layS true true true fnMask [.f 4, .r 12], fun
    | [g, n, d, a, b, x, y, z, m, t] =>
      ⟨[(fmtBad Fmt.isF t, 48)], c (headOf g n) (fldOf d x) (fldOf a y) (fldOf b z) (bv 3 m) (ftyOf t)⟩
    | _ => nopD⟩
/-- Three vector fields and a format from a set. -/
def fVF3 (p : Fmt → Bool) (c : Head → Fld → Fld → Fld → BitVec 3 → Fmt → Instr) : Form :=
  ⟨1, layS true true true fnMask [.f 4, .r 12], fun
    | [g, n, d, a, b, x, y, z, m, t] =>
      ⟨[(fmtBad p t, 48)], c (headOf g n) (fldOf d x) (fldOf a y) (fldOf b z) (bv 3 m) (fmtOf t)⟩
    | _ => nopD⟩
/-- viadd and visub. -/
def fVS (c : Head → Fld → Fld → Fld → BitVec 3 → Fmt → Bool → Instr) : Form :=
  ⟨1, layS true true true fnMask [.f 4, .r 3, .f 1, .r 8], fun
    | [g, n, d, a, b, x, y, z, m, t, s] =>
      ⟨[(fmtBad Fmt.isI t, 48)], c (headOf g n) (fldOf d x) (fldOf a y) (fldOf b z) (bv 3 m) (fmtOf t) (s == 1)⟩
    | _ => nopD⟩
/-- A lane number in bits 60:55, for vext and vins. -/
def fVK (c : Head → Fld → Fld → Fmt → BitVec 6 → Instr) : Form :=
  ⟨1, layS true true false fnR [.f 4, .r 3, .f 6, .r 3], fun
    | [g, n, d, a, x, y, t, k] =>
      ⟨[(fmtBad Fmt.isM t, 48), (decide ((fmtOf t).lanes ≤ k), 55)],
       c (headOf g n) (fldOf d x) (fldOf a y) (fmtOf t) (bv 6 k)⟩
    | _ => nopD⟩
def fnMem : List Slot := [.f 2, .f 2, .f 1]
/-- Scalar load: d and a (R227). -/
def fLd (bad : Nat → Nat → Nat → List (Bool × Nat))
    (c : Head → Fld → Fld → Nat → Nat → Nat → BitVec 16 → Instr) : Form :=
  ⟨1, layS true true false fnMem immF, fun
    | [g, n, d, a, x, y, z, o, t, i] => ⟨bad z o t, c (headOf g n) (fldOf d x) (fldOf a y) z o t (bv 16 i)⟩
    | _ => nopD⟩
/-- Scalar store: a and b. -/
def fSt (bad : Nat → Nat → Nat → List (Bool × Nat))
    (c : Head → Fld → Fld → Nat → Nat → Nat → BitVec 16 → Instr) : Form :=
  ⟨1, layS false true true fnMem immF, fun
    | [g, n, a, b, y, z', z, o, t, i] => ⟨bad z o t, c (headOf g n) (fldOf a y) (fldOf b z') z o t (bv 16 i)⟩
    | _ => nopD⟩
def badSp (z o t : Nat) : List (Bool × Nat) := [(t == 1 && z == 0, 43), (o != 0, 45)]
def badDev (z o t : Nat) : List (Bool × Nat) := [(t == 1 && z == 0, 43), (o == 3, 45)]
def badHost (z o t : Nat) : List (Bool × Nat) := [(t == 1 && z == 0, 43), (o != 0, 45), (t == 1, 47)]
/-- Vector load: d and a; vector store: a and b (R298). -/
def fVLd (c : Head → Fld → Fld → Bool → BitVec 3 → BitVec 16 → Instr) : Form :=
  ⟨1, layS true true false [.f 3, .r 1, .f 1] immF, fun
    | [g, n, d, a, x, y, m, t, i] => ok (c (headOf g n) (fldOf d x) (fldOf a y) (t == 1) (bv 3 m) (bv 16 i))
    | _ => nopD⟩
def fVSt (c : Head → Fld → Fld → Bool → BitVec 3 → BitVec 16 → Instr) : Form :=
  ⟨1, layS false true true [.f 3, .r 1, .f 1] immF, fun
    | [g, n, a, b, y, z, m, t, i] => ok (c (headOf g n) (fldOf a y) (fldOf b z) (t == 1) (bv 3 m) (bv 16 i))
    | _ => nopD⟩
/-- bar: fn whole, k in imm16. -/
def fBar (a : Bool) (c : Head → Fld → Fld → BitVec 4 → Instr) : Form :=
  ⟨1, layS true a false [.f 5] [.f 4, .r 12], fun
    | [g, n, d, x, _, k] => ok (c (headOf g n) (fldOf d x) ⟨0, false⟩ (bv 4 k))
    | [g, n, d, a, x, y, _, k] => ok (c (headOf g n) (fldOf d x) (fldOf a y) (bv 4 k))
    | _ => nopD⟩
def csrBad (r : Nat) : Bool := !csrAssigned (bv 12 r)
/-- csrw, csrs and csrc. -/
def fCsr (c : Head → Fld → Fld → BitVec 12 → Instr) : Form :=
  ⟨1, layS true true false fnR [.f 12, .r 4], fun
    | [g, n, d, a, x, y, r] => ⟨[(csrBad r, 48)], c (headOf g n) (fldOf d x) (fldOf a y) (bv 12 r)⟩
    | _ => nopD⟩
/-- tanr and tanw: a plane from 1 to 4 (R333). -/
def fTan (c : Head → Fld → Fld → BitVec 3 → Bool → Instr) : Form :=
  ⟨1, layS true true false [.f 3, .r 1, .f 1] immR, fun
    | [g, n, d, a, x, y, j, v] => ⟨[(j == 0 || decide (4 < j), 43)], c (headOf g n) (fldOf d x) (fldOf a y) (bv 3 j) (v == 1)⟩
    | _ => nopD⟩
/-- copy and copyr (R323); the spaces decide which of cbn, port and ent are fields, and which format codes are looked at
(R218, R224). -/
def fCopy (dsp ssp bk : Nat) (c : Head → Fld → Fld → Fld → Fld → CopyEng → Instr) : Form :=
  ⟨3, layQ true true true fnR ++
      [.r 30, .f 2, slotIf (bk == 1) 4, .f 1, slotIf (ssp == 4 || dsp == 4) 3, slotIf (dsp == 5) 4,
       .f 3, .f 3, .f 4, .f 4, .f 3, .f 3],
    fun vs =>
      match vs with
      | g :: n :: d :: a :: b :: x :: y :: z :: cc :: w :: o :: vs =>
        let (ent, vs) := if bk == 1 then (vs.headD 0, vs.tailD []) else (0, vs)
        let vs := vs.tailD []
        let (port, vs) := if ssp == 4 || dsp == 4 then (vs.headD 0, vs.tailD []) else (0, vs)
        let (cbn, vs) := if dsp == 5 then (vs.headD 0, vs.tailD []) else (0, vs)
        match vs with
        | [l, r, df, sf, dp, sp] =>
          ⟨[(rcBad r, 111), (decide (2 ≤ sp) && sf == 6, 118), (!(decide (dp < 2) || dp == 5) && df == 6, 114)],
           c (headOf g n) (fldOf d x) (fldOf a y) (fldOf b z) (fldOf cc w)
             ⟨bv 3 sp, bv 3 dp, bv 4 sf, bv 4 df, rcOf r, bv 3 l, bv 4 cbn, bv 3 port, bk == 1, bv 4 ent, bv 2 o⟩⟩
        | _ => nopD
      | _ => nopD⟩
/-- hire (R317); its kind and dsp decide which of d, arr, ent and dfmt are fields. -/
def fHire (kind dsp hc : Nat) : Form :=
  ⟨3, slotHead ++ [slotIf (kind == 3) 8, .f 8, .f 8, .f 1, .f 1, .f 1, .r 5, .f 8, .f 1, .r 7] ++
      [.r 6, slotIf (kind == 0) 7, .f 2, .f 3, .f 3, .f 2, slotIf (kind == 3) 4, .f 1, slotIf (dsp == 1) 4,
       .f 1, .f 14, .f 17],
    fun vs =>
      match vs with
      | g :: n :: vs =>
        let (d, vs) := if kind == 3 then (vs.headD 0, vs.tailD []) else (0, vs)
        match vs with
        | a :: b :: x :: y :: z :: cc :: w :: vs =>
          let (arr, vs) := if kind == 0 then (vs.headD 0, vs.tailD []) else (0, vs)
          match vs with
          | _ :: l :: r :: cl :: vs =>
            let (ent, vs) := if kind == 3 then (vs.headD 0, vs.tailD []) else (0, vs)
            let vs := vs.tailD []
            let (df, vs) := if dsp == 1 then (vs.headD 0, vs.tailD []) else (0, vs)
            match vs with
            | [_, co, st] =>
              ⟨[(rcBad r, 82), (dsp == 1 && df == 6, 92)],
               .hire (headOf g n) (fldOf d x) (fldOf a y) (fldOf b z) (fldOf cc w)
                 ⟨bv 17 st, bv 14 co, hc == 1, bv 4 df, dsp == 1, bv 4 ent, bv 2 cl, rcOf r, bv 3 l, hkOf kind,
                  bv 7 arr⟩⟩
            | _ => nopD
          | _ => nopD
        | _ => nopD
      | _ => nopD⟩

/-! ### The opcode map (R229): where the sub-form stands, and the form of each sub-form -/

/-- The position and width of the bits of an opcode that select its sub-form. -/
def variantBits (op : Nat) : List (Nat × Nat) :=
  match op with
  | 0x0A => [(43, 2)]
  | 0x0C | 0x11 | 0x84 | 0xA5 => [(43, 1)]
  | 0x3F | 0x93 => [(43, 5)]
  | 0x4B => [(43, 3)]
  | 0x67 | 0x68 => [(55, 3)]
  | 0xA7 | 0xC4 => [(43, 2)]
  | 0xA0 => [(77, 2), (91, 1), (96, 1)]
  | 0xA3 | 0xA4 => [(122, 3), (125, 3), (100, 1)]
  | _ => []

/-- The sub-form numbers of a word. -/
def variantOf (op w : Nat) : List Nat := (variantBits op).map fun (p, n) => w / 2 ^ p % 2 ^ n

/-- Opcodes 0x00 to 0x15 (R242 to R262). -/
def formControl (op : Nat) (v : List Nat) : Option Form :=
  match op with
  | 0x00 => some (fNone .nop)
  | 0x01 => some ⟨1, layB false (.r 16), fun | [g, n, i] => ok (.br (headOf g n) (bv 24 i)) | _ => nopD⟩
  | 0x02 => some ⟨1, layB true (.r 16), fun
      | [g, n, i, a] => ok (.brl (headOf g n) (bv 8 a) (bv 24 i)) | _ => nopD⟩
  | 0x03 => some (fA .jr)
  | 0x04 => some (fDA .jrl)
  | 0x05 => some ⟨1, layB true (.r 16), fun
      | [g, n, i, a] => ok (.loop (headOf g n) (bv 8 a) (bv 24 i)) | _ => nopD⟩
  | 0x06 => some ⟨1, layB false (.f 16), fun
      | [g, n, i, m] => ok (.loopi (headOf g n) (bv 16 m) (bv 24 i)) | _ => nopD⟩
  | 0x07 => some (fNone .exit)
  | 0x08 => some (fNone .yield)
  | 0x09 => some ⟨1, layS false false false [.f 4, .r 1] immF, fun
      | [g, n, m, i] => ⟨[(m == 0, 43)], .waitc (headOf g n) (bv 4 m) (bv 16 i)⟩ | _ => nopD⟩
  | 0x0A =>
    match v with
    | [0] => some (fDAsub 2 .waiteEv)
    | [3] => some (fDAsub 2 .waiteBk)
    | [k] => some ⟨1, layS true false true [.f 2, .r 3] immF, fun
        | [g, n, d, b, x, z, _, i] =>
          ok (if k == 1 then .waiteL (headOf g n) (fldOf d x) (fldOf b z) (bv 16 i)
              else .waiteCb (headOf g n) (fldOf d x) (fldOf b z) (bv 16 i))
        | _ => nopD⟩
    | _ => none
  | 0x0B => some ⟨1, layS false false false [.f 4, .r 1] immF, fun
      | [g, n, m, i] => ok (.trap (headOf g n) (bv 4 m) (bv 16 i)) | _ => nopD⟩
  | 0x0C => some ⟨1, layS false false false [.f 1, .r 4] immR, fun
      | [g, n, x] => ok (if x == 1 then .eretNext (headOf g n) else .eret (headOf g n)) | _ => nopD⟩
  | 0x0D => some ⟨2, layM true true true fnR [.f 32], fun
      | [g, n, d, a, b, x, y, z, i] =>
        ok (.spawn (headOf g n) (fldOf d x) (fldOf a y) (fldOf b z) (bv 32 i)) | _ => nopD⟩
  | 0x0E => some (fDA .kill)
  | 0x0F => some (fDA .migr)
  | 0x10 => some (fDAB .send)
  | 0x11 =>
    match v with
    | [0] => some ⟨1, layS true false false [.f 1, .r 4] immR, fun
        | [g, n, d, x, _] => ok (.recv (headOf g n) (fldOf d x)) | _ => nopD⟩
    | [1] => some ⟨1, layS true false true [.f 1, .r 4] immR, fun
        | [g, n, d, b, x, z, _] => ok (.recvTry (headOf g n) (fldOf d x) (fldOf b z)) | _ => nopD⟩
    | _ => none
  | 0x12 => some (fDAB .signal)
  | 0x13 => some (fDAB .swap)
  | 0x14 => some ⟨1, layS true true true [.f 1, .r 4] immF, fun
      | [g, n, d, a, b, x, y, z, s, i] =>
        ok (.ctxsv (headOf g n) (fldOf d x) (fldOf a y) (fldOf b z) (s == 1) (bv 16 i)) | _ => nopD⟩
  | 0x15 => some ⟨1, layS true true false [.f 1, .r 4] immR, fun
      | [g, n, d, a, x, y, s] => ok (.ctxld (headOf g n) (fldOf d x) (fldOf a y) (s == 1)) | _ => nopD⟩
  | _ => none

/-- Opcodes 0x20 to 0x3F (R263 to R272). -/
def formInteger (op : Nat) (v : List Nat) : Option Form :=
  match op with
  | 0x20 => some (fDAB .add)
  | 0x21 => some (fDAB .sub)
  | 0x22 => some (fDAI .addi)
  | 0x23 => some (fDAB .mul)
  | 0x24 => some (fDAB .mulh)
  | 0x25 => some (fDAB .mulhu)
  | 0x26 => some (fDAB .div)
  | 0x27 => some (fDAB .divu)
  | 0x28 => some (fDAB .rem)
  | 0x29 => some (fDAB .remu)
  | 0x2A => some (fDAB .and)
  | 0x2B => some (fDAB .or)
  | 0x2C => some (fDAB .xor)
  | 0x2D => some (fDAI .andi)
  | 0x2E => some (fDAI .ori)
  | 0x2F => some (fDAI .xori)
  | 0x30 => some (fDAB .shl)
  | 0x31 => some (fDAB .shr)
  | 0x32 => some (fDAB .sra)
  | 0x33 => some ⟨1, layS true true false [.f 2, .r 3] [.f 6, .r 10], fun
      | [g, n, d, a, x, y, k, i] =>
        ok (.shi (headOf g n) (fldOf d x) (fldOf a y) (shOf k) (bv 6 i)) | _ => nopD⟩
  | 0x34 => some (fMM .min)
  | 0x35 => some (fMM .max)
  | 0x36 => some ⟨1, layS true true true [.f 3, .r 2] immR, fun
      | [g, n, d, a, b, x, y, z, c] =>
        ⟨[(c == 7, 43)], .cmp (headOf g n) (fldOf d x) (fldOf a y) (fldOf b z) (condOf c)⟩ | _ => nopD⟩
  | 0x37 => some ⟨1, layS true true false [.f 3, .r 2] immF, fun
      | [g, n, d, a, x, y, c, i] =>
        ⟨[(c == 7, 43)], .cmpi (headOf g n) (fldOf d x) (fldOf a y) (condOf c) (bv 16 i)⟩ | _ => nopD⟩
  | 0x38 => some ⟨1, layS true true true [.f 4, .f 1] immR, fun
      | [g, n, d, a, b, x, y, z, p, q] =>
        ok (.sel (headOf g n) (fldOf d x) (fldOf a y) (fldOf b z) (bv 4 p) (q == 1)) | _ => nopD⟩
  | 0x39 => some ⟨2, layM true false false [.f 1, .r 4] [.f 32], fun
      | [g, n, d, x, z, i] => ok (.movi (headOf g n) (fldOf d x) (z == 1) (bv 32 i)) | _ => nopD⟩
  | 0x3A => some ⟨2, layM true true false fnR [.f 32], fun
      | [g, n, d, a, x, y, i] => ok (.movh (headOf g n) (fldOf d x) (fldOf a y) (bv 32 i)) | _ => nopD⟩
  | 0x3B => some ⟨2, layM true false false fnR [.f 32], fun
      | [g, n, d, x, i] => ok (.lea (headOf g n) (fldOf d x) (bv 32 i)) | _ => nopD⟩
  | 0x3C => some ⟨1, layS true true false [.f 2, .r 3] immR, fun
      | [g, n, d, a, x, y, k] => ok (.bits (headOf g n) (fldOf d x) (fldOf a y) (bitsOf k)) | _ => nopD⟩
  | 0x3D => some ⟨1, layS true true false [.f 1, .r 4] [.f 6, .f 6, .r 4], fun
      | [g, n, d, a, x, y, s, p, w] =>
        ⟨[(decide (64 < p + w + 1), 48)],
         .ext (headOf g n) (fldOf d x) (fldOf a y) (s == 1) (bv 6 p) (bv 6 w)⟩ | _ => nopD⟩
  | 0x3E => some ⟨2, layM true true true fnR [.f 6, .f 6, .r 20], fun
      | [g, n, d, a, b, x, y, z, p, w] =>
        ⟨[(decide (64 < p + w + 1), 64)],
         .ins (headOf g n) (fldOf d x) (fldOf a y) (fldOf b z) (bv 6 p) (bv 6 w)⟩ | _ => nopD⟩
  | 0x3F =>
    match v with
    | [16] => some ⟨1, layS true false false [.f 5] immR, fun
        | [g, n, d, x, _] => ok (.plogGet (headOf g n) (fldOf d x)) | _ => nopD⟩
    | [17] => some ⟨1, layS false true false [.f 5] immR, fun
        | [g, n, a, y, _] => ok (.plogSet (headOf g n) (fldOf a y)) | _ => nopD⟩
    | _ => some ⟨1, layS true true true [.f 5] immR, fun
        | [g, n, d, a, b, x, y, z, t] =>
          ⟨[(decide (16 ≤ t), 43)], .plog (headOf g n) (fldOf d x) (fldOf a y) (fldOf b z) (bv 4 t)⟩ | _ => nopD⟩
  | _ => none

/-- Opcodes 0x40 to 0x4B (R273 to R278). -/
def formScalarFp (op : Nat) (v : List Nat) : Option Form :=
  match op with
  | 0x40 => some (fFp3 .fadd)
  | 0x41 => some (fFp3 .fsub)
  | 0x42 => some (fFp3 .fmul)
  | 0x43 => some ⟨1, layQ true true true [.f 3, .f 2], fun
      | [g, n, d, a, b, x, y, z, r, t, c, w] =>
        ⟨[(rcBad r, 43), (t == 3, 46)],
         .fma (headOf g n) (fldOf d x) (fldOf a y) (fldOf b z) (fldOf c w) (ftyOf t) (rcOf r)⟩ | _ => nopD⟩
  | 0x44 => some (fFp3 .fdiv)
  | 0x45 => some ⟨1, layS true true false [.f 3, .f 2] immR, fun
      | [g, n, d, a, x, y, r, t] =>
        ⟨[(rcBad r, 43), (t == 3, 46)], .fsqrt (headOf g n) (fldOf d x) (fldOf a y) (ftyOf t) (rcOf r)⟩ | _ => nopD⟩
  | 0x46 => some (fFpM .fmin)
  | 0x47 => some (fFpM .fmax)
  | 0x48 => some ⟨1, layS true true true [.f 3, .f 2] immR, fun
      | [g, n, d, a, b, x, y, z, c, t] =>
        ⟨[(t == 3, 46)], .fcmp (headOf g n) (fldOf d x) (fldOf a y) (fldOf b z) (ftyOf t) (fcondOf c)⟩ | _ => nopD⟩
  | 0x49 => some ⟨1, layS true true false [.f 3, .f 2] [.f 4, .f 4, .r 8], fun
      | [g, n, d, a, x, y, r, q, t, s] =>
        ⟨[(rcBad r, 43), (q != 0, 46), (fmtBad Fmt.isC t || (Fmt.isI (fmtOf t) && Fmt.isI (fmtOf s)), 48),
          (fmtBad Fmt.isC s, 52)],
         .fcvt (headOf g n) (fldOf d x) (fldOf a y) (fmtOf t) (fmtOf s) (rcOf r)⟩ | _ => nopD⟩
  | 0x4A => some ⟨1, layS true true false [.f 3, .f 2] [.f 4, .f 4, .r 8], fun
      | [g, n, d, a, x, y, r, q, t, s] =>
        ⟨[(rcBad r, 43), (q != 0, 46), (fmtBad Fmt.isF t, 48), (fmtBad Fmt.isF s, 52)],
         .fcvti (headOf g n) (fldOf d x) (fldOf a y) (ftyOf t) (ftyOf s) (rcOf r)⟩ | _ => nopD⟩
  | 0x4B =>
    if v == [3] || v == [4] then some ⟨1, layS true true false [.f 3, .f 2] immR, fun
      | [g, n, d, a, x, y, o, t] =>
        ⟨[(t == 3, 46)], .fsgn (headOf g n) (fldOf d x) (fldOf a y) ⟨0, false⟩ (ftyOf t) (sgnOf o)⟩ | _ => nopD⟩
    else some ⟨1, layS true true true [.f 3, .f 2] immR, fun
      | [g, n, d, a, b, x, y, z, o, t] =>
        ⟨[(decide (5 ≤ o), 43), (t == 3, 46)],
         .fsgn (headOf g n) (fldOf d x) (fldOf a y) (fldOf b z) (ftyOf t) (sgnOf o)⟩ | _ => nopD⟩
  | _ => none

/-- Opcodes 0x50 to 0x6A (R279 to R292). -/
def formVector (op : Nat) (v : List Nat) : Option Form :=
  match op with
  | 0x50 => some (fV3 .vadd)
  | 0x51 => some (fV3 .vsub)
  | 0x52 => some (fV3 .vmul)
  | 0x53 => some ⟨2, layM true true true fnMask [.f 8, .r 8, .f 4, .f 3, .r 9], fun
      | [g, n, d, a, b, x, y, z, m, c, t, r] =>
        ⟨[(fmtBad Fmt.isF t, 80), (rcBad r, 84)],
         .vfma (headOf g n) (fldOf d x) (fldOf a y) (fldOf b z) (bv 8 c) (bv 3 m) (ftyOf t) (rcOf r)⟩ | _ => nopD⟩
  | 0x54 => some (fV3 .vdiv)
  | 0x55 => some (fV2 .vsqrt)
  | 0x56 => some (fVM .vmin)
  | 0x57 => some (fVM .vmax)
  | 0x58 => some ⟨1, layS true true true fnMask [.f 4, .r 3, .f 3, .r 6], fun
      | [g, n, d, a, b, x, y, z, m, t, c] =>
        ⟨[(fmtBad (fun f => f.isF || f.isI) t, 48), ((fmtOf t).isI && decide (6 ≤ c), 55)],
         .vcmp (headOf g n) (fldOf d x) (fldOf a y) (fldOf b z) (bv 3 m) (fmtOf t) (fcondOf c)⟩ | _ => nopD⟩
  | 0x59 => some (fVF3 Fmt.isM .vsel)
  | 0x5A => some ⟨1, layS true true false fnMask [.f 4, .f 3, .f 3, .r 2, .f 4], fun
      | [g, n, d, a, x, y, m, t, r, q, s] =>
        ⟨[(fmtBad Fmt.isC t || (Fmt.isI (fmtOf t) && Fmt.isI (fmtOf s)), 48), (rcBad r, 52),
          (decide (cvtParts (fmtOf t) (fmtOf s) ≤ q), 55), (fmtBad Fmt.isC s, 60)],
         .vcvt (headOf g n) (fldOf d x) (fldOf a y) (bv 3 m) (fmtOf t) (fmtOf s) (bv 3 q) (rcOf r)⟩ | _ => nopD⟩
  | 0x5B => some (fV2 .vred)
  | 0x5C => some (fV3 .vdot)
  | 0x5D => some (fVF3 Fmt.isM .vperm)
  | 0x5E => some ⟨1, layS true true false fnMask [.f 4, .r 3, .f 6, .r 3], fun
      | [g, n, d, a, x, y, m, t, k] =>
        ⟨[(fmtBad Fmt.isM t, 48), (decide ((fmtOf t).lanes ≤ k), 55)],
         .vbcast (headOf g n) (fldOf d x) (fldOf a y) (bv 3 m) (fmtOf t) (bv 6 k)⟩ | _ => nopD⟩
  | 0x5F => some (fVK .vext)
  | 0x60 => some (fVK .vins)
  | 0x61 => some (fVS .viadd)
  | 0x62 => some (fVS .visub)
  | 0x63 => some (fVF3 Fmt.isI .vimul)
  | 0x64 => some ⟨1, layS true true true fnMask [.f 4, .r 3, .f 2, .r 7], fun
      | [g, n, d, a, b, x, y, z, m, t, o] =>
        ⟨[(fmtBad Fmt.isI t, 48)],
         .vlog (headOf g n) (fldOf d x) (fldOf a y) (fldOf b z) (bv 3 m) (fmtOf t) (logOf o)⟩ | _ => nopD⟩
  | 0x65 => some ⟨1, layS true true true fnMask [.f 4, .r 3, .f 2, .r 7], fun
      | [g, n, d, a, b, x, y, z, m, t, o] =>
        ⟨[(fmtBad Fmt.isI t, 48)],
         .vsh (headOf g n) (fldOf d x) (fldOf a y) (fldOf b z) (bv 3 m) (fmtOf t) (shOf o)⟩ | _ => nopD⟩
  | 0x66 => some ⟨1, layS true true false fnMask [.f 4, .r 12], fun
      | [g, n, d, a, x, y, m, t] =>
        ⟨[(fmtBad Fmt.isM t, 48)], .vmov (headOf g n) (fldOf d x) (fldOf a y) (bv 3 m) (fmtOf t)⟩ | _ => nopD⟩
  | 0x67 =>
    if v == [4] then some ⟨1, layS true true false fnR [.r 7, .f 3, .r 6], fun
      | [g, n, d, a, x, y, o] =>
        ok (.vmask (headOf g n) (fldOf d x) (fldOf a y) ⟨0, false⟩ (maskOf o)) | _ => nopD⟩
    else some ⟨1, layS true true true fnR [.r 7, .f 3, .r 6], fun
      | [g, n, d, a, b, x, y, z, o] =>
        ⟨[(decide (5 ≤ o), 55)],
         .vmask (headOf g n) (fldOf d x) (fldOf a y) (fldOf b z) (maskOf o)⟩ | _ => nopD⟩
  | 0x68 =>
    if v == [3] || v == [4] then some ⟨1, layS true true false fnMask [.f 4, .r 3, .f 3, .r 6], fun
      | [g, n, d, a, x, y, m, t, o] =>
        ⟨[(fmtBad Fmt.isF t, 48)],
         .vfsgn (headOf g n) (fldOf d x) (fldOf a y) ⟨0, false⟩ (bv 3 m) (ftyOf t) (sgnOf o)⟩ | _ => nopD⟩
    else some ⟨1, layS true true true fnMask [.f 4, .r 3, .f 3, .r 6], fun
      | [g, n, d, a, b, x, y, z, m, t, o] =>
        ⟨[(fmtBad Fmt.isF t, 48), (decide (5 ≤ o), 55)],
         .vfsgn (headOf g n) (fldOf d x) (fldOf a y) (fldOf b z) (bv 3 m) (ftyOf t) (sgnOf o)⟩ | _ => nopD⟩
  | 0x69 => some (fV2 .vscan)
  | 0x6A => some ⟨1, layS true false false fnMask [.f 4, .r 12], fun
      | [g, n, d, x, m, t] =>
        ⟨[(fmtBad Fmt.isI t, 48)], .viota (headOf g n) (fldOf d x) (bv 3 m) (fmtOf t)⟩ | _ => nopD⟩
  | _ => none

/-- Opcodes 0x70 to 0x94 (R293 to R314). -/
def formMemory (op : Nat) (v : List Nat) : Option Form :=
  match op with
  | 0x70 => some (fLd badSp fun h d a z _ t i => .lds h d a (t == 1) (szOf z) i)
  | 0x71 => some (fSt badSp fun h a b z _ t i => .sts h a b (t == 1) (szOf z) i)
  | 0x72 => some (fVLd .vlds)
  | 0x73 => some (fVSt .vsts)
  | 0x74 => some (fLd badDev fun h d a z o t i => .ldd h d a (t == 1) (ordOf o) (szOf z) i)
  | 0x75 => some (fSt badDev fun h a b z o t i => .std h a b (t == 1) (ordOf o) (szOf z) i)
  | 0x76 => some (fVLd .vldd)
  | 0x77 => some (fVSt .vstd)
  | 0x78 => some (fLd badHost fun h d a z _ _ i => .ldh h d a (szOf z) i)
  | 0x79 => some (fSt badHost fun h a b z _ _ i => .sth h a b (szOf z) i)
  | 0x7A => some ⟨1, layS true true true [.f 2, .f 2, .r 1] [.f 4, .r 12], fun
      | [g, n, d, a, b, x, y, z, s, o, k] =>
        ⟨[(decide (s < 2), 43), (decide (9 ≤ k), 48)],
         .amod (headOf g n) (fldOf d x) (fldOf a y) (fldOf b z) (ordOf o) (s == 3) (atOf k)⟩ | _ => nopD⟩
  | 0x7B => some ⟨1, layQ true true true [.f 2, .f 2, .r 1], fun
      | [g, n, d, a, b, x, y, z, s, o, c, w] =>
        ⟨[(decide (s < 2), 43)],
         .casd (headOf g n) (fldOf d x) (fldOf a y) (fldOf b z) (fldOf c w) (ordOf o) (s == 3)⟩ | _ => nopD⟩
  | 0x7C => some ⟨1, layS true true true [.f 2, .r 3] [.f 4, .r 12], fun
      | [g, n, d, a, b, x, y, z, s, k] =>
        ⟨[(decide (s < 2), 43), (decide (9 ≤ k), 48)],
         .amos (headOf g n) (fldOf d x) (fldOf a y) (fldOf b z) (s == 3) (atOf k)⟩ | _ => nopD⟩
  | 0x7D => some ⟨1, layQ true true true [.f 2, .r 3], fun
      | [g, n, d, a, b, x, y, z, s, c, w] =>
        ⟨[(decide (s < 2), 43)],
         .cass (headOf g n) (fldOf d x) (fldOf a y) (fldOf b z) (fldOf c w) (s == 3)⟩ | _ => nopD⟩
  | 0x7E => some ⟨1, layS false false false [.f 2, .r 3] immR, fun
      | [g, n, s] => ok (.fence (headOf g n) (scopeOf s)) | _ => nopD⟩
  | 0x7F => some (fD .publish)
  | 0x80 => some ⟨1, layS true true false [.f 2, .r 3] immF, fun
      | [g, n, d, a, x, y, t, i] =>
        ⟨[(t == 3, 43)], .ldsb (headOf g n) (fldOf d x) (fldOf a y) (sbOf t) (bv 16 i)⟩ | _ => nopD⟩
  | 0x81 => some ⟨1, layS false true true [.f 2, .r 3] immF, fun
      | [g, n, a, b, y, z, t, i] =>
        ⟨[(t == 3, 43)], .stsb (headOf g n) (fldOf a y) (fldOf b z) (sbOf t) (bv 16 i)⟩ | _ => nopD⟩
  | 0x82 => some ⟨1, layS true true true fnMask [.f 4, .r 3, .f 3, .r 6], fun
      | [g, n, d, a, b, x, y, z, m, t, s] =>
        ⟨[(fmtBad Fmt.isM t, 48)],
         .vgas (headOf g n) (fldOf d x) (fldOf a y) (fldOf b z) (bv 3 m) (fmtOf t) (bv 3 s)⟩ | _ => nopD⟩
  | 0x83 => some ⟨1, slotHead ++ [.f 4, .f 3, .r 1, .f 8, .f 8, .r 1, .f 1, .f 1] ++ fnMask ++ [.f 8, .f 1, .r 7], fun
      | [g, n, t, s, a, b, y, z, m, c, w] =>
        ⟨[(fmtBad Fmt.isM t, 16)],
         .vscs (headOf g n) (fldOf a y) (fldOf b z) (fldOf c w) (bv 3 m) (fmtOf t) (bv 3 s)⟩ | _ => nopD⟩
  | 0x84 =>
    match v with
    | [0] => some (fDAsub 1 .pgmigNear)
    | [1] => some (fDAsub 1 .pgmigFar)
    | _ => none
  | 0x85 => some ⟨2, layM true true false fnR [.f 11, .f 4, .r 17], fun
      | [g, n, d, a, x, y, s, l] => ok (.cbset (headOf g n) (fldOf d x) (fldOf a y) (bv 11 s) (bv 4 l)) | _ => nopD⟩
  | 0x86 => some ⟨1, layS true false true fnR immR, fun
      | [g, n, d, b, x, z] => ok (.cbpop (headOf g n) (fldOf d x) (fldOf b z)) | _ => nopD⟩
  | 0x87 => some ⟨1, layS true false true fnR immR, fun
      | [g, n, d, b, x, z] => ok (.cbpush (headOf g n) (fldOf d x) (fldOf b z)) | _ => nopD⟩
  | 0x90 => some (fA .tenq)
  | 0x91 => some (fA .tdec)
  | 0x92 => some ⟨1, layS false true true fnR immR, fun
      | [g, n, a, b, y, z] => ok (.tset (headOf g n) (fldOf a y) (fldOf b z)) | _ => nopD⟩
  | 0x93 =>
    match v with
    | [0] => some (fBar false fun h d _ k => .barAw h d k)
    | [1] => some (fBar false fun h d _ k => .barArr h d k)
    | [2] => some (fBar true fun h d a k => .barWait h d a k)
    | _ => some ⟨1, layS true true false [.f 5] [.f 4, .r 12], fun _ => ⟨[(true, 43)], .nop ⟨0, false⟩⟩⟩
  | 0x94 => some (fDAB .qput)
  | _ => none

/-- Opcodes 0xA0 to 0xC8 (R315 to R338). -/
def formEngine (op : Nat) (v : List Nat) : Option Form :=
  match op with
  | 0xA0 =>
    match v with
    | [k, p, c] => some (fHire k p c)
    | _ => none
  | 0xA1 => some ⟨3, layOps true true true fnR ++ [.r 16, .r 36, .f 3, .f 1, .f 3, .f 2, .f 4, .f 15], fun
      | [g, n, d, a, b, x, y, z, l, s, kb, sp, t, k] =>
        ⟨[(decide (5 < t), 109)],
         .batld (headOf g n) (fldOf d x) (fldOf a y) (fldOf b z) ⟨bv 15 k, bv 4 t, bv 2 sp, bv 3 kb, s == 1, bv 3 l⟩⟩
      | _ => nopD⟩
  | 0xA2 => some (fA .batfree)
  | 0xA3 =>
    match v with
    | [dp, sp, k] => some (fCopy dp sp k .copy)
    | _ => none
  | 0xA4 =>
    match v with
    | [dp, sp, k] => some (fCopy dp sp k .copyr)
    | _ => none
  | 0xA5 =>
    match v with
    | [0] => some (fDAsub 1 .book)
    | [1] => some (fDAsub 1 .bookH)
    | _ => none
  | 0xA6 => some (fDA .unbook)
  | 0xA7 =>
    match v with
    | [0] => some (fDAsub 2 .hstatCp)
    | [1] => some (fDAsub 2 .hstatBk)
    | [2] => some (fDAsub 2 .hstatBt)
    | _ => some ⟨1, layS true true false [.f 2, .r 3] immR, fun _ => ⟨[(true, 43)], .nop ⟨0, false⟩⟩⟩
  | 0xB0 => some ⟨1, [.f 5, .r 1, .f 4, .r 44], fun
      | [g, m] => ⟨[(g != 0, 10)], .dual (bv 4 m)⟩ | _ => nopD⟩
  | 0xB1 => some ⟨1, layS true true false fnMask immR, fun
      | [g, n, d, a, x, y, j] => ⟨[(decide (4 < j), 43)], .bndr (headOf g n) (fldOf d x) (fldOf a y) (bv 3 j)⟩ | _ => nopD⟩
  | 0xB2 => some ⟨1, layS true true false [.f 3, .f 1, .r 1] immR, fun
      | [g, n, d, a, x, y, j, m] => ⟨[(decide (4 < j), 43)], .bndw (headOf g n) (fldOf d x) (fldOf a y) (bv 3 j) (m == 1)⟩ | _ => nopD⟩
  | 0xB3 => some (fTan .tanr)
  | 0xB4 => some (fTan .tanw)
  | 0xC0 => some ⟨1, layS true false false fnR [.f 12, .r 4], fun
      | [g, n, d, x, r] => ⟨[(csrBad r, 48)], .csrr (headOf g n) (fldOf d x) (bv 12 r)⟩ | _ => nopD⟩
  | 0xC1 => some (fCsr .csrw)
  | 0xC2 => some (fCsr .csrs)
  | 0xC3 => some (fCsr .csrc)
  | 0xC4 =>
    match v with
    | [0] => some (fDAsub 2 .tlbiVa)
    | [1] => some (fDAsub 2 .tlbiAll)
    | [2] => some (fDAsub 2 .tlbiLva)
    | [3] => some (fDAsub 2 .tlbiLall)
    | _ => none
  | 0xC5 => some (fDA .hold)
  | 0xC6 => some (fNone .halt)
  | 0xC7 => some ⟨1, layS false false false fnR immF, fun
      | [g, n, i] => ok (.ebreak (headOf g n) (bv 16 i)) | _ => nopD⟩
  | 0xC8 => some ⟨3, layQ true true true fnR ++ [.r 39, .f 3, .f 11, .f 11], fun
      | [g, n, d, a, b, x, y, z, c, w, l, len, base] =>
        ok (.mcast (headOf g n) (fldOf d x) (fldOf a y) (fldOf b z) (fldOf c w) ⟨bv 11 base, bv 11 len, bv 3 l⟩)
      | _ => nopD⟩
  | _ => none

/-- The form of an opcode and sub-form, if the map assigns the opcode (R229). -/
def formOf (op : Nat) (v : List Nat) : Option Form :=
  if op < 0x20 then formControl op v
  else if op < 0x40 then formInteger op v
  else if op < 0x50 then formScalarFp op v
  else if op < 0x70 then formVector op v
  else if op < 0xA0 then formMemory op v
  else formEngine op v

/-! ### Decoding -/

/-- The least position among offences that hold and reserved bits that are set. -/
def lowest (bad : List (Bool × Nat)) (res : List Nat) : Option Nat :=
  (((bad.filter (·.1)).map (·.2)) ++ res).foldl
    (fun m p => match m with | none => some p | some q => some (min q p)) none

/-- Decode an instruction held in the low bits of w; bits above its length are not looked at (R218). -/
def decodeWord (w : Nat) : Except Reject Instr :=
  let len := w % 4
  let op := w / 4 % 256
  if len = 0 then .error .length
  else match formOf op (variantOf op w) with
    | none => .error (.opcode op)
    | some F =>
      if F.len ≠ len then .error (.opcode op)
      else
        let body := w % 2 ^ (32 * (len + 1)) / 1024
        let r := F.rd (fieldsOf F.lay body)
        match lowest r.bad (reservedOf F.lay 10 body) with
        | some p => .error (.field p)
        | none => .ok r.ins

/-- The little-endian number of a list of bytes (R12). -/
def leNat : List Byte → Nat
  | [] => 0
  | b :: bs => b.toNat + 256 * leNat bs
/-- n bytes of a number, least significant first. -/
def leBytes : Nat → Nat → List Byte
  | 0, _ => []
  | n + 1, w => BitVec.ofNat 8 w :: leBytes n (w / 256)

/-- Decode the instruction at the head of a list of bytes, with the bytes that follow it. -/
def decode (bs : List Byte) : Except Reject (Instr × List Byte) :=
  match bs with
  | [] => .error .truncated
  | b :: _ =>
    let len := b.toNat % 4
    if len = 0 then .error .length
    else if bs.length < 4 * (len + 1) then .error .truncated
    else match decodeWord (leNat (bs.take (4 * (len + 1)))) with
      | .ok i => .ok (i, bs.drop (4 * (len + 1)))
      | .error e => .error e

/-- The instruction whose bits are w, numbered from bit 0 of the first word; bits from nbits up are zero. -/
def decodeTableWord (nbits w : Nat) : Option Instr :=
  match decode (leBytes 16 (w % 2 ^ nbits)) with
  | .ok (i, _) => some i
  | .error _ => none

/-! ### Encoding -/

def hv (h : Head) : List Nat := [h.guard.toNat, bitOf h.gneg]
def rDAB (h : Head) (d a b : Fld) : List Nat :=
  hv h ++ [d.spec.toNat, a.spec.toNat, b.spec.toNat, bitOf d.sync, bitOf a.sync, bitOf b.sync]
def rDA (h : Head) (d a : Fld) : List Nat :=
  hv h ++ [d.spec.toNat, a.spec.toNat, bitOf d.sync, bitOf a.sync]
def rD (h : Head) (d : Fld) : List Nat := hv h ++ [d.spec.toNat, bitOf d.sync]
def rcf (c : Fld) : List Nat := [c.spec.toNat, bitOf c.sync]

/-- Opcode and the values of the read slots of an instruction; none for an event. -/
def rowOf : Instr → Option (Nat × List Nat)
  | .nop h => some (0x00, hv h)
  | .br h disp => some (0x01, hv h ++ [disp.toNat])
  | .brl h a disp => some (0x02, hv h ++ [disp.toNat, a.toNat])
  | .jr h a => some (0x03, rD h a)
  | .jrl h d a => some (0x04, rDA h d a)
  | .loop h a disp => some (0x05, hv h ++ [disp.toNat, a.toNat])
  | .loopi h n disp => some (0x06, hv h ++ [disp.toNat, n.toNat])
  | .exit h => some (0x07, hv h)
  | .yield h => some (0x08, hv h)
  | .waitc h m n => some (0x09, hv h ++ [m.toNat, n.toNat])
  | .waiteEv h d a => some (0x0A, rDA h d a ++ [0])
  | .waiteL h d b n => some (0x0A, rDA h d b ++ [1, n.toNat])
  | .waiteCb h d b n => some (0x0A, rDA h d b ++ [2, n.toNat])
  | .waiteBk h d a => some (0x0A, rDA h d a ++ [3])
  | .trap h n c => some (0x0B, hv h ++ [n.toNat, c.toNat])
  | .eret h => some (0x0C, hv h ++ [0])
  | .eretNext h => some (0x0C, hv h ++ [1])
  | .spawn h d a b i => some (0x0D, rDAB h d a b ++ [i.toNat])
  | .kill h d a => some (0x0E, rDA h d a)
  | .migr h d a => some (0x0F, rDA h d a)
  | .send h d a b => some (0x10, rDAB h d a b)
  | .recv h d => some (0x11, rD h d ++ [0])
  | .recvTry h d b => some (0x11, rDA h d b ++ [1])
  | .signal h d a b => some (0x12, rDAB h d a b)
  | .swap h d a b => some (0x13, rDAB h d a b)
  | .ctxsv h d a b s c => some (0x14, rDAB h d a b ++ [bitOf s, c.toNat])
  | .ctxld h d a s => some (0x15, rDA h d a ++ [bitOf s])
  | .add h d a b => some (0x20, rDAB h d a b)
  | .sub h d a b => some (0x21, rDAB h d a b)
  | .addi h d a i => some (0x22, rDA h d a ++ [i.toNat])
  | .mul h d a b => some (0x23, rDAB h d a b)
  | .mulh h d a b => some (0x24, rDAB h d a b)
  | .mulhu h d a b => some (0x25, rDAB h d a b)
  | .div h d a b => some (0x26, rDAB h d a b)
  | .divu h d a b => some (0x27, rDAB h d a b)
  | .rem h d a b => some (0x28, rDAB h d a b)
  | .remu h d a b => some (0x29, rDAB h d a b)
  | .and h d a b => some (0x2A, rDAB h d a b)
  | .or h d a b => some (0x2B, rDAB h d a b)
  | .xor h d a b => some (0x2C, rDAB h d a b)
  | .andi h d a i => some (0x2D, rDA h d a ++ [i.toNat])
  | .ori h d a i => some (0x2E, rDA h d a ++ [i.toNat])
  | .xori h d a i => some (0x2F, rDA h d a ++ [i.toNat])
  | .shl h d a b => some (0x30, rDAB h d a b)
  | .shr h d a b => some (0x31, rDAB h d a b)
  | .sra h d a b => some (0x32, rDAB h d a b)
  | .shi h d a k n => some (0x33, rDA h d a ++ [shCode k, n.toNat])
  | .min h d a b u => some (0x34, rDAB h d a b ++ [bitOf u])
  | .max h d a b u => some (0x35, rDAB h d a b ++ [bitOf u])
  | .cmp h d a b c => some (0x36, rDAB h d a b ++ [condCode c])
  | .cmpi h d a c i => some (0x37, rDA h d a ++ [condCode c, i.toNat])
  | .sel h d a b p q => some (0x38, rDAB h d a b ++ [p.toNat, bitOf q])
  | .movi h d z i => some (0x39, rD h d ++ [bitOf z, i.toNat])
  | .movh h d a i => some (0x3A, rDA h d a ++ [i.toNat])
  | .lea h d i => some (0x3B, rD h d ++ [i.toNat])
  | .bits h d a o => some (0x3C, rDA h d a ++ [bitsCode o])
  | .ext h d a s p w => some (0x3D, rDA h d a ++ [bitOf s, p.toNat, w.toNat])
  | .ins h d a b p w => some (0x3E, rDAB h d a b ++ [p.toNat, w.toNat])
  | .plog h d a b t => some (0x3F, rDAB h d a b ++ [t.toNat])
  | .plogGet h d => some (0x3F, rD h d ++ [16])
  | .plogSet h a => some (0x3F, rD h a ++ [17])
  | .fadd h d a b t r => some (0x40, rDAB h d a b ++ [rcCode r, ftyCode t])
  | .fsub h d a b t r => some (0x41, rDAB h d a b ++ [rcCode r, ftyCode t])
  | .fmul h d a b t r => some (0x42, rDAB h d a b ++ [rcCode r, ftyCode t])
  | .fma h d a b c t r => some (0x43, rDAB h d a b ++ [rcCode r, ftyCode t] ++ rcf c)
  | .fdiv h d a b t r => some (0x44, rDAB h d a b ++ [rcCode r, ftyCode t])
  | .fsqrt h d a t r => some (0x45, rDA h d a ++ [rcCode r, ftyCode t])
  | .fmin h d a b t => some (0x46, rDAB h d a b ++ [0, ftyCode t])
  | .fmax h d a b t => some (0x47, rDAB h d a b ++ [0, ftyCode t])
  | .fcmp h d a b t c => some (0x48, rDAB h d a b ++ [fcondCode c, ftyCode t])
  | .fcvt h d a t s r => some (0x49, rDA h d a ++ [rcCode r, 0, fmtCode t, fmtCode s])
  | .fcvti h d a t s r => some (0x4A, rDA h d a ++ [rcCode r, 0, ftyCode t, ftyCode s])
  | .fsgn h d a b t o =>
    match o with
    | .neg | .abs => some (0x4B, rDA h d a ++ [sgnCode o, ftyCode t])
    | .cpy | .ncpy | .xsgn => some (0x4B, rDAB h d a b ++ [sgnCode o, ftyCode t])
  | .vadd h d a b m t r => some (0x50, rDAB h d a b ++ [m.toNat, ftyCode t, rcCode r])
  | .vsub h d a b m t r => some (0x51, rDAB h d a b ++ [m.toNat, ftyCode t, rcCode r])
  | .vmul h d a b m t r => some (0x52, rDAB h d a b ++ [m.toNat, ftyCode t, rcCode r])
  | .vfma h d a b c m t r => some (0x53, rDAB h d a b ++ [m.toNat, c.toNat, ftyCode t, rcCode r])
  | .vdiv h d a b m t r => some (0x54, rDAB h d a b ++ [m.toNat, ftyCode t, rcCode r])
  | .vsqrt h d a m t r => some (0x55, rDA h d a ++ [m.toNat, ftyCode t, rcCode r])
  | .vmin h d a b m t => some (0x56, rDAB h d a b ++ [m.toNat, ftyCode t])
  | .vmax h d a b m t => some (0x57, rDAB h d a b ++ [m.toNat, ftyCode t])
  | .vcmp h d a b m t c => some (0x58, rDAB h d a b ++ [m.toNat, fmtCode t, fcondCode c])
  | .vsel h d a b m t => some (0x59, rDAB h d a b ++ [m.toNat, fmtCode t])
  | .vcvt h d a m t s q r => some (0x5A, rDA h d a ++ [m.toNat, fmtCode t, rcCode r, q.toNat, fmtCode s])
  | .vred h d a m t r => some (0x5B, rDA h d a ++ [m.toNat, ftyCode t, rcCode r])
  | .vdot h d a b m t r => some (0x5C, rDAB h d a b ++ [m.toNat, ftyCode t, rcCode r])
  | .vperm h d a b m t => some (0x5D, rDAB h d a b ++ [m.toNat, fmtCode t])
  | .vbcast h d a m t k => some (0x5E, rDA h d a ++ [m.toNat, fmtCode t, k.toNat])
  | .vext h d a t k => some (0x5F, rDA h d a ++ [fmtCode t, k.toNat])
  | .vins h d a t k => some (0x60, rDA h d a ++ [fmtCode t, k.toNat])
  | .viadd h d a b m t s => some (0x61, rDAB h d a b ++ [m.toNat, fmtCode t, bitOf s])
  | .visub h d a b m t s => some (0x62, rDAB h d a b ++ [m.toNat, fmtCode t, bitOf s])
  | .vimul h d a b m t => some (0x63, rDAB h d a b ++ [m.toNat, fmtCode t])
  | .vlog h d a b m t o => some (0x64, rDAB h d a b ++ [m.toNat, fmtCode t, logCode o])
  | .vsh h d a b m t o => some (0x65, rDAB h d a b ++ [m.toNat, fmtCode t, shCode o])
  | .vmov h d a m t => some (0x66, rDA h d a ++ [m.toNat, fmtCode t])
  | .vmask h d a b o =>
    match o with
    | .not => some (0x67, rDA h d a ++ [maskCode o])
    | .and | .or | .xor | .andn => some (0x67, rDAB h d a b ++ [maskCode o])
  | .vfsgn h d a b m t o =>
    match o with
    | .neg | .abs => some (0x68, rDA h d a ++ [m.toNat, ftyCode t, sgnCode o])
    | .cpy | .ncpy | .xsgn => some (0x68, rDAB h d a b ++ [m.toNat, ftyCode t, sgnCode o])
  | .vscan h d a m t r => some (0x69, rDA h d a ++ [m.toNat, ftyCode t, rcCode r])
  | .viota h d m t => some (0x6A, rD h d ++ [m.toNat, fmtCode t])
  | .lds h d a t z i => some (0x70, rDA h d a ++ [szCode z, 0, bitOf t, i.toNat])
  | .sts h a b t z i => some (0x71, rDA h a b ++ [szCode z, 0, bitOf t, i.toNat])
  | .vlds h d a t m i => some (0x72, rDA h d a ++ [m.toNat, bitOf t, i.toNat])
  | .vsts h a b t m i => some (0x73, rDA h a b ++ [m.toNat, bitOf t, i.toNat])
  | .ldd h d a t o z i => some (0x74, rDA h d a ++ [szCode z, ordCode o, bitOf t, i.toNat])
  | .std h a b t o z i => some (0x75, rDA h a b ++ [szCode z, ordCode o, bitOf t, i.toNat])
  | .vldd h d a t m i => some (0x76, rDA h d a ++ [m.toNat, bitOf t, i.toNat])
  | .vstd h a b t m i => some (0x77, rDA h a b ++ [m.toNat, bitOf t, i.toNat])
  | .ldh h d a z i => some (0x78, rDA h d a ++ [szCode z, 0, 0, i.toNat])
  | .sth h a b z i => some (0x79, rDA h a b ++ [szCode z, 0, 0, i.toNat])
  | .amod h d a b o w k => some (0x7A, rDAB h d a b ++ [2 + bitOf w, ordCode o, atCode k])
  | .casd h d a b c o w => some (0x7B, rDAB h d a b ++ [2 + bitOf w, ordCode o] ++ rcf c)
  | .amos h d a b w k => some (0x7C, rDAB h d a b ++ [2 + bitOf w, atCode k])
  | .cass h d a b c w => some (0x7D, rDAB h d a b ++ [2 + bitOf w] ++ rcf c)
  | .fence h s => some (0x7E, hv h ++ [scopeCode s])
  | .publish h d => some (0x7F, rD h d)
  | .ldsb h d a t i => some (0x80, rDA h d a ++ [sbCode t, i.toNat])
  | .stsb h a b t i => some (0x81, rDA h a b ++ [sbCode t, i.toNat])
  | .vgas h d a b m t s => some (0x82, rDAB h d a b ++ [m.toNat, fmtCode t, s.toNat])
  | .vscs h a b c m t s => some (0x83, hv h ++ [fmtCode t, s.toNat, a.spec.toNat, b.spec.toNat, bitOf a.sync,
      bitOf b.sync, m.toNat] ++ rcf c)
  | .pgmigNear h d a => some (0x84, rDA h d a ++ [0])
  | .pgmigFar h d a => some (0x84, rDA h d a ++ [1])
  | .cbset h d a s l => some (0x85, rDA h d a ++ [s.toNat, l.toNat])
  | .cbpop h d b => some (0x86, rDA h d b)
  | .cbpush h d b => some (0x87, rDA h d b)
  | .tenq h a => some (0x90, rD h a)
  | .tdec h a => some (0x91, rD h a)
  | .tset h a b => some (0x92, rDA h a b)
  | .barAw h d k => some (0x93, rD h d ++ [0, k.toNat])
  | .barArr h d k => some (0x93, rD h d ++ [1, k.toNat])
  | .barWait h d a k => some (0x93, rDA h d a ++ [2, k.toNat])
  | .qput h d a b => some (0x94, rDAB h d a b)
  | .hire h d a b c e => some (0xA0, hv h ++ (if e.kind == .bk then [d.spec.toNat] else []) ++
      [a.spec.toNat, b.spec.toNat, bitOf d.sync, bitOf a.sync, bitOf b.sync] ++ rcf c ++
      (if e.kind == .at then [e.arr.toNat] else []) ++ [hkCode e.kind, e.lnum.toNat, rcCode e.rc, e.cls.toNat] ++
      (if e.kind == .bk then [e.ent.toNat] else []) ++ [bitOf e.dsp] ++ (if e.dsp then [e.dfmt.toNat] else []) ++
      [bitOf e.hc, e.cofs.toNat, e.sta.toNat])
  | .batld h d a b e => some (0xA1, rDAB h d a b ++
      [e.lnum.toNat, bitOf e.ssp, e.kb.toNat, e.sp.toNat, e.fmt.toNat, e.km1.toNat])
  | .batfree h a => some (0xA2, rD h a)
  | .copy h d a b c e => some (0xA3, rCopy h d a b c e)
  | .copyr h d a b c e => some (0xA4, rCopy h d a b c e)
  | .book h d a => some (0xA5, rDA h d a ++ [0])
  | .bookH h d a => some (0xA5, rDA h d a ++ [1])
  | .unbook h d a => some (0xA6, rDA h d a)
  | .hstatCp h d a => some (0xA7, rDA h d a ++ [0])
  | .hstatBk h d a => some (0xA7, rDA h d a ++ [1])
  | .hstatBt h d a => some (0xA7, rDA h d a ++ [2])
  | .dual m => some (0xB0, [0, m.toNat])
  | .bndr h d a j => some (0xB1, rDA h d a ++ [j.toNat])
  | .bndw h d a j m => some (0xB2, rDA h d a ++ [j.toNat, bitOf m])
  | .tanr h d a j v => some (0xB3, rDA h d a ++ [j.toNat, bitOf v])
  | .tanw h d a j v => some (0xB4, rDA h d a ++ [j.toNat, bitOf v])
  | .csrr h d n => some (0xC0, rD h d ++ [n.toNat])
  | .csrw h d a n => some (0xC1, rDA h d a ++ [n.toNat])
  | .csrs h d a n => some (0xC2, rDA h d a ++ [n.toNat])
  | .csrc h d a n => some (0xC3, rDA h d a ++ [n.toNat])
  | .tlbiVa h d a => some (0xC4, rDA h d a ++ [0])
  | .tlbiAll h d a => some (0xC4, rDA h d a ++ [1])
  | .tlbiLva h d a => some (0xC4, rDA h d a ++ [2])
  | .tlbiLall h d a => some (0xC4, rDA h d a ++ [3])
  | .hold h d a => some (0xC5, rDA h d a)
  | .halt h => some (0xC6, hv h)
  | .ebreak h n => some (0xC7, hv h ++ [n.toNat])
  | .mcast h d a b c e => some (0xC8, rDAB h d a b ++ rcf c ++ [e.lnum.toNat, e.len.toNat, e.base.toNat])
  | .discovery _ _ _ _ | .report _ _ _ | .map _ _ _ | .linePacket _ _ | .endFlit _ _ | .bootAck _
  | .startFlit _ _ | .attestationRequest _ | .synchronisedStop _ | .sweepToken _ _ | .tenantRestore _
  | .threadSeating _ | .contextSaveDone _ | .contextFetchDone _ | .sliceExpiry _ | .seatedWaitTimeout _
  | .fullBitChange _ | .waitEvent _ | .migrationArrival _ _ | .postedCauseTaken _ | .threadFreed _
  | .homePortAccess _ _ | .accessAnswer _ | .statusAnswer _ _ _ | .rowThrottle _ _ | .refreshSplit _
  | .registrationRequest _ _ | .stencilRegister _ | .registrationGrant _ _ | .copyRunning _ | .slotHandover _ _
  | .startMessage _ | .tracerLine _ | .copyData _ _ | .copyReport _ | .hirePlacement _ | .hireStart _
  | .arrayWindowEnd _ _ | .landingLine _ | .hireLanded _ | .bookAttempt _ _ | .pendingBookAttempt _ _
  | .bookingStart _ _ | .bookingEnd _ _ | .taskMessage _ _ _ | .spawnRequest _ | .killRequest _ _ _
  | .launchPacket _ | .dispatchAck _ _ | .kernelRelease _ | .kernelRetirement _ | .queueCreate _
  | .wakeWrite _ _ | .queueDestroy _ | .queueDestroyed _ | .unmappingEnd _ | .idleUnmap _
  | .qputRequest _ _ _ _ _ | .barrierArrival _ _ _ _ | .barrierRelease _ _ _ | .barrierWithdrawal _ _
  | .queueEntry _ _ _ | .creditReturn _ _ | .probeTokenSend _ | .probeToken _ _ _ _ | .mailboxDelivery _ _ _ _
  | .sendRetry _ | .signalDelivery _ _ _ _ | .publishApply _ _ | .peerWrite _ _ _ | .frameAvailable _ _
  | .shootdown _ _ _ | .migrationComplete _ | .pageEviction _ _ _ | .pageRetire _ _ | .peerPortFailure _
  | .thermalExcursion _ _ | .supplyDroop _ _ | .tenantSwitch _ _ | .partitionCreate _ | .partitionDestroy _
  | .dispatchMulticast _ _ | .evictionComplete _ | .hostWritePerformed _ | .tickBoundary | .reset
  | .reportTimeout | .imageSend | .firmwareStart | .holdRequest | .resumeRequest | .holdReached
  | .resumptionComplete | .retentionPowerLoss | .lifeLogWrite | .compaction | .slotGrant | .linkDownTimeout
  | .linkRetrain | .prietLinkDown | .refreshWindowEnd | .hang => none
where
  rCopy (h : Head) (d a b c : Fld) (e : CopyEng) : List Nat :=
    rDAB h d a b ++ rcf c ++ [e.op.toNat] ++ (if e.bk then [e.ent.toNat] else []) ++ [bitOf e.bk] ++
    (if e.ssp == 4#3 || e.dsp == 4#3 then [e.port.toNat] else []) ++ (if e.dsp == 5#3 then [e.cbn.toNat] else []) ++
    [e.lnum.toNat, rcCode e.rc, e.dfmt.toNat, e.sfmt.toNat, e.dsp.toNat, e.ssp.toNat]

/-- The sub-form numbers of an instruction, as variantOf reads them back. -/
def subOf : Instr → List Nat
  | .waiteEv _ _ _ => [0]
  | .waiteL _ _ _ _ => [1]
  | .waiteCb _ _ _ _ => [2]
  | .waiteBk _ _ _ => [3]
  | .eret _ | .recv _ _ | .pgmigNear _ _ _ | .book _ _ _ => [0]
  | .eretNext _ | .recvTry _ _ _ | .pgmigFar _ _ _ | .bookH _ _ _ => [1]
  | .plog _ _ _ _ t => [t.toNat]
  | .plogGet _ _ => [16]
  | .plogSet _ _ => [17]
  | .fsgn _ _ _ _ _ o => [sgnCode o]
  | .vmask _ _ _ _ o => [maskCode o]
  | .vfsgn _ _ _ _ _ _ o => [sgnCode o]
  | .barAw _ _ _ => [0]
  | .barArr _ _ _ => [1]
  | .barWait _ _ _ _ => [2]
  | .hire _ _ _ _ _ e => [hkCode e.kind, bitOf e.dsp, bitOf e.hc]
  | .copy _ _ _ _ _ e | .copyr _ _ _ _ _ e => [e.dsp.toNat, e.ssp.toNat, bitOf e.bk]
  | .hstatCp _ _ _ => [0]
  | .hstatBk _ _ _ => [1]
  | .hstatBt _ _ _ => [2]
  | .tlbiVa _ _ _ => [0]
  | .tlbiAll _ _ _ => [1]
  | .tlbiLva _ _ _ => [2]
  | .tlbiLall _ _ _ => [3]
  | .nop _ | .br _ _ | .brl _ _ _ | .jr _ _ | .jrl _ _ _ | .loop _ _ _ | .loopi _ _ _ | .exit _ | .yield _
  | .waitc _ _ _ | .trap _ _ _ | .spawn _ _ _ _ _ | .kill _ _ _ | .migr _ _ _ | .send _ _ _ _ | .signal _ _ _ _
  | .swap _ _ _ _ | .ctxsv _ _ _ _ _ _ | .ctxld _ _ _ _ | .add _ _ _ _ | .sub _ _ _ _ | .addi _ _ _ _
  | .mul _ _ _ _ | .mulh _ _ _ _ | .mulhu _ _ _ _ | .div _ _ _ _ | .divu _ _ _ _ | .rem _ _ _ _ | .remu _ _ _ _
  | .and _ _ _ _ | .or _ _ _ _ | .xor _ _ _ _ | .andi _ _ _ _ | .ori _ _ _ _ | .xori _ _ _ _ | .shl _ _ _ _
  | .shr _ _ _ _ | .sra _ _ _ _ | .shi _ _ _ _ _ | .min _ _ _ _ _ | .max _ _ _ _ _ | .cmp _ _ _ _ _
  | .cmpi _ _ _ _ _ | .sel _ _ _ _ _ _ | .movi _ _ _ _ | .movh _ _ _ _ | .lea _ _ _ | .bits _ _ _ _
  | .ext _ _ _ _ _ _ | .ins _ _ _ _ _ _ | .fadd _ _ _ _ _ _ | .fsub _ _ _ _ _ _ | .fmul _ _ _ _ _ _
  | .fma _ _ _ _ _ _ _ | .fdiv _ _ _ _ _ _ | .fsqrt _ _ _ _ _ | .fmin _ _ _ _ _ | .fmax _ _ _ _ _
  | .fcmp _ _ _ _ _ _ | .fcvt _ _ _ _ _ _ | .fcvti _ _ _ _ _ _ | .vadd _ _ _ _ _ _ _ | .vsub _ _ _ _ _ _ _
  | .vmul _ _ _ _ _ _ _ | .vfma _ _ _ _ _ _ _ _ | .vdiv _ _ _ _ _ _ _ | .vsqrt _ _ _ _ _ _ | .vmin _ _ _ _ _ _
  | .vmax _ _ _ _ _ _ | .vcmp _ _ _ _ _ _ _ | .vsel _ _ _ _ _ _ | .vcvt _ _ _ _ _ _ _ _ | .vred _ _ _ _ _ _
  | .vdot _ _ _ _ _ _ _ | .vperm _ _ _ _ _ _ | .vbcast _ _ _ _ _ _ | .vext _ _ _ _ _ | .vins _ _ _ _ _
  | .viadd _ _ _ _ _ _ _ | .visub _ _ _ _ _ _ _ | .vimul _ _ _ _ _ _ | .vlog _ _ _ _ _ _ _ | .vsh _ _ _ _ _ _ _
  | .vmov _ _ _ _ _ | .vscan _ _ _ _ _ _ | .viota _ _ _ _ | .lds _ _ _ _ _ _ | .sts _ _ _ _ _ _
  | .vlds _ _ _ _ _ _ | .vsts _ _ _ _ _ _ | .ldd _ _ _ _ _ _ _ | .std _ _ _ _ _ _ _ | .vldd _ _ _ _ _ _
  | .vstd _ _ _ _ _ _ | .ldh _ _ _ _ _ | .sth _ _ _ _ _ | .amod _ _ _ _ _ _ _ | .casd _ _ _ _ _ _ _
  | .amos _ _ _ _ _ _ | .cass _ _ _ _ _ _ | .fence _ _ | .publish _ _ | .ldsb _ _ _ _ _ | .stsb _ _ _ _ _
  | .vgas _ _ _ _ _ _ _ | .vscs _ _ _ _ _ _ _ | .cbset _ _ _ _ _ | .cbpop _ _ _ | .cbpush _ _ _ | .tenq _ _
  | .tdec _ _ | .tset _ _ _ | .qput _ _ _ _ | .batld _ _ _ _ _ | .batfree _ _ | .unbook _ _ _ | .dual _
  | .bndr _ _ _ _ | .bndw _ _ _ _ _ | .tanr _ _ _ _ _ | .tanw _ _ _ _ _ | .csrr _ _ _ | .csrw _ _ _ _
  | .csrs _ _ _ _ | .csrc _ _ _ _ | .hold _ _ _ | .halt _ | .ebreak _ _ | .mcast _ _ _ _ _ _
  | .discovery _ _ _ _ | .report _ _ _ | .map _ _ _ | .linePacket _ _ | .endFlit _ _ | .bootAck _
  | .startFlit _ _ | .attestationRequest _ | .synchronisedStop _ | .sweepToken _ _ | .tenantRestore _
  | .threadSeating _ | .contextSaveDone _ | .contextFetchDone _ | .sliceExpiry _ | .seatedWaitTimeout _
  | .fullBitChange _ | .waitEvent _ | .migrationArrival _ _ | .postedCauseTaken _ | .threadFreed _
  | .homePortAccess _ _ | .accessAnswer _ | .statusAnswer _ _ _ | .rowThrottle _ _ | .refreshSplit _
  | .registrationRequest _ _ | .stencilRegister _ | .registrationGrant _ _ | .copyRunning _ | .slotHandover _ _
  | .startMessage _ | .tracerLine _ | .copyData _ _ | .copyReport _ | .hirePlacement _ | .hireStart _
  | .arrayWindowEnd _ _ | .landingLine _ | .hireLanded _ | .bookAttempt _ _ | .pendingBookAttempt _ _
  | .bookingStart _ _ | .bookingEnd _ _ | .taskMessage _ _ _ | .spawnRequest _ | .killRequest _ _ _
  | .launchPacket _ | .dispatchAck _ _ | .kernelRelease _ | .kernelRetirement _ | .queueCreate _
  | .wakeWrite _ _ | .queueDestroy _ | .queueDestroyed _ | .unmappingEnd _ | .idleUnmap _
  | .qputRequest _ _ _ _ _ | .barrierArrival _ _ _ _ | .barrierRelease _ _ _ | .barrierWithdrawal _ _
  | .queueEntry _ _ _ | .creditReturn _ _ | .probeTokenSend _ | .probeToken _ _ _ _ | .mailboxDelivery _ _ _ _
  | .sendRetry _ | .signalDelivery _ _ _ _ | .publishApply _ _ | .peerWrite _ _ _ | .frameAvailable _ _
  | .shootdown _ _ _ | .migrationComplete _ | .pageEviction _ _ _ | .pageRetire _ _ | .peerPortFailure _
  | .thermalExcursion _ _ | .supplyDroop _ _ | .tenantSwitch _ _ | .partitionCreate _ | .partitionDestroy _
  | .dispatchMulticast _ _ | .evictionComplete _ | .hostWritePerformed _ | .tickBoundary | .reset
  | .reportTimeout | .imageSend | .firmwareStart | .holdRequest | .resumeRequest | .holdReached
  | .resumptionComplete | .retentionPowerLoss | .lifeLogWrite | .compaction | .slotGrant | .linkDownTimeout
  | .linkRetrain | .prietLinkDown | .refreshWindowEnd | .hang => []

/-- The word of a well-formed instruction. -/
def encode (i : Instr) : Nat :=
  match rowOf i with
  | none => 0
  | some (op, vs) =>
    match formOf op (subOf i) with
    | none => 0
    | some F => F.len + 4 * op + 1024 * joinFields F.lay vs

/-- Length of an instruction in slots (R216). -/
def slotsOf (i : Instr) : Nat := encode i % 4 + 1

/-- The bytes of an instruction as they lie in a code line (R211). -/
def encodeBytes (i : Instr) : List Byte := leBytes (4 * slotsOf i) (encode i)

end Sys2Proof
end

