-- ==== Sys2Proof/Config.lean ====
section
/-!
DEFINITION. What the manual fixes for the part as numbers, and the free values it leaves open: each
free value is a constant with no body, so a claim that holds, holds for every value of it.
-/
namespace Sys2Proof.Config

/-- A tick is 64 cycles (R5). -/
def tickCycles : Nat := 64
/-- The calendar horizon in ticks (R5, R114). -/
def horizon : Nat := 8192
/-- The number of the model's first engine operation (log 1); smaller ones count the lines of one access. -/
def firstOp : Nat := 2 ^ 27
/-- Seats of a core, one turn each in 16 cycles (R50). -/
def seats : Nat := 16
/-- Resident threads of a core (R53). -/
def residents : Nat := 64
/-- Bytes of a scratchpad (R66). -/
def spBytes : Nat := 0x100000
/-- First absent offset of a near window (R67). -/
def nearAbsent : Nat := 0x1E000000
/-- First far offset that is absent to programs (R67). -/
def farAbsent : Nat := 0x1E000000000
/-- Bytes of a code store (R147). -/
def codeBytes : Nat := 65536
/-- Intervals a calendar can hold (R114). -/
def calMax : Nat := 64
/-- Entries of a stencil (R87). -/
def stencilMax : Nat := 64
/-- Cycles without traffic before a group hangs (R156). -/
def hangCycles : Nat := 65536
/-- Cycles a link may stay down (R198). -/
def linkDownCycles : Nat := 1048576

/-- FREE VALUE (log 3): the n-th choice among steps whose order the manual does not fix. -/
opaque pick : Nat → Nat
/-- FREE VALUE (log 4): which of the values it may return a plain shared-register read 1 to 15 cycles after a write returns
(R60). -/
opaque sharedPick : Nat → Nat
/-- FREE VALUE (log 91): how many contexts the thread-context cache of a core holds (R58). -/
opaque cacheSize : Nat
/-- FREE VALUE (log 5): whether a leaf of a broken contig run uses its own entry (true) or the run's first (R72). -/
opaque contigOwn : Nat → Bool
/-- FREE VALUE (log 6): a word the manual gives no value for. -/
opaque freeWord : Nat → Word
/-- FREE VALUE (log 7): the device queue key drawn at the n-th reset (R168). -/
opaque queueKey : Nat → BitVec 256
/-- FREE VALUE (log 8): verification of an SM2 signature over a digest (R350). -/
opaque sm2Verify : BitVec 256 → BitVec 512 → Bool
/-- FREE VALUE (log 8): the part's SM2 signature of a digest (R354). -/
opaque sm2Sign : BitVec 256 → BitVec 512
/-- FREE VALUE (log 9): the serial number of the part (R354). -/
opaque partSerial : Word
/-- FREE VALUE (log 10): whether something the manual lets happen or not happens. -/
opaque freeBool : Nat → Bool

/-- FREE VALUE (log 97): how the n-th flit of a router's save buffer is coded in an image (R62, R165). -/
opaque saveFlit : Nat → BitVec 256

end Sys2Proof.Config
end

