-- ==== Sys2Proof/Machine/Table.lean ====
section
/-!
DEFINITION. Operations of sparse stores: keys strictly rising, and for a store with a default no entry
equal to it. Every field of State that is a table is read and written through these.
-/
namespace Sys2Proof

/-- The entry at a key. -/
def Tbl.look {α : Type} (t : Tbl α) (k : Nat) : Option α :=
  match t with
  | [] => none
  | (i, v) :: r => if i = k then some v else Tbl.look r k

/-- The entry at a key, or what an unlisted key reads as. -/
def Tbl.lookD {α : Type} (t : Tbl α) (k : Nat) (d : α) : α := (t.look k).getD d

/-- Insert or replace the entry at a key, keeping the keys rising. -/
def Tbl.ins {α : Type} (t : Tbl α) (k : Nat) (v : α) : Tbl α :=
  match t with
  | [] => [(k, v)]
  | (i, w) :: r =>
    if k < i then (k, v) :: (i, w) :: r
    else if i = k then (k, v) :: r
    else (i, w) :: Tbl.ins r k v

/-- Remove the entry at a key. -/
def Tbl.del {α : Type} (t : Tbl α) (k : Nat) : Tbl α :=
  match t with
  | [] => []
  | (i, w) :: r => if i = k then Tbl.del r k else (i, w) :: Tbl.del r k

/-- Write a value to a store whose unlisted keys read as d: the default is never listed. -/
def Tbl.put {α : Type} [DecidableEq α] (t : Tbl α) (d : α) (k : Nat) (v : α) : Tbl α :=
  if v = d then t.del k else t.ins k v

/-- Strictly rising keys, every one above lo. -/
def Tbl.rising {α : Type} (t : Tbl α) (lo : Option Nat) : Bool :=
  match t with
  | [] => true
  | (i, _) :: r => (match lo with | none => true | some l => decide (l < i)) && Tbl.rising r (some i)

/-- The canonical form of a store whose unlisted keys read as d. -/
def Tbl.canon {α : Type} [DecidableEq α] (t : Tbl α) (d : α) : Bool :=
  t.rising none && t.all fun e => e.2 ≠ d

def Tbl.keys {α : Type} (t : Tbl α) : List Nat := t.map (·.1)

/-- Write a run of values at consecutive keys. -/
def Tbl.putRun {α : Type} [DecidableEq α] (t : Tbl α) (d : α) (k : Nat) : List α → Tbl α
  | [] => t
  | v :: vs => Tbl.putRun (t.put d k v) d (k + 1) vs

/-- The values of n consecutive keys. -/
def Tbl.run {α : Type} (t : Tbl α) (d : α) (k : Nat) : Nat → List α
  | 0 => []
  | n + 1 => t.lookD k d :: Tbl.run t d (k + 1) n

end Sys2Proof
end

