-- ==== Sys2Proof/Machine/State.lean ====
section
/-!
DEFINITION. The state of a Tabdestra 7700 module as plain data: every piece of state the manual gives
the machine, one home each. Sparse stores are tables with strictly rising keys.
-/
namespace Sys2Proof.Machine

/-- Why a step can stop with a fault: never. The device reports every fault of a program as a trap (R200), and a module
without power starts when power returns (R355). -/
inductive Fault
  deriving DecidableEq, Repr

/-- Why a step can be refused. -/
inductive Refusal where
  /-- Raised by an arm of exec whose instruction has no meaning yet. Safe: the model stops. -/
  | notModelled (mnemonic : String)
  deriving DecidableEq, Repr

/-! ## Threads (02_context.md) -/

/-- The states of R53; a thread that is free has no record. -/
inductive Life where
  | ready | seated | waitSeated | waitUnseated | migrating | exited | swappedOut
  deriving DecidableEq, Repr

/-- How control reached pc, which decides the tests of R214 and R215 at the next issue. -/
inductive PcMode where
  /-- A start recorded by hardware or reached by sequential flow. -/
  | start
  /-- A taken branch: the tgt bit is required. -/
  | target
  /-- pc is a line address: the lowest marked start is entered. -/
  | line
  deriving DecidableEq, Repr

/-- One level of a hardware loop (R61, R64, R207). -/
structure LoopLvl where
  start : Word
  stop  : Word
  count : Word
  sus   : Bool
  deriving DecidableEq, Repr

/-- A posted cause (R204). -/
structure Posted where
  code : Byte
  tval : Word
  deriving DecidableEq, Repr

/-- What a waiting thread waits for (R51, R53, R155). The instruction issues again when the wait ends,
but for an access, whose answer completes it. -/
inductive Wait where
  | none
  /-- the full bit of a g-register or a shared register, awaited set or clear (R58, R59) -/
  | fullBit (spec : BitVec 8) (want : Bool)
  | qin (dir : BitVec 3)
  | qout (dir : BitVec 3)
  | mailbox
  | counters (mask : BitVec 4) (n : Nat)
  | event (mask : Word)
  | landing (l : Nat) (n : Nat)
  | filled (cb : Nat) (n : Nat)
  /-- the start of a booking, for a destination that receives 0 when it is cancelled, and the field its handle is read from
  (R250) -/
  | booking (handle : Word) (dst src : Fld)
  /-- the generation of a barrier differs from g; arrived: the wait is the second half of bar.aw (R179) -/
  | barrier (k : BitVec 4) (g : Word32) (arrived : Bool) (dst : Fld)
  /-- an arrival of bar.aw not yet applied by the hall -/
  | arrival (k : BitVec 4)
  /-- a withdrawal of bar.aw not yet answered (R313) -/
  | withdrawal (k : BitVec 4) (g : Word32) (dst : Fld)
  /-- earlier stores not yet performed (R294, R315) -/
  | release
  /-- a fence of the given scope (R301) -/
  | fence (sc : Scope)
  /-- a proxy access (R43, R293), its operand values captured at issue -/
  | access
  /-- a proxy access performed, its answer on the way -/
  | answer
  /-- a host-window load or store at the Priet controller (R195, R297): offset, and whether it is a store -/
  | hostAccess (offset : Nat) (store : Bool)
  /-- a migration of the touched page (R75) -/
  | page (op : Nat)
  /-- a frame of the own core's pool (R75) -/
  | frame
  /-- the hall has not advanced a batten's generation in every mirror yet (R322) -/
  | batfree (handle : Word)
  /-- the queue controller's answer, for a destination (R314) -/
  | qput (dst : Fld)
  | halt
  /-- pending stores of the core to the same bytes, before an acquire (R340) -/
  | bytes (pa n : Nat)
  /-- hires and reductions of a thread to be saved (R261) -/
  | saving (thid : Word32)
  /-- the way to the anchor and back of a roaming thread (R45) -/
  | anchor
  /-- the cause, tval and epc of a trap on the way to the anchor (R45) -/
  | entry
  /-- the loads and stores of a roaming thread that is to leave its core (R45) -/
  | leaving
  /-- earlier stores of the thread to a home port (R293) -/
  | port (home : Nat)
  deriving DecidableEq, Repr

/-- A full bit cleared or an entry taken by the instruction in flight (R223): its specifier, for qin the direction of the
queue, and the value. -/
structure Take where
  spec : BitVec 8
  dir  : Nat
  x    : Word
  /-- the entry is still in its place and is taken when the access completes -/
  claimed : Bool
  deriving DecidableEq, Repr

/-- A plane of a typed access that has left for its home port (R133): its address, its physical address, whether it is to be
read once every plane has passed; then whether the port has checked it, the check it failed, whether it has been read, and
the bytes and the bound it read. -/
structure PlaneAcc where
  va    : Word
  pa    : Nat
  n     : Nat
  write : Bool
  rd    : Bool
  done  : Bool
  cause : Option Byte
  got   : Bool
  data  : Nat
  bound : Word32
  deriving DecidableEq, Repr

/-- A thread with everything R42, R45 and R47 give it. -/
structure Thread where
  thid    : Word32
  part    : Nat
  /-- the kernel it is a rank of; none for spawned and task threads -/
  kernel  : Option Nat
  /-- home core and scratchpad offset of the task record it was created for (R142) -/
  task    : Option Word
  core    : Nat
  life    : Life
  wait    : Wait
  roaming : Bool
  W       : Nat
  V       : Nat
  k       : Nat
  pc      : Word
  pcMode  : PcMode
  /-- the line whose header has been checked since pc entered it (R214) -/
  line    : Option Word
  /-- a dual instruction in force: tangent mask and the address of its first slot (R129) -/
  dualPfx : Option (BitVec 4 × Word)
  g       : Tbl Word
  /-- the g-registers whose full bit is clear (R59) -/
  gEmpty  : List Nat
  v       : Tbl Vec
  vb      : Tbl Word32
  /-- scalar tangents, key 128·j + i for tangent j + 1 of gi -/
  gt      : Tbl Word
  /-- vector tangents and their bounds, key 32·j + i -/
  vt      : Tbl Vec
  vtb     : Tbl Word32
  pred    : BitVec 16
  l       : Tbl Word32
  ev      : Word
  outLd   : Nat
  outSt   : Nat
  outCp   : Nat
  outHr   : Nat
  loops   : List LoopLvl
  status  : BitVec 12
  cAsync  : Bool
  cLost   : Bool
  cCode   : Byte
  tval    : Word
  epc     : Word
  tvec    : Word
  fpctl   : BitVec 13
  fpflags : BitVec 5
  tstride : Word
  bthr    : Word
  slice   : Nat
  prio    : BitVec 2
  qlink   : Word
  rank    : Nat
  gsize   : Nat
  posted  : List Posted
  lost    : Bool
  mailbox : List Word
  /-- turns counted by the slice timer, and an expiry held pending (R56) -/
  sliceCnt : Nat
  slicePend : Bool
  /-- turns spent waiting seated (R53) -/
  waitTurns : Nat
  /-- the seated wait that has just ended: one that begins again at once goes on (R53) -/
  woke    : Wait
  /-- the cycle at which the wait began (R156, R191) -/
  waitSince : Nat
  /-- a context save to the thread-context cache is under way (R58) -/
  saving  : Bool
  /-- the access in flight is being performed at its home port (R293) -/
  atPort  : Bool
  /-- operand values of the access in flight, in the order read (R293) -/
  vals    : List Word
  /-- full bits cleared and queue entries popped by the instruction in flight (R223) -/
  taken   : List Take
  /-- planes of the access in flight, when it moves more than one (R133) -/
  planes  : List PlaneAcc
  /-- registers with an uncorrectable soft error (0x62, R210): whether a vector register, and its specifier -/
  regErr  : List (Bool × BitVec 8)
  /-- the generation of each copy index 0 to 31 (R84) -/
  copyGen : Tbl (BitVec 16)
  /-- the kernel it belongs to is pre-emptible (R154) -/
  pre     : Bool
  /-- what swapped it out wrote its image for (R62 purpose) -/
  purpose : BitVec 8
  /-- the gable firmware thread of its core (R352, R373) -/
  firm    : Bool
  /-- sends a full mailbox refused, to be sent again, oldest first (R256) -/
  sends   : List (Word × Word × Fld)
  /-- what receives 0 when a migr arrives (R255) -/
  arrive  : Option Fld
  /-- the instruction in hand has reached the anchor (R45) -/
  atAnchor : Bool
  /-- the instruction that waited is still in flight and issues again (R51, R204) -/
  reissue : Bool
  /-- its wait was one that no posted cause ends (R204) -/
  bound   : Bool
  /-- an answer that waits for a credit of its destination, and whether the instruction has still to be passed (R190) -/
  late    : Option (Fld × Word × Bool)
  /-- the thread whose save its ctxsv has begun (R261) -/
  saveFor : Option Word32
  /-- kills that end it when it arrives: who waits for the answer, and where (R254) -/
  killers : List (Word32 × Fld)
  deriving DecidableEq, Repr

/-! ## Cores (02, 03, 04, 09, 13) -/

/-- A shared register (R59, R60): its value, its full bit, and the values that writes of the last cycles replaced, each with
the cycle of the write that replaced it and whether that was a plain one, the newest first. -/
structure Shared where
  value : Word
  full  : Bool
  olds  : List (Word × Nat × Bool)
  deriving DecidableEq, Repr

/-- A stencil entry, registered or waiting (R87, R88): a physical range, its mode and its owner. -/
structure Piece where
  lo    : Nat
  hi    : Nat
  write : Bool
  op    : Nat
  deriving DecidableEq, Repr

/-- A circular buffer (R95, R308). -/
structure CircBuf where
  base   : Nat
  size   : Nat
  n      : Nat
  head   : Nat
  tail   : Nat
  filled : Nat
  free   : Nat
  out    : Nat
  deriving DecidableEq, Repr

/-- A run of a code store (R148): the kernel that holds it, its place, its length and its virtual address. -/
structure CodeRun where
  kernel : Nat
  at'    : Nat
  len    : Nat
  va     : Word
  deriving DecidableEq, Repr

/-- A store completed but not yet performed at its home port (R340): bytes, bound, whether all 64 bytes of
the line are written, and for a sideband write the word. -/
structure PendStore where
  id    : Nat
  thid  : Word32
  pa    : Nat
  bytes : List Host.Cell
  bound : Word32
  line  : Bool
  sb    : Option Word32
  deriving DecidableEq, Repr

/-- A translation held by a TLB (R73): partition, first virtual page number, pages, first frame, permissions. -/
structure TlbEnt where
  part  : Nat
  vpn   : Nat
  pages : Nat
  pfn   : Nat
  user  : Bool
  exec  : Bool
  write : Bool
  read  : Bool
  dirty : Bool
  deriving DecidableEq, Repr

/-- A non-leaf entry held by a walk cache (R73). -/
structure WalkEnt where
  part  : Nat
  level : Nat
  tag   : Nat
  table : Nat
  deriving DecidableEq, Repr

/-- An inbound register-mapped queue (R189, R191): its entries, how many reserve entries it has on loan, and how many
entries an access in flight has observed and takes when it completes (R223). -/
structure InQueue where
  items : List Word
  lent  : Nat
  claimed : Nat
  deriving DecidableEq, Repr

/-- The boot side of a core and its router (R369 to R373). -/
structure BootCore where
  coords : Option (Nat × Nat)
  mapped : Option MapFlit
  lines  : Nat
  endAt  : Option Nat
  acks   : Nat
  acked  : Bool
  ts     : Option Word
  errors : Nat
  /-- the cycle from which its injection port is free (R184, R373) -/
  free   : Nat
  /-- firmware mode has been entered, which happens once (R373) -/
  entered : Bool
  deriving DecidableEq, Repr

/-- A core with its scratchpad, tracer, stencil, queues and ports. -/
structure Core where
  pcore    : Option Nat
  lcore    : Option Nat
  serial   : BitVec 16
  /-- the number after the one last handed out (log 111) -/
  numNext  : Nat
  /-- reserved thread numbers and the thid of each (R239) -/
  resv     : Tbl Word32
  /-- ready threads in order of joining; the list of a priority is its part (R55) -/
  run      : List Word32
  /-- threads whose context the thread-context cache holds, the least recently used first (R58) -/
  tcc      : List Word32
  shared   : Tbl Shared
  sp       : Tbl Byte
  spBound  : Tbl Word32
  /-- scratchpad lines with an uncorrectable soft error (R295) -/
  softErr  : List Nat
  /-- specifiers of shared registers with an uncorrectable soft error (0x62, R210) -/
  sregErr  : List (BitVec 8)
  fmt      : Tbl Word
  cb       : Tbl CircBuf
  stencil  : List Piece
  stWait   : List Piece
  codeRuns : List CodeRun
  code     : Tbl Byte
  pend     : List PendStore
  tlb      : List TlbEnt
  walk     : List WalkEnt
  inq      : Tbl InQueue
  /-- credits used toward each direction, 0 to 8 (R190) -/
  credUsed : Tbl Nat
  lastProbe : Option Nat
  reserve  : Nat
  /-- pending task records of each priority, by scratchpad offset (R142) -/
  pending  : Tbl (List Nat)
  taskFaults : Nat
  splits   : Nat
  frames   : List Nat
  arrivals : List Word32
  rr       : Nat
  /-- activations of each row in this refresh window, and throttled rows (R81) -/
  rows     : Tbl Nat
  throttled : List Nat
  boot     : BootCore
  /-- links on which a sweep token has arrived in the stop in progress (R165) -/
  swept    : List Dir
  deriving DecidableEq, Repr

/-! ## Engine operations (04, 05, 06) -/

/-- The RM encodings of R22. -/
inductive RMode where
  | rne | rtz | rup | rdn
  deriving DecidableEq, Repr

/-- An endpoint of a copy (R323): space, core for .sp and .rsp, address, port. -/
structure Endpoint where
  space : BitVec 3
  core  : Nat
  addr  : Nat
  port  : Nat
  deriving DecidableEq, Repr

inductive CopyKind where
  | copy | copyr | mcast | batld
  deriving DecidableEq, Repr

/-- The states of R86 as hstat.cp reports them (R330). -/
inductive CopyState where
  | queued | running | done | revoked | poisoned | faulted | squashed
  deriving DecidableEq, Repr

/-- What the parts of a destination line performed so far say of its bound (R41, R80, R92): the largest bound of their sources,
their largest result magnitude with h there, the bound the line had before, the largest h of copyr's add, and whether a
source was poisoned. -/
structure LineAcc where
  b      : Word32
  top    : Option (Nat × Int)
  h      : Word32
  old    : Word32
  sum    : Word32
  poison : Bool
  deriving DecidableEq, Repr

/-- A tracer operation from issue to its end, and its outcome afterwards (R83 to R96, R320, R327, R380). -/
structure CopyOp where
  kind   : CopyKind
  thid   : Word32
  core   : Nat
  part   : Nat
  idx    : Nat
  handle : Word
  slot   : Option Nat
  booked : Option (Word × Nat)
  /-- a booked copy issued within its window starts no earlier than this tick (R124) -/
  start  : Nat
  state  : CopyState
  src    : Endpoint
  dst    : Endpoint
  cb     : Option Nat
  count  : Nat
  sfmt   : Fmt
  dfmt   : Fmt
  rm     : RMode
  sat8   : Bool
  lnum   : Nat
  op     : BitVec 2
  cls    : BitVec 2
  user   : Bool
  /-- members of a multicast (R327) -/
  members : List Nat
  /-- the key of the batten loaded, its handle and fields (R321), with kb planes at tstride -/
  batKey : Nat
  batHandle : Word
  K      : Nat
  sp     : BitVec 2
  kb     : Nat
  tstride : Nat
  /-- lines in all, lines sent, lines performed, counted on the side that has more of them (R86) -/
  total  : Nat
  sent   : Nat
  lines  : Nat
  /-- the section in progress: its first line and the line after its last, its pieces not yet registered
  with the core of each, and where the source and destination bytes of the operation lie: byte offset,
  address under which engines know it, length -/
  secLo  : Nat
  secHi  : Nat
  todo   : List (Nat × Piece)
  srcSeg : List (Nat × Nat × Nat)
  dstSeg : List (Nat × Nat × Nat)
  started : Bool
  ready  : Bool
  stop   : Option CopyState
  why    : Byte
  splits : Nat
  flags  : BitVec 5
  /-- the bank format registers as captured at issue (R304) -/
  regs   : List Word
  /-- a done copy whose slot the filled count does not cover yet (R95) -/
  uncounted : Bool
  /-- it has entered running: a slot of a circular buffer is its own (R86, R95) -/
  entered : Bool
  /-- the tracer slot of the entry it is booked under (R83) -/
  bslot  : Option Nat
  /-- the cycle at which the stop message of a stale handle reaches the source's port (R85) -/
  stopAt : Option Nat
  /-- the destination line in progress, and the largest bound of the element lines of its line of block scales (R41) -/
  acc    : LineAcc
  scB    : Word32
  deriving DecidableEq, Repr

/-- A bookable resource (R114). -/
inductive Res where
  | array (n : Nat) (half : Nat)
  | up (eave lane : Nat)
  | dn (eave lane : Nat)
  | bank (core b : Nat)
  | slot (core n : Nat)
  deriving DecidableEq, Repr

/-- A booked interval of whole ticks, with the entry it belongs to (R114). -/
structure Ival where
  res : Res
  lo  : Nat
  hi  : Nat
  ent : Nat
  deriving DecidableEq, Repr

inductive BookState where
  /-- its sheet is on the way to the hall (R121) -/
  | submitted
  | pending | committed | started | ended | cancelled | saved
  deriving DecidableEq, Repr

/-- One entry of a sheet (R118). -/
structure SheetEnt where
  kind : BitVec 4
  res  : Nat
  off  : Nat
  dur  : Nat
  land : Nat
  deriving DecidableEq, Repr

/-- A booking sheet as captured (R117). -/
structure Sheet where
  earliest : Nat
  latest   : Nat
  lkind    : BitVec 2
  lnum     : Nat
  lval     : Nat
  slide    : Bool
  cls      : BitVec 2
  ents     : List SheetEnt
  /-- a malformed field found at capture (R121 status 0x04) -/
  bad      : Bool
  deriving DecidableEq, Repr

/-- A booking of a hall's table (R121, R123); a free-standing hire's placement is one too (R126). -/
structure Booking where
  gen   : BitVec 16
  thid  : Word32
  part  : Nat
  core  : Nat
  state : BookState
  sheet : Sheet
  start : Nat
  ivals : List Ival
  moved : Bool
  code  : Byte
  /-- book.h: the handle has been handed over already -/
  early : Bool
  dst   : Option Fld
  hire  : Option Nat
  deriving DecidableEq, Repr

/-- A saved booking (R127): hall, index, start minus the save tick (none while pending), and the calendar intervals as the
hold save area keeps them (R356). -/
structure SavedBook where
  ridge : Nat
  idx   : Nat
  off   : Option Nat
  ivals : List Ival
  deriving DecidableEq, Repr

inductive HireState where
  | issued | placed | running | checked | landing | landed | revoked | faulted | failed
  deriving DecidableEq, Repr

/-- A landed or accumulated plane: its elements' bits in the accumulator format, row-major, and its bound. -/
structure Plane where
  cells : List Word
  bound : Word32
  deriving DecidableEq, Repr

/-- A hire (R99 to R113, R317 to R319). -/
structure Hire where
  thid   : Word32
  core   : Nat
  part   : Nat
  kind   : HireKind
  arr    : Nat
  half   : Nat
  bat    : Word
  a      : Nat
  c      : Option Nat
  dst    : Nat
  dev    : Bool
  dfmt   : Fmt
  sta    : Nat
  lnum   : Nat
  rm     : RMode
  sat8   : Bool
  bthr   : Word
  cls    : BitVec 2
  k      : Nat
  sel    : List Nat
  tstride : Nat
  afmt   : Fmt
  K      : Nat
  rows   : Nat
  cols   : Nat
  booked : Option (Word × Nat)
  /-- index of the booking it runs under, and its window -/
  bidx   : Option Nat
  start  : Nat
  wend   : Nat
  land   : Nat
  lane   : Nat
  state  : HireState
  rerun  : Bool
  moved  : Bool
  /-- checksum mismatches on the array it runs on -/
  miss   : Nat
  wide   : Bool
  tripped : Bool
  ntrip  : BitVec 5
  flags  : BitVec 5
  planes : List Plane
  lines  : Nat
  ltick  : Option Nat
  pcause : Byte
  ready  : Bool
  /-- the cycle at which its request reaches the hall (R126) -/
  arrives : Nat
  /-- the arrays of its window, four for the quadrants of a widened shingle tile (R110) -/
  quads  : List (Nat × Nat)
  todo   : List (Nat × Piece)
  doomed : Bool
  /-- the input format, the bank format registers as captured at issue (R304) and where the destination
  planes lie -/
  fmt    : Fmt
  regs   : List Word
  dstSeg : List (Nat × Nat × Nat)
  /-- the hirer was in user mode at issue -/
  user   : Bool
  /-- the tick from which the search of a rerun, a widened re-issue or a rebooking counts (R105) -/
  since  : Option Nat
  /-- its array has failed, and its next placement moves it (R104, R106) -/
  lost   : Bool
  /-- it has ended with this end, and its status word waits for a bank that another booking has claimed (R104, R119) -/
  ending : Option Nat
  deriving DecidableEq, Repr

/-- A batten (R98, R320, R330). -/
structure Batten where
  gen    : BitVec 16
  thid   : Word32
  part   : Nat
  /-- 0 loading, 1 loaded, 2 freed after a failed load, 3 free -/
  state  : Nat
  fmt    : Fmt
  K      : Nat
  sp     : BitVec 2
  kb     : Nat
  bound  : Word32
  data   : Tbl Byte
  planeBounds : List Word32
  lines  : Nat
  splits : Nat
  why    : Byte
  deriving DecidableEq, Repr

/-! ## Kernels, queues, barriers, partitions (09 to 12) -/

inductive KernelState where
  | dispatching | released | running | saved | retired | rejected | discarded
  deriving DecidableEq, Repr

/-- A launched kernel (R145 to R156). -/
structure Kernel where
  part   : Nat
  qid    : Nat
  cls    : BitVec 2
  packet : List Word
  state  : KernelState
  base   : Nat
  len    : Nat
  image  : Tbl Byte
  regs   : List Word
  ranks  : Tbl Word32
  freed  : List Nat
  acks   : List Nat
  /-- ranks that have received the multicast -/
  heard  : List Nat
  T      : Nat
  /-- the cycle and the tick of the group's last traffic, and the running cycles from it to the last boundary: those of a stop
  or a hold do not count (R156) -/
  lastTraffic : Nat
  lastTick : Nat
  idle   : Nat
  hung   : Bool
  deriving DecidableEq, Repr

/-- The status word's states (R170). -/
inductive QueueState where
  | unmapped | mapped | unmapping | destroying | destroyed
  deriving DecidableEq, Repr

/-- A queue (R168 to R171). -/
structure Queue where
  live   : Bool
  gen    : BitVec 16
  part   : Nat
  cls    : BitVec 2
  lgn    : Nat
  hw     : Bool
  base   : Nat
  stat   : Nat
  rdes   : Bool
  rput   : Bool
  rwake  : Bool
  head   : Word32
  tail   : Word32
  state  : QueueState
  wfail  : BitVec 16
  waiting : Bool
  idleSince : Nat
  /-- the kernel in dispatch -/
  busy   : Option Nat
  /-- next packet and packets left of an indirect buffer (R175) -/
  indirect : Option (Nat × Nat)
  /-- for each ring entry not yet consumed, how many lines State.overs held at the wake that covers it (R176) -/
  covered : Tbl Nat
  deriving DecidableEq, Repr

/-- A queue slot (R172, R173): its queue, its class, the order in which it was mapped, and the queue it is
kept for while it unmaps. -/
structure Slot where
  qid  : Nat
  cls  : BitVec 2
  seq  : Nat
  next : Option Nat
  deriving DecidableEq, Repr

/-- A barrier (R178, R182). -/
structure Barrier where
  kernel  : Option Nat
  members : Tbl Word32
  arrived : List Nat
  gen     : Word32
  /-- cores the release of the last completion has still to reach -/
  releasing : List Nat
  deriving DecidableEq, Repr

/-- The register-mapped queues of a core as a tenant leaves them: entries, credits used and reserve (R165, R189 to R191). -/
structure CoreQueues where
  core : Nat
  inq  : Tbl InQueue
  credUsed : Tbl Nat
  reserve : Nat
  deriving DecidableEq, Repr

/-- A pending step: an event, the channel that orders it, the cycle from which it may happen, and whether it
falls on a tick boundary and so precedes every turn. seq: the operations numbered before it are earlier. -/
structure Posting where
  seq  : Nat
  due  : Nat
  chan : Nat
  hard : Bool
  ev   : Instr
  /-- the core and the seat of its sender as it was issued (R141) -/
  sent : Nat
  deriving DecidableEq, Repr

/-- A tenant that is out: its threads, the barriers and pending chains saved with it (R166, R167), its register-mapped queues,
and its packets in the save buffers (R165). -/
structure Tenant where
  threads  : List Word32
  barriers : Tbl Barrier
  chains   : List (Nat × Tbl (List Nat))
  queues   : List CoreQueues
  packets  : List Posting
  deriving DecidableEq, Repr

/-- A partition (R157 to R159, R194). -/
structure Part where
  desc    : PartDesc
  wakeFail : Word
  pubCount : Word
  lateSwitches : Word
  /-- stop tick of a tenant switch fixed or running -/
  stop    : Option Nat
  /-- switches requested behind the running one (R167) -/
  queued  : List Nat
  /-- threads the stop in progress has saved -/
  saved   : List Word32
  /-- the tick at which every die's save was done -/
  saveAt  : Option Nat
  /-- the tenants that are out, the one to come in first -/
  out     : List Tenant
  /-- ticks a late switch has credited to the tenant that came in -/
  credit  : Nat
  deriving DecidableEq, Repr

/-- The pairing of a peer port (R199): the partition it serves, the length of the peer window in the remote
device, and the base and length of the partition's own peer window. -/
structure PeerPair where
  part   : Nat
  remote : Nat
  base   : Nat
  len    : Nat
  deriving DecidableEq, Repr

/-- A page migration or eviction in progress (R74, R75). -/
structure PageOp where
  part   : Nat
  va     : Word
  leaf   : Nat
  core   : Nat
  evict  : Bool
  pfn    : Nat
  frame  : Option Nat
  waiters : List Word32
  replies : List Nat
  rewritten : Bool
  /-- pgmig instructions that await an answer, and whether they ask for the far tier (R307) -/
  askers : List (Word32 × Fld × Bool)
  deriving DecidableEq, Repr

/-- A tlbi of the whole partition under way (R335): cores yet to reply, and who awaits the answer. -/
structure Inval where
  part    : Nat
  waiting : List Nat
  thid    : Word32
  dst     : Fld
  deriving DecidableEq, Repr

/-- A ctxld that asks the creating core of its image's thread about the number (R239, R240): who asked, for which destination, core
and partition, and the image. -/
structure LoadAsk where
  src  : Word32
  dst  : Fld
  core : Nat
  part : Nat
  img  : List Byte
  deriving DecidableEq, Repr

/-! ## The module (13, 21, 26) -/

/-- Power states as pstate names them (R353). -/
inductive PState where
  | off | booting | running | entering | hold | resuming | failed
  deriving DecidableEq, Repr

/-- The boot ROM's progress (R350, R371 to R373). -/
structure Boot where
  reports : Tbl Word32
  began   : Option Nat
  mapAt   : Option Nat
  sentImage : Bool
  ts      : Option Nat
  waitingHold : Bool
  deriving DecidableEq, Repr

/-- The signed configuration table's first dwords (R352). -/
structure CfgTable where
  dw0 : Word
  dw1 : Word
  deriving DecidableEq, Repr

/-- Module flash (R350, R352, R360). -/
structure Flash where
  present : Bool
  image   : List Byte
  version : Nat
  minVersion : Nat
  sig     : BitVec 512
  table   : CfgTable
  tableSig : BitVec 512
  lifelog : Tbl Nat
  /-- the certificate of the part's public key (R354) -/
  cert    : List Byte
  deriving DecidableEq, Repr

/-- A device write to host memory accepted by the Priet controller and not yet performed (R195, R297); a
publish carries its partition and the value it wrote. -/
structure HostStore where
  thid  : Word32
  part  : Nat
  bytes : List Host.Cell
  value : Option Word
  deriving DecidableEq, Repr

/-- What entry writes into the hold save area, beyond the images: calendars and booking tables, battens, barriers, and the queue
controller's slots and queue table (R356). -/
structure HoldSave where
  books0   : Tbl Booking
  books1   : Tbl Booking
  battens  : Tbl Batten
  barriers : Tbl Barrier
  queues   : Tbl Queue
  slots    : Tbl Slot
  slotWait : List Nat
  deriving DecidableEq, Repr

/-- A seat with a thread in it (R50, R53, R58). -/
structure Seat where
  thid    : Word32
  loading : Bool
  saving  : Bool
  deriving DecidableEq, Repr

/-- The whole module. -/
structure State where
  /-- MODEL: counter of free values consumed (log 3) -/
  free    : Nat
  cycle   : Nat
  /-- the cycle of the boundary from which tick boundaries are counted: the end of reset, or of the last hold (R5) -/
  tickBase : Nat
  tick    : Word
  cursor  : Nat
  cur     : Word32
  agenda  : List Posting
  nextOp  : Nat
  fused   : List Nat
  flash   : Flash
  pstate  : PState
  bcode   : Byte
  holds   : Word32
  resets  : Nat
  boot    : Boot
  enabled : List Nat
  gable   : List Nat
  cores   : Tbl Core
  /-- the fault-dump area firmware names for each core (R206): the image last written there -/
  dumps   : Tbl (List Byte)
  /-- the context image last written for a thread that is swapped out, or whose context has left the thread-context cache,
  by thid: what a stop, a hold or a write-back has put in memory (R58, R62, R164, R356) -/
  images  : Tbl (List Byte)
  threads : Tbl Thread
  seats   : Tbl Seat
  mem     : Tbl Byte
  sideband : Tbl Word32
  /-- errors in near lines that no read has met yet: by line, 1 to 3 the sev of a correction, 4 uncorrectable, 5 and 6 corrected
  to a wrong line with sev 1 or 2 (R78) -/
  errs    : Tbl Nat
  /-- entries of contig runs that the walker has rewritten: by leaf, the entry it wrote and the one software had there (R72,
  R75) -/
  rewrites : Tbl (Nat × Nat)
  hostMem : Tbl Byte
  /-- lines of host memory, and of device memory that a copy from the host writes, as each was before such a write, while a queue
  holds packets not yet read (R176, R196) -/
  overs   : List (Bool × Nat × Vec)
  hostPend : Tbl HostStore
  parts   : Tbl Part
  /-- the firewall registers: dword i of the descriptor of partition p at 8·p + i (R159) -/
  descRegs : Tbl Word
  copies  : Tbl CopyOp
  hires   : Tbl Hire
  books0  : Tbl Booking
  books1  : Tbl Booking
  hallWait : List Nat
  /-- the cycle from which a hall takes its next operation (R115) -/
  hallBusy : Tbl Nat
  battens : Tbl Batten
  failedArr : List (Nat × Nat)
  kernels : Tbl Kernel
  queues  : Tbl Queue
  slots   : Tbl Slot
  slotWait : List Nat
  slotSeq : Nat
  lastGrant : Option Nat
  barriers : Tbl Barrier
  pages   : Tbl PageOp
  invals  : Tbl Inval
  asks    : Tbl LoadAsk
  linkUp  : Bool
  /-- the host's writes that the link has refused in hold: the link-level rejections the host has seen (R357) -/
  refusedWrites : Nat
  linkDownAt : Nat
  peers   : Tbl PeerPair
  peerMem : Tbl Byte
  peerFail : List Nat
  lifelog : Tbl Nat
  farPool : List Nat
  /-- cores whose empty frame pool the gable column has been signalled of (R75) -/
  starved : List Nat
  holdAt  : Option Nat
  /-- a hold that waits for a tenant switch to end: whom its stop tick is answered to (R167, R336) -/
  holdAsk : Option (Word32 × Fld)
  /-- a resumption asked for while hold is being entered (R355) -/
  resumeAsked : Bool
  /-- bookings that a save has taken off the calendars (R127, R356) -/
  savedBooks : List SavedBook
  /-- threads whose images of purpose 4 the hold save area keeps (R356) -/
  held    : List Word32
  /-- the hold save area, from hold entry until it is read back (R356, R358) -/
  saveArea : Option HoldSave
  reports : List (BitVec 1536)
  deriving DecidableEq, Repr

/-! ## Reset (R349 and the Reset columns; the rest is log 11) -/

/-- A core after core reset: shared registers zero and empty (R59), bank formats 0x7 (R304), bound words
zero (R33), nothing queued, registered or held. -/
def Core.reset : Core where
  pcore := none
  lcore := none
  serial := 0#16
  numNext := 0
  resv := []
  run := []
  tcc := []
  shared := []
  sp := []
  spBound := []
  softErr := []
  sregErr := []
  fmt := []
  cb := []
  stencil := []
  stWait := []
  codeRuns := []
  code := []
  pend := []
  tlb := []
  walk := []
  inq := []
  credUsed := []
  lastProbe := none
  reserve := 2
  pending := []
  taskFaults := 0
  splits := 0
  frames := []
  arrivals := []
  rr := 0
  rows := []
  throttled := []
  boot := ⟨none, none, 0, none, 0, false, none, 0, 0, false⟩
  swept := []

/-- The record an unlisted thread number reads as: a user thread that is exited and holds nothing. -/
def Thread.blank : Thread where
  thid := 0#32
  part := 0
  kernel := none
  task := none
  core := 0
  life := .exited
  wait := .none
  roaming := false
  W := 8
  V := 0
  k := 0
  pc := 0#64
  pcMode := .line
  line := none
  dualPfx := none
  g := []
  gEmpty := []
  v := []
  vb := []
  gt := []
  vt := []
  vtb := []
  pred := 1#16
  l := []
  ev := 0#64
  outLd := 0
  outSt := 0
  outCp := 0
  outHr := 0
  loops := []
  status := 4#12
  cAsync := false
  cLost := false
  cCode := 0#8
  tval := 0#64
  epc := 0#64
  tvec := 0#64
  fpctl := 0#13
  fpflags := 0#5
  tstride := 0#64
  bthr := 0#64
  slice := 0
  prio := 0#2
  qlink := 0#64
  rank := 0
  gsize := 1
  posted := []
  lost := false
  mailbox := []
  sliceCnt := 0
  slicePend := false
  waitTurns := 0
  woke := .none
  waitSince := 0
  saving := false
  atPort := false
  vals := []
  taken := []
  planes := []
  regErr := []
  copyGen := []
  pre := false
  purpose := 0#8
  firm := false
  sends := []
  arrive := none
  atAnchor := false
  reissue := false
  bound := false
  late := none
  saveFor := none
  killers := []

/-- Module flash as the model finds it: no image, the configuration table as shipped (R352, log 12). -/
def Flash.blank : Flash :=
  ⟨false, [], 0, 0, 0#512, ⟨31#64, 0#64⟩, 0#512, [], []⟩

/-- The module right after power-on or host reset (R349): all state discarded, the boot ROM about to
run (the one posting of the agenda), no thread, nothing in any memory. -/
def State.reset : State where
  free := 0
  cycle := 0
  tickBase := 0
  tick := 0#64
  cursor := 0
  cur := 0#32
  agenda := [⟨0, 0, 0, true, .reset, 0⟩]
  nextOp := Config.firstOp
  fused := []
  flash := Flash.blank
  pstate := .booting
  bcode := 0#8
  holds := 0#32
  resets := 0
  boot := ⟨[], none, none, false, none, false⟩
  enabled := []
  gable := []
  -- core (0, 0) holds its coordinates from reset (R370)
  cores := [(0, { Core.reset with boot := { Core.reset.boot with coords := some (0, 0) } })]
  dumps := []
  images := []
  threads := []
  seats := []
  mem := []
  sideband := []
  errs := []
  rewrites := []
  hostMem := []
  overs := []
  hostPend := []
  parts := []
  descRegs := []
  copies := []
  hires := []
  books0 := []
  books1 := []
  hallWait := []
  hallBusy := []
  battens := []
  failedArr := []
  kernels := []
  queues := []
  slots := []
  slotWait := []
  slotSeq := 0
  lastGrant := none
  barriers := []
  pages := []
  invals := []
  asks := []
  linkUp := true
  refusedWrites := 0
  linkDownAt := 0
  peers := []
  peerMem := []
  peerFail := []
  lifelog := []
  farPool := []
  starved := []
  holdAt := none
  holdAsk := none
  resumeAsked := false
  savedBooks := []
  held := []
  saveArea := none
  reports := []

/-- The canonical form of the byte memories: strictly rising addresses, no entry equal to what an unlisted
address reads as (zero, log 13). -/
def Memory.wf (m : Tbl Byte) : Bool := m.canon 0#8

/-- Every byte memory of the module is in canonical form. -/
def State.memWf (s : State) : Bool :=
  Memory.wf s.mem && Memory.wf s.hostMem && Memory.wf s.peerMem &&
  s.cores.all (fun c => Memory.wf c.2.sp && Memory.wf c.2.code)

end Sys2Proof.Machine
end

