-- ==== Sys2Proof/Machine/Fp.lean ====
section
/-!
DEFINITION. Floating-point values, exact arithmetic and rounding (R14, R15, R21, R24 to R29, R273 to
R278). A bit pattern is a Nat of the format's width; exact values are sign, Nat mantissa and Int
exponent; nothing is rounded before roundFin.
-/
namespace Sys2Proof.Machine

/-! ### Formats (R14, R224) -/

/-- How a format spells its special values (R15). -/
inductive FKind where
  | ieee | e4 | plain
  deriving DecidableEq, Repr

/-- Exponent width, fraction width and kind of specials (R14). -/
structure FSpec where
  eb   : Nat
  mb   : Nat
  kind : FKind
  deriving DecidableEq, Repr

def FSpec.bias (f : FSpec) : Nat := 2 ^ (f.eb - 1) - 1
def FSpec.width (f : FSpec) : Nat := 1 + f.eb + f.mb
def FSpec.emin (f : FSpec) : Int := 1 - (f.bias : Int)
/-- The greatest exponent field of a finite value (R15). -/
def FSpec.efMax (f : FSpec) : Nat :=
  match f.kind with
  | .ieee => 2 ^ f.eb - 2
  | .e4 | .plain => 2 ^ f.eb - 1

def fp64 : FSpec := ⟨11, 52, .ieee⟩
def fp32 : FSpec := ⟨8, 23, .ieee⟩
def bf16 : FSpec := ⟨8, 7, .ieee⟩
def e4m3 : FSpec := ⟨4, 3, .e4⟩
def e5m2 : FSpec := ⟨5, 2, .ieee⟩
def e2m1 : FSpec := ⟨2, 1, .plain⟩

/-- The floating-point format of a format code, if it is one (R224). -/
def fspec? : Fmt → Option FSpec
  | .d => some fp64
  | .s => some fp32
  | .bf => some bf16
  | .e4 => some e4m3
  | .e5 => some e5m2
  | .f4 => some e2m1
  | _ => none

def ftySpec : FTy → FSpec
  | .d => fp64
  | .s => fp32
  | .bf => bf16

def ftyFmt : FTy → Fmt
  | .d => .d
  | .s => .s
  | .bf => .bf

/-- Width in bits of an element of a format code (R224); raw elements are bytes (R324). -/
def fmtWidth : Fmt → Nat
  | .d | .i64 | .u64 => 64
  | .s | .i32 | .u32 => 32
  | .bf | .i16 | .u16 => 16
  | .e4 | .e5 | .i8 | .u8 | .raw => 8
  | .f4 => 4

/-- Width and signedness of an integer format code. -/
def intFmt? : Fmt → Option (Nat × Bool)
  | .i64 => some (64, true)
  | .i32 => some (32, true)
  | .i16 => some (16, true)
  | .i8 => some (8, true)
  | .u64 => some (64, false)
  | .u32 => some (32, false)
  | .u16 => some (16, false)
  | .u8 => some (8, false)
  | _ => none

/-! ### Flags (R23) -/

abbrev Flags := BitVec 5
def fNV : Flags := 16#5
def fDZ : Flags := 8#5
def fOF : Flags := 4#5
def fUF : Flags := 2#5
def fNX : Flags := 1#5

/-- The rounding mode a rounding code names, given the two bits of fpctl.rm (R22, R225). -/
def rmOfBits (b : BitVec 2) : RMode :=
  if b = 0#2 then .rne else if b = 1#2 then .rtz else if b = 2#2 then .rup else .rdn

def rmode (rm : BitVec 2) : Rc → RMode
  | .dyn => rmOfBits rm
  | .rn => .rne
  | .rz => .rtz
  | .ru => .rup
  | .rd => .rdn

/-! ### Values -/

/-- A decoded value: finite (−1)^s · m · 2^e, infinite, or a NaN with its signalling mark. -/
inductive FVal where
  | fin (s : Bool) (m : Nat) (e : Int)
  | inf (s : Bool)
  | nan (s : Bool) (sig : Bool)
  deriving DecidableEq, Repr

def signBit (f : FSpec) (x : Nat) : Bool := x.testBit (f.eb + f.mb)
def fracOf (f : FSpec) (x : Nat) : Nat := x % 2 ^ f.mb
def expOf (f : FSpec) (x : Nat) : Nat := x / 2 ^ f.mb % 2 ^ f.eb

/-- R14, R15: the value of a bit pattern. -/
def decodeF (f : FSpec) (x : Nat) : FVal :=
  let s := signBit f x
  let e := expOf f x
  let m := fracOf f x
  if f.kind = .ieee ∧ e = 2 ^ f.eb - 1 then
    if m = 0 then .inf s else .nan s (!m.testBit (f.mb - 1))
  else if f.kind = .e4 ∧ e = 2 ^ f.eb - 1 ∧ m = 2 ^ f.mb - 1 then .nan s false
  else if e = 0 then .fin s m (f.emin - f.mb)
  else .fin s (m + 2 ^ f.mb) ((e : Int) - f.bias - f.mb)

def FVal.isNaN : FVal → Bool
  | .nan _ _ => true
  | _ => false
def FVal.isSig : FVal → Bool
  | .nan _ g => g
  | _ => false
def FVal.isFin : FVal → Bool
  | .fin _ _ _ => true
  | _ => false
def FVal.isZero : FVal → Bool
  | .fin _ m _ => m == 0
  | _ => false
def FVal.sign : FVal → Bool
  | .fin s _ _ => s
  | .inf s => s
  | .nan s _ => s

def signPat (f : FSpec) (s : Bool) : Nat := if s then 2 ^ (f.eb + f.mb) else 0
def zeroPat (f : FSpec) (s : Bool) : Nat := signPat f s
/-- Infinity, or in a format without one the NaN that stands for it (R26). -/
def infPat (f : FSpec) (s : Bool) : Nat :=
  match f.kind with
  | .ieee => signPat f s + (2 ^ f.eb - 1) * 2 ^ f.mb
  | .e4 => signPat f s + 2 ^ (f.eb + f.mb) - 1
  | .plain => signPat f s + 2 ^ (f.eb + f.mb) - 1
/-- The largest finite value (R14). -/
def maxPat (f : FSpec) (s : Bool) : Nat :=
  match f.kind with
  | .ieee => signPat f s + (2 ^ f.eb - 1) * 2 ^ f.mb - 1
  | .e4 => signPat f s + 2 ^ (f.eb + f.mb) - 2
  | .plain => signPat f s + 2 ^ (f.eb + f.mb) - 1
/-- The default NaN (R25). -/
def dNaN (f : FSpec) : Nat :=
  match f.kind with
  | .ieee => (2 ^ f.eb - 1) * 2 ^ f.mb + 2 ^ (f.mb - 1)
  | .e4 | .plain => 2 ^ (f.eb + f.mb) - 1
/-- A NaN pattern with its quiet bit set (R25). -/
def quiet (f : FSpec) (x : Nat) : Nat :=
  match f.kind with
  | .ieee => x ||| 2 ^ (f.mb - 1)
  | .e4 | .plain => x

/-! ### Rounding (R21, R24) -/

/-- m · 2^(−sh) rounded to an integer; the second part says it was inexact. -/
def rndShift (rm : RMode) (s : Bool) (m sh : Nat) : Nat × Bool :=
  let q := m >>> sh
  let r := m - (q <<< sh)
  if r = 0 then (q, false)
  else
    let half := 2 ^ (sh - 1)
    let up := match rm with
      | .rne => decide (r > half) || (decide (r = half) && q.testBit 0)
      | .rtz => false
      | .rup => !s
      | .rdn => s
    (if up then q + 1 else q, true)

/-- m · 2^e as an integer multiple of 2^q. -/
def rndAt (rm : RMode) (s : Bool) (m : Nat) (e q : Int) : Nat × Bool :=
  if q ≤ e then (m <<< (e - q).toNat, false) else rndShift rm s m (q - e).toNat

/-- Whether an overflow in this mode and sign gives the largest finite value (IEEE 754-2019 7.4). -/
def ovfMax (rm : RMode) (s : Bool) : Bool :=
  match rm with
  | .rne => false
  | .rtz => true
  | .rup => s
  | .rdn => !s

/-- Round an exact non-NaN value to a format, with the exceptions it raises (R24, R26, R29). -/
def roundFin (f : FSpec) (rm : RMode) (s : Bool) (m : Nat) (e : Int) : Nat × Flags :=
  if m = 0 then (zeroPat f s, 0#5)
  else
    let lead : Int := (Nat.log2 m : Int) + e
    let q : Int := max lead f.emin - f.mb
    let (r, inx) := rndAt rm s m e q
    -- tininess after rounding with an unbounded exponent (R24)
    let (u, _) := rndAt rm s m e (lead - f.mb)
    let tiny := decide (lead < f.emin) && !(decide (lead = f.emin - 1) && decide (u = 2 ^ (f.mb + 1)))
    let fl : Flags := (if inx then fNX else 0#5) ||| (if inx && tiny then fUF else 0#5)
    let (r, q) := if 2 ^ (f.mb + 1) ≤ r then (r / 2, q + 1) else (r, q)
    let ef : Int := if 2 ^ f.mb ≤ r then q + f.mb + f.bias else 0
    let fr := if 2 ^ f.mb ≤ r then r - 2 ^ f.mb else r
    if ef > f.efMax ∨ (f.kind = .e4 ∧ ef = f.efMax ∧ fr = 2 ^ f.mb - 1) then
      (if ovfMax rm s then maxPat f s else infPat f s, fl ||| fOF ||| fNX)
    else (signPat f s + ef.toNat * 2 ^ f.mb + fr, fl)

/-- Round num/den · 2^e, den ≠ 0: enough quotient bits with a sticky bit below. -/
def roundRatio (f : FSpec) (rm : RMode) (s : Bool) (num den : Nat) (e : Int) : Nat × Flags :=
  let sh := f.mb + 4 + Nat.log2 den + 1
  let n := num <<< sh
  let q := n / den
  roundFin f rm s (2 * q + (if n % den = 0 then 0 else 1)) (e - sh - 1)

/-- Integer square root, bit by bit from bit b down. -/
def isqrtAux : Nat → Nat → Nat → Nat
  | 0, n, r => if (r + 1) * (r + 1) ≤ n then r + 1 else r
  | b + 1, n, r =>
    let r' := r + 2 ^ (b + 1)
    isqrtAux b n (if r' * r' ≤ n then r' else r)
def isqrt (n : Nat) : Nat := isqrtAux (Nat.log2 n / 2 + 1) n 0

/-! ### Exact sums -/

/-- A signed exact term: integer mantissa and exponent. -/
structure Term where
  m : Int
  e : Int
  deriving DecidableEq, Repr

def termOf (s : Bool) (m : Nat) (e : Int) : Term := ⟨if s then -(m : Int) else m, e⟩

/-- The exact sum of terms as one term at the least exponent. -/
def sumTerms : List Term → Term
  | [] => ⟨0, 0⟩
  | t :: ts =>
    let r := sumTerms ts
    let e := min t.e r.e
    ⟨t.m * 2 ^ (t.e - e).toNat + r.m * 2 ^ (r.e - e).toNat, e⟩

/-- Round an exact sum; a zero sum takes the sign given. -/
def roundTerm (f : FSpec) (rm : RMode) (zs : Bool) (t : Term) : Nat × Flags :=
  if t.m = 0 then (zeroPat f zs, 0#5)
  else roundFin f rm (decide (t.m < 0)) t.m.natAbs t.e

/-! ### NaN choice (R25) -/

/-- The first NaN among operands, quieted, and whether any operand is a signalling NaN. -/
def pickNaN (f : FSpec) : List Nat → Option Nat
  | [] => none
  | x :: xs => if (decodeF f x).isNaN then some (quiet f x) else pickNaN f xs
def anySig (f : FSpec) (xs : List Nat) : Bool := xs.any fun x => (decodeF f x).isSig

/-- Index of the first NaN operand (R132: its tangent propagates). -/
def nanIdx (f : FSpec) : List Nat → Option Nat
  | [] => none
  | x :: xs => if (decodeF f x).isNaN then some 0 else (nanIdx f xs).map (· + 1)

/-- A result with a NaN operand: R25, signalling operands raise invalid. -/
def nanRes (f : FSpec) (xs : List Nat) (k : Nat × Flags) : Nat × Flags :=
  match pickNaN f xs with
  | some q => (q, if anySig f xs then fNV else 0#5)
  | none => k

/-! ### Arithmetic (R274) -/

/-- The sign of an exact zero sum of two operands (IEEE 754-2019 6.3). -/
def zeroSign (rm : RMode) (sa sb : Bool) : Bool := if sa = sb then sa else decide (rm = .rdn)

def addV (f : FSpec) (rm : RMode) (x y : FVal) : Nat × Flags :=
  match x, y with
  | .inf s, .inf t => if s = t then (infPat f s, 0#5) else (dNaN f, fNV)
  | .inf s, _ => (infPat f s, 0#5)
  | _, .inf t => (infPat f t, 0#5)
  | .fin s m e, .fin t n k =>
    if m = 0 ∧ n = 0 then (zeroPat f (zeroSign rm s t), 0#5)
    else roundTerm f rm (decide (rm = .rdn)) (sumTerms [termOf s m e, termOf t n k])
  | _, _ => (dNaN f, 0#5)

def FVal.neg : FVal → FVal
  | .fin s m e => .fin (!s) m e
  | .inf s => .inf (!s)
  | .nan s g => .nan s g

def fAdd (f : FSpec) (rm : RMode) (a b : Nat) : Nat × Flags :=
  nanRes f [a, b] (addV f rm (decodeF f a) (decodeF f b))
def fSub (f : FSpec) (rm : RMode) (a b : Nat) : Nat × Flags :=
  nanRes f [a, b] (addV f rm (decodeF f a) (decodeF f b).neg)

/-- The exact product of two non-NaN values; none for 0 · ∞. -/
def mulV (x y : FVal) : Option FVal :=
  match x, y with
  | .fin s m e, .fin t n k => some (.fin (s != t) (m * n) (e + k))
  | .inf s, .fin t n _ => if n = 0 then none else some (.inf (s != t))
  | .fin s m _, .inf t => if m = 0 then none else some (.inf (s != t))
  | .inf s, .inf t => some (.inf (s != t))
  | _, _ => none

def roundV (f : FSpec) (rm : RMode) : FVal → Nat × Flags
  | .fin s m e => roundFin f rm s m e
  | .inf s => (infPat f s, 0#5)
  | .nan _ _ => (dNaN f, 0#5)

def fMul (f : FSpec) (rm : RMode) (a b : Nat) : Nat × Flags :=
  nanRes f [a, b]
    (match mulV (decodeF f a) (decodeF f b) with
     | some p => roundV f rm p
     | none => (dNaN f, fNV))

/-- a · b + c with one rounding; 0 · ∞ is invalid even when c is a quiet NaN (R274). -/
def fFma (f : FSpec) (rm : RMode) (a b c : Nat) : Nat × Flags :=
  let x := decodeF f a
  let y := decodeF f b
  let z := decodeF f c
  if x.isNaN || y.isNaN then nanRes f [a, b, c] (dNaN f, 0#5)
  else match mulV x y with
    | none => if z.isNaN then (quiet f c, fNV) else (dNaN f, fNV)
    | some p => nanRes f [c] (addV f rm p z)

def fDiv (f : FSpec) (rm : RMode) (a b : Nat) : Nat × Flags :=
  nanRes f [a, b]
    (match decodeF f a, decodeF f b with
     | .inf _, .inf _ => (dNaN f, fNV)
     | .inf s, y => (infPat f (s != y.sign), 0#5)
     | x, .inf t => (zeroPat f (x.sign != t), 0#5)
     | .fin s m e, .fin t n k =>
       if n = 0 then (if m = 0 then (dNaN f, fNV) else (infPat f (s != t), fDZ))
       else if m = 0 then (zeroPat f (s != t), 0#5)
       else roundRatio f rm (s != t) m n (e - k)
     | _, _ => (dNaN f, 0#5))

def fSqrt (f : FSpec) (rm : RMode) (a : Nat) : Nat × Flags :=
  nanRes f [a]
    (match decodeF f a with
     | .inf s => if s then (dNaN f, fNV) else (infPat f false, 0#5)
     | .fin s m e =>
       if m = 0 then (zeroPat f s, 0#5)
       else if s then (dNaN f, fNV)
       else
         -- an even exponent and at least 2p + 4 mantissa bits before the root
         let sh := 2 * (f.mb + 4) + (if (e % 2 = 0) then 0 else 1)
         let n := m <<< sh
         let r := isqrt n
         roundFin f rm false (2 * r + (if r * r = n then 0 else 1)) ((e - sh) / 2 - 1)
     | .nan _ _ => (dNaN f, 0#5))

/-! ### Order (R275, R276) -/

/-- Compare two non-NaN values; +0 and −0 are equal. -/
def cmpV (x y : FVal) : Ordering :=
  match x, y with
  | .inf s, .inf t => if s = t then .eq else if s then .lt else .gt
  | .inf s, _ => if s then .lt else .gt
  | _, .inf t => if t then .gt else .lt
  | .fin s m e, .fin t n k =>
    let d := (sumTerms [termOf s m e, termOf (!t) n k]).m
    if d < 0 then .lt else if d = 0 then .eq else .gt
  | _, _ => .eq

/-- R275: true when a supplies the result of fmin (or of fmax). -/
def takeA (f : FSpec) (isMin : Bool) (a b : Nat) : Bool :=
  let x := decodeF f a
  let y := decodeF f b
  if x.isNaN && y.isNaN then true
  else if x.isNaN then false
  else if y.isNaN then true
  else match cmpV x y with
    | .eq => true
    | .lt => isMin
    | .gt => !isMin

def fMinMax (f : FSpec) (isMin : Bool) (a b : Nat) : Nat × Flags :=
  let fl : Flags := if anySig f [a, b] then fNV else 0#5
  if (decodeF f a).isNaN && (decodeF f b).isNaN then (quiet f a, fl)
  else (if takeA f isMin a b then a else b, fl)

/-- R276: the truth of a condition and whether invalid is raised. -/
def fCmp (f : FSpec) (c : FCond) (a b : Nat) : Bool × Flags :=
  let x := decodeF f a
  let y := decodeF f b
  let un := x.isNaN || y.isNaN
  let o := cmpV x y
  let val := match c with
    | .eq => !un && o == .eq
    | .ne => un || o != .eq
    | .lt => !un && o == .lt
    | .le => !un && o != .gt
    | .gt => !un && o == .gt
    | .ge => !un && o != .lt
    | .un => un
    | .ord => !un
  let anyNaN := match c with
    | .lt | .le | .gt | .ge => true
    | _ => false
  (val, if anySig f [a, b] || (anyNaN && un) then fNV else 0#5)

/-- R278: only the sign bit changes. -/
def fSgn (f : FSpec) (op : SgnOp) (a b : Nat) : Nat :=
  let mag := a % 2 ^ (f.eb + f.mb)
  let s := match op with
    | .cpy => signBit f b
    | .ncpy => !signBit f b
    | .xsgn => signBit f a != signBit f b
    | .neg => !signBit f a
    | .abs => false
  signPat f s + mag

/-! ### Conversions (R25 to R27) -/

/-- A NaN carried to another format: sign and leading payload bits kept, quiet, never zero (R25). -/
def cvtNaN (f t : FSpec) (x : Nat) : Nat :=
  let s := signBit f x
  match t.kind with
  | .e4 | .plain => infPat t s
  | .ieee =>
    let fr := fracOf f x
    let fr' := if f.mb ≤ t.mb then fr <<< (t.mb - f.mb) else fr >>> (f.mb - t.mb)
    signPat t s + (2 ^ t.eb - 1) * 2 ^ t.mb + ((fr' % 2 ^ t.mb) ||| 2 ^ (t.mb - 1))

/-- Float to float with the saturation of R26 for the FP8 targets. -/
def cvtFF (f t : FSpec) (rm : RMode) (sat8 : Bool) (x : Nat) : Nat × Flags :=
  let fp8 := decide (t.width = 8)
  match decodeF f x with
  | .nan _ g => (cvtNaN f t x, if g then fNV else 0#5)
  | .inf s =>
    if fp8 && sat8 then (maxPat t s, 0#5)
    else match t.kind with
      | .e4 => (infPat t s, fNV)
      | _ => (infPat t s, 0#5)
  | .fin s m e =>
    let (r, fl) := roundFin t rm s m e
    if fp8 && sat8 && decide (fl &&& fOF ≠ 0#5) then (maxPat t s, fl) else (r, fl)

/-- The integral value nearest m · 2^e in a mode, with the inexact mark. -/
def toIntegral (rm : RMode) (s : Bool) (m : Nat) (e : Int) : Nat × Bool :=
  if e ≥ 0 then (m <<< e.toNat, false) else rndShift rm s m (-e).toNat

/-- Float to integer: rounded, then saturated (R27); the result is the two's-complement pattern. -/
def cvtFI (f : FSpec) (w : Nat) (sgn : Bool) (rm : RMode) (x : Nat) : Nat × Flags :=
  let hi : Int := if sgn then 2 ^ (w - 1) - 1 else 2 ^ w - 1
  let lo : Int := if sgn then -(2 ^ (w - 1)) else 0
  let pat (i : Int) : Nat := (i % 2 ^ w).toNat
  match decodeF f x with
  | .nan _ _ => (0, fNV)
  | .inf s => (pat (if s then lo else hi), fNV)
  | .fin s m e =>
    let (n, inx) := toIntegral rm s m e
    let i : Int := if s then -(n : Int) else n
    if i > hi then (pat hi, fNV)
    else if i < lo then (pat lo, fNV)
    else (pat i, if inx then fNX else 0#5)

/-- The integer a pattern of width w stands for. -/
def intVal (w : Nat) (sgn : Bool) (x : Nat) : Int :=
  let x := x % 2 ^ w
  if sgn && x.testBit (w - 1) then (x : Int) - 2 ^ w else x

/-- Integer to float (R27). -/
def cvtIF (w : Nat) (sgn : Bool) (t : FSpec) (rm : RMode) (sat8 : Bool) (x : Nat) : Nat × Flags :=
  let i := intVal w sgn x
  let s := decide (i < 0)
  let (r, fl) := roundFin t rm s i.natAbs 0
  if decide (t.width = 8) && sat8 && decide (fl &&& fOF ≠ 0#5) then (maxPat t s, fl) else (r, fl)

/-- Convert an element between any two format codes of fcvt and vcvt (R277, R287). -/
def cvt (src tgt : Fmt) (rm : RMode) (sat8 : Bool) (x : Nat) : Nat × Flags :=
  match fspec? src, fspec? tgt with
  | some f, some t => cvtFF f t rm sat8 x
  | some f, none =>
    match intFmt? tgt with
    | some (w, g) => cvtFI f w g rm x
    | none => (x, 0#5)
  | none, some t =>
    match intFmt? src with
    | some (w, g) => cvtIF w g t rm sat8 x
    | none => (x, 0#5)
  | none, none => (x, 0#5)

/-- fcvti: round to an integral value in rm, then to the target to nearest (R277). -/
def cvtIntegral (f t : FSpec) (rm : RMode) (x : Nat) : Nat × Flags :=
  match decodeF f x with
  | .nan _ g => (cvtNaN f t x, if g then fNV else 0#5)
  | .inf s => (infPat t s, 0#5)
  | .fin s m e =>
    let (n, inx) := toIntegral rm s m e
    let (r, fl) := roundFin t .rne s n 0
    (r, fl ||| (if inx then fNX else 0#5))

end Sys2Proof.Machine
end

