-- ==== Sys2Proof/Machine/Bound.lean ====
section
/-!
DEFINITION. Error bounds: the half-ulp function (R32), bound arithmetic in FP32 rounded upward (R33),
the largest magnitude (R34), the sideband encoding (R40) and the bound formulas (R36, R135).
-/
namespace Sys2Proof.Machine

/-- FP32 +∞ as a bound. -/
def bInf : Word32 := 0x7F800000#32

/-- An exact non-negative magnitude, or none for one that is infinite or NaN (R34). -/
abbrev Mag := Option (Nat × Int)

def mag0 : Mag := some (0, 0)

/-- m · 2^e as an FP32 bound rounded upward; tiny values become 2^−149 (R33). -/
def bUp (m : Nat) (e : Int) : Word32 := BitVec.ofNat 32 (roundFin fp32 .rup false m e).1

def magOfBound (b : Word32) : Mag :=
  match decodeF fp32 b.toNat with
  | .fin _ m e => some (m, e)
  | _ => none

def magUp : Mag → Word32
  | some (m, e) => bUp m e
  | none => bInf

/-- The sum of two bounds, rounded upward. -/
def bAdd (a b : Word32) : Word32 :=
  match magOfBound a, magOfBound b with
  | some (m, e), some (n, k) =>
    let t := sumTerms [⟨m, e⟩, ⟨n, k⟩]
    bUp t.m.natAbs t.e
  | _, _ => bInf

/-- A magnitude times a bound, rounded upward; a product that would be NaN is +∞ (R33). -/
def bMul (x : Mag) (b : Word32) : Word32 :=
  match x, magOfBound b with
  | some (m, e), some (n, k) => bUp (m * n) (e + k)
  | _, _ => bInf

/-- The larger of two bounds: for non-negative FP32 values the patterns order as the values do. -/
def bMax (a b : Word32) : Word32 := if a.toNat ≤ b.toNat then b else a

def bSum (xs : List Word32) : Word32 := xs.foldl bAdd 0#32
def bMaxL (xs : List Word32) : Word32 := xs.foldl bMax 0#32

/-- A bound as software supplies it: bit 31 cleared, a NaN pattern read as +∞ (R303, R332). -/
def bClean (w : Word32) : Word32 :=
  let x := w &&& 0x7FFFFFFF#32
  if x.toNat > bInf.toNat then bInf else x

/-- Compare exact magnitudes. -/
def magLe : Mag → Mag → Bool
  | _, none => true
  | none, some _ => false
  | some (m, e), some (n, k) => decide ((sumTerms [⟨m, e⟩, ⟨-(n : Int), k⟩]).m ≤ 0)

def magMax (a b : Mag) : Mag := if magLe a b then b else a

/-- |x| of a floating-point pattern. -/
def magOf (f : FSpec) (x : Nat) : Mag :=
  match decodeF f x with
  | .fin _ m e => some (m, e)
  | _ => none

/-- max|x| over patterns (R34). -/
def maxMag (f : FSpec) (xs : List Nat) : Mag := xs.foldl (fun a x => magMax a (magOf f x)) mag0

/-- H of R32 at a magnitude, as a bound. -/
def halfUlp (f : FSpec) : Mag → Word32
  | none => bInf
  | some (m, e) =>
    let lead : Int := (Nat.log2 m : Int) + e
    let ex : Int := if m = 0 then f.emin else max lead f.emin
    bUp 1 (ex - f.mb - 1)

/-- R40: an FP32 bound encoded into the 24-bit field of a sideband word. -/
def encE8M15 (b : Word32) : BitVec 24 :=
  let t := (b.toNat / 256) % 2 ^ 23
  let u := if b.toNat % 256 = 0 then t else t + 1
  if u ≥ 0x7F8000 then 0x7F8000#24 else BitVec.ofNat 24 u

/-- R40: the FP32 bound of a field; any e = 255 is +∞. -/
def decE8M15 (x : BitVec 24) : Word32 :=
  let t := x.toNat % 2 ^ 23
  if t ≥ 0x7F8000 then bInf else BitVec.ofNat 32 (t * 256)

/-- The bound a line's sideband word gives a reader (R39). -/
def sbBound (w : Word32) : Word32 :=
  if w.getLsbD 7 then decE8M15 (w.extractLsb' 8 24) else 0#32

/-- A sideband word from its parts: bound with bvalid set, sev, poison (R39, R41). -/
def mkSb (b : Word32) (bvalid : Bool) (sev : BitVec 2) (poison : Bool) : Word32 :=
  encE8M15 b ++ BitVec.ofBool bvalid ++ sev ++ BitVec.ofBool poison ++ 0#4

def sbPoison (w : Word32) : Bool := w.getLsbD 4
def sbSev (w : Word32) : BitVec 2 := w.extractLsb' 5 2

/-! ### Formulas of R36 -/

def bAddSub (ba bb h : Word32) : Word32 := bSum [ba, bb, h]
/-- max|a|·b_b + max|b|·b_a + b_a·b_b -/
def bProd (ma mb : Mag) (ba bb : Word32) : Word32 :=
  bSum [bMul ma bb, bMul mb ba, bMul (magOfBound ba) bb]
def bMulF (ma mb : Mag) (ba bb h : Word32) : Word32 := bAdd (bProd ma mb ba bb) h
def bFma (ma mb : Mag) (ba bb bc h : Word32) : Word32 := bSum [bProd ma mb ba bb, bc, h]

/-- The bound is +∞ when a magnitude of an operand or result is not finite (R34). -/
def bGuard (ms : List Mag) (b : Word32) : Word32 := if ms.all Option.isSome then b else bInf

end Sys2Proof.Machine
end

