-- ==== Sys2Proof/Machine/Base.lean ====
section
/-!
DEFINITION. Accessors of State and the agenda: cores, threads, partitions, scratchpad bytes, posting of
events. Every other file of the machine reads and writes State through these.
-/
namespace Sys2Proof.Machine

/-! ### Cores and threads -/

def State.core (s : State) (c : Nat) : Core := s.cores.lookD c Core.reset
def State.setCore (s : State) (c : Nat) (x : Core) : State := { s with cores := s.cores.ins c x }
def State.modCore (s : State) (c : Nat) (f : Core → Core) : State := s.setCore c (f (s.core c))

def State.thr (s : State) (id : Word32) : Thread := s.threads.lookD id.toNat Thread.blank
def State.setThr (s : State) (id : Word32) (t : Thread) : State :=
  { s with threads := s.threads.ins id.toNat t }
def State.modThr (s : State) (id : Word32) (f : Thread → Thread) : State := s.setThr id (f (s.thr id))

/-- The issuing thread. -/
def State.th (s : State) : Thread := s.thr s.cur
def State.setTh (s : State) (t : Thread) : State := s.setThr s.cur t
def State.modTh (s : State) (f : Thread → Thread) : State := s.setThr s.cur (f s.th)

/-- A thread record exists and is not freed (R53). -/
def State.live (s : State) (id : Word32) : Bool :=
  match s.threads.look id.toNat with
  | some t => t.life != .exited
  | none => false

/-- The cycle of the turn in hand (R50). -/
def State.now (s : State) : Nat := s.cycle + s.cursor / 1024
/-- The cycle of the next tick boundary: boundaries fall every 64 cycles after the end of reset, the cycles of a hold
excluded (R5). -/
def State.nextBoundary (s : State) : Nat := s.tickBase + ((s.cycle - s.tickBase) / Config.tickCycles + 1) * Config.tickCycles

/-- A thread's creating core (R238). -/
def homeOf (id : Word32) : Nat := (id.toNat / 64) % 1024

/-! ### Status fields (R48) -/

def Thread.mode (t : Thread) : BitVec 2 := t.status.extractLsb' 0 2
def Thread.ie (t : Thread) : Bool := t.status.getLsbD 2
def Thread.dual (t : Thread) : Bool := t.status.getLsbD 5
def Thread.sltrap (t : Thread) : Bool := t.status.getLsbD 8
def Thread.user (t : Thread) : Bool := t.mode == 0#2
def setBits (w : BitVec 12) (lo n : Nat) (x : Nat) : BitVec 12 :=
  let m : BitVec 12 := BitVec.ofNat 12 ((2 ^ n - 1) * 2 ^ lo)
  (w &&& ~~~m) ||| (BitVec.ofNat 12 (x * 2 ^ lo) &&& m)

/-! ### Logical and physical cores, partitions (R10, R157, R158) -/

/-- The physical core with a logical number. -/
def State.physOf (s : State) (l : Nat) : Option Nat := s.enabled[l]?
def State.logOf (s : State) (c : Nat) : Option Nat := (s.core c).lcore

/-- guser of the configuration table (R352). -/
def State.guser (s : State) : Bool := s.flash.table.dw0.getLsbD 16
/-- A core of the gable column (R352). -/
def State.isGable (s : State) (c : Nat) : Bool := s.gable.contains c

def State.part (s : State) (p : Nat) : Option Part := s.parts.look p

/-- A logical number that lies in a partition, with its physical core (R157, R158). -/
def State.inPart (s : State) (p l : Nat) : Option Nat :=
  match s.part p, s.physOf l with
  | some q, some c =>
    if q.desc.base ≤ l ∧ l < q.desc.base + q.desc.len ∧ (s.guser || !s.isGable c) then some c else none
  | _, _ => none

/-- The partition of a physical core. -/
def State.partOf (s : State) (c : Nat) : Option Nat :=
  match s.logOf c with
  | none => none
  | some l => (s.parts.find? fun e => (s.inPart e.1 l).isSome).map (·.1)

/-- The physical cores of a partition in logical order. -/
def State.partCores (s : State) (p : Nat) : List Nat :=
  match s.part p with
  | none => []
  | some q => (List.range q.desc.len).filterMap fun i => s.inPart p (q.desc.base + i)

/-- The ridge die of a core: eave dies 0 to 3 belong to die 0, 4 to 7 to die 1 (R7). -/
def eaveOf (c : Nat) : Nat := 4 * (c / 32 / 16) + (c % 32) / 8
def ridgeOf (c : Nat) : Nat := eaveOf c / 4

/-! ### The agenda -/

/-- The seat a thread holds. -/
def State.seatOf (s : State) (id : Word32) : Option Nat :=
  (s.seats.find? fun e => e.2.thid == id && !e.2.saving).map (·.1)
/-- The place of a sender in the order of R141: ascending core, then ascending seat; one without a seat comes last. -/
def State.sender (s : State) (id : Word32) : Nat :=
  32 * (s.thr id).core + (match s.seatOf id with | some k => k / 1024 | none => 16)

/-- The source of a message that a release holds back: earlier stores of its thread first (R141, R179, R259). -/
def releaseOf : Instr → Option Word32
  | .taskMessage src _ _ => some src
  | .mailboxDelivery src _ _ _ => some src
  | .signalDelivery src _ _ _ => some src
  | .barrierArrival src _ _ _ => some src
  | .spawnRequest r => some r.src
  | .qputRequest src _ _ _ _ => some src
  | _ => none

/-- Post an event: it may happen delay cycles from now, after earlier events of its channel (0: none). -/
def State.post (s : State) (ev : Instr) (chan : Nat := 0) (delay : Nat := 0) : State :=
  { s with agenda := s.agenda ++ [⟨s.nextOp, s.now + delay, chan, false, ev,
    match releaseOf ev with | some src => s.sender src | none => 0⟩] }
/-- Post an event that happens at its due cycle, before any turn. -/
def State.postHard (s : State) (ev : Instr) (due : Nat) : State :=
  { s with agenda := s.agenda ++ [⟨s.nextOp, due, 0, true, ev, 0⟩] }
/-- Post an event that comes as many cycles from now as the manual says, and no later. -/
def State.postAt (s : State) (ev : Instr) (delay : Nat) : State := s.postHard ev (s.now + delay)
/-- Post an event once. -/
def State.postOnce (s : State) (ev : Instr) (delay : Nat := 0) : State :=
  if s.agenda.any (fun p => decide (p.ev = ev)) then s else s.post ev 0 delay

/-- Channels: messages from one core to another are applied in the order they were sent. -/
def chanPort (src dst : Nat) : Nat := 0x100000 + 1024 * src + dst
/-- Migration packets are a message class of their own (R54). -/
def chanMigr (src dst : Nat) : Nat := 0x400000 + 1024 * src + dst
def chanThread (src dst : Word32) : Nat := 0x1000000 + src.toNat * 2 ^ 32 + dst.toNat
/-- Messages of one thread to one port are applied in issue order, and those of different threads by R141. -/
def chanTask (src : Word32) (home : Nat) : Nat := 2 ^ 72 + src.toNat * 1024 + home
def chanHost : Nat := 1
def chanHostOf (id : Word32) : Nat := 0x80000000 * 0x100000000 + id.toNat
/-- Requests reach a hall in their order of sending; those of class 0 are taken first (R115). -/
def chanHall (r : Nat) (first : Bool := false) : Nat := if first then 4 + r else 2 + r
def chanCopy (op : Nat) : Nat := 0x200000 + op
def chanQueue (core dir : Nat) : Nat := 0x10000 + 16 * core + dir

/-- Draw a free value's index. -/
def State.draw (s : State) : Nat × State := (s.free, { s with free := s.free + 1 })

/-- The entries of the life log (R359), by key of State.lifelog. -/
def lgHold : Nat := 1
def lgLateHold : Nat := 2
def lgDouble : Nat := 3
def lgDropSth : Nat := 4
def lgLateSwitch (p : Nat) : Nat := 100 + p
/-- Images that a restore rejected (R358). -/
def lgBadImage : Nat := 5
def lgRerun (a h : Nat) : Nat := 1000 + 4 * a + h
def lgTrip (a h : Nat) : Nat := 2000 + 4 * a + h
def lgFail (a h : Nat) : Nat := 3000 + 4 * a + h
def lgThermal (die bin : Nat) : Nat := 4000 + 4 * die + bin
def lgDroop (die bin : Nat) : Nat := 5000 + 4 * die + bin

/-- Corrected reads of a stack by sev 1 to 3, and uncorrectable ones (R78). -/
def lgEcc (eave sev : Nat) : Nat := 200 + 8 * eave + sev

/-- Add to a saturating counter of the life log: 64 bits, or 32 for a histogram bin (R359). -/
def State.count (s : State) (ev : Nat) (n : Nat := 1) : State :=
  let top := if ev < 4000 then 2 ^ 64 - 1 else 2 ^ 32 - 1
  { s with lifelog := s.lifelog.ins ev (min top (s.lifelog.lookD ev 0 + n)) }

/-! ### Scratchpad bytes and formats -/

def Core.spRead (c : Core) (o n : Nat) : List Byte := c.sp.run 0#8 o n
def Core.spNat (c : Core) (o n : Nat) : Nat := leNat (c.spRead o n)
def Core.spWrite (c : Core) (o : Nat) (bs : List Byte) : Core := { c with sp := c.sp.putRun 0#8 o bs }
def Core.spB (c : Core) (o : Nat) : Word32 := c.spBound.lookD (o / 64) 0#32
def Core.setSpB (c : Core) (o : Nat) (b : Word32) : Core := { c with spBound := c.spBound.put 0#32 (o / 64) b }
/-- The format register of a bank (R304). -/
def Core.fmtReg (c : Core) (bank : Nat) : Word := c.fmt.lookD bank 7#64
def Core.bankFmt (c : Core) (o : Nat) : Fmt := fmtOf ((c.fmtReg (o / 65536 % 16)).toNat % 16)
/-- Where the block-scale and band-scale planes of a bank begin, as an offset in the bank (R304). -/
def blkOf (regs : List Word) (a : Nat) : Nat := 64 * ((regs.getD (a / 65536 % 16) 7#64).toNat / 2 ^ 16 % 1024)
def bandOf (regs : List Word) (a : Nat) : Nat := 64 * ((regs.getD (a / 65536 % 16) 7#64).toNat / 2 ^ 26 % 1024)
/-- The address of the block scale that belongs to a byte of an FP4 element plane, and of a band scale (R18); past the end of the
bank it goes on at its beginning (log 119). -/
def scaleAddr (regs : List Word) (a : Nat) : Nat := a / 65536 * 65536 + (blkOf regs a + a % 65536 / 4) % 65536
def bandAddr (regs : List Word) (a band : Nat) : Nat := a / 65536 * 65536 + (bandOf regs a + 2 * band) % 65536
def Core.cbuf (c : Core) (n : Nat) : CircBuf := c.cb.lookD n ⟨0, 0, 0, 0, 0, 0, 0, 0⟩
def Core.setCb (c : Core) (n : Nat) (b : CircBuf) : Core := { c with cb := c.cb.ins n b }
def Core.sreg (c : Core) (n : Nat) : Shared := c.shared.lookD n ⟨0#64, false, []⟩
def Core.setSreg (c : Core) (n : Nat) (x : Shared) : Core :=
  { c with shared := c.shared.ins n x, sregErr := c.sregErr.filter (· != BitVec.ofNat 8 (0x90 + n)) }
/-- A shared register written at a cycle: what it held stays readable for 15 cycles (R60). -/
def Shared.wrote (r : Shared) (x : Word) (now : Nat) (plain : Bool) : Shared :=
  ⟨x, true, (r.value, now, plain) :: r.olds.filter fun e => decide (now < e.2.1 + 16)⟩
/-- The older values a plain read at a cycle may still return. -/
def Shared.stale (r : Shared) (now : Nat) : List Word :=
  (r.olds.filter fun e => decide (e.2.1 < now) && decide (now < e.2.1 + 16)).map (·.1)
/-- Those a swap may return: it sees every earlier swap and synchronised access, and plain writes as a plain read does (R260,
R347). -/
def Shared.swapStale (r : Shared) (now : Nat) : List Word :=
  (r.olds.takeWhile fun e => e.2.2 && decide (e.2.1 < now) && decide (now < e.2.1 + 16)).map (·.1)

/-! ### Inbound queues (R189 to R191, R223) -/

def Core.queue (c : Core) (d : Nat) : InQueue := c.inq.lookD d ⟨[], 0, 0⟩
def Core.setQueue (c : Core) (d : Nat) (q : InQueue) : Core := { c with inq := c.inq.ins d q }
/-- Entries in the queue, those an access in flight is to take among them. -/
def InQueue.held (q : InQueue) : Nat := q.items.length + q.claimed
/-- Lent entries go back to the reserve once a queue holds 8 entries or fewer (R191). -/
def Core.settle (c : Core) (d : Nat) : Core :=
  let q := c.queue d
  if 0 < q.lent ∧ q.held ≤ 8 then { c.setQueue d { q with lent := 0 } with reserve := c.reserve + q.lent } else c

/-- The address under which stencils and the registration order know a scratchpad byte (R88). -/
def spKey (c o : Nat) : Nat := 2 ^ 29 * c + 0x1E000000 + o

end Sys2Proof.Machine
end

