-- ==== Sys2Proof/Machine/Sm3.lean ====
section
/-!
DEFINITION. The SM3 digest (GB/T 32905-2016) that context images, launch images and attestation use
(R62, R168, R350, R354).
-/
namespace Sys2Proof.Machine

def rol32 (x : Word32) (n : Nat) : Word32 := x.rotateLeft (n % 32)

def sm3P0 (x : Word32) : Word32 := x ^^^ rol32 x 9 ^^^ rol32 x 17
def sm3P1 (x : Word32) : Word32 := x ^^^ rol32 x 15 ^^^ rol32 x 23

/-- The big-endian words of a block. -/
def beWords : List Byte → List Word32
  | a :: b :: c :: d :: r => (a ++ b ++ c ++ d) :: beWords r
  | _ => []

/-- Message expansion: W is held newest first. -/
def sm3Expand : Nat → List Word32 → List Word32
  | 0, w => w
  | n + 1, w =>
    let g (i : Nat) : Word32 := w.getD (i - 1) 0#32
    sm3Expand n ((sm3P1 (g 16 ^^^ g 9 ^^^ rol32 (g 3) 15) ^^^ rol32 (g 13) 7 ^^^ g 6) :: w)

structure Sm3Regs where
  a : Word32
  b : Word32
  c : Word32
  d : Word32
  e : Word32
  f : Word32
  g : Word32
  h : Word32

def sm3Round (r : Sm3Regs) (j : Nat) (w w4 : Word32) : Sm3Regs :=
  let t : Word32 := if j < 16 then 0x79CC4519#32 else 0x7A879D8A#32
  let ss1 := rol32 (rol32 r.a 12 + r.e + rol32 t j) 7
  let ss2 := ss1 ^^^ rol32 r.a 12
  let ff := if j < 16 then r.a ^^^ r.b ^^^ r.c else (r.a &&& r.b) ||| (r.a &&& r.c) ||| (r.b &&& r.c)
  let gg := if j < 16 then r.e ^^^ r.f ^^^ r.g else (r.e &&& r.f) ||| (~~~r.e &&& r.g)
  let tt1 := ff + r.d + ss2 + (w ^^^ w4)
  let tt2 := gg + r.h + ss1 + w
  ⟨tt1, r.a, rol32 r.b 9, r.c, sm3P0 tt2, r.e, rol32 r.f 19, r.g⟩

def sm3Rounds : Nat → Nat → List Word32 → Sm3Regs → Sm3Regs
  | 0, _, _, r => r
  | n + 1, j, ws, r => sm3Rounds n (j + 1) ws.tail (sm3Round r j (ws.headD 0#32) (ws.getD 4 0#32))

def sm3Block (v : Sm3Regs) (block : List Byte) : Sm3Regs :=
  let ws := (sm3Expand 52 (beWords block).reverse).reverse
  let r := sm3Rounds 64 0 ws v
  ⟨v.a ^^^ r.a, v.b ^^^ r.b, v.c ^^^ r.c, v.d ^^^ r.d, v.e ^^^ r.e, v.f ^^^ r.f, v.g ^^^ r.g, v.h ^^^ r.h⟩

def sm3Blocks : Nat → List Byte → Sm3Regs → Sm3Regs
  | 0, _, v => v
  | n + 1, bs, v => sm3Blocks n (bs.drop 64) (sm3Block v (bs.take 64))

def sm3Iv : Sm3Regs :=
  ⟨0x7380166F#32, 0x4914B2B9#32, 0x172442D7#32, 0xDA8A0600#32, 0xA96F30BC#32, 0x163138AA#32, 0xE38DEE4D#32,
   0xB0FB0E4E#32⟩

def sm3Pad (bs : List Byte) : List Byte :=
  let z := (119 - bs.length % 64) % 64
  bs ++ [0x80#8] ++ List.replicate z 0#8 ++ (leBytes 8 (8 * bs.length)).reverse

/-- The digest of a string of bytes, first digest byte in the most significant place. -/
def sm3 (bs : List Byte) : BitVec 256 :=
  let p := sm3Pad bs
  let v := sm3Blocks (p.length / 64) p sm3Iv
  v.a ++ v.b ++ v.c ++ v.d ++ v.e ++ v.f ++ v.g ++ v.h

/-- A digest as the bytes memory holds, first digest byte at the lowest address (log 16). -/
def digestBytes (d : BitVec 256) : List Byte := (leBytes 32 d.toNat).reverse

end Sys2Proof.Machine
end

