-- ==== Sys2Proof/Machine/Image.lean ====
section
/-!
DEFINITION. Register access of a thread record, and the context image (R45, R62 to R65): writing one and
checking one.
-/
namespace Sys2Proof.Machine

/-! ### Registers of a thread (R47) -/

def Thread.gR (t : Thread) (i : Nat) : Word := t.g.lookD i 0#64
def Thread.vR (t : Thread) (i : Nat) : Vec := t.v.lookD i 0#512
def Thread.vB (t : Thread) (i : Nat) : Word32 := t.vb.lookD i 0#32
/-- Tangent j (from 0) of g(i). -/
def Thread.gT (t : Thread) (j i : Nat) : Word := t.gt.lookD (128 * j + i) 0#64
def Thread.vT (t : Thread) (j i : Nat) : Vec := t.vt.lookD (32 * j + i) 0#512
def Thread.vTb (t : Thread) (j i : Nat) : Word32 := t.vtb.lookD (32 * j + i) 0#32
def Thread.lR (t : Thread) (i : Nat) : Word32 := t.l.lookD i 0#32
/-- A register that is written holds no error any more (log 93). -/
def Thread.setG (t : Thread) (i : Nat) (x : Word) : Thread :=
  { t with g := t.g.put 0#64 i x, regErr := t.regErr.filter (· != (false, BitVec.ofNat 8 i)) }
def Thread.setGT (t : Thread) (j i : Nat) (x : Word) : Thread := { t with gt := t.gt.put 0#64 (128 * j + i) x }
def Thread.setV (t : Thread) (i : Nat) (x : Vec) : Thread :=
  { t with v := t.v.put 0#512 i x, regErr := t.regErr.filter (· != (true, BitVec.ofNat 8 i)) }
def Thread.setVb (t : Thread) (i : Nat) (b : Word32) : Thread := { t with vb := t.vb.put 0#32 i b }
def Thread.setVT (t : Thread) (j i : Nat) (x : Vec) : Thread := { t with vt := t.vt.put 0#512 (32 * j + i) x }
def Thread.setVTb (t : Thread) (j i : Nat) (b : Word32) : Thread := { t with vtb := t.vtb.put 0#32 (32 * j + i) b }
def Thread.setL (t : Thread) (i : Nat) (x : Word32) : Thread := { t with l := t.l.put 0#32 i x }
def Thread.gFull (t : Thread) (i : Nat) : Bool := !t.gEmpty.contains i
def Thread.setFull (t : Thread) (i : Nat) (f : Bool) : Thread :=
  { t with gEmpty := if f then t.gEmpty.filter (· != i)
                     else if t.gEmpty.contains i then t.gEmpty else i :: t.gEmpty }
/-- p0 reads 1 always. -/
def Thread.p (t : Thread) (i : Nat) : Bool := i == 0 || t.pred.getLsbD i
def Thread.setP (t : Thread) (i : Nat) (b : Bool) : Thread :=
  if i = 0 then t
  else
    let m : BitVec 16 := BitVec.ofNat 16 (2 ^ i)
    { t with pred := if b then t.pred ||| m else t.pred &&& ~~~m }
/-- Bit 63 of the event word follows the mailbox (R249). -/
def Thread.event (t : Thread) : Word :=
  (t.ev &&& 0x7FFFFFFFFFFFFFFF#64) ||| (if t.mailbox.isEmpty then 0#64 else 0x8000000000000000#64)
/-- The cause register (R209). -/
def Thread.cause (t : Thread) : Word :=
  (if t.cAsync then 0x8000000000000000#64 else 0#64) ||| (if t.cLost then 0x4000000000000000#64 else 0#64)
    ||| t.cCode.zeroExtend 64

/-! ### Shapes (R42) -/

/-- The limits of R42 on a shape: kind, W, V, k and dual. -/
def shapeOk (roaming : Bool) (W V k : Nat) (dual : Bool) : Bool :=
  decide (8 ≤ W ∧ W ≤ 128 ∧ W % 8 = 0) && (V == 0 || V == 8 || V == 16 || V == 32) && decide (k ≤ 4) &&
  (!dual || decide (1 ≤ k)) && (!roaming || (decide (W ≤ 24) && V == 0 && !dual && k == 0))

/-! ### What registers keep of a value (R13) -/

/-- The bits a control register keeps of a written value (R13, R22, R48, R108, R134, R189, R209). -/
def fpctlKept (x : Word) : BitVec 13 := x.setWidth 13 &&& 0x1F07#13
def epcKept (x : Word) : Word := x &&& 0xFFFFFFFFFFFFFFFC#64
def tvecKept (x : Word) : Word := x &&& 0xFFFFFFFFFFFFFF80#64
def tstrideKept (x : Word) : Word := x &&& 0x0000FFFFFFFFFFC0#64
def bthrKept (x : Word) : Word := x &&& 0x33F#64
/-- qlink stores 0 for a malformed value (R189): up 6:4 and down 2:0, each 0 to 4. -/
def qlinkKept (x : Word) : Word :=
  let u := x.toNat / 16 % 8
  let d := x.toNat % 8
  if x.toNat = 16 * u + d ∧ u ≤ 4 ∧ d ≤ 4 then x else 0#64

/-! ### The migration packet (R43, R45) -/

/-- Flit 0: the fields that travel with a roaming thread. -/
def Thread.headFlit (t : Thread) : BitVec 256 :=
  let full := (List.range t.W).foldl (fun a i => if t.gFull i then a + 2 ^ i else a) 0
  BitVec.ofNat 256 (t.thid.toNat + t.pc.toNat % 2 ^ 48 * 2 ^ 32 + t.status.toNat * 2 ^ 80 + t.pred.toNat * 2 ^ 92 +
    full % 2 ^ 24 * 2 ^ 108 + t.fpctl.toNat * 2 ^ 132 + t.fpflags.toNat * 2 ^ 145 + t.prio.toNat * 2 ^ 150 +
    t.slice % 65536 * 2 ^ 152 + t.bthr.toNat % 1024 * 2 ^ 168 + t.qlink.toNat % 128 * 2 ^ 178 + t.rank % 1024 * 2 ^ 185 +
    t.gsize % 2048 * 2 ^ 195)

/-- The packet: flit 0, then the window, four registers to a flit. -/
def Thread.packet (t : Thread) : List (BitVec 256) :=
  t.headFlit :: (List.range (t.W / 4)).map fun j => t.gR (4 * j + 3) ++ t.gR (4 * j + 2) ++ t.gR (4 * j + 1) ++ t.gR (4 * j)

/-- The thread filled from a packet over the state its anchor keeps: bits 63:48 of pc are copies of bit 47 (R68), and the
outstanding loads and stores read zero. -/
def Thread.fillFrom (t : Thread) (ps : List (BitVec 256)) : Thread :=
  let h := ps.getD 0 0#256
  let W := 4 * (ps.length - 1)
  { t with
    W := W
    pc := (h.extractLsb' 32 48).signExtend 64
    status := h.extractLsb' 80 12
    pred := h.extractLsb' 92 16
    gEmpty := (List.range W).filter fun i => !h.getLsbD (108 + i)
    fpctl := h.extractLsb' 132 13
    fpflags := h.extractLsb' 145 5
    prio := h.extractLsb' 150 2
    slice := (h.extractLsb' 152 16).toNat
    bthr := (h.extractLsb' 168 10).zeroExtend 64
    qlink := (h.extractLsb' 178 7).zeroExtend 64
    rank := (h.extractLsb' 185 10).toNat
    gsize := (h.extractLsb' 195 11).toNat
    g := (List.range W).foldl (fun (g : Tbl Word) i => g.put 0#64 i ((ps.getD (1 + i / 4) 0#256).extractLsb' (64 * (i % 4)) 64)) []
    outLd := 0
    outSt := 0
    pcMode := t.pcMode
    line := none }

/-! ### Writing an image (R62 to R64) -/

def dwords (ws : List Word) : List Byte := ws.flatMap fun w => leBytes 8 w.toNat
def words (ws : List Word32) : List Byte := ws.flatMap fun w => leBytes 4 w.toNat
def pad64 (bs : List Byte) : List Byte := bs ++ List.replicate ((64 - bs.length % 64) % 64) 0#8

def Thread.stateCode (t : Thread) : Nat :=
  -- a wait for nothing but a credit goes on (R190)
  if t.late.isSome then 1
  else match t.life with
  | .waitUnseated => 1
  | .seated => 2
  | .waitSeated => 3
  | .ready | .migrating | .exited | .swappedOut => 0

/-- The address of the instruction in hand, or of its dual prefix (R201). -/
def Thread.restart (t : Thread) : Word :=
  match t.dualPfx with
  | some (_, x) => x
  | none => t.pc

/-- The 16 dwords of a thread record (R63). -/
def Thread.record (t : Thread) : List Word :=
  let d0 := t.thid.toNat + t.V * 2 ^ 32 + t.W * 2 ^ 40 + t.prio.toNat * 2 ^ 50 + t.stateCode * 2 ^ 52
  [BitVec.ofNat 64 d0, t.restart, t.status.zeroExtend 64, t.event, t.cause, t.tval, t.epc, t.tvec,
   t.fpctl.zeroExtend 64, t.fpflags.zeroExtend 64, t.tstride, t.bthr, BitVec.ofNat 64 t.slice, t.qlink,
   BitVec.ofNat 64 t.rank, BitVec.ofNat 64 t.gsize]

def loopDwords (o : Option LoopLvl) : List Word :=
  match o with
  | some l => [l.start, l.stop, l.count]
  | none => [0#64, 0#64, 0#64]
/-- The loop item (R64); loops are held outermost first. -/
def Thread.loopItem (t : Thread) : List Word :=
  let act (i : Nat) := if (t.loops[i]?).isSome then 2 ^ i else 0
  let sus (i : Nat) := match t.loops[i]? with | some l => if l.sus then 4 * 2 ^ i else 0 | none => 0
  loopDwords t.loops[0]? ++ loopDwords t.loops[1]? ++ [BitVec.ofNat 64 (act 0 + act 1 + sus 0 + sus 1)]

/-- The counter item (R64). -/
def Thread.counterItem (t : Thread) : List Word :=
  let l (i : Nat) : Word := t.lR (2 * i + 1) ++ t.lR (2 * i)
  let pc := leNat (t.posted.map (·.code))
  [BitVec.ofNat 64 (t.outLd % 65536 + t.outSt % 65536 * 2 ^ 16 + t.outCp % 65536 * 2 ^ 32 + t.outHr % 65536 * 2 ^ 48),
   l 0, l 1, l 2, l 3, 0#64, 0#64, 0#64, 0#64, 0#64, 0#64, BitVec.ofNat 64 pc]

/-- The sections of a thread's image: type, number of items and bytes. What a thread has of registers or of messages is one item; a
bound word and a record are items each (R62). An empty section has no entry (log 94). -/
def Thread.sections (t : Thread) (recs flits : List (List Byte)) : List (Nat × Nat × List Byte) :=
  let gs := (List.range t.W).map t.gR
  let vs := (List.range t.V).flatMap fun i => leBytes 64 (t.vR i).toNat
  let sh := (List.range t.k).flatMap (fun j => dwords ((List.range t.W).map (t.gT j))) ++
    (List.range t.k).flatMap (fun j => (List.range t.V).flatMap fun i => leBytes 64 (t.vT j i).toNat)
  let bs := words ((List.range t.V).map t.vB ++ (List.range t.k).flatMap fun j => (List.range t.V).map (t.vTb j))
  let full := (List.range t.W).foldl (fun a i => if t.gFull i then a + 2 ^ i else a) 0
  ([(1, 1, dwords t.record), (2, 1, dwords gs), (3, 1, vs), (4, 1, sh),
    (5, t.V + t.k * t.V, bs), (6, 1, leBytes 2 t.pred.toNat), (7, 1, leBytes (8 * ((t.W + 63) / 64)) full),
    (8, 1, dwords t.loopItem), (9, 1, dwords t.counterItem), (10, 1, dwords t.mailbox),
    (11, recs.length, recs.flatten), (12, flits.length, flits.flatten)]).filter fun x => decide (x.2.2.length ≠ 0)

/-- The section table and the padded sections, from a given offset. -/
def layOut : List (Nat × Nat × List Byte) → Nat → List Byte × List Byte
  | [], _ => ([], [])
  | (ty, n, bs) :: r, off =>
    let p := pad64 bs
    let (tab, body) := layOut r (off + p.length)
    (leBytes 2 ty ++ leBytes 2 0 ++ leBytes 4 off ++ leBytes 4 bs.length ++ leBytes 4 n ++ tab, p ++ body)

/-- A thread's context image (R62). -/
def Thread.image (t : Thread) (purpose : Nat) (origin : Nat) (recs : List (List Byte)) (flits : List (List Byte) := []) : List Byte :=
  let secs := t.sections recs flits
  let head := 48 + 16 * secs.length
  let first := (head + 63) / 64 * 64
  let (tab, body) := layOut secs first
  let rest := tab ++ List.replicate (first - head) 0#8 ++ body
  leBytes 2 1 ++ leBytes 2 0 ++ leBytes 2 origin ++ leBytes 3 0 ++ leBytes 1 purpose ++ leBytes 2 secs.length ++
    leBytes 4 (48 + rest.length) ++ digestBytes (sm3 rest) ++ rest

/-! ### Checking an image (R64, R65) -/

def natAt (bs : List Byte) (o n : Nat) : Nat := leNat ((bs.drop o).take n)

structure SecEnt where
  type : Nat
  off  : Nat
  size : Nat
  count : Nat
  deriving DecidableEq, Repr

def secTable (bs : List Byte) (n : Nat) : List SecEnt :=
  (List.range n).map fun i =>
    let o := 48 + 16 * i
    ⟨natAt bs o 2, natAt bs (o + 4) 4, natAt bs (o + 8) 4, natAt bs (o + 12) 4⟩

def secOf (tab : List SecEnt) (ty : Nat) : Option SecEnt := tab.find? fun e => e.type == ty
def dwAt (bs : List Byte) (o i : Nat) : Word := BitVec.ofNat 64 (natAt bs (o + 8 * i) 8)

/-- The offset in a thread record of the first field that breaks R42: v, w, or the shape fields of status. -/
def shapeFault (roaming : Bool) (W V k : Nat) (dual : Bool) : Option Nat :=
  if !(V == 0 || V == 8 || V == 16 || V == 32) || (roaming && V != 0) then some 4
  else if !(decide (8 ≤ W ∧ W ≤ 128 ∧ W % 8 = 0)) || (roaming && decide (24 < W)) then some 5
  else if shapeOk roaming W V k dual then none else some 16

/-- The byte offset of the first failing field, if the image must be rejected (R64, R65; logs 90 and 122). The thread record, the
loop item and the counter item are tested in that order, and dwords 5 to 10 of the last count as one field (log 134). -/
def imageFault (bs : List Byte) : Option Nat :=
  let len := natAt bs 12 4
  if natAt bs 0 2 ≠ 1 then some 0
  else if len < 48 ∨ len > bs.length then some 12
  else if digestBytes (sm3 ((bs.take len).drop 48)) ≠ (bs.drop 16).take 32 then some 16
  else
    let tab := secTable bs (natAt bs 10 2)
    let badSec := (List.range tab.length).findSome? fun i =>
      match tab[i]? with
      | none => none
      | some e =>
        if e.type < 1 ∨ 12 < e.type then some (48 + 16 * i)
        else if e.off + e.size > len then some (48 + 16 * i + 4)
        else none
    match badSec with
    | some o => some o
    | none =>
      match secOf tab 1 with
      | none => some 10
      | some r =>
        let d0 := natAt bs r.off 8
        let st := natAt bs (r.off + 16) 8
        let kk := if st.testBit 3 then st / 64 % 4 + 1 else 0
        match shapeFault (st.testBit 4) (d0 / 2 ^ 40 % 256) (d0 / 2 ^ 32 % 256) kk (st.testBit 5) with
        | some o => some (r.off + o)
        | none =>
          let loopBad := match secOf tab 8 with
            | none => none
            | some e =>
              let f := natAt bs (e.off + 48) 8
              if f / 16 ≠ 0 ∨ (f.testBit 2 ∧ !f.testBit 0) ∨ (f.testBit 3 ∧ !f.testBit 1) ∨ (f.testBit 1 ∧ !f.testBit 0)
              then some (e.off + 48) else none
          match loopBad with
          | some o => some o
          | none =>
            match secOf tab 9 with
            | none => none
            | some e =>
              if natAt bs (e.off + 40) 48 ≠ 0 then some (e.off + 40)
              else if natAt bs (e.off + 92) 4 ≠ 0 then some (e.off + 92)
              else none

/-- The loops an item describes, outermost first. -/
def loopsAt (bs : List Byte) (o : Nat) : List LoopLvl :=
  let f := natAt bs (o + 48) 8
  let lv (i : Nat) : LoopLvl := ⟨dwAt bs o (3 * i), dwAt bs o (3 * i + 1), dwAt bs o (3 * i + 2), f.testBit (2 + i)⟩
  (if f.testBit 0 then [lv 0] else []) ++ (if f.testBit 1 then [lv 1] else [])

/-- The state a thread record gives (R63): 0 ready, 1 waiting unseated, 2 seated, 3 waiting seated. -/
def imageState (bs : List Byte) : Nat :=
  match secOf (secTable bs (natAt bs 10 2)) 1 with
  | some e => natAt bs e.off 8 / 2 ^ 52 % 16
  | none => 0

/-- The records of section 0x000B: 160 bytes for each booking, then 64 bytes for each copy (R93, R127). -/
def imageRecords (bs : List Byte) : List (List Byte) × List (List Byte) :=
  match secOf (secTable bs (natAt bs 10 2)) 11 with
  | none => ([], [])
  | some e =>
    let nb := (e.size - 64 * e.count) / 96
    ((List.range nb).map fun i => (bs.drop (e.off + 160 * i)).take 160,
     (List.range (e.count - nb)).map fun i => (bs.drop (e.off + 160 * nb + 64 * i)).take 64)

/-- A thread filled from an accepted image, over the record the device kept for it (R63, R64, R204). A mode that names none, or the
firmware mode away from a gable core, is taken as the image has it (log 135). -/
def threadOf (bs : List Byte) (base : Thread) : Thread :=
  let tab := secTable bs (natAt bs 10 2)
  let off (ty : Nat) : Nat := match secOf tab ty with | some e => e.off | none => bs.length
  let r := off 1
  let d (i : Nat) : Word := dwAt bs r i
  let d0 := (d 0).toNat
  let W := d0 / 2 ^ 40 % 256
  let V := d0 / 2 ^ 32 % 256
  let raw : BitVec 12 := (d 2).setWidth 12
  -- ntan reads 0 where tan does (R128)
  let st : BitVec 12 := if raw.getLsbD 3 then raw else raw &&& 0xF3F#12
  let k := if st.getLsbD 3 then (st.extractLsb' 6 2).toNat + 1 else 0
  let vec (o : Nat) : Vec := BitVec.ofNat 512 (natAt bs o 64)
  let wd (o : Nat) : Word32 := BitVec.ofNat 32 (natAt bs o 4)
  let rng {α : Type} [DecidableEq α] (z : α) (ks : List Nat) (f : Nat → α) : Tbl α :=
    ks.foldl (fun t i => t.put z i (f i)) []
  let full := natAt bs (off 7) (8 * ((W + 63) / 64))
  let codes := ((List.range 4).map fun i => BitVec.ofNat 8 (natAt bs (off 9 + 88 + i) 1)).filter (· != 0#8)
  let base9 := off 9
  { base with
    thid := BitVec.ofNat 32 d0
    W := W
    V := V
    k := k
    prio := BitVec.ofNat 2 (d0 / 2 ^ 50)
    pc := d 1
    -- how control reached pc is not in the image: the kept record tells it, or a line address stands for its line (R215)
    pcMode := if base.restart = d 1 ∧ base.dualPfx.isNone then base.pcMode
      else if (d 1).toNat % 128 = 0 then .line else .start
    line := none
    dualPfx := none
    status := st
    roaming := st.getLsbD 4
    ev := d 3 &&& 0x7FFFFFFFFFFFFFFF#64
    cAsync := (d 4).getLsbD 63
    cLost := (d 4).getLsbD 62
    cCode := (d 4).setWidth 8
    tval := d 5
    epc := epcKept (d 6)
    tvec := tvecKept (d 7)
    fpctl := fpctlKept (d 8)
    fpflags := (d 9).setWidth 5
    tstride := tstrideKept (d 10)
    bthr := bthrKept (d 11)
    slice := (d 12).toNat % 65536
    qlink := qlinkKept (d 13)
    rank := (d 14).toNat % 1024
    gsize := (d 15).toNat % 2048
    g := rng 0#64 (List.range W) fun i => dwAt bs (off 2) i
    gEmpty := (List.range W).filter fun i => !full.testBit i
    v := rng 0#512 (List.range V) fun i => vec (off 3 + 64 * i)
    vb := rng 0#32 (List.range V) fun i => bClean (wd (off 5 + 4 * i))
    gt := rng 0#64 ((List.range k).flatMap fun j => (List.range W).map fun i => 128 * j + i)
      fun q => dwAt bs (off 4) (q / 128 * W + q % 128)
    vt := rng 0#512 ((List.range k).flatMap fun j => (List.range V).map fun i => 32 * j + i)
      fun q => vec (off 4 + 8 * k * W + 64 * (q / 32 * V + q % 32))
    vtb := rng 0#32 ((List.range k).flatMap fun j => (List.range V).map fun i => 32 * j + i)
      fun q => bClean (wd (off 5 + 4 * (V + q / 32 * V + q % 32)))
    pred := BitVec.ofNat 16 (natAt bs (off 6) 2) ||| 1#16
    loops := match secOf tab 8 with | some e => loopsAt bs e.off | none => []
    l := rng 0#32 (List.range 8) fun i => wd (base9 + 8 + 4 * i)
    mailbox := match secOf tab 10 with
      | some e => (List.range (e.size / 8)).map fun i => dwAt bs e.off i
      | none => []
    -- the image holds no tval: the kept record has those of its causes, and the causes posted since (R204, log 95)
    posted := if (base.posted.map (·.code)).take codes.length = codes then base.posted else codes.map fun c => ⟨c, 0#64⟩ }

end Sys2Proof.Machine
end

