-- ==== Sys2Proof/Machine/Mem.lean ====
section
/-!
DEFINITION. Device memory: physical addresses (R67), pending stores (R340), sideband words (R39 to R41),
translation (R68 to R73), the stencil check (R89), and instruction lines (R147, R211 to R215).
-/
namespace Sys2Proof.Machine

/-! ### Physical memory -/

def isFar (pa : Nat) : Bool := pa.testBit 46
/-- The home core of a near physical address (R67). -/
def homeCore (pa : Nat) : Nat := pa / 2 ^ 29 % 1024

/-- R67: an address that holds no data a program can reach; one with a bit set that must be zero is such a one (log 123). -/
def State.absent (s : State) (pa : Nat) : Bool :=
  if isFar pa then decide (pa % 2 ^ 46 ≥ Config.farAbsent)
  else decide (pa ≥ 2 ^ 39) || decide (pa % 2 ^ 29 ≥ Config.nearAbsent) || s.fused.contains (homeCore pa)

/-- The newest pending byte of a core at an address. -/
def pendByte (ps : List PendStore) (pa : Nat) : Option Byte :=
  ps.foldl (fun (r : Option Byte) (p : PendStore) =>
    match List.find? (fun (e : Host.Cell) => e.1 == pa) p.bytes with
    | some e => some e.2
    | none => r) none

/-- A core has stores to some of n bytes that are not yet performed. -/
def Core.holds (c : Core) (pa n : Nat) : Bool := c.pend.any fun p => p.bytes.any fun e => decide (pa ≤ e.1) && decide (e.1 < pa + n)

/-- A byte of device memory as a thread of a core sees it: its core's pending stores first (R340). -/
def State.dmByte (s : State) (core pa : Nat) : Byte :=
  match pendByte (s.core core).pend pa with
  | some b => b
  | none => s.mem.lookD pa 0#8
def State.dmBytes (s : State) (core pa n : Nat) : List Byte :=
  (List.range n).map fun i => s.dmByte core (pa + i)
def State.dmNat (s : State) (core pa n : Nat) : Nat := leNat (s.dmBytes core pa n)

def State.sbWord (s : State) (pa : Nat) : Word32 := s.sideband.lookD (pa / 64) 0#32
def State.setSb (s : State) (pa : Nat) (w : Word32) : State :=
  { s with sideband := s.sideband.put 0#32 (pa / 64) w }

/-- The sideband word a write leaves (R40, R41, R78, R80): a full line replaces the bound and clears sev
and poison; a part keeps the larger bound. -/
def sbAfter (w : Word32) (full : Bool) (b : Word32) : Word32 :=
  if full then mkSb b true 0#2 false
  else mkSb (bMax (sbBound w) b) true (sbSev w) (sbPoison w)
/-- stsb to device memory (R303). -/
def sbStored (w : Word32) (b : Word32) : Word32 :=
  BitVec.ofNat 32 ((b.toNat / 256 % 2 ^ 23) * 256 + (if b.getLsbD 7 then 128 else 0)
    + (sbSev w).toNat * 32 + (if sbPoison w || b.getLsbD 4 then 16 else 0))

def sbApply (w : Word32) (p : PendStore) : Word32 :=
  match p.sb with
  | some b => sbStored w b
  | none => sbAfter w p.line p.bound

/-- The sideband word of a line as a thread of a core sees it. -/
def State.dmSb (s : State) (core pa : Nat) : Word32 :=
  ((s.core core).pend.filter (fun p => p.pa / 64 == pa / 64)).foldl sbApply (s.sbWord pa)

/-- Write bytes of device memory at once. -/
def State.dmWrite (s : State) (pa : Nat) (bs : List Byte) : State := { s with mem := s.mem.putRun 0#8 pa bs }

/-- A whole line is written: what was wrong with it is gone (R78). -/
def State.renewed (s : State) (pa : Nat) : State := { s with errs := s.errs.del (pa / 64) }

/-- Perform a pending store at its home port (R339, R340). -/
def State.perform (s : State) (p : PendStore) : State :=
  let s := if p.line then s.renewed p.pa else s
  let s := { s with mem := p.bytes.foldl (fun (m : Tbl Byte) (e : Host.Cell) => m.put 0#8 e.1 e.2) s.mem }
  s.setSb p.pa (sbApply (s.sbWord p.pa) p)

/-! ### Rows and error correction (R77, R78, R81) -/

/-- The row of a core's window a near physical address lies in; its pseudo-channel and its row there (R77). -/
def dramRow (pa : Nat) : Nat := pa % 2 ^ 29 / 2048
def rowChan (n : Nat) : Nat := n % 3
def chanRow (n : Nat) : Nat := n / 3
/-- Rows of a pseudo-channel (R77). -/
def chanRows : Nat := 81920
/-- The key of a row in the counts of a core: its pseudo-channel, then its row there. -/
def rowKey (n : Nat) : Nat := chanRows * rowChan n + chanRow n

/-- The row throttle limit firmware set in the configuration table (R81, R352). -/
def State.rowLimit (s : State) : Nat :=
  let n := s.flash.table.dw0.toNat / 2 ^ 48
  if n = 0 then 4096 else n

/-- One more activation of a row; at the limit it is throttled (R81, log 17). -/
def State.activate (s : State) (pa : Nat) : State :=
  if isFar pa then s
  else
    let c := homeCore pa
    let k := rowKey (dramRow pa)
    let n := (s.core c).rows.lookD k 0 + 1
    let s := s.modCore c fun x => { x with rows := x.rows.ins k n }
    if n = s.rowLimit then s.post (.rowThrottle c (dramRow pa)) else s

/-- The decoder corrects one symbol only (R78). -/
def State.eccOne (s : State) : Bool := s.flash.table.dw0.getLsbD 17

/-- A line that the decoder takes for another one: its data and its sideband word become what the manual does not say, with
the sev of the correction (R78). -/
def State.miscorrect (s : State) (pa sev : Nat) : State :=
  let n := s.free
  let s := { s with free := n + 9 }
  let s := s.dmWrite (pa / 64 * 64) ((List.range 8).flatMap fun i => leBytes 8 (Config.freeWord (n + i)).toNat)
  s.setSb pa (((Config.freeWord (n + 8)).setWidth 32 &&& 0x7FFFFF90#32) ||| BitVec.ofNat 32 (32 * sev))

/-- A line as its controller reads it: an error it holds is met now. A corrected line is written back with its sev, an
uncorrectable one poisoned, and the life log counts either (R78). -/
def State.eccRead (s : State) (pa : Nat) : State :=
  match s.errs.look (pa / 64) with
  | none => s
  | some k =>
    let s := s.renewed pa
    let w := s.sbWord pa
    let s := if k = 4 then s.setSb pa (w ||| 0x10#32)
      else if 4 < k then s.miscorrect pa (k - 4)
      else s.setSb pa ((w &&& 0xFFFFFF9F#32) ||| BitVec.ofNat 32 (32 * k))
    s.count (lgEcc (eaveOf (homeCore pa)) (if 4 < k then k - 4 else k))

/-- A store reaches its line: a part of a line is written by reading and rewriting the whole line (R79). -/
def State.performNow (s : State) (p : PendStore) : State :=
  ((if p.line then s else s.eccRead p.pa).perform p).activate p.pa

/-- A line is read: an error is met and the row is activated (R78, R81). -/
def State.lineRead (s : State) (pa : Nat) : State := (s.eccRead pa).activate pa

/-- An error appears in a near line: which line and of which kind is free, among the kinds the mode of the decoder allows (R78,
log 93). -/
def State.errNew (s : State) : State :=
  let n := s.free
  let s := { s with free := n + 2 }
  let pa := (Config.freeWord n).toNat % 2 ^ 39 / 64 * 64
  let k := (Config.freeWord (n + 1)).toNat % 6 + 1
  if s.absent pa || (s.eccOne && (k == 2 || k == 6)) then s else { s with errs := s.errs.ins (pa / 64) k }

/-- An uncorrectable soft error appears in a line of a scratchpad, in a shared register or in a register of a thread: where is free
(R210, R295, log 93). -/
def State.softNew (s : State) : State :=
  let n := s.free
  let w (i : Nat) : Nat := (Config.freeWord (n + i)).toNat
  let s := { s with free := n + 3 }
  let core := w 1 % 1024
  match w 0 % 4 with
  | 0 => s.modCore core fun c => { c with softErr := (w 2 % (Config.spBytes / 64)) :: c.softErr }
  | 1 => s.modCore core fun c => { c with sregErr := BitVec.ofNat 8 (0x90 + w 2 % 64) :: c.sregErr }
  | k =>
    match (s.threads.map (·.1))[w 1 % s.threads.length]? with
    | none => s
    | some id => s.modThr (BitVec.ofNat 32 id) fun t => { t with
        regErr := (if k = 2 then (false, BitVec.ofNat 8 (w 2 % 128)) else (true, BitVec.ofNat 8 (w 2 % 32))) :: t.regErr }

/-! ### Stencil (R87 to R89) -/

def Piece.hits (p : Piece) (lo n : Nat) : Bool := decide (p.lo < lo + n) && decide (lo < p.hi)
/-- The cause of a thread access to n bytes at a stencil address (R89). -/
def stencilCause (st : List Piece) (lo n : Nat) (write : Bool) : Option Byte :=
  if st.any (fun p => p.hits lo n && p.write) then some 0x81#8
  else if write && st.any (fun p => p.hits lo n) then some 0x80#8
  else none

/-- Two pieces of different operations that overlap (R88). Pieces of one operation never wait on each
other (R87). -/
def Piece.meets (p q : Piece) : Bool := decide (p.lo < q.hi) && decide (q.lo < p.hi) && p.op != q.op
/-- Two pieces that cannot both be registered (R88). -/
def Piece.clash (p q : Piece) : Bool := p.meets q && (p.write || q.write)
/-- Nothing but a full stencil can keep a piece from registering behind the given earlier waiters (R88). -/
def Piece.fits (p : Piece) (st earlier : List Piece) : Bool := !st.any (·.clash p) && !earlier.any (·.meets p)
/-- The earlier waiters that wait for a free entry only: they take entries first (R88). -/
def entryWaiters (st : List Piece) : List Piece → List Piece → Nat
  | _, [] => 0
  | seen, p :: r => (if p.fits st seen then 1 else 0) + entryWaiters st (seen ++ [p]) r
/-- A piece may register behind the given earlier waiters (R88). -/
def canRegister (st : List Piece) (earlier : List Piece) (p : Piece) : Bool :=
  decide (st.length + entryWaiters st [] earlier < Config.stencilMax) && p.fits st earlier

/-! ### Translation (R68 to R73) -/

/-- What an access needs of a page. -/
inductive Acc where
  | read | write | atomic | fetch
  /-- the metadata of a line, which poison does not guard (R303) -/
  | side
  deriving DecidableEq, Repr

def Acc.writes : Acc → Bool
  | .write | .atomic => true
  | .read | .fetch | .side => false
def Acc.reads : Acc → Bool
  | .read | .atomic | .side => true
  | .write | .fetch => false

def canonical (va : Word) : Bool :=
  let hi := va.toNat / 2 ^ 47
  hi == 0 || hi == 2 ^ 17 - 1

/-- The outcome of a translation. -/
inductive Tr where
  | ok (pa : Nat)
  | fault (code : Byte)
  /-- a far, compressed or migrating page: the address of its leaf entry and the entry -/
  | touch (leaf : Nat) (pte : Nat)
  deriving DecidableEq, Repr

def pteBit (e i : Nat) : Bool := e.testBit i
def pteAddr (e : Nat) : Nat := e / 4096 % 2 ^ 35 * 4096

/-- R70: a present entry that no table may hold. -/
def pteBad (level e : Nat) : Bool :=
  let leaf := pteBit e 5
  (leaf && level == 4) || (!leaf && level == 1) ||
  (leaf && level == 2 && e / 4096 % 512 != 0) || (leaf && level == 3 && e / 4096 % 2 ^ 18 != 0) ||
  (pteBit e 6 != pteBit e 46) ||
  (leaf && pteBit e 6 && (level != 1 || pteBit e 8)) ||
  (e / 2 ^ 47 % 2 ^ 16 != 0) ||
  (!leaf && (pteBit e 63 || e / 64 % 64 != 0 || e / 2 % 16 != 0))

/-- R71 on a leaf: the first failing permission. -/
def leafCause (e : Nat) (user : Bool) (a : Acc) : Option Byte :=
  if pteBit e 63 then some 0x4C#8
  else if user && !pteBit e 4 then some 0x44#8
  else if a == .fetch && !pteBit e 3 then some 0x43#8
  else if a.reads && !pteBit e 1 then some 0x41#8
  else if a.writes && !pteBit e 2 then some 0x42#8
  else none

def levelBits (level : Nat) : Nat := 12 + 9 * (level - 1)

/-- A leaf a walk reached. -/
structure Leaf where
  level : Nat
  addr  : Nat
  pte   : Nat
  deriving DecidableEq, Repr

/-- Walk from a table at a level, as a thread of a core sees memory: the leaf or a cause, and the non-leaf
entries read (R68, R70). A table at an absent address is read like another (log 138). -/
def State.walkFrom (s : State) (core : Nat) (va : Nat) :
    Nat → Nat → List WalkEnt → Nat → Except Byte Leaf × List WalkEnt
  | 0, _, ws, _ => (.error 0x4A#8, ws)
  | level + 1, table, ws, part =>
    let a := table + 8 * (va / 2 ^ levelBits (level + 1) % 512)
    if sbPoison (s.dmSb core a) then (.error 0x4B#8, ws)
    else
      let e := s.dmNat core a 8
      if !pteBit e 0 then (.error 0x40#8, ws)
      else if pteBad (level + 1) e then (.error 0x4A#8, ws)
      else if pteBit e 5 then (.ok ⟨level + 1, a, e⟩, ws)
      else s.walkFrom core va level (pteAddr e)
        (⟨part, level + 1, va / 2 ^ levelBits (level + 1), pteAddr e⟩ :: ws) part

/-- The lowest table the walk cache holds for an address, else the root (R73). -/
def walkStart (wc : List WalkEnt) (part va root : Nat) : Nat × Nat :=
  let hit (l : Nat) := wc.find? fun w => w.part == part && w.level == l && w.tag == va / 2 ^ levelBits l
  match hit 2, hit 3, hit 4 with
  | some w, _, _ => (1, w.table)
  | _, some w, _ => (2, w.table)
  | _, _, some w => (3, w.table)
  | _, _, _ => (4, root)

def State.walk (s : State) (core part : Nat) (va : Nat) : Except Byte Leaf × List WalkEnt :=
  let root := match s.part part with | some p => p.desc.root.toNat | none => 0
  let (lv, t) := walkStart (s.core core).walk part va root
  s.walkFrom core va lv t [] part

/-- Keep at most n entries, dropping the oldest (log 14). -/
def keepNewest {α : Type} (n : Nat) (xs : List α) : List α := xs.drop (xs.length - n)

def State.noteWalk (s : State) (core : Nat) (ws : List WalkEnt) : State :=
  if ws.isEmpty then s
  else s.modCore core fun c => { c with walk := keepNewest 64 (c.walk ++ ws.reverse) }

def TlbEnt.has (e : TlbEnt) (part vpn : Nat) : Bool :=
  e.part == part && decide (e.vpn ≤ vpn) && decide (vpn < e.vpn + e.pages)

/-- The entries a walk reads, from a table at a level on. -/
def State.walkPath (s : State) (core va : Nat) : Nat → Nat → List Nat
  | 0, _ => []
  | level + 1, table =>
    let a := table + 8 * (va / 2 ^ levelBits (level + 1) % 512)
    let e := s.dmNat core a 8
    a :: if !pteBit e 0 || pteBad (level + 1) e || pteBit e 5 then [] else s.walkPath core va level (pteAddr e)

/-- The reads of a walk (R68, R78, R81). -/
def State.walkRead (s : State) (core part va : Nat) : State :=
  let root := match s.part part with | some p => p.desc.root.toNat | none => 0
  let (lv, t) := walkStart (s.core core).walk part va root
  (s.walkPath core va lv t).foldl State.lineRead s

/-- An entry as software left it: hardware's own changes, accessed, dirty, migrating and the rewriting of R75, are undone. -/
def State.softPte (s : State) (leaf e : Nat) : Nat :=
  let bare (x : Nat) : Nat := (x ||| 3200) - 3200
  match s.rewrites.look leaf with
  | some (new, old) => if bare e = bare new then bare old else bare e
  | none => bare e

/-- Software keeps the rule of R72 in a run: sixteen contig entries with the same bits and frames that continue one another. -/
def State.runKept (s : State) (core first : Nat) : Bool :=
  let e (i : Nat) : Nat := s.softPte (first + 8 * i) (s.dmNat core (first + 8 * i) 8)
  (List.range 16).all fun i => pteBit (e i) 9 && e i % 4096 == e 0 % 4096 && pteAddr (e i) == pteAddr (e 0) + 4096 * i

/-- The entry an access in a contig run uses, and its frame: the page's own, or where software broke the rule of R72 the run's
first, continued to the page, as the free value says (log 5). The first is used as the TLB holds it, so only while it is
plainly near (R73). -/
def State.contigLeaf (s : State) (core : Nat) (l : Leaf) (va : Nat) : Nat × Nat :=
  let i := va / 4096 % 16
  if l.level == 1 && pteBit l.pte 9 && !s.runKept core (l.addr - 8 * i) && !Config.contigOwn s.free then
    let f := s.dmNat core (l.addr - 8 * i) 8
    if pteBit f 0 && !pteBad 1 f && pteBit f 9 && !(pteBit f 6 || pteBit f 7 || pteBit f 8) then (f, pteAddr f + 4096 * i)
    else (l.pte, pteAddr l.pte)
  else (l.pte, pteAddr l.pte)

/-- Set bits of a byte where the newest pending store to it has it. -/
def orPend (a : Nat) (m : Byte) : List PendStore → List PendStore
  | [] => []
  | p :: r =>
    if (pendByte r a).isSome then p :: orPend a m r
    else { p with bytes := p.bytes.map fun (e : Host.Cell) => if e.1 = a then (a, e.2 ||| m) else e } :: r

/-- The walker sets bits of a byte of an entry where it lies: in a store of its core not yet performed, or in memory (R69,
R340). -/
def State.pteOr (s : State) (core a : Nat) (m : Byte) : State :=
  if (pendByte (s.core core).pend a).isSome then s.modCore core fun c => { c with pend := orPend a m c.pend }
  else (s.dmWrite a [s.mem.lookD a 0#8 ||| m]).activate a

/-- Translate an access of a thread (R68 to R73): the outcome, and the machine with the accessed and dirty
bits, the TLB and the walk cache brought up to date when it succeeds. -/
def State.translate (s : State) (core part : Nat) (user : Bool) (va : Word) (a : Acc) : Tr × State :=
  if !canonical va then (.fault 0x45#8, s)
  else
    let v := va.toNat % 2 ^ 48
    let vpn := v / 4096
    match (s.core core).tlb.find? (fun e => e.has part vpn && (e.dirty || !a.writes)) with
    | some e =>
      if user && !e.user then (.fault 0x44#8, s)
      else if a == .fetch && !e.exec then (.fault 0x43#8, s)
      else if a.reads && !e.read then (.fault 0x41#8, s)
      else if a.writes && !e.write then (.fault 0x42#8, s)
      else
        let pa := (e.pfn + (vpn - e.vpn)) * 4096 + v % 4096
        if s.absent pa then (.fault 0x46#8, s) else (.ok pa, s)
    | none =>
      let s := s.walkRead core part v
      match s.walk core part v with
      | (.error c, _) => (.fault c, s)
      | (.ok l, ws) =>
        let (pte, frame) := s.contigLeaf core l v
        match leafCause pte user a with
        | some c => (.fault c, s)
        | none =>
          if pteBit pte 7 || pteBit pte 8 || pteBit pte 6 then
            if pteBit pte 6 && s.absent (frame + v % 4096) then (.fault 0x46#8, s) else (.touch l.addr pte, s)
          else
            let off := v % 2 ^ levelBits l.level
            let pa := frame + off
            if s.absent pa then (.fault 0x46#8, s)
            else
              let pte' := l.pte ||| 1024 ||| (if a.writes then 2048 else 0)
              let s := if pte' = l.pte then s else s.pteOr core (l.addr + 1) (if a.writes then 12#8 else 4#8)
              let pages := 2 ^ (9 * (l.level - 1))
              let e : TlbEnt := ⟨part, vpn / pages * pages, pages, frame / 4096, pteBit pte 4, pteBit pte 3,
                pteBit pte 2, pteBit pte 1, pteBit pte' 11⟩
              let s := s.modCore core fun c =>
                { c with tlb := keepNewest 256 (c.tlb.filter (fun x => !x.has part e.vpn) ++ [e]) }
              let s := if pteBit l.pte 9 && l.level == 1 then { s with free := s.free + 1 } else s
              (.ok pa, s.noteWalk core ws)

/-- A translation covers a page. -/
def TlbEnt.covers (e : TlbEnt) (vpn : Nat) : Bool := decide (e.vpn ≤ vpn) && decide (vpn < e.vpn + e.pages)

/-- Drop the TLB and walk-cache entries that cover the page of an address, or all a core holds (R75, R335). -/
def Core.invalidate (c : Core) (va : Option Word) : Core :=
  match va with
  | none => { c with tlb := [], walk := [] }
  | some a =>
    let v := a.toNat % 2 ^ 48
    { c with
      tlb := c.tlb.filter fun e => !e.covers (v / 4096)
      walk := c.walk.filter fun w => w.tag != v / 2 ^ levelBits w.level }

/-- Drop what a core holds of a partition that ends. -/
def Core.dropPart (c : Core) (part : Nat) : Core :=
  { c with tlb := c.tlb.filter (fun e => e.part != part), walk := c.walk.filter (fun w => w.part != part) }

/-! ### Fetching a line (R147, R211 to R215) -/

def lineOf (pc : Word) : Word := pc &&& 0xFFFFFFFFFFFFFF80#64
def slotOf (pc : Word) : Nat := pc.toNat % 128 / 4

/-- The run of the code store that serves a line: a rank's is its own kernel's (R148); a thread of no kernel has that of a kernel of
its partition whose image lies there (R147, log 99). -/
def State.codeRun (s : State) (t : Thread) (line : Word) : Option CodeRun :=
  let runs := (s.core t.core).codeRuns.filter fun (r : CodeRun) =>
    decide (r.va.toNat ≤ line.toNat) && decide (line.toNat < r.va.toNat + r.len)
  match t.kernel with
  | some k => runs.find? fun r => r.kernel == k
  | none => runs.find? fun r => match s.kernels.look r.kernel with
    | some k => k.part == t.part
    | none => false

/-- The 128 bytes of the line at an address, from the code store or from device memory under R71; a page that must
migrate first is named (R75). -/
def State.fetchLine (s : State) (t : Thread) (line : Word) : Except Byte Nat × Tr × State :=
  if t.firm && decide (line.toNat < Config.codeBytes) then
    (.ok (leNat ((s.core t.core).code.run 0#8 line.toNat 128)), .ok 0, s)
  else match s.codeRun t line with
  | some r => (.ok (leNat ((s.core t.core).code.run 0#8 (r.at' + (line.toNat - r.va.toNat)) 128)), .ok 0, s)
  | none =>
    match s.translate t.core t.part t.user line .fetch with
    | (.fault c, s') => (.error c, .fault c, s')
    | (.touch l e, s') => (.error 0x40#8, .touch l e, s')
    | (.ok pa, s') =>
      -- both halves are read as the line is entered (R78, R81)
      let s := if t.line = some line then s' else (s'.lineRead pa).lineRead (pa + 64)
      if sbPoison (s.dmSb t.core pa) || sbPoison (s.dmSb t.core (pa + 64)) then (.error 0x60#8, .fault 0x60#8, s)
      else (.ok (s.dmNat t.core pa 128), .ok pa, s)

def hdrStart (line : Nat) (slot : Nat) : Bool := decide (2 ≤ slot) && line.testBit (slot - 2)
def hdrTgt (line : Nat) (slot : Nat) : Bool := decide (2 ≤ slot) && line.testBit (30 + (slot - 2))
/-- The first slot from k that starts an instruction. -/
def nextStart (line : Nat) (k : Nat) : Option Nat :=
  (List.range (32 - k)).findSome? fun i => if hdrStart line (k + i) then some (k + i) else none
def slotWord (line : Nat) (slot : Nat) : Nat := line >>> (32 * slot) % 2 ^ 32

/-- R213 on one marked start: its failure, if any. -/
def startCause (line : Nat) (base : Word) (k : Nat) : Option (Byte × Word) :=
  let n := slotWord line k % 4 + 1
  if n = 1 then some (0x00#8, 0#64)
  else if k / 8 ≠ (k + n - 1) / 8 then some (0x08#8, base + BitVec.ofNat 64 (4 * k))
  else if (List.range (n - 1)).any (fun i => hdrStart line (k + 1 + i)) then some (0x03#8, base)
  else none

/-- The slots covered by marked instructions. -/
def covered (line : Nat) (slot : Nat) : Bool :=
  (List.range 4).any fun i =>
    decide (i ≤ slot) && hdrStart line (slot - i) && decide (i < slotWord line (slot - i) % 4 + 1)

/-- R213: the first failure of a line, starts in slot order and then the line as a whole. -/
def lineCause (line : Nat) (base : Word) : Option (Byte × Word) :=
  let starts := (List.range 32).filter (hdrStart line)
  match starts.findSome? (startCause line base) with
  | some r => some r
  | none =>
    let stray := (List.range 30).any fun i => !covered line (i + 2) && slotWord line (i + 2) != 0
    let lone := (List.range 30).any fun i => hdrTgt line (i + 2) && !hdrStart line (i + 2)
    if stray || lone || line / 2 ^ 60 % 16 != 1 || starts.isEmpty then some (0x03#8, base) else none

/-- A line on a far or migrating page, read where it lies: it can be fetched, after the migration (R75). A compressed one
cannot be read before it expands. -/
def State.lineInPlace (s : State) (t : Thread) (line : Word) (pte : Nat) : Option Nat :=
  match s.walk t.core t.part (line.toNat % 2 ^ 48) with
  | (.error _, _) => none
  | (.ok l, _) =>
    let pa := pteAddr pte + line.toNat % 2 ^ levelBits l.level
    if pteBit pte 8 || sbPoison (s.dmSb t.core pa) || sbPoison (s.dmSb t.core (pa + 64)) then none
    else some (s.dmNat t.core pa 128)

/-- The line at an address, if it can be read. -/
def State.peekLine (s : State) (t : Thread) (line : Word) : Option Nat :=
  match s.fetchLine t line with
  | (.ok l, _, _) => some l
  | (.error _, .touch _ pte, _) => s.lineInPlace t line pte
  | (.error _, _, _) => none

/-- The lowest marked start of a line, or the line's own address when it cannot be read (log 15). -/
def State.entryOf (s : State) (t : Thread) (line : Word) : Word :=
  match s.peekLine t line with
  | some l => match nextStart l 2 with
    | some k => line + BitVec.ofNat 64 (4 * k)
    | none => line
  | none => line

/-- R215, R241: the start that sequential flow reaches after the instruction at x. -/
def State.nextPC (s : State) (t : Thread) (x : Word) : Word :=
  match s.peekLine t (lineOf x) with
  | some l => match nextStart l (slotOf x + 1) with
    | some k => lineOf x + BitVec.ofNat 64 (4 * k)
    | none => s.entryOf t (lineOf x + 128#64)
  | none => s.entryOf t (lineOf x + 128#64)

end Sys2Proof.Machine
end

