-- ==== Sys2Proof/Machine/Ops.lean ====
section
/-!
DEFINITION. The named operations over threads: seats and waits (R50 to R58), hardware loops (R61, R245),
ending a thread (R246, R254), posted causes (R204), taking a trap (R205 to R207) and returning (R208), and
the frame every instruction runs in (R201, R202, R219, R236).
-/
namespace Sys2Proof.Machine

/-! ### The monad of an instruction -/

/-- How an instruction stops short of completing. -/
inductive Stop where
  /-- a synchronous trap with the fpflags bits of R24 -/
  | trap (code : Byte) (tv : Word) (fl : BitVec 5)
  /-- it waits and issues again -/
  | wait (w : Wait)
  /-- a proxy access leaves with its operands captured; ld: it counts as a load -/
  | proxy (s : State) (ld : Bool) (w : Wait)
  /-- a roaming thread migrates to the home core and the access runs again there (R43) -/
  | migrate (core : Nat)
  /-- a touch of a page that must move first (R75) -/
  | touch (va : Word) (leaf pte : Nat)
  /-- one of these once its accesses have read lines of the device, which stay read: the machine as the reads left it (R78) -/
  | after (s : State) (st : Stop)

/-- Where control goes when an instruction completes. -/
inductive Ctl where
  | fall
  | jump (t : Word)
  /-- pc and state are already as they must be -/
  | stay
  /-- the instruction waits for an answer with its operands captured -/
  | held
  deriving DecidableEq, Repr

abbrev M (α : Type) := StateT State (Except Stop) α

def trap {α : Type} (code : Byte) (tv : Word) : M α := throw (.trap code tv 0#5)
def waitFor {α : Type} (w : Wait) : M α := throw (.wait w)
def getTh : M Thread := do return (← get).th
def modTh (f : Thread → Thread) : M Unit := modify fun s => s.modTh f
def modCoreM (f : Core → Core) : M Unit := modify fun s => s.modCore s.th.core f

/-! ### Seats, run list and waits (R50 to R58) -/

def seatKey (seat core : Nat) : Nat := seat * 1024 + core
/-- The thread joins the tail of its priority on its core. -/
def State.joinRun (s : State) (id : Word32) : State :=
  let t := s.thr id
  let s := s.setThr id { t with life := .ready, wait := .none, waitTurns := 0, woke := .none }
  let s := s.modCore t.core fun c => { c with run := c.run.filter (· != id) ++ [id] }
  s.postOnce (.threadSeating t.core)

def State.leaveRun (s : State) (id : Word32) : State :=
  let t := s.thr id
  s.modCore t.core fun c => { c with run := c.run.filter (· != id) }

/-- Give up the seat with a save to the thread-context cache (R58). -/
def State.unseat (s : State) (id : Word32) : State :=
  match s.seatOf id with
  | none => s
  | some k =>
    let s := { s with seats := s.seats.ins k ⟨id, false, true⟩ }
    let s := s.modThr id fun t => { t with saving := true, sliceCnt := 0, slicePend := false }
    s.post (.contextSaveDone k) 0 16

/-- Give up the seat with the registers discarded. -/
def State.vacate (s : State) (id : Word32) : State :=
  match s.seatOf id with
  | none => s
  | some k => State.postOnce { s with seats := s.seats.del k } (.threadSeating (s.thr id).core)

/-! ### The thread-context cache (R58) -/

/-- A context enters the thread-context cache of its core; a full cache writes its least recently used entry back to memory
as an image of purpose 0 (R62, log 91). -/
def State.cacheIn (s : State) (core : Nat) (id : Word32) : State :=
  let xs := (s.core core).tcc.filter (· != id) ++ [id]
  let full := decide (Config.cacheSize < xs.length)
  { s.modCore core fun c => { c with tcc := if full then xs.tail else xs } with
    images := match xs with
      | x :: _ => if full then s.images.ins x.toNat ((s.thr x).image 0 core []) else s.images
      | [] => s.images }

/-- A context leaves the cache, and what a write-back left of it in memory is no longer its state. -/
def State.cacheOut (s : State) (id : Word32) : State :=
  { s.modCore (s.thr id).core fun c => { c with tcc := c.tcc.filter (· != id) } with images := s.images.del id.toNat }

/-! ### Kinds of waits (R53, R155, R204) -/

/-- A wait that keeps the seat with bubbles: full bits, queues, mailbox, and the waits on stores. -/
def Wait.seatedKind : Wait → Bool
  | .fullBit _ _ | .qin _ | .qout _ | .mailbox | .release | .fence _ | .bytes _ _ | .saving _ | .entry | .leaving | .port _ => true
  | .counters m _ => m &&& 12#4 == 0#4
  | .none | .event _ | .landing _ _ | .filled _ _ | .booking _ _ _ | .barrier _ _ _ _ | .arrival _
  | .withdrawal _ _ _ | .access | .anchor | .answer | .hostAccess _ _ | .page _ | .frame | .batfree _ | .qput _ | .halt => false

/-- The waits that move to waiting-unseated after four turns (R53, R190, R257). -/
def Wait.timesOut : Wait → Bool
  | .fullBit _ _ | .qin _ | .qout _ | .mailbox => true
  | .none | .counters _ _ | .release | .fence _ | .event _ | .landing _ _ | .filled _ _ | .booking _ _ _
  | .barrier _ _ _ _ | .arrival _ | .withdrawal _ _ _ | .access | .anchor | .answer | .hostAccess _ _ | .page _ | .frame
  | .batfree _ | .qput _ | .halt | .bytes _ _ | .saving _ | .entry | .leaving | .port _ => false

/-- The waits a posted cause ends (R204, R248, R294, R337). -/
def Wait.interruptible : Wait → Bool
  | .fullBit _ _ | .qin _ | .qout _ | .mailbox | .counters _ _ | .event _ | .landing _ _ | .filled _ _
  | .booking _ _ _ | .barrier _ _ _ _ | .release | .halt => true
  | .none | .arrival _ | .withdrawal _ _ _ | .fence _ | .access | .anchor | .answer | .hostAccess _ _ | .page _
  | .frame | .batfree _ | .qput _ | .bytes _ _ | .saving _ | .entry | .leaving | .port _ => false

/-- A posted cause ends the wait the thread is in: not one whose answer has come and lacks a credit only. -/
def Thread.interruptible (t : Thread) : Bool := t.wait.interruptible && t.late.isNone

/-- The wait-table kind of a wait (R155). -/
def Wait.kind : Wait → Nat
  | .none => 0
  | .fullBit _ _ => 1
  | .counters _ _ | .event _ | .landing _ _ | .filled _ _ | .halt => 2
  | .access | .anchor | .answer | .hostAccess _ _ | .batfree _ | .qput _ | .release | .fence _ | .bytes _ _ | .saving _ | .entry
  | .leaving | .port _ => 3
  | .booking _ _ _ => 4
  | .barrier _ _ _ _ | .arrival _ | .withdrawal _ _ _ => 5
  | .mailbox | .qin _ | .qout _ => 6
  | .page _ => 7
  | .frame => 8

/-- The waiting instruction is abandoned: with its dual prefix, which is where it starts again (R129, R204). -/
def Thread.abandon (t : Thread) : Thread :=
  { t with pc := t.restart, pcMode := if t.dualPfx.isNone then t.pcMode else .start, dualPfx := none }

/-- A wait ends: the instruction issues again. -/
def State.wake (s : State) (id : Word32) : State :=
  let s := s.modThr id fun t => { t with reissue := t.wait != .none, bound := t.wait != .none && !t.interruptible }
  let t := s.thr id
  match t.life with
  | .waitSeated => s.setThr id { t with life := .seated, wait := .none, woke := t.wait }
  | .waitUnseated => s.joinRun id
  | .ready | .seated | .migrating | .exited | .swappedOut => s

/-- The waiting instruction is abandoned and the thread goes on with what comes next (R204). -/
def State.abandonWait (s : State) (id : Word32) : State :=
  ((s.modThr id Thread.abandon).wake id).modThr id fun t => { t with reissue := false, bound := false, woke := .none }

/-- A thread begins to wait, seated or not, or goes on with a wait that its reissue did not end: after four turns it gives up its
seat (R53). The wait for a credit begins with itself, whatever the thread waited for before (R191). A cause already posted ends
a wait that a posted cause ends (R204). -/
def State.startWait (s : State) (id : Word32) (w : Wait) : State :=
  let t := s.thr id
  let again := t.woke == w
  let turns := if t.wait == w then t.waitTurns else if again then t.waitTurns + 1 else 0
  let credit := match w with | .qout _ => true | _ => false
  let since := if !again && (t.wait == .none || (credit && t.wait != w)) then s.now else t.waitSince
  let t := { t with wait := w, waitSince := since, saveFor := match w with | .saving x => some x | _ => t.saveFor }
  let s :=
    if t.life == .waitUnseated || !w.seatedKind || (w.timesOut && decide (4 ≤ turns)) then
      (s.setThr id { t with life := .waitUnseated, waitTurns := 0 }).unseat id
    else s.setThr id { t with life := .waitSeated, waitTurns := turns }
  let held := match w with
    | .barrier _ _ true _ | .halt => true
    | _ => false
  if t.ie && !t.posted.isEmpty && t.interruptible && !held then s.abandonWait id else s

def Thread.waiting (t : Thread) : Bool := t.life == .waitSeated || t.life == .waitUnseated

/-- A message about a wait is on its way: the wait is looked at again. -/
def State.poke (s : State) (id : Word32) : State := s.postOnce (.waitEvent id)

/-- Look again at every thread whose wait satisfies a test. -/
def State.pokeAll (s : State) (p : Thread → Bool) : State :=
  (s.threads.filter fun e => p e.2).foldl (fun s e => s.poke e.2.thid) s

/-- A full bit changed: threads of the core that wait on it are looked at again (R59, R60). -/
def State.pokeFull (s : State) (core : Nat) (spec : BitVec 8) : State :=
  (s.threads.filter fun e => e.2.core == core &&
      (match e.2.wait with | .fullBit x _ => x == spec | _ => false)).foldl
    (fun s e => s.postOnce (.fullBitChange e.2.thid)) s

/-- A torus packet of a thread's group moves (R156). -/
def State.traffic (s : State) (id : Word32) : State :=
  match (s.thr id).kernel with
  | none => s
  | some k => match s.kernels.look k with
    | none => s
    | some x => { s with kernels := s.kernels.ins k { x with lastTraffic := s.now, lastTick := s.tick.toNat, idle := 0, hung := false } }

/-- The stores of a thread not yet performed at their home ports (R294). -/
def State.pendOf (s : State) (id : Word32) : List PendStore :=
  (s.core (s.thr id).core).pend.filter fun p => p.thid == id
/-- Its stores to the host window not yet performed (R195). -/
def State.hostPendOf (s : State) (id : Word32) : Nat := (s.hostPend.filter fun e => e.2.thid == id && e.2.value.isNone).length

/-! ### Barriers (R178, R182) -/

/-- The cores the release of a barrier goes to: those that hold a member or a waiting thread. -/
def State.releaseCores (s : State) (key : Nat) (b : Barrier) : List Nat :=
  ((b.members.map fun e => (s.thr e.2).core) ++
    ((s.threads.filter fun e => e.2.part == key / 16 &&
        (match e.2.wait with | .barrier q _ _ _ => q.toNat == key % 16 | _ => false)).map fun e => e.2.core)).eraseDups

/-- The barrier completes: the generation advances and its release is to reach these cores. -/
def Barrier.complete (b : Barrier) (cores : List Nat) : Barrier := { b with gen := b.gen + 1#32, arrived := [], releasing := cores }

/-- A barrier completes, and the release leaves. -/
def State.completeBarrier (s : State) (key : Nat) (b : Barrier) : State :=
  let cores := s.releaseCores key b
  let s := { s with barriers := s.barriers.ins key (b.complete cores) }
  cores.foldl (fun s c => s.post (.barrierRelease (key / 16) (BitVec.ofNat 4 (key % 16)) c)) s

/-- A thread leaves both masks of a barrier; the flag says whether that completes it. -/
def Barrier.drop (b : Barrier) (id : Word32) : Barrier × Bool :=
  let ms : Tbl Word32 := b.members.filter fun m => m.2 != id
  let b' := { b with members := ms, arrived := b.arrived.filter fun r => (ms.look r).isSome }
  (b', b.members.any (fun m => m.2 == id) && !ms.isEmpty && ms.all (fun m => b'.arrived.contains m.1))

/-- BARRIER_MEMBER_DROP (R182): an ending member leaves both masks, which may complete the barrier; also those of a tenant
that is out, whose release is sent when it comes in. -/
def State.dropMember (s : State) (id : Word32) : State :=
  let out (e : Nat × Barrier) : Nat × Barrier := match e.2.drop id with
    | (b, true) => (e.1, b.complete (s.releaseCores e.1 b))
    | (b, false) => (e.1, b)
  let s := { s with parts := s.parts.map fun (e : Nat × Part) =>
    (e.1, { e.2 with out := e.2.out.map fun (t : Tenant) => { t with barriers := t.barriers.map out } }) }
  s.barriers.foldl (fun s e => match e.2.drop id with
    | (b, true) => s.completeBarrier e.1 b
    | (b, false) => { s with barriers := s.barriers.ins e.1 b }) s

/-! ### Bookings, copies and hires of an ending thread (R85, R112, R123) -/

/-- Generations are never 0 (R84). -/
def nextGen (g : BitVec 16) : BitVec 16 := if g + 1#16 = 0#16 then 1#16 else g + 1#16

def State.books (s : State) (ridge : Nat) : Tbl Booking := if ridge = 0 then s.books0 else s.books1
def State.setBook (s : State) (ridge idx : Nat) (b : Booking) : State :=
  if ridge = 0 then { s with books0 := s.books0.ins idx b } else { s with books1 := s.books1.ins idx b }
def State.delBook (s : State) (ridge idx : Nat) : State :=
  if ridge = 0 then { s with books0 := s.books0.del idx } else { s with books1 := s.books1.del idx }

def Booking.live (b : Booking) : Bool := b.state == .pending || b.state == .committed || b.state == .started
def Booking.handle (b : Booking) (ridge idx : Nat) : Word :=
  b.gen ++ (BitVec.ofNat 16 (ridge * 2 ^ 15 + idx % 4096)) ++ b.thid

/-- The booking a handle names, and whether the handle is live there (R316). -/
def State.bookOf (s : State) (h : Word) : Option (Nat × Nat × Booking) :=
  let ridge := if h.getLsbD 47 then 1 else 0
  let idx := h.toNat / 2 ^ 32 % 4096
  match (s.books ridge).look idx with
  | some b => if b.handle ridge idx == h then some (ridge, idx, b) else none
  | none => none

/-- The booking a handle names for the issuing thread: one of its own ridge die (R316). -/
def State.bookHere (s : State) (h : Word) : Option (Nat × Nat × Booking) :=
  match s.bookOf h with
  | some (r, i, b) => if r = ridgeOf s.th.core then some (r, i, b) else none
  | none => none

/-- Ask the hall to look again at the hires that run under a booking or name a batten: a mismatch ends each
at its next line (R113). -/
def State.pokeHires (s : State) (p : Hire → Bool) : State :=
  (s.hires.filter fun e => p e.2 && (e.2.state == .placed || e.2.state == .running || e.2.state == .landing ||
      e.2.state == .checked || e.2.state == .issued)).foldl (fun s e => s.postOnce (.landingLine e.1)) s

/-- Cancel a booking: its ticks are freed. advance: unbook, exit or kill, where the generation advances (R123, R316). -/
def State.cancelBook (s : State) (ridge idx : Nat) (b : Booking) (advance : Bool := true) : State :=
  let h := b.handle ridge idx
  let s := s.setBook ridge idx { b with state := .cancelled, gen := if advance then nextGen b.gen else b.gen, ivals := [], dst := none }
  -- an answer of book still owed reaches its thread, which is ending
  let s := match b.dst with
    | some d => s.post (.statusAnswer b.thid d 0#64) 0 16
    | none => s
  let s := s.pokeHires fun x => match x.booked with | some (k, _) => k == h | none => false
  let s := (s.copies.filter fun e => match e.2.booked with | some (k, _) => k == h | none => false).foldl
    (fun s e => s.postOnce (.tracerLine e.2.core)) s
  s.pokeAll fun t => match t.wait with | .booking k _ _ => k == h | _ => false

/-- Cancel the bookings of an ending thread; a free-standing hire's placement is not one of them. -/
def State.cancelBooks (s : State) (id : Word32) : State :=
  [0, 1].foldl (fun s r => ((s.books r).filter fun e => e.2.thid == id && e.2.hire.isNone &&
      (e.2.live || e.2.state == .saved)).foldl (fun s e => s.cancelBook r e.1 e.2) s) s

def CopyOp.live (o : CopyOp) : Bool := o.state == .queued || o.state == .running

/-- A kill advances the generations of the thread's copy handles, which revokes its copies (R85), and frees its placed
free-standing hires (R112). -/
def State.revokeAll (s : State) (id : Word32) : State :=
  let s := (s.copies.filter fun e => e.2.thid == id && e.2.live).foldl (fun s e => s.postOnce (.tracerLine e.2.core)) s
  let s := s.modThr id fun t => { t with copyGen := t.copyGen.map fun e => (e.1, nextGen e.2) }
  (s.hires.filter fun e => e.2.thid == id && e.2.booked.isNone && e.2.state == .placed).foldl (fun s e =>
    State.postOnce { s with hires := s.hires.ins e.1 { e.2 with doomed := true } } (.landingLine e.1)) s

/-- All four outstanding counters read zero (R53). -/
def Thread.idle (t : Thread) : Bool := t.outLd == 0 && t.outSt == 0 && t.outCp == 0 && t.outHr == 0

/-- An exited thread is freed once its counters read zero. -/
def State.tryFree (s : State) (id : Word32) : State :=
  let t := s.thr id
  if t.life == .exited && t.idle && (s.threads.look id.toNat).isSome then s.postOnce (.threadFreed id) else s

/-- The task of an ending thread is done (R140); a task is named by its home core and the offset of its
record. -/
def State.taskDone (s : State) (t : Thread) : State :=
  match t.task with
  | none => s
  | some x =>
    let o := x.toNat % 2 ^ 32
    s.modCore (x.toNat / 2 ^ 32) fun c =>
      let d := c.spNat o 8
      if d / 2 ^ 56 % 16 = 3 then c.spWrite o (leBytes 8 (d + 2 ^ 56)) else c

/-- Put back what an access in flight had taken, the last first (R223): full bits are set again, entries it had only
observed stay. -/
def State.untake (s : State) (id : Word32) : State :=
  let t := s.thr id
  let s := t.taken.reverse.foldl (fun s e =>
    let n := e.spec.toNat
    if n < 0x80 then s.modThr id fun t => t.setFull n true
    else if n = 0x81 then s.modCore t.core fun c =>
      let q := c.queue e.dir
      c.setQueue e.dir { q with items := e.x :: q.items, claimed := q.claimed - 1 }
    else if n = 0x83 then s
    else s.modCore t.core fun c => c.setSreg (n - 0x90) { c.sreg (n - 0x90) with full := true }) s
  s.modThr id fun t => { t with taken := [], vals := [], planes := [] }

/-- The thread moves to exited (R53, R246); killed: as a kill does (R254). -/
def State.endThread (s : State) (id : Word32) (killed : Bool) : State :=
  let s := s.taskDone (s.thr id)
  let s := if (s.thr id).wait == .none then s else s.untake id
  let s := ((s.leaveRun id).vacate id).cacheOut id
  let s := s.modThr id fun t => { t with life := .exited, wait := .none, posted := [], atPort := false,
                                          outLd := 0, saving := false, saveFor := none, late := none, killers := [] }
  let s := s.cancelBooks id
  let s := if killed then s.revokeAll id else s
  (s.dropMember id).tryFree id

/-! ### Posted causes (R204) -/

/-- Post an asynchronous cause; a fifth is dropped. A wait it ends is abandoned, and a bar.aw first asks
the hall to withdraw its arrival (R313). -/
def State.postCause (s : State) (id : Word32) (code : Byte) (tv : Word) : State :=
  match s.threads.look id.toNat with
  | none => s
  | some t =>
    if t.life == .exited then s
    else
      let t := if t.posted.length < 4 then { t with posted := t.posted ++ [⟨code, tv⟩] } else { t with lost := true }
      let s := s.setThr id t
      -- a swapped-out thread has it posted again when it is restored (R204)
      if !t.ie || t.life == .swappedOut then s
      else match t.wait with
        | .barrier k g true d =>
          (s.startWait id (.withdrawal k g d)).post (.barrierWithdrawal id k)
        | w => if w == .halt then s.poke id else if t.interruptible then s.abandonWait id else s

/-- The lowest live rank of a kernel other than a given thread. -/
def State.lowestRank (s : State) (k : Nat) (but : Option Word32) : Option Word32 :=
  match s.kernels.look k with
  | none => none
  | some x => (x.ranks.find? fun e => some e.2 != but && s.live e.2).map (·.2)

/-! ### Taking a trap (R205 to R207) -/

def Thread.suspendLoops (t : Thread) : Thread := { t with loops := t.loops.map fun l => { l with sus := true } }

/-- The registers an entry saves and sets, for a cause with its epc (R49, R205). -/
def Thread.enter (t : Thread) (code : Byte) (tv : Word) (async : Bool) (epc : Word) : Thread :=
  let st := setBits t.status 10 2 t.mode.toNat
  let st := setBits st 9 1 (if t.ie then 1 else 0)
  let st := setBits st 2 1 0
  let st := setBits st 0 2 1
  { t.suspendLoops with
    epc := epcKept epc
    cAsync := async
    cLost := t.lost
    lost := false
    cCode := code
    tval := tv
    status := st
    pc := (t.tvec &&& 0xFFFFFFFFFFFFFF80#64) + BitVec.ofNat 64 (128 * (code.toNat / 32))
    pcMode := .line
    line := none
    dualPfx := none
    vals := []
    taken := []
    atAnchor := false
    reissue := false
    bound := false
    woke := .none
    planes := []
    saveFor := none }

/-- A synchronous cause while ie = 0 ends the thread (R206): a fault dump, then a kill. -/
def State.doubleTrap (s : State) (id : Word32) (code : Byte) (_tv : Word) : State :=
  let t := { s.thr id with cCode := code, cAsync := false }
  let s := { s with dumps := s.dumps.ins t.core (t.image 5 t.core []) }
  let s := s.setThr id t
  let s := s.endThread id true
  let s := match t.kernel with
    | none => s
    | some k => match s.lowestRank k (some id) with
      | some r => s.postCause r 0xE3#8 (id.zeroExtend 64)
      | none => s
  s.count lgDouble

/-- The address of the next instruction the thread would issue (R204). -/
def State.pcOf (s : State) (t : Thread) : Word :=
  if t.pcMode == .line then s.entryOf t (lineOf t.pc) else t.pc

/-- The address of the trapping instruction or of its prefix (R201): on a line entered as a line, the start at which the
thread was to issue (R215). -/
def State.trapPC (s : State) (t : Thread) : Word := if t.dualPfx.isSome then t.restart else s.pcOf t

/-- Away from its creating core a roaming thread waits until cause, tval and epc have been written at its anchor (R45). -/
def State.entryTrip (s : State) (id : Word32) : State :=
  let t := s.thr id
  if t.roaming && t.core != homeOf id && !t.atPort then
    ((s.startWait id .entry).traffic id).post (.homePortAccess id 0) (chanPort t.core (homeOf id)) 16
  else s

/-- TakeTrap of R205 for a synchronous cause, with the fpflags bits of R24. -/
def State.takeTrap (s : State) (id : Word32) (code : Byte) (tv : Word) (fl : BitVec 5) : State :=
  let t := { s.thr id with fpflags := (s.thr id).fpflags ||| fl }
  let s := s.setThr id t
  if !t.ie then s.doubleTrap id code tv
  else (s.setThr id (t.enter code tv false (s.trapPC t))).entryTrip id

/-- TakeTrap of R205 for a posted cause. -/
def State.takeAsync (s : State) (id : Word32) (code : Byte) (tv : Word) : State :=
  let t := s.thr id
  (s.setThr id (t.enter code tv true (s.pcOf t))).entryTrip id

/-- R208: mode and ie come back, the handler's loops are discarded and the suspended ones resume. -/
def Thread.leave (t : Thread) : Thread :=
  let st := setBits t.status 0 2 (t.status.extractLsb' 10 2).toNat
  let st := setBits st 2 1 (if t.status.getLsbD 9 then 1 else 0)
  { t with status := st
           loops := (t.loops.filter (·.sus)).map fun l => { l with sus := false }
           line := none }

/-! ### Completing an instruction (R215, R241, R245) -/

/-- R245 on the loops innermost first: the loops left and where control goes. -/
def stepLoops (x : Word) (npc : Word) : List LoopLvl → List LoopLvl × Word
  | [] => ([], npc)
  | l :: r =>
    if l.sus || x != l.stop then (l :: r, npc)
    else if 1 < l.count.toNat then ({ l with count := l.count - 1#64 } :: r, l.start)
    else stepLoops x npc r

/-- R241: the loops that a transfer to t leaves open, innermost first. -/
def leaveLoops (t : Word) : List LoopLvl → List LoopLvl
  | [] => []
  | l :: r =>
    if l.sus then l :: r
    else if t.toNat < l.start.toNat ∨ l.stop.toNat < t.toNat then leaveLoops t r
    else l :: r

/-- The instruction at x is the last of an active body (R61). -/
def Thread.isTail (t : Thread) (x : Word) : Bool := t.loops.any fun l => !l.sus && l.stop == x

/-- The instruction at x completed without transferring control. -/
def State.passed (s : State) (id : Word32) (x : Word) : State :=
  let t := s.thr id
  let npc := s.nextPC t x
  let (ls, pc) := stepLoops x npc t.loops.reverse
  s.setThr id { t with pc := pc, loops := ls.reverse,
                       pcMode := if pc == npc && lineOf npc != lineOf x then .line else .start }

/-- The direction with a code of qlink. -/
def dirOf (n : Nat) : Dir :=
  match n with
  | 1 => .east | 2 => .west | 3 => .south | _ => .north

/-- What an instruction took is gone: credits go back for the qin entries (R190); an access in flight takes now the entries
it observed when it left (R223). -/
def State.payCredits (s : State) (t : Thread) : State :=
  t.taken.foldl (fun s e =>
    if e.spec = 0x81#8 then
      let s := if t.atPort && e.claimed then s.modCore t.core fun c =>
          let q := c.queue e.dir
          (c.setQueue e.dir { q with claimed := q.claimed - 1 }).settle e.dir
        else s
      (s.traffic s.cur).post (.creditReturn t.core (dirOf e.dir)) (chanQueue t.core e.dir) 16
    else if e.spec = 0x83#8 && t.atPort && e.claimed then s.modTh fun t => { t with mailbox := t.mailbox.tail }
    else s) s

/-- The instruction in hand has completed. -/
def State.finish (s : State) (c : Ctl) : State :=
  if c = .held then s else
  let t := s.th
  let s := s.payCredits t
  let s := s.setTh { s.th with dualPfx := none, vals := [], taken := [], planes := [], atAnchor := false, reissue := false,
                               bound := false, saveFor := none, woke := .none }
  match c with
  | .fall => s.passed s.cur t.pc
  | .jump a => s.setTh { s.th with pc := a, pcMode := .target, loops := (leaveLoops a t.loops.reverse).reverse,
                                   line := if lineOf a == lineOf t.pc then t.line else none }
  | .stay | .held => s

/-! ### Migration of pages and threads (R43, R75) -/

/-- The page operation on a leaf entry, if one is in progress. -/
def State.pageOf (s : State) (leaf : Nat) : Option (Nat × PageOp) := s.pages.find? fun e => e.2.leaf == leaf

/-- The walker marks a leaf as migrating, by compare-and-swap at its home port (R75). -/
def State.setMoving (s : State) (leaf : Nat) : State := (s.dmWrite leaf [s.mem.lookD leaf 0#8 ||| 128#8]).activate leaf

/-- A touch starts a migration or joins the one in progress (R75 steps 1 and 2). asker: pgmig's answer.
A frame is taken when the pool holds one; otherwise the gable column is signalled and the toucher waits for a frame. In a larger
near leaf that is marked migrating or compressed one frame moves, and the leaf names it (log 136). -/
def State.touchPage (s : State) (core part : Nat) (va : Word) (leaf pte : Nat) : Nat × State :=
  match s.pageOf leaf with
  | some (op, _) => (op, s)
  | none =>
    let op := s.nextOp
    let s := { s with nextOp := op + 1 }
    let s := s.setMoving leaf
    let (frame, s) := match (s.core core).frames with
      | [] => (none, s)
      | f :: fs => (some f, s.modCore core fun c => { c with frames := fs })
    let x : PageOp := ⟨part, va, leaf, core, false, pteAddr pte / 4096, frame, [], [], false, []⟩
    let s := { s with pages := s.pages.ins op x
                      starved := if frame.isNone && !s.starved.contains core then s.starved ++ [core] else s.starved }
    (op, if frame.isSome then s.post (.migrationComplete op) (chanCopy op) 64 else s)

/-- A page's physical range meets a stencil entry in a way that traps the access (R76, R89). -/
def State.farConflict (s : State) (pa n : Nat) (write : Bool) : Option Byte :=
  s.cores.findSome? fun e => stencilCause e.2.stencil pa n write

/-- The thread leaves for another core, and its place comes free (R43, R53, R54). -/
def State.migrateTo (s : State) (id : Word32) (core : Nat) : State :=
  let t := s.thr id
  let s := (s.vacate id).cacheOut id
  let s := s.setThr id { t with life := .migrating, wait := .none, line := none }
  ((s.traffic id).post (.migrationArrival id core) (chanMigr t.core core) 32).postOnce (.threadFreed id)

/-- The access of a thread at its home port is over: the answer travels back (R293). -/
def State.answerAccess (s : State) (id : Word32) : State :=
  let t := s.thr id
  if t.life == .exited then s
  else
    let s := s.setThr id { t with atPort := false, outLd := 0, wait := .answer, life := .waitUnseated }
    s.post (.accessAnswer id) 0 16

/-- An access leaves with its operands captured: the entries of qin and mbx it read stay in place, and are its own, until it
completes (R223). s': the machine with the operands read. -/
def State.claim (s s' : State) : State :=
  let t := s.th
  let c0 := s.core t.core
  let s := s'.modCore t.core fun c => { s'.th.taken.foldl (fun (c : Core) e => if e.spec = 0x81#8 then
      let q := c.queue e.dir
      c.setQueue e.dir { q with lent := (c0.queue e.dir).lent, claimed := q.claimed + 1 } else c) c with reserve := c0.reserve }
  s.modTh fun u => { u with mailbox := t.mailbox, taken := u.taken.map fun e => { e with claimed := true } }

/-- The planes of an access leave for their home ports, in plane order (R133). -/
def State.sendPlanes (s : State) (core : Nat) (id : Word32) (ps : List PlaneAcc) (delay : Nat) : State :=
  (List.range ps.length).foldl (fun s i => match ps[i]? with
    | some p => s.post (.homePortAccess id i) (chanPort core (homeCore p.pa)) delay
    | none => s) s

/-- A line in which a read met an error, as that read left it. -/
def State.lineAs (s s' : State) (l : Nat) : State :=
  (s.dmWrite (64 * l) (s'.mem.run 0#8 (64 * l) 64)).setSb (64 * l) (s'.sbWord (64 * l))

/-- What the reads of an instruction that stops have done at their controllers stays: the errors they met, and the rows they
activated (R78, R81). s': the machine in which it stopped. -/
def State.keepReads (s s' : State) : State :=
  let met := s.errs.filter fun e => (s'.errs.look e.1).isNone
  let s := met.foldl (fun (x : State) (e : Nat × Nat) => x.lineAs s' e.1) s
  let s := s'.cores.foldl (fun (x : State) e =>
    if e.2.rows = (s.core e.1).rows then x else x.modCore e.1 fun c => { c with rows := e.2.rows }) s
  let throttles := s'.agenda.filter fun p => match p.ev with
    | .rowThrottle _ _ => !s.agenda.contains p
    | _ => false
  { s with errs := s'.errs, lifelog := s'.lifelog, free := s'.free, agenda := s.agenda ++ throttles }

/-- What a stop of the issuing instruction does to the machine. -/
def State.stopped (s : State) (st : Stop) : State :=
  let id := s.cur
  let t := s.th
  match st with
  | .trap code tv fl =>
    if t.atPort then ((s.untake id).takeTrap id code tv fl).answerAccess id
    else s.takeTrap id code tv fl
  | .wait w =>
    let s := if t.atPort then (s.untake id).modThr id fun t => { t with atPort := false, outLd := 0 } else s
    let s := s.startWait id w
    match w with
    | .anchor => (s.traffic id).post (.homePortAccess id 0) (chanPort t.core (homeOf id)) 16
    | .qout _ => s.postOnce (.probeTokenSend t.core) 256
    | _ => s
  | .proxy s' ld w =>
    let s := (s.claim s').modTh fun t => { t with outLd := if ld then 1 else 0 }
    let ps := s.th.planes
    let s := (s.startWait id w).traffic id
    if ps.isEmpty then s.post (.homePortAccess id 0) 0 16 else s.sendPlanes t.core id ps 16
  | .migrate c =>
    if !t.loops.isEmpty then s.takeTrap id 0xA8#8 0#64 0#5
    else if t.outLd == 0 && t.outSt == 0 then s.migrateTo id c
    else s.startWait id .leaving
  | .touch va leaf pte =>
    let s := if t.atPort then (s.untake id).modThr id fun t => { t with atPort := false, outLd := 0 } else s
    let (op, s) := s.touchPage t.core t.part va leaf pte
    let s := match s.pages.look op with
      | some x => { s with pages := s.pages.ins op { x with waiters := x.waiters ++ [id] } }
      | none => s
    s.startWait id (match s.pages.look op with
      | some x => if x.frame.isSome then .page op else .frame
      | none => .page op)
  | .after s' st => (s.keepReads s').stopped st

/-! ### The frame of an instruction -/

/-- The guard lets the instruction execute (R219). -/
def Thread.passes (t : Thread) (h : Head) : Bool := t.p h.guard.toNat != h.gneg

/-- Run an instruction of the issuing thread: privilege (cause 0x07, tval the opcode), the decode checks
that depend on the thread, the guard, and then the instruction itself (R202, R219). -/
def runI (h : Head) (priv : Option Nat) (pre : M Unit) (body : M Ctl) (s : State) :
    Host.Outcome State Fault Refusal :=
  let t := s.th
  let go : Host.Outcome State Fault Refusal :=
    match pre s with
    | .error st => .next (s.stopped st)
    | .ok _ =>
      if !t.passes h then .next (s.finish .fall)
      else match body s with
        | .error st => .next (s.stopped st)
        | .ok (c, s') =>
          let s'' := State.finish (if c = .held then s.claim s' else s') c
          if t.atPort then .next (s''.answerAccess s.cur) else .next s''
  match priv with
  | some op => if t.user then .next (s.stopped (.trap 0x07#8 (BitVec.ofNat 64 op) 0#5)) else go
  | none => go

/-- An instruction legal in every mode with no check of its own at decode. -/
def runU (h : Head) (body : M Ctl) (s : State) : Host.Outcome State Fault Refusal :=
  runI h none (pure ()) body s

/-- An event changes the state of the module and nothing stops it. -/
def event (f : State → State) (s : State) : Host.Outcome State Fault Refusal := .next (f s)

end Sys2Proof.Machine
end

