-- ==== Sys2Proof/Machine/Operands.lean ====
section
/-!
DEFINITION. Operand fields: the class-1 checks (R220 to R222, R190), reading and writing by kind (R59, R60,
R223), masks (R279) and the tangents an operand carries (R128 to R131).
-/
namespace Sys2Proof.Machine

/-! ### Torus neighbours (R7, R189) -/

/-- The core next to c in a direction code of qlink: 1 east, 2 west, 3 south, 4 north. -/
def neighbour (c dir : Nat) : Nat :=
  let x := c % 32
  let y := c / 32
  match dir with
  | 1 => 32 * y + (x + 1) % 32
  | 2 => 32 * y + (x + 31) % 32
  | 3 => 32 * ((y + 1) % 32) + x
  | 4 => 32 * ((y + 31) % 32) + x
  | _ => c
/-- The opposite direction code. -/
def opposite (dir : Nat) : Nat :=
  match dir with
  | 1 => 2 | 2 => 1 | 3 => 4 | 4 => 3 | _ => 0
def dirCode : Dir → Nat
  | .east => 1 | .west => 2 | .south => 3 | .north => 4

def Thread.up (t : Thread) : Nat := t.qlink.toNat / 16 % 8
def Thread.down (t : Thread) : Nat := t.qlink.toNat % 8
/-- R190: an unset link or a fused-off neighbour. -/
def State.linkBad (s : State) (t : Thread) (dir : Nat) : Bool :=
  dir == 0 || decide (4 < dir) || s.fused.contains (neighbour t.core dir)

/-! ### Class-1 checks (R220 to R222) -/

/-- The kind of an operand field (R221). -/
inductive FK where
  /-- scalar, read -/
  | rs
  /-- scalar, written -/
  | ws
  | vec | pred | ctr | buf
  /-- the shared register of swap (R260) -/
  | swp
  /-- a register with tangents, for tanr and tanw (R333) -/
  | gOnly
  deriving DecidableEq, Repr

def isG (spec : BitVec 8) : Bool := decide (spec.toNat < 0x80)
def isShared (spec : BitVec 8) : Bool := decide (0x90 ≤ spec.toNat) && decide (spec.toNat ≤ 0xCF)
def specReserved (spec : BitVec 8) : Bool :=
  (decide (0x85 ≤ spec.toNat) && decide (spec.toNat ≤ 0x8F)) || decide (0xD0 ≤ spec.toNat)

/-- The cause of a field, tests in the order of R221. -/
def State.fieldCause (s : State) (t : Thread) (k : FK) (f : Fld) : Option Byte :=
  let n := f.spec.toNat
  let syncBad := f.sync && !(isG f.spec || isShared f.spec)
  match k with
  | .rs =>
    if specReserved f.spec then some 0x22#8
    else if n == 0x82 || syncBad then some 0x23#8
    else if isG f.spec && decide (t.W ≤ n) then some 0x20#8
    else if n == 0x81 && s.linkBad t t.up then some 0x25#8
    else none
  | .ws =>
    if specReserved f.spec then some 0x22#8
    else if n == 0x81 || n == 0x83 || n == 0x84 || syncBad then some 0x23#8
    else if isG f.spec && decide (t.W ≤ n) then some 0x20#8
    else if n == 0x82 && s.linkBad t t.down then some 0x25#8
    else none
  | .vec =>
    if decide (0x20 ≤ n) || f.sync then some 0x23#8
    else if decide (t.V ≤ n) then some 0x21#8
    else none
  | .pred => if decide (0x10 ≤ n) || f.sync then some 0x23#8 else none
  | .ctr => if decide (0x08 ≤ n) || f.sync then some 0x23#8 else none
  | .buf => if decide (0x10 ≤ n) || f.sync then some 0x23#8 else none
  | .swp => if !isShared f.spec || f.sync then some 0x23#8 else none
  | .gOnly =>
    if !isG f.spec then some 0x23#8
    else if decide (t.W ≤ n) then some 0x20#8
    else none

/-- Step 3 of R202: the fields in the order given (d, a, b, c); the first failure traps. -/
def check1 : List (FK × Fld) → M Unit
  | [] => pure ()
  | (k, f) :: r => do
    let s ← get
    match s.fieldCause s.th k f with
    | some c => trap c (f.spec.zeroExtend 64)
    | none => check1 r

/-! ### Reading (R59, R60, R223) -/

/-- Note a full bit cleared or an entry taken. -/
def take (spec : BitVec 8) (dir : Nat) (x : Word) : M Unit := modTh fun t => { t with taken := t.taken ++ [⟨spec, dir, x, false⟩] }

/-- A value, or one of those it replaced that may still be read (R60). -/
def recentOr (x : Word) (xs : List Word) : M Word := do
  let s ← get
  if xs.isEmpty then pure x
  else
    let (i, s) := s.draw
    set s
    pure ((x :: xs).getD (Config.sharedPick i % (xs.length + 1)) x)

/-- A plain read of a shared register within 15 cycles of a write may return a value that write replaced (R60). -/
def plainShared (x : Shared) : M Word := do
  let s ← get
  recentOr x.value (x.stale s.now)

/-- Anchored state of a roaming thread away from its creating core is reached by proxy before the instruction
goes on (R45). -/
def anchor : M Unit := do
  let s ← get
  let t := s.th
  if t.roaming && t.core ≠ homeOf s.cur && !t.atAnchor then waitFor .anchor else pure ()

/-- A vector register, or the register that a scalar specifier names, holds an uncorrectable soft error. -/
def State.regBad (s : State) (vec : Bool) (f : BitVec 8) : Bool :=
  s.th.regErr.contains (vec, f) || (!vec && (s.core s.th.core).sregErr.contains f)

/-- A register with an uncorrectable soft error raises 0x62 when it is read (R210). -/
def regCheck (vec : Bool) (f : BitVec 8) : M Unit := do
  if (← get).regBad vec f then trap 0x62#8 (f.zeroExtend 64) else pure ()

/-- ReadOp of a scalar field that has passed the class-1 checks. -/
def readS (f : Fld) : M Word := do
  regCheck false f.spec
  let s ← get
  let t := s.th
  let n := f.spec.toNat
  if n < 0x80 then
    if !t.gFull n then waitFor (.fullBit f.spec true)
    else do
      if f.sync then
        modTh fun t => t.setFull n false
        take f.spec 0 (t.gR n)
      pure (t.gR n)
  else if n = 0x80 then pure 0#64
  else if n = 0x81 then
    let q := (s.core t.core).queue t.up
    match q.items with
    | [] => waitFor (.qin (BitVec.ofNat 3 t.up))
    | x :: r => do
      modCoreM fun c => (c.setQueue t.up { q with items := r }).settle t.up
      take f.spec t.up x
      pure x
  else if n = 0x83 then do
    anchor
    match t.mailbox with
    | [] => waitFor .mailbox
    | x :: r => do
      modTh fun t => { t with mailbox := r }
      take f.spec 0 x
      pure x
  else if n = 0x84 then pure s.tick
  else
    let x := (s.core t.core).sreg (n - 0x90)
    if f.sync then
      if !x.full then waitFor (.fullBit f.spec true)
      else do
        modCoreM fun c => c.setSreg (n - 0x90) { x with full := false }
        modify fun s => s.pokeFull t.core f.spec
        take f.spec 0 x.value
        pure x.value
    else plainShared x

/-- Read fields in order. -/
def readAll : List Fld → M (List Word)
  | [] => pure []
  | f :: r => do
    let x ← readS f
    let xs ← readAll r
    pure (x :: xs)

/-- Read the operands of an instruction that can leave as a proxy access: the values captured at issue are
the ones used at the home port (R293). -/
def readOps (fs : List Fld) : M (List Word) := do
  let t ← getTh
  if t.atPort then pure t.vals
  else do
    let xs ← readAll fs
    modTh fun t => { t with vals := xs }
    pure xs

/-! ### Writing -/

/-- Tangent values padded with +0 to the thread's count. -/
def putGT (t : Thread) (i : Nat) (ts : List Word) : Thread :=
  (List.range t.k).foldl (fun t j => t.setGT j i (ts.getD j 0#64)) t

/-- WriteOp of a scalar field that has passed the class-1 checks, with tangents (R130, R131, R222). -/
def writeST (f : Fld) (x : Word) (ts : List Word) : M Unit := do
  let s ← get
  let t := s.th
  let n := f.spec.toNat
  if n < 0x80 then
    if f.sync && t.gFull n then waitFor (.fullBit f.spec false)
    else modTh fun t => putGT ((t.setG n x).setFull n true) n ts
  else if n = 0x80 then pure ()
  else if n = 0x82 then
    let dir := t.down
    if (s.core t.core).credUsed.lookD dir 0 ≥ 8 then waitFor (.qout (BitVec.ofNat 3 dir))
    else do
      modCoreM fun c => { c with credUsed := c.credUsed.ins dir (c.credUsed.lookD dir 0 + 1) }
      modify fun s => (s.post (.queueEntry (neighbour t.core dir) (dirOf (opposite dir)) x)
        (chanQueue t.core (8 + dir)) 16).traffic s.cur
  else
    let r := (s.core t.core).sreg (n - 0x90)
    if f.sync && r.full then waitFor (.fullBit f.spec false)
    else do
      modCoreM fun c => c.setSreg (n - 0x90) (r.wrote x s.now (!f.sync))
      modify fun s => s.pokeFull t.core f.spec

def writeS (f : Fld) (x : Word) : M Unit := writeST f x []

/-- An instruction that waits for an event first honours the wait-empty bit of its destination (R58, R59). -/
def emptyCheck (f : Fld) : M Unit := do
  let s ← get
  let n := f.spec.toNat
  if f.sync && ((decide (n < 0x80) && s.th.gFull n) || (isShared f.spec && ((s.core s.th.core).sreg (n - 0x90)).full)) then
    waitFor (.fullBit f.spec false)

/-- The destination of a result handed off (R59, R240): a g-register becomes empty until it arrives. A
wait-empty bit is honoured at issue. -/
def handOff (f : Fld) : M Unit := do
  let s ← get
  let t := s.th
  let n := f.spec.toNat
  if n < 0x80 then
    if f.sync && t.gFull n then waitFor (.fullBit f.spec false)
    else modTh fun t => t.setFull n false
  else if n = 0x82 then
    if (s.core t.core).credUsed.lookD t.down 0 ≥ 8 then waitFor (.qout (BitVec.ofNat 3 t.down)) else pure ()
  else if isShared f.spec && f.sync && ((s.core t.core).sreg (n - 0x90)).full then waitFor (.fullBit f.spec false)
  else pure ()

/-- The instruction completes at issue and its answer travels: it counts in the outstanding-store counter. -/
def handOut (f : Fld) : M Unit := do
  handOff f
  modTh fun t => { t with outSt := t.outSt + 1 }

/-! ### Vector registers and masks (R16, R279) -/

def laneN (w : Nat) (x : Vec) (i : Nat) : Nat := x.toNat / 2 ^ (w * i) % 2 ^ w
def lanesOf (w : Nat) (x : Vec) : List Nat := (List.range (512 / w)).map (laneN w x)
/-- A register from its lanes, lane 0 first. -/
def joinLanes (w : Nat) (xs : List Nat) : Vec :=
  BitVec.ofNat 512 (xs.foldr (fun x acc => x % 2 ^ w + 2 ^ w * acc) 0)

def readV (f : BitVec 8) : M (Vec × Word32) := do
  regCheck true f
  let t ← getTh
  pure (t.vR f.toNat, t.vB f.toNat)

/-- The bits of a mask operand: m0 selects every lane. -/
def Thread.mask (t : Thread) (m : BitVec 3) : Nat := if m = 0#3 then 2 ^ 64 - 1 else (t.vR m.toNat).toNat % 2 ^ 64
/-- A mask operand must name a register the thread has. -/
def checkMask (m : BitVec 3) : M Unit := do
  let t ← getTh
  if m ≠ 0#3 ∧ t.V ≤ m.toNat then trap 0x21#8 (m.zeroExtend 64) else pure ()

/-- Read a mask operand. -/
def readMask (m : BitVec 3) : M Nat := do
  if m ≠ 0#3 then regCheck true (m.zeroExtend 8)
  let t ← getTh
  pure (t.mask m)

/-- Merge lanes under a mask: active lanes new, the others kept (R279). -/
def mergeLanes (mask : Nat) (old new : List Nat) : List Nat :=
  (List.range old.length).map fun i => if mask.testBit i then new.getD i 0 else old.getD i 0

/-! ### Which tangents an eligible instruction carries (R128 to R131) -/

/-- Tangents (from 0) for which an eligible instruction is dual. -/
def Thread.sel (t : Thread) : List Nat :=
  (List.range t.k).filter fun j =>
    match t.dualPfx with
    | some (m, _) => m.getLsbD j
    | none => t.dual

/-- Tangent j of a scalar operand: +0 from any specifier without a shadow (R131). -/
def Thread.tanS (t : Thread) (f : Fld) (j : Nat) : Word := if isG f.spec then t.gT j f.spec.toNat else 0#64

/-- Write a vector register with its bound and, for each tangent, a value and bound. -/
def writeV (i : Nat) (x : Vec) (b : Word32) (ts : List (Vec × Word32)) : M Unit :=
  modTh fun t =>
    (List.range t.k).foldl (fun t j =>
      let p := ts.getD j (0#512, 0#32)
      (t.setVT j i p.1).setVTb j i p.2) ((t.setV i x).setVb i b)

end Sys2Proof.Machine
end

