-- ==== Sys2Proof/Machine/Flags.lean ====
section
/-!
DEFINITION. The computation of fpflags and of arithmetic traps (R22 to R24, R273, R281).
-/
namespace Sys2Proof.Machine

/-- The enable bits of fpctl in the order of the flags: env to enx above nv to nx (R22, R23). -/
def Thread.enables (t : Thread) : Flags := t.fpctl.extractLsb' 8 5
def Thread.sat8 (t : Thread) : Bool := t.fpctl.getLsbD 2
def Thread.rm (t : Thread) : BitVec 2 := t.fpctl.extractLsb' 0 2
/-- The rounding mode in force for a rounding code (R225). -/
def Thread.rmode (t : Thread) (rc : Rc) : RMode := Machine.rmode t.rm rc

/-- The lowest cause among exceptions, with its flag (R24). -/
def lowestFp (fl : Flags) : Option (Byte × Flags) :=
  if fl &&& fNV ≠ 0#5 then some (0xC0#8, fNV)
  else if fl &&& fDZ ≠ 0#5 then some (0xC1#8, fDZ)
  else if fl &&& fOF ≠ 0#5 then some (0xC2#8, fOF)
  else if fl &&& fUF ≠ 0#5 then some (0xC3#8, fUF)
  else if fl &&& fNX ≠ 0#5 then some (0xC4#8, fNX)
  else none

/-- A scalar instruction has raised fl: it traps on the lowest enabled one, with the flags of all it
raised set, or the flags are set (R24, log 21). -/
def raise (fl : Flags) : M Unit := do
  let t ← getTh
  match lowestFp (fl &&& t.enables) with
  | some (c, _) => throw (.trap c 1#64 fl)
  | none => modTh fun t => { t with fpflags := t.fpflags ||| fl }

/-- The lanes that raised an exception, as tval shows them. -/
def lanesRaising (fls : List Flags) (e : Flags) : Nat :=
  (List.range fls.length).foldl (fun n i => if fls.getD i 0#5 &&& e ≠ 0#5 then n + 2 ^ i else n) 0

/-- A vector instruction has raised, lane by lane, the given exceptions (R24). -/
def raiseV (fls : List Flags) : M Unit := do
  let t ← getTh
  let all := fls.foldl (· ||| ·) 0#5
  match lowestFp (all &&& t.enables) with
  | some (c, e) => throw (.trap c (BitVec.ofNat 64 (lanesRaising fls e)) all)
  | none => modTh fun t => { t with fpflags := t.fpflags ||| all }

end Sys2Proof.Machine
end

