-- ==== Sys2Proof/Machine/Access.lean ====
section
/-!
DEFINITION. Mem.Read and Mem.Write of R237 for scratchpad and device memory (R66, R80, R89, R133, R293 to
R295, R340), the end of each wait (R51, R204), and answers that travel (R240).
-/
namespace Sys2Proof.Machine

/-- Run over a list in order. -/
def forAll {α β : Type} (f : α → M β) : List α → M (List β)
  | [] => pure []
  | x :: r => do
    let y ← f x
    let ys ← forAll f r
    pure (y :: ys)

/-! ### Scratchpad (R66, R293) -/

/-- An uncorrectable soft error in a scratchpad line that is read (R295). -/
def softCheck (o n : Nat) : M Unit := do
  let s ← get
  match (s.core s.th.core).softErr.find? (fun l => decide (l * 64 < o + n) && decide (o < l * 64 + 64)) with
  | some l => trap 0x61#8 (BitVec.ofNat 64 (64 * l))
  | none => pure ()

/-- Alignment, range and stencil checks of n scratchpad bytes; the offset (R202 steps 5, 6). -/
def spPlace (a : Word) (n align : Nat) (write : Bool) : M Nat := do
  if a.toNat % align ≠ 0 then trap 0x48#8 a
  else if Config.spBytes < a.toNat + n then trap 0x47#8 a
  else do
    let s ← get
    let c := s.core s.th.core
    match stencilCause c.stencil (spKey s.th.core a.toNat) n write with
    | some code => trap code a
    | none => pure a.toNat

/-- Those checks, and that of the lines when the bytes are read. -/
def spCheck (a : Word) (n align : Nat) (write : Bool) : M Nat := do
  let o ← spPlace a n align write
  if !write then softCheck o n
  pure o

/-- The planes of an access to the scratchpad: all are checked before any is read (R133, R295). -/
def spPlanes (n align : Nat) (write : Bool) (vas : List Word) : M (List Nat) := do
  let os ← forAll (fun x => spPlace x n align write) vas
  if !write then
    let _ ← forAll (fun o => softCheck o n) os
  pure os

/-- n bytes of the own scratchpad and the largest bound word of their lines. -/
def spGet (o n : Nat) : M (Nat × Word32) := do
  let s ← get
  let c := s.core s.th.core
  let lines := (List.range ((o % 64 + n + 63) / 64)).map fun i => c.spB (o / 64 * 64 + 64 * i)
  pure (c.spNat o n, bMaxL lines)

/-- The core after n bytes are written at o with a bound: a full line takes the bound, a part keeps the
larger one (R41). -/
def Core.spPut (c : Core) (o n x : Nat) (b : Word32) (full : Bool) : Core :=
  let c := c.spWrite o (leBytes n x)
  let c := if full then { c with softErr := c.softErr.filter (· != o / 64) } else c
  c.setSpB o (if full then b else bMax (c.spB o) b)

/-- Write to the own scratchpad: performed at once, never pending (R340). -/
def spSet (o n x : Nat) (b : Word32) (full : Bool) : M Unit := modCoreM fun c => c.spPut o n x b full

/-! ### Device memory (R66 to R71, R293, R340) -/

/-- Stop here, with what the accesses of the instruction have read so far read (R78). -/
def stopHere {α : Type} (st : Stop) : M α := do throw (.after (← get) st)
def trapHere {α : Type} (code : Byte) (tv : Word) : M α := stopHere (.trap code tv 0#5)

/-- The stencil's check of n bytes at their home port (R89). -/
def stencilCheck (va : Word) (pa n : Nat) (acc : Acc) : M Unit := do
  let s ← get
  match stencilCause (s.core (homeCore pa)).stencil pa n acc.writes with
  | some c => trapHere c va
  | none => pure ()

/-- A line is read at its home port: its error is met, and poison traps but for its metadata (R78, R80, R303). -/
def portRead (va : Word) (pa : Nat) (acc : Acc) : M Unit := do
  modify fun s => s.lineRead pa
  let s ← get
  if acc != .side && sbPoison (s.dmSb s.th.core pa) then trapHere 0x60#8 (va - BitVec.ofNat 64 (va.toNat % 64)) else pure ()

/-- Leave the core for the home port of an access: a roaming thread migrates, a rooted one leaves by proxy with its operands
captured, plane by plane when it moves more than one (R43, R133, R293). ps: the planes translated, the last first; all: no
plane is left. -/
def leaveFor {α : Type} (home n : Nat) (acc : Acc) (ps : List (Word × Nat)) (all : Bool) : M α := do
  let s ← get
  if s.th.roaming then stopHere (.migrate home)
  else
    let xs : List PlaneAcc := if ps.length ≤ 1 then [] else
      ps.reverse.map fun p => ⟨p.1, p.2, n, acc.writes, acc.reads && all, false, none, false, 0, 0#32⟩
    throw (.proxy (s.modTh fun t => { t with planes := xs }) acc.reads .access)

/-- The address a failed check of an access names: the line, when poison was read (R80, R210). -/
def causeAddr (c : Byte) (va : Word) : Word := if c = 0x60#8 then va - BitVec.ofNat 64 (va.toNat % 64) else va

/-- A page must move first: the walker's compare-and-swap on its leaf is not served from a pending store (R75, R340). -/
def touch {α : Type} (va : Word) (leaf pte : Nat) : M α := do
  let s ← get
  if (s.core s.th.core).holds leaf 8 then stopHere (.wait (.bytes leaf 8)) else stopHere (.touch va leaf pte)

/-- Translate the planes of an access in order, bring it to the home port and check every plane against the stencil there:
their physical addresses. ps: the planes already translated, the last first. away: the home of an earlier plane that lies on
another core; its check there comes before any failure of a later plane (R133). -/
def checkPlanes (n align : Nat) (acc : Acc) : List Word → List (Word × Nat) → Option Nat → M (List Nat)
  | [], ps, some h => leaveFor h n acc ps true
  | [], _, none => pure []
  | va :: r, ps, away => do
    let s ← get
    let t := s.th
    match (if t.atPort then t.planes[ps.length]? else none) with
    | some p => match p.cause with
      | some c => trap c (causeAddr c va)
      | none => do
        let pas ← checkPlanes n align acc r ((va, p.pa) :: ps) away
        pure (p.pa :: pas)
    | none =>
      let (o, s') :=
        if va.toNat % align ≠ 0 then (Tr.fault 0x48#8, s) else s.translate t.core t.part t.user va acc
      match o, away with
      | .ok pa, _ => do
        set s'
        let away' := if homeCore pa ≠ t.core && !t.atPort then (match away with | some h => some h | none => some (homeCore pa)) else away
        if away'.isNone then stencilCheck va pa n acc
        let pas ← checkPlanes n align acc r ((va, pa) :: ps) away'
        pure (pa :: pas)
      | _, some h => do
        set s'
        leaveFor h n acc ps false
      | .fault c, none => do
        set s'
        trapHere c va
      | .touch leaf pte, none => do
        set s'
        match s.farConflict (pteAddr pte + va.toNat % 4096) n acc.writes with
        | some c => trapHere c va
        | none => touch va leaf pte

/-- The planes of a load are read at their ports, in order; those away have been read there (R133). i: the number of the first. -/
def readPlanes (acc : Acc) : Nat → List (Word × Nat) → M Unit
  | _, [] => pure ()
  | i, (va, pa) :: r => do
    let t ← getTh
    match (if t.atPort then t.planes[i]? else none) with
    | some p => if p.got then pure () else portRead va pa acc
    | none => portRead va pa acc
    readPlanes acc (i + 1) r

/-- The planes of an access at their home ports with every check passed (R133): all are translated and checked before any is
read. -/
def reachPlanes (n align : Nat) (acc : Acc) (vas : List Word) : M (List Nat) := do
  let pas ← checkPlanes n align acc vas [] none
  if acc.reads then readPlanes acc 0 (vas.zip pas)
  pure pas

/-- One access of n bytes brought to its home port with every check passed. -/
def devReach (va : Word) (n align : Nat) (acc : Acc) : M Nat := do
  return (← reachPlanes n align acc [va]).getD 0 0

/-- The planes of a typed access: displacement 0 and j · tstride for each tangent carried (R133, R134). -/
def planesOf (typed : Bool) : M (List (Nat × Word)) := do
  let t ← getTh
  let js := if typed then t.sel else []
  if !js.isEmpty && t.tstride = 0#64 then trap 0x24#8 t.tstride
  else pure (js.map fun j => (j, BitVec.ofNat 64 (j + 1) * t.tstride))

/-- Earlier stores of the thread not yet performed hold the access back (R294). -/
def releaseWait : M Unit := do
  let s ← get
  if (s.pendOf s.cur).isEmpty then pure () else waitFor .release

/-- An access that may not be served from a pending store waits for those of its core to the same bytes
(R340). -/
def acquireWait (pa n : Nat) : M Unit := do
  let s ← get
  if (s.core s.th.core).holds pa n then waitFor (.bytes pa n) else pure ()

/-- Earlier stores of the thread to the same home port are performed first (R293). -/
def portOrder (pa : Nat) : M Unit := do
  let s ← get
  if (s.pendOf s.cur).any (fun p => homeCore p.pa == homeCore pa) then waitFor (.port (homeCore pa)) else pure ()

/-- n bytes as the thread sees them, with the line's bound (R39, R340). -/
def devGet (pa n : Nat) : M (Nat × Word32) := do
  let s ← get
  pure (s.dmNat s.th.core pa n, sbBound (s.dmSb s.th.core pa))

/-- The planes of a load: what their ports answered, or what the thread sees of them. i: the number of the first. -/
def devGets (n : Nat) : Nat → List Nat → M (List (Nat × Word32))
  | _, [] => pure []
  | i, pa :: r => do
    let t ← getTh
    let x ← match (if t.atPort then t.planes[i]? else none) with
      | some p => if p.got then pure (p.data, p.bound) else devGet pa n
      | none => devGet pa n
    let xs ← devGets n (i + 1) r
    pure (x :: xs)

/-- Complete a store: it is pending until its home port performs it (R340). -/
def devPend (pa : Nat) (bytes : List Host.Cell) (b : Word32) (full : Bool) (sb : Option Word32) : M Unit := do
  let s ← get
  let t := s.th
  let id := s.nextOp
  modCoreM fun c => { c with pend := c.pend ++ [⟨id, s.cur, pa, bytes, b, full, sb⟩] }
  modTh fun t => { t with outSt := t.outSt + 1 }
  modify fun s => { s with nextOp := id + 1 }
  modify fun s => s.post (.homePortAccess s.cur id) (chanPort t.core (homeCore pa)) 16

def cellsOf (pa : Nat) (bs : List Byte) : List Host.Cell := (List.range bs.length).map fun i => (pa + i, bs.getD i 0#8)

/-- Write n bytes at their home port at once. -/
def devSetNow (pa n x : Nat) (b : Word32) : M Unit := do
  modify fun s => (s.perform ⟨0, s.cur, pa, cellsOf pa (leBytes n x), b, false, none⟩).activate pa

/-! ### Pending stores -/

/-- A message that waited for this store, the last it waited for, leaves its core now (R141, R294). -/
def letGo (now : Nat) (before after : List PendStore) (src : Word32) (p : Posting) : Posting :=
  let waits (ps : List PendStore) : Bool := ps.any fun x => x.thid == src && decide (x.id < p.seq)
  if releaseOf p.ev = some src && waits before && !waits after then { p with due := max p.due (now + 16) } else p

/-- A pending store is performed: it leaves its core's list and the count (R340). -/
def State.performStore (s : State) (thid : Word32) (id : Nat) : State :=
  match s.cores.findSome? fun e => (e.2.pend.find? fun p => p.id == id && p.thid == thid).map fun p => (e.1, p) with
  | none => s
  | some (core, p) =>
    let before := (s.core core).pend
    let s := s.modCore core fun c => { c with pend := c.pend.filter (· != p) }
    let s := { s with agenda := s.agenda.map (letGo s.now before (s.core core).pend thid) }
    let s := s.performNow p
    let s := if (s.threads.look thid.toNat).isSome then s.modThr thid fun t => { t with outSt := t.outSt - 1 } else s
    -- other threads of the core may wait for these bytes
    let s := s.pokeAll fun t => t.core == core && (match t.wait with | .bytes _ _ => true | _ => false)
    ((s.traffic thid).poke thid).tryFree thid

/-- A store changes a byte from lo to hi, or the sideband word of a line that lies there (R303). -/
def PendStore.meets (p : PendStore) (lo hi : Nat) : Bool :=
  p.bytes.any (fun b => decide (lo ≤ b.1) && decide (b.1 < hi)) ||
    (p.sb.isSome && decide (p.pa / 64 * 64 < hi) && decide (lo < p.pa / 64 * 64 + 64))

/-- The stores to a run of bytes that have passed the check of their home port, and those before them, are performed: an
engine that registers or reads the run comes after them (R89, R340). -/
def State.drainPort (s : State) (lo hi : Nat) : State :=
  s.cores.foldl (fun s e =>
    let ps := e.2.pend
    let n := ((List.range ps.length).filter fun i => (ps[i]?).any fun p => p.meets lo hi).getLast?
    match n with
    | none => s
    | some i => (ps.take (i + 1)).foldl (fun s p => s.performStore p.thid p.id) s) s

/-! ### Ends of waits -/

/-- The barrier a thread means by number k (R178). -/
def State.barrier (s : State) (part k : Nat) : Barrier := s.barriers.lookD (16 * part + k) ⟨none, [], [], 0#32, []⟩

/-- The stores a fence of each scope waits for (R301). -/
def State.fenceDone (s : State) (id : Word32) (sc : Scope) : Bool :=
  let t := s.thr id
  let ps := s.pendOf id
  match sc with
  | .core => ps.all fun p => homeCore p.pa != t.core
  | .grp =>
    let own := match s.logOf t.core with | some l => l - t.rank | none => 0
    let base := match t.kernel with | some k => (s.kernels.look k).elim own (·.base) | none => own
    ps.all fun p => match s.logOf (homeCore p.pa) with
      | some l => !(decide (base ≤ l) && decide (l < base + t.gsize))
      | none => true
  | .dev => decide (t.outSt ≤ s.hostPendOf id)
  | .host => t.outSt == 0

/-- What the thread waits for has come about; a barrier's release has to reach the core (R180). -/
def State.waitOver (s : State) (id : Word32) : Bool :=
  let t := s.thr id
  match t.wait with
  | .none => true
  | .fullBit x want =>
    let n := x.toNat
    if n < 0x80 then t.gFull n == want else ((s.core t.core).sreg (n - 0x90)).full == want
  | .qin d => !((s.core t.core).queue d.toNat).items.isEmpty
  | .qout d => decide ((s.core t.core).credUsed.lookD d.toNat 0 < 8)
  | .mailbox => !t.mailbox.isEmpty
  | .counters m n => (!m.getLsbD 0 || decide (t.outLd ≤ n)) && (!m.getLsbD 1 || decide (t.outSt ≤ n)) &&
      (!m.getLsbD 2 || decide (t.outCp ≤ n)) && (!m.getLsbD 3 || decide (t.outHr ≤ n))
  | .event m => t.event &&& m != 0#64
  | .landing l n => decide (n ≤ (t.lR l).toNat)
  | .filled c n => decide (n ≤ ((s.core t.core).cbuf c).filled)
  | .booking h _ _ => match s.bookOf h with
    | some (_, _, b) => b.state != .pending && b.state != .committed && b.state != .saved
    | none => true
  | .barrier k g _ _ => let b := s.barrier t.part k.toNat; b.gen != g && !b.releasing.contains t.core
  | .arrival _ | .withdrawal _ _ _ | .access | .anchor | .answer | .hostAccess _ _ | .qput _ | .entry => false
  | .leaving => t.outLd == 0 && t.outSt == 0
  | .port h => !(s.pendOf id).any fun p => homeCore p.pa == h
  | .release => (s.pendOf id).isEmpty
  | .fence sc => s.fenceDone id sc
  | .page op => (s.pages.look op).isNone
  | .frame => !(s.core t.core).frames.isEmpty
  | .batfree _ => true
  | .halt => !t.mailbox.isEmpty || (t.ev &&& 0x7FFFFFFFFFFFFFFF#64) != 0#64 || !t.posted.isEmpty
  | .bytes pa n => !(s.core t.core).holds pa n
  | .saving x => (s.thr x).outHr == 0 && (s.pendOf x).isEmpty &&
      !s.copies.any (fun e => e.2.thid == x && e.2.kind == .copyr && e.2.live)

/-! ### Answers (R240) -/

/-- Send an answer back to a thread's destination. -/
def State.answer (s : State) (id : Word32) (dst : Fld) (x : Word) (delay : Nat := 16) : State :=
  (s.traffic id).post (.statusAnswer id dst x) 0 delay

/-- A destination qout without a credit cannot be written (R190). -/
def State.lacksCredit (s : State) (id : Word32) (dst : Fld) : Bool :=
  let t := s.thr id
  dst.spec == 0x82#8 && decide (8 ≤ (s.core t.core).credUsed.lookD t.down 0)

/-- A waiting instruction completes with a value for its destination, and the thread becomes ready or goes on in its seat
(R250, R312, R314); with pass the thread goes on behind it. A wait-empty bit on the destination was honoured at issue; a
qout without a credit is waited for with the answer in hand (R190). -/
def State.completeWith (s : State) (id : Word32) (dst : Fld) (x : Word) (pass : Bool := true) : State :=
  if s.lacksCredit id dst then
    let t := s.thr id
    ((s.setThr id { t with late := some (dst, x, pass) }).startWait id (.qout (BitVec.ofNat 3 t.down))).postOnce
      (.probeTokenSend t.core) 256
  else
    let cur := s.cur
    let s := { s with cur := id }
    let s := match writeS { dst with sync := false } x s with
      | .ok (_, s') => s'
      | .error _ => s
    -- what an access in flight had observed is taken now (R223)
    let s := if pass then (s.modThr id fun t => { t with atPort := true }).finish .fall else s
    let s := s.modThr id fun t => { t with wait := .none, late := none, atPort := if pass then false else t.atPort }
    { s with cur := cur }.wake id

/-- The read of a waiting instruction's operand takes effect as it completes (R59, R223). -/
def State.readAgain (s : State) (id : Word32) (src : Fld) : State :=
  match readS src { s with cur := id } with
  | .ok (_, s') => { s' with cur := s.cur }
  | .error _ => s

/-- A wait looked at again: when it is over the instruction issues again; a cancelled booking answers 0, and
halt completes (R250, R337). -/
def State.recheck (s : State) (id : Word32) : State :=
  let t := s.thr id
  if !s.waitOver id then s
  else if let some (dst, x, pass) := t.late then s.completeWith id dst x pass
  else match t.wait with
    | .booking h dst src => if (s.bookOf h).isNone then (s.readAgain id src).completeWith id dst 0#64 else s.wake id
    | .halt | .batfree _ => s.completeWith id ⟨0x80#8, false⟩ 0#64
    | .barrier k g true dst =>
      let _ := g
      s.completeWith id dst ((s.barrier t.part k.toNat).gen.zeroExtend 64)
    | _ => s.wake id

/-- Pending bookings that wait for a counter or a buffer are looked at again (R122). -/
def State.pokeBooks (s : State) (p : Booking → Bool) : State :=
  [0, 1].foldl (fun s r => ((s.books r).filter fun e => e.2.state == .pending && p e.2).foldl
    (fun s e =>
      -- at the first tick boundary after the change (R122)
      let ev : Instr := .pendingBookAttempt r e.1
      if s.agenda.any (fun x => decide (x.ev = ev)) then s
      else s.post ev 0 (s.nextBoundary - s.now)) s) s

/-! ### Helpers of the meanings -/

/-- Complete by falling through and then change the machine: for instructions that give up the seat. -/
def fallThen (f : State → State) : M Ctl := do
  modify fun s =>
    f (s.finish .fall)
  pure .stay

/-- R61: the last instruction of a loop body may not transfer control. -/
def tailCheck : M Unit := do
  let t ← getTh
  if t.isTail t.pc then trap 0x05#8 0#64 else pure ()

def sext (w : Nat) (x : BitVec w) : Word := x.signExtend 64
def zext (w : Nat) (x : BitVec w) : Word := x.zeroExtend 64

/-- The address of the instruction in hand. -/
def pcM : M Word := do return (← getTh).pc
/-- NextPC of the instruction in hand (R241). -/
def nextM : M Word := do
  let s ← get
  return s.nextPC s.th s.th.pc

end Sys2Proof.Machine
end

