-- ==== Sys2Proof/Machine/ScalarFp.lean ====
section
/-!
DEFINITION. Scalar floating point, opcodes 0x40 to 0x4B (R273 to R278), with the tangents of R130 to R132.
-/
namespace Sys2Proof.Machine

/-! ### Tangents of one value (R132) -/

/-- A value with its pattern's format: exact products and sums of patterns, rounded once. A NaN or an
infinity makes the sum follow IEEE 754-2019 term by term, with no flag kept. -/
def sumProds (f : FSpec) (rm : RMode) (ps : List (Nat × Nat)) (cs : List Nat) : Nat :=
  let vs := ps.map (fun p => (mulV (decodeF f p.1) (decodeF f p.2), [p.1, p.2])) ++
    cs.map fun c => (some (decodeF f c), [c])
  match pickNaN f (vs.flatMap (·.2)) with
  | some q => q
  | none =>
    if vs.any (fun v => v.1.isNone) then dNaN f
    else
      let xs := vs.filterMap (·.1)
      let pinf := xs.any fun x => match x with | .inf false => true | _ => false
      let ninf := xs.any fun x => match x with | .inf true => true | _ => false
      if pinf && ninf then dNaN f
      else if pinf then infPat f false
      else if ninf then infPat f true
      else
        let terms := xs.filterMap fun x => match x with | .fin s m e => some (termOf s m e) | _ => none
        let allNeg := xs.all fun x => x.sign
        let allPos := xs.all fun x => !x.sign
        let zs := if allNeg then true else if allPos then false else decide (rm = .rdn)
        (roundTerm f rm zs (sumTerms terms)).1

/-- The operations whose tangents R132 gives. -/
inductive FOp where
  | add | sub | mul | fma | div | sqrt | min | max
  deriving DecidableEq, Repr

/-- The rounded primal result and its exceptions (R274, R275). -/
def fop (f : FSpec) (rm : RMode) (o : FOp) (a b c : Nat) : Nat × Flags :=
  match o with
  | .add => fAdd f rm a b
  | .sub => fSub f rm a b
  | .mul => fMul f rm a b
  | .fma => fFma f rm a b c
  | .div => fDiv f rm a b
  | .sqrt => fSqrt f rm a
  | .min => fMinMax f true a b
  | .max => fMinMax f false a b

/-- The operands an operation has. -/
def fopArgs (o : FOp) (a b c : Nat) : List Nat :=
  match o with
  | .fma => [a, b, c]
  | .sqrt => [a]
  | .add | .sub | .mul | .div | .min | .max => [a, b]

/-- Tangent of a result from operands, their tangents and the rounded primal q (R132). -/
def fopTan (f : FSpec) (rm : RMode) (o : FOp) (a b c a' b' c' q : Nat) : Nat :=
  let qn := (decodeF f q).isNaN
  let sel := match o with | .min | .max => true | _ => false
  if qn && !sel then
    -- a propagated NaN gives its operand's tangent; without one an invalid operation has given the default NaN
    match nanIdx f (fopArgs o a b c) with
    | some i => [a', b', c'].getD i 0
    | none => dNaN f
  else match o with
    | .add => (fAdd f rm a' b').1
    | .sub => (fSub f rm a' b').1
    | .mul => sumProds f rm [(a', b), (a, b')] []
    | .fma => sumProds f rm [(a', b), (a, b')] [c']
    | .div =>
      let n := sumProds f rm [(fSgn f .neg q 0, b')] [a']
      (fDiv f rm n b).1
    | .sqrt =>
      if (decodeF f a').isZero then 0
      else
        -- 2·q is exact
        match decodeF f a', decodeF f q with
        | .fin s m e, .fin t n k =>
          if n = 0 then infPat f (s != t) else (roundRatio f rm (s != t) m n (e - k - 1)).1
        | _, _ => (fDiv f rm a' q).1
    | .min => if takeA f true a b then a' else b'
    | .max => if takeA f false a b then a' else b'

/-! ### The common shape (R273) -/

def lowNat (f : FSpec) (x : Word) : Nat := x.toNat % 2 ^ f.width

/-- Tangents of a scalar destination: the selected ones computed, the others +0 (R130). -/
def tansFor (t : Thread) (f : Nat → Nat) : List Word :=
  (List.range t.k).map fun j => if t.sel.contains j then BitVec.ofNat 64 (f j) else 0#64

def fArith (o : FOp) (t : FTy) (rc : Rc) (d a b c : Fld) (reads : List Fld) : M Ctl := do
  check1 ((.ws, d) :: reads.map fun f => (.rs, f))
  let th ← getTh
  let f := ftySpec t
  let rm := th.rmode rc
  let xs ← readAll reads
  let x := lowNat f (xs.getD 0 0#64)
  let y := lowNat f (xs.getD 1 0#64)
  let z := lowNat f (xs.getD 2 0#64)
  let (q, fl) := fop f rm o x y z
  raise fl
  writeST d (BitVec.ofNat 64 q) (tansFor th fun j =>
    fopTan f rm o x y z (lowNat f (th.tanS a j)) (lowNat f (th.tanS b j)) (lowNat f (th.tanS c j)) q)
  pure .fall

def noFld : Fld := ⟨0x80#8, false⟩

def execFadd (h : Head) (d a b : Fld) (t : FTy) (rc : Rc) (s : State) := runU h (fArith .add t rc d a b noFld [a, b]) s
def execFsub (h : Head) (d a b : Fld) (t : FTy) (rc : Rc) (s : State) := runU h (fArith .sub t rc d a b noFld [a, b]) s
def execFmul (h : Head) (d a b : Fld) (t : FTy) (rc : Rc) (s : State) := runU h (fArith .mul t rc d a b noFld [a, b]) s
def execFma (h : Head) (d a b c : Fld) (t : FTy) (rc : Rc) (s : State) := runU h (fArith .fma t rc d a b c [a, b, c]) s
def execFdiv (h : Head) (d a b : Fld) (t : FTy) (rc : Rc) (s : State) := runU h (fArith .div t rc d a b noFld [a, b]) s
def execFsqrt (h : Head) (d a : Fld) (t : FTy) (rc : Rc) (s : State) :=
  runU h (fArith .sqrt t rc d a noFld noFld [a]) s
def execFmin (h : Head) (d a b : Fld) (t : FTy) (s : State) := runU h (fArith .min t .dyn d a b noFld [a, b]) s
def execFmax (h : Head) (d a b : Fld) (t : FTy) (s : State) := runU h (fArith .max t .dyn d a b noFld [a, b]) s

/-- R276. -/
def execFcmp (h : Head) (d a b : Fld) (t : FTy) (c : FCond) (s : State) := runU h (do
  check1 [(.pred, d), (.rs, a), (.rs, b)]
  let f := ftySpec t
  let x ← readS a
  let y ← readS b
  let (v, fl) := fCmp f c (lowNat f x) (lowNat f y)
  raise fl
  modTh fun t => t.setP d.spec.toNat v
  pure .fall) s

/-- A value of a format code as a scalar register holds it: floating values alone, integers extended by
their signedness (R16, R277). -/
def placeS (f : Fmt) (x : Nat) : Word :=
  match intFmt? f with
  | some (w, sgn) => BitVec.ofInt 64 (intVal w sgn x)
  | none => BitVec.ofNat 64 x

/-- R277: the tangent is converted as the primal for a floating target, else +0. -/
def execFcvt (h : Head) (d a : Fld) (tgt src : Fmt) (rc : Rc) (s : State) := runU h (do
  check1 [(.ws, d), (.rs, a)]
  let th ← getTh
  let x ← readS a
  let w := fmtWidth src
  let cv (y : Word) := cvt src tgt (th.rmode rc) th.sat8 (y.toNat % 2 ^ w)
  let (q, fl) := cv x
  raise fl
  let ts := if (fspec? tgt).isSome then tansFor th fun j => (cv (th.tanS a j)).1 else []
  writeST d (placeS tgt q) ts
  pure .fall) s

def execFcvti (h : Head) (d a : Fld) (tgt src : FTy) (rc : Rc) (s : State) := runU h (do
  check1 [(.ws, d), (.rs, a)]
  let th ← getTh
  let x ← readS a
  let (q, fl) := cvtIntegral (ftySpec src) (ftySpec tgt) (th.rmode rc) (lowNat (ftySpec src) x)
  raise fl
  writeS d (BitVec.ofNat 64 q)
  pure .fall) s

/-- fsgn's tangent: a′ when q has the sign of a, −a′ otherwise (R132). -/
def sgnTan (f : FSpec) (a a' q : Nat) : Nat := if signBit f q == signBit f a then a' else fSgn f .neg a' 0

def execFsgn (h : Head) (d a b : Fld) (t : FTy) (op : SgnOp) (s : State) := runU h (do
  let one := op == .neg || op == .abs
  let reads := if one then [a] else [a, b]
  check1 ((.ws, d) :: reads.map fun f => (.rs, f))
  let th ← getTh
  let f := ftySpec t
  let xs ← readAll reads
  let x := lowNat f (xs.getD 0 0#64)
  let q := fSgn f op x (lowNat f (xs.getD 1 0#64))
  writeST d (BitVec.ofNat 64 q) (tansFor th fun j => sgnTan f x (lowNat f (th.tanS a j)) q)
  pure .fall) s

end Sys2Proof.Machine
end

