-- ==== Sys2Proof/Machine/Vector.lean ====
section
/-!
DEFINITION. The vector instructions, opcodes 0x50 to 0x6A (R279 to R292), with their bounds (R34, R36 to
R38) and tangents (R130 to R132, R135).
-/
namespace Sys2Proof.Machine

/-! ### Lanes, masks and the write of a result (R279, R281) -/

/-- What a vector instruction reads of one register: lanes, bound, and for each tangent lanes and bound. -/
structure VSrc where
  xs : List Nat
  b  : Word32
  ts : List (List Nat × Word32)
  deriving DecidableEq, Repr

def Thread.vsrc (t : Thread) (w i : Nat) : VSrc :=
  ⟨lanesOf w (t.vR i), t.vB i, (List.range t.k).map fun j => (lanesOf w (t.vT j i), t.vTb j i)⟩

def VSrc.tan (v : VSrc) (j : Nat) : List Nat × Word32 := v.ts.getD j ([], 0#32)

/-- Read vector fields and a mask: their lanes, and the mask's bits. -/
def readVs (w : Nat) (fs : List Fld) (m : BitVec 3) : M (List VSrc × Nat) := do
  checkMask m
  fs.forM fun f => regCheck true f.spec
  let mask ← readMask m
  let t ← getTh
  pure (fs.map fun f => t.vsrc w f.spec.toNat, mask)

/-- The lanes of a list that a mask selects. -/
def activeOf (mask : Nat) (xs : List Nat) : List Nat :=
  ((List.range xs.length).filter mask.testBit).map fun i => xs.getD i 0

/-- Write lanes under a mask with a bound; masked: the old bound is kept when larger (R34). Tangents not given
are written as +0 with bound 0 (R130). -/
def writeLanes (d : Fld) (w mask : Nat) (masked : Bool) (res : List Nat) (b : Word32)
    (ts : List (List Nat × Word32)) : M Unit := do
  let t ← getTh
  let i := d.spec.toNat
  let put (old : Vec) (new : List Nat) : Vec := joinLanes w (mergeLanes mask (lanesOf w old) new)
  let bd (old b : Word32) : Word32 := if masked then bMax old b else b
  writeV i (put (t.vR i) res) (bd (t.vB i) b) ((List.range t.k).map fun j =>
    let p := ts.getD j ([], 0#32)
    (put (t.vT j i) p.1, bd (t.vTb j i) p.2))

/-- Tangents of a vector result: the selected ones computed, the others +0 with bound 0 (R130). -/
def vTansFor (t : Thread) (f : Nat → List Nat × Word32) : List (List Nat × Word32) :=
  (List.range t.k).map fun j => if t.sel.contains j then f j else ([], 0#32)

/-- Compute lane by lane, inactive lanes as zero. -/
def lanewise (n mask : Nat) (f : Nat → Nat) : List Nat :=
  (List.range n).map fun i => if mask.testBit i then f i else 0
/-- Flags lane by lane. -/
def laneFlags (n mask : Nat) (f : Nat → Flags) : List Flags :=
  (List.range n).map fun i => if mask.testBit i then f i else 0#5

/-! ### Floating-point arithmetic (R282, R283) -/

/-- The bound of a primal result (R36). -/
def vBound (f : FSpec) (o : FOp) (ms : List Mag) (bs : List Word32) (h : Word32) : Word32 :=
  let m (i : Nat) : Mag := ms.getD i mag0
  let b (i : Nat) : Word32 := bs.getD i 0#32
  let _ := f
  match o with
  | .add | .sub => bAddSub (b 0) (b 1) h
  | .mul => bMulF (m 0) (m 1) (b 0) (b 1) h
  | .fma => bFma (m 0) (m 1) (b 0) (b 1) (b 2) h
  | .div | .sqrt => if bs.all (· == 0#32) then h else bInf
  | .min | .max => bMaxL bs

/-- The bound of a tangent result (R135): magnitudes and bounds of the primals and of the tangents. -/
def vTanBound (o : FOp) (ms : List Mag) (bs : List Word32) (mts : List Mag) (bts : List Word32) (allZero : Bool)
    (h : Word32) : Word32 :=
  let m (i : Nat) : Mag := ms.getD i mag0
  let b (i : Nat) : Word32 := bs.getD i 0#32
  let m' (i : Nat) : Mag := mts.getD i mag0
  let b' (i : Nat) : Word32 := bts.getD i 0#32
  let mul := bSum [bMul (m' 0) (b 1), bMul (m 1) (b' 0), bMul (magOfBound (b' 0)) (b 1),
    bMul (m 0) (b' 1), bMul (m' 1) (b 0), bMul (magOfBound (b 0)) (b' 1), h]
  match o with
  | .add | .sub => bAddSub (b' 0) (b' 1) h
  | .mul => mul
  | .fma => bAdd mul (b' 2)
  | .div | .sqrt => if allZero then 0#32 else bInf
  | .min | .max => bMaxL bts

def vArith (o : FOp) (t : FTy) (rc : Rc) (d : Fld) (srcs : List Fld) (m : BitVec 3) : M Ctl := do
  check1 ((.vec, d) :: srcs.map fun f => (.vec, f))
  let th ← getTh
  let f := ftySpec t
  let w := f.width
  let n := 512 / w
  let rm := th.rmode rc
  let (vs, mask) ← readVs w srcs m
  let x (k i : Nat) : Nat := ((vs.map (·.xs)).getD k []).getD i 0
  let out (i : Nat) : Nat × Flags := fop f rm o (x 0 i) (x 1 i) (x 2 i)
  let res := lanewise n mask fun i => (out i).1
  raiseV (laneFlags n mask fun i => (out i).2)
  let ms := vs.map fun v => maxMag f (activeOf mask v.xs)
  let bs := vs.map (·.b)
  let ts := vTansFor th fun j =>
    let y (k i : Nat) : Nat := ((vs.map fun v => (v.tan j).1).getD k []).getD i 0
    let tr := lanewise n mask fun i =>
      fopTan f rm o (x 0 i) (x 1 i) (x 2 i) (y 0 i) (y 1 i) (y 2 i) (res.getD i 0)
    let act := vs.map fun v => activeOf mask (v.tan j).1
    let all := (List.range n).map fun i => fopTan f rm o (x 0 i) (x 1 i) (x 2 i) (y 0 i) (y 1 i) (y 2 i) (out i).1
    (tr, vTanBound o ms bs (act.map (maxMag f)) (vs.map fun v => (v.tan j).2)
      (act.all fun l => l.all fun z => (decodeF f z).isZero) (halfUlp f (maxMag f all)))
  -- max|result| is that of the operation in every lane, whatever the mask (R36, log 98)
  writeLanes d w mask (m ≠ 0#3) res (vBound f o ms bs (halfUlp f (maxMag f ((List.range n).map fun i => (out i).1)))) ts
  pure .fall

def execVadd (h : Head) (d a b : Fld) (m : BitVec 3) (t : FTy) (rc : Rc) (s : State) :=
  runU h (vArith .add t rc d [a, b] m) s
def execVsub (h : Head) (d a b : Fld) (m : BitVec 3) (t : FTy) (rc : Rc) (s : State) :=
  runU h (vArith .sub t rc d [a, b] m) s
def execVmul (h : Head) (d a b : Fld) (m : BitVec 3) (t : FTy) (rc : Rc) (s : State) :=
  runU h (vArith .mul t rc d [a, b] m) s
def execVfma (h : Head) (d a b : Fld) (c : BitVec 8) (m : BitVec 3) (t : FTy) (rc : Rc) (s : State) :=
  runU h (vArith .fma t rc d [a, b, ⟨c, false⟩] m) s
def execVdiv (h : Head) (d a b : Fld) (m : BitVec 3) (t : FTy) (rc : Rc) (s : State) :=
  runU h (vArith .div t rc d [a, b] m) s
def execVsqrt (h : Head) (d a : Fld) (m : BitVec 3) (t : FTy) (rc : Rc) (s : State) :=
  runU h (vArith .sqrt t rc d [a] m) s
def execVmin (h : Head) (d a b : Fld) (m : BitVec 3) (t : FTy) (s : State) :=
  runU h (vArith .min t .dyn d [a, b] m) s
def execVmax (h : Head) (d a b : Fld) (m : BitVec 3) (t : FTy) (s : State) :=
  runU h (vArith .max t .dyn d [a, b] m) s

/-! ### Comparison, selection, signs (R284 to R286) -/

/-- A comparison of integer lanes; the two conditions integers have no use for do not decode. -/
def icmp (c : FCond) (x y : Int) : Bool :=
  match c with
  | .eq => x == y
  | .ne => x != y
  | .lt => decide (x < y)
  | .le => decide (x ≤ y)
  | .gt => decide (y < x)
  | .ge => decide (y ≤ x)
  | .un => false
  | .ord => true

def cmpLane (t : Fmt) (c : FCond) (x y : Nat) : Bool × Flags :=
  match fspec? t, intFmt? t with
  | some f, _ => fCmp f c x y
  | none, some (w, sgn) => (icmp c (intVal w sgn x) (intVal w sgn y), 0#5)
  | none, none => (false, 0#5)

/-- Every lane of the mask is written; the tangents are left as they were. -/
def execVcmp (h : Head) (d a b : Fld) (m : BitVec 3) (t : Fmt) (c : FCond) (s : State) := runU h (do
  check1 [(.vec, d), (.vec, a), (.vec, b)]
  let w := fmtWidth t
  let n := 512 / w
  let (vs, mask) ← readVs w [a, b] m
  let x (k i : Nat) : Nat := ((vs.map (·.xs)).getD k []).getD i 0
  let out (i : Nat) : Bool × Flags := cmpLane t c (x 0 i) (x 1 i)
  raiseV (laneFlags n mask fun i => (out i).2)
  let r := (List.range n).foldl (fun r i => if mask.testBit i && (out i).1 then r + 2 ^ i else r) 0
  modTh fun t => (t.setV d.spec.toNat (BitVec.ofNat 512 r)).setVb d.spec.toNat 0#32
  pure .fall) s

/-- Lanes of a where the mask is 1, of b elsewhere. -/
def pickLanes (mask n : Nat) (xs ys : List Nat) : List Nat :=
  (List.range n).map fun i => if mask.testBit i then xs.getD i 0 else ys.getD i 0

def execVsel (h : Head) (d a b : Fld) (m : BitVec 3) (t : Fmt) (s : State) := runU h (do
  check1 [(.vec, d), (.vec, a), (.vec, b)]
  let th ← getTh
  let w := fmtWidth t
  let n := 512 / w
  let (vs, mask) ← readVs w [a, b] m
  let u := vs.getD 0 ⟨[], 0#32, []⟩
  let v := vs.getD 1 ⟨[], 0#32, []⟩
  writeLanes d w (2 ^ 64 - 1) false (pickLanes mask n u.xs v.xs) (bMax u.b v.b) (vTansFor th fun j =>
    (pickLanes mask n (u.tan j).1 (v.tan j).1, bMax (u.tan j).2 (v.tan j).2))
  pure .fall) s

def execVfsgn (h : Head) (d a b : Fld) (m : BitVec 3) (t : FTy) (op : SgnOp) (s : State) := runU h (do
  let one := op == .neg || op == .abs
  let srcs := if one then [a] else [a, b]
  check1 ((.vec, d) :: srcs.map fun f => (.vec, f))
  let th ← getTh
  let f := ftySpec t
  let w := f.width
  let n := 512 / w
  let (vs, mask) ← readVs w srcs m
  let x (k i : Nat) : Nat := ((vs.map (·.xs)).getD k []).getD i 0
  let res := lanewise n mask fun i => fSgn f op (x 0 i) (x 1 i)
  let u := vs.getD 0 ⟨[], 0#32, []⟩
  writeLanes d w mask (m ≠ 0#3) res (bMaxL (vs.map (·.b))) (vTansFor th fun j =>
    (lanewise n mask fun i => sgnTan f (x 0 i) ((u.tan j).1.getD i 0) (res.getD i 0), (u.tan j).2))
  pure .fall) s

/-! ### Conversion (R287) -/

/-- The source lane that feeds a destination lane in part q, if any. -/
def cvtLane (ns nt q i : Nat) : Option Nat :=
  if ns = nt then some i
  else if ns < nt then (if q * ns ≤ i ∧ i < q * ns + ns then some (i - q * ns) else none)
  else some (q * nt + i)

def execVcvt (h : Head) (d a : Fld) (m : BitVec 3) (tgt src : Fmt) (q : BitVec 3) (rc : Rc) (s : State) := runU h (do
  check1 [(.vec, d), (.vec, a)]
  let th ← getTh
  let wt := fmtWidth tgt
  let ws := fmtWidth src
  let nt := 512 / wt
  let ns := 512 / ws
  let t ← getTh
  checkMask m
  regCheck true a.spec
  let bits ← readMask m
  let u := t.vsrc ws a.spec.toNat
  -- the lanes written: active ones of the group
  let mask := (List.range nt).foldl (fun r i =>
    if bits.testBit i && (cvtLane ns nt q.toNat i).isSome then r + 2 ^ i else r) 0
  let cv (xs : List Nat) (i : Nat) : Nat × Flags :=
    cvt src tgt (th.rmode rc) th.sat8 (xs.getD ((cvtLane ns nt q.toNat i).getD 0) 0)
  let res := lanewise nt mask fun i => (cv u.xs i).1
  raiseV (laneFlags nt mask fun i => (cv u.xs i).2)
  let masked : Bool := m ≠ 0#3 || decide (ns < nt)
  match fspec? tgt with
  | some f =>
    let bd (b : Word32) (xs : List Nat) : Word32 := bAdd b (halfUlp f (maxMag f (activeOf mask xs)))
    writeLanes d wt mask masked res (bd u.b res) (vTansFor th fun j =>
      let tr := lanewise nt mask fun i => (cv (u.tan j).1 i).1
      (tr, bd (u.tan j).2 tr))
  | none => writeLanes d wt mask masked res 0#32 []
  pure .fall) s

/-! ### Reductions and scans (R31, R288, R289) -/

/-- A node of the reduction tree: the value, and the first lane and number of lanes below it. -/
structure RNode where
  x  : Nat
  lo : Nat
  n  : Nat
  deriving DecidableEq, Repr

/-- Add neighbours: the next level, with the flags each addition raised over its lanes. -/
def redPair (f : FSpec) (rm : RMode) : List RNode → List RNode × List (Nat × Nat × Flags)
  | p :: q :: r =>
    let (x, fl) := fAdd f rm p.x q.x
    let (ns, fs) := redPair f rm r
    (⟨x, p.lo, p.n + q.n⟩ :: ns, (p.lo, p.n + q.n, fl) :: fs)
  | ns => (ns, [])

/-- The levels above the leaves, and the flags with the lanes they belong to. -/
def redLevels (f : FSpec) (rm : RMode) : Nat → List RNode → List (List RNode) × List (Nat × Nat × Flags)
  | 0, _ => ([], [])
  | k + 1, ns =>
    let (ms, fs) := redPair f rm ns
    let (ls, gs) := redLevels f rm k ms
    (ms :: ls, fs ++ gs)

/-- Tangents of one level from the primals below and above it (R132). -/
def tanPair (f : FSpec) (rm : RMode) : List RNode → List RNode → List Nat → List Nat
  | p :: q :: r, s :: ss, a :: b :: ts => fopTan f rm .add p.x q.x 0 a b 0 s.x :: tanPair f rm r ss ts
  | _, _, _ => []

/-- The tangent levels above the leaves. -/
def tanLevels (f : FSpec) (rm : RMode) : List RNode → List (List RNode) → List Nat → List (List Nat)
  | _, [], _ => []
  | ns, l :: ls, ts =>
    let us := tanPair f rm ns l ts
    us :: tanLevels f rm l ls us

/-- B_n = 2·B_(n−1) + h(max|partials of level n|) (R36). -/
def redBound (f : FSpec) (b : Word32) (levels : List (List Nat)) : Word32 :=
  levels.foldl (fun b l => bSum [bAdd b b, halfUlp f (maxMag f l)]) b

/-- Reduce to lane 0: leaves and their flags, with the leaf bound; tangents likewise. -/
def reduce (f : FSpec) (rm : RMode) (d : Fld) (mask : Nat) (leaves : List Nat) (fls : List Flags) (b0 : Word32)
    (tl : Nat → List Nat × Word32) : M Unit := do
  let th ← getTh
  let w := f.width
  let n := 512 / w
  let ns := (List.range n).map fun i => RNode.mk (leaves.getD i 0) i 1
  let (ls, gs) := redLevels f rm (Nat.log2 n) ns
  raiseV ((List.range n).map fun i =>
    if mask.testBit i then
      gs.foldl (fun a g => if g.1 ≤ i ∧ i < g.1 + g.2.1 then a ||| g.2.2 else a) (fls.getD i 0#5)
    else 0#5)
  let vals := ls.map fun l => l.map (·.x)
  let root (l : List (List Nat)) : List Nat := (l.getLastD []).take 1
  writeLanes d w (2 ^ 64 - 1) false (root vals) (redBound f b0 vals) (vTansFor th fun j =>
    let (ts, tb) := tl j
    let us := tanLevels f rm ns ls ts
    (root us, redBound f tb us))

def execVred (h : Head) (d a : Fld) (m : BitVec 3) (t : FTy) (rc : Rc) (s : State) := runU h (do
  check1 [(.vec, d), (.vec, a)]
  let th ← getTh
  let f := ftySpec t
  let n := 512 / f.width
  let (vs, mask) ← readVs f.width [a] m
  let u := vs.getD 0 ⟨[], 0#32, []⟩
  reduce f (th.rmode rc) d mask (lanewise n mask fun i => u.xs.getD i 0) [] u.b
    fun j => (lanewise n mask fun i => (u.tan j).1.getD i 0, (u.tan j).2)
  pure .fall) s

def execVdot (h : Head) (d a b : Fld) (m : BitVec 3) (t : FTy) (rc : Rc) (s : State) := runU h (do
  check1 [(.vec, d), (.vec, a), (.vec, b)]
  let th ← getTh
  let f := ftySpec t
  let rm := th.rmode rc
  let n := 512 / f.width
  let (vs, mask) ← readVs f.width [a, b] m
  let u := vs.getD 0 ⟨[], 0#32, []⟩
  let v := vs.getD 1 ⟨[], 0#32, []⟩
  let x (i : Nat) := u.xs.getD i 0
  let y (i : Nat) := v.xs.getD i 0
  let leaves := lanewise n mask fun i => (fMul f rm (x i) (y i)).1
  let ms := vs.map fun v => maxMag f (activeOf mask v.xs)
  let bs := vs.map (·.b)
  let b0 := vBound f .mul ms bs (halfUlp f (maxMag f (activeOf mask leaves)))
  reduce f rm d mask leaves (laneFlags n mask fun i => (fMul f rm (x i) (y i)).2) b0 fun j =>
    let tl := lanewise n mask fun i =>
      fopTan f rm .mul (x i) (y i) 0 ((u.tan j).1.getD i 0) ((v.tan j).1.getD i 0) 0 (leaves.getD i 0)
    let act := vs.map fun v => activeOf mask (v.tan j).1
    (tl, vTanBound .mul ms bs (act.map (maxMag f)) [(u.tan j).2, (v.tan j).2] false
      (halfUlp f (maxMag f (activeOf mask tl))))
  pure .fall) s

/-- The inclusive prefix sum over active lanes: lane values with flags. -/
def scanAux (f : FSpec) (rm : RMode) (mask : Nat) : List Nat → Nat → Nat → List (Nat × Flags)
  | [], _, _ => []
  | x :: r, i, s =>
    if mask.testBit i then
      let (y, fl) := fAdd f rm s x
      (y, fl) :: scanAux f rm mask r (i + 1) y
    else (0, 0#5) :: scanAux f rm mask r (i + 1) s

/-- The tangent scan, beside the primal operands and sums. -/
def scanTan (f : FSpec) (rm : RMode) (mask : Nat) : List Nat → List Nat → List Nat → Nat → Nat → Nat → List Nat
  | x :: r, q :: qs, a :: ts, i, s, u =>
    if mask.testBit i then
      let v := fopTan f rm .add s x 0 u a 0 q
      v :: scanTan f rm mask r qs ts (i + 1) q v
    else 0 :: scanTan f rm mask r qs ts (i + 1) s u
  | _, _, _, _, _, _ => []

def execVscan (h : Head) (d a : Fld) (m : BitVec 3) (t : FTy) (rc : Rc) (s : State) := runU h (do
  check1 [(.vec, d), (.vec, a)]
  let th ← getTh
  let f := ftySpec t
  let rm := th.rmode rc
  let (vs, mask) ← readVs f.width [a] m
  let u := vs.getD 0 ⟨[], 0#32, []⟩
  let out := scanAux f rm mask u.xs 0 0
  raiseV (out.map (·.2))
  let res := out.map (·.1)
  let nact := (activeOf mask u.xs).length
  let bd (b : Word32) (xs : List Nat) : Word32 :=
    bAdd (bMul (some (nact, 0)) b) (bMul (some (nact - 1, 0)) (halfUlp f (maxMag f (activeOf mask xs))))
  writeLanes d f.width mask (m ≠ 0#3) res (bd u.b res) (vTansFor th fun j =>
    let tr := scanTan f rm mask u.xs res (u.tan j).1 0 0 0
    (tr, bd (u.tan j).2 tr))
  pure .fall) s

/-! ### Moves (R290) -/

/-- Move lanes: destination lane i takes lane g i of a. -/
def vMove (d a : Fld) (others : List Fld) (m : BitVec 3) (t : Fmt) (g : List VSrc → Nat → Nat) : M Ctl := do
  check1 ((.vec, d) :: (.vec, a) :: others.map fun f => (.vec, f))
  let th ← getTh
  let w := fmtWidth t
  let n := 512 / w
  let (vs, mask) ← readVs w (a :: others) m
  let u := vs.getD 0 ⟨[], 0#32, []⟩
  writeLanes d w mask (m ≠ 0#3) (lanewise n mask fun i => u.xs.getD (g vs i) 0) (bMaxL (vs.map (·.b)))
    (vTansFor th fun j => (lanewise n mask fun i => (u.tan j).1.getD (g vs i) 0, (u.tan j).2))
  pure .fall

def execVmov (h : Head) (d a : Fld) (m : BitVec 3) (t : Fmt) (s : State) := runU h (vMove d a [] m t fun _ i => i) s
def execVperm (h : Head) (d a b : Fld) (m : BitVec 3) (t : Fmt) (s : State) :=
  runU h (vMove d a [b] m t fun vs i => (vs.getD 1 ⟨[], 0#32, []⟩).xs.getD i 0 % (512 / fmtWidth t)) s
def execVbcast (h : Head) (d a : Fld) (m : BitVec 3) (t : Fmt) (k : BitVec 6) (s : State) :=
  runU h (vMove d a [] m t fun _ _ => k.toNat) s

def execVext (h : Head) (d a : Fld) (t : Fmt) (k : BitVec 6) (s : State) := runU h (do
  check1 [(.ws, d), (.vec, a)]
  let th ← getTh
  let w := fmtWidth t
  let (x, _) ← readV a.spec
  writeST d (placeS t (laneN w x k.toNat)) ((List.range th.k).map fun j =>
    if th.sel.contains j then placeS t (laneN w (th.vT j a.spec.toNat) k.toNat) else 0#64)
  pure .fall) s

/-- One lane is written, as by a masked write. -/
def execVins (h : Head) (d a : Fld) (t : Fmt) (k : BitVec 6) (s : State) := runU h (do
  check1 [(.vec, d), (.rs, a)]
  let th ← getTh
  let w := fmtWidth t
  let n := 512 / w
  let x ← readS a
  let one (y : Word) : List Nat := lanewise n (2 ^ k.toNat) fun _ => y.toNat % 2 ^ w
  writeLanes d w (2 ^ k.toNat) true (one x) 0#32 (vTansFor th fun j => (one (th.tanS a j), 0#32))
  pure .fall) s

/-! ### Integers and masks (R291, R292) -/

/-- Lane-wise integer instructions: bound 0 and zero tangents. -/
def vInt (d : Fld) (srcs : List Fld) (m : BitVec 3) (t : Fmt) (g : Nat → Nat → Nat → Nat) : M Ctl := do
  check1 ((.vec, d) :: srcs.map fun f => (.vec, f))
  let w := fmtWidth t
  let n := 512 / w
  let (vs, mask) ← readVs w srcs m
  let x (k i : Nat) : Nat := ((vs.map (·.xs)).getD k []).getD i 0
  writeLanes d w mask (m ≠ 0#3) (lanewise n mask fun i => g i (x 0 i) (x 1 i) % 2 ^ w) 0#32 []
  pure .fall

/-- A result in the range of w bits: wrapped, or clamped under .sat (R20, R291). -/
def clampInt (w : Nat) (sgn sat : Bool) (x : Int) : Nat :=
  let lo : Int := if sgn then -(2 ^ (w - 1) : Nat) else 0
  let hi : Int := if sgn then (2 ^ (w - 1) : Nat) - 1 else (2 ^ w : Nat) - 1
  let y := if sat then max lo (min hi x) else x
  (y % ((2 ^ w : Nat) : Int)).toNat

def isSgn (t : Fmt) : Bool := match intFmt? t with | some (_, s) => s | none => false

def addSubLane (t : Fmt) (sat sub : Bool) (x y : Nat) : Nat :=
  let w := fmtWidth t
  let a := intVal w (isSgn t) x
  let b := intVal w (isSgn t) y
  clampInt w (isSgn t) sat (if sub then a - b else a + b)

def execViadd (h : Head) (d a b : Fld) (m : BitVec 3) (t : Fmt) (sat : Bool) (s : State) :=
  runU h (vInt d [a, b] m t fun _ x y => addSubLane t sat false x y) s
def execVisub (h : Head) (d a b : Fld) (m : BitVec 3) (t : Fmt) (sat : Bool) (s : State) :=
  runU h (vInt d [a, b] m t fun _ x y => addSubLane t sat true x y) s
def execVimul (h : Head) (d a b : Fld) (m : BitVec 3) (t : Fmt) (s : State) :=
  runU h (vInt d [a, b] m t fun _ x y => x * y) s

def logLane (w : Nat) (op : LogOp) (x y : Nat) : Nat :=
  match op with
  | .and => x &&& y
  | .or => x ||| y
  | .xor => x ^^^ y
  | .andn => x &&& (2 ^ w - 1 - y)

def execVlog (h : Head) (d a b : Fld) (m : BitVec 3) (t : Fmt) (op : LogOp) (s : State) :=
  runU h (vInt d [a, b] m t fun _ x y => logLane (fmtWidth t) op x y) s

def shLane (w : Nat) (op : ShKind) (x n : Nat) : Nat :=
  match op with
  | .ll => x * 2 ^ n
  | .rl => x / 2 ^ n
  | .ra => (intVal w true x / (2 ^ n : Nat) % ((2 ^ w : Nat) : Int)).toNat
  | .rot => x / 2 ^ n + x % 2 ^ n * 2 ^ (w - n)

def execVsh (h : Head) (d a b : Fld) (m : BitVec 3) (t : Fmt) (op : ShKind) (s : State) :=
  runU h (vInt d [a, b] m t fun _ x y => shLane (fmtWidth t) op x (y % fmtWidth t)) s
def execViota (h : Head) (d : Fld) (m : BitVec 3) (t : Fmt) (s : State) :=
  runU h (vInt d [] m t fun i _ _ => i) s

def maskW (op : MaskOp) (x y : Word) : Word :=
  match op with
  | .and => x &&& y
  | .or => x ||| y
  | .xor => x ^^^ y
  | .andn => x &&& ~~~y
  | .not => ~~~x

def execVmask (h : Head) (d a b : Fld) (op : MaskOp) (s : State) := runU h (do
  let srcs := if op = .not then [a] else [a, b]
  check1 ((.vec, d) :: srcs.map fun f => (.vec, f))
  let (x, _) ← readV a.spec
  let (y, _) ← if op = .not then pure (0#512, 0#32) else readV b.spec
  writeV d.spec.toNat ((maskW op (x.setWidth 64) (y.setWidth 64)).zeroExtend 512) 0#32 []
  pure .fall) s

end Sys2Proof.Machine
end

