-- ==== Sys2Proof/Machine/Memory.lean ====
section
/-!
DEFINITION. Loads, stores, atomics, fence, sideband words, gather and scatter: opcodes 0x70 to 0x83 but for
publish (R296 to R306).
-/
namespace Sys2Proof.Machine

def szBytes (z : Sz) : Nat := match z with | .b => 1 | .h => 2 | .w => 4 | .dw => 8
def isRel (o : MOrd) : Bool := o == .rel || o == .ar
def isAcq (o : MOrd) : Bool := o == .acq || o == .ar

/-- The address of an access: a + Sext(imm16). -/
def addrOf (x : Word) (imm : BitVec 16) : Word := x + sext 16 imm

/-- The tangents a typed load writes: the planes read, the others +0. -/
def planeTans (ps : List (Nat × Word)) (k : Nat) (xs : List Word) : List Word :=
  (List.range k).map fun j => match (ps.map (·.1)).idxOf? j with
    | some i => xs.getD i 0#64
    | none => 0#64

/-! ### Scalar loads and stores (R296) -/

def execLds (h : Head) (d a : Fld) (typed : Bool) (z : Sz) (imm : BitVec 16) (s : State) := runU h (do
  check1 [(.ws, d), (.rs, a)]
  let ps ← planesOf typed
  let va := addrOf (← readS a) imm
  let n := szBytes z
  let os ← spPlanes n n false (va :: ps.map fun p => va + p.2)
  let vs ← forAll (fun o => do return BitVec.ofNat 64 (← spGet o n).1) os
  let t ← getTh
  writeST d (vs.getD 0 0#64) (planeTans ps t.k vs.tail)
  pure .fall) s

def execSts (h : Head) (a b : Fld) (typed : Bool) (z : Sz) (imm : BitVec 16) (s : State) := runU h (do
  check1 [(.rs, a), (.rs, b)]
  let ps ← planesOf typed
  let va := addrOf (← readS a) imm
  let x ← readS b
  let t ← getTh
  let n := szBytes z
  let os ← spPlanes n n true (va :: ps.map fun p => va + p.2)
  let xs := x :: ps.map fun p => t.tanS b p.1
  let _ ← forAll (fun (p : Nat × Word) => spSet p.1 n (p.2.toNat % 2 ^ (8 * n)) 0#32 false) (os.zip xs)
  pure .fall) s

def execLdd (h : Head) (d a : Fld) (typed : Bool) (o : MOrd) (z : Sz) (imm : BitVec 16) (s : State) := runU h (do
  check1 [(.ws, d), (.rs, a)]
  let ps ← planesOf typed
  let va := addrOf ((← readOps [a]).getD 0 0#64) imm
  let n := szBytes z
  if isRel o then releaseWait
  let pas ← reachPlanes n n .read (va :: ps.map fun p => va + p.2)
  if isAcq o then
    let _ ← forAll (fun pa => acquireWait pa n) pas
  let vs := (← devGets n 0 pas).map fun x => BitVec.ofNat 64 x.1
  let t ← getTh
  writeST d (vs.getD 0 0#64) (planeTans ps t.k vs.tail)
  pure .fall) s

/-- Store the planes of an access: pending, or performed at once for .acq, whose earlier stores to the port
are performed first (R293, R294, R340). -/
def storePlanes (o : MOrd) (n : Nat) (pas : List Nat) (cells : List (List Host.Cell × Word32 × Bool)) : M Unit := do
  if isAcq o then
    let _ ← forAll (fun pa => do
      portOrder pa
      acquireWait pa n) pas
    let _ ← forAll (fun (p : Nat × List Host.Cell × Word32 × Bool) =>
      modify fun (s : State) => s.performNow ⟨0, s.cur, p.1, p.2.1, p.2.2.1, p.2.2.2, none⟩) (pas.zip cells)
  else
    let _ ← forAll (fun (p : Nat × List Host.Cell × Word32 × Bool) =>
      devPend p.1 p.2.1 p.2.2.1 p.2.2.2 none) (pas.zip cells)

def execStd (h : Head) (a b : Fld) (typed : Bool) (o : MOrd) (z : Sz) (imm : BitVec 16) (s : State) := runU h (do
  check1 [(.rs, a), (.rs, b)]
  let ps ← planesOf typed
  let xs ← readOps [a, b]
  let va := addrOf (xs.getD 0 0#64) imm
  let t ← getTh
  let n := szBytes z
  if isRel o then releaseWait
  let pas ← reachPlanes n n .write (va :: ps.map fun p => va + p.2)
  let ys := xs.getD 1 0#64 :: ps.map fun p => t.tanS b p.1
  storePlanes o n pas ((pas.zip ys).map fun p => (cellsOf p.1 (leBytes n p.2.toNat), 0#32, false))
  pure .fall) s

/-! ### Host window (R194, R195, R297) -/

/-- The range and alignment checks of a host-window access: base and offset. -/
def hostCheck (a : Word) (n : Nat) : M Nat := do
  let s ← get
  let (base, len) := match s.part s.th.part with
    | some p => (p.desc.hostBase.toNat, p.desc.hostLen.toNat)
    | none => (0, 0)
  if a.toNat < 0x1040 ∨ len < a.toNat + n then trap 0x49#8 a
  else if a.toNat % n ≠ 0 then trap 0x48#8 a
  else pure (base + a.toNat)

/-- What is noted as the lines that n bytes at an address touch are overwritten, in host memory or in device memory: the lines as
they were, while some queue holds packets (R176). -/
def State.oversWith (s : State) (host : Bool) (a n : Nat) : List (Bool × Nat × Vec) :=
  if !s.queues.any fun e => e.2.live && e.2.head != e.2.tail then []
  else
    let line (b : Nat) : Bool × Nat × Vec :=
      (host, b, BitVec.ofNat 512 (leNat ((if host then s.hostMem else s.mem).run 0#8 b 64)))
    s.overs ++ ((a / 64 * 64) :: (if a / 64 = (a + n - 1) / 64 then [] else [a / 64 * 64 + 64])).map line

/-- Perform a host-window write at the host: its bytes, and the end of its count (R195). -/
def State.hostPerform (s : State) (id : Nat) : State :=
  match s.hostPend.look id with
  | none => s
  | some e =>
    let s := { s with
      overs := match e.bytes with | [] => s.overs | c :: _ => s.oversWith true c.1 e.bytes.length
      hostPend := s.hostPend.del id
      hostMem := e.bytes.foldl (fun (m : Tbl Byte) (c : Host.Cell) => m.put 0#8 c.1 c.2) s.hostMem }
    if (s.threads.look e.thid.toNat).isNone then s
    else ((s.modThr e.thid fun t => { t with outSt := t.outSt - 1 }).poke e.thid).tryFree e.thid

/-- Write down a host-window store the controller has accepted: those of one thread, and those of the queue controller, are
performed in the order in which they came (R170, R293). -/
def State.hostAccept (s : State) (thid : Word32) (part : Nat) (bytes : List Host.Cell) (value : Option Word) : State :=
  let id := s.nextOp
  State.post { s with nextOp := id + 1, hostPend := s.hostPend.ins id ⟨thid, part, bytes, value⟩ }
    (.hostWritePerformed id) (if value.isSome then chanHost else chanHostOf thid) 32

def execLdh (h : Head) (d a : Fld) (z : Sz) (imm : BitVec 16) (s : State) := runU h (do
  check1 [(.ws, d), (.rs, a)]
  let va := addrOf ((← readOps [a]).getD 0 0#64) imm
  let n := szBytes z
  let pa ← hostCheck va n
  let s ← get
  if !s.th.atPort then throw (.proxy s true (.hostAccess va.toNat false))
  else do
    -- the thread sees its own earlier stores: those to these bytes are performed first (R293)
    modify fun s => (s.hostPend.filter fun e => e.2.thid == s.cur &&
      e.2.bytes.any fun c => decide (pa ≤ c.1) && decide (c.1 < pa + n)).foldl (fun s e => s.hostPerform e.1) s
    let s ← get
    writeS d (BitVec.ofNat 64 (leNat (s.hostMem.run 0#8 pa n)))
    pure .fall) s

def execSth (h : Head) (a b : Fld) (z : Sz) (imm : BitVec 16) (s : State) := runU h (do
  check1 [(.rs, a), (.rs, b)]
  let xs ← readOps [a, b]
  let va := addrOf (xs.getD 0 0#64) imm
  let n := szBytes z
  let pa ← hostCheck va n
  let s ← get
  if !s.th.atPort then throw (.proxy s false (.hostAccess va.toNat true))
  else do
    modify fun s => s.hostAccept s.cur s.th.part (cellsOf pa (leBytes n (xs.getD 1 0#64).toNat)) none
    modTh fun t => { t with outSt := t.outSt + 1 }
    pure .fall) s

/-! ### Vector loads and stores (R298) -/

/-- The bytes of a line that bit i of a mask governs. -/
def lineCells (mask pa : Nat) (x : Vec) : List Host.Cell :=
  ((List.range 64).filter fun i => mask.testBit (i / 8)).map fun i => (pa + i, BitVec.ofNat 8 (x.toNat >>> (8 * i)))

/-- Write the lines a vector load read: line and bound of each plane. -/
def writeLines (d : Fld) (m : BitVec 3) (mask : Nat) (ps : List (Nat × Word)) (xs : List (Nat × Word32)) : M Unit := do
  let t ← getTh
  let ln (p : Nat × Word32) : List Nat := lanesOf 64 (BitVec.ofNat 512 p.1)
  let x0 := xs.getD 0 (0, 0#32)
  writeLanes d 64 mask (m ≠ 0#3) (ln x0) x0.2 ((List.range t.k).map fun j =>
    match (ps.map (·.1)).idxOf? j with
    | some i => let x := xs.getD (i + 1) (0, 0#32); (ln x, x.2)
    | none => ([], 0#32))

/-- The planes a vector store writes: line and bound of each. -/
def Thread.lines (t : Thread) (b : Fld) (ps : List (Nat × Word)) : List (Vec × Word32) :=
  let i := b.spec.toNat
  (t.vR i, t.vB i) :: ps.map fun p => (t.vT p.1 i, t.vTb p.1 i)

def execVlds (h : Head) (d a : Fld) (typed : Bool) (m : BitVec 3) (imm : BitVec 16) (s : State) := runU h (do
  check1 [(.vec, d), (.rs, a)]
  checkMask m
  let ps ← planesOf typed
  let va := addrOf (← readS a) imm
  let mask ← readMask m
  let os ← spPlanes 64 64 false (va :: ps.map fun p => va + p.2)
  let xs ← forAll (fun o => spGet o 64) os
  writeLines d m mask ps xs
  pure .fall) s

def execVsts (h : Head) (a b : Fld) (typed : Bool) (m : BitVec 3) (imm : BitVec 16) (s : State) := runU h (do
  check1 [(.rs, a), (.vec, b)]
  checkMask m
  let ps ← planesOf typed
  let va := addrOf (← readS a) imm
  let _ ← readV b.spec
  let mask ← readMask m
  let os ← spPlanes 64 64 true (va :: ps.map fun p => va + p.2)
  let t ← getTh
  let _ ← forAll (fun (p : Nat × Vec × Word32) => modCoreM fun c =>
    if m = 0#3 then c.spPut p.1 64 p.2.1.toNat p.2.2 true
    else
      { c with sp := (lineCells mask p.1 p.2.1).foldl (fun (m : Tbl Byte) (e : Host.Cell) => m.put 0#8 e.1 e.2) c.sp }.setSpB p.1
        (bMax (c.spB p.1) p.2.2))
    (os.zip (t.lines b ps))
  pure .fall) s

def execVldd (h : Head) (d a : Fld) (typed : Bool) (m : BitVec 3) (imm : BitVec 16) (s : State) := runU h (do
  check1 [(.vec, d), (.rs, a)]
  checkMask m
  let ps ← planesOf typed
  let va := addrOf ((← readOps [a]).getD 0 0#64) imm
  let mask ← readMask m
  let pas ← reachPlanes 64 64 .read (va :: ps.map fun p => va + p.2)
  let xs ← devGets 64 0 pas
  writeLines d m mask ps xs
  pure .fall) s

def execVstd (h : Head) (a b : Fld) (typed : Bool) (m : BitVec 3) (imm : BitVec 16) (s : State) := runU h (do
  check1 [(.rs, a), (.vec, b)]
  checkMask m
  let ps ← planesOf typed
  let va := addrOf ((← readOps [a]).getD 0 0#64) imm
  let _ ← readV b.spec
  let mask ← readMask m
  let pas ← reachPlanes 64 64 .write (va :: ps.map fun p => va + p.2)
  let t ← getTh
  let cells := (pas.zip (t.lines b ps)).map fun p => (lineCells mask p.1 p.2.1, p.2.2, decide (m = 0#3))
  storePlanes .plain 64 pas cells
  pure .fall) s

/-! ### Atomics (R299, R300) -/

/-- The value an atomic writes, on operands of 8·n bits. -/
def atNew (op : AtOp) (n : Nat) (old x : Nat) : Nat :=
  let w := 8 * n
  let m := 2 ^ w
  let a := old % m
  let b := x % m
  let lt (sgn : Bool) : Bool := decide (intVal w sgn a < intVal w sgn b)
  match op with
  | .swap => b
  | .add => (a + b) % m
  | .and => a &&& b
  | .or => a ||| b
  | .xor => a ^^^ b
  | .min => if lt true then a else b
  | .max => if lt true then b else a
  | .minu => if lt false then a else b
  | .maxu => if lt false then b else a

def atBytes (dw : Bool) : Nat := if dw then 8 else 4

/-- A read and an optional write of device memory as one step at the home port. -/
def devAtomic (d : Fld) (va : Word) (n : Nat) (o : MOrd) (f : Nat → Option Nat) : M Ctl := do
  if isRel o then releaseWait
  let pa ← devReach va n n .atomic
  portOrder pa
  acquireWait pa n
  let (old, _) ← devGet pa n
  match f old with
  | some x => devSetNow pa n x 0#32
  | none => pure ()
  writeS d (BitVec.ofNat 64 old)
  pure .fall

def execAmod (h : Head) (d a b : Fld) (o : MOrd) (dw : Bool) (op : AtOp) (s : State) := runU h (do
  check1 [(.ws, d), (.rs, a), (.rs, b)]
  let xs ← readOps [a, b]
  let n := atBytes dw
  devAtomic d (xs.getD 0 0#64) n o fun old => some (atNew op n old (xs.getD 1 0#64).toNat)) s

/-- The value a compare-and-swap writes, if the old value is the one expected. -/
def casNew (n : Nat) (b c : Word) (old : Nat) : Option Nat :=
  if old = b.toNat % 2 ^ (8 * n) then some (c.toNat % 2 ^ (8 * n)) else none

def execCasd (h : Head) (d a b c : Fld) (o : MOrd) (dw : Bool) (s : State) := runU h (do
  check1 [(.ws, d), (.rs, a), (.rs, b), (.rs, c)]
  let xs ← readOps [a, b, c]
  let n := atBytes dw
  devAtomic d (xs.getD 0 0#64) n o (casNew n (xs.getD 1 0#64) (xs.getD 2 0#64))) s

/-- A read and an optional write of the own scratchpad as one step. -/
def spAtomic (d : Fld) (va : Word) (n : Nat) (f : Nat → Option Nat) : M Ctl := do
  let o ← spCheck va n n true
  softCheck o n
  let (old, _) ← spGet o n
  match f old with
  | some x => spSet o n x 0#32 false
  | none => pure ()
  writeS d (BitVec.ofNat 64 old)
  pure .fall

def execAmos (h : Head) (d a b : Fld) (dw : Bool) (op : AtOp) (s : State) := runU h (do
  check1 [(.ws, d), (.rs, a), (.rs, b)]
  let x ← readS a
  let y ← readS b
  let n := atBytes dw
  spAtomic d x n fun old => some (atNew op n old y.toNat)) s

def execCass (h : Head) (d a b c : Fld) (dw : Bool) (s : State) := runU h (do
  check1 [(.ws, d), (.rs, a), (.rs, b), (.rs, c)]
  let x ← readS a
  let y ← readS b
  let z ← readS c
  let n := atBytes dw
  spAtomic d x n (casNew n y z)) s

/-! ### Fence (R301) -/

def execFence (h : Head) (sc : Scope) (s : State) := runU h (do
  let s ← get
  if s.fenceDone s.cur sc then pure .fall else waitFor (.fence sc)) s

/-! ### Sideband words, bound words and bank formats (R303, R304) -/

/-- The scratchpad offset of a line or bank, with the stencil check of a load or a store of one line. -/
def spMeta (va : Word) (align : Nat) (write : Bool) : M Nat := do
  if va.toNat % align ≠ 0 then trap 0x48#8 va
  else if Config.spBytes ≤ va.toNat then trap 0x47#8 va
  else do
    let s ← get
    match stencilCause (s.core s.th.core).stencil (spKey s.th.core va.toNat) 64 write with
    | some c => trap c va
    | none => pure va.toNat

def execLdsb (h : Head) (d a : Fld) (tg : SbTgt) (imm : BitVec 16) (s : State) := runU h (do
  check1 [(.ws, d), (.rs, a)]
  let va := addrOf ((← readOps [a]).getD 0 0#64) imm
  let x ← match tg with
    | .dev => do
      let pa ← devReach va 64 64 .side
      let s ← get
      pure ((s.dmSb s.th.core pa).zeroExtend 64)
    | .spb => do
      let o ← spMeta va 64 false
      let s ← get
      pure (((s.core s.th.core).spB o).zeroExtend 64)
    | .fmt => do
      let o ← spMeta va 65536 false
      let s ← get
      pure ((s.core s.th.core).fmtReg (o / 65536))
  writeS d x
  pure .fall) s

/-- A bank format register as a write leaves it: reserved bits zero, format 0x6 stored as 0x7. -/
def fmtStored (x : Word) : Word :=
  let y := x &&& 0x0000000FFFFF000F#64
  if y.toNat % 16 = 6 then y + 1#64 else y

def execStsb (h : Head) (a b : Fld) (tg : SbTgt) (imm : BitVec 16) (s : State) := runU h (do
  check1 [(.rs, a), (.rs, b)]
  let xs ← readOps [a, b]
  let va := addrOf (xs.getD 0 0#64) imm
  let x := xs.getD 1 0#64
  match tg with
  | .dev => do
    let pa ← devReach va 64 64 .write
    devPend pa [] 0#32 false (some (x.setWidth 32))
  | .spb => do
    let o ← spMeta va 64 true
    modCoreM fun c => c.setSpB o (bClean (x.setWidth 32))
  | .fmt => do
    let o ← spMeta va 65536 false
    let s ← get
    if (s.core s.th.core).stencil.any (·.hits (spKey s.th.core o) 65536) then trap 0x81#8 va
    else modCoreM fun c => { c with fmt := c.fmt.ins (o / 65536) (fmtStored x) }
  pure .fall) s

/-! ### Gather and scatter (R305, R306) -/

/-- Addresses of the active lanes in ascending order, each checked. -/
def lanesAt (base : Word) (idx : List Nat) (mask w sc : Nat) (write : Bool) : M (List (Nat × Nat)) :=
  forAll (fun i => do
    let e := base + BitVec.ofNat 64 (idx.getD i 0 * 2 ^ sc)
    if Config.spBytes ≤ e.toNat then trap 0x47#8 e
    else do
      let o ← spCheck e (w / 8) (w / 8) write
      if write then softCheck o (w / 8)
      pure (i, o)) ((List.range idx.length).filter mask.testBit)

def execVgas (h : Head) (d a b : Fld) (m : BitVec 3) (t : Fmt) (sc : BitVec 3) (s : State) := runU h (do
  check1 [(.vec, d), (.rs, a), (.vec, b)]
  let w := fmtWidth t
  let (vs, mask) ← readVs w [b] m
  let x ← readS a
  let es ← lanesAt x ((vs.map (·.xs)).getD 0 []) mask w sc.toNat false
  let rs ← forAll (fun (e : Nat × Nat) => spGet e.2 (w / 8)) es
  let res := (List.range (512 / w)).map fun i => match (es.map (·.1)).idxOf? i with
    | some q => (rs.getD q (0, 0#32)).1
    | none => 0
  writeLanes d w mask (m ≠ 0#3) res (bMaxL (rs.map (·.2))) []
  pure .fall) s

def execVscs (h : Head) (a b c : Fld) (m : BitVec 3) (t : Fmt) (sc : BitVec 3) (s : State) := runU h (do
  check1 [(.rs, a), (.vec, b), (.vec, c)]
  let w := fmtWidth t
  let (vs, mask) ← readVs w [b, c] m
  let x ← readS a
  let es ← lanesAt x ((vs.map (·.xs)).getD 0 []) mask w sc.toNat true
  let v := vs.getD 1 ⟨[], 0#32, []⟩
  let _ ← forAll (fun (e : Nat × Nat) => spSet e.2 (w / 8) (v.xs.getD e.1 0) v.b false) es
  pure .fall) s

end Sys2Proof.Machine
end

