-- ==== Sys2Proof/Machine/Sync.lean ====
section
/-!
DEFINITION. Publish, page migration requests, circular buffers, task counters, barriers and the device
enqueue: opcodes 0x7F and 0x84 to 0x94 (R302, R307 to R314).
-/
namespace Sys2Proof.Machine

/-! ### Publish (R197, R302) -/

/-- v is handed to d, and the count lasts until it has been performed at the host. -/
def execPublish (h : Head) (d : Fld) (s : State) := runU h (do
  check1 [(.ws, d)]
  handOut d
  modify fun s => s.post (.publishApply s.cur d) chanHost 32
  pure .fall) s

/-! ### Page migration requests (R74, R75, R307) -/

/-- An invalidation is sent to every core of a partition; the cores that must reply (R75). -/
def State.shoot (s : State) (part : Nat) (from' : Nat) (va : Option Word) (op : Nat) : List Nat × State :=
  let cs := s.partCores part
  (cs, cs.foldl (fun s c => s.post (.shootdown c va op) (chanPort from' c) 32) s)

/-- Firmware's eviction of a near page begins: the leaf is marked, a far frame taken and the translations of
the page dropped (R74, R75 in reverse). -/
def State.beginEvict (s : State) (core part : Nat) (va : Word) (leaf pte : Nat) (askers : List (Word32 × Fld × Bool)) :
    Option State :=
  match s.farPool with
  | [] => none
  | f :: fs =>
    let op := s.nextOp
    let s := { s with nextOp := op + 1, farPool := fs }
    let s := (s.drainPort leaf (leaf + 8)).setMoving leaf
    let (cs, s) := s.shoot part core (some va) op
    let x : PageOp := ⟨part, va, leaf, core, true, pteAddr pte / 4096, some f, [], cs, false, askers⟩
    let s := { s with pages := s.pages.ins op x }
    some (if cs.isEmpty then s.post (.evictionComplete op) 0 64 else s)

/-- A migration into a frame of the asker's core begins, or the answer that there is no frame: pgmig takes none that a touch
is waiting for. -/
def State.nearAsk (s : State) (id : Word32) (far : Bool) (part : Nat) (va : Word) (dst : Fld) (leaf pte : Nat) : Word ⊕ State :=
  let core := (s.thr id).core
  if (s.core core).frames.isEmpty || s.pages.any (fun e => e.2.core == core && !e.2.evict && e.2.frame.isNone) then .inl 5#64
  else
    let (op, s) := (s.drainPort leaf (leaf + 8)).touchPage core part va leaf pte
    match s.pages.look op with
    | some x => .inr { s with pages := s.pages.ins op { x with askers := x.askers ++ [(id, dst, far)] } }
    | none => .inl 0#64

/-- What a page asked for comes to: the answer, or the machine with its move under way. One that moves already is asked
for again when it has moved; a compressed page expands before it goes to the far tier (log 100). -/
def State.pageAsk (s : State) (id : Word32) (far : Bool) (part : Nat) (va : Word) (dst : Fld) (leaf pte : Nat) : Word ⊕ State :=
  if pteBit pte 63 then .inl 2#64
  else match (if pteBit pte 7 then s.pageOf leaf else none) with
  | some (op, x) => .inr { s with pages := s.pages.ins op { x with askers := x.askers ++ [(id, dst, far)] } }
  | none =>
    if far && !pteBit pte 8 then
      if pteBit pte 6 then .inl 0#64
      else match s.beginEvict (s.thr id).core part va leaf pte [(id, dst, far)] with
        | some s' => .inr s'
        | none => .inl 5#64
    else if !pteBit pte 6 && !pteBit pte 8 then .inl 0#64
    else s.nearAsk id far part va dst leaf pte

/-- What the answer to pgmig is, or the machine with the request under way. -/
def State.pageRequest (s : State) (far : Bool) (va : Word) (dst : Fld) : Word ⊕ State :=
  let t := s.th
  match s.walk t.core t.part (va.toNat % 2 ^ 48) with
  | (.error _, _) => .inl 1#64
  | (.ok l, _) =>
    if pteBit l.pte 63 then .inl 2#64
    else if (t.user && !pteBit l.pte 4) || (!pteBit l.pte 1 && !pteBit l.pte 2) then .inl 3#64
    else if far && l.level ≠ 1 then .inl 4#64
    else s.pageAsk s.cur far t.part va dst l.addr l.pte

def pgmig (far : Bool) (d a : Fld) : M Ctl := do
  check1 [(.ws, d), (.rs, a)]
  let va ← readS a
  if !canonical va then trap 0x45#8 va
  else do
    handOut d
    modify fun s => s.walkRead s.th.core s.th.part (va.toNat % 2 ^ 48)
    modify fun s => match s.pageRequest far va d with
      | .inl x => s.answer s.cur d x
      | .inr s' => s'
    pure .fall

def execPgmigNear (h : Head) (d a : Fld) (s : State) := runU h (pgmig false d a) s
def execPgmigFar (h : Head) (d a : Fld) (s : State) := runI h (some 0x84) (pure ()) (pgmig true d a) s

/-! ### Circular buffers (R95, R96, R308 to R310) -/

/-- A buffer of a core changed: waiters, queued copies into it and pending bookings are looked at again. -/
def State.cbChanged (s : State) (core n : Nat) : State :=
  let s := s.pokeAll fun t => t.core == core && (match t.wait with | .filled c _ => c == n | _ => false)
  let s := (s.copies.filter fun e => e.2.state == .queued && e.2.core == core && e.2.cb == some n).foldl
    (fun s e => s.postOnce (.copyRunning e.1)) s
  s.pokeBooks fun b => b.core == core && b.sheet.lkind == 2#2 && b.sheet.lnum == n

def execCbset (h : Head) (d a : Fld) (size : BitVec 11) (lgn : BitVec 4) (s : State) := runU h (do
  check1 [(.buf, d), (.rs, a)]
  let base ← readS a
  let s ← get
  let core := s.th.core
  let sz := 64 * size.toNat
  let n := 2 ^ lgn.toNat
  let i := d.spec.toNat
  if size.toNat = 0 ∨ 1024 < size.toNat then trap 0x02#8 64#64
  else if lgn.toNat = 0 ∨ 8 < lgn.toNat then trap 0x02#8 75#64
  else if base.toNat % 64 ≠ 0 then trap 0x48#8 base
  else if Config.spBytes < base.toNat + sz * n then trap 0x47#8 (base + BitVec.ofNat 64 (sz * n - 1))
  else if s.copies.any (fun e => e.2.live && e.2.core == core && e.2.cb == some i) then trap 0x81#8 base
  else do
    modCoreM fun c => c.setCb i ⟨base.toNat, sz, n, 0, 0, 0, n, 0⟩
    modify fun s => s.cbChanged core i
    pure .fall) s

def execCbpop (h : Head) (d b : Fld) (s : State) := runU h (do
  check1 [(.ws, d), (.buf, b)]
  let s ← get
  let core := s.th.core
  let i := b.spec.toNat
  let c := (s.core core).cbuf i
  if c.filled = 0 then trap 0x86#8 (BitVec.ofNat 64 i)
  else do
    writeS d (BitVec.ofNat 64 (c.base + c.size * c.head))
    modCoreM fun x => x.setCb i { c with head := (c.head + 1) % c.n, filled := c.filled - 1, out := c.out + 1 }
    modify fun s => s.cbChanged core i
    pure .fall) s

def execCbpush (h : Head) (d b : Fld) (s : State) := runU h (do
  check1 [(.ws, d), (.buf, b)]
  let s ← get
  let core := s.th.core
  let i := b.spec.toNat
  let c := (s.core core).cbuf i
  if c.out = 0 then trap 0x87#8 (BitVec.ofNat 64 i)
  else do
    writeS d (BitVec.ofNat 64 (c.base + c.size * ((c.head + c.n * c.out - c.out) % c.n)))
    modCoreM fun x => x.setCb i { c with out := c.out - 1, free := c.free + 1 }
    modify fun s => s.cbChanged core i
    pure .fall) s

/-! ### Task counters (R137, R141, R311) -/

/-- The home core and scratchpad offset a task name gives, if it is well formed for a partition. -/
def State.taskHome (s : State) (part : Nat) (name : Word) : Option (Nat × Nat) :=
  let off := name.toNat % 2 ^ 20
  let lc := name.toNat / 2 ^ 32 % 1024
  if name.toNat ≠ lc * 2 ^ 32 + off ∨ off % 128 ≠ 0 then none
  else (s.inPart part lc).map fun c => (c, off)

/-- The message counts until the home port has applied it. -/
def taskSend (name : Word) (op : TaskOp) : M Ctl := do
  let s ← get
  match s.taskHome s.th.part name with
  | none => trap 0xA1#8 name
  | some (c, _) => do
    modTh fun t => { t with outSt := t.outSt + 1 }
    modify fun s => (s.post (.taskMessage s.cur name op) (chanTask s.cur c) 16).traffic s.cur
    pure .fall

def execTenq (h : Head) (a : Fld) (s : State) := runU h (do
  check1 [(.rs, a)]
  taskSend (← readS a) .tenq) s
def execTdec (h : Head) (a : Fld) (s : State) := runU h (do
  check1 [(.rs, a)]
  taskSend (← readS a) .tdec) s
def execTset (h : Head) (a b : Fld) (s : State) := runU h (do
  check1 [(.rs, a), (.rs, b)]
  let x ← readS a
  let n ← readS b
  taskSend x (.tset (n.setWidth 32))) s

/-! ### Barriers (R179 to R181, R312) -/

def execBarArr (h : Head) (d : Fld) (k : BitVec 4) (s : State) := runU h (do
  check1 [(.ws, d)]
  handOut d
  modify fun s => (s.post (.barrierArrival s.cur k d false) (chanThread s.cur s.cur) 16).traffic s.cur
  pure .fall) s

def execBarAw (h : Head) (d : Fld) (k : BitVec 4) (s : State) := runU h (do
  check1 [(.ws, d)]
  emptyCheck d
  modTh fun t => { t with outSt := t.outSt + 1 }
  modify fun s => ((s.startWait s.cur (.arrival k)).post (.barrierArrival s.cur k d true) (chanThread s.cur s.cur) 16).traffic s.cur
  pure .held) s

def execBarWait (h : Head) (d a : Fld) (k : BitVec 4) (s : State) := runU h (do
  check1 [(.ws, d), (.rs, a)]
  let g ← readS a
  let s ← get
  let b := s.barrier s.th.part k.toNat
  if b.gen = g.setWidth 32 then waitFor (.barrier k b.gen false d)
  else do
    writeS d (b.gen.zeroExtend 64)
    pure .fall) s

/-! ### Enqueue (R177, R314) -/

def execQput (h : Head) (d a b : Fld) (s : State) := runU h (do
  check1 [(.ws, d), (.rs, a), (.rs, b)]
  let x ← readS a
  let y ← readS b
  if x.toNat % 32 ≠ 0 then trap 0x48#8 x
  else if y.toNat % 64 ≠ 0 then trap 0x48#8 y
  else if Config.spBytes < x.toNat + 32 then trap 0x47#8 x
  else if Config.spBytes < y.toNat + 64 then trap 0x47#8 y
  else do
    let o ← spCheck x 32 32 false
    let p ← spCheck y 64 64 false
    emptyCheck d
    let (cap, _) ← spGet o 32
    let (pk, _) ← spGet p 64
    modTh fun t => { t with outSt := t.outSt + 1 }
    modify fun s => ((s.startWait s.cur (.qput d)).post
      (.qputRequest s.cur d x (BitVec.ofNat 256 cap) (BitVec.ofNat 512 pk)) 0 32).traffic s.cur
    pure .held) s

end Sys2Proof.Machine
end

