-- ==== Sys2Proof/Machine/Tracer.lean ====
section
/-!
DEFINITION. The tracer (R83 to R96, R380): engine addresses, sections and pieces, stencil registration,
slots, the movement of one line with its conversion, and the end of a copy or batten load.
-/
namespace Sys2Proof.Machine

/-! ### Addresses as engines know them: device and scratchpad below 2^47, host, peer ports -/

def hostKey (a : Nat) : Nat := 2 ^ 70 + a
def peerKey (port a : Nat) : Nat := 2 ^ 80 + port * 2 ^ 64 + a
def isSpKey (k : Nat) : Bool := decide (k < 2 ^ 39) && decide (0x1E000000 ≤ k % 2 ^ 29)
def isDevKey (k : Nat) : Bool := decide (k < 2 ^ 47) && !isSpKey k
/-- The core whose stencil holds a piece; a far piece is held at the issuing core. -/
def keyCore (issuer k : Nat) : Nat := if isFar k then issuer else homeCore k

def State.keyBytes (s : State) (k n : Nat) : List Byte :=
  if 2 ^ 80 ≤ k then s.peerMem.run 0#8 (k - 2 ^ 80) n
  else if 2 ^ 70 ≤ k then s.hostMem.run 0#8 (k - 2 ^ 70) n
  else if isSpKey k then (s.core (homeCore k)).spRead (k % 2 ^ 29 - 0x1E000000) n
  else s.mem.run 0#8 k n
/-- The bound of the line an address lies in (R39, R41). -/
def State.keyBound (s : State) (k : Nat) : Word32 :=
  if isSpKey k then (s.core (homeCore k)).spB (k % 2 ^ 29 - 0x1E000000)
  else if isDevKey k then sbBound (s.sbWord k) else 0#32
def State.keyPoison (s : State) (k : Nat) : Bool := isDevKey k && sbPoison (s.sbWord k)
/-- An engine writes bytes of one line with a bound, which replaces the line's when it has now written all of it (full); less than a
line at once is a read-modify-write, and bvalid and poison reach device memory only (R40, R41, R79, R80). -/
def State.keyWrite (s : State) (k : Nat) (bs : List Byte) (full : Bool) (b : Word32) (bvalid poison : Bool) : State :=
  if 2 ^ 80 ≤ k then { s with peerMem := s.peerMem.putRun 0#8 (k - 2 ^ 80) bs }
  else if 2 ^ 70 ≤ k then
    { s with hostMem := s.hostMem.putRun 0#8 (k - 2 ^ 70) bs, overs := s.oversWith true (k - 2 ^ 70) bs.length }
  else if isSpKey k then s.modCore (homeCore k) fun c => c.spPut (k % 2 ^ 29 - 0x1E000000) bs.length (leNat bs) b full
  else
    let s := ((if bs.length = 64 then s.renewed k else s.eccRead k).dmWrite k bs).activate k
    s.setSb k (if full then mkSb b bvalid 0#2 poison
      else sbAfter (s.sbWord k) false b ||| (if poison then 0x10#32 else 0#32))

/-! ### Translation of engine accesses (R68 to R71, R74) -/

/-- Where a byte of device memory lies for an engine: a far page is served in place; a page that moves or is
compressed is waited for (no cause). -/
def State.engineAt (s : State) (core part : Nat) (user : Bool) (va : Word) (acc : Acc) :
    Except (Option Byte) Nat × State :=
  match s.translate core part user va acc with
  | (.ok pa, s') => (.ok pa, s')
  | (.fault c, s') => (.error (some c), s')
  | (.touch leaf pte, s') =>
    if pteBit pte 7 || pteBit pte 8 then (.error none, ((s'.drainPort leaf (leaf + 8)).touchPage core part va leaf pte).2)
    else
      let pa := pteAddr pte + va.toNat % 4096
      if s'.absent pa then (.error (some 0x46#8), s')
      else
        let pte' := pte ||| 1024 ||| (if acc.writes then 2048 else 0)
        (.ok pa, if pte' = pte then s' else s'.pteOr core (leaf + 1) (if acc.writes then 12#8 else 4#8))

/-! ### Segments and pieces (R87) -/

/-- A run of bytes: its offset in the operation's range, its address and its length. -/
abbrev Seg := Nat × Nat × Nat

/-- Add a run, in one piece with the last when it continues it on the same core. -/
def pushSeg (issuer : Nat) (segs : List Seg) (off key len : Nat) : List Seg :=
  match segs.getLast? with
  | some (o, k, l) =>
    if o + l = off ∧ k + l = key ∧ keyCore issuer k = keyCore issuer key then segs.dropLast ++ [(o, k, l + len)]
    else segs ++ [(off, key, len)]
  | none => [(off, key, len)]

/-- Pieces of one range in a section (R87, R88). -/
def piecesMax : Nat := 8

/-- Translate a device range page by page, until it ends or would have more than 8 pieces: a page behind the eighth belongs
to the next section, whatever its translation gives. -/
def devSegs (core part : Nat) (user : Bool) (acc : Acc) :
    Nat → State → List Seg → Nat → Word → Nat → Except (Option Byte) (List Seg) × State
  | 0, s, segs, _, _, _ => (.ok segs, s)
  | n + 1, s, segs, off, va, len =>
    if len = 0 then (.ok segs, s)
    else
      let c := min len (4096 - va.toNat % 4096)
      match s.engineAt core part user va acc with
      | (.error e, s') => if piecesMax ≤ segs.length then (.ok segs, s) else (.error e, s')
      | (.ok pa, s') =>
        let segs' := pushSeg core segs off pa c
        if piecesMax < segs'.length then (.ok segs, s)
        else devSegs core part user acc n s' segs' (off + c) (va + BitVec.ofNat 64 c) (len - c)

/-- The address of an offset of an operation's range. -/
def segAt : List Seg → Nat → Option Nat
  | [], _ => none
  | (o, k, l) :: r, off => if o ≤ off ∧ off < o + l then some (k + (off - o)) else segAt r off

/-- The offset that segments reach, in whole lines. -/
def segEnd (segs : List Seg) (start : Nat) : Nat :=
  match segs.getLast? with
  | some (o, _, l) => (o + l + 63) / 64 * 64
  | none => start

/-- The pieces of the bytes from lo to hi: only device memory and scratchpads have a stencil. -/
def piecesOf (issuer op : Nat) (write : Bool) (lo hi : Nat) (segs : List Seg) : List (Nat × Piece) :=
  segs.filterMap fun (o, k, l) =>
    let a := max o lo
    let b := min (o + l) hi
    if a < b ∧ k < 2 ^ 47 then some (keyCore issuer k, ⟨k + (a - o), k + (b - o), write, op⟩) else none

def insertPiece (x : Nat × Piece) : List (Nat × Piece) → List (Nat × Piece)
  | [] => [x]
  | y :: r => if x.2.lo ≤ y.2.lo then x :: y :: r else y :: insertPiece x r
/-- Pieces in ascending physical address (R88). -/
def sortPieces (xs : List (Nat × Piece)) : List (Nat × Piece) := xs.foldr insertPiece []

/-- Two pieces of one operation lie on the same bytes (R87). -/
def aliased : List (Nat × Piece) → Bool
  | [] => false
  | x :: r => r.any (fun y => decide (x.2.lo < y.2.hi) && decide (y.2.lo < x.2.hi)) || aliased r

/-! ### Registration (R88, R380) -/

/-- Register pieces in ascending order: own-core pieces at once as far as they go, and a request for the first one elsewhere. The
pieces not yet registered remain, those of the own core above one elsewhere too (log 125). -/
def register (core : Nat) : List (Nat × Piece) → State → List (Nat × Piece) × State
  | [], s => ([], s)
  | (c, p) :: r, s =>
    if c = core then
      let k := s.core core
      if canRegister k.stencil k.stWait p then
        register core r ((s.setCore core { k with stencil := k.stencil ++ [p] }).drainPort p.lo p.hi)
      else ((c, p) :: r, s.setCore core { k with stWait := k.stWait ++ [p] })
    else ((c, p) :: r, s.post (.registrationRequest p.op c) (chanPort core c) 16)

/-- An operation goes on registering; with every piece registered it is ready. -/
def State.regNext (s : State) (op : Nat) : State :=
  match s.copies.look op with
  | some o =>
    let (todo, s) := register o.core o.todo s
    let s := { s with copies := s.copies.ins op { o with todo := todo, ready := todo.isEmpty } }
    if todo.isEmpty then s.postOnce (.copyRunning op) else s
  | none =>
    match s.hires.look op with
    | some h =>
      let (todo, s) := register h.core h.todo s
      let s := { s with hires := s.hires.ins op { h with todo := todo, ready := todo.isEmpty, arrives := s.now + 32 } }
      if todo.isEmpty then s.post (.hirePlacement (ridgeOf h.core)) 0 32 else s
    | none => s

/-- A piece that waited is registered: its operation goes on, told by a grant when it is on another core. -/
def State.granted (s : State) (op core : Nat) : State :=
  match s.copies.look op with
  | some o =>
    if o.core = core then
      State.regNext { s with copies := s.copies.ins op { o with todo := o.todo.tail } } op
    else s.post (.registrationGrant op core) (chanPort core o.core) 16
  | none =>
    match s.hires.look op with
    | some h => State.regNext { s with hires := s.hires.ins op { h with todo := h.todo.tail } } op
    | none => s

/-- One pass over the waiting pieces of a stencil, oldest first: those that register, and those that stay. -/
def serveWaiters : List Piece → List Piece → List Piece → List Piece × List Piece × List Piece
  | [], st, stay => (st, stay, [])
  | p :: r, st, stay =>
    if canRegister st stay p then
      let (st', stay', got) := serveWaiters r (st ++ [p]) stay
      (st', stay', p :: got)
    else serveWaiters r st (stay ++ [p])

/-- Waiting pieces take what has come free (R88). -/
def State.serveStencil (s : State) (core : Nat) : State :=
  let k := s.core core
  let (st, stay, got) := serveWaiters k.stWait k.stencil []
  let s := s.setCore core { k with stencil := st, stWait := stay }
  got.foldl (fun s p => (s.drainPort p.lo p.hi).granted p.op core) s

/-- An operation releases every entry it holds and withdraws every piece that waits (R90). -/
def State.release (s : State) (op : Nat) : State :=
  (s.cores.filter fun e => (e.2.stencil ++ e.2.stWait).any (·.op == op)).foldl (fun s e =>
    let s := s.modCore e.1 fun c => { c with stencil := c.stencil.filter (·.op != op)
                                             stWait := c.stWait.filter (·.op != op) }
    s.postOnce (.stencilRegister e.1)) s

/-! ### Calendars as the tracer sees them (R83, R114) -/

/-- Every interval of a hall's calendars, with the booking it belongs to. -/
def State.intervals (s : State) (ridge : Nat) : List (Nat × Ival) :=
  (s.books ridge).flatMap fun e => e.2.ivals.map fun i => (e.1, i)

/-- A tracer slot is held by a committed booking over a tick. -/
def State.slotHeld (s : State) (core n tick : Nat) : Bool :=
  (s.intervals (ridgeOf core)).any fun e => e.2.res == .slot core n && decide (e.2.lo ≤ tick) && decide (tick ≤ e.2.hi)
def State.slotUsed (s : State) (core n : Nat) : Bool :=
  s.copies.any fun e => e.2.core == core && e.2.slot == some n && e.2.live
/-- The booked entry of a copy has opened: its window start, as it stands, has come (R83, R125). -/
def State.entryOpen (s : State) (o : CopyOp) : Bool :=
  match o.booked with
  | none => true
  | some (h, ent) => match s.bookOf h with
    | some (_, _, b) => match b.sheet.ents[ent]? with
      | some e => b.state != .pending && b.state != .saved && decide (b.start + e.off ≤ s.tick.toNat) && decide (o.start ≤ s.tick.toNat)
      | none => false
    | none => false
/-- A booked copy whose entry has opened waits for a slot, even past the entry's last tick (R83). -/
def State.slotAwaited (s : State) (core n : Nat) : Bool :=
  s.copies.any fun e => e.2.core == core && e.2.state == .queued && e.2.booked.isSome && e.2.bslot == some n && s.entryOpen e.2
/-- The lowest slot an unbooked copy may take. -/
def State.freeSlot (s : State) (core : Nat) : Option Nat :=
  (List.range 32).find? fun n => !s.slotUsed core n && !s.slotHeld core n s.tick.toNat && !s.slotAwaited core n

/-- The slot a booking's entry holds. -/
def Booking.slotOf (b : Booking) (ent : Nat) : Option Nat :=
  b.ivals.findSome? fun i => match i.res with
    | .slot _ n => if i.ent = ent then some n else none
    | _ => none

/-- The rest of an entry's ticks is freed (R123, R125): those after the current tick. -/
def State.freeEntry (s : State) (ridge idx ent : Nat) (keep : Res → Bool) : State :=
  match (s.books ridge).look idx with
  | none => s
  | some b =>
    let now := s.tick.toNat
    let cut (i : Ival) : List Ival :=
      if i.ent ≠ ent ∨ keep i.res then [i]
      else if now < i.lo then []
      else [{ i with hi := min i.hi now }]
    (s.setBook ridge idx { b with ivals := b.ivals.flatMap cut }).postOnce (.hirePlacement ridge)

/-! ### Sections (R87, R88) -/

def CopyOp.sWidth (o : CopyOp) : Nat := if o.sfmt = .raw then fmtWidth o.dfmt else fmtWidth o.sfmt
def CopyOp.dWidth (o : CopyOp) : Nat := if o.dfmt = .raw then fmtWidth o.sfmt else fmtWidth o.dfmt
/-- Bytes move unchanged (R91, R324). -/
def CopyOp.plain (o : CopyOp) : Bool := o.sfmt == o.dfmt || o.sfmt == .raw || o.dfmt == .raw
/-- Source bytes of a line as it is counted: 64 bytes on the side that has more lines (R86). -/
def CopyOp.perLine (o : CopyOp) : Nat := 64 * o.sWidth / max o.sWidth o.dWidth
/-- Its destination bytes, and how many of them make a destination line. -/
def CopyOp.dPerLine (o : CopyOp) : Nat := 64 * o.dWidth / max o.sWidth o.dWidth
def CopyOp.parts (o : CopyOp) : Nat := max 1 (64 / o.dPerLine)
def CopyOp.mult (o : CopyOp) : Nat := max 1 o.members.length

/-- Columns of the tile an array's batten feeds (R318). -/
def batCols (key : Nat) : Nat := if key / 4 < 64 then 128 else 256

/-- The source ranges of an operation: offset among its lines, address in the space, length. A batten load
reads its planes, and for FP4 the scale planes of the bank (R98, R304, R321). -/
def CopyOp.srcParts (o : CopyOp) : List Seg :=
  match o.kind with
  | .copy | .copyr => [(0, o.src.addr, o.count * o.sWidth / 8)]
  | .mcast => [(0, o.src.addr, o.count)]
  | .batld =>
    let len := o.K * batCols o.batKey * fmtWidth o.sfmt / 8
    let js := List.range (o.kb + 1)
    let els := js.map fun j => (len * j, (o.src.addr + j * o.tstride) % 2 ^ 64, len)
    if o.sfmt ≠ .f4 then els
    else
      let sl := len / 4
      let step := (sl + 63) / 64 * 64
      let e0 := len * (o.kb + 1)
      els ++ js.map (fun j => (e0 + step * j, scaleAddr o.regs (o.src.addr + j * o.tstride), sl)) ++
        [(e0 + step * (o.kb + 1), bandAddr o.regs o.src.addr 0, 2 * ((o.K + 63) / 64))]

/-- The segments of one endpoint from an offset on. -/
def State.endSegs (s : State) (o : CopyOp) (e : Endpoint) (acc : Acc) :
    List Seg → Nat → List Seg → Except (Option Byte) (List Seg) × State
  | [], _, segs => (.ok segs, s)
  | (off, a, len) :: r, start, segs =>
    if off + len ≤ start then s.endSegs o e acc r start segs
    else
      let d := start - off
      let off' := off + d
      let a' := a + d
      let len' := len - d
      let push (k : Nat) : List Seg := pushSeg o.core segs off' k len'
      if e.space = 2#3 then
        match devSegs o.core o.part o.user acc (len' / 4096 + 2) s segs off' (BitVec.ofNat 64 a') len' with
        | (.error c, s') => (.error c, s')
        | (.ok segs', s') =>
          if segEnd segs' start < off + len then (.ok segs', s') else s'.endSegs o e acc r (off + len) segs'
      else if e.space = 4#3 then
        if s.peerFail.contains e.port then (.error (some 0xF3#8), s)
        else match s.peers.look e.port with
          | none => (.error (some 0xF2#8), s)
          | some q =>
            if q.part ≠ o.part then (.error (some 0xF2#8), s)
            else if q.remote < a' + len' then (.error (some 0xF1#8), s)
            else if piecesMax < (push (peerKey e.port a')).length then (.ok segs, s)
            else s.endSegs o e acc r (off + len) (push (peerKey e.port a'))
      else
        let k := if e.space = 3#3 then hostKey a' else spKey e.core a'
        if piecesMax < (push k).length then (.ok segs, s) else s.endSegs o e acc r (off + len) (push k)

/-! ### The end of an operation (R86, R90, R95, R320) -/

/-- Advance the generation of a batten and drop what it holds (R320). -/
def State.freeBatten (s : State) (key state : Nat) (why : Byte) : State :=
  match s.battens.look key with
  | none => s
  | some b =>
    { s with battens := s.battens.ins key { b with gen := nextGen b.gen, state := state, why := why, data := [],
                                                   planeBounds := [] } }

def batHandle (key : Nat) (b : Batten) : Word :=
  b.gen ++ (BitVec.ofNat 16 (key / 4)) ++ b.thid

/-- The elements of a batten's plane: data key of plane p, scale planes and bands (MODEL). -/
def batPlane (p : Nat) : Nat := p * 2 ^ 28
def batBlk (p : Nat) : Nat := p * 2 ^ 28 + 2 ^ 27
def batBand : Nat := 2 ^ 40

/-- The bits of an element of a byte store laid out row-major. -/
def elemAt (t : Tbl Byte) (base w i : Nat) : Nat :=
  if w = 4 then (t.lookD (base + i / 2) 0#8).toNat / 16 ^ (i % 2) % 16
  else leNat (t.run 0#8 (base + i * (w / 8)) (w / 8))

/-- An element is a zero of its format. -/
def isZeroEl (f : Fmt) (x : Nat) : Bool := x % 2 ^ (fmtWidth f - 1) == 0

/-- R98, R321: at most N non-zero elements in each 64 rows of a column, and tangents zero wherever B is. -/
def Batten.sparseOk (b : Batten) (key : Nat) : Bool :=
  if b.sp = 0#2 then true
  else
    let n := batCols key
    let w := fmtWidth b.fmt
    let keep := if b.sp = 1#2 then 32 else 16
    let nz (p k j : Nat) : Bool := !isZeroEl b.fmt (elemAt b.data (batPlane p) w (k * n + j))
    (List.range n).all fun j => (List.range ((b.K + 63) / 64)).all fun g =>
      let ks := (List.range (min 64 (b.K - 64 * g))).map fun i => 64 * g + i
      decide ((ks.filter fun k => nz 0 k j).length ≤ keep) &&
        ks.all fun k => nz 0 k j || (List.range b.kb).all fun p => !nz (p + 1) k j

/-- One more landing on a counter, in whichever copy of the context is current (R45, R90, R103). -/
def State.landOn (s : State) (thid : Word32) (l : Nat) : State :=
  let s := s.modThr thid fun t => t.setL l (t.lR l + 1#32)
  (s.poke thid).pokeBooks fun b => b.thid == thid

/-- The filled count of a buffer grows over the copies into it that are done, in issue order, up to the first one still under way,
which one that is squashed and keeps its slot is too (R95). -/
def State.countFilled (s : State) (core cb : Nat) : State :=
  let mine := s.copies.filter fun e => e.2.core == core && e.2.cb == some cb &&
    (e.2.live || e.2.uncounted || (e.2.state == .squashed && e.2.entered))
  let ripe := mine.takeWhile fun e => e.2.uncounted
  if ripe.isEmpty then s
  else
    let s := ripe.foldl (fun s e => { s with copies :=
        if (s.threads.look e.2.thid.toNat).isSome then s.copies.ins e.1 { e.2 with uncounted := false } else s.copies.del e.1 }) s
    let s := s.modCore core fun c => c.setCb cb { c.cbuf cb with filled := (c.cbuf cb).filled + ripe.length }
    s.cbChanged core cb

/-- Copies of a core that wait for a slot take the free ones, oldest first; booked ones look again (R83). -/
def State.serveSlots (s : State) (core : Nat) : State :=
  (s.copies.filter fun e => e.2.core == core && e.2.state == CopyState.queued).foldl (fun s e =>
    match e.2.slot, e.2.booked with
    | none, none => match s.freeSlot core with
      | some n => State.postOnce { s with copies := s.copies.ins e.1 { e.2 with slot := some n } } (.copyRunning e.1)
      | none => s
    | _, some _ => s.postOnce (.copyRunning e.1)
    | _, none => s) s

/-- An operation ends: ranges released, then counters, then any cause; its slot is free at once. -/
def State.endCopy (s : State) (op : Nat) (st : CopyState) (why : Byte) : State :=
  match s.copies.look op with
  | none => s
  | some o =>
    let s := s.release op
    let s := { s with copies := s.copies.ins op { o with state := st, why := why, slot := none, todo := [],
                                                         uncounted := st == CopyState.done && o.cb.isSome } }
    let s := s.modThr o.thid fun t => { t with outCp := t.outCp - 1 }
    let s := match o.kind, st with
      | .batld, .done =>
        match s.battens.look o.batKey with
        | some b =>
          if b.sparseOk o.batKey then
            State.landOn { s with battens := s.battens.ins o.batKey { b with state := 1 } } o.thid o.lnum
          else (s.freeBatten o.batKey 2 1#8).postCause o.thid 0x85#8 o.batHandle
        | none => s
      | .batld, .poisoned => (s.freeBatten o.batKey 2 2#8).postCause o.thid 0x85#8 o.batHandle
      | .batld, .faulted => (s.freeBatten o.batKey 2 why).postCause o.thid 0x85#8 o.batHandle
      | _, .done => s.landOn o.thid o.lnum
      | _, .faulted => s.postCause o.thid 0x85#8 o.handle
      | _, _ => s
    let s := match o.cb with
      | some c => (s.countFilled o.core c).cbChanged o.core c
      | none => s
    let s := match o.booked with
      | some (h, ent) => match s.bookOf h with
        | some (r, i, b) => if b.state == BookState.started then s.freeEntry r i ent (fun _ => false) else s
        | none => s
      | none => s
    ((s.serveSlots o.core).poke o.thid).tryFree o.thid

/-! ### Sections -/

/-- A copy into a circular buffer knows its slot: it has taken one, or it is the first of its buffer to enter running and a
slot is free (R95). -/
def State.slotKnown (s : State) (op : Nat) (o : CopyOp) : Bool :=
  match o.cb with
  | none => true
  | some c => o.entered ||
      (!s.copies.any (fun e => decide (e.1 < op) && e.2.state == .queued && !e.2.entered && e.2.core == o.core && e.2.cb == some c) &&
        decide (0 < ((s.core o.core).cbuf c).free))

/-- The destination of a copy that takes the tail slot of its buffer (R95). -/
def State.tailSlot (s : State) (o : CopyOp) : CopyOp :=
  match o.cb with
  | none => o
  | some c =>
    if o.entered then o
    else
      let b := (s.core o.core).cbuf c
      { o with dst := { o.dst with core := o.core, addr := b.base + b.size * b.tail } }

/-- The destination ranges of an operation (R323, R327, R321). -/
def CopyOp.dstParts (o : CopyOp) : List Seg :=
  match o.kind with
  | .copy | .copyr => [(0, o.dst.addr, o.count * o.dWidth / 8)]
  | .mcast | .batld => []

/-- The pieces of a multicast's members (R327). -/
def CopyOp.memberPieces (o : CopyOp) (op : Nat) : List (Nat × Piece) :=
  o.members.map fun c => (c, ⟨spKey c o.dst.addr, spKey c o.dst.addr + o.count, true, op⟩)

/-- Translate and register the next section of an operation, or wait for a page that moves; a failure ends it faulted (R86,
R87). A copy into a circular buffer whose slot is not known yet registers its source as far as the buffer (R88, R95). -/
def State.formSection (s : State) (op : Nat) : State :=
  match s.copies.look op with
  | none => s
  | some o =>
    let known := s.slotKnown op o
    let o := if known then s.tailSlot o else o
    let lo := o.secHi
    match s.endSegs o o.src .read o.srcParts (lo * o.perLine) [] with
    | (.error (some c), s) => State.endCopy { s with copies := s.copies.ins op o } op .faulted c
    | (.error none, s) => s.postOnce (.copyRunning op) 64
    | (.ok ss, s) =>
      let dparts := if known then o.dstParts else []
      match s.endSegs o o.dst .write dparts (lo * o.dPerLine) [] with
      | (.error (some c), s) => State.endCopy { s with copies := s.copies.ins op o } op .faulted c
      | (.error none, s) => s.postOnce (.copyRunning op) 64
      | (.ok ds, s) =>
        let hi := min o.total (segEnd ss 0 / o.perLine)
        -- a slot not known yet registers in its place: of the source only what lies below the whole buffer goes before it
        let low (x : Nat × Piece) : Bool := known || decide (x.2.lo ≤ spKey o.core ((s.core o.core).cbuf (o.cb.getD 0)).base)
        let hi := if dparts.isEmpty then hi else min hi (segEnd ds 0 / o.dPerLine)
        let ps := piecesOf o.core op false (lo * o.perLine) (hi * o.perLine) ss ++
          piecesOf o.core op true (lo * o.dPerLine) (hi * o.dPerLine) ds ++ o.memberPieces op
        let o := { o with secLo := lo, secHi := hi, srcSeg := ss, dstSeg := ds, todo := (sortPieces ps).takeWhile low,
                          ready := false, started := false }
        let s := { s with copies := s.copies.ins op o }
        if aliased ps then s.endCopy op .faulted 0x83#8 else s.regNext op

/-- A copy into a circular buffer that has registered its source as far as the buffer goes on with the slot it can take now, and
then with the rest of its source, in ascending address order (R88, R95): it waits while none is free or an earlier copy of the
buffer has still to enter running. -/
def State.formSlot (s : State) (op : Nat) (o : CopyOp) : State :=
  if !s.slotKnown op o then s
  else
    let o := s.tailSlot o
    match s.endSegs o o.dst .write o.dstParts (o.secLo * o.dPerLine) [] with
    | (.ok ds, s) =>
      let src := piecesOf o.core op false (o.secLo * o.perLine) (o.secHi * o.perLine) o.srcSeg
      let base := spKey o.core ((s.core o.core).cbuf (o.cb.getD 0)).base
      let ps := piecesOf o.core op true (o.secLo * o.dPerLine) (o.secHi * o.dPerLine) ds
      let o := { o with dstSeg := ds, todo := sortPieces (ps ++ (sortPieces src).dropWhile fun x => decide (x.2.lo ≤ base)),
                        ready := false }
      let s := { s with copies := s.copies.ins op o }
      if aliased (src ++ ps) then s.endCopy op .faulted 0x83#8 else s.regNext op
    | (.error _, s) => s

/-- The core whose home port serves the source of the current section. -/
def CopyOp.srcCore (o : CopyOp) : Nat :=
  match segAt o.srcSeg (o.secLo * o.perLine) with
  | some k => if k < 2 ^ 47 then keyCore o.core k else o.core
  | none => o.core
def CopyOp.dstCore (o : CopyOp) : Nat :=
  match segAt o.dstSeg (o.secLo * o.dPerLine) with
  | some k => if k < 2 ^ 47 then keyCore o.core k else o.core
  | none => o.core

/-- The lines of the section start: at once, or by a message to the core of the source (R380). -/
def State.goCopy (s : State) (op : Nat) (o : CopyOp) : State :=
  let o := { o with state := .running, entered := true, started := o.srcCore == o.core }
  let s := { s with copies := s.copies.ins op o }
  if o.started then s.postOnce (.tracerLine o.core) else s.post (.startMessage op) (chanPort o.core o.srcCore) 16

/-- The slot a queued copy runs in: its booking's, once the entry has opened and the slot is free, else the lowest free one
(R83). -/
def State.slotFor (s : State) (o : CopyOp) : Option Nat :=
  match o.booked with
  | some _ => match o.bslot with
    | some n => if s.entryOpen o && !s.slotUsed o.core n then some n else none
    | none => none
  | none => if o.slot.isSome then o.slot else s.freeSlot o.core

/-- R86: queued to running, when every range of the section is registered, the booked start has come, a slot is there and a
circular-buffer destination has a free one; a later section starts its lines. -/
def State.runCopy (s : State) (op : Nat) : State :=
  match s.copies.look op with
  | none => s
  | some o =>
    if !o.live || o.stop.isSome then s
    else if o.secLo = o.secHi then s.formSection op
    else if !o.ready || o.started then s
    else if o.cb.isSome && o.dstSeg.isEmpty then s.formSlot op o
    else if o.state = .running then s.goCopy op o
    else match s.slotFor o with
      | none => s
      | some n =>
        let o := { o with slot := some n }
        match (if o.entered then none else o.cb) with
        | none => s.goCopy op o
        | some c =>
          let b := (s.core o.core).cbuf c
          if b.free = 0 then s
          else
            let s := s.modCore o.core fun k => k.setCb c { b with tail := (b.tail + 1) % b.n, free := b.free - 1 }
            (s.goCopy op o).cbChanged o.core c

/-! ### Handles and lines (R85, R86) -/

def State.battenOf (s : State) (part : Nat) (h : Word) (ofPart : Nat → Nat → Option Nat) : Option (Nat × Batten) :=
  let arr := h.toNat / 2 ^ 32 % 128
  match ofPart part arr with
  | none => none
  | some half =>
    match s.battens.look (4 * arr + half) with
    | some b => if batHandle (4 * arr + half) b == h && decide (b.state ≤ 1) then some (4 * arr + half, b) else none
    | none => none

/-- A handle the operation carries no longer matches. -/
def State.copyStale (s : State) (o : CopyOp) : Bool :=
  (match o.booked with
   | some (h, _) => (match s.bookOf h with | some (_, _, b) => b.state == .cancelled | none => true)
   | none => false) ||
  (match o.kind with
   | .batld => match s.battens.look o.batKey with
     | some b => batHandle o.batKey b != o.batHandle
     | none => true
   | .copy | .copyr | .mcast => (s.thr o.thid).copyGen.lookD o.idx 1#16 != o.handle.extractLsb' 48 16)

/-- An operation whose handle has gone stale sends no further line, and ends once every line sent has been performed; the
port of a source on another core sends on until the stop message reaches it (R85). -/
def State.stopStale (s : State) (op : Nat) (o : CopyOp) : State :=
  let here := o.stop.isSome || o.srcCore == o.core || !o.started || o.state != .running
  if here || o.stopAt.any (fun c => decide (c ≤ s.now)) then
    let st := o.stop.getD .revoked
    let s := { s with copies := s.copies.ins op { o with stop := some st } }
    if o.lines = o.sent * o.mult then s.endCopy op st o.why else s
  else if o.stopAt.isSome then s
  else ({ s with copies := s.copies.ins op { o with stopAt := some (s.now + 16) } }.traffic o.thid).post (.tracerLine o.core) 0 16

def State.sweepStale (s : State) (core : Nat) : State :=
  (s.copies.filter fun e => e.2.core == core && e.2.live && (e.2.stop.isSome || s.copyStale e.2)).foldl
    (fun s e => s.stopStale e.1 e.2) s

/-- A running operation that has a line to send. -/
def CopyOp.sends (o : CopyOp) : Bool := o.state == .running && o.started && o.stop.isNone && decide (o.sent < o.secHi)

/-- A bank that a booking has claimed at this tick is shut to every other engine operation (R119). -/
def State.bankShut (s : State) (booked : Option (Word × Nat)) (k : Nat) : Bool :=
  isSpKey k &&
    (s.books (ridgeOf (homeCore k))).any fun e =>
      some (e.2.handle (ridgeOf (homeCore k)) e.1) != booked.map (·.1) &&
        e.2.ivals.any fun i => i.res == .bank (homeCore k) ((k % 2 ^ 29 - 0x1E000000) / 65536) && decide (i.lo ≤ s.tick.toNat) &&
          decide (s.tick.toNat ≤ i.hi)

/-- The bytes of one line of a batten load's source: a plane's last line may be short. -/
def CopyOp.lineLen (o : CopyOp) (line : Nat) : Nat :=
  match o.kind with
  | .batld => match o.srcSeg.find? (fun e => decide (e.1 ≤ 64 * line) && decide (64 * line < e.1 + e.2.2)) with
    | some (a, _, l) => min 64 (a + l - 64 * line)
    | none => 64
  | .copy | .copyr | .mcast => o.perLine

/-- Where a line of an operation goes; none for the plane of a batten. -/
def CopyOp.dstKey (o : CopyOp) (idx : Nat) : Option Nat :=
  let line := idx % max 1 o.total
  match o.kind with
  | .mcast => some (spKey (o.members.getD (idx / max 1 o.total) 0) o.dst.addr + 64 * line)
  | .copy | .copyr => segAt o.dstSeg (o.dPerLine * line)
  | .batld => none

/-- Where the block scales of a converted line go (R18, R19). -/
def CopyOp.scaleKey (o : CopyOp) (k : Nat) : Nat := spKey (homeCore k) (scaleAddr o.regs (k % 2 ^ 29 - 0x1E000000))

/-- The bank of a line's destination, and that of its block scales, are open to the operation. -/
def State.dstOpen (s : State) (o : CopyOp) (idx : Nat) : Bool :=
  (o.dstKey idx).all fun k => !s.bankShut o.booked k && (o.plain || o.dfmt != .f4 || !s.bankShut o.booked (o.scaleKey k))

/-- The banks of the next line of an operation are open to it, those of a multicast's members too. -/
def State.banksOpen (s : State) (o : CopyOp) : Bool :=
  ([0, o.lineLen o.sent - 1].all fun i => (segAt o.srcSeg (o.sent * o.perLine + i)).all fun k => !s.bankShut o.booked k) &&
    (List.range o.mult).all fun m => s.dstOpen o (o.sent + o.total * m)

/-- The next operation served: booked ones first, in slot order after the one served last. -/
def State.nextLine (s : State) (core : Nat) : Option (Nat × CopyOp) :=
  let all := s.copies.filter fun e => e.2.core == core && e.2.sends && s.banksOpen e.2
  let bk := all.filter fun e => e.2.booked.isSome
  let xs := if bk.isEmpty then all else bk
  let rr := (s.core core).rr
  let slotN (e : Nat × CopyOp) : Nat := (e.2.slot.getD 0 + 31 - rr) % 32
  xs.foldl (fun (m : Option (Nat × CopyOp)) e => match m with
    | none => some e
    | some x => if slotN e < slotN x then some e else m) none

/-! ### One line (R19, R91, R92, R324, R326) -/

/-- The 64-byte runs of a byte range of an operation. -/
def runsOf (off n : Nat) : List (Nat × Nat) :=
  let c := min n 64
  (List.range (n / max 1 c)).map fun i => (off + c * i, c)

/-- The lines that bytes touch: by an address in each. -/
def touched (k n : Nat) : List Nat := if k / 64 = (k + n - 1) / 64 then [k] else [k, k + n - 1]

/-- The rows and the check bits that the read of a source range meets in device memory (R78, R81). -/
def State.readLines (s : State) (segs : List Seg) (off n : Nat) : State :=
  (runsOf off n).foldl (fun s x => match segAt segs x.1 with
    | some k => if isDevKey k then (touched k x.2).foldl State.lineRead s else s
    | none => s) s

/-- The bytes of a source range, with the largest bound and the poison of the lines they touch (R41, R80). -/
def State.readRun (s : State) (segs : List Seg) (off n : Nat) : List Byte × Word32 × Bool :=
  (runsOf off n).foldl (fun acc (o, c) =>
    match segAt segs o with
    | some k => (acc.1 ++ s.keyBytes k c, (touched k c).foldl (fun b x => bMax b (s.keyBound x)) acc.2.1,
        acc.2.2 || (touched k c).any s.keyPoison)
    | none => (acc.1 ++ List.replicate c 0#8, acc.2.1, acc.2.2)) ([], 0#32, false)

/-- Elements of w bits of a byte string. -/
def elemsOf (w : Nat) (bs : List Byte) : List Nat :=
  let x := leNat bs
  (List.range (8 * bs.length / w)).map fun i => x / 2 ^ (w * i) % 2 ^ w
def packElems (w : Nat) (xs : List Nat) : List Byte :=
  leBytes (xs.length * w / 8) (xs.foldr (fun x a => x % 2 ^ w + 2 ^ w * a) 0)

/-- An E3M5 block scale as an exact value; none for the NaN block (R17). -/
def scaleOf (c : Nat) : Option (Nat × Int) :=
  if c = 255 then none
  else if c < 32 then some (c, -7)
  else some (32 + c % 32, (c / 32 : Nat) - 8)

/-- The least scale s of finite value with max|x| ≤ 6·s, band scale 1 (R19). -/
def leastScale (mx : Mag) : Option Nat :=
  (List.range 255).find? fun c => match scaleOf c with
    | some (m, e) => magLe mx (some (6 * m, e)) && mx.isSome
    | none => false

/-- The exact value of an element of a format (a signed magnitude). -/
def valOf (f : Fmt) (x : Nat) : FVal :=
  match fspec? f with
  | some g => decodeF g x
  | none => match intFmt? f with
    | some (w, g) => let i := intVal w g x; .fin (decide (i < 0)) i.natAbs 0
    | none => .fin false 0 0

/-- Round x / scale to E2M1, clamped to ±6 (R19); with a scale of 0 the quotient is a zero with the sign of x (log 120). A finite
element that rounds beyond 6 is inexact, an infinite one is not (DESIGN CHOICE, log 128). -/
def quotF4 (rm : RMode) (v : FVal) (m : Nat) (e : Int) : Nat × Flags :=
  match v with
  | .fin s n k =>
    if n = 0 ∨ m = 0 then (zeroPat e2m1 s, 0#5)
    else
      let (r, fl) := roundRatio e2m1 rm s n m (k - e)
      if fl &&& fOF ≠ 0#5 then (maxPat e2m1 s, fNX) else (r, fl)
  | .inf s => (maxPat e2m1 s, 0#5)
  | .nan _ _ => (0, 0#5)

/-- Convert a block of 8 values to FP4 (R19): scale code, elements, flags, and the largest result magnitude
with h there (R32, R37), 2^−149 for a block of scale 0 (DESIGN CHOICE, log 131). The elements of a NaN block are free (log 10). -/
def blockF4 (rm : RMode) (free : Nat) (vs : List FVal) : Nat × List Nat × Flags × Mag × Word32 :=
  if vs.any (·.isNaN) then
    (255, (List.range vs.length).map (fun i => (Config.freeWord (free + i)).toNat % 16),
      if vs.any (·.isSig) then fNV else 0#5, none, bInf)
  else
    let mx := vs.foldl (fun a v => magMax a (match v with | .fin _ m e => some (m, e) | _ => none)) mag0
    let (code, ov) : Nat × Flags := match leastScale mx with
      | some c => (c, 0#5)
      | none => (254, fOF)
    let (m, e) := (scaleOf code).getD (0, 0)
    let qs := vs.map fun v => quotF4 rm v m e
    let qm := maxMag e2m1 (qs.map (·.1))
    let res : Mag := match qm with | some (a, k) => some (a * m, k + e) | none => none
    let h : Word32 := match qm with
      | none => bInf
      | some (a, k) =>
        let lead : Int := max ((Nat.log2 a : Int) + k) 0
        if m = 0 then 1#32 else bUp m (e + (if a = 0 then 0 else lead) - 2)
    (code, qs.map (·.1), qs.foldl (fun f q => f ||| q.2) ov, res, h)

/-- Of two magnitudes with an h each, the h at the larger one; where they tie the larger h (DESIGN CHOICE, log 129). -/
def hAt (a : Mag × Word32) (x : Mag × Word32) : Mag × Word32 :=
  (magMax a.1 x.1, if magLe a.1 x.1 then (if magLe x.1 a.1 then bMax a.2 x.2 else x.2) else a.2)

/-- A converted line: its bytes, FP4 block scales and flags, and its largest result magnitude with h there (R37, R92). -/
def convLine (o : CopyOp) (free : Nat) (src : List Byte) : List Byte × List Byte × Flags × Mag × Word32 :=
  if o.plain then (src, [], 0#5, mag0, 0#32)
  else
    let xs := elemsOf o.sWidth src
    if o.dfmt = .f4 then
      let blocks := (List.range (xs.length / 8)).map fun i =>
        blockF4 o.rm (free + 8 * i) (((xs.drop (8 * i)).take 8).map (valOf o.sfmt))
      (packElems 4 (blocks.flatMap (·.2.1)), blocks.map fun k => BitVec.ofNat 8 k.1,
        blocks.foldl (fun f k => f ||| k.2.2.1) 0#5, blocks.foldl (fun a k => hAt a k.2.2.2) (mag0, 0#32))
    else
      let rs := xs.map (cvt o.sfmt o.dfmt o.rm o.sat8)
      let top : Mag := match fspec? o.dfmt with
        | some f => maxMag f (rs.map (·.1))
        | none => mag0
      (packElems o.dWidth (rs.map (·.1)), [], rs.foldl (fun f r => f ||| r.2) 0#5, top,
        match fspec? o.dfmt with | some f => halfUlp f top | none => 0#32)

/-- copyr's combination of destination bytes with converted source bytes, and h of its add at their largest result, +∞ where an
operand is not finite (R34, R92, R326). -/
def combine (o : CopyOp) (d s : List Byte) : List Byte × Word32 :=
  match fspec? (if o.dfmt = .raw then o.sfmt else o.dfmt) with
  | none => (s, 0#32)
  | some f =>
    let w := f.width
    let ds := elemsOf w d
    let ss := elemsOf w s
    let one (x y : Nat) : Nat :=
      if o.op = 0#2 then (fAdd f o.rm x y).1 else (fMinMax f (o.op == 2#2) x y).1
    let rs := (ds.zip ss).map fun p => one p.1 p.2
    (packElems w rs, bGuard [maxMag f ds, maxMag f ss] (halfUlp f (maxMag f rs)))

/-- The bound of a destination line from what its parts say (R92). -/
def CopyOp.lineBound (o : CopyOp) (a : LineAcc) : Word32 :=
  let bs := if o.plain then a.b else if (fspec? o.dfmt).isSome then bAdd a.b a.h else 0#32
  match o.kind with
  | .copyr => if o.op = 0#2 then bAddSub a.old bs a.sum else bMax a.old bs
  | .copy | .mcast | .batld => bs

/-- A further part of a destination line. -/
def LineAcc.add (a x : LineAcc) : LineAcc :=
  let (top, h) := hAt (a.top, a.h) (x.top, x.h)
  ⟨bMax a.b x.b, top, h, a.old, bMax a.sum x.sum, a.poison || x.poison⟩

/-- A line of a batten load goes to its plane (R98). -/
def State.battenLine (s : State) (o : CopyOp) (line : Nat) (bs : List Byte) (b : Word32) : State :=
  match s.battens.look o.batKey with
  | none => s
  | some k =>
    let off := 64 * line
    let len := o.K * batCols o.batKey * fmtWidth o.sfmt / 8
    let e0 := len * (o.kb + 1)
    let step := (len / 4 + 63) / 64 * 64
    let (key, plane) : Nat × Nat :=
      if off < e0 then (batPlane (off / len) + off % len, off / len)
      else if off < e0 + step * (o.kb + 1) then (batBlk ((off - e0) / step) + (off - e0) % step, (off - e0) / step)
      else (batBand + (off - e0 - step * (o.kb + 1)), 0)
    let pbs := (List.range (o.kb + 1)).map fun p =>
      let old := k.planeBounds.getD p 0#32
      -- the band scales belong to every plane
      if p = plane ∨ e0 + step * (o.kb + 1) ≤ off then bMax old b else old
    let k := { k with data := k.data.putRun 0#8 key bs, lines := k.lines + 1, planeBounds := pbs,
                      bound := pbs.getD 0 0#32 }
    { s with battens := s.battens.ins o.batKey k }

/-- The Priet Link carries an endpoint of the operation. -/
def CopyOp.viaHost (o : CopyOp) : Bool := o.src.space == 3#3 || o.dst.space == 3#3

/-- Poison travels with a line into device memory only (R80). -/
def CopyOp.carries (o : CopyOp) (idx : Nat) : Bool := (o.dstKey idx).any isDevKey

/-- The tracer sends one line, or stops at a poisoned one; its next is a cycle later (R80, R86). -/
def State.sendLine (s : State) (core : Nat) : State :=
  let s := s.sweepStale core
  match s.nextLine core with
  | none => s
  | some (op, o) =>
    let s := State.postOnce (s.modCore core fun c => { c with rr := o.slot.getD 0 }) (.tracerLine core) 1
    let s := s.readLines o.srcSeg (o.sent * o.perLine) (o.lineLen o.sent)
    if (s.readRun o.srcSeg (o.sent * o.perLine) (o.lineLen o.sent)).2.2 && !o.carries o.sent then
      let s := { s with copies := s.copies.ins op { o with stop := some .poisoned } }
      if o.lines = o.sent * o.mult then s.endCopy op .poisoned 0#8 else s
    else
      let s := { s with copies := s.copies.ins op { o with sent := o.sent + 1 } }
      let s := (List.range o.mult).foldl (fun s m => s.post (.copyData op (o.sent + o.total * m)) (chanCopy op) 16) s
      s.traffic o.thid

/-- One line arrives at its destination's home port and is performed (R91, R92, R80, R41). -/
def State.performLine (s : State) (op idx : Nat) : State :=
  match s.copies.look op with
  | none => s
  | some o =>
    -- a copy that waits for a slot keeps the lines it has sent (R83)
    if !o.live ∨ o.sent * o.mult ≤ o.lines then s
    else if o.viaHost && !s.linkUp then s.post (.copyData op idx) (chanCopy op) 64
    else
      let line := idx % max 1 o.total
      let (bs, b, poison) := s.readRun o.srcSeg (line * o.perLine) (o.lineLen line)
      let ext := o.src.space == 3#3 || o.src.space == 4#3
      let (cs, sc, fl, top, h) := convLine o s.free bs
      let s := if o.dfmt = .f4 && !o.plain then { s with free := s.free + 8 * sc.length } else s
      let (s, o) : State × CopyOp := match o.dstKey idx with
        | none => (s.battenLine o line cs b, { o with lines := o.lines + 1 })
        | some k =>
          -- copyr reads the destination line, its check bits and its poison too (R78, R80, log 130)
          let red := o.kind == .copyr
          let s := if red && isDevKey k then s.eccRead k else s
          let (ys, sum) := if red then combine o (s.keyBytes k o.dPerLine) cs else (cs, 0#32)
          let x : LineAcc := ⟨b, top, h, s.keyBound k, sum, poison || (red && s.keyPoison k)⟩
          let acc := if line % o.parts = 0 then x else o.acc.add x
          let whole := line % o.parts + 1 = o.parts
          let yb := o.lineBound acc
          -- a host's writes of device memory are copies from the host (R176, R196)
          let s := if o.src.space == 3#3 && isDevKey k then { s with overs := s.oversWith false k ys.length } else s
          let s := s.keyWrite k ys whole yb (!ext) acc.poison
          let o := { o with lines := o.lines + 1, flags := o.flags ||| fl, acc := acc }
          -- block scales of an FP4 destination, one byte for each 8 elements: four lines of elements fill a line of scales, whose
          -- bound is theirs once all of it is written (R18, R19, R41)
          if sc.isEmpty then (s, o)
          else
            let i := o.scaleKey k % 64 / 16
            let scB := if !whole then o.scB else if i = 0 then yb else bMax o.scB yb
            let all := whole && i == 3 && decide (3 ≤ line / o.parts)
            (s.keyWrite (o.scaleKey k) sc all (if all then scB else yb) true false, { o with scB := scB })
      let s := { s with copies := s.copies.ins op o }
      match o.stop with
      | some st => if o.lines = o.sent * o.mult then s.endCopy op st o.why else s
      | none =>
        if o.lines = o.secHi * o.mult then
          (s.release op).post (.copyReport op) 0 (if o.dstCore = o.core then 0 else 16)
        else s

/-- The last line of a section has been performed: the next section, or the end (R88, R90). -/
def State.sectionDone (s : State) (op : Nat) : State :=
  match s.copies.look op with
  | none => s
  | some o =>
    if !o.live ∨ o.lines ≠ o.secHi * o.mult then s
    else if o.stop.isSome then s.endCopy op (o.stop.getD .revoked) o.why
    else if o.total ≤ o.secHi then s.endCopy op .done 0#8
    else State.formSection { s with copies := s.copies.ins op { o with secLo := o.secHi, started := false } } op

end Sys2Proof.Machine
end

