-- ==== Sys2Proof/Machine/Hall.lean ====
section
/-!
DEFINITION. The hall (R114 to R127): calendars, sheets, the search for a start, commit, failure, compaction
and first-fit placement.
-/
namespace Sys2Proof.Machine

/-! ### Arrays of a partition (R97, R159, R160) -/

def arrRidge (arr : Nat) : Nat := if arr < 64 then arr / 32 else (arr - 64) / 32
/-- How a partition holds an array: 0 whole, 1 its rows 0 to 63, 2 its rows 64 to 127. -/
def State.arrHalf (s : State) (part arr : Nat) : Option Nat :=
  match s.part part with
  | none => none
  | some p =>
    if arr < 64 then
      if p.desc.halves.getLsbD arr then some (if p.desc.uppers.getLsbD arr then 2 else 1)
      else if p.desc.slates.getLsbD arr then some 0 else none
    else if arr < 128 ∧ p.desc.shingles.getLsbD (arr - 64) then some 0 else none

/-- An array, or the half of it, has failed: a slate that failed whole has no working half, and one with a failed half does not
work whole (R3, R106, R160). -/
def State.arrFailed (s : State) (arr half : Nat) : Bool :=
  s.failedArr.any fun x => x.1 == arr && (x.2 == half || x.2 == 0 || half == 0)

/-- The working arrays of a kind on a ridge die that a partition holds, ascending, with the half of each. -/
def State.arraysOf (s : State) (part ridge : Nat) (shingle : Bool) : List (Nat × Nat) :=
  (List.range 32).filterMap fun i =>
    let a := 32 * ridge + i + (if shingle then 64 else 0)
    match s.arrHalf part a with
    | some h => if s.arrFailed a h then none else some (a, h)
    | none => none

/-- The tile shape of an array as a partition holds it: 0 slate, 1 slate half, 2 shingle. -/
def shapeOf (arr half : Nat) : Nat := if 64 ≤ arr then 2 else if half = 0 then 0 else 1

/-! ### Calendars (R114, R116, R119) -/

def Ival.over (a b : Ival) : Bool := a.res == b.res && decide (a.lo ≤ b.hi) && decide (b.lo ≤ a.hi)

/-- R116: what a class may hold. -/
def classOk (cls : BitVec 2) (i : Ival) : Bool :=
  cls == 0#2 || match i.res with
    | .array n _ => decide (i.hi < i.lo + 112) &&
        !(List.range (i.hi + 1 - i.lo)).any fun d => (i.lo + d) % 128 / 16 == n % 8
    | .up _ l | .dn _ l => decide (l < 12)
    | .bank _ _ | .slot _ _ => true

/-- At most 4 tracer slots of a core are booked on any tick (R119). -/
def slotsOk (all : List Ival) (i : Ival) : Bool :=
  match i.res with
  | .slot c _ =>
    let mine := all.filter fun j => match j.res with | .slot d _ => d == c | _ => false
    let busy (t : Nat) : Nat := (mine.filter fun j => decide (j.lo ≤ t) && decide (t ≤ j.hi)).length
    (i.lo :: mine.map (·.lo)).all fun t => !(decide (i.lo ≤ t) && decide (t ≤ i.hi)) || decide (busy t < 4)
  | _ => true

/-- An interval can be added to a calendar beside those it holds; cap: the 64 intervals of R114 count. -/
def calFree (now : Nat) (all chosen : List Ival) (cls : BitVec 2) (cap : Bool) (i : Ival) : Bool :=
  classOk cls i && !all.any i.over && !chosen.any i.over && slotsOk (all ++ chosen) i &&
    (!cap || decide (((all.filter fun j => j.res == i.res && decide (now ≤ j.hi)).length +
      (chosen.filter fun j => j.res == i.res).length) < Config.calMax))

/-- The ways to serve an entry from a start, lowest array, then lane, then slot first (R119, R120). arrs: the
arrays an "any" entry may take. -/
def State.options (s : State) (part core : Nat) (arrs : Bool → List (Nat × Nat)) (S k : Nat) (e : SheetEnt) :
    List (List Ival) :=
  let lo := S + e.off
  let hi := S + e.off + e.dur - 1
  let onArrays (xs : List (Nat × Nat)) : List (List Ival) := xs.flatMap fun (a, h) => (List.range 14).map fun l =>
    [⟨.array a h, lo, hi, k⟩, ⟨.up (eaveOf core) l, lo, hi, k⟩] ++
      (if e.land = 0 then [] else [⟨.dn (eaveOf core) l, hi + 1, hi + e.land, k⟩])
  match e.kind.toNat with
  | 1 => match s.arrHalf part e.res with
    | some h => if s.arrFailed e.res h then [] else onArrays [(e.res, h)]
    | none => []
  | 2 => onArrays (arrs false)
  | 3 => onArrays (arrs true)
  | 4 => [[⟨.bank core e.res, lo, hi, k⟩]]
  | 5 => [[⟨.slot core e.res, lo, hi, k⟩]]
  | 6 => (List.range 32).map fun n => [⟨.slot core n, lo, hi, k⟩]
  | _ => []

/-- The lowest choice for every entry in sheet order, all from one start. -/
def assign (free : List Ival → Ival → Bool) (opts : Nat → SheetEnt → List (List Ival)) :
    Nat → List SheetEnt → List Ival → Option (List Ival)
  | _, [], chosen => some chosen
  | k, e :: r, chosen =>
    (opts k e).findSome? fun is =>
      if is.all (free chosen) then assign free opts (k + 1) r (chosen ++ is) else none

/-- The least start at or after S with a choice for every entry. -/
def search (f : Nat → Option (List Ival)) : Nat → Nat → Option (Nat × List Ival)
  | 0, _ => none
  | n + 1, S => match f S with
    | some is => some (S, is)
    | none => search f n (S + 1)

def entSpan (es : List SheetEnt) : Nat := es.foldl (fun m e => max m (e.off + e.dur + e.land)) 0

/-- The search of R120 between two starts, within the horizon; but: a booking whose own intervals do not count. -/
def State.findStart (s : State) (part core : Nat) (cls : BitVec 2) (arrs : Bool → List (Nat × Nat))
    (es : List SheetEnt) (lo : Nat) (hi : Option Nat) (cap : Bool) (but : Option Nat) : Option (Nat × List Ival) :=
  let now := s.tick.toNat
  let all := ((s.intervals (ridgeOf core)).filter fun e => some e.1 != but).map (·.2)
  let top := now + Config.horizon + 1 - entSpan es
  let top := match hi with | some h => min top (h + 1) | none => top
  search (fun S => assign (fun ch i => calFree now all ch cls cap i) (s.options part core arrs S) 0 es [])
    (top - lo) lo

/-! ### Sheets (R117, R118, R121) -/

def entOf (x : Nat) : SheetEnt :=
  ⟨BitVec.ofNat 4 (x / 2 ^ 16), x % 256, x / 2 ^ 36 % 2 ^ 14, x / 2 ^ 50, x / 2 ^ 28 % 256⟩

def entBad (x : Nat) : Bool :=
  let e := entOf x
  let k := e.kind.toNat
  k == 0 || decide (6 < k) || (decide (4 ≤ k) && e.land != 0) || e.dur == 0 || decide (8192 < e.dur) ||
    decide (8192 < e.off + e.dur + e.land) || x / 2 ^ 20 % 256 != 0 || x / 2 ^ 8 % 256 != 0

/-- A sheet from its dwords, with the malformations of status 0x04 noted. -/
def sheetOf (ds : List Word) : Sheet :=
  let d (i : Nat) : Nat := (ds.getD i 0#64).toNat
  let c := d 2
  let n := c % 32
  let es := (List.range n).map fun i => d (4 + i)
  { earliest := d 0, latest := d 1, lkind := BitVec.ofNat 2 (c / 2 ^ 26), lnum := c / 2 ^ 20 % 16,
    lval := c / 2 ^ 32, slide := c.testBit 8, cls := BitVec.ofNat 2 (c / 64), ents := es.map entOf,
    bad := n == 0 || decide (16 < n) || c / 2 ^ 26 % 4 == 3 || (c / 2 ^ 26 % 4 == 1 && decide (7 < c / 2 ^ 20 % 16)) ||
      c / 2 ^ 28 % 16 != 0 || c / 2 ^ 24 % 4 != 0 || c / 2 ^ 9 % 2 ^ 11 != 0 || c.testBit 5 || d 3 != 0 ||
      es.any entBad }

/-- Status 0x03: a named resource outside the allotment or on the other ridge die. -/
def State.sheetOutside (s : State) (part core : Nat) (sh : Sheet) : Bool :=
  sh.ents.any fun e => match e.kind.toNat with
    | 1 => (s.arrHalf part e.res).isNone || arrRidge e.res != ridgeOf core
    | 4 => decide (16 ≤ e.res)
    | 5 => decide (32 ≤ e.res)
    | _ => false

/-- Status 0x06: a lower-class array entry longer than 112 ticks. -/
def Sheet.tooLong (sh : Sheet) : Bool :=
  sh.cls != 0#2 && sh.ents.any fun e => decide (e.kind.toNat ≤ 3) && decide (112 < e.dur)

/-- The landing condition holds (R117, R122). -/
def State.condHolds (s : State) (b : Booking) : Bool :=
  if b.sheet.lkind = 1#2 then decide (b.sheet.lval ≤ ((s.thr b.thid).lR b.sheet.lnum).toNat)
  else if b.sheet.lkind = 2#2 then decide (b.sheet.lval ≤ ((s.core b.core).cbuf b.sheet.lnum).filled)
  else true

/-- An attempt (R120): a start with the intervals, or status 0x01 or 0x02. -/
def State.attempt (s : State) (idx : Nat) (b : Booking) : Except Byte (Nat × List Ival) :=
  let lo := max b.sheet.earliest (s.tick.toNat + 2)
  let hi := if b.sheet.latest = 0 then none else some b.sheet.latest
  let arrs := s.arraysOf b.part (ridgeOf b.core)
  match s.findStart b.part b.core b.sheet.cls arrs b.sheet.ents lo hi true (some idx) with
  | some r => .ok r
  | none => match s.findStart b.part b.core b.sheet.cls arrs b.sheet.ents lo hi false (some idx) with
    | some _ => .error 2#8
    | none => .error 1#8

/-! ### States of a booking (R123) -/

/-- Threads that wait for a booking's start look again. -/
def State.pokeBooking (s : State) (h : Word) : State :=
  s.pokeAll fun t => match t.wait with | .booking k _ _ => k == h | _ => false

/-- An attempt succeeded: the intervals are held and the handle is handed over. -/
def State.commitBook (s : State) (ridge idx : Nat) (b : Booking) (start : Nat) (is : List Ival) : State :=
  let s := s.setBook ridge idx { b with state := .committed, start := start, ivals := is, dst := none }
  match b.dst with
  | some d => s.answer b.thid d (b.handle ridge idx)
  | none => s

/-- An attempt or a sheet check failed (R121, R123, R328). -/
def State.failBook (s : State) (ridge idx : Nat) (b : Booking) (code : Byte) : State :=
  if b.early then
    (s.setBook ridge idx { b with state := .cancelled, ivals := [], code := code }).pokeBooking (b.handle ridge idx)
  else
    let s := s.setBook ridge idx { b with state := .cancelled, ivals := [], dst := none }
    match b.dst with
    | some d => s.answer b.thid d (code.zeroExtend 64)
    | none => s

/-- The hall attempts a booking whose condition holds. -/
def State.attemptBook (s : State) (ridge idx : Nat) (b : Booking) : State :=
  match s.attempt idx b with
  | .ok (start, is) => s.commitBook ridge idx b start is
  | .error c => s.failBook ridge idx b c

/-- The index a new booking takes (R121 gives the range and R123 when one is free; which one is taken is the model's choice, log
117): the lowest never used, else the lowest that is free again. -/
def State.freeIndex (s : State) (ridge : Nat) : Option (Nat × BitVec 16) :=
  let bs := s.books ridge
  match (List.range 4096).find? fun i => (bs.look i).isNone with
  | some i => some (i, 1#16)
  | none => match bs.find? fun e => decide (e.1 < 4096) && (e.2.state == .ended || e.2.state == .cancelled) with
    | some (i, b) => some (i, nextGen b.gen)
    | none => none

/-- Live bookings of a thread; the placements of free-standing hires do not count (R121, R126). -/
def State.liveBooks (s : State) (id : Word32) : Nat :=
  ((s.books0 ++ s.books1).filter fun e => e.2.thid == id && e.2.hire.isNone && e.2.live).length

/-- The window of an entry: first and last tick, and landing ticks, from its start and offsets. -/
def Booking.window (b : Booking) (ent : Nat) : Nat × Nat × Nat :=
  match b.sheet.ents[ent]? with
  | some e => (b.start + e.off, b.start + e.off + e.dur - 1, e.land)
  | none => (0, 0, 0)

/-- The last tick of a booking's last entry. -/
def Booking.last (b : Booking) : Nat := b.start + entSpan b.sheet.ents - 1

/-! ### Compaction (R127) -/

def Ival.shift (i : Ival) (d : Nat) : Ival := { i with lo := i.lo - d, hi := i.hi - d }

/-- Intervals can be added one after another. -/
def allFree (now : Nat) (all : List Ival) (cls : BitVec 2) : List Ival → List Ival → Bool
  | [], _ => true
  | i :: r, chosen => calFree now all chosen cls true i && allFree now all cls r (chosen ++ [i])

/-- The earliest start a booking can move to on its own resources. -/
def State.movesTo (s : State) (ridge idx : Nat) (b : Booking) : Option Nat :=
  let now := s.tick.toNat
  let all := ((s.intervals ridge).filter fun e => e.1 != idx).map (·.2)
  let lo := max b.sheet.earliest (now + 2)
  (List.range (b.start - lo)).findSome? fun i =>
    let S := lo + i
    let is := b.ivals.map fun j => j.shift (b.start - S)
    if allFree now all b.sheet.cls is [] then some S else none

/-- Bookings in ascending start order. -/
def insertBook (x : Nat × Booking) : List (Nat × Booking) → List (Nat × Booking)
  | [] => [x]
  | y :: r => if x.2.start ≤ y.2.start then x :: y :: r else y :: insertBook x r
def sortBooks (xs : List (Nat × Booking)) : List (Nat × Booking) := xs.foldr insertBook []

/-- One booking of a hall moves earlier, and the hires placed under it with it (R125, R127). -/
def State.compact (s : State) (ridge : Nat) : State :=
  let cand := sortBooks ((s.books ridge).filter fun e => e.2.state == .committed && e.2.sheet.slide)
  match cand.findSome? fun e => (s.movesTo ridge e.1 e.2).map fun S => (e.1, e.2, S) with
  | none => s
  | some (idx, b, S) =>
    let d := b.start - S
    let s := s.setBook ridge idx { b with start := S, ivals := b.ivals.map fun j => j.shift d }
    (s.hires.filter fun e => e.2.bidx == some idx && ridgeOf e.2.core == ridge && e.2.state == .placed).foldl
      (fun s e =>
        let h := { e.2 with start := e.2.start - d, wend := e.2.wend - d, land := e.2.land - d }
        { s with hires := s.hires.ins e.1 h }) s

/-! ### Windows of a hire (R101, R110) -/

/-- Half cycles for one K index (R97). -/
def halfCycles : Fmt → Nat
  | .bf | .f4 => 2
  | .e4 | .e5 => 1
  | .s => 8
  | _ => 16
def keepOf (sp : BitVec 2) : Nat := if sp = 1#2 then 32 else if sp = 2#2 then 16 else 64
def ceilDiv (a b : Nat) : Nat := (a + b - 1) / b

/-- Bytes of m rows of A with K elements each, with the scale planes of FP4. -/
def aBytes (f : Fmt) (m K : Nat) : Nat :=
  m * K * fmtWidth f / 8 + (if f = .f4 then m * K / 8 + 2 * (m / 64) else 0)

/-- Window ticks: K indices at the given rate, sparsity, active tangents, uplink bytes, fill and drain. -/
def windowTicks (half K : Nat) (sp : BitVec 2) (k U f : Nat) : Nat :=
  ceilDiv (max (ceilDiv (K * half * keepOf sp) 128 * (1 + 2 * k)) (ceilDiv U 256) + f) 64
def landTicks (k T : Nat) : Nat := (1 + k) * ceilDiv T 16384

def Hire.ntan (h : Hire) : Nat := h.sel.length
def Hire.accBytes (h : Hire) (wide : Bool) : Nat := if wide || h.afmt == .d then 8 else 4

/-- The window of a hire on its own kind of array. -/
def Hire.ticks (h : Hire) (sp : BitVec 2) : Nat :=
  let U := (1 + h.ntan) * (aBytes h.fmt h.rows h.K + (if h.c.isSome then h.rows * h.cols * h.accBytes false else 0))
  windowTicks (halfCycles h.fmt) h.K sp h.ntan U (if h.rows = 256 then 512 else 256)
/-- The window of a widened re-issue, one of four for a shingle tile. -/
def Hire.wideTicks (h : Hire) (sp : BitVec 2) : Nat :=
  let m := min h.rows 128
  let n := min h.cols 128
  let U := (1 + h.ntan) * (aBytes h.fmt m h.K + (if h.c.isSome then m * n * h.accBytes false else 0))
  windowTicks 16 h.K sp h.ntan U 256
def Hire.landing (h : Hire) (wide : Bool) : Nat := landTicks h.ntan (h.rows * h.cols * h.accBytes wide)

/-! ### First-fit placement (R105, R106, R110, R126) -/

/-- The class a hire's searches run in (R105). -/
def State.hireClass (s : State) (h : Hire) : BitVec 2 :=
  match h.booked with
  | some (k, _) => match s.bookOf k with | some (_, _, b) => b.sheet.cls | none => h.cls
  | none => h.cls

def hireSheet (cls : BitVec 2) (w land : Nat) : Sheet := ⟨0, 0, 0#2, 0, 0, true, cls, [⟨2#4, 0, 0, w, land⟩], false⟩

/-- Windows one after another, the last one with the landing ticks; arrs: the arrays the window may take that n more follow. -/
def State.fitWindows (s : State) (h : Hire) (cls : BitVec 2) (arrs : Nat → List (Nat × Nat)) (w land but : Nat) :
    Nat → Nat → List Ival → Option (List Ival)
  | 0, _, is => some is
  | n + 1, lo, is =>
    let now := s.tick.toNat
    let all := ((s.intervals (ridgeOf h.core)).filter fun e => e.1 != but).map (·.2) ++ is
    let e : SheetEnt := ⟨2#4, 0, 0, w, if n = 0 then land else 0⟩
    match search (fun S => assign (fun ch i => calFree now all ch cls true i)
        (s.options h.part h.core (fun _ => arrs n) S) 0 [e] []) (now + Config.horizon + 1 - (w + e.land) - lo) lo with
    | none => none
    | some (S, js) => s.fitWindows h cls arrs w land but n (S + w) (is ++ js)

/-- A rerun goes to the arrays of the first run, unless one of them has failed meanwhile (R105, R106). -/
def State.onOwn (s : State) (h : Hire) : Bool := h.miss = 1 && !h.quads.any fun x => s.arrFailed x.1 x.2

/-- The arrays a hire may be placed on: for a rerun its own, after a failure those of its shape, for a widened
re-issue whole slates, or slate halves for a tile of 64 rows (DESIGN CHOICE, log 132), else those of its kind and of its batten's
shape (R99). Only working arrays count (log 132). A named array that has failed is passed over (log 127). -/
def State.hireArrays (s : State) (h : Hire) : List (Nat × Nat) :=
  let ridge := ridgeOf h.core
  if s.onOwn h then h.quads
  else if h.wide then
    (s.arraysOf h.part ridge false).filter fun x => shapeOf x.1 x.2 == (if h.rows = 64 then 1 else 0)
  else
    let shape := if h.rows = 256 then 2 else if h.rows = 64 then 1 else 0
    let xs := (s.arraysOf h.part ridge (h.rows == 256)).filter fun x => shapeOf x.1 x.2 == shape
    if h.kind == .at && !h.moved && !h.lost then
      let ys := xs.filter fun x => x.1 == h.arr
      if ys.isEmpty then xs else ys
    else xs

/-- Place a hire that waits for a window: its own booking record holds it (R126). The search of a rerun counts from the tick of the
mismatch, however late the hall serves it (R105, log 116). -/
def State.placeHire (s : State) (op : Nat) (h : Hire) (sp : BitVec 2) : Option State :=
  let ridge := ridgeOf h.core
  let idx := 4096 + op
  let cls := s.hireClass h
  let w := if h.wide then h.wideTicks sp else h.ticks sp
  let land := h.landing h.wide
  let n := if h.wide && h.rows == 256 then 4 else 1
  let arrs (k : Nat) : List (Nat × Nat) :=
    if s.onOwn h && n == 4 then (h.quads[n - 1 - k]?).toList else s.hireArrays h
  let from' := match h.since with | some x => max (x + 2) (s.tick.toNat + 1) | none => s.tick.toNat + 2
  match s.fitWindows h cls arrs w land idx n from' [] with
  | none => none
  | some is =>
    let arrs := is.filterMap fun i => match i.res with | .array a x => some (a, x, i.lo, i.hi) | _ => none
    match arrs.head?, arrs.getLast? with
    | some (_, _, lo, _), some (a, x, _, hi) =>
      let lane := (is.reverse.findSome? fun i => match i.res with | .up _ l => some l | _ => none).getD 0
      let lost := h.lost || (decide (h.miss = 1) && !s.onOwn h)
      let b : Booking := ⟨1#16, h.thid, h.part, h.core, .committed, hireSheet cls (hi + 1 - lo) land, lo, is, h.moved || lost,
        0#8, false, none, some op⟩
      let s := s.setBook ridge idx b
      let h' := { h with moved := h.moved || lost, lost := false, miss := if lost then 0 else h.miss, state := .placed, arr := a, half := x, bidx := some idx, start := lo, wend := hi,
                         land := hi + 1, lane := lane, quads := arrs.map fun q => (q.1, q.2.1) }
      some { s with hires := s.hires.ins op h', hallWait := s.hallWait.filter (· != op) }
    | _, _ => none

/-- The ticks a hire still holds from now on are freed: its own record, or the entry of its booking (R113, R123, R125). -/
def State.freeHire (s : State) (h : Hire) (keep : Res → Bool) : State :=
  match h.bidx with
  | none => s
  | some i =>
    let r := ridgeOf h.core
    match (s.books r).look i with
    | none => s
    | some b =>
      if b.hire.isSome then s.freeEntry r i 0 keep
      else s.freeEntry r i (match h.booked with | some (_, e) => e | none => 0) keep

end Sys2Proof.Machine
end

