-- ==== Sys2Proof/Machine/Tile.lean ====
section
/-!
DEFINITION. A hire at work: the operand tiles (R17, R18, R318), the accumulation (R28 to R30, R111), tile
bounds (R35, R107), the trip test (R109), landing (R101) and the end (R103, R104).
-/
namespace Sys2Proof.Machine

/-! ### Elements -/

/-- An FP4 element with its block scale and BF16 band scale, formed exactly (R17). -/
def f4Val (x scale band : Nat) : FVal :=
  match scaleOf scale, decodeF bf16 band, decodeF e2m1 x with
  | none, _, v => .nan v.sign false
  | _, .nan _ _, v => .nan v.sign false
  | some (m, _), .inf t, .fin s n _ => if n * m = 0 then .nan s false else .inf (s != t)
  | some (m, e), .fin t a k, .fin s n j => .fin (s != t) (n * m * a) (j + e + k)
  | _, _, v => v

/-- The byte offset of element i of a tile at an address. -/
def elAddr (a w i : Nat) : Nat := a + i * w / 8

/-- An element of A, or of its tangent, row-major with K elements a row. -/
def State.aVal (s : State) (h : Hire) (base r k : Nat) : FVal :=
  let c := s.core h.core
  let i := r * h.K + k
  if h.fmt = .f4 then
    let x := (c.spNat (base + i / 2) 1) / 16 ^ (i % 2) % 16
    f4Val x (c.spNat (scaleAddr h.regs (base + i / 2)) 1) (c.spNat (bandAddr h.regs base (r / 64)) 2)
  else valOf h.fmt (c.spNat (elAddr base (fmtWidth h.fmt) i) (fmtWidth h.fmt / 8))

/-- The bits of an element of a batten's plane. -/
def Batten.bits (b : Batten) (n p k j : Nat) : Nat := elemAt b.data (batPlane p) (fmtWidth b.fmt) (k * n + j)
def Batten.val (b : Batten) (n p k j : Nat) : FVal :=
  let i := k * n + j
  if b.fmt = .f4 then
    f4Val (b.bits n p k j) (b.data.lookD (batBlk p + i / 8) 0#8).toNat (leNat (b.data.run 0#8 (batBand + 2 * (k / 64)) 2))
  else valOf b.fmt (b.bits n p k j)
/-- A position that sparse storage skips (R98). -/
def Batten.skips (b : Batten) (n k j : Nat) : Bool := b.sp != 0#2 && isZeroEl b.fmt (b.bits n 0 k j)

/-- An element of C, or +0. -/
def State.cBits (s : State) (h : Hire) (base : Option Nat) (i : Nat) : Nat :=
  match base with
  | none => 0
  | some a => (s.core h.core).spNat (elAddr a (fmtWidth h.afmt) i) (fmtWidth h.afmt / 8)

def Hire.tanAt (h : Hire) (a j : Nat) : Nat := (a + (j + 1) * h.tstride) % 2 ^ 64

/-! ### Accumulation (R28, R29, R111) -/

def chunkOf : Fmt → Nat
  | .d => 4
  | .s => 8
  | .bf => 32
  | _ => 64

/-- A product of two elements as a term; invalid for ∞ · 0. -/
inductive Prod where
  | val (v : FVal)
  | invalid
  deriving DecidableEq, Repr

def prodOf (x y : FVal) : Prod :=
  match x, y with
  | .nan s g, z => .val (.nan s (g || z.isSig))
  | z, .nan s g => .val (.nan s (g || z.isSig))
  | _, _ => match mulV x y with
    | some v => .val v
    | none => .invalid

/-- Round an exact sum of acc and products (R28, R29). -/
def roundSum (f : FSpec) (rm : RMode) (acc : FVal) (ps : List Prod) : Nat × Flags :=
  let vs := acc :: ps.filterMap fun p => match p with | .val v => some v | .invalid => none
  if ps.any (fun p => decide (p = .invalid)) then (dNaN f, fNV)
  else if vs.any (·.isNaN) then (dNaN f, if vs.any (·.isSig) then fNV else 0#5)
  else
    let pos := vs.any fun v => match v with | .inf s => !s | _ => false
    let neg := vs.any fun v => match v with | .inf s => s | _ => false
    if pos && neg then (dNaN f, fNV)
    else if pos then (infPat f false, 0#5)
    else if neg then (infPat f true, 0#5)
    else
      let zs := decide (rm = .rdn) || vs.all fun v => match v with | .fin s m _ => s && m == 0 | _ => false
      roundTerm f rm zs (sumTerms (vs.filterMap fun v => match v with | .fin s m e => some (termOf s m e) | _ => none))

/-- Accumulate a tile chunk by chunk: the cells, the flags, and the largest magnitude after each chunk. -/
def accumulate (f : FSpec) (rm : RMode) (K chunk : Nat) (prods : Nat → Nat → List Prod) :
    Nat → Nat → List Nat → Flags → List Mag → List Nat × Flags × List Mag
  | 0, _, cells, fl, ms => (cells, fl, ms)
  | n + 1, k0, cells, fl, ms =>
    let ks := (List.range (min chunk (K - k0))).map (k0 + ·)
    let rs := (List.range cells.length).map fun i =>
      roundSum f rm (decodeF f (cells.getD i 0)) (ks.flatMap (prods i))
    let cells' := rs.map (·.1)
    accumulate f rm K chunk prods n (k0 + chunk) cells' (rs.foldl (fun a r => a ||| r.2) fl) (ms ++ [maxMag f cells'])

/-- The largest magnitude of exact values. -/
def maxVal (vs : List FVal) : Mag :=
  vs.foldl (fun a v => magMax a (match v with | .fin _ m e => some (m, e) | _ => none)) mag0

/-- The largest bound among the scratchpad lines that a range touches (R41, R107). -/
def State.tileBound (s : State) (core a n : Nat) : Word32 :=
  bMaxL ((List.range ((a + n - 1) / 64 + 1 - a / 64)).map fun i => (s.core core).spB (64 * (a / 64 + i)))
/-- The bound of an A tile: for FP4 its scale planes are lines of it too (R18, R41). -/
def State.aBound (s : State) (h : Hire) (a n : Nat) : Word32 :=
  let b := s.tileBound h.core a n
  if h.fmt = .f4 then
    bMaxL [b, s.tileBound h.core (scaleAddr h.regs a) (n / 4), s.tileBound h.core (bandAddr h.regs a 0) (2 * (h.rows / 64))]
  else b

/-- K · (b_x·max|y| + b_y·max|x| + b_x·b_y) (R35). -/
def prodBound (K : Nat) (bx by' : Word32) (mx my : Mag) : Word32 :=
  bMul (some (K, 0)) (bSum [bMul my bx, bMul mx by', bMul (magOfBound bx) by'])

/-- The planes of a tile, primal first, each with its bound, and the primal's flags. -/
def State.tile (s : State) (h : Hire) (b : Batten) : List Plane × Flags :=
  let f := if h.wide || h.afmt = .d then fp64 else fp32
  let n := h.cols
  let ks := List.range h.K
  let chunk := chunkOf h.fmt
  let steps := ceilDiv h.K chunk
  let aLen := h.rows * h.K * fmtWidth h.fmt / 8
  let cLen := h.rows * n * fmtWidth h.afmt / 8
  let aAll (base : Nat) : Mag := maxVal ((List.range h.rows).flatMap fun r => ks.map (s.aVal h base r))
  let bAll (p : Nat) : Mag := maxVal (ks.flatMap fun k => (List.range n).map (b.val n p k))
  -- widening converts C exactly, and quiets a NaN with its flag (R25, R110)
  let begins (base : Option Nat) : List (Nat × Flags) := (List.range (h.rows * n)).map fun i =>
    let x := s.cBits h base i
    if h.wide && decide (h.afmt ≠ .d) then cvtFF fp32 fp64 .rne false x else (x, 0#5)
  let start (base : Option Nat) : List Nat := (begins base).map (·.1)
  let cMag (base : Option Nat) : Mag := maxMag f (start base)
  let cB (base : Option Nat) : Word32 := match base with | some a => s.tileBound h.core a cLen | none => 0#32
  let bA := s.aBound h h.a aLen
  let bB := b.planeBounds.getD 0 0#32
  let mA := aAll h.a
  let mB := bAll 0
  let hs (ms : List Mag) : List Word32 := ms.map (halfUlp f)
  let primal := accumulate f h.rm h.K chunk (fun i k =>
    if b.skips n k (i % n) then [] else [prodOf (s.aVal h h.a (i / n) k) (b.val n 0 k (i % n))])
    steps 0 (start h.c) 0#5 []
  let pb := bGuard (mA :: mB :: cMag h.c :: primal.2.2)
    (bSum (cB h.c :: prodBound h.K bA bB mA mB :: hs primal.2.2))
  let tans := h.sel.map fun j =>
    let aj := h.tanAt h.a j
    let cj := h.c.map fun c => h.tanAt c j
    let has := decide (j + 1 ≤ b.kb)
    let t := accumulate f h.rm h.K chunk (fun i k =>
      if b.skips n k (i % n) then []
      else prodOf (s.aVal h aj (i / n) k) (b.val n 0 k (i % n)) ::
        (if has then [prodOf (s.aVal h h.a (i / n) k) (b.val n (j + 1) k (i % n))] else []))
      steps 0 (start cj) 0#5 []
    let bAj := s.aBound h aj aLen
    let bBj := if has then b.planeBounds.getD (j + 1) 0#32 else 0#32
    let mAj := aAll aj
    let mBj := if has then bAll (j + 1) else mag0
    let bd := bGuard (mA :: mB :: mAj :: mBj :: cMag cj :: t.2.2)
      (bSum (prodBound h.K bAj bB mAj mB :: prodBound h.K bA bBj mA mBj :: cB cj :: hs t.2.2))
    (⟨t.1.map (BitVec.ofNat 64), bd⟩ : Plane)
  (⟨primal.1.map (BitVec.ofNat 64), pb⟩ :: tans, (begins h.c).foldl (fun f x => f ||| x.2) primal.2.1)

/-! ### Trip test (R109) -/

/-- Whether a plane trips: its bound is +∞ or above 2^−t · max|C|. -/
def Plane.trips (f : FSpec) (t : Nat) (p : Plane) : Bool :=
  match magOfBound p.bound, maxMag f (p.cells.map (·.toNat)) with
  | some (m, e), some (n, k) => !magLe (some (m, e)) (some (n, k - t))
  | _, _ => true

/-- ntrip of R104: bit 0 the primal, bit j tangent j. -/
def Hire.trip (h : Hire) : BitVec 5 :=
  if !h.bthr.getLsbD 9 then 0#5
  else
    let f := if h.wide || h.afmt = .d then fp64 else fp32
    let t := h.bthr.toNat % 64
    let bits := (List.range h.planes.length).map fun i =>
      match h.planes[i]? with
      | some p => if p.trips f t then 2 ^ (if i = 0 then 0 else h.sel.getD (i - 1) 0 + 1) else 0
      | none => 0
    BitVec.ofNat 5 (bits.foldl (· + ·) 0)

/-! ### Landing (R101, R107) -/

/-- The format the tile lands in; raw keeps the hire's accumulator format (R318, R110). -/
def Hire.landFmt (h : Hire) : Fmt := if h.dfmt = .raw then h.afmt else h.dfmt
def Hire.accFmt (h : Hire) : Fmt := if h.wide then .d else h.afmt
def Hire.planeLines (h : Hire) : Nat := h.rows * h.cols * fmtWidth h.landFmt / 512
def Hire.total (h : Hire) : Nat := h.planeLines * (1 + h.ntan)

/-- The tick in which the last beat of a line arrives (R101). -/
def Hire.dueTick (h : Hire) (line : Nat) : Nat :=
  let per := 512 / fmtWidth h.landFmt
  let b := h.accBytes h.wide
  let i := line % max 1 h.planeLines
  h.land + (line / max 1 h.planeLines) * ceilDiv (h.rows * h.cols * b) 16384 + (ceilDiv ((i + 1) * per * b) 256 - 1) / 64

/-- A plane converted for landing: elements, bound and flags. -/
def Hire.converted (h : Hire) (p : Plane) : List Nat × Word32 × Flags :=
  let xs := p.cells.map (·.toNat)
  if h.landFmt = h.accFmt then (xs, p.bound, 0#5)
  else
    let rs := xs.map (cvt h.accFmt h.landFmt h.rm h.sat8)
    let b := match fspec? h.landFmt with
      | some f => bAdd p.bound (halfUlp f (maxMag f (rs.map (·.1))))
      | none => 0#32
    (rs.map (·.1), b, rs.foldl (fun a r => a ||| r.2) 0#5)

/-! ### The end of a hire (R102 to R104, R113) -/

/-- The batten a hire's handle names, live (R320). -/
def State.battenLive (s : State) (part : Nat) (h : Word) : Option (Nat × Batten) := s.battenOf part h s.arrHalf

/-- The batten or booking handle has gone stale, or the hirer was killed (R112, R113). -/
def State.hireStale (s : State) (h : Hire) : Bool :=
  h.doomed || (s.battenLive h.part h.bat).isNone ||
  (match h.booked with
    | some (k, _) => (match s.bookOf k with | some (_, _, b) => b.state == .cancelled | none => true)
    | none => false)

/-- The status word (R104). -/
def Hire.status (h : Hire) (endc : Nat) (tick : Nat) : Word :=
  BitVec.ofNat 64 ((h.ltick.getD tick) % 2 ^ 32 * 2 ^ 32 + h.pcause.toNat * 2 ^ 24 + endc * 2 ^ 16 +
    (if h.moved then 2 ^ 15 else 0) + (if h.rerun then 2 ^ 14 else 0) + h.ntrip.toNat * 256 + h.flags.toNat)

/-- A hire that has ended gives back its window; its status word waits for a bank that another booking has claimed (R113, R119,
log 118). -/
def State.holdEnd (s : State) (op endc : Nat) (h : Hire) : State :=
  let s := s.freeHire h (fun _ => false)
  { s with hires := s.hires.ins op { h with state := .checked, ending := some endc }, hallWait := s.hallWait.filter (· != op) }

/-- The fixed order of R103: status word, ranges, counter, cause. endc: the end field. -/
def State.endHire (s : State) (op endc : Nat) : State :=
  match s.hires.look op with
  | none => s
  | some h =>
    if s.bankShut h.booked (spKey h.core h.sta) then s.holdEnd op (h.ending.getD endc) h
    else
    let endc := h.ending.getD endc
    let landed := decide (endc ≤ 2)
    let st : HireState := if landed then .landed else if endc = 3 then .revoked else if endc = 4 then .faulted else .failed
    let s := s.modCore h.core fun c => c.spPut h.sta 8 ({ h with flags := if landed then h.flags else 0#5 }.status endc s.tick.toNat).toNat 0#32 false
    let s := s.release op
    let s := s.freeHire h (fun _ => false)
    let s := match h.bidx with
      | some i => if 4096 ≤ i then s.delBook (ridgeOf h.core) i else s
      | none => s
    let s := { s with hires := s.hires.ins op { h with state := st, todo := [] }, hallWait := s.hallWait.filter (· != op) }
    let s := if landed then s.landOn h.thid h.lnum else s
    let s := if endc = 1 then s.postCause h.thid 0x8C#8 (BitVec.ofNat 64 h.sta)
      else if endc = 4 then s.postCause h.thid 0x85#8 (BitVec.ofNat 64 h.sta) else s
    let s := s.modThr h.thid fun t => { t with outHr := t.outHr - 1 }
    let s := { s with hires := s.hires.del op }
    let s := s.pokeAll fun t => match t.wait with | .saving x => x == h.thid | _ => false
    (s.poke h.thid).tryFree h.thid

/-- A landing line is due in the tick in hand: one for the scratchpad is performed in it (R101). -/
def State.postLine (s : State) (h : Hire) (op : Nat) : State :=
  if h.dev then s.postOnce (.landingLine op)
  else if s.agenda.any (fun p => decide (p.ev = .landingLine op)) then s else s.postHard (.landingLine op) s.cycle

/-- A hire waits at the hall for a window (R105, R106, R110, R126). -/
def State.awaitWindow (s : State) (op : Nat) (h : Hire) : State :=
  let s := s.freeHire h (fun _ => false)
  let h := { h with state := .placed, bidx := none, start := 0, wend := 0, since := some s.tick.toNat }
  let s := { s with hires := s.hires.ins op h, hallWait := s.hallWait ++ [op] }
  s.postOnce (.hirePlacement (ridgeOf h.core))

/-- A landing line due now is looked for. -/
def State.lineDue (s : State) (h : Hire) : Bool :=
  h.state == .landing && decide (h.lines < h.total) && decide (h.dueTick h.lines ≤ s.tick.toNat)

/-- The tile goes down: landing ticks begin (R102, R109). -/
def State.landHire (s : State) (op : Nat) (h : Hire) : State :=
  let h := { h with state := .landing, flags := h.flags ||| (match h.planes.head? with
    | some p => (h.converted p).2.2
    | none => 0#5) }
  let s := { s with hires := s.hires.ins op h }
  if s.lineDue h then s.postLine h op else s

/-- R109 after a window whose checksums match. An allotment whose slates have all failed, or hold no slate that fits the tile, counts
as one without a slate (DESIGN CHOICE, log 132). -/
def State.tripTest (s : State) (op : Nat) (h : Hire) (sp : BitVec 2) : State :=
  let nt : BitVec 5 := if h.wide then 0#5 else h.trip
  if nt = 0#5 then s.landHire op h
  else
    let s := s.count (lgTrip h.arr h.half)
    let h := { h with ntrip := nt, tripped := true }
    let slates := s.hireArrays { h with wide := true, miss := 0 }
    let long := s.hireClass h != 0#2 && decide (112 < h.wideTicks sp)
    if !h.bthr.getLsbD 8 || h.afmt == .d || slates.isEmpty || long then s.landHire op h
    else s.awaitWindow op { h with wide := true, miss := 0, planes := [] }

/-- The ticks, array and lane of a hire follow its booking's entry. -/
def State.followBook (s : State) (op : Nat) (h : Hire) (b : Booking) : State :=
  let ent := match h.booked with | some (_, e) => e | none => 0
  let (lo, hi, _) := b.window ent
  let arr := b.ivals.findSome? fun i => match i.res with
    | .array a x => if i.ent = ent then some (a, x) else none
    | _ => none
  let w := h.wend - h.start
  match arr with
  | some (a, x) =>
    let lane := (b.ivals.findSome? fun i => match i.res with | .up _ l => if i.ent = ent then some l else none | _ => none).getD h.lane
    { s with hires := s.hires.ins op { h with arr := a, half := x, quads := [(a, x)], lane := lane, start := lo, wend := lo + w,
                                              land := hi + 1, moved := true } }
  | none => s

/-- The hall places a hire afresh at once, or lets it wait (R105, R106). -/
def State.placeOrWait (s : State) (op : Nat) (h : Hire) : State :=
  let w := s.awaitWindow op h
  match w.hires.look op, s.battenLive h.part h.bat with
  | some h', some (_, b) => (w.placeHire op h' b.sp).getD w
  | _, _ => w

/-- The arrays of a list of intervals that have failed. -/
def State.deadIn (s : State) (is : List Ival) : List (Nat × Nat) :=
  (is.filterMap fun i => match i.res with | .array a h => if s.arrFailed a h then some (a, h) else none | _ => none).eraseDups

/-- The entries of a booking that took a failed array go to another one of its kind; the others keep their resources. -/
def Booking.refit (b : Booking) (dead : List (Nat × Nat)) : List SheetEnt :=
  let fix (k : Nat) (e : SheetEnt) : SheetEnt :=
    if let some x := dead.find? (fun x => b.ivals.any fun i => i.ent == k && i.res == .array x.1 x.2) then
      { e with kind := if 64 ≤ x.1 then 3#4 else 2#4 }
    else match b.ivals.findSome? fun i => match i.res with
        | .array a _ => if i.ent = k then some (1, a) else none
        | .slot _ n => if i.ent = k then some (5, n) else none
        | _ => none with
      | some (kind, r) => { e with kind := BitVec.ofNat 4 kind, res := r }
      | none => e
  (List.range b.sheet.ents.length).filterMap fun k => (b.sheet.ents[k]?).map (fix k)

/-- A booking that held a failed array is booked again, first-fit on another one of its kind and shape (R106); with no array of
the kind left, the hires placed in its entries on that array end failed (R102). One that finds no start while arrays of the kind
remain is cancelled in its place (log 114). -/
def State.rebook (s : State) (ridge idx : Nat) (b : Booking) : State :=
  let dead := s.deadIn b.ivals
  let arrs (sh : Bool) : List (Nat × Nat) := (s.arraysOf b.part ridge sh).filter fun x =>
    dead.any fun y => shapeOf x.1 x.2 == shapeOf y.1 y.2
  let under := s.hires.filter fun e => e.2.bidx == some idx && ridgeOf e.2.core == ridge && e.2.state == .placed
  match s.findStart b.part b.core b.sheet.cls arrs (b.refit dead) (max b.sheet.earliest (s.tick.toNat + 2)) none true (some idx) with
  | none =>
    let lost := under.filter fun e => dead.any fun y => (arrs (decide (64 ≤ y.1))).isEmpty &&
      b.ivals.any fun i => some i.ent == e.2.booked.map (·.2) && i.res == .array y.1 y.2
    let s := lost.foldl (fun s e => s.endHire e.1 5) s
    match (s.books ridge).look idx with
    | some b => s.cancelBook ridge idx b false
    | none => s
  | some (start, is) =>
    let b := { b with start := start, ivals := is, moved := true }
    under.foldl (fun s e => s.followBook e.1 e.2 b) (s.setBook ridge idx b)

/-- What held a failed array from now on is booked again, in start order (R106). -/
def State.rebookHeld (s : State) (arr half : Nat) : State :=
  let ridge := arrRidge arr
  let held := sortBooks ((s.books ridge).filter fun e => e.2.state == .committed &&
    e.2.ivals.any fun i => i.res == .array arr half)
  held.foldl (fun s e =>
    match e.2.hire with
    | some op => match s.hires.look op with
      | some h => if h.state == .placed then s.placeOrWait op { h with lost := true, miss := 0 } else s
      | none => s
    | none => s.rebook ridge e.1 e.2) s

/-- A second mismatch: the array leaves the calendars, the tile is booked elsewhere or ends failed, and then what held the array
is booked again (R106). -/
def State.failArray (s : State) (op : Nat) (h : Hire) (arr half : Nat) : State :=
  let s := { s with failedArr := s.failedArr ++ [(arr, half)] }.count (lgFail arr half)
  let s := s.postCause h.thid 0x8D#8 (BitVec.ofNat 64 arr)
  let s := if (s.hireArrays h).isEmpty then State.endHire { s with hires := s.hires.ins op h } op 5 else s.placeOrWait op h
  s.rebookHeld arr half

end Sys2Proof.Machine
end

