-- ==== Sys2Proof/Machine/Engine.lean ====
section
/-!
DEFINITION. The engine instructions at issue: opcodes 0xA0 to 0xA7 and 0xC8 (R315 to R330).
-/
namespace Sys2Proof.Machine

/-! ### Scratchpad ranges and their formats -/

/-- Every bank a range lies in holds a format. -/
def Core.banksHold (c : Core) (f : Fmt) (a n : Nat) : Bool :=
  (List.range ((a + n - 1) / 65536 + 1 - a / 65536)).all fun i => c.bankFmt ((a / 65536 + i) * 65536) == f
/-- A range of the own scratchpad, aligned to 64 bytes. -/
def spRange (a n : Nat) : Bool := a % 64 == 0 && decide (a + n ≤ Config.spBytes)
/-- A range lies in one bank. -/
def oneBank (a n : Nat) : Bool := a / 65536 == (a + n - 1) / 65536

def Core.regs (c : Core) : List Word := (List.range 16).map c.fmtReg

/-- The first overlap of two named ranges in a list. -/
def firstOverlap : List (Nat × Nat) → Option Nat
  | [] => none
  | (a, n) :: r =>
    match r.find? (fun x => decide (a < x.1 + x.2) && decide (x.1 < a + n)) with
    | some x => some (max a x.1)
    | none => firstOverlap r

def wordNat (n : Nat) : Word := BitVec.ofNat 64 n

/-! ### Bookings named by an instruction (R124, R316) -/

/-- The live booking a handle names for an instruction of the thread (R316). -/
def bookNamed (h : Word) : M (Nat × Nat × Booking) := do
  let s ← get
  match s.bookOf h with
  | some (r, i, b) => if r ≠ ridgeOf s.th.core ∨ b.part ≠ s.th.part then trap 0x84#8 h else pure (r, i, b)
  | none => trap 0x84#8 h

/-- The checks of R124 on the entry and its window: first and last window tick and landing ticks. -/
def entryWindow (h : Word) (b : Booking) (ent : Nat) (fits : SheetEnt → Bool) : M (Nat × Nat × Nat) := do
  let s ← get
  match b.sheet.ents[ent]? with
  | none => trap 0x8E#8 h
  | some e =>
    if !fits e then trap 0x8E#8 h
    else
      let w := b.window ent
      -- a booking cancelled in its place has no window left (log 114)
      if b.state == .pending || b.state == .saved || b.state == .cancelled || decide (w.2.1 < s.tick.toNat) then trap 0x88#8 h
      else pure w

/-- The start of a booked operation issued now (R124). -/
def bookedStart (tick ws : Nat) : Nat := if tick < ws then ws else tick + 1

/-- Every piece registers at once (R88). -/
def registersNow (st wait : List Piece) : List Piece → Bool
  | [] => true
  | p :: r => canRegister st wait p && registersNow (st ++ [p]) wait r

/-! ### hire (R317 to R319) -/

/-- The address ranges of a tile and of its tangents. -/
def planeAddrs (a : Nat) (sel : List Nat) (ts : Nat) : List Nat := a :: sel.map fun j => (a + (j + 1) * ts) % 2 ^ 64

/-- Where the pages of a range begin. -/
def pagesOf (a len : Nat) : List Nat :=
  (List.range ((a % 4096 + len + 4095) / 4096)).map fun i => if i = 0 then a else (a / 4096 + i) * 4096 % 2 ^ 64

/-- A page lies far or on another core, as its translation says, whatever the page permits (R318, R319). -/
def State.awayPage (s : State) (core part : Nat) (va : Nat) : Bool :=
  let v := va % 2 ^ 48
  let off (f : Nat) : Bool := isFar f || homeCore f != core
  canonical (wordNat va) && match (s.core core).tlb.find? (·.has part (v / 4096)) with
    | some e => off ((e.pfn + (v / 4096 - e.vpn)) * 4096)
    | none => match s.walk core part v with
      | (.ok l, _) => off ((s.contigLeaf core l v).2 + v % 2 ^ levelBits l.level)
      | (.error _, _) => false

/-- Translate a plane of a device destination page by page: its segments. A page that moves or is compressed is touched (R75). -/
def destSegs : Nat → List Seg → Nat → Nat → Nat → M (List Seg)
  | 0, segs, _, _, _ => pure segs
  | n + 1, segs, off, va, len =>
    if len = 0 then pure segs
    else do
      let c := min len (4096 - va % 4096)
      let a := wordNat va
      let s ← get
      let t := s.th
      let (o, s') := s.translate t.core t.part t.user a .write
      set s'
      match o with
      | .fault code => trapHere code a
      | .touch leaf pte => touch a leaf pte
      | .ok pa => destSegs n (pushSeg t.core segs off pa c) (off + c) ((va + c) % 2 ^ 64) (len - c)

/-- The segments of every destination plane. -/
def allDest (len : Nat) : List Nat → Nat → M (List Seg)
  | [], _ => pure []
  | a :: r, off => do
    let xs ← destSegs (len / 4096 + 2) [] off a len
    let ys ← allDest len r (off + len)
    pure (xs ++ ys)

/-- The other half of a split slate belongs to another partition (R160). -/
def State.splitOff (s : State) (part n : Nat) : Bool :=
  decide (n < 64) && (s.arrHalf part n).any (· != 0) && s.parts.any fun e => e.1 != part && (s.arrHalf e.1 n).isSome

def execHire (h : Head) (d a b c : Fld) (e : HireEng) (s : State) := runU h (do
  let bk := e.kind == .bk
  -- d is not written: its bit 40 is a wait-empty bit out of place (R222, R317), after a reserved specifier (R221)
  if d.sync && !(bk && specReserved d.spec) then trap 0x23#8 (d.spec.zeroExtend 64)
  check1 ((if bk then [(.rs, d)] else []) ++ [(.rs, a), (.rs, b), (.rs, c)])
  let hd ← if bk then readS d else pure 0#64
  let av ← readS a
  let bh ← readS b
  let cv ← readS c
  let s ← get
  let t := s.th
  let core := t.core
  let ridge := ridgeOf core
  let k := s.core core
  -- steps 1 to 3
  let win ← if bk then do
      let (_, i, bo) ← bookNamed hd
      let w ← entryWindow hd bo e.ent.toNat fun x => decide (1 ≤ x.kind.toNat) && decide (x.kind.toNat ≤ 3)
      pure (some (i, bo, w))
    else pure none
  -- step 4
  let arr : Option Nat := match win with
    | some (_, bo, _) => (bo.ivals.findSome? fun i => match i.res with
        | .array n _ => if i.ent = e.ent.toNat then some n else none
        | _ => none)
    | none => if e.kind == .at then some e.arr.toNat else none
  match arr with
  | some n => if arrRidge n ≠ ridge ∨ (s.arrHalf t.part n).isNone ∨ (e.kind = .at ∧ s.splitOff t.part n) then trap 0x8A#8 (wordNat n)
  | none => pure ()
  -- step 5
  match s.battenLive t.part bh with
  | none => trap 0x84#8 bh
  | some (key, bat) =>
  if arrRidge (key / 4) ≠ ridge then trap 0x84#8 bh
  else do
  -- step 6
  let shape := shapeOf (key / 4) (key % 4)
  let m := if shape = 2 then 256 else if shape = 1 then 64 else 128
  let n := if shape = 2 then 256 else 128
  let afmt : Fmt := if bat.fmt = .d then .d else .s
  let sel := t.sel
  let ts := t.tstride.toNat
  let aLen := m * bat.K * fmtWidth bat.fmt / 8
  let cLen := m * n * fmtWidth afmt / 8
  let cofs := 64 * e.cofs.toNat
  let badA (x : Nat) : Bool := !spRange x aLen || !k.banksHold bat.fmt x aLen || (bat.fmt == .f4 && !oneBank x aLen)
  if (planeAddrs av.toNat sel ts).any badA then trap 0x8B#8 (a.spec.zeroExtend 64)
  let op := s.nextOp
  let hr : Hire :=
    { thid := t.thid, core := core, part := t.part, kind := e.kind, arr := arr.getD 0, half := key % 4, bat := bh, a := av.toNat,
      c := if e.hc then some cofs else none, dst := cv.toNat, dev := e.dsp,
      dfmt := if e.dsp then fmtOf e.dfmt.toNat else k.bankFmt cv.toNat, sta := 8 * e.sta.toNat, lnum := e.lnum.toNat,
      rm := t.rmode e.rc, sat8 := t.sat8, bthr := t.bthr, cls := e.cls, k := t.k, sel := sel, tstride := ts, afmt := afmt,
      K := bat.K, rows := m, cols := n, booked := if bk then some (hd, e.ent.toNat) else none, bidx := none, start := 0,
      wend := 0, land := 0, lane := 0, state := .issued, rerun := false, moved := false, miss := 0, wide := false,
      tripped := false, ntrip := 0#5, flags := 0#5, planes := [], lines := 0, ltick := none, pcause := 0#8, ready := false,
      arrives := 0, quads := [], todo := [], doomed := false, fmt := bat.fmt, regs := k.regs, dstSeg := [], user := t.user, since := none,
      lost := false, ending := none }
  let w := hr.ticks bat.sp
  let misfit := match arr with
    | some x => shapeOf x ((s.arrHalf t.part x).getD 0) != shape
    | none => (e.kind == .sh) != (shape == 2)
  if bat.state != 1 || misfit || (!bk && e.cls != 0#2 && decide (112 < w)) then trap 0x8B#8 (b.spec.zeroExtend 64)
  if e.hc && (planeAddrs cofs sel ts).any (fun x => !spRange x cLen || !k.banksHold afmt x cLen) then trap 0x8B#8 97#64
  let legal := match hr.dfmt with | .d | .s | .bf | .e4 | .e5 | .raw => true | _ => false
  let dLen := m * n * fmtWidth hr.landFmt / 8
  let dsts := planeAddrs cv.toNat sel ts
  let bad6 := !legal || (e.dsp && decide (e.dfmt = 6#4)) || dsts.any (· % 64 != 0) ||
    (!e.dsp && dsts.any fun x => !spRange x dLen || !k.banksHold hr.dfmt x dLen) ||
    (e.dsp && dsts.any fun x => (pagesOf x dLen).any (s.awayPage core t.part))
  if bad6 then trap 0x8B#8 (c.spec.zeroExtend 64)
  -- step 7
  match win with
  | some (_, _, ws, we, land) =>
    if we < bookedStart s.tick.toNat ws + w - 1 ∨ land < hr.landing false then trap 0x89#8 hd
  | none => pure ()
  -- steps 8 to 10
  if !sel.isEmpty && t.tstride = 0#64 then trap 0x24#8 t.tstride
  let segs ← if e.dsp then allDest dLen dsts 0
    else pure ((List.range dsts.length).map fun i => (dLen * i, spKey core (dsts.getD i 0), dLen))
  if 16 ≤ t.outHr then trapHere 0x8F#8 16#64
  -- step 11
  let aR := (planeAddrs av.toNat sel ts).map fun x => (x, aLen)
  let scR := if bat.fmt = .f4 then
      aR.map (fun x => (scaleAddr hr.regs x.1, aLen / 4)) ++
        (aR.map fun x => (bandAddr hr.regs x.1 0, 2 * (m / 64))).eraseDups
    else []
  let cR := if e.hc then (planeAddrs cofs sel ts).map fun x => (x, cLen) else []
  let dR := dsts.map fun x => (x, dLen)
  let sR := (hr.sta, 8)
  match firstOverlap (aR ++ scR ++ cR ++ (if e.dsp then [] else dR) ++ [sR]), (if e.dsp then firstOverlap dR else none) with
  | some x, _ => trapHere 0x83#8 (wordNat x)
  | none, some x => trapHere 0x83#8 (wordNat x)
  | none, none => pure ()
  -- step 12
  let rd := (aR ++ scR ++ cR).map fun x => (core, (⟨spKey core x.1, spKey core x.1 + x.2, false, op⟩ : Piece))
  let ps := sortPieces (rd ++ piecesOf core op true 0 (dLen * dsts.length) segs ++
    [(core, ⟨spKey core hr.sta, spKey core hr.sta + 8, true, op⟩)])
  if bk && !registersNow k.stencil k.stWait (ps.map (·.2)) then trapHere 0x82#8 hd
  releaseWait
  let hr := match win with
    | some (i, bo, ws, we, _) =>
      let st := bookedStart s.tick.toNat ws
      { hr with bidx := some i, start := st, wend := st + w - 1, land := we + 1, state := .placed, todo := ps,
                quads := (bo.ivals.findSome? fun (x : Ival) => match x.res with
                  | .array n y => if x.ent = e.ent.toNat then some (n, y) else none
                  | _ => none).toList,
                half := (bo.ivals.findSome? fun (x : Ival) => match x.res with
                  | .array _ y => if x.ent = e.ent.toNat then some y else none
                  | _ => none).getD 0 }
    | none => { hr with todo := ps }
  modify fun (s : State) =>
    let s := { s with nextOp := op + 1, hires := s.hires.ins op { hr with dstSeg := segs } }
    ((s.modTh fun t => { t with outHr := t.outHr + 1 }).traffic s.cur).regNext op
  pure .fall) s

/-! ### Tracer operations -/

def CopyOp.blank (t : Thread) (kind : CopyKind) : CopyOp :=
  { kind := kind, thid := t.thid, core := t.core, part := t.part, idx := 0, handle := 0#64, slot := none, booked := none,
    start := 0, state := .queued, src := ⟨0#3, t.core, 0, 0⟩, dst := ⟨0#3, t.core, 0, 0⟩, cb := none, count := 0, sfmt := .raw,
    dfmt := .raw, rm := .rne, sat8 := t.sat8, lnum := 0, op := 0#2, cls := t.prio, user := t.user, members := [],
    batKey := 0, batHandle := 0#64, K := 0, sp := 0#2, kb := 0, tstride := t.tstride.toNat, total := 0, sent := 0, lines := 0,
    secLo := 0, secHi := 0, todo := [], srcSeg := [], dstSeg := [], started := false, ready := false, stop := none, why := 0#8,
    splits := 0, flags := 0#5, regs := [], uncounted := false, entered := false, bslot := none, stopAt := none,
    acc := ⟨0#32, none, 0#32, 0#32, 0#32, false⟩, scB := 0#32 }

/-- The index a new operation of a thread takes: the lowest with none outstanding (R84, log 139). -/
def State.copyIndex (s : State) (id : Word32) : Option Nat :=
  (List.range 32).find? fun i => !s.copies.any fun e => e.2.thid == id && e.2.idx == i && (e.2.live || e.2.state == .squashed)

/-- The copies of a device when a thread's index is used anew: the outcome under the old handle is gone, and of a done copy that the
filled count does not cover yet only its place in the buffer is left (R86, R95). -/
def forgetCopy (copies : Tbl CopyOp) (id : Word32) (idx : Nat) : Tbl CopyOp :=
  copies.filterMap fun e =>
    if e.2.thid == id && e.2.idx == idx && !e.2.live then
      (if e.2.uncounted then some (e.1, { e.2 with thid := 0#32, handle := 0#64 }) else none)
    else some e

/-- A new operation begins: index, generation, slot, and the registration of its first section (R83 to R88). -/
def State.beginCopy (s : State) (o : CopyOp) (idx : Nat) (slot : Option Nat) : Word × State :=
  let t := s.thr o.thid
  let g : BitVec 16 := match t.copyGen.look idx with | some g => nextGen g | none => 1#16
  let hd : Word := g ++ (BitVec.ofNat 16 idx) ++ o.thid
  let op := s.nextOp
  let s := s.setThr o.thid { t with copyGen := t.copyGen.ins idx g, outCp := t.outCp + 1 }
  let s := { s with nextOp := op + 1
                    copies := Tbl.ins (forgetCopy s.copies o.thid idx) op { o with idx := idx, handle := hd, slot := slot } }
  (hd, (s.formSection op).traffic o.thid)

/-- Issue an operation that takes a slot, or write 0 when none is free (R83, R315). -/
def issueCopy (d : Fld) (o : CopyOp) (handle : Word → Word) (before : State → State) : M Ctl := do
  releaseWait
  let s ← get
  match s.copyIndex s.cur, s.freeSlot o.core with
  | some idx, some n => do
    modify before
    let s ← get
    let (hd, s') := s.beginCopy o idx (some n)
    set s'
    writeS d (handle hd)
    pure .fall
  | _, _ => do
    writeS d 0#64
    pure .fall

/-! ### batld, batfree (R320 to R322) -/

/-- Batten bytes of a load (R321). -/
def batSize (f : Fmt) (K n kb : Nat) (sp : BitVec 2) : Nat :=
  let q := (K + 63) / 64
  let e := fmtWidth f / 8
  let N := keepOf sp
  if f = .f4 then
    if sp = 0#2 then (1 + kb) * (K * n / 2 + K * n / 8) + 2 * q else (1 + kb) * (q * n * (N / 2 + 8) + K * n / 8) + 2 * q
  else if sp = 0#2 then (1 + kb) * K * n * e else (1 + kb) * q * n * (N * e + 8)

def execBatld (h : Head) (d a b : Fld) (e : BatEng) (s : State) := runU h (do
  check1 [(.ws, d), (.rs, a), (.rs, b)]
  let av ← readS a
  let bv ← readS b
  let s ← get
  let t := s.th
  let k := s.core t.core
  let arr := bv.toNat
  let f := fmtOf e.fmt.toNat
  let kb := e.kb.toNat
  let K := e.km1.toNat + 1
  let n := if 64 ≤ arr then 256 else 128
  let js := List.range kb
  let len := K * n * fmtWidth f / 8
  let as := planeAddrs av.toNat js t.tstride.toNat
  if e.sp = 3#2 then trap 0x02#8 107#64
  else if 4 < kb then trap 0x02#8 104#64
  else match (if arr < 128 ∧ arrRidge arr = ridgeOf t.core then s.arrHalf t.part arr else none) with
  | none => trap 0x8A#8 bv
  | some half => do
    let key := 4 * arr + half
    let old := s.battens.look key
    match old with
    | some x => if x.state ≤ 1 then trap 0x84#8 (batHandle key x)
    | none => pure ()
    match as.find? (· % 64 != 0) with
    | some x => trap 0x48#8 (wordNat x)
    | none => pure ()
    if !e.ssp then
      match as.find? (fun x => decide (Config.spBytes < x + len)) with
      | some x => trap 0x47#8 (wordNat (x + len - 1))
      | none => pure ()
    let suits := if 64 ≤ arr then f == .f4 else (match f with | .d | .s | .bf | .e4 | .e5 => true | _ => false)
    let banks := e.ssp || as.all (k.banksHold f · len)
    let f4 := f != .f4 || (!e.ssp && as.all fun x => x / 65536 == av.toNat / 65536 && oneBank x len)
    let cap := if half = 0 then 0x400000 else 0x200000
    if e.fmt = 6#4 ∨ !suits ∨ !banks ∨ !f4 ∨ cap < batSize f K n kb e.sp then trap 0x8B#8 (a.spec.zeroExtend 64)
    if 1 ≤ kb ∧ t.tstride = 0#64 then trap 0x24#8 t.tstride
    let g : BitVec 16 := match old with | some x => x.gen | none => 1#16
    let bat : Batten := ⟨g, t.thid, t.part, 0, f, K, e.sp, kb, 0#32, [], [], 0, 0, 0#8⟩
    let bh := batHandle key bat
    let o := { CopyOp.blank t .batld with
      src := ⟨if e.ssp then 2#3 else 0#3, t.core, av.toNat, 0⟩, sfmt := f, dfmt := f, lnum := e.lnum.toNat, batKey := key,
      batHandle := bh, K := K, sp := e.sp, kb := kb, regs := k.regs }
    let o := { o with total := (o.srcParts.map fun x => (x.2.2 + 63) / 64).foldl (· + ·) 0 }
    issueCopy d o (fun _ => bh) (fun s => { s with battens := s.battens.ins key bat })) s

/-- The generation advances in every mirror; a load and every hire that name the batten are revoked. -/
def execBatfree (h : Head) (a : Fld) (s : State) := runU h (do
  check1 [(.rs, a)]
  let x ← readS a
  let s ← get
  match s.battenLive s.th.part x with
  | none => trap 0x84#8 x
  | some (key, _) =>
    if arrRidge (key / 4) ≠ ridgeOf s.th.core then trap 0x84#8 x
    else do
      modify fun s =>
        let s := s.freeBatten key 3 0#8
        let s := s.pokeHires fun r => r.bat == x
        let s := (s.copies.filter fun e => e.2.live && e.2.batHandle == x && e.2.kind == .batld).foldl
          (fun s e => s.postOnce (.tracerLine e.2.core)) s
        (s.startWait s.cur (.batfree x)).post (.waitEvent s.cur) 0 32
      pure .held) s

/-! ### copy, copyr (R323 to R326) -/

/-- The format of an endpoint: for a scratchpad that of the bank of its first byte (log 25), for a circular buffer that of the bank
of its base (log 126), else the field's (R91). -/
def State.endFmt (s : State) (e : Endpoint) (cb : Option Nat) (field : Nat) : Fmt :=
  if e.space = 0#3 ∨ e.space = 1#3 then (s.core e.core).bankFmt (e.addr % 2 ^ 20)
  else if e.space = 5#3 then (s.core e.core).bankFmt (((s.core e.core).cbuf (cb.getD 0)).base)
  else fmtOf field

/-- An endpoint from a space and an address; an .rsp core outside the partition gives none (R323, R137). -/
def State.endpoint (s : State) (space : BitVec 3) (x : Word) (port : Nat) : Option Endpoint :=
  let t := s.th
  if space = 1#3 then
    let off := x.toNat % 2 ^ 20
    let lc := x.toNat / 2 ^ 32 % 1024
    if x.toNat ≠ lc * 2 ^ 32 + off then none
    else (s.inPart t.part lc).map fun c => ⟨space, c, off, port⟩
  else some ⟨space, t.core, x.toNat, port⟩

def isSpSpace (x : BitVec 3) : Bool := x == 0#3 || x == 1#3

/-- The bit of the first field that makes a pair of endpoints illegal (R323 to R326); an endpoint on a core outside the partition
has no bank, and so no format to be illegal (log 133). -/
def pairBad (red : Bool) (e : CopyEng) (sf df : Option Fmt) : Option Nat :=
  let spDst := isSpSpace e.dsp || e.dsp == 5#3
  if 5 ≤ e.ssp.toNat then some 125
  else if 6 ≤ e.dsp.toNat ∨ (red ∧ !(isSpSpace e.dsp || e.dsp == 2#3)) then some 122
  else if !isSpSpace e.ssp ∧ e.sfmt = 6#4 then some 118
  else if !spDst ∧ e.dfmt = 6#4 then some 114
  else match sf, df with
    | _, none => none
    | none, some df => if red ∧ !df.isF then some 114 else none
    | some sf, some df =>
      if red ∧ !df.isF then some 114
      else if sf = .raw ∨ df = .raw ∨ sf = df then none
      else if sf = .f4 then some 118
      else if df = .f4 ∧ !spDst then some 114
      else if sf.isI ∧ df.isI then some 114
      else none

/-- Where two endpoints overlap, as the copy names them (R87). -/
def nameOverlap (a b : Endpoint) (n m : Nat) : Option Nat :=
  let same := (isSpSpace a.space && isSpSpace b.space && a.core == b.core) || (a.space == b.space && a.space == 2#3) ||
    (a.space == b.space && a.space == 3#3) || (a.space == b.space && a.space == 4#3 && a.port == b.port)
  if same ∧ a.addr < b.addr + m ∧ b.addr < a.addr + n then some (max a.addr b.addr) else none

/-- The checks and the issue shared by copy and copyr. A range over banks of two formats has that of its first one (log 25). -/
def copyIssue (red : Bool) (d a b c : Fld) (e : CopyEng) : M Ctl := do
  -- the handle of .bk is read without the wait-empty bit of d, which is for the write (R59, R222)
  let dr : Fld := { d with sync := false }
  check1 ((if e.bk then [(.rs, dr)] else []) ++ [(.ws, d), (.rs, a), (.rs, b), (.rs, c)])
  let s0 ← get
  if red && s0.th.pre then trap 0x90#8 0#64
  let hd ← if e.bk then readS dr else pure 0#64
  let av ← readS a
  let bv ← if e.dsp = 5#3 then pure 0#64 else readS b
  let cv ← readS c
  let s ← get
  let t := s.th
  let core := t.core
  let cb : Option Nat := if e.dsp = 5#3 then some e.cbn.toNat else none
  let port := e.port.toNat
  let src := s.endpoint e.ssp av port
  let dst := s.endpoint e.dsp bv port
  let sf? := src.map fun x => s.endFmt x none e.sfmt.toNat
  let df? := dst.map fun x => s.endFmt x cb e.dfmt.toNat
  let sf := sf?.getD .raw
  let df := df?.getD .raw
  -- steps 1 and 2
  match pairBad red e sf? df? with
  | some p => trap 0x02#8 (wordNat p)
  | none => pure ()
  if (red && e.op = 3#2) || (!red && e.op ≠ 0#2) then trap 0x02#8 94#64
  -- steps 3 to 5
  let win ← if e.bk then do
      let (_, _, bo) ← bookNamed hd
      let w ← entryWindow hd bo e.ent.toNat fun x => (x.kind == 5#4 || x.kind == 6#4) && e.ssp == 0#3 && e.dsp == 0#3
      pure (some (w, bo.slotOf e.ent.toNat))
    else pure none
  -- step 6
  let o := { CopyOp.blank t (if red then .copyr else .copy) with
    src := src.getD ⟨e.ssp, core, 0, port⟩, dst := dst.getD ⟨e.dsp, core, 0, port⟩, cb := cb, count := cv.toNat, sfmt := sf,
    dfmt := df, rm := t.rmode e.rc, lnum := e.lnum.toNat, op := e.op, booked := if e.bk then some (hd, e.ent.toNat) else none }
  let sb := cv.toNat * o.sWidth
  let db := cv.toNat * o.dWidth
  if av.toNat % 64 ≠ 0 then trap 0x48#8 av
  if cb.isNone && bv.toNat % 64 ≠ 0 then trap 0x48#8 bv
  if sb % 512 ≠ 0 then trap 0x48#8 (wordNat (sb / 8))
  if db % 512 ≠ 0 then trap 0x48#8 (wordNat (db / 8))
  -- step 7
  let slen := sb / 8
  let dlen := db / 8
  if src.isNone || (isSpSpace e.ssp && decide (Config.spBytes < o.src.addr + slen)) then trap 0x47#8 av
  if dst.isNone || (isSpSpace e.dsp && decide (Config.spBytes < o.dst.addr + dlen)) then trap 0x47#8 bv
  if cv.toNat = 0 ∨ 2 ^ 24 < cv.toNat then trap 0x47#8 cv
  match cb with
  | some x => if ((s.core core).cbuf x).size < dlen then trap 0x47#8 (wordNat dlen)
  | none => pure ()
  if red && decide (2 ^ 20 < dlen) then trap 0x47#8 (wordNat dlen)
  -- step 8
  let (hb, hl) := match s.part t.part with | some p => (p.desc.hostBase.toNat, p.desc.hostLen.toNat) | none => (0, 0)
  if e.ssp = 3#3 ∧ (av.toNat < 0x1040 ∨ hl < av.toNat + slen) then trap 0x49#8 av
  if e.dsp = 3#3 ∧ (bv.toNat < 0x1040 ∨ hl < bv.toNat + dlen) then trap 0x49#8 bv
  -- step 9
  let lines := max (slen / 64) (dlen / 64)
  let start := match win with | some ((ws, _, _), _) => bookedStart s.tick.toNat ws | none => 0
  match win with
  | some ((_, we, _), _) => if we < start + (lines + 15) / 16 - 1 then trap 0x89#8 hd
  | none => pure ()
  -- step 10
  match (if cb.isSome then none else nameOverlap o.src o.dst slen dlen) with
  | some x => trap 0x83#8 (wordNat x)
  | none => pure ()
  let o := { o with
    src := { o.src with addr := if e.ssp = 3#3 then hb + av.toNat else o.src.addr }
    dst := { o.dst with addr := if e.dsp = 3#3 then hb + bv.toNat else o.dst.addr }
    total := lines, start := if s.tick.toNat < start ∧ win.isSome then (match win with
      | some ((ws, _, _), _) => if s.tick.toNat < ws then 0 else start
      | none => 0) else 0,
    bslot := win.bind (·.2),
    regs := (s.core o.dst.core).regs }
  if !e.bk then issueCopy d o id id
  else do
    -- step 12
    let k := s.core core
    let ps := sortPieces [(core, ⟨spKey core o.src.addr, spKey core o.src.addr + slen, false, s.nextOp⟩),
      (core, ⟨spKey core o.dst.addr, spKey core o.dst.addr + dlen, true, s.nextOp⟩)]
    if !registersNow k.stencil k.stWait (ps.map (·.2)) then trap 0x82#8 hd
    releaseWait
    match s.copyIndex s.cur with
    | none => do
      writeS d 0#64
      pure .fall
    | some idx => do
      let s ← get
      let (x, s') := s.beginCopy o idx none
      set s'
      writeS d x
      pure .fall

def execCopy (h : Head) (d a b c : Fld) (e : CopyEng) (s : State) := runU h (copyIssue false d a b c e) s
def execCopyr (h : Head) (d a b c : Fld) (e : CopyEng) (s : State) := runU h (copyIssue true d a b c e) s

/-! ### mcast (R327) -/

/-- The physical cores of an interval of the partition, or none when a core of it lies outside (R158). -/
def State.interval (s : State) (part base len : Nat) : Option (List Nat) :=
  match s.part part with
  | none => none
  | some p => (List.range len).mapM fun i => s.inPart part (p.desc.base + base + i)

def execMcast (h : Head) (d a b c : Fld) (e : McastEng) (s : State) := runU h (do
  check1 [(.ws, d), (.rs, a), (.rs, b), (.rs, c)]
  let av ← readS a
  let bv ← readS b
  let cv ← readS c
  let s ← get
  let t := s.th
  match (if e.len = 0#11 then none else s.interval t.part e.base.toNat e.len.toNat) with
  | none => trap 0x02#8 106#64
  | some cores =>
    match [av, bv, cv].find? (fun x => x.toNat % 64 != 0) with
    | some x => trap 0x48#8 x
    | none =>
      if Config.spBytes < av.toNat + cv.toNat then trap 0x47#8 av
      else if Config.spBytes < bv.toNat + cv.toNat then trap 0x47#8 bv
      else if cv.toNat = 0 ∨ 2 ^ 20 < cv.toNat then trap 0x47#8 cv
      else if cores.contains t.core ∧ av.toNat < bv.toNat + cv.toNat ∧ bv.toNat < av.toNat + cv.toNat then
        trap 0x83#8 (wordNat (max av.toNat bv.toNat))
      else
        let o := { CopyOp.blank t .mcast with
          src := ⟨0#3, t.core, av.toNat, 0⟩, dst := ⟨0#3, t.core, bv.toNat, 0⟩, count := cv.toNat, lnum := e.lnum.toNat,
          members := cores, total := cv.toNat / 64, regs := (s.core t.core).regs }
        issueCopy d o id id) s

/-! ### Bookings (R328, R329) -/

/-- The sheet at an offset of the own scratchpad, as captured at issue. -/
def sheetAt (a : Word) : M Sheet := do
  let s ← get
  let k := s.core s.th.core
  let n := k.spNat (a.toNat + 16) 8 % 32
  if a.toNat % 64 ≠ 0 then trap 0x48#8 a
  else if Config.spBytes < a.toNat + 32 then trap 0x47#8 (a + 31#64)
  else if Config.spBytes < a.toNat + 32 + 8 * n then trap 0x47#8 (a + BitVec.ofNat 64 (31 + 8 * n))
  else if k.stencil.any (fun p => p.hits (spKey s.th.core a.toNat) (32 + 8 * n) && p.write) then trap 0x81#8 a
  else do
    softCheck a.toNat (32 + 8 * n)
    pure (sheetOf ((List.range (4 + n)).map fun i => BitVec.ofNat 64 (k.spNat (a.toNat + 8 * i) 8)))

/-- The place of a sheet on its way to the hall, outside the booking table. -/
def transit (op : Nat) : Nat := 2 ^ 20 + op

/-- The sheet goes to the hall in its class (R115, R121, R328). -/
def State.submit (s : State) (sh : Sheet) (d : Fld) (early : Bool) : State :=
  let t := s.th
  let ridge := ridgeOf t.core
  let idx := transit s.nextOp
  let b : Booking := ⟨1#16, t.thid, t.part, t.core, .submitted, sh, 0, [], false, 0#8, early, some d, none⟩
  let s := State.setBook { s with nextOp := s.nextOp + 1 } ridge idx b
  s.post (.bookAttempt ridge idx) (chanHall ridge (sh.cls == 0#2)) 32

def bookIssue (d a : Fld) (early : Bool) : M Ctl := do
  check1 [(.ws, d), (.rs, a)]
  let x ← readS a
  let sh ← sheetAt x
  handOut d
  modify fun s => (s.submit sh d early).traffic s.cur
  pure .fall

def execBook (h : Head) (d a : Fld) (s : State) := runU h (bookIssue d a false) s
def execBookH (h : Head) (d a : Fld) (s : State) := runU h (bookIssue d a true) s

def execUnbook (h : Head) (d a : Fld) (s : State) := runU h (do
  check1 [(.ws, d), (.rs, a)]
  let x ← readS a
  let (r, i, b) ← bookNamed x
  handOut d
  modify fun s =>
    if b.live || b.state == .saved then (s.cancelBook r i b).answer s.cur d 0#64 32
    else s.answer s.cur d 1#64 32
  pure .fall) s

/-! ### Status of handles (R330) -/

def CopyState.code : CopyState → Nat
  | .queued => 0 | .running => 1 | .done => 2 | .revoked => 3 | .poisoned => 4 | .faulted => 5 | .squashed => 6
def BookState.code : BookState → Nat
  | .submitted | .pending => 0 | .committed => 1 | .started => 2 | .ended => 3 | .cancelled => 4 | .saved => 5

/-- The answer for a handle that names nothing. -/
def unknownStat : Word := 0xF00#64

/-- Destination lines written whole: those counted, where the source has more of them, fill it in parts (R86). -/
def CopyOp.written (o : CopyOp) : Nat := o.lines / o.parts

def CopyOp.stat (o : CopyOp) : Word :=
  wordNat (o.written % 2 ^ 32 * 2 ^ 32 + o.why.toNat * 2 ^ 24 + min o.splits 255 * 2 ^ 16 + o.state.code * 2 ^ 8 + o.flags.toNat)

def Booking.stat (b : Booking) : Word :=
  let start := if b.state == .pending || b.state == .saved then 0 else b.start
  wordNat (start % 2 ^ 32 * 2 ^ 32 + (if b.moved then 2 ^ 15 else 0) + b.state.code * 2 ^ 8 + b.code.toNat)

def Batten.stat (b : Batten) : Word :=
  wordNat (b.lines % 2 ^ 17 * 2 ^ 47 + (b.K - 1) * 2 ^ 32 + fmtCode b.fmt * 2 ^ 28 + b.sp.toNat * 2 ^ 26 + b.kb * 2 ^ 23 +
    min b.splits 255 * 2 ^ 15 + b.state * 2 ^ 8 + b.why.toNat)

/-- A batten's status under its live handle, or under the handle of its last failed load; one of the other ridge die is stale
(R316). -/
def State.battenStat (s : State) (part ridge : Nat) (h : Word) : Word :=
  let arr := h.toNat / 2 ^ 32 % 128
  match (if arrRidge arr = ridge then s.arrHalf part arr else none) with
  | none => unknownStat
  | some half =>
    match s.battens.look (4 * arr + half) with
    | none => unknownStat
    | some b =>
      if batHandle (4 * arr + half) b == h && decide (b.state ≤ 1) then b.stat
      else
        let g := h.extractLsb' 48 16
        if b.state = 2 ∧ nextGen g = b.gen ∧ batHandle (4 * arr + half) { b with gen := g } = h then b.stat else unknownStat

/-- A thread is resident on a core: also one that has exited and is not freed yet (R53, R54). -/
def State.residentOn (s : State) (core : Nat) (id : Word32) : Bool :=
  let t := s.thr id
  (s.threads.look id.toNat).isSome && t.core == core && t.life != .swappedOut && t.life != .migrating

def execHstatCp (h : Head) (d a : Fld) (s : State) := runU h (do
  check1 [(.ws, d), (.rs, a)]
  let x ← readS a
  let s ← get
  match s.copies.find? fun e => e.2.handle == x && e.2.kind != .batld && e.2.core == s.th.core && s.residentOn s.th.core e.2.thid with
  | some e => writeS d e.2.stat
  | none => writeS d unknownStat
  pure .fall) s

def execHstatBk (h : Head) (d a : Fld) (s : State) := runU h (do
  check1 [(.ws, d), (.rs, a)]
  let x ← readS a
  handOut d
  modify fun s => s.answer s.cur d (match s.bookHere x with
    | some (_, _, b) => b.stat
    | none => unknownStat) 32
  pure .fall) s

def execHstatBt (h : Head) (d a : Fld) (s : State) := runU h (do
  check1 [(.ws, d), (.rs, a)]
  let x ← readS a
  handOut d
  modify fun s => s.answer s.cur d (s.battenStat s.th.part (ridgeOf s.th.core) x) 32
  pure .fall) s

end Sys2Proof.Machine
end

