-- ==== Sys2Proof/Machine/Save.lean ====
section
/-!
DEFINITION. Creating a thread (R42, R46, R238, R239, R253), and saving and restoring one: squashed copies
(R93), booking records (R127), ctxsv and ctxld (R261, R262).
-/
namespace Sys2Proof.Machine

/-! ### Creation -/

/-- Threads resident on a core (R53): exited ones too, until they are freed. -/
def State.residents (s : State) (core : Nat) : Nat :=
  (s.threads.filter fun e => e.2.core == core && e.2.life != .migrating && e.2.life != .swappedOut).length
/-- The number a creation takes: 0 on a core with none reserved, else the next free one after that handed out last (R239, R361,
R363, log 111). -/
def Core.freeNumber (c : Core) : Option Nat :=
  let first := if c.resv.isEmpty then 0 else c.numNext
  ((List.range 64).map fun i => (first + i) % 64).find? fun n => (c.resv.look n).isNone

/-- The shape and initial values a creation gives a thread (R46). -/
structure Birth where
  roaming : Bool
  W : Nat
  V : Nat
  k : Nat
  dual : Bool
  prio : BitVec 2
  tstride : Word
  bthr : Word
  slice : Nat
  qlink : Word
  rank : Nat
  gsize : Nat
  entry : Word
  img : List Word
  deriving DecidableEq, Repr

/-- status of a new user thread (R46, R48, R128). -/
def Birth.status (b : Birth) : BitVec 12 :=
  BitVec.ofNat 12 (4 + (if 1 ≤ b.k then 8 + 64 * (b.k - 1) else 0) + (if b.roaming then 16 else 0) + (if b.dual then 32 else 0))

/-- The context engine fills a free thread of a core: its thid, or none when no place or number is free. The
thread is not on a run list yet. -/
def State.newThread (s : State) (core part : Nat) (b : Birth) : Option (Word32 × State) :=
  let c := s.core core
  let serial : BitVec 16 := if c.serial + 1#16 = 0#16 then 1#16 else c.serial + 1#16
  if 64 ≤ s.residents core then none
  else match c.freeNumber with
  | none => none
  | some n =>
    let id : Word32 := BitVec.ofNat 32 (serial.toNat * 65536 + core % 1024 * 64 + n)
    let tvec := match s.part part with | some p => p.desc.tvec | none => 0#64
    let t : Thread := { Thread.blank with
      thid := id, part := part, core := core, life := .ready, roaming := b.roaming, W := b.W, V := b.V, k := b.k,
      pc := b.entry, pcMode := .line, status := b.status, tvec := tvec, tstride := tstrideKept b.tstride,
      bthr := bthrKept b.bthr, slice := b.slice, prio := b.prio, qlink := qlinkKept b.qlink, rank := b.rank, gsize := b.gsize }
    let t := (List.range b.W).foldl (fun t i => t.setG i (b.img.getD i 0#64)) t
    let s := s.setCore core { c with serial := serial, numNext := (n + 1) % 64, resv := c.resv.ins n id }
    some (id, s.setThr id t)

/-- The book attempt made for a new thread: it waits unseated on g0 (R142, R253). -/
def State.bookFor (s : State) (id : Word32) (sh : Sheet) : State :=
  let cur := s.cur
  let s := s.modThr id fun t => { (t.setFull 0 false) with outSt := t.outSt + 1, life := .waitUnseated,
                                                           wait := .fullBit 0#8 true, waitSince := s.now }
  let s := State.submit { s with cur := id } sh ⟨0#8, false⟩ false
  { s with cur := cur }

/-- A sheet as far as it lies in the scratchpad; one that extends beyond it, or has a bad nent, is malformed. -/
def sheetFrom (ds : List Word) (fits : Bool) : Sheet :=
  let sh := sheetOf ds
  { sh with bad := sh.bad || !fits }

/-- Fields of a task or creation record's control dword (R138). -/
def recBad (d0 : Nat) : Bool := d0 / 2 ^ 60 != 0 || d0 % 2 ^ 32 != 0
def recShapeOk (d0 : Nat) : Bool :=
  shapeOk (d0.testBit 53) (d0 / 2 ^ 40 % 256) (d0 / 2 ^ 32 % 256) (d0 / 2 ^ 49 % 8) (d0.testBit 52)
def birthOf (d0 : Nat) (d : Nat → Word) (entry : Word) (img : List Word) : Birth :=
  { roaming := d0.testBit 53, W := d0 / 2 ^ 40 % 256, V := d0 / 2 ^ 32 % 256, k := d0 / 2 ^ 49 % 8, dual := d0.testBit 52,
    prio := BitVec.ofNat 2 (d0 / 2 ^ 54), tstride := d 5, bthr := d 6, slice := (d 7).toNat % 65536, qlink := d 8, rank := 0,
    gsize := 1, entry := entry, img := img }

/-- A stop has come for the threads of a partition (R164). -/
def State.stopTicks (s : State) (part : Nat) : Bool :=
  (s.holdAt.any fun x => decide (x ≤ s.tick.toNat)) ||
    (match s.parts.look part with | some q => q.stop.any fun x => decide (x ≤ s.tick.toNat) | none => false)

/-! ### A place on a core comes free (R53, R54, R142, R152) -/

/-- Create of R142 on a record that has been checked: the thread starts, with its book attempt when sv = 1. none:
no thread or number is free. -/
def State.createTask (s : State) (core off : Nat) : Option State :=
  let c := s.core core
  let d (i : Nat) : Word := BitVec.ofNat 64 (c.spNat (off + 8 * i) 8)
  let d0 := (d 0).toNat
  let img := (List.range (d0 / 2 ^ 40 % 256)).map fun i => BitVec.ofNat 64 (c.spNat ((d 3).toNat + 8 * i) 8)
  match s.partOf core with
  | none => none
  | some part =>
    match s.newThread core part (birthOf d0 d (d 2) img) with
    | none => none
    | some (id, s) =>
      let s := s.modThr id fun t => { t with task := some (BitVec.ofNat 64 (core * 2 ^ 32 + off)) }
      let s := s.modCore core fun c =>
        (c.spWrite off (leBytes 8 (d0 % 2 ^ 56 + d0 / 2 ^ 60 * 2 ^ 60 + 3 * 2 ^ 56))).spWrite (off + 72) (leBytes 8 id.toNat)
      if d0.testBit 48 then
        let so := (d 4).toNat
        let n := c.spNat (so + 16) 8 % 32
        let fits := decide (so + 32 + 8 * n ≤ Config.spBytes)
        some (s.bookFor id (sheetFrom ((List.range (if fits then 4 + n else 4)).map fun i =>
          BitVec.ofNat 64 (c.spNat (so + 8 * i) 8)) fits))
      else some (s.joinRun id)

/-- The head of the highest-priority pending chain is created (R142); a stop leaves the chains as they are (R144). -/
def State.createPending (s : State) (core : Nat) : State :=
  if (s.partOf core).any s.stopTicks then s
  else match (s.core core).pending.find? (fun e => !e.2.isEmpty) with
  | some (p, off :: r) =>
    match s.createTask core off with
    | some s' => s'.modCore core fun c => { c with pending := c.pending.put [] p r }
    | none => s
  | _ => s

/-- Pending chains go on after a stop: every free place takes the next head (R142, R144). -/
def State.createAll (s : State) (core : Nat) : State :=
  if (s.core core).pending.all (·.2.isEmpty) then s else (List.range 64).foldl (fun s _ => s.createPending core) s

/-- A resident place or a number of a core has come free: an arrival that waits enters, a pending task starts, and
a dispatch that waits for the core goes on. -/
def State.roomFreed (s : State) (core : Nat) : State :=
  let s := match (s.core core).arrivals with
    | id :: _ => s.postOnce (.migrationArrival id core)
    | [] => s
  let s := s.createPending core
  (s.kernels.filter fun e => e.2.state == .dispatching).foldl (fun s e =>
    match (List.range e.2.len).find? fun r => s.physOf (e.2.base + r) == some core && e.2.heard.contains r && (e.2.ranks.look r).isNone with
    | some r => s.postOnce (.dispatchMulticast e.1 r)
    | none => s) s

/-! ### spawn (R253) -/

/-- Scratchpad lines of a range can be read: no write lock, no soft error. -/
def State.spReadable (s : State) (core o n : Nat) : Bool :=
  let c := s.core core
  (stencilCause c.stencil (spKey core o) n false).isNone &&
    !c.softErr.any fun l => decide (l * 64 < o + n) && decide (o < l * 64 + 64)

/-- Copies of a thread whose landing an engine message waits for are none: landings are counters the thread
waits on (R253). -/
def execSpawn (h : Head) (d a b : Fld) (imm : BitVec 32) (s : State) := runU h (do
  check1 [(.ws, d), (.rs, a), (.rs, b)]
  let av ← readS a
  let bv ← readS b
  let o ← spCheck bv 128 128 false
  let s ← get
  let t := s.th
  let c := s.core t.core
  let w (i : Nat) : Word := BitVec.ofNat 64 (c.spNat (o + 8 * i) 8)
  let d0 := (w 0).toNat
  let entry := t.pc + sext 32 imm
  let W := d0 / 2 ^ 40 % 256
  let sv := d0.testBit 48
  let target : Option Nat := if av = 0xFFFFFFFFFFFFFFFF#64 then some t.core else s.inPart t.part av.toNat
  let io := (w 3).toNat
  let so := (w 4).toNat
  let n := min (c.spNat (so + 16) 8 % 32) 16
  let avail := if Config.spBytes < so + 32 then 0 else min n ((Config.spBytes - so - 32) / 8)
  let bad1 := recBad d0 || !recShapeOk d0 || entry.toNat % 128 != 0
  let bad4 := io % 64 != 0 || decide (Config.spBytes < io + 8 * W) ||
    (sv && (so % 64 != 0 || decide (Config.spBytes < so + 32) || !s.spReadable t.core so (32 + 8 * avail))) ||
    !s.spReadable t.core io (8 * W)
  let st : Word := if bad4 then 4#64 else if target.isNone then 3#64 else if bad1 then 1#64 else 0#64
  match st.toNat, target with
  | 0, some core => do
    handOut d
    let sheet := if sv then some ((List.range (4 + avail)).map fun i => BitVec.ofNat 64 (c.spNat (so + 8 * i) 8)) else none
    let req : SpawnReq := ⟨core, s.cur, d, w 0, entry, (List.range 9).map w, (List.range W).map fun i => BitVec.ofNat 64 (c.spNat (io + 8 * i) 8), sheet⟩
    modify fun s => (s.post (.spawnRequest req) (chanTask s.cur core) 16).traffic s.cur
    pure .fall
  | _, _ => do
    writeS d st
    pure .fall) s

/-- The target core acts on a spawn request: the answer and the machine. -/
def State.spawnAt (s : State) (r : SpawnReq) : Word × State :=
  let part := (s.thr r.src).part
  let d (i : Nat) : Word := r.init.getD i 0#64
  match s.newThread r.core part (birthOf r.ctl.toNat d r.entry r.image) with
  | none => (2#64, s)
  | some (id, s) =>
    let s := match r.sheet with
      | some ds =>
        let n := (ds.getD 2 0#64).toNat % 32
        s.bookFor id (sheetFrom ds (decide (4 + n ≤ ds.length)))
      | none => s.joinRun id
    (id.zeroExtend 64, s)

/-! ### Squashed copies (R86, R93) -/

/-- The operation an event belongs to. -/
def opOf : Instr → Option Nat
  | .registrationRequest op _ | .registrationGrant op _ | .copyRunning op | .startMessage op | .copyData op _
  | .copyReport op => some op
  | _ => none

/-- A copy is squashed: it releases its ranges and waits to be issued again whole. -/
def State.squash (s : State) (op : Nat) : State :=
  match s.copies.look op with
  | none => s
  | some o =>
    let s := s.release op
    let s := { s with agenda := s.agenda.filter fun p => opOf p.ev != some op }
    -- a buffer slot already taken stays the copy's own (entered); one behind it in the buffer is looked at again
    let s := { s with copies := s.copies.ins op { o with
        state := .squashed, slot := none, booked := none, bslot := none, sent := 0, lines := 0, secLo := 0, secHi := 0, todo := [],
        started := false, ready := false, stop := none, stopAt := none, flags := 0#5 } }
    match o.cb with
    | some c => s.cbChanged o.core c
    | none => s

/-- A thread's copies that a save squashes, oldest first. loads: the loads of battens too, which a tenant switch lets run to
their end (R320). -/
def State.squashable (s : State) (id : Word32) (loads : Bool := true) : List (Nat × CopyOp) :=
  s.copies.filter fun e => e.2.thid == id && e.2.live && e.2.kind != .copyr && (loads || e.2.kind != .batld)

def State.squashAll (s : State) (id : Word32) (loads : Bool := true) : State :=
  (s.squashable id loads).foldl (fun s e => s.squash e.1) s

/-- Bit fields of a record: the values with their widths, the lowest first. -/
def packBits : List (Nat × Nat) → Nat
  | [] => 0
  | (x, w) :: r => x % 2 ^ w + 2 ^ w * packBits r
/-- A field of a word. -/
def bitsAt (x : Word) (lo n : Nat) : Nat := x.toNat / 2 ^ lo % 2 ^ n

def CopyKind.code : CopyKind → Nat
  | .copy => 0 | .copyr => 1 | .mcast => 2 | .batld => 3
def RMode.code : RMode → Nat
  | .rne => 0 | .rtz => 1 | .rup => 2 | .rdn => 3
def rmodeAt (n : Nat) : RMode := match n with | 0 => .rne | 1 => .rtz | 2 => .rup | _ => .rdn

/-- The record of a squashed copy (R93): its handle, and behind it what the re-issue needs, as the model lays it out (log 96).
first: the logical number of a multicast's first member. -/
def CopyOp.record (o : CopyOp) (first : Nat) : List Byte :=
  dwords [o.handle, wordNat o.src.addr, wordNat o.dst.addr, wordNat (packBits [(o.count, 32), (first, 10), (o.members.length, 11)]),
    wordNat (packBits [(o.kind.code, 2), (o.src.space.toNat, 3), (o.dst.space.toNat, 3), (o.src.core, 10), (o.dst.core, 10),
      (o.src.port, 3), (o.dst.port, 3), (fmtCode o.sfmt, 4), (fmtCode o.dfmt, 4), (o.rm.code, 2), (if o.sat8 then 1 else 0, 1),
      (o.lnum, 4), (o.op.toNat, 2), (o.cls.toNat, 2), (if o.user then 1 else 0, 1), (if o.cb.isSome then 1 else 0, 1),
      (o.cb.getD 0, 4)]),
    wordNat (packBits [(o.K, 17), (o.sp.toNat, 2), (o.kb, 3), (o.batKey, 10)]), wordNat o.tstride, o.batHandle]

/-- The copy a record describes, for a thread whose copies the device does not hold. -/
def State.copyOfRecord (s : State) (id : Word32) (core : Nat) (rec : List Byte) : CopyOp :=
  let t := s.thr id
  let d (i : Nat) : Word := dwAt rec 0 i
  let f (lo n : Nat) : Nat := bitsAt (d 4) lo n
  let kind : CopyKind := match f 0 2 with | 0 => .copy | 1 => .copyr | 2 => .mcast | _ => .batld
  let o := { CopyOp.blank t kind with
    handle := d 0, idx := (d 0).toNat / 2 ^ 32 % 32, src := ⟨BitVec.ofNat 3 (f 2 3), f 8 10, (d 1).toNat, f 28 3⟩,
    dst := ⟨BitVec.ofNat 3 (f 5 3), f 18 10, (d 2).toNat, f 31 3⟩, count := bitsAt (d 3) 0 32, sfmt := fmtOf (f 34 4),
    dfmt := fmtOf (f 38 4), rm := rmodeAt (f 42 2), sat8 := f 44 1 == 1, lnum := f 45 4, op := BitVec.ofNat 2 (f 49 2),
    cls := BitVec.ofNat 2 (f 51 2), user := f 53 1 == 1, cb := if f 54 1 = 1 then some (f 55 4) else none,
    members := (List.range (bitsAt (d 3) 42 11)).filterMap fun i => s.inPart t.part (bitsAt (d 3) 32 10 + i),
    K := bitsAt (d 5) 0 17, sp := BitVec.ofNat 2 (bitsAt (d 5) 17 2), kb := bitsAt (d 5) 19 3, batKey := bitsAt (d 5) 22 10,
    tstride := (d 6).toNat, batHandle := d 7, regs := (s.core core).regs, state := .squashed }
  { o with total := match kind with
      | .copy | .copyr => o.count * max o.sWidth o.dWidth / 512
      | .mcast => o.count / 64
      | .batld => (o.srcParts.map fun x => (x.2.2 + 63) / 64).foldl (· + ·) 0 }

/-- The load of a batten is issued again whole: nothing of the squashed one counts (R93, R320). -/
def State.clearLoad (s : State) (o : CopyOp) : State :=
  match s.battens.look o.batKey with
  | some b => if o.kind == .batld && batHandle o.batKey b == o.batHandle then
      { s with battens := s.battens.ins o.batKey { b with lines := 0, bound := 0#32, planeBounds := [], data := [] } } else s
  | none => s

/-- A squashed copy is issued again whole on the core of the restore, under its own handle and without a booking; a buffer slot
it has taken is its own on its core only, and without one it comes behind the copies issued into the buffer since (R93, R95,
log 113). -/
def State.reissueCopy (s : State) (id : Word32) (core : Nat) (rec : List Byte) : State :=
  let h := dwAt rec 0 0
  let here (x : Endpoint) : Endpoint := if x.space = 0#3 ∨ x.space = 5#3 then { x with core := core } else x
  let go (s : State) (op : Nat) (o : CopyOp) : State :=
    let s := s.clearLoad o
    let o := { o with state := .queued, entered := o.entered && o.core == core, core := core, src := here o.src, dst := here o.dst,
                      slot := s.freeSlot core }
    State.formSection { s with copies := s.copies.ins op o } op
  match s.copies.find? fun e => e.2.thid == id && e.2.handle == h && e.2.state == .squashed with
  | some (op, o) =>
    if o.cb.isNone || (o.entered && o.core == core) then go s op o
    else go { s with nextOp := s.nextOp + 1, copies := s.copies.del op } s.nextOp o
  | none =>
    let o := s.copyOfRecord id core rec
    let op := s.nextOp
    go ({ s with nextOp := op + 1, copies := forgetCopy s.copies id o.idx }.modThr id fun t =>
      { t with copyGen := t.copyGen.ins o.idx (h.extractLsb' 48 16), outCp := t.outCp + 1 }) op o

/-! ### Booking records (R127) -/

def SheetEnt.word (e : SheetEnt) : Word :=
  wordNat (e.dur * 2 ^ 50 + e.off * 2 ^ 36 + e.land * 2 ^ 28 + e.kind.toNat * 2 ^ 16 + e.res)
def Sheet.control (sh : Sheet) : Word :=
  wordNat (sh.lval * 2 ^ 32 + sh.lkind.toNat * 2 ^ 26 + sh.lnum * 2 ^ 20 + (if sh.slide then 256 else 0) + sh.cls.toNat * 64 +
    sh.ents.length)

/-- A sheet with the resources fixed at commit (R127). -/
def Booking.fixed (b : Booking) : Sheet :=
  { b.sheet with ents := (List.range b.sheet.ents.length).filterMap fun k => (b.sheet.ents[k]?).map fun e =>
      match b.ivals.findSome? fun i => (match i.res with
        | .array a _ => if i.ent = k then some (1, a) else none
        | .slot _ n => if i.ent = k then some (5, n) else none
        | _ => none) with
      | some (kind, r) => { e with kind := BitVec.ofNat 4 kind, res := r }
      | none => e }

def bookRecord (h : Word) (offset : Nat) (sh : Sheet) : List Byte :=
  dwords ([h, wordNat offset, sh.control, 0#64] ++ (List.range 16).map fun i => match sh.ents[i]? with
    | some e => e.word
    | none => 0#64)

/-- A hire that has not ended. -/
def Hire.open' (h : Hire) : Bool := match h.state with
  | .issued | .placed | .running | .checked | .landing => true
  | .landed | .revoked | .faulted | .failed => false

/-- The committed and pending bookings of a thread, with hall and index; one that a hire or a copyr still runs under drains
first (R94). -/
def State.savable (s : State) (id : Word32) : List (Nat × Nat × Booking) :=
  [0, 1].flatMap fun r => ((s.books r).filter fun e => e.2.thid == id && e.2.hire.isNone &&
    (e.2.state == .committed || e.2.state == .pending) &&
    !s.hires.any (fun h => h.2.open' && (match h.2.booked with | some (k, _) => k == e.2.handle r e.1 | none => false)) &&
    !s.copies.any (fun o => o.2.live && o.2.kind == .copyr &&
      (match o.2.booked with | some (k, _) => k == e.2.handle r e.1 | none => false))).map fun e => (r, e.1, e.2)

/-- The bookings are saved and their ticks freed; offsets count from the save tick, and a pending one has none. -/
def State.saveBooks (s : State) (id : Word32) (tick : Nat) : State :=
  (s.savable id).foldl (fun s (r, i, b) =>
    let s := s.setBook r i { b with state := .saved, sheet := b.fixed, ivals := [] }
    let x : SavedBook := ⟨r, i, if b.state = .pending then none else some (b.start - tick), b.ivals⟩
    { s with savedBooks := s.savedBooks ++ [x] }) s

/-- Section 0x000B of the image of a thread whose copies are squashed and whose bookings are saved: booking records, then
copy records (R93, R127). -/
def State.records (s : State) (id : Word32) : List (List Byte) :=
  (s.savedBooks.filterMap fun x => match (s.books x.ridge).look x.idx with
    | some b => if b.thid = id then some (bookRecord (b.handle x.ridge x.idx) (x.off.getD 0) b.sheet) else none
    | none => none) ++
  ((s.copies.filter fun e => e.2.thid == id && e.2.state == .squashed).map fun e =>
    e.2.record ((e.2.members.head?.bind s.logOf).getD 0))

def Ival.later (i : Ival) (d : Nat) : Ival := { i with lo := i.lo + d, hi := i.hi + d }

/-- The booking a record describes, for a thread whose bookings the halls do not hold. -/
def bookOfRecord (id : Word32) (part core : Nat) (rec : List Byte) : Booking :=
  let ds := [0#64, 0#64, dwAt rec 0 2, 0#64] ++ (List.range 16).map fun i => dwAt rec 0 (4 + i)
  ⟨(dwAt rec 0 0).extractLsb' 48 16, id, part, core, .saved, sheetOf ds, 0, [], false, 0#8, false, none, none⟩

/-- A record is booked again (R127): after a hold each booking keeps its place; else at the tick plus its offset on its fixed
resources, or where that fails at the earliest later start, and with none it is cancelled. -/
def State.rebookRecord (s : State) (id : Word32) (part core tick : Nat) (hold : Bool) (rec : List Byte) : State :=
  let h := dwAt rec 0 0
  let r := if h.getLsbD 47 then 1 else 0
  let i := h.toNat / 2 ^ 32 % 4096
  let off := (dwAt rec 0 1).toNat
  let found : Option Booking := match (s.books r).look i with
    | some b => if b.state = .saved then (if b.handle r i = h then some b else none)
      else if b.live then none else some (bookOfRecord id part core rec)
    | none => some (bookOfRecord id part core rec)
  match found with
  | none => s
  | some b =>
    let kept := s.savedBooks.find? fun x => x.ridge == r && x.idx == i
    let s := { s with savedBooks := s.savedBooks.filter fun x => !(x.ridge == r && x.idx == i) }
    let b := { b with part := part, core := core }
    let at' := tick + off
    if off = 0 then (s.setBook r i { b with state := .pending }).postOnce (.pendingBookAttempt r i)
    else match hold, kept with
    | true, some x =>
      let b := { b with state := .committed, start := at', ivals := x.ivals.map (·.later (at' - b.start)) }
      let s := s.setBook r i b
      -- an array that has failed since the save is on no calendar any more (R106)
      if (s.deadIn b.ivals).isEmpty then s else s.rebook r i b
    | _, _ =>
      let arrs := s.arraysOf part r
      if ridgeOf core ≠ r then (s.setBook r i b).cancelBook r i b false
      else match s.findStart part core b.sheet.cls arrs b.sheet.ents at' (some at') true (some i) with
      | some (S, is) => s.setBook r i { b with state := .committed, start := S, ivals := is }
      | none =>
        match s.findStart part core b.sheet.cls arrs b.sheet.ents (max (at' + 1) (s.tick.toNat + 2)) none true (some i) with
        | some (S, is) => s.setBook r i { b with state := .committed, start := S, ivals := is, moved := true }
        | none => (s.setBook r i b).cancelBook r i b false

/-! ### Packets of a stopped set (R165) -/

/-- Flits of a packet, or of the train of them that a spawn request is (R43, R177, R184, R253). -/
def State.flitsOf (s : State) : Instr → Nat
  | .spawnRequest r => 4 * (1 + (r.image.length + 15) / 16 + (match r.sheet with | some ds => (ds.length + 15) / 16 | none => 0))
  | .qputRequest _ _ _ _ _ => 4
  | .migrationArrival id _ => 1 + (s.thr id).W / 4
  | _ => 1

/-- The core whose router holds a packet of a set that is stopped or out: that of the sender (log 97). -/
def State.savedFrom (s : State) (ev : Instr) : Option Nat :=
  match ev with
  | .queueEntry core dir _ =>
    let src := neighbour core (dirCode dir)
    match s.partOf src with
    | some p => if s.stopTicks p then some src else none
    | none => none
  | .migrationArrival id _ =>
    let t := s.thr id
    if t.life == .migrating && s.stopTicks t.part then some t.core else none
  | e => match (match e with | .killRequest src _ _ => some src | e => releaseOf e) with
    | some src =>
      let t := s.thr src
      if (s.threads.look src.toNat).isSome && ((t.life == .swappedOut && decide (3 ≤ t.purpose.toNat)) ||
          (t.life == .exited && s.stopTicks t.part))
      then some t.core else none
    | none => none

/-- The packets in the save buffers: in the order sent, as many as the 64 flits of a router hold; a packet that does not fit
goes on. -/
def State.inBuffers (s : State) : List Posting → List (Nat × Nat) → List (Nat × Posting)
  | [], _ => []
  | p :: r, used => match s.savedFrom p.ev with
    | none => s.inBuffers r used
    | some c =>
      let n := (used.find? (·.1 == c)).elim 0 (·.2)
      if n + s.flitsOf p.ev ≤ 64 then (c, p) :: s.inBuffers r ((c, n + s.flitsOf p.ev) :: used) else s.inBuffers r used

/-- The contents of a core's save buffer as section 0x000C has them: a migration packet as R45 lays it out, while how the flits of
another packet are coded is free (log 97). -/
def State.bufferFlits (s : State) (core : Nat) : List (List Byte) × State :=
  ((s.inBuffers s.agenda []).filter (·.1 == core)).foldl (fun (a : List (List Byte) × State) e => match e.2.ev with
    | .migrationArrival id _ => (a.1 ++ (a.2.thr id).packet.map fun f => leBytes 32 f.toNat, a.2)
    | ev =>
      let n := a.2.flitsOf ev
      (a.1 ++ (List.range n).map fun i => leBytes 32 (Config.saveFlit (a.2.free + i)).toNat, { a.2 with free := a.2.free + n }))
    ([], s)

/-! ### ctxsv (R261) -/

/-- An instruction in flight that a save lets end first (R51). -/
def Wait.inFlight : Wait → Bool
  | .access | .answer | .hostAccess _ _ | .qput _ | .arrival _ | .withdrawal _ _ _ | .batfree _ | .anchor | .entry | .leaving | .port _ | .page _ =>
    true
  | _ => false

/-- Every hire and reduction of a thread has ended (R94, R112). -/
def State.drained (s : State) (id : Word32) : Bool :=
  (s.thr id).outHr == 0 && !s.copies.any fun e => e.2.thid == id && e.2.kind == .copyr && e.2.live

/-- The thread leaves the core with its copies squashed and its bookings saved; a stop or a hold writes its image (R62,
R164). -/
def State.swapOut (s : State) (id : Word32) (purpose tick : Nat) : State :=
  let s := (s.squashAll id (purpose != 3)).saveBooks id tick
  let t := s.thr id
  let s := if 3 ≤ purpose then { s with images := s.images.ins id.toNat (t.image purpose t.core (s.records id)) } else s
  let s := ((s.leaveRun id).vacate id).modCore t.core fun c => { c with tcc := c.tcc.filter (· != id) }
  (s.modThr id fun t => { t with life := .swappedOut, purpose := BitVec.ofNat 8 purpose, saving := false }).roomFreed t.core

/-- The save of the stop that swapped a thread out goes on: what reaches the thread meanwhile goes into its image (R165). -/
def State.saveOpen (s : State) (id : Word32) : Bool :=
  let t := s.thr id
  t.life == .swappedOut && (if t.purpose = 3#8 then
      (match s.parts.look t.part with | some q => q.saved.contains id && q.saveAt.isNone | none => false)
    else t.purpose == 4#8 && s.pstate == .entering)

/-- The image of a saved thread is made whole: the messages that have reached it since, and the save buffer of its core's router
in section 0x000C (R165). -/
def State.sealImage (s : State) (id : Word32) (flits : List (List Byte)) : State :=
  let t := s.thr id
  let img := s.images.lookD id.toNat []
  let u := threadOf img t
  if flits.isEmpty && u.mailbox == t.mailbox && u.ev == t.ev &&& 0x7FFFFFFFFFFFFFFF#64 then s
  else
    let life : Life := match imageState img with | 1 => .waitUnseated | 2 => .seated | 3 => .waitSeated | _ => .ready
    { s with images := s.images.ins id.toNat ({ t with life := life }.image t.purpose.toNat t.core (s.records id) flits) }

/-- Every image of a stop is made whole once its set is saved, core by core. -/
def State.sealImages (s : State) (ids : List Word32) : State :=
  (ids.map fun id => (s.thr id).core).eraseDups.foldl (fun s c =>
    let (fl, s) := s.bufferFlits c
    (ids.filter fun id => (s.thr id).core == c && (s.thr id).life == .swappedOut).foldl (fun s id => s.sealImage id fl) s) s

/-- Lines of a byte string. -/
def linesOf : Nat → List Byte → List (List Byte)
  | 0, _ => []
  | n + 1, bs => if bs.isEmpty then [] else (bs.take 64 ++ List.replicate (64 - (bs.take 64).length) 0#8) :: linesOf n (bs.drop 64)

/-- The addresses of n lines that follow one another. -/
def lineVas (va : Word) (n : Nat) : List Word := (List.range n).map fun i => va + BitVec.ofNat 64 (64 * i)

/-- Write full lines at consecutive addresses, each through Mem.Write (R41, R237): an access of its own to its home port, as the
planes of a store are. All are checked before one is written (R201). -/
def putLines (dev : Bool) (va : Word) (ls : List (List Byte)) : M Unit := do
  let vas := lineVas va ls.length
  if dev then
    let pas ← reachPlanes 64 64 .write vas
    let _ ← forAll (fun pa => do
      portOrder pa
      acquireWait pa 64) pas
    let _ ← forAll (fun (p : Nat × List Byte) =>
      modify fun (s : State) => s.performNow ⟨0, s.cur, p.1, cellsOf p.1 p.2, 0#32, true, none⟩) (pas.zip ls)
  else
    let os ← spPlanes 64 64 true vas
    let _ ← forAll (fun (p : Nat × List Byte) => spSet p.1 64 (leNat p.2) 0#32 true) (os.zip ls)

/-- A rank whose kernel has not been released is not ready (R152). -/
def State.unreleased (s : State) (t : Thread) : Bool :=
  match t.kernel with
  | some k => match s.kernels.look k with
    | some x => x.state == .dispatching || x.state == .released
    | none => false
  | none => false

/-- The thread is resident on the core, and ready or waiting unseated. -/
def State.canSave (s : State) (id : Word32) : Bool :=
  let t := s.thr id
  (s.threads.look id.toNat).isSome && t.core == s.th.core && id != s.cur &&
    ((t.life == .ready && !s.unreleased t) || t.life == .waitUnseated)

def execCtxsv (h : Head) (d a b : Fld) (dev : Bool) (cap : BitVec 16) (s : State) := runI h (some 0x14) (pure ()) (do
  check1 [(.ws, d), (.rs, a), (.rs, b)]
  let xs ← readOps [a, b]
  let x := xs.getD 0 0#64
  let va := xs.getD 1 0#64
  let s ← get
  let id : Word32 := x.setWidth 32
  let t := s.thr id
  let out := (s.squashAll id).saveBooks id s.tick.toNat
  let img := t.image 1 t.core (out.records id)
  if !s.canSave id || id.zeroExtend 64 != x then do
    writeS d 1#64
    pure .fall
  else if 64 * cap.toNat < img.length then do
    writeS d 2#64
    pure .fall
  else if t.wait.inFlight || !s.drained id || !(s.pendOf id).isEmpty then waitFor (.saving id)
  else do
    -- the thread stays as it is while the lines are on their way
    modTh fun u => { u with saveFor := some id }
    putLines dev va (linesOf (img.length / 64 + 1) img)
    modify fun s => s.swapOut id 1 s.tick.toNat
    writeS d (wordNat img.length)
    pure .fall) s

/-! ### ctxld (R262) -/

/-- Read n full lines, each through Mem.Read: an access of its own to its home port, as the planes of a load are. -/
def getLines (dev : Bool) (n : Nat) (va : Word) : M (List Byte) := do
  let vas := lineVas va n
  if dev then
    let pas ← reachPlanes 64 64 .read vas
    let xs ← devGets 64 0 pas
    pure (xs.flatMap fun x => leBytes 64 x.1)
  else
    let os ← spPlanes 64 64 false vas
    let xs ← forAll (fun o => spGet o 64) os
    pure (xs.flatMap fun x => leBytes 64 x.1)

/-- The causes posted to a thread while it was out are posted again, in their order (R204). -/
def State.postAgain (s : State) (id : Word32) : State :=
  let t := s.thr id
  t.posted.foldl (fun s p => s.postCause id p.code p.tval) (s.setThr id { t with posted := [] })

/-- A restored thread joins its core, filled from its image: its bookings are placed, its copies issued again, its refused sends
tried again, and it is ready, or waits on for its event (R53, R63, R93, R127, R256); a state field of 4 to 15 counts as ready (log
124). hold: after a hold. -/
def State.restoreThread (s : State) (id : Word32) (core tick : Nat) (hold : Bool) (img : List Byte) : State :=
  let base := s.thr id
  let t := { threadOf img base with
    core := core, waitTurns := 0, sliceCnt := 0, slicePend := false, atPort := false, reissue := false, bound := false, woke := .none }
  let s := (s.setThr id t).cacheOut id
  let (bks, cps) := imageRecords img
  let s := bks.foldl (fun s r => s.rebookRecord id t.part core tick hold r) s
  let s := cps.foldl (fun s r => s.reissueCopy id core r) s
  let s := s.cacheIn core id
  let s := if t.sends.isEmpty then s else s.postOnce (.sendRetry id) 64
  if s.unreleased t then s.modThr id fun t => { t with life := .ready, wait := .none }
  else if imageState img = 1 ∧ base.wait ≠ .none then
    ((s.modThr id fun t => { t with life := .waitUnseated }).poke id).postAgain id
  else s.joinRun id

/-- A thread of a set that has no image has its squashed copies issued again: one that has exited, or is on its way (R93,
R164, log 113). -/
def State.reissueOwn (s : State) (id : Word32) : State :=
  (s.copies.filter fun e => e.2.thid == id && e.2.state == .squashed).foldl
    (fun s e => s.reissueCopy id (s.thr id).core (e.2.record 0)) s

/-- The bookings of such a thread are placed again as records are, on the core that made them (R127, log 113). -/
def State.rebookOwn (s : State) (id : Word32) (tick : Nat) (hold : Bool) : State :=
  s.savedBooks.foldl (fun s x => match (s.books x.ridge).look x.idx with
    | some b => if b.thid = id then
        s.rebookRecord id b.part b.core tick hold (bookRecord (b.handle x.ridge x.idx) (x.off.getD 0) b.sheet) else s
    | none => s) s

/-- The image a stop or a hold wrote is checked and loaded; one that R65 rejects is a fault of the part, kept as a dump and
counted (R358). -/
def State.restoreSaved (s : State) (id : Word32) (tick : Nat) (hold : Bool) : State :=
  let t := s.thr id
  if (s.threads.look id.toNat).isNone then s
  else if t.life != .swappedOut then (s.rebookOwn id tick hold).reissueOwn id
  else
    let img := s.images.lookD id.toNat []
    if (imageFault img).isSome then { s with dumps := s.dumps.ins t.core img }.count lgBadImage
    else s.restoreThread id t.core tick hold img

/-- The thid an image names (R63). -/
def imageThid (bs : List Byte) : Word32 :=
  BitVec.ofNat 32 (natAt bs (match secOf (secTable bs (natAt bs 10 2)) 1 with | some e => e.off | none => 0) 4)

/-- The creating core answers about the number of an image, and the thread is restored onto a core or not (R239, R262): what ctxld
answers, and the machine after. -/
def State.loadImage (s : State) (core part : Nat) (bs : List Byte) : Word × State :=
  let id := imageThid bs
  let t := s.thr id
  let out := (s.threads.look id.toNat).isSome && t.life == .swappedOut
  let restore (s : State) (base : Thread) : Word × State :=
    (id.zeroExtend 64, (s.setThr id { base with part := part }).restoreThread id core s.tick.toNat false bs)
  if 64 ≤ s.residents core then (1#64, s)
  else match (s.core (homeOf id)).resv.look (id.toNat % 64) with
    | some x =>
      if x ≠ id ∨ !out then (2#64, s)
      -- a rank of a kernel that is not pre-emptible stays with its partition (R154)
      else if t.kernel.isSome && !t.pre && t.part != part then (3#64, s)
      else restore s t
    | none =>
      if natAt bs 9 1 ≠ 2 then (3#64, s)
      else restore (s.modCore (homeOf id) fun c => { c with resv := c.resv.ins (id.toNat % 64) id }) { Thread.blank with thid := id, pre := true }

/-- ctxld asks the creating core of the thread, on another core, about its number (R239, R240). -/
def State.askNumber (s : State) (a : LoadAsk) (id : Word32) : State :=
  let op := s.nextOp
  let s := { s with nextOp := op + 1, asks := s.asks.ins op a }
  (s.traffic a.src).post (.homePortAccess a.src op) (chanPort a.core (homeOf id)) 16

/-- The question reaches the creating core: the restore proceeds or not, and the answer travels back. -/
def State.askArrives (s : State) (op : Nat) (a : LoadAsk) : State :=
  let (x, s) := State.loadImage { s with asks := s.asks.del op } a.core a.part a.img
  s.answer a.src a.dst x

def execCtxld (h : Head) (d a : Fld) (dev : Bool) (s : State) := runI h (some 0x15) (pure ()) (do
  check1 [(.ws, d), (.rs, a)]
  let va := (← readOps [a]).getD 0 0#64
  let first ← getLines dev 1 va
  let len := natAt first 12 4
  let bs ← if len ≤ 64 then pure first else getLines dev ((len + 63) / 64) va
  match imageFault bs with
  | some o => trapHere 0xAC#8 (wordNat o)
  | none => do
    let s ← get
    let core := s.th.core
    let part := (s.partOf core).getD s.th.part
    if homeOf (imageThid bs) = core ∨ 64 ≤ s.residents core then do
      let (x, s') := s.loadImage core part bs
      set s'
      writeS d x
      pure .fall
    else do
      handOut d
      modify fun s => s.askNumber ⟨s.cur, d, core, part, bs⟩ (imageThid bs)
      pure .fall) s

end Sys2Proof.Machine
end

