-- ==== Sys2Proof/Machine/System.lean ====
section
/-!
DEFINITION. The dual prefix, bounds and tangents, control registers, invalidation, hold, halt and ebreak:
opcodes 0xB0 to 0xB4 and 0xC0 to 0xC7 (R331 to R338).
-/
namespace Sys2Proof.Machine

/-! ### The dual prefix (R129, R331) -/

/-- A prefix qualifies the instruction after it; the pair's epc is the prefix's own address. -/
def execDual (mask : BitVec 4) (s : State) : Host.Outcome State Fault Refusal :=
  let t := s.th
  if t.k = 0 then .next (s.stopped (.trap 0x06#8 0#64 0#5))
  else if mask = 0#4 ∨ 2 ^ t.k ≤ mask.toNat then .next (s.stopped (.trap 0x06#8 (mask.zeroExtend 64) 0#5))
  else if t.isTail t.pc then .next (s.stopped (.trap 0x06#8 0#64 0#5))
  else
    let n := s.nextPC t t.pc
    .next (s.setTh { t with dualPfx := some (mask, t.pc), pc := n, pcMode := if lineOf n == lineOf t.pc then .start else .line })

/-! ### Bounds and tangents (R332, R333) -/

/-- A plane number above the thread's k. -/
def planeCheck (lo : Nat) (j : BitVec 3) : M Unit := do
  let t ← getTh
  if j.toNat < lo ∨ t.k < j.toNat then trap 0x02#8 43#64 else pure ()

/-- The bound of plane j of a vector register: 0 the primal. -/
def Thread.planeB (t : Thread) (j i : Nat) : Word32 := if j = 0 then t.vB i else t.vTb (j - 1) i

def execBndr (h : Head) (d a : Fld) (j : BitVec 3) (s : State) := runI h none (planeCheck 0 j) (do
  check1 [(.ws, d), (.vec, a)]
  let _ ← readV a.spec
  writeS d ((← getTh).planeB j.toNat a.spec.toNat |>.zeroExtend 64)
  pure .fall) s

def execBndw (h : Head) (d a : Fld) (j : BitVec 3) (mx : Bool) (s : State) := runI h none (planeCheck 0 j) (do
  check1 [(.vec, d), (.rs, a)]
  let x := bClean ((← readS a).setWidth 32)
  let i := d.spec.toNat
  modTh fun t =>
    let b := if mx then bMax (t.planeB j.toNat i) x else x
    if j.toNat = 0 then t.setVb i b else t.setVTb (j.toNat - 1) i b
  pure .fall) s

def execTanr (h : Head) (d a : Fld) (j : BitVec 3) (vec : Bool) (s : State) := runI h none (planeCheck 1 j) (do
  let i := a.spec.toNat
  if vec then do
    check1 [(.vec, d), (.vec, a)]
    let _ ← readV a.spec
    let t ← getTh
    writeV d.spec.toNat (t.vT (j.toNat - 1) i) (t.vTb (j.toNat - 1) i) []
    pure .fall
  else do
    check1 [(.ws, d), (.gOnly, a)]
    let t ← getTh
    let _ ← readS a
    writeS d (t.gT (j.toNat - 1) i)
    pure .fall) s

def execTanw (h : Head) (d a : Fld) (j : BitVec 3) (vec : Bool) (s : State) := runI h none (planeCheck 1 j) (do
  let i := d.spec.toNat
  if vec then do
    check1 [(.vec, d), (.vec, a)]
    let (x, b) ← readV a.spec
    modTh fun t => (t.setVT (j.toNat - 1) i x).setVTb (j.toNat - 1) i b
    pure .fall
  else do
    -- the instruction reads the full bit of d and writes no primal: a wait-empty bit is none of it (R222, log 37)
    if d.sync then trap 0x23#8 (d.spec.zeroExtend 64)
    check1 [(.gOnly, d), (.rs, a)]
    let t ← getTh
    if !t.gFull i then waitFor (.fullBit d.spec true)
    else do
      let x ← readS a
      modTh fun t => t.setGT (j.toNat - 1) i x
      pure .fall) s

/-! ### Control registers (R228, R334) -/

/-- The value a control register reads. -/
def State.csr (s : State) (n : Nat) : Word :=
  let t := s.th
  let c := s.core t.core
  match n with
  | 0x000 => t.status.zeroExtend 64
  | 0x001 => t.cause
  | 0x002 => t.tval
  | 0x003 => t.epc
  | 0x004 => t.tvec
  | 0x010 => t.fpctl.zeroExtend 64
  | 0x011 => t.fpflags.zeroExtend 64
  | 0x012 => t.tstride
  | 0x013 => t.bthr
  | 0x014 => BitVec.ofNat 64 t.slice
  | 0x015 => t.prio.zeroExtend 64
  | 0x016 => t.qlink
  | 0x020 => t.thid.zeroExtend 64
  | 0x021 => BitVec.ofNat 64 t.rank
  | 0x022 => BitVec.ofNat 64 t.gsize
  | 0x030 => BitVec.ofNat 64 (c.lcore.getD 0)
  | 0x031 => BitVec.ofNat 64 t.core
  | 0x032 => s.tick
  | _ => 0#64

/-- A write the table of R228 forbids in a mode. -/
def csrForbidden (n : Nat) (user : Bool) : Bool :=
  if 0x020 ≤ n then true
  else user && (decide (n ≤ 0x004) || n == 0x014 || n == 0x015)

/-- status after a write (R48): the RW fields, with mode 0b11 discarded; a pmd of 0b11 is discarded alike. -/
def statusKept (old : BitVec 12) (x : Word) : BitVec 12 :=
  let y : BitVec 12 := x.setWidth 12
  let mode := if y.extractLsb' 0 2 = 3#2 then (old.extractLsb' 0 2).toNat else (y.extractLsb' 0 2).toNat
  let pmd := if y.extractLsb' 10 2 = 3#2 then (old.extractLsb' 10 2).toNat else (y.extractLsb' 10 2).toNat
  let st := (old &&& 0x0F8#12) ||| (y &&& 0x304#12)
  setBits (setBits st 0 2 mode) 10 2 pmd

/-- The thread after a control register takes a value. -/
def Thread.setCsr (t : Thread) (n : Nat) (x : Word) : Thread :=
  match n with
  | 0x000 => { t with status := statusKept t.status x }
  | 0x001 => { t with cAsync := x.getLsbD 63, cLost := x.getLsbD 62, cCode := x.setWidth 8 }
  | 0x002 => { t with tval := x }
  | 0x003 => { t with epc := epcKept x }
  | 0x004 => { t with tvec := tvecKept x }
  | 0x010 => { t with fpctl := fpctlKept x }
  | 0x011 => { t with fpflags := x.setWidth 5 }
  | 0x012 => { t with tstride := tstrideKept x }
  | 0x013 => { t with bthr := bthrKept x }
  | 0x014 => { t with slice := x.toNat % 65536, sliceCnt := 0, slicePend := false }
  | 0x015 => { t with prio := x.setWidth 2 }
  | 0x016 => { t with qlink := qlinkKept x }
  | _ => t

/-- The registers a roaming thread keeps at its anchor (R45). -/
def csrAnchored (n : Nat) : Bool := decide (1 ≤ n ∧ n ≤ 4) || n == 0x012

def csrRead (d : Fld) (n : BitVec 12) : M Ctl := do
  check1 [(.ws, d)]
  if csrAnchored n.toNat then anchor
  let s ← get
  writeS d (s.csr n.toNat)
  pure .fall

/-- A write with the new value as a function of the old value and a; fpflags has its own (R334). -/
def csrWrite (op : Nat) (d a : Fld) (n : BitVec 12) (new : Word → Word → Word) (flags : Word → Word → Word) (s : State) :
    M Ctl := do
  let _ := s
  check1 [(.ws, d), (.rs, a)]
  if csrAnchored n.toNat then anchor
  let x ← readS a
  let s ← get
  let t := s.th
  let old := s.csr n.toNat
  let y := if n.toNat = 0x011 then flags old x else new old x
  if n.toNat = 0 ∧ y.extractLsb' 0 2 = 2#2 ∧ !(t.mode == 2#2 && s.isGable t.core) then trap 0x07#8 (BitVec.ofNat 64 op)
  else do
    -- the old value goes where the registers as they stand send it: the write takes effect at the next instruction
    writeS d old
    modTh fun t => t.setCsr n.toNat y
    pure .fall

def csrPriv (op : Nat) (n : BitVec 12) : M Unit := do
  let t ← getTh
  if csrForbidden n.toNat t.user then trap 0x07#8 (BitVec.ofNat 64 op) else pure ()

def execCsrr (h : Head) (d : Fld) (n : BitVec 12) (s : State) := runU h (csrRead d n) s
def execCsrw (h : Head) (d a : Fld) (n : BitVec 12) (s : State) := runI h none (csrPriv 0xC1 n)
  (csrWrite 0xC1 d a n (fun _ x => x) (fun old x => old &&& ~~~x) s) s
def execCsrs (h : Head) (d a : Fld) (n : BitVec 12) (s : State) := runI h none (csrPriv 0xC2 n)
  (csrWrite 0xC2 d a n (fun old x => old ||| x) (fun old x => old ||| x) s) s
def execCsrc (h : Head) (d a : Fld) (n : BitVec 12) (s : State) := runI h none (csrPriv 0xC3 n)
  (csrWrite 0xC3 d a n (fun old x => old &&& ~~~x) (fun old x => old &&& ~~~x) s) s

/-! ### Invalidation (R75, R335) -/

/-- The forms that reach every core of the partition: release first, then a shootdown that counts until every
core has replied. -/
def tlbiPart (d a : Fld) (byVa : Bool) : M Ctl := do
  check1 [(.ws, d), (.rs, a)]
  let x ← if byVa then readS a else pure 0#64
  if byVa && !canonical x then trap 0x45#8 x
  else do
    releaseWait
    handOut d
    modify fun s =>
      let t := s.th
      let op := s.nextOp
      let (cs, s) := State.shoot { s with nextOp := op + 1 } t.part t.core (if byVa then some x else none) op
      if cs.isEmpty then s.answer s.cur d 0#64
      else { s with invals := s.invals.ins op ⟨t.part, cs, t.thid, d⟩ }
    pure .fall

/-- The forms of the issuing core alone. -/
def tlbiLocal (d a : Fld) (byVa : Bool) : M Ctl := do
  check1 [(.ws, d), (.rs, a)]
  let x ← if byVa then readS a else pure 0#64
  if byVa && !canonical x then trap 0x45#8 x
  else do
    modCoreM fun c => c.invalidate (if byVa then some x else none)
    writeS d 0#64
    pure .fall

def execTlbiVa (h : Head) (d a : Fld) (s : State) := runI h (some 0xC4) (pure ()) (tlbiPart d a true) s
def execTlbiAll (h : Head) (d a : Fld) (s : State) := runI h (some 0xC4) (pure ()) (tlbiPart d a false) s
def execTlbiLva (h : Head) (d a : Fld) (s : State) := runI h (some 0xC4) (pure ()) (tlbiLocal d a true) s
def execTlbiLall (h : Head) (d a : Fld) (s : State) := runI h (some 0xC4) (pure ()) (tlbiLocal d a false) s

/-! ### hold, halt, ebreak (R336 to R338) -/

/-- A tenant switch is fixed or running in some partition. -/
def State.switching (s : State) : Bool := s.parts.any fun e => e.2.stop.isSome

/-- The stop tick of a hold is fixed: every running group's lowest live rank learns it (R164, R210, R336). -/
def State.fixHold (s : State) (Ts : Nat) : State :=
  let s := { s with holdAt := some Ts, holdAsk := none, pstate := .entering }
  (s.kernels.filter fun e => e.2.state == .running).foldl (fun s e =>
    match s.lowestRank e.1 none with
    | some r => s.postCause r 0xE8#8 (BitVec.ofNat 64 Ts)
    | none => s) s

/-- A hold is asked for: now, or once the tenant switch in progress has ended (R167). -/
def State.askHold (s : State) (a : Nat) (who : Word32 × Fld) (answer : Bool) : State :=
  if s.holdAt.isSome || s.holdAsk.isSome then (if answer then s.answer who.1 who.2 1#64 else s)
  else if s.switching then { s with holdAsk := some who }
  else
    let Ts := s.tick.toNat + max 16 a
    let s := s.fixHold Ts
    if answer then s.answer who.1 who.2 (BitVec.ofNat 64 Ts) else s

def execHold (h : Head) (d a : Fld) (s : State) := runI h none (do
  let s ← get
  let t := s.th
  if t.mode == 2#2 && s.isGable t.core then pure () else trap 0x07#8 0xC5#64) (do
  check1 [(.ws, d), (.rs, a)]
  let x ← readS a
  handOut d
  modify fun s => s.askHold x.toNat (s.cur, d) true
  pure .fall) s

def execHalt (h : Head) (s : State) := runI h (some 0xC6) (pure ()) (do
  let t ← getTh
  if !t.ie || !t.mailbox.isEmpty || !t.posted.isEmpty || (t.ev &&& 0x7FFFFFFFFFFFFFFF#64) != 0#64 then pure .fall
  else waitFor .halt) s

def execEbreak (h : Head) (n : BitVec 16) (s : State) := runU h (trap 0x0A#8 (zext 16 n)) s

end Sys2Proof.Machine
end

