-- ==== Sys2Proof/Machine/CopyEv.lean ====
section
/-!
DEFINITION. Events of the tracer and of the pseudo-channels: registration, slots, lines and reports of copies
(R82 to R95, R380), row throttling and refresh (R81).
-/
namespace Sys2Proof.Machine

/-! ### Registration (R88, R380) -/

/-- The pieces an operation has still to register. -/
def State.todoOf (s : State) (op : Nat) : List (Nat × Piece) :=
  match s.copies.look op with
  | some o => if o.live then o.todo else []
  | none => match s.hires.look op with
    | some h => h.todo
    | none => []

/-- A request reaches the core of a piece: the piece registers and a grant leaves, or it waits there. -/
def State.registerAt (s : State) (op core : Nat) : State :=
  match s.todoOf op with
  | (c, p) :: _ =>
    let k := s.core core
    if c ≠ core || (k.stencil ++ k.stWait).contains p then s
    else if canRegister k.stencil k.stWait p then
      ((s.setCore core { k with stencil := k.stencil ++ [p] }).drainPort p.lo p.hi).granted op core
    else s.setCore core { k with stWait := k.stWait ++ [p] }
  | [] => s

def execRegistrationRequest (op core : Nat) (s : State) := event (fun s => s.registerAt op core) s

def execStencilRegister (core : Nat) (s : State) := event (fun s => s.serveStencil core) s

/-- A grant reaches the issuing tracer, which goes on with the next piece. -/
def State.grantArrives (s : State) (op core : Nat) : State :=
  match s.copies.look op with
  | some o =>
    match o.todo with
    | (c, p) :: r =>
      if o.live && c == core && (s.core core).stencil.contains p then
        State.regNext { s with copies := s.copies.ins op { o with todo := r } } op
      else s
    | [] => s
  | none => s

def execRegistrationGrant (op core : Nat) (s : State) := event (fun s => s.grantArrives op core) s

/-! ### Slots and running (R83, R86) -/

def execCopyRunning (op : Nat) (s : State) := event (fun s => s.runCopy op) s

/-- At the first tick of a booked slot entry, an unbooked copy in the slot moves, or waits queued (R83). -/
def State.handSlot (s : State) (core slot : Nat) : State :=
  if !s.slotHeld core slot s.tick.toNat then s
  else
    (s.copies.filter fun e => e.2.core == core && e.2.slot == some slot && e.2.live && e.2.booked.isNone).foldl
      (fun s e =>
        match s.freeSlot core with
        | some n => { s with copies := s.copies.ins e.1 { e.2 with slot := some n } }
        | none => { s with copies := s.copies.ins e.1 { e.2 with slot := none, state := .queued, started := false } }) s

def execSlotHandover (core slot : Nat) (s : State) := event (fun s => s.handSlot core slot) s

/-! ### Lines (R85, R86, R380) -/

/-- The source's home port begins to send the lines of a section. -/
def State.startSection (s : State) (op : Nat) : State :=
  match s.copies.look op with
  | some o =>
    if o.state == .running && o.ready && o.stop.isNone then
      State.postOnce { s with copies := s.copies.ins op { o with started := true } } (.tracerLine o.core)
    else s
  | none => s

def execStartMessage (op : Nat) (s : State) := event (fun s => s.startSection op) s
def execTracerLine (core : Nat) (s : State) := event (fun s => s.sendLine core) s
def execCopyData (op line : Nat) (s : State) := event (fun s => s.performLine op line) s
def execCopyReport (op : Nat) (s : State) := event (fun s => s.sectionDone op) s

/-! ### Rows and refresh (R77, R81, R82) -/

/-- The neighbours of the row are refreshed, which no program sees, and its activations are spaced. -/
def execRowThrottle (core row : Nat) (s : State) := event (fun s => s.modCore core fun k =>
  { k with throttled := if k.throttled.contains row then k.throttled else k.throttled ++ [row] }) s

def execRefreshWindowEnd (s : State) := event (fun s =>
  { s with cores := s.cores.map fun e => (e.1, { e.2 with rows := [], throttled := [] }) }) s

/-- A burst of the operation holds a row of near device memory open (R82). -/
def CopyOp.opensRow (o : CopyOp) : Bool :=
  o.state == .running && o.started && (o.srcSeg ++ o.dstSeg).any fun e => isDevKey e.2.1 && !isFar e.2.1

/-- A burst of an operation splits at a line boundary: counted in its status and on the core (R82). -/
def State.splitBurst (s : State) (op : Nat) : State :=
  match s.copies.look op with
  | some o =>
    if !o.opensRow then s
    else
      let s := { s with copies := s.copies.ins op { o with splits := o.splits + 1 } }
      let s := if o.kind ≠ .batld then s
        else match s.battens.look o.batKey with
          | some b => { s with battens := s.battens.ins o.batKey { b with splits := b.splits + 1 } }
          | none => s
      s.modCore o.core fun k => { k with splits := k.splits + 1 }
  | none => s

def execRefreshSplit (op : Nat) (s : State) := event (fun s => s.splitBurst op) s

end Sys2Proof.Machine
end

