-- ==== Sys2Proof/Machine/HireEv.lean ====
section
/-!
DEFINITION. Events of hires: placement, start, the end of the array window, landing lines and the end
(R101 to R113, R126).
-/
namespace Sys2Proof.Machine

def Hire.isPlaced (h : Hire) : Bool := h.state == .placed && h.bidx.isNone

/-- Of two requests the hall takes one first: class 0 first, then in the order of arrival (R115). A request: whether it is of class
0, and the cycle of its arrival. -/
def before (a b : Bool × Nat) : Bool := (a.1 && !b.1) || (a.1 == b.1 && decide (a.2 < b.2))
def Hire.request (h : Hire) : Bool × Nat := (h.cls == 0#2, h.arrives)

/-- The hire request that a hall takes next of those that have arrived. -/
def State.firstHire (s : State) (ridge : Nat) : Option (Nat × Hire) :=
  (s.hires.filter fun e => ridgeOf e.2.core == ridge && e.2.state == .issued && e.2.ready && e.2.booked.isNone &&
      decide (e.2.arrives ≤ s.now)).foldl (fun (m : Option (Nat × Hire)) e => match m with
    | none => some e
    | some x => if before e.2.request x.2.request then some e else m) none

/-- The sheets that have reached a hall, but for those of a set that is out: whether of class 0, and the cycle of arrival. -/
def State.sheetsAt (s : State) (ridge : Nat) : List (Bool × Nat) :=
  s.agenda.filterMap fun p => match p.ev with
    | .bookAttempt r i =>
      if r == ridge && decide (p.due ≤ s.now) && (match (s.books r).look i with
          | some b => (s.thr b.thid).life != .swappedOut
          | none => false) then some (p.chan == chanHall r true, p.due) else none
    | _ => none
/-- A request of class 0 has reached the hall: a sheet or a hire (R115). -/
def State.classZero (s : State) (ridge : Nat) : Bool :=
  (s.sheetsAt ridge).any (·.1) || (s.firstHire ridge).any fun e => e.2.request.1

/-- The next request joins those that wait at the hall (R126); a stale one ends. -/
def State.joinHall (s : State) (ridge : Nat) : State :=
  match s.firstHire ridge with
  | none => s
  | some e =>
    if s.hireStale e.2 then s.endHire e.1 3
    else { s with hires := s.hires.ins e.1 { e.2 with state := .placed }, hallWait := s.hallWait ++ [e.1] }

/-- The waiting requests of a hall in the order in which it takes them: class by class, each in arrival order. -/
def State.hallQueue (s : State) (ridge : Nat) : List (Nat × Hire) :=
  let all := s.hallWait.filterMap fun op => match s.hires.look op with
    | some h => if ridgeOf h.core == ridge && h.isPlaced then some (op, h) else none
    | none => none
  [0, 1, 2, 3].flatMap fun c => all.filter fun e => (s.hireClass e.2).toNat == c

/-- Of a hall's queue, the first request of each class is tried; the first that finds a window is placed. -/
def State.placeFirst (s : State) : List (Nat × Hire) → List (BitVec 2) → Option State
  | [], _ => none
  | (op, h) :: r, blocked =>
    let c := s.hireClass h
    if blocked.contains c then s.placeFirst r blocked
    else match s.battenLive h.part h.bat with
      | none => s.placeFirst r blocked
      | some (_, b) => match s.placeHire op h b.sp with
        | some s' => some s'
        | none => s.placeFirst r (c :: blocked)

/-- Requests that can never be placed end: a stale handle, or no working array of the kind (R102, R113). -/
def State.dropDead (s : State) (ridge : Nat) : State :=
  (s.hallQueue ridge).foldl (fun s e =>
    if s.hireStale e.2 then s.endHire e.1 3
    else if (s.hireArrays e.2).isEmpty then s.endHire e.1 5 else s) s

/-- The hall has made an operation: the next comes 16 cycles later (R115). -/
def State.served (s : State) (ridge : Nat) : State := { s with hallBusy := s.hallBusy.ins ridge (s.now + 16) }

/-- One operation of the hall: the next request is taken, and a waiting one is placed, one of class 0 while another request of class
0 stands there (R115). -/
def State.placeOne (s : State) (ridge : Nat) : State :=
  let took := (s.firstHire ridge).isSome
  let s := (s.joinHall ridge).dropDead ridge
  let zero := s.classZero ridge
  let more (s : State) (placed : Bool) : State :=
    if (s.firstHire ridge).isSome || ((placed || zero) && !(s.hallQueue ridge).isEmpty) then s.postOnce (.hirePlacement ridge) 16 else s
  match s.placeFirst ((s.hallQueue ridge).filter fun e => !zero || s.hireClass e.2 == 0#2) [] with
  | some s' => more (s'.served ridge) true
  | none => if took then more (s.served ridge) false else s

def execHirePlacement (ridge : Nat) (s : State) := event (fun s => s.placeOne ridge) s

/-- A bank that one of a hire's ranges lies in is claimed by another booking at this tick (R119). -/
def State.hireShut (s : State) (op : Nat) (h : Hire) : Bool :=
  (s.core h.core).stencil.any fun p => p.op == op && !p.write && isSpKey p.lo &&
    (List.range ((p.hi - 1) / 65536 + 1 - p.lo / 65536)).any fun i => s.bankShut h.booked ((p.lo / 65536 + i) * 65536)

/-- At its start tick A and C go up and B is read: the tile is what they hold then (R102). While another booking has claimed a bank
of them the hire waits, and its window and landing move by as many ticks (R119, log 118). -/
def State.startHire (s : State) (op : Nat) : State :=
  match s.hires.look op with
  | none => s
  | some h =>
    if h.state ≠ .placed ∨ h.bidx.isNone ∨ !h.ready ∨ s.tick.toNat < h.start then s
    else if s.hireStale h then s.endHire op 3
    else if h.quads.any (fun x => s.arrFailed x.1 x.2) then s.awaitWindow op { h with lost := true, miss := 0 }
    else if s.hireShut op h then s
    else match s.battenLive h.part h.bat with
      | none => s.endHire op 3
      | some (_, b) =>
        let (planes, fl) := s.tile h b
        let d := s.tick.toNat - h.start
        { s with hires := s.hires.ins op { h with state := .running, planes := planes, flags := fl, start := h.start + d,
                                                  wend := h.wend + d, land := h.land + d } }

def execHireStart (op : Nat) (s : State) := event (fun s => s.startHire op) s

def isDown (r : Res) : Bool := match r with | .dn _ _ => true | _ => false

/-- The array whose checksums differ: which of the four of a widened shingle tile is free (log 10). -/
def State.mismatched (s : State) (h : Hire) : (Nat × Nat) × State :=
  if h.quads.length ≤ 1 then ((h.arr, h.half), s)
  else
    let (n, s) := s.draw
    (h.quads.getD ((Config.freeWord n).toNat % h.quads.length) (h.arr, h.half), s)

/-- At the end of the array window: revoked, rerun, moved to another array, or tested for a trip. -/
def State.windowEnd (s : State) (op : Nat) (mismatch : Bool) : State :=
  match s.hires.look op with
  | none => s
  | some h =>
    if h.state ≠ .running then s
    else if s.hireStale h then s.endHire op 3
    else if !mismatch then
      let s := s.freeHire h isDown
      match s.battenLive h.part h.bat with
      | some (_, b) => s.tripTest op { h with state := .checked } b.sp
      | none => s.endHire op 3
    else if h.miss = 0 then
      let (a, s) := s.mismatched h
      (s.count (lgRerun a.1 a.2)).awaitWindow op { h with rerun := true, miss := 1, planes := [], flags := 0#5 }
    else
      let (a, s) := s.mismatched h
      let s := s.freeHire h fun _ => false
      s.failArray op { h with lost := true, miss := 0, planes := [], flags := 0#5 } a.1 a.2

def execArrayWindowEnd (op : Nat) (mismatch : Bool) (s : State) := event (fun s => s.windowEnd op mismatch) s

/-- The bytes and bound of a landing line. -/
def Hire.lineData (h : Hire) (line : Nat) : List Byte × Word32 :=
  let w := fmtWidth h.landFmt
  let per := 512 / w
  let n := max 1 h.planeLines
  match h.planes[line / n]? with
  | some p =>
    let (xs, b, _) := h.converted p
    (packElems w ((xs.drop (line % n * per)).take per), b)
  | none => ([], 0#32)

/-- Where a landing line lies: a device page is tested afresh before it is written (R101, R102). -/
def State.lineAt (s : State) (h : Hire) (line : Nat) : Except Byte Nat × State :=
  let at' := (segAt h.dstSeg (64 * line)).getD 0
  if h.dev then
    let n := max 1 h.planeLines
    let j := line / n
    let d := if j = 0 then 0 else (h.sel.getD (j - 1) 0 + 1) * h.tstride
    match s.translate h.core h.part h.user (BitVec.ofNat 64 (h.dst + d + 64 * (line % n))) .write with
    | (.fault c, s') => (.error c, s')
    | (.ok _, s') | (.touch _ _, s') => (.ok at', s')
  else (.ok at', s)

/-- One destination line is written, or the hire ends at it (R101, R103, R107, R113); while another booking has claimed its bank
it waits (R119). -/
def State.landLine (s : State) (op : Nat) : State :=
  match s.hires.look op with
  | none => s
  | some h =>
    if h.state == .issued then s
    else if h.ending.isSome || s.hireStale h then s.endHire op 3
    else if !s.lineDue h then s
    else match s.lineAt h h.lines with
      | (.error c, s) => State.endHire { s with hires := s.hires.ins op { h with pcause := c } } op 4
      | (.ok k, s) =>
        if s.bankShut h.booked k then s
        else
        let (bs, b) := h.lineData h.lines
        let s := s.keyWrite k bs true b true false
        let h := { h with lines := h.lines + 1, ltick := some s.tick.toNat }
        let s := { s with hires := s.hires.ins op h }
        if h.lines = h.total then s.post (.hireLanded op)
        else if s.lineDue h then s.postLine h op else s

def execLandingLine (op : Nat) (s : State) := event (fun s => s.landLine op) s

/-- Every write is performed: the end in the order of R103. -/
def State.hireDone (s : State) (op : Nat) : State :=
  match s.hires.look op with
  | none => s
  | some h =>
    if h.state == .landing && h.lines == h.total then
      s.endHire op (if h.wide then 2 else if h.tripped then 1 else 0)
    else s

def execHireLanded (op : Nat) (s : State) := event (fun s => s.hireDone op) s

end Sys2Proof.Machine
end

