-- ==== Sys2Proof/Machine/BookingEv.lean ====
section
/-!
DEFINITION. Events of bookings: attempts, start, end and compaction (R120 to R127).
-/
namespace Sys2Proof.Machine

/-- A sheet of a hall's queue that has been captured is checked and attempted, or waits for its landing condition (R121,
R122). -/
def State.checkSheet (s : State) (ridge idx : Nat) (b : Booking) : State :=
  if b.sheet.bad then s.failBook ridge idx b 4#8
  else if s.sheetOutside b.part b.core b.sheet then s.failBook ridge idx b 3#8
  else if b.sheet.tooLong then s.failBook ridge idx b 6#8
  else if s.condHolds b then s.attemptBook ridge idx b
  else s

/-- The hall captures a sheet: it takes a table index, or refuses with status 0x05, and checks it (R121). tmp: where the sheet
stood on its way. -/
def State.takeSheet (s : State) (ridge tmp : Nat) : State :=
  match (s.books ridge).look tmp with
  | none => s
  | some b =>
    if b.state ≠ .submitted then s
    else
      let s := (s.delBook ridge tmp).served ridge
      let d := b.dst.getD ⟨0x80#8, false⟩
      match (if !s.live b.thid || decide (16 ≤ s.liveBooks b.thid) then none else s.freeIndex ridge) with
      | none => s.answer b.thid d 5#64
      | some (idx, g) =>
        let b := { b with gen := g, state := .pending, dst := if b.early then none else b.dst }
        let s := s.setBook ridge idx b
        let s := if b.early then s.answer b.thid d (b.handle ridge idx) else s
        s.checkSheet ridge idx b

def execBookAttempt (ridge idx : Nat) (s : State) := event (fun s => s.takeSheet ridge idx) s

/-- A pending booking is attempted once its condition holds (R122). -/
def State.retrySheet (s : State) (ridge idx : Nat) : State :=
  match (s.books ridge).look idx with
  | some b => if b.state == .pending && s.condHolds b then (s.attemptBook ridge idx b).served ridge else s
  | none => s

def execPendingBookAttempt (ridge idx : Nat) (s : State) := event (fun s => s.retrySheet ridge idx) s

/-- The threads that wait for a booking's start become ready at its tick, before any of them is seated (R55, R123, R378). -/
def State.startWaiters (s : State) (h : Word) : State :=
  (s.threads.filter fun e => e.2.waiting && (match e.2.wait with | .booking k _ _ => k == h | _ => false)).foldl
    (fun s e => s.recheck e.2.thid) s

/-- The start tick: waiters become ready (R123). -/
def State.startBook (s : State) (ridge idx : Nat) : State :=
  match (s.books ridge).look idx with
  | some b =>
    if b.state == .committed && decide (b.start ≤ s.tick.toNat) then
      (s.setBook ridge idx { b with state := .started }).startWaiters (b.handle ridge idx)
    else s
  | none => s

def execBookingStart (ridge idx : Nat) (s : State) := event (fun s => s.startBook ridge idx) s

/-- The last tick of the last entry has passed (R123). -/
def State.endBook (s : State) (ridge idx : Nat) : State :=
  match (s.books ridge).look idx with
  | some b =>
    if b.state == .started && decide (b.last < s.tick.toNat) then s.setBook ridge idx { b with state := .ended, ivals := [] }
    else s
  | none => s

def execBookingEnd (ridge idx : Nat) (s : State) := event (fun s => s.endBook ridge idx) s

/-- At a tick boundary each hall moves at most one booking (R127), which is an operation of it (R115). -/
def execCompaction (s : State) := event (fun s => (((s.compact 0).served 0).compact 1).served 1) s

end Sys2Proof.Machine
end

