-- ==== Sys2Proof/Machine/ThreadEv.lean ====
section
/-!
DEFINITION. Events of threads: seating, context saves and fetches, the slice, ends of waits, migration, posted
causes and the release of a thread (R50 to R60, R204).
-/
namespace Sys2Proof.Machine

/-! ### Seats (R52, R55, R58) -/

/-- The shadow entries the seated threads of a core hold: scalar and vector (R52). -/
def State.shadowUsed (s : State) (core : Nat) : Nat × Nat :=
  (s.seats.filter fun e => e.1 % 1024 == core).foldl (fun a e =>
    let t := s.thr e.2.thid
    (a.1 + t.k * t.W, a.2 + t.k * t.V)) (0, 0)

def State.shadowFits (s : State) (core : Nat) (t : Thread) : Bool :=
  let u := s.shadowUsed core
  decide (u.1 + t.k * t.W ≤ 4096) && decide (u.2 + t.k * t.V ≤ 256)

/-- A ctxsv has begun to save the thread: it is not seated any more (R261). -/
def State.claimed (s : State) (id : Word32) : Bool := s.threads.any fun e => e.2.saveFor == some id

/-- The head of the run list: the highest-priority thread that joined first (R55). -/
def State.runHead (s : State) (core : Nat) : Option Word32 :=
  ((s.core core).run.filter fun id => !s.claimed id).foldl (fun (m : Option Word32) id => match m with
    | none => some id
    | some x => if (s.thr id).prio.toNat < (s.thr x).prio.toNat then some id else some x) none

def State.freeSeat (s : State) (core : Nat) : Option Nat :=
  (List.range Config.seats).find? fun n => (s.seats.look (seatKey n core)).isNone

/-- Cycles from seating to the first issue, and those a fetch of the context from memory adds (R55, R58, log 51). -/
def loadCycles : Nat := 24
def fetchCycles : Nat := 64

/-- A free seat takes the head of the run list once its save has ended and its shadow needs fit (R55). -/
def State.seatHead (s : State) (core : Nat) : State :=
  match s.freeSeat core, s.runHead core with
  | some n, some id =>
    let t := s.thr id
    if t.saving || t.life ≠ .ready || !s.shadowFits core t then s
    else
      let k := seatKey n core
      let delay := if (s.core core).tcc.contains id then loadCycles else fetchCycles + loadCycles
      let s := (s.leaveRun id).cacheOut id
      let s := s.setThr id { t with life := .seated, sliceCnt := 0, slicePend := false, waitTurns := 0 }
      let s := State.postHard { s with seats := s.seats.ins k ⟨id, true, false⟩ } (.contextFetchDone k) (s.now + delay)
      if (s.core core).run.isEmpty then s else s.postOnce (.threadSeating core)
  | _, _ => s

def execThreadSeating (core : Nat) (s : State) := event (fun s => s.seatHead core) s

/-- The save ends and the seat is free (R58). -/
def State.saveDone (s : State) (seat : Nat) : State :=
  match s.seats.look seat with
  | some x =>
    if !x.saving then s
    else
      let s := { s with seats := s.seats.del seat }
      let s := if (s.threads.look x.thid.toNat).isSome then
          let s := s.modThr x.thid fun t => { t with saving := false }
          if (s.thr x.thid).life == .exited || (s.thr x.thid).life == .swappedOut then s else s.cacheIn (seat % 1024) x.thid
        else s
      s.postOnce (.threadSeating (seat % 1024))
  | none => s

def execContextSaveDone (seat : Nat) (s : State) := event (fun s => s.saveDone seat) s

/-- The load ends and the thread may issue at its next turn (R55, R58). -/
def State.loadDone (s : State) (seat : Nat) : State :=
  match s.seats.look seat with
  | some x => if x.saving then s else { s with seats := s.seats.ins seat { x with loading := false } }
  | none => s

def execContextFetchDone (seat : Nat) (s : State) := event (fun s => s.loadDone seat) s

/-! ### The slice (R56) -/

/-- The core has a ready thread of equal or higher priority. -/
def State.rival (s : State) (t : Thread) : Bool :=
  (s.core t.core).run.any fun id => decide ((s.thr id).prio.toNat ≤ t.prio.toNat)

/-- The thread is about to issue a new instruction: nothing is in flight and no dual prefix is in force. -/
def Thread.between (t : Thread) : Bool := t.life == .seated && t.wait == .none && t.dualPfx.isNone && !t.atPort && !t.reissue

/-- The slice timer has run out, or an expiry is pending (R56). -/
def Thread.due (t : Thread) : Bool := t.slicePend || (decide (0 < t.slice) && decide (t.slice ≤ t.sliceCnt))

/-- The slice timer has run out (R56): with ie = 1 and a rival the thread is pre-empted, and joins the run list at once (log
92); with ie = 0 the expiry is kept; else the timer restarts. -/
def State.expire (s : State) (id : Word32) : State :=
  let t := s.thr id
  if !t.between || !t.due then s
  else if !t.ie then s.setThr id { t with slicePend := true }
  else if s.rival t then
    let s := s.setThr id { t with sliceCnt := 0, slicePend := false }
    if t.sltrap then s.takeAsync id 0xE0#8 (BitVec.ofNat 64 t.slice) else (s.unseat id).joinRun id
  else s.setThr id { t with sliceCnt := 0, slicePend := false }

def execSliceExpiry (thid : Word32) (s : State) := event (fun s => s.expire thid) s

/-! ### Ends of waits (R53, R204) -/

/-- After four turns a waiting-seated thread is unseated; its wait goes on (R53). -/
def State.seatTimeout (s : State) (id : Word32) : State :=
  let t := s.thr id
  if t.life == .waitSeated && t.wait.timesOut && decide (4 ≤ t.waitTurns) then
    (s.setThr id { t with life := .waitUnseated, waitTurns := 0 }).unseat id
  else s

def execSeatedWaitTimeout (thid : Word32) (s : State) := event (fun s => s.seatTimeout thid) s

/-- A waiting thread's wait is looked at. -/
def State.lookAt (s : State) (id : Word32) : State := if (s.thr id).waiting then s.recheck id else s

def execFullBitChange (thid : Word32) (s : State) := event (fun s => s.lookAt thid) s
def execWaitEvent (thid : Word32) (s : State) := event (fun s => s.lookAt thid) s

/-- The oldest posted cause is taken (R204, R205). -/
def State.takePosted (s : State) (id : Word32) : State :=
  let t := s.thr id
  match t.posted with
  | p :: r => if t.between && t.ie then (s.setThr id { t with posted := r }).takeAsync id p.code p.tval else s
  | [] => s

def execPostedCauseTaken (thid : Word32) (s : State) := event (fun s => s.takePosted thid) s

/-! ### Answers to destinations (R59, R240) -/

/-- An answer fills its destination; a qout destination needs a credit. -/
def State.fillDst (s : State) (id : Word32) (dst : Fld) (x : Word) : Option State :=
  let t := s.thr id
  let n := dst.spec.toNat
  if n < 0x80 then some ((s.setThr id (putGT ((t.setG n x).setFull n true) n [])).pokeFull t.core dst.spec)
  else if n = 0x82 then
    if 8 ≤ (s.core t.core).credUsed.lookD t.down 0 then none
    else
      let s := s.modCore t.core fun c => { c with credUsed := c.credUsed.ins t.down (c.credUsed.lookD t.down 0 + 1) }
      some (s.post (.queueEntry (neighbour t.core t.down) (dirOf (opposite t.down)) x) (chanQueue t.core (8 + t.down)) 16)
  else if isShared dst.spec then
    let r := (s.core t.core).sreg (n - 0x90)
    some ((s.modCore t.core fun c => c.setSreg (n - 0x90) (r.wrote x s.now true)).pokeFull t.core dst.spec)
  else some s

/-! ### Migration (R43, R45, R53, R54, R255) -/

/-- A migration packet reaches its core: the thread is filled there, or waits for a place (R54). -/
def State.arrive (s : State) (id : Word32) (core : Nat) : State :=
  let t := s.thr id
  if t.life ≠ .migrating then s
  else if 64 ≤ s.residents core then
    s.modCore core fun c => { c with arrivals := if c.arrivals.contains id then c.arrivals else c.arrivals ++ [id] }
  else
    let old := t.core
    let s := s.modCore core fun c => { c with arrivals := c.arrivals.filter (· != id) }
    let s := (s.setThr id { t.fillFrom t.packet with core := core, arrive := none, killers := [] }).cacheIn core id
    let s :=
      if t.killers.isEmpty then
        match t.arrive with
        | some d =>
          if s.lacksCredit id d then (s.modThr id fun t => { t with life := .waitUnseated }).completeWith id d 0#64 false
          else ((s.fillDst id d 0#64).getD s).joinRun id
        | none => s.joinRun id
      else t.killers.foldl (fun s e => s.answer e.1 e.2 0#64) (s.endThread id true)
    let s := match (s.core core).arrivals with
      | x :: _ => s.postOnce (.migrationArrival x core)
      | [] => s
    s.roomFreed old

def execMigrationArrival (thid : Word32) (core : Nat) (s : State) := event (fun s => s.arrive thid core) s

/-! ### A thread is freed (R53, R239) -/

/-- The number is released; the kernel of a rank may retire. Of a thread that has left for another core only the place comes
free (R53, R54). -/
def State.release' (s : State) (id : Word32) : State :=
  let t := s.thr id
  if t.life == .migrating then s.roomFreed t.core
  else if t.life ≠ .exited || !t.idle || (s.threads.look id.toNat).isNone then s
  else
    let s := { s with threads := s.threads.del id.toNat
                      copies := s.copies.filter fun e => e.2.thid != id || e.2.live || e.2.uncounted }
    let s := s.modCore (homeOf id) fun c => { c with resv := match c.resv.look (id.toNat % 64) with
      | some x => if x = id then c.resv.del (id.toNat % 64) else c.resv
      | none => c.resv }
    let s := match t.kernel with
      | some k => match s.kernels.look k with
        | some x =>
          let x := { x with freed := x.freed ++ [t.rank] }
          let s := { s with kernels := s.kernels.ins k x }
          if x.freed.length = x.len then s.post (.kernelRetirement k) else s
        | none => s
      | none => s
    let s := s.roomFreed t.core
    if homeOf id = t.core then s else s.roomFreed (homeOf id)

def execThreadFreed (thid : Word32) (s : State) := event (fun s => s.release' thid) s

end Sys2Proof.Machine
end

