-- ==== Sys2Proof/Machine/Fetch.lean ====
section
/-!
DEFINITION. What a thread issues at its turn (R50, R202 steps 1 and 2, R211 to R215, R129), and which event of
the agenda may happen.
-/
namespace Sys2Proof.Machine

/-! ### Eligible instructions (R131) -/

/-- An instruction that a dual prefix may qualify. -/
def eligible : Instr → Bool
  | .fadd .. | .fsub .. | .fmul .. | .fma .. | .fdiv .. | .fsqrt .. | .fmin .. | .fmax .. | .fsgn .. | .vadd .. | .vsub ..
  | .vmul .. | .vfma .. | .vdiv .. | .vsqrt .. | .vmin .. | .vmax .. | .vfsgn .. | .vred .. | .vdot .. | .vscan .. | .sel ..
  | .vsel .. | .vmov .. | .vperm .. | .vbcast .. | .vext .. | .vins .. | .hire .. => true
  | .fcvt _ _ _ tgt _ _ => !tgt.isI
  | .vcvt _ _ _ _ tgt _ _ _ => !tgt.isI
  | .lds _ _ _ ty _ _ | .sts _ _ _ ty _ _ | .vlds _ _ _ ty _ _ | .vsts _ _ _ ty _ _ | .ldd _ _ _ ty _ _ _
  | .std _ _ _ ty _ _ _ | .vldd _ _ _ ty _ _ | .vstd _ _ _ ty _ _ => ty
  | _ => false

/-! ### The instruction at a thread's pc -/

/-- What the attempt to issue comes to. -/
inductive Issue where
  | run (i : Instr)
  | cause (code : Byte) (tv : Word)
  /-- the page of the line must move first (R75) -/
  | touch (leaf pte : Nat)

/-- Where control enters the line: the thread with its pc at a start, or cause 0x04 (R215). -/
def Thread.enterLine (t : Thread) (l : Nat) : Option Thread :=
  match t.pcMode with
  | .line => (nextStart l 2).map fun k => { t with pc := lineOf t.pc + BitVec.ofNat 64 (4 * k), pcMode := .start }
  | .start => if t.pc.toNat % 4 = 0 ∧ hdrStart l (slotOf t.pc) then some t else none
  | .target =>
    if t.pc.toNat % 4 = 0 ∧ hdrStart l (slotOf t.pc) ∧ hdrTgt l (slotOf t.pc) then some { t with pcMode := .start } else none

/-- The bits from the first slot of an instruction on. -/
def insBits (l : Nat) (pc : Word) : Nat := (l >>> (32 * slotOf pc)) % 2 ^ 128

/-- A plane number of bndr, bndw, tanr or tanw that the thread does not have: cause 0x02 at bit 43 (R332, R333). -/
def Thread.planeBad (t : Thread) : Instr → Bool
  | .bndr _ _ _ j | .bndw _ _ _ j _ => decide (t.k < j.toNat)
  | .tanr _ _ _ j _ | .tanw _ _ _ j _ => j == 0#3 || decide (t.k < j.toNat)
  | _ => false

/-- The plane field of a word whose opcode is bndr's, bndw's, tanr's or tanw's names a plane the thread does not have. -/
def Thread.planeWordBad (t : Thread) (w : Nat) : Bool :=
  let op := w / 4 % 256
  let j := w / 2 ^ 43 % 8
  decide (0xB1 ≤ op ∧ op ≤ 0xB4) && (decide (t.k < j) || (decide (0xB3 ≤ op) && j == 0))

/-- Decode at a start, with the eligibility test of a prefix in force (R129, R218); of several offending bits the lowest is named,
that of a plane too (R210). -/
def Thread.decodeAt (t : Thread) (l : Nat) : Issue :=
  let w := insBits l t.pc
  match decodeWord w with
  | .error (.field p) => .cause 0x02#8 (BitVec.ofNat 64 (if t.planeWordBad w then min p 43 else p))
  | .error .length => .cause 0x00#8 0#64
  | .error (.opcode op) => .cause 0x01#8 (BitVec.ofNat 64 op)
  | .error .truncated => .cause 0x03#8 (lineOf t.pc)
  | .ok i => if t.planeBad i then .cause 0x02#8 43#64
    else if t.dualPfx.isSome && !eligible i then .cause 0x06#8 (BitVec.ofNat 64 (w / 4 % 256)) else .run i

/-- Fetch, check the line at its entry, and decode: what the thread issues, and the machine with the line noted. -/
def State.issue (s : State) (id : Word32) : Issue × State :=
  let t := s.thr id
  let base := lineOf t.pc
  match s.fetchLine t base with
  | (.error _, .touch leaf pte, s') => (.touch leaf pte, s')
  | (.error c, _, s') => (.cause c base, s')
  | (.ok l, _, s') =>
    match (if t.line = some base then none else lineCause l base) with
    | some (c, tv) => (.cause c tv, s')
    | none =>
      match t.enterLine l with
      | none => (.cause 0x04#8 t.pc, s')
      | some t' => (t'.decodeAt l, s'.setThr id { t' with line := some base })

/-- The instruction a waiting thread has in hand. -/
def State.inHand (s : State) (id : Word32) : Option Instr :=
  match s.issue id with
  | (.run i, _) => some i
  | _ => none

/-! ### A turn (R50, R53, R56, R204) -/

/-- What a turn does: nothing more, or an instruction or event run on the machine. -/
inductive Turn where
  | done (s : State)
  | run (i : Instr) (s : State)

/-- A seated thread issues. -/
def State.issueTurn (s : State) (id : Word32) : Turn :=
  let s := { s with cur := id }
  match s.issue id with
  | (.run i, s') => .run i s'
  | (.cause c tv, s') => .done (s'.takeTrap id c tv 0#5)
  | (.touch leaf pte, s') =>
    -- the walker's compare-and-swap is not served from a pending store (R75, R340)
    let t := s.thr id
    .done (s'.stopped (if (s.core t.core).holds leaf 8 then .wait (.bytes leaf 8) else .touch (lineOf t.pc) leaf pte))

/-- A stop is in force for the thread: nothing new of it issues (R164). -/
def State.halted (s : State) (t : Thread) : Bool := s.stopTicks t.part

/-- The turn of a seat: a bubble, a posted cause, a slice expiry, or an issue. The turn is counted first, so the one at which the
count reaches slice issues nothing more when the thread gives way (R56, log 121). -/
def State.seatTurn (s : State) (k : Nat) : Turn :=
  match s.seats.look k with
  | none => .done s
  | some x =>
    let id := x.thid
    if x.saving then .done s
    else if x.loading then .done (s.modThr id fun t => { t with sliceCnt := t.sliceCnt + 1 })
    else
      let s := s.modThr id fun t => { t with sliceCnt := t.sliceCnt + 1 }
      let s := if (s.thr id).life == .waitSeated && s.waitOver id then s.recheck id else s
      let t := s.thr id
      match t.life with
      | .waitSeated =>
        let s := s.setThr id { t with waitTurns := t.waitTurns + 1 }
        if t.wait.timesOut && decide (4 ≤ t.waitTurns + 1) then .run (.seatedWaitTimeout id) s else .done s
      | .seated =>
        if t.between && s.halted t then .done s
        else if t.between && t.ie && !t.posted.isEmpty then .run (.postedCauseTaken id) s
        else if t.between && t.due && t.ie && s.rival t then .run (.sliceExpiry id) s
        else (s.expire id).issueTurn id
      | .ready | .waitUnseated | .migrating | .exited | .swappedOut => .done s

/-- The next seat whose turn comes in this rotation. -/
def State.nextSeat (s : State) : Option Nat := (s.seats.find? fun e => decide (s.cursor ≤ e.1)).map (·.1)

/-- The place in the rotation at which the next entry of the agenda falls due. -/
def State.nextDue (s : State) : Option Nat :=
  s.agenda.foldl (fun m p => if decide (p.due ≤ s.now) || decide (s.cycle + 16 ≤ p.due) then m
    else some (min ((p.due - s.cycle) * 1024) (m.getD 16384))) none

/-- What comes next when nothing of the agenda happens: the turn of a seat, a later cycle of the rotation, or its end. -/
inductive Moment where
  | seat (k : Nat)
  | cycle (c : Nat)
  | over

def State.nextMoment (s : State) : Moment :=
  match s.nextSeat, s.nextDue with
  | some k, some c => if c ≤ k then .cycle c else .seat k
  | some k, none => .seat k
  | none, some c => .cycle c
  | none, none => .over

/-! ### The agenda (R178, R197, R294, R339) -/

/-- A stencil range lies on a page in near memory (R74, R76). -/
def State.pageLocked (s : State) (pfn : Nat) : Bool :=
  s.cores.any fun e => e.2.stencil.any fun p => p.hits (pfn * 4096) 4096

/-- What two messages of one cycle must be applied to in the order of R141: a task port, a mailbox and event word,
or a barrier's hall; with the sender. -/
def portOf (s : State) : Instr → Option (Nat × Nat × Word32)
  | .taskMessage src name _ => some (0, name.toNat / 2 ^ 32 % 1024, src)
  | .mailboxDelivery src _ tgt _ | .signalDelivery src _ tgt _ => some (1, tgt.toNat, src)
  | .barrierArrival src _ _ _ => some (2, (s.thr src).part, src)
  | _ => none

/-- Earlier stores of the sender hold the message back. -/
def State.heldBack (s : State) (p : Posting) : Bool :=
  match releaseOf p.ev with
  | some src => (s.pendOf src).any fun x => decide (x.id < p.seq)
  | none => false

/-- A message of the same cycle to the same port comes first (R141). -/
def State.yields (s : State) (p : Posting) : Bool :=
  match portOf s p.ev with
  | none => false
  | some (k, n, src) => s.agenda.any fun q => q.due == p.due && (match portOf s q.ev with
    | some (k', n', src') => k' == k && n' == n && src' != src && decide (q.sent < p.sent) && !s.heldBack q
    | none => false)

/-- A packet of a stopped set waits in the save buffer of a router until its source is back (R165). -/
def State.inSaveBuffer (s : State) (p : Posting) : Bool :=
  (s.savedFrom p.ev).isSome && (s.inBuffers s.agenda []).any fun e => decide (e.2 = p)

/-- Another request at the hall is taken before this one. -/
def State.behind (s : State) (ridge : Nat) (x : Bool × Nat) : Bool :=
  ((s.sheetsAt ridge) ++ ((s.firstHire ridge).map fun e => e.2.request).toList).any fun y => before y x

/-- The ridge dies are gated, and nothing of the module acts but its resumption (R355, R357). -/
def State.gated (s : State) : Bool := s.pstate == .hold || s.pstate == .resuming

/-- What reaches a module whose ridge dies are gated: a request to resume, the loss of retention power, a reset, and a host's write,
which the link refuses in hold (R355, R357). -/
def State.reaches (s : State) : Instr → Bool
  | .resumeRequest | .retentionPowerLoss | .reset => true
  | .wakeWrite _ _ => s.pstate == .hold
  | _ => false

/-- A queue's packets are not read while a stop of its partition is in force (R154, log 115). -/
def State.queueStopped (s : State) (slot : Nat) : Bool :=
  match s.slots.look slot with
  | some sl => (match s.queues.look sl.qid with | some q => s.stopTicks q.part | none => false)
  | none => false

/-- The queue that a qput or a wake write names. -/
def queueNamed : Instr → Option Nat
  | .qputRequest _ _ _ cap _ => some (cap.toNat / 2 ^ 128 % 4096)
  | .wakeWrite _ data => some (data.toNat / 2 ^ 128 % 4096)
  | _ => none
/-- An earlier qput or wake write on the same queue has reached the controller and is applied first (R177); a wake write that the
link still holds has not. -/
def State.queueBehind (s : State) (p : Posting) : Bool :=
  match queueNamed p.ev with
  | none => false
  | some n => s.agenda.any fun q => decide (q.due < p.due) && queueNamed q.ev == some n && !s.heldBack q &&
    (s.linkUp || (match q.ev with | .wakeWrite _ _ => false | _ => true))
/-- A qput on a queue in a host window waits at the controller while the link is down. -/
def State.qputShut (s : State) : Instr → Bool
  | .qputRequest _ _ _ cap _ => !s.linkUp && (s.queues.look (cap.toNat / 2 ^ 128 % 4096)).any (·.hw)
  | _ => false

/-- What an entry waits for beside its time and channel. -/
def State.mayHappen (s : State) (p : Posting) : Bool :=
  !s.heldBack p && !s.yields p && !s.inSaveBuffer p && !s.queueBehind p && !s.qputShut p.ev &&
  (match p.ev with
   | .hostWritePerformed id => match s.hostPend.look id with
     | some e => s.linkUp && (e.value.isNone || !s.hostPend.any fun x => decide (x.1 < id) && x.2.thid == e.thid)
     | none => true
   -- what the link has to carry, or the thread to take, waits in its order of arrival (R174, R194, R197)
   | .publishApply _ _ => s.linkUp
   | .wakeWrite _ _ => s.linkUp || s.pstate == .hold
   | .launchPacket n => !s.queueStopped n
   | .migrationArrival id core =>
     -- a full arrival buffer leaves the packet in the torus (R54)
     decide ((s.core core).arrivals.length < 4) || (s.core core).arrivals.contains id || decide (s.residents core < 64)
   -- one operation of a hall in 16 cycles, class 0 first (R115)
   | .bookAttempt r i =>
     decide (s.hallBusy.lookD r 0 ≤ s.now) && !s.behind r (p.chan == chanHall r true, p.due) && !(match (s.books r).look i with
       | some b => (s.thr b.thid).life == .swappedOut && decide (3 ≤ (s.thr b.thid).purpose.toNat)
       | none => false)
   | .pendingBookAttempt r i =>
     decide (s.hallBusy.lookD r 0 ≤ s.now) && (!s.classZero r || (match (s.books r).look i with
       | some b => b.sheet.cls == 0#2
       | none => false))
   | .hirePlacement r =>
     decide (s.hallBusy.lookD r 0 ≤ s.now) && (match s.firstHire r with
       | some e => !s.behind r e.2.request
       | none => !s.classZero r || (s.hallQueue r).any fun e => s.hireClass e.2 == 0#2)
   | .compaction => decide (s.hallBusy.lookD 0 0 ≤ s.now) && decide (s.hallBusy.lookD 1 0 ≤ s.now)
   -- the instruction issued in a cycle comes before the tracer's slot takes and increments (R310)
   | .copyReport op | .copyRunning op => match s.copies.look op with
     | some o => o.cb.isNone || decide (p.due < s.now)
     | none => true
   -- a line waits while another booking has claimed its bank (R119)
   | .copyData op idx => match s.copies.look op with
     | some o => (o.cb.isNone || decide (p.due < s.now)) && s.dstOpen o idx
     | none => true
   | .peerPortFailure _ | .killRequest _ _ _ => decide (p.due < s.now) || !s.copies.any fun e => e.2.cb.isSome
   | .tracerLine core => decide (p.due < s.now) || !s.copies.any fun e => e.2.core == core && e.2.cb.isSome && e.2.live
   | .linkDownTimeout => decide (p.due < s.now) || !s.copies.any fun e => e.2.cb.isSome && e.2.live
   | .migrationComplete op => match s.pages.look op with
     | some x => x.rewritten || !s.pageLocked x.pfn
     | none => true
   | .evictionComplete op => match s.pages.look op with
     | some x => !s.pageLocked x.pfn
     | none => true
   | _ => true)

/-- The soft entries that may happen now: due, first of their channel, and not held back. -/
def State.ready (s : State) : List Posting → List Nat → List Posting
  | [], _ => []
  | p :: r, seen =>
    let seen' := if p.chan = 0 then seen else p.chan :: seen
    if !p.hard && decide (p.due ≤ s.now) && !seen.contains p.chan && s.mayHappen p then p :: s.ready r seen'
    else s.ready r seen'

/-- Remove one entry. -/
def dropPosting (p : Posting) : List Posting → List Posting
  | [] => []
  | q :: r => if q = p then r else q :: dropPosting p r

/-- The hard entry that is due, if any: the first. -/
def State.hardDue (s : State) : Option Posting := s.agenda.find? fun p => p.hard && decide (p.due ≤ s.now)

/-- Planes of one access, and the lines of an image, are numbered from 0; operations from here on (State.nextOp). -/
def planesMax : Nat := Config.firstOp

/-- Cycles by which the model may apply an entry that may happen later than it fell due (log 3). Within 16 the save and the
seating of R57 and R58 keep their bounds; a store may stay pending far longer, so that later accesses of its thread to other
ports come before it (R341, R342). -/
def slack : Instr → Nat
  | .homePortAccess _ id => if planesMax ≤ id then 4096 else 16
  | _ => 16

/-- What happens next: an entry of the agenda, or a turn; the choice is free where the manual fixes no order, but no entry
that may happen is passed over for longer than the slack. -/
def State.choose (s : State) : Option Instr × State :=
  match s.hardDue with
  | some p => (some p.ev, { s with agenda := dropPosting p s.agenda })
  | none =>
    let ready := (s.ready s.agenda []).filter fun p => !s.gated || s.reaches p.ev
    let late := ready.filter fun p => decide (p.due + slack p.ev ≤ s.now)
    let xs := if late.isEmpty then ready else late
    if xs.isEmpty then (none, s)
    else
      let n := Config.pick s.free % (if late.isEmpty then xs.length + 1 else xs.length)
      match xs[n]? with
      | some p => (some p.ev, { s with free := s.free + 1, agenda := dropPosting p s.agenda })
      | none => (none, { s with free := s.free + 1 })

end Sys2Proof.Machine
end

