-- ==== Sys2Proof/Machine/Ports.lean ====
section
/-!
DEFINITION. Home ports and answers: accesses that travel, pending stores, answers to destinations, publication and
host writes (R43, R195, R197, R240, R293, R340).
-/
namespace Sys2Proof.Machine

/-! ### Home ports (R293, R339, R340) -/

/-- Run the access a thread left with at its home port; an instruction that is no access any more issues again. -/
def runAccess (i : Instr) (s : State) : Host.Outcome State Fault Refusal :=
  match i with
  | .ldd h d a ty o z imm => execLdd h d a ty o z imm s
  | .std h a b ty o z imm => execStd h a b ty o z imm s
  | .vldd h d a ty m imm => execVldd h d a ty m imm s
  | .vstd h a b ty m imm => execVstd h a b ty m imm s
  | .amod h d a b o dw op => execAmod h d a b o dw op s
  | .casd h d a b c o dw => execCasd h d a b c o dw s
  | .ldsb h d a tg imm => execLdsb h d a tg imm s
  | .stsb h a b tg imm => execStsb h a b tg imm s
  | .ldh h d a z imm => execLdh h d a z imm s
  | .sth h a b z imm => execSth h a b z imm s
  | .ctxsv h d a b dev cap => execCtxsv h d a b dev cap s
  | .ctxld h d a dev => execCtxld h d a dev s
  | _ => .next ((s.untake s.cur).joinRun s.cur)

/-- The waiting access of a thread reaches its home port. -/
def State.proxyAt (s : State) (id : Word32) : State :=
  let cur := s.cur
  match s.inHand id with
  | some i =>
    let s := { s with cur := id }.modThr id fun t => { t with atPort := true }
    match runAccess i s with
    | .next s' => { s' with cur := cur }
    | .fault _ | .refused _ => s
  | none => (s.untake id).joinRun id

/-- A plane of an access reaches its home port, which checks it. Once every plane has passed, those of a load go to their
ports a second time and are read; the access goes on when every plane has answered (R133). -/
def State.planeAt (s : State) (thid : Word32) (i : Nat) : State :=
  let t := s.thr thid
  match t.planes[i]? with
  | none => s
  | some p =>
    let s := if p.done then s.lineRead p.pa else s
    let cause := match stencilCause (s.core (homeCore p.pa)).stencil p.pa p.n p.write with
      | some c => some c
      | none => if p.done && sbPoison (s.dmSb t.core p.pa) then some 0x60#8 else none
    let q := if p.done then
        { p with got := true, cause := cause, data := s.dmNat t.core p.pa p.n, bound := sbBound (s.dmSb t.core p.pa) }
      else { p with done := true, cause := cause }
    let ps := t.planes.set i q
    let s := (s.setThr thid { t with planes := ps }).traffic thid
    if ps.all (·.got) then s.proxyAt thid
    else if p.done || !ps.all (·.done) then s
    else if ps.all fun x => x.rd && x.cause.isNone then s.sendPlanes t.core thid ps 32
    else s.proxyAt thid

def State.atHomePort (s : State) (thid : Word32) (id : Nat) : State :=
  if planesMax ≤ id then match s.asks.look id with
    | some a => s.askArrives id a
    | none => s.performStore thid id
  else match (s.thr thid).wait with
    | .anchor =>
      (s.setThr thid { s.thr thid with atAnchor := true, wait := .answer }).post (.accessAnswer thid) 0 16
    | .entry => s.post (.accessAnswer thid) 0 16
    | .access => if (s.thr thid).planes.isEmpty then s.proxyAt thid else s.planeAt thid id
    | .hostAccess _ _ => if s.linkUp then s.proxyAt thid else s
    | _ => s

def execHomePortAccess (thid : Word32) (id : Nat) (s : State) := event (fun s => s.atHomePort thid id) s

/-- The answer of a home port or an anchor reaches the waiting thread (R43, R45). -/
def State.answered (s : State) (id : Word32) : State :=
  let t := s.thr id
  if t.wait == .entry then ((s.traffic id).wake id).modThr id fun t => { t with reissue := false, bound := false, woke := .none }
  else if t.wait ≠ .answer then s
  else if t.life == .waitUnseated then
    ((s.modThr id fun t => { t with reissue := t.atAnchor, bound := t.atAnchor }).traffic id).joinRun id
  else s

def execAccessAnswer (thid : Word32) (s : State) := event (fun s => s.answered thid) s

/-! ### Answers (R240) -/

/-- An answer reaches its thread: the destination fills and the count drops. A swapped-out thread's answer waits for
its restore, and one for qout for a credit. -/
def State.statusArrives (s : State) (id : Word32) (dst : Fld) (x : Word) : State :=
  match s.threads.look id.toNat with
  | none => s
  | some t =>
    if t.life == .swappedOut then s.post (.statusAnswer id dst x) 0 64
    else
      match (if t.life == .exited then some s else s.fillDst id dst x) with
      | none => s.post (.statusAnswer id dst x) 0 16
      | some s =>
        let s := s.modThr id fun t => { t with outSt := t.outSt - 1 }
        ((s.traffic id).poke id).tryFree id

def execStatusAnswer (thid : Word32) (dst : Fld) (value : Word) (s : State) :=
  event (fun s => s.statusArrives thid dst value) s

/-! ### The Priet controller (R195, R197, R302) -/

/-- The publication counter advances, its value goes to the destination, and its store at the host follows every
earlier host write of the thread. A value that its thread cannot take yet, away or without a credit, travels as an answer. -/
def State.publishAt (s : State) (id : Word32) (dst : Fld) : State :=
  match s.threads.look id.toNat with
  | none => s
  | some t =>
    match s.parts.look t.part with
    | none => s
    | some q =>
      let v := q.pubCount + 1#64
      let s := { s with parts := s.parts.ins t.part { q with pubCount := v } }
      let s := match (if t.life == .exited then some s else if t.life == .swappedOut then none else s.fillDst id dst v) with
        | some s => s
        | none => (s.modThr id fun t => { t with outSt := t.outSt + 1 }).post (.statusAnswer id dst v) 0 16
      (s.hostAccept id t.part (cellsOf (q.desc.hostBase.toNat + 0x1000) (leBytes 8 v.toNat)) (some v)).poke id

def execPublishApply (src : Word32) (dst : Fld) (s : State) := event (fun s => s.publishAt src dst) s
def execHostWritePerformed (id : Nat) (s : State) := event (fun s => s.hostPerform id) s

end Sys2Proof.Machine
end

