-- ==== Sys2Proof/Machine/TaskEv.lean ====
section
/-!
DEFINITION. Task messages, spawn and kill requests, mailboxes and signals at their destinations (R137 to R143,
R253 to R259).
-/
namespace Sys2Proof.Machine

/-- A message has been applied: it no longer counts as an outstanding store of its source (R141). -/
def State.applied (s : State) (src : Word32) : State :=
  if (s.threads.look src.toNat).isSome then
    (((s.modThr src fun t => { t with outSt := t.outSt - 1 }).traffic src).poke src).tryFree src
  else s

/-! ### Tasks (R137 to R142) -/

/-- A cause posted to the source of a task message; for a source that has exited it is dropped and counted. -/
def State.taskCause (s : State) (src : Word32) (core : Nat) (code : Byte) (name : Word) : State :=
  if s.live src then s.postCause src code name
  else s.modCore core fun c => { c with taskFaults := c.taskFaults + 1 }

/-- The record's state field as a write leaves it. -/
def Core.setTask (c : Core) (off st : Nat) : Core :=
  let d := c.spNat off 8
  c.spWrite off (leBytes 8 (d % 2 ^ 56 + d / 2 ^ 60 * 2 ^ 60 + st * 2 ^ 56))
def Core.taskState (c : Core) (off : Nat) : Nat := c.spNat off 8 / 2 ^ 56 % 16

/-- The checks of Release on a record (R142). -/
def Core.taskBad (c : Core) (off : Nat) : Bool :=
  let d (i : Nat) : Nat := c.spNat (off + 8 * i) 8
  recBad (d 0 % 2 ^ 56 + d 0 / 2 ^ 60 * 2 ^ 60) || !recShapeOk (d 0) || d 2 % 128 != 0 || d 3 % 64 != 0 ||
    decide (Config.spBytes < d 3 + 8 * (d 0 / 2 ^ 40 % 256)) ||
    ((d 0).testBit 48 && (d 4 % 64 != 0 || decide (Config.spBytes < d 4 + 32)))

/-- The record joins the tail of its priority's chain; what the hardware writes into its link the manual does not
say (log 6). -/
def State.chainTask (s : State) (core off : Nat) : State :=
  let p := (s.core core).spNat off 8 / 2 ^ 54 % 4
  let (n, s) := s.draw
  s.modCore core fun c =>
    let c := c.spWrite (off + 80) (leBytes 8 (Config.freeWord n).toNat)
    { c with pending := c.pending.ins p (c.pending.lookD p [] ++ [off]) }

/-- Release of R142; while a stop is in force the record waits in its chain (R144). -/
def State.releaseTask (s : State) (core off : Nat) (src : Word32) (name : Word) : State :=
  let c := s.core core
  if c.taskBad off then (s.modCore core fun c => c.setTask off 5).taskCause src core 0xA3#8 name
  else
    let s := s.modCore core fun c => c.setTask off 2
    let p := c.spNat off 8 / 2 ^ 54 % 4
    if c.pending.any (fun e => decide (e.1 ≤ p) && !e.2.isEmpty) || (s.partOf core).any s.stopTicks then s.chainTask core off
    else match s.createTask core off with
      | some s' => s'
      | none => s.chainTask core off

/-- The counter of a record takes a value. -/
def Core.setCounter (c : Core) (off n : Nat) : Core := c.spWrite (off + 8) (leBytes 4 n)

/-- The table of R140 at the home port. -/
def State.applyTask (s : State) (src : Word32) (name : Word) (op : TaskOp) : State :=
  match s.taskHome (s.thr src).part name with
  | none => s
  | some (core, off) =>
    let c := s.core core
    let st := c.taskState off
    let n := c.spNat (off + 8) 4
    let free := st == 0 || st == 4 || st == 5
    let arm (k : Nat) : State :=
      let s := s.modCore core fun c => c.setCounter off k
      if k = 0 then s.releaseTask core off src name else s.modCore core fun c => c.setTask off 1
    if 5 < st then s.taskCause src core 0xA2#8 name
    else match op with
      | .tset k => if free then arm k.toNat else s.taskCause src core 0xA2#8 name
      | .tenq => if free then arm 0 else s.taskCause src core 0xA2#8 name
      | .tdec =>
        if st ≠ 1 ∨ n = 0 then s.taskCause src core 0xA0#8 name
        else
          let s := s.modCore core fun c => c.setCounter off (n - 1)
          if n = 1 then s.releaseTask core off src name else s

def execTaskMessage (src : Word32) (name : Word) (op : TaskOp) (s : State) :=
  event (fun s => (s.applyTask src name op).applied src) s

/-! ### spawn and kill (R253, R254) -/

def execSpawnRequest (req : SpawnReq) (s : State) := event (fun s =>
  let (x, s) := s.spawnAt req
  s.answer req.src req.dst x) s

/-- What a request about a thread answers when it does not reach it: no live thread, or another partition's. -/
def State.missing (s : State) (src : Word32) (target : Word) : Option Word :=
  let id : Word32 := target.setWidth 32
  if id.zeroExtend 64 ≠ target ∨ !s.live id then some 1#64
  else if (s.thr id).part ≠ (s.thr src).part then some 2#64 else none

/-- A kill at the target: a migrating one is killed on arrival, a swapped-out one loses its number and its saved
copies. -/
def State.killAt (s : State) (src : Word32) (dst : Fld) (target : Word) : State :=
  match s.missing src target with
  | some x => s.answer src dst x
  | none =>
    let id : Word32 := target.setWidth 32
    match (s.thr id).life with
    | .migrating => s.modThr id fun t => { t with killers := t.killers ++ [(src, dst)] }
    | .swappedOut =>
      let lost := s.copies.filter fun e => e.2.thid == id && e.2.state == CopyState.squashed
      let s := { s with copies := s.copies.filter fun e => !(e.2.thid == id && e.2.state == CopyState.squashed) }
      -- a buffer slot that one of them had taken is counted past (R95)
      let s := lost.foldl (fun s e => match e.2.cb with | some c => s.countFilled e.2.core c | none => s) s
      -- it was resident nowhere, and its number is released at once (R239, R254)
      (((s.modThr id fun t => { t with outCp := 0, outSt := 0 }).endThread id true).release' id).answer src dst 3#64
    | _ => (s.endThread id true).answer src dst 0#64

def execKillRequest (src : Word32) (dst : Fld) (target : Word) (s : State) :=
  event (fun s => s.killAt src dst target) s

/-! ### Mailboxes and signals (R256 to R259, R337) -/

/-- Entries of a mailbox (R256). -/
def mailboxMax : Nat := 16

/-- Deliver one message: none when the mailbox is full. One that reaches a thread whose save goes on is kept in its image
(R165). -/
def State.deliver (s : State) (src : Word32) (dst : Fld) (target value : Word) : Option State :=
  match s.missing src target with
  | some x => some (s.answer src dst x)
  | none =>
    let id : Word32 := target.setWidth 32
    let t := s.thr id
    if t.life == .swappedOut && !s.saveOpen id then some (s.answer src dst 3#64)
    else if mailboxMax ≤ t.mailbox.length then none
    else some ((((s.setThr id { t with mailbox := t.mailbox ++ [value] }).traffic id).poke id).answer src dst 0#64)

/-- A refused send is kept at the sender and sent again every 64 cycles; later ones to the same thread wait behind
it. -/
def State.mail (s : State) (src : Word32) (dst : Fld) (target value : Word) : State :=
  -- the packet has moved, whatever becomes of it (R156)
  let s := (s.traffic src).traffic (target.setWidth 32)
  let keep (s : State) : State :=
    (s.modThr src fun t => { t with sends := t.sends ++ [(target, value, dst)] }).postOnce (.sendRetry src) 64
  if (s.thr src).sends.any (fun x => x.1 == target) then keep s
  else match s.deliver src dst target value with
    | some s' => s'
    | none => keep s

def execMailboxDelivery (src : Word32) (dst : Fld) (target value : Word) (s : State) :=
  event (fun s => s.mail src dst target value) s

/-- Every kept send is tried once, oldest first; those of a set that is out stay with their thread (R165). -/
def State.retrySends (s : State) (src : Word32) : State :=
  let sends := (s.thr src).sends
  let s := s.modThr src fun t => { t with sends := [] }
  let s := sends.foldl (fun s x => s.mail src x.2.2 x.1 x.2.1) s
  if (s.thr src).sends.isEmpty then s else s.postOnce (.sendRetry src) 64

def execSendRetry (src : Word32) (s : State) :=
  event (fun s => if (s.threads.look src.toNat).isSome && !((s.thr src).life == .swappedOut && decide (3 ≤ (s.thr src).purpose.toNat))
    then s.retrySends src else s) s

/-- A signal sets bits 62:0 of an event word; one behind a refused send of its thread waits with it (R259). -/
def State.signalAt (s : State) (src : Word32) (dst : Fld) (target mask : Word) : State :=
  if (s.thr src).sends.any (fun x => x.1 == target) then
    let p : Posting := ⟨s.nextOp, s.now + 64, chanThread src (target.setWidth 32), false, .signalDelivery src dst target mask,
      s.sender src⟩
    { s with agenda := p :: s.agenda }
  else match s.missing src target with
    | some x => s.answer src dst x
    | none =>
      let id : Word32 := target.setWidth 32
      let t := s.thr id
      if t.life == .swappedOut && !s.saveOpen id then s.answer src dst 3#64
      else (((s.setThr id { t with ev := t.ev ||| (mask &&& 0x7FFFFFFFFFFFFFFF#64) }).traffic id).poke id).answer src dst 0#64

def execSignalDelivery (src : Word32) (dst : Fld) (target mask : Word) (s : State) :=
  event (fun s => s.signalAt src dst target mask) s

end Sys2Proof.Machine
end

