-- ==== Sys2Proof/Machine/BarrierEv.lean ====
section
/-!
DEFINITION. Barriers at the hall: arrivals, releases and withdrawals (R178 to R183, R312, R313).
-/
namespace Sys2Proof.Machine

def barrierKey (part : Nat) (k : BitVec 4) : Nat := 16 * part + k.toNat
def allOnes : Word := 0xFFFFFFFFFFFFFFFF#64

/-- A wait that is over with an answer; a waiter that is no longer there keeps nothing. -/
def State.endWait (s : State) (id : Word32) (dst : Fld) (x : Word) : State :=
  if (s.thr id).waiting then s.completeWith id dst x else s

/-- A swapped-out waiter's record is not written: its message comes again when it is back. -/
def State.away (s : State) (id : Word32) : Bool := (s.thr id).life == .swappedOut
/-- Out with its whole set, whose barriers are saved with it: a message that found no room in a save buffer comes again when
the set is back (R165). -/
def State.setAway (s : State) (id : Word32) : Bool := s.away id && decide (3 ≤ (s.thr id).purpose.toNat)

/-- The hall rejects an arrival (R181). -/
def State.rejectArrival (s : State) (src : Word32) (k : BitVec 4) (dst : Fld) (wait : Bool) (code : Byte) : State :=
  let s := s.postCause src code (k.zeroExtend 64)
  if wait then (s.applied src).endWait src dst allOnes else s.answer src dst allOnes

/-- An arrival is counted: for .aw the wait on its generation begins; the last one completes the barrier. A cause
posted meanwhile withdraws it (R313). -/
def State.takeArrival (s : State) (src : Word32) (k : BitVec 4) (dst : Fld) (wait : Bool) (r : Nat) (b : Barrier) : State :=
  let key := barrierKey (s.thr src).part k
  let b' := { b with arrived := b.arrived ++ [r] }
  let s := { s with barriers := s.barriers.ins key b' }
  let s := if wait then (s.applied src).startWait src (.barrier k b.gen true dst) else s.answer src dst (b.gen.zeroExtend 64)
  let s := if b'.members.all fun m => b'.arrived.contains m.1 then s.completeBarrier key b' else s
  let t := s.thr src
  if wait && t.ie && !t.posted.isEmpty then (s.startWait src (.withdrawal k b.gen dst)).post (.barrierWithdrawal src k) 0 16
  else s

def State.arrival (s : State) (src : Word32) (k : BitVec 4) (dst : Fld) (wait : Bool) : State :=
  if s.setAway src && !s.saveOpen src then s.post (.barrierArrival src k dst wait) (chanThread src src) 64
  else
    let b := s.barrier (s.thr src).part k.toNat
    match b.members.find? fun m => m.2 == src with
    | none => s.rejectArrival src k dst wait 0xB0#8
    | some (r, _) =>
      if b.arrived.contains r then s.rejectArrival src k dst wait 0xB1#8 else s.takeArrival src k dst wait r b

def execBarrierArrival (src : Word32) (k : BitVec 4) (dst : Fld) (wait : Bool) (s : State) :=
  event (fun s => (s.arrival src k dst wait).traffic src) s

/-- The release of a completion reaches a core: its waiters on the old generation are ready (R180, R182). -/
def State.releaseAt (s : State) (part : Nat) (k : BitVec 4) (core : Nat) : State :=
  match s.barriers.look (barrierKey part k) with
  | none => s
  | some b =>
    let s := { s with barriers := s.barriers.ins (barrierKey part k) { b with releasing := b.releasing.filter (· != core) } }
    let waits (t : Thread) : Bool :=
      t.core == core && t.part == part && (match t.wait with | .barrier q _ _ _ => q == k | _ => false)
    let s := b.members.foldl (fun s m => if (s.thr m.2).core = core then s.traffic m.2 else s) s
    let s := (s.threads.filter fun e => waits e.2).foldl (fun s e => s.traffic e.2.thid) s
    s.pokeAll waits

def execBarrierRelease (part : Nat) (k : BitVec 4) (core : Nat) (s : State) :=
  event (fun s => s.releaseAt part k core) s

/-- The answer to a withdrawal: withdrawn, and the bar is abandoned; or completed, and it returns (R313). -/
def State.withdraw (s : State) (src : Word32) (k : BitVec 4) : State :=
  if s.away src then s.post (.barrierWithdrawal src k) 0 64
  else match (s.thr src).wait with
    | .withdrawal q g dst =>
      if q ≠ k then s
      else
        let key := barrierKey (s.thr src).part k
        let b := s.barrier (s.thr src).part k.toNat
        match b.members.find? fun m => m.2 == src with
        | some (r, _) =>
          if b.gen = g ∧ b.arrived.contains r then
            let s := { s with barriers := s.barriers.ins key { b with arrived := b.arrived.filter (· != r) } }
            s.abandonWait src
          else s.completeWith src dst (b.gen.zeroExtend 64)
        | none =>
          if b.gen = g then s.abandonWait src
          else s.completeWith src dst (b.gen.zeroExtend 64)
    | _ => s

def execBarrierWithdrawal (src : Word32) (k : BitVec 4) (s : State) := event (fun s => (s.withdraw src k).traffic src) s

end Sys2Proof.Machine
end

