-- ==== Sys2Proof/Machine/LinkEv.lean ====
section
/-!
DEFINITION. Register-mapped queues and probe tokens (R189 to R191), the Priet Link going down and up (R198), peer
ports (R199), and the events the life log bins (R359).
-/
namespace Sys2Proof.Machine

/-! ### Register-mapped queues (R190) -/


/-- An entry joins the inbound queue of a direction. -/
def State.takeEntry (s : State) (core : Nat) (d : Dir) (x : Word) : State :=
  let s := s.modCore core fun c =>
    let q := c.queue (dirCode d)
    c.setQueue (dirCode d) { q with items := q.items ++ [x] }
  s.pokeAll fun t => t.core == core && (match t.wait with | .qin e => e.toNat == dirCode d | _ => false)

def execQueueEntry (core : Nat) (dir : Dir) (value : Word) (s : State) := event (fun s => s.takeEntry core dir value) s

/-- A pop of a core's inbound queue gives the neighbour of that direction one credit back. -/
def State.credit (s : State) (core : Nat) (d : Dir) : State :=
  let nb := neighbour core (dirCode d)
  let o := opposite (dirCode d)
  let s := s.modCore nb fun c => { c with credUsed := c.credUsed.put 0 o (c.credUsed.lookD o 0 - 1) }
  s.pokeAll fun t => t.core == nb && (match t.wait with | .qout e => e.toNat == o | _ => false)

def execCreditReturn (core : Nat) (dir : Dir) (s : State) := event (fun s => s.credit core dir) s

/-! ### Probe tokens (R191) -/

/-- The oldest thread of a core that waits on qout. -/
def State.oldestQout (s : State) (core : Nat) : Option Thread :=
  s.threads.foldl (fun (m : Option Thread) e =>
    let t := e.2
    match t.wait with
    | .qout _ =>
      if t.core ≠ core || !t.waiting then m
      else match m with
        | none => some t
        | some u => if t.waitSince < u.waitSince then some t else m
    | _ => m) none

/-- Cycles of waiting before a token, and between two tokens of a core. -/
def probeCycles : Nat := 256
def probeHops : Nat := 1024
def hopCycles : Nat := 23

/-- A token leaves along the waiter's link. -/
def State.forward (s : State) (origin : Nat) (t : Thread) (hops : Nat) : State :=
  s.post (.probeToken origin (neighbour t.core t.down) (dirOf (opposite t.down)) (hops + 1)) 0 hopCycles

/-- A core whose oldest waiter has waited 256 cycles sends a token, at most one in 256 cycles. -/
def State.probe (s : State) (core : Nat) : State :=
  match s.oldestQout core with
  | none => s
  | some t =>
    let from' := match (s.core core).lastProbe with
      | some p => max (p + probeCycles) (t.waitSince + probeCycles)
      | none => t.waitSince + probeCycles
    if s.now < from' then s.postOnce (.probeTokenSend core) (from' - s.now)
    else
      let s := s.modCore core fun c => { c with lastProbe := some s.now }
      (s.forward core t 0).postOnce (.probeTokenSend core) probeCycles

def execProbeTokenSend (core : Nat) (s : State) := event (fun s => s.probe core) s

/-- A token arrives from a direction: back at its origin it lends a reserve entry or posts cause 0xB4; elsewhere it
goes on along the oldest waiting qout, or is dropped. -/
def State.token (s : State) (origin core : Nat) (d : Dir) (hops : Nat) : State :=
  if core = origin then
    if 0 < (s.core core).reserve then
      let s := s.modCore core fun c =>
        let q := c.queue (dirCode d)
        { c.setQueue (dirCode d) { q with lent := q.lent + 1 } with reserve := c.reserve - 1 }
      s.post (.creditReturn core d) (chanQueue core (dirCode d)) hopCycles
    else match s.oldestQout core with
      | some t => s.postCause t.thid 0xB4#8 (BitVec.ofNat 64 origin)
      | none => s
  else if probeHops ≤ hops then s
  else match s.oldestQout core with
    | some t => s.forward origin t hops
    | none => s

def execProbeToken (origin core : Nat) (dir : Dir) (hops : Nat) (s : State) :=
  event (fun s => s.token origin core dir hops) s

/-! ### The Priet Link (R198, R297) -/

/-- The link goes down: its count starts and host traffic stops. -/
def State.linkDown (s : State) : State :=
  if !s.linkUp then s
  else { s with linkUp := false, linkDownAt := s.now }.post .linkDownTimeout 0 Config.linkDownCycles

def execPrietLinkDown (s : State) := event State.linkDown s

/-- A waiting ldh is abandoned with cause 0xE4 posted. -/
def State.dropLdh (s : State) (id : Word32) (off : Nat) : State :=
  let s := ((s.untake id).modThr id fun t => { t with outLd := 0, atPort := false }).abandonWait id
  s.postCause id 0xE4#8 (BitVec.ofNat 64 off)

/-- An sth that waits to be accepted is dropped, and completes. -/
def State.dropSth (s : State) (id : Word32) : State := (s.count lgDropSth).completeWith id ⟨0x80#8, false⟩ 0#64

/-- An accepted sth is dropped. -/
def State.dropHost (s : State) (id : Nat) (e : HostStore) : State :=
  let s := { s with hostPend := s.hostPend.del id }.count lgDropSth
  s.applied e.thid

/-- The link has been down for 1,048,576 cycles: ldh, sth and the copies of the host end. -/
def State.linkLimit (s : State) : State :=
  if s.linkUp || decide (s.now < s.linkDownAt + Config.linkDownCycles) then s
  else
    let s := s.threads.foldl (fun s e => match e.2.wait with
      | .hostAccess off st => if st then s.dropSth e.2.thid else s.dropLdh e.2.thid off
      | _ => s) s
    let s := s.hostPend.foldl (fun s e => if e.2.value.isNone && e.2.thid != 0#32 then s.dropHost e.1 e.2 else s) s
    s.copies.foldl (fun s e => if e.2.live && e.2.viaHost then s.endCopy e.1 .faulted 0xF4#8 else s) s

def execLinkDownTimeout (s : State) := event State.linkLimit s

/-- The link retrains: accesses that wait for the controller are tried again. -/
def State.linkTrained (s : State) : State :=
  if s.linkUp then s
  else (s.threads.filter fun e => match e.2.wait with | .hostAccess _ _ => true | _ => false).foldl
    (fun s e => s.post (.homePortAccess e.2.thid 0) 0 16) { s with linkUp := true }

def execLinkRetrain (s : State) := event State.linkTrained s

/-! ### Peer ports (R199) -/

/-- A line the peer device writes lands in the partition's peer window with bvalid = 0. -/
def State.peerLine (s : State) (port off : Nat) (line : Vec) : State :=
  match s.peers.look port with
  | none => s
  | some p =>
    if off % 64 ≠ 0 ∨ p.len < off + 64 ∨ s.peerFail.contains port ∨ s.gated then s
    else s.keyWrite (p.base + off) (leBytes 64 line.toNat) true 0#32 false false

def execPeerWrite (port offset : Nat) (line : Vec) (s : State) := event (fun s => s.peerLine port offset line) s

/-- A copy ends faulted once every line it has sent is performed (R86). -/
def State.faultCopy (s : State) (op : Nat) (o : CopyOp) (why : Byte) : State :=
  let s := { s with copies := s.copies.ins op { o with stop := some .faulted, why := why } }
  if o.lines = o.sent * o.mult then s.endCopy op .faulted why else s

/-- A port fails: the peer copies that use it end faulted. -/
def State.peerDown (s : State) (port : Nat) : State :=
  let s := { s with peerFail := if s.peerFail.contains port then s.peerFail else s.peerFail ++ [port] }
  let uses (e : Endpoint) : Bool := e.space == 4#3 && e.port == port
  s.copies.foldl (fun s e => if e.2.live && (uses e.2.src || uses e.2.dst) then s.faultCopy e.1 e.2 0xF3#8 else s) s

def execPeerPortFailure (port : Nat) (s : State) := event (fun s => s.peerDown port) s

/-! ### Excursions (R359) -/

/-- Dies of the module: eight eave dies and two ridge dies. -/
def dies : Nat := 10

/-- The bin of a thermal peak in whole degrees above the limit, and of a droop depth in whole per cent. -/
def thermalBin (peak : Nat) : Nat := if peak < 2 then 0 else if peak < 5 then 1 else if peak < 10 then 2 else 3
def droopBin (depth : Nat) : Nat := if depth < 2 then 0 else if depth < 4 then 1 else if depth < 8 then 2 else 3

def execThermalExcursion (die peak : Nat) (s : State) :=
  event (fun s => if die < dies then s.count (lgThermal die (thermalBin peak)) else s) s
def execSupplyDroop (die depth : Nat) (s : State) :=
  event (fun s => if die < dies then s.count (lgDroop die (droopBin depth)) else s) s

end Sys2Proof.Machine
end

