-- ==== Sys2Proof/Machine/Paging.lean ====
section
/-!
DEFINITION. Page migration, eviction, retirement and shootdowns (R74 to R76, R335).
-/
namespace Sys2Proof.Machine

/-! ### Shootdowns (R75, R335) -/

/-- A core drops matching entries and replies; after the last reply the operation goes on. -/
def State.shotDown (s : State) (core : Nat) (va : Option Word) (op : Nat) : State :=
  match s.pages.look op, s.invals.look op with
  | some x, _ =>
    let s := s.modCore core fun c => c.invalidate va
    let rs := x.replies.filter (· != core)
    let s := { s with pages := s.pages.ins op { x with replies := rs } }
    if !rs.isEmpty || x.replies.isEmpty then s
    else if x.evict then s.post (.evictionComplete op) 0 64
    else if x.rewritten then s.post (.migrationComplete op) (chanCopy op) 32 else s
  | none, some x =>
    let s := s.modCore core fun c => c.invalidate va
    let rs := x.waiting.filter (· != core)
    if rs.isEmpty then State.answer { s with invals := s.invals.del op } x.thid x.dst 0#64 32
    else { s with invals := s.invals.ins op { x with waiting := rs } }
  | none, none => s

def execShootdown (core : Nat) (va : Option Word) (op : Nat) (s : State) := event (fun s => s.shotDown core va op) s

/-! ### Moving a page (R74, R75) -/

def pageBytes : Nat := 4096

/-- The offsets of the lines of a page. -/
def pageLines : List Nat := (List.range 64).map (64 * ·)

/-- Every line of a frame is written whole (R78, R81). -/
def State.pageWritten (s : State) (tgt : Nat) : State :=
  pageLines.foldl (fun s o => (s.renewed (tgt * pageBytes + o)).activate (tgt * pageBytes + o)) s

/-- The data and the sideband words of a page move to another frame, once the stores to it that are on their way are performed
(R340); its lines are read on the way (R75, R78). -/
def State.movePage (s : State) (from' tgt : Nat) : State :=
  let s := s.drainPort (from' * pageBytes) (from' * pageBytes + pageBytes)
  let s := pageLines.foldl (fun s o => s.lineRead (from' * pageBytes + o)) s
  let s := s.dmWrite (tgt * pageBytes) (s.mem.run 0#8 (from' * pageBytes) pageBytes)
  let s := pageLines.foldl (fun s o => s.setSb (tgt * pageBytes + o) (s.sbWord (from' * pageBytes + o))) s
  s.pageWritten tgt

/-- A compressed record expands; its format is not in the manual, so what the page holds is free (log 6). -/
def State.expandPage (s : State) (tgt : Nat) : State :=
  let n := s.free
  let s := { s with free := n + 576 }
  let s := s.dmWrite (tgt * pageBytes) ((List.range 512).flatMap fun i => leBytes 8 (Config.freeWord (n + i)).toNat)
  let s := (List.range 64).foldl (fun s i => s.setSb (tgt * pageBytes + 64 * i)
    ((Config.freeWord (n + 512 + i)).setWidth 32 &&& 0x7FFFFFF0#32)) s
  s.pageWritten tgt

/-- The leaf of a page in a frame: addr the frame, tier as its bit 46, migrating and compressed 0, bits 11:9, 5 and
4:0 kept. -/
def leafAt (e frame : Nat) : Nat :=
  let far := (frame * pageBytes).testBit 46
  frame * pageBytes + (e / 512 % 8) * 512 + (if far then 64 else 0) + e % 64

/-- The walker rewrites a leaf for a page in a frame (R75 step 4); an entry of a contig run is remembered as software had it
(R72). -/
def State.rewriteLeaf (s : State) (leaf frame : Nat) : State :=
  let e := leNat (s.mem.run 0#8 leaf 8)
  let e' := leafAt e frame
  let s := if pteBit e 9 then { s with rewrites := s.rewrites.ins leaf (e', s.softPte leaf e) } else s
  (s.dmWrite leaf (leBytes 8 e')).activate leaf

/-- An entry that is retired stays the one that hardware last wrote, or software's, as it was (R72, R74). -/
def State.noteRetired (s : State) (leaf : Nat) : State :=
  match s.rewrites.look leaf with
  | some (new, old) => { s with rewrites := s.rewrites.ins leaf (new % 2 ^ 63 + 2 ^ 63, old % 2 ^ 63 + 2 ^ 63) }
  | none => s

/-- The operation is over: waiters retry, and each asker is answered by where the page now lies, or its own move begins
(R307). -/
def State.pageDone (s : State) (op : Nat) (x : PageOp) : State :=
  let s := { s with pages := s.pages.del op }
  let s := x.waiters.foldl (fun s id => match (s.thr id).wait with
    | .page o => if o = op then s.wake id else s
    | .frame => s.wake id
    | _ => s) s
  x.askers.foldl (fun s a =>
    let e := leNat (s.mem.run 0#8 x.leaf 8)
    if !pteBit e 0 then s.answer a.1 a.2.1 1#64
    else match s.pageAsk a.1 a.2.2 x.part x.va a.2.1 x.leaf e with
    | .inl n => s.answer a.1 a.2.1 n
    | .inr s' => s') s

/-- A frame goes back to the pool it came from. -/
def State.giveFrame (s : State) (core frame : Nat) : State :=
  (s.modCore core fun c => { c with frames := c.frames ++ [frame] }).postOnce (.frameAvailable core none)

/-- Steps 3 to 6 of R75: the page moves, the leaf is rewritten and the shootdown leaves; once every core has replied
the page is near. A far frame goes back to its pool, and the frame of a compressed record to none (log 137). -/
def State.migrated (s : State) (op : Nat) : State :=
  match s.pages.look op with
  | none => s
  | some x =>
    if x.evict then s
    else match x.frame with
    | none => s
    | some f =>
      if x.rewritten then
        if !x.replies.isEmpty then s
        else
          let s := if isFar (x.pfn * pageBytes) then { s with farPool := s.farPool ++ [x.pfn] } else s
          s.pageDone op x
      else
        let e := leNat (s.mem.run 0#8 x.leaf 8)
        let packed := pteBit e 8
        let (fails, s) := if packed then (let (n, s) := s.draw; (Config.freeBool n, s)) else (false, s)
        if fails then
          let s := s.dmWrite x.leaf (leBytes 8 (e % 2 ^ 63 - (if pteBit e 7 then 128 else 0) + 2 ^ 63))
          ((s.noteRetired x.leaf).giveFrame x.core f).pageDone op x
        else
          let s := if packed then s.expandPage f else s.movePage x.pfn f
          let s := s.rewriteLeaf x.leaf f
          let (cs, s) := s.shoot x.part x.core (some x.va) op
          let s := { s with pages := s.pages.ins op { x with rewritten := true, replies := cs } }
          if cs.isEmpty then s.post (.migrationComplete op) (chanCopy op) 32 else s

def execMigrationComplete (op : Nat) (s : State) := event (fun s => s.migrated op) s

/-- The page has been copied to the far tier: the leaf names it there, and the near frame is free. -/
def State.evicted (s : State) (op : Nat) : State :=
  match s.pages.look op with
  | none => s
  | some x =>
    if !x.evict || !x.replies.isEmpty then s
    else match x.frame with
    | none => s
    | some f =>
      let s := s.movePage x.pfn f
      let s := s.rewriteLeaf x.leaf f
      (s.giveFrame (homeCore (x.pfn * pageBytes)) x.pfn).pageDone op x

def execEvictionComplete (op : Nat) (s : State) := event (fun s => s.evicted op) s

/-- A free frame appears in a core's pool, and the oldest migration that waits for one takes it (R75 step 2). -/
def State.frameIn (s : State) (core : Nat) (frame : Option Nat) : State :=
  let s := match frame with
    | some f => s.modCore core fun c => { c with frames := c.frames ++ [f] }
    | none => s
  match (s.core core).frames, s.pages.find? fun e => e.2.core == core && !e.2.evict && e.2.frame.isNone with
  | f :: fs, some (op, x) =>
    let s := s.modCore core fun c => { c with frames := fs }
    let s := { s with pages := s.pages.ins op { x with frame := some f } }
    let s := if s.pages.any fun e => e.2.core == core && !e.2.evict && e.2.frame.isNone then s
      else { s with starved := s.starved.filter (· != core) }
    let s := x.waiters.foldl (fun s id => s.modThr id fun t => { t with wait := if t.wait == .frame then .page op else t.wait }) s
    let s := s.post (.migrationComplete op) (chanCopy op) 64
    if fs.isEmpty then s else s.postOnce (.frameAvailable core none)
  | _, _ => s

def execFrameAvailable (core : Nat) (frame : Option Nat) (s : State) := event (fun s => s.frameIn core frame) s

/-! ### Firmware's eviction and retirement (R74) -/

/-- The leaf of a page of a partition as its first core sees it. -/
def State.leafOf (s : State) (part : Nat) (va : Word) : Option (Nat × Leaf) :=
  match s.partCores part with
  | [] => none
  | c :: _ => match s.walk c part (va.toNat % 2 ^ 48) with
    | (.ok l, _) => some (c, l)
    | (.error _, _) => none

/-- Firmware evicts a near page of 4 KiB into a far frame of its pool. -/
def State.evictPage (s : State) (part : Nat) (va : Word) (frame : Option Nat) : State :=
  let s := match frame with
    | some f => { s with farPool := s.farPool ++ [f] }
    | none => s
  match s.leafOf part va with
  | none => s
  | some (c, l) =>
    if l.level ≠ 1 || pteBit l.pte 63 || pteBit l.pte 6 || pteBit l.pte 7 || pteBit l.pte 8 then s
    else (s.beginEvict c part va l.addr l.pte []).getD s

def execPageEviction (part : Nat) (va : Word) (frame : Option Nat) (s : State) :=
  event (fun s => s.evictPage part va frame) s

/-- Firmware retires a present page: the entry is rewritten poisoned and a shootdown follows. One that moves is
retired when it has moved. -/
def State.retirePage (s : State) (part : Nat) (va : Word) : State :=
  match s.leafOf part va with
  | none => s
  | some (c, l) =>
    if pteBit l.pte 7 && (s.pageOf l.addr).isSome then s.post (.pageRetire part va) 0 64
    else
      let op := s.nextOp
      let s := { s with nextOp := op + 1 }.drainPort l.addr (l.addr + 8)
      let s := ((s.noteRetired l.addr).dmWrite (l.addr + 7) [s.mem.lookD (l.addr + 7) 0#8 ||| 128#8]).activate l.addr
      let (cs, s) := s.shoot part c (some va) op
      { s with invals := s.invals.ins op ⟨part, cs, 0#32, ⟨0x80#8, false⟩⟩ }

def execPageRetire (part : Nat) (va : Word) (s : State) := event (fun s => s.retirePage part va) s

end Sys2Proof.Machine
end

