-- ==== Sys2Proof/Machine/QueueEv.lean ====
section
/-!
DEFINITION. The queue controller: capabilities, wake writes, status words, slots and the device enqueue (R168 to
R177).
-/
namespace Sys2Proof.Machine

/-! ### Slots of each class (R172) -/

def queueSlots : Nat := 128
def classMin (c : BitVec 2) : Nat := match c.toNat with | 0 => 32 | 1 => 16 | _ => 8
def grantCycles : Nat := 16
def idleTicks : Nat := 1024

def State.queue? (s : State) (qid : Nat) : Option Queue := s.queues.look qid
def State.setQueue (s : State) (qid : Nat) (q : Queue) : State := { s with queues := s.queues.ins qid q }
def State.slotOfQueue (s : State) (qid : Nat) : Option (Nat × Slot) := s.slots.find? fun e => e.2.qid == qid
def Queue.empty (q : Queue) : Bool := q.head == q.tail

/-! ### Memory as the controller reaches it (R150, R170, R194) -/

/-- A device address of a partition as the controllers reach it: kernel permissions, a far page in place. -/
def State.ctlPage (s : State) (part : Nat) (va : Word) (a : Acc) : Option Nat :=
  match s.partCores part with
  | [] => none
  | c :: _ => match s.translate c part false va a with
    | (.ok pa, _) => some pa
    | (.touch _ pte, _) =>
      let pa := pteAddr pte + va.toNat % pageBytes
      if pteBit pte 8 || s.absent pa then none else some pa
    | (.fault _, _) => none

/-- What an access of a controller to a page it reaches leaves: the accessed and dirty bits of the leaf (R69), and the
activation of the row (R81); the line is read, also for a part of it that is written, and an error in it met (R78, R79). -/
def State.ctlMark (s : State) (part : Nat) (va : Word) (a : Acc) : State :=
  match s.partCores part, s.ctlPage part va a with
  | c :: _, some pa =>
    let s := match s.translate c part false va a with
      | (.ok _, s') => s'
      | (.touch leaf pte, s') =>
        let pte' := pte ||| 1024 ||| (if a.writes then 2048 else 0)
        if pte' = pte then s' else s'.pteOr c (leaf + 1) (if a.writes then 12#8 else 4#8)
      | (.fault _, s') => s'
    s.lineRead pa
  | _, _ => s

/-- The same, in a line that is not poisoned. -/
def State.ctlAddr (s : State) (part : Nat) (va : Word) (a : Acc) : Option Nat :=
  (s.ctlPage part va a).filter fun pa => !sbPoison ((s.eccRead pa).sbWord pa)

/-- The place of n bytes of a host window in host memory. -/
def State.hostPlace (s : State) (part off n : Nat) : Option Nat :=
  match s.part part with
  | some p => if off < 0x1040 ∨ p.desc.hostLen.toNat < off + n then none else some (p.desc.hostBase.toNat + off)
  | none => none

/-- One line, or none when it cannot be read. -/
def State.ctlLine (s : State) (part : Nat) (hw : Bool) (addr : Nat) : Option Vec :=
  if hw then (s.hostPlace part addr 64).map fun a => BitVec.ofNat 512 (leNat (s.hostMem.run 0#8 a 64))
  else (s.ctlAddr part (wordNat addr) .read).map fun pa => BitVec.ofNat 512 (leNat ((s.eccRead pa).mem.run 0#8 pa 64))

/-- Where the line that the controller reads at an address lies. -/
def State.ctlPlace (s : State) (part : Nat) (hw : Bool) (addr : Nat) : Option Nat :=
  if hw then s.hostPlace part addr 64 else s.ctlAddr part (wordNat addr) .read

/-- The bytes of a run of lines in device memory. -/
def State.ctlRun (s : State) (part : Nat) : Nat → Nat → Option (List Byte)
  | 0, _ => some []
  | n + 1, va => match s.ctlAddr part (wordNat va) .read, s.ctlRun part n (va + 64) with
    | some pa, some r => some ((s.eccRead pa).mem.run 0#8 pa 64 ++ r)
    | _, _ => none

/-- The publication that follows a controller's write to a host window (R153, R170). -/
def State.ctlPublish (s : State) (part : Nat) : State :=
  match s.part part with
  | none => s
  | some q =>
    let v := q.pubCount + 1#64
    State.hostAccept { s with parts := s.parts.ins part { q with pubCount := v } } 0#32 part
      (cellsOf (q.desc.hostBase.toNat + 0x1000) (leBytes 8 v.toNat)) (some v)

/-- An aligned dword the controller writes; one that cannot be written is discarded. -/
def State.ctlWrite (s : State) (part : Nat) (hw : Bool) (addr : Nat) (x : Word) (pub : Bool) : State :=
  if hw then
    match s.hostPlace part addr 8 with
    | some a =>
      let s := s.hostAccept 0#32 part (cellsOf a (leBytes 8 x.toNat)) none
      if pub then s.ctlPublish part else s
    | none => s
  else match s.ctlAddr part (wordNat addr) .write with
    | some pa => (s.ctlMark part (wordNat addr) .write).perform ⟨0, 0#32, pa, cellsOf pa (leBytes 8 x.toNat), 0#32, false, none⟩
    | none => s

/-- A completion address (R146, R150): bit 0 the space, 0 none, a malformed one discards. -/
def State.complete (s : State) (part : Nat) (d7 : Word) (x : Word) (pub : Bool) : State :=
  let hw := d7.getLsbD 0
  let a := d7.toNat - (if hw then 1 else 0)
  if d7 = 0#64 ∨ a % 8 ≠ 0 then s else s.ctlWrite part hw a x pub

/-! ### The status word (R170) -/

def QueueState.code : QueueState → Nat
  | .unmapped => 0 | .mapped => 1 | .unmapping => 2 | .destroying => 3 | .destroyed => 4

def Queue.statusWord (q : Queue) : Word :=
  wordNat (q.head.toNat * 2 ^ 32 + q.state.code * 2 ^ 24 + q.wfail.toNat)

/-- A queue takes new fields, and its status word is written when head, state or wfail has changed (R170). -/
def State.putStatus (s : State) (qid : Nat) (q : Queue) : State :=
  let same := (s.queues.look qid).any fun x => x.statusWord == q.statusWord && x.live && q.live
  if same then s.setQueue qid q else (s.setQueue qid q).ctlWrite q.part q.hw q.stat q.statusWord true

/-! ### Capabilities (R168, R169) -/

def capBits (cap : BitVec 256) (lo n : Nat) : Nat := cap.toNat / 2 ^ lo % 2 ^ n

/-- Seal(key, cap[191:0]) under the key of the current reset. -/
def State.seal (s : State) (cap : BitVec 256) : Nat :=
  leNat ((digestBytes (sm3 (leBytes 32 (Config.queueKey s.resets).toNat ++ leBytes 24 (cap.toNat % 2 ^ 192)))).take 8)

/-- The capability of a live queue with the rights it was created with. -/
def State.capability (s : State) (qid : Nat) (q : Queue) : BitVec 256 :=
  let b (x : Bool) : Nat := if x then 1 else 0
  let low : Nat := q.gen.toNat * 2 ^ 176 + q.part * 2 ^ 171 + b q.rdes * 2 ^ 170 + b q.rput * 2 ^ 169 + b q.rwake * 2 ^ 168 +
    q.cls.toNat * 2 ^ 166 + q.lgn * 2 ^ 160 + qid * 2 ^ 128 + (q.stat + b q.hw) * 2 ^ 64 + q.base + b q.hw
  BitVec.ofNat 256 (s.seal (BitVec.ofNat 256 low) * 2 ^ 192 + low)

/-- The tests of Unseal on a capability but for the tail: the queue it names. right: the bit that must be 1. -/
def State.unseal (s : State) (cap : BitVec 256) (part right : Nat) : Option (Nat × Queue) :=
  let qid := capBits cap 128 12
  match s.queues.look qid with
  | none => none
  | some q =>
    if capBits cap 164 2 ≠ 0 ∨ capBits cap 140 20 ≠ 0 ∨ capBits cap 1 5 ≠ 0 ∨ capBits cap 192 64 ≠ s.seal cap ∨
      capBits cap 176 16 ≠ q.gen.toNat ∨ capBits cap 171 5 ≠ part ∨ !cap.getLsbD right || !q.live
    then none else some (qid, q)

/-! ### Waking and slots (R171, R173) -/

/-- A queue joins the tail of its class's wait list. -/
def State.joinSlots (s : State) (qid : Nat) (q : Queue) : State :=
  if q.waiting then s
  else State.postOnce { (s.setQueue qid { q with waiting := true }) with slotWait := s.slotWait ++ [qid] } .slotGrant

/-- A queue that may have a packet to read goes on. -/
def State.wakeQueue (s : State) (qid : Nat) : State :=
  match s.queues.look qid with
  | none => s
  | some q =>
    match q.state with
    | .unmapped => if q.empty then s else s.joinSlots qid q
    | .mapped => match s.slotOfQueue qid with
      | some (n, _) =>
        if q.busy.isSome then s
        else if q.empty then s.postOnce (.idleUnmap n) (Config.tickCycles * (q.idleSince + idleTicks - s.tick.toNat))
        else s.postOnce (.launchPacket n) 16
      | none => s
    | .unmapping | .destroying | .destroyed => s

/-- A slot starts to serve a queue. -/
def State.mapSlot (s : State) (n qid : Nat) (q : Queue) : State :=
  let s := { s with slots := s.slots.ins n ⟨qid, q.cls, s.slotSeq, none⟩, slotSeq := s.slotSeq + 1,
                    slotWait := s.slotWait.filter (· != qid) }
  (s.putStatus qid { q with state := .mapped, waiting := false, idleSince := s.tick.toNat }).wakeQueue qid

/-- Slots a class holds: those it serves and those kept for it. -/
def State.slotsHeld (s : State) (c : BitVec 2) : Nat :=
  (s.slots.filter fun e => match e.2.next with
    | some q => (s.queues.look q).any fun x => x.cls == c
    | none => e.2.cls == c).length

/-- The slot a class below its minimum takes back: of the highest-numbered class above its minimum, the one mapped
most recently. -/
def State.victim (s : State) : Option (Nat × Slot) :=
  [3#2, 2#2, 1#2, 0#2].findSome? fun c =>
    if s.slotsHeld c ≤ classMin c then none
    else (s.slots.filter fun e => e.2.cls == c && e.2.next.isNone).foldl (fun (m : Option (Nat × Slot)) e => match m with
      | some x => if x.2.seq < e.2.seq then some e else m
      | none => some e) none

/-- The waiting queues in the order in which they are taken; those with a slot kept for them wait for it. -/
def State.slotQueue (s : State) : List (Nat × Queue) :=
  let all := s.slotWait.filterMap fun qid => match s.queues.look qid with
    | some q => if s.slots.any (fun e => e.2.next == some qid) then none else some (qid, q)
    | none => none
  [0#2, 1#2, 2#2, 3#2].flatMap fun c => all.filter fun e => e.2.cls == c

/-- One grant, or one forced unmapping. -/
def State.grantTo (s : State) (qid : Nat) (q : Queue) : Option State :=
  match (List.range queueSlots).find? fun n => (s.slots.look n).isNone with
  | some n => some (s.mapSlot n qid q)
  | none =>
    if classMin q.cls ≤ s.slotsHeld q.cls then none
    else match s.victim with
      | none => none
      | some (n, x) =>
        match s.queues.look x.qid with
        | none => none
        | some p =>
          let s := { s with slots := s.slots.ins n { x with next := some qid } }
          if p.state ≠ .mapped then some s
          else
            let s := s.putStatus x.qid { p with state := .unmapping }
            some (if p.busy.isSome then s else s.post (.unmappingEnd n))

def State.grantSlot (s : State) : State :=
  match s.lastGrant with
  | some c => if s.now < c + grantCycles then s.postOnce .slotGrant (c + grantCycles - s.now) else go s
  | none => go s
where
  go (s : State) : State :=
    match s.slotQueue.findSome? fun e => s.grantTo e.1 e.2 with
    | none => s
    | some s' =>
      let s' := { s' with lastGrant := some s.now }
      if s'.slotQueue.isEmpty then s' else s'.postOnce .slotGrant grantCycles

def execSlotGrant (s : State) := event State.grantSlot s

/-- A slot leaves its queue: to the queue it is kept for, or free. -/
def State.freeSlotOf (s : State) (n : Nat) (x : Slot) : State :=
  let s := { s with slots := s.slots.del n }
  match x.next with
  | some qid => match s.queues.look qid with
    | some q => if q.waiting then s.mapSlot n qid q else s.postOnce .slotGrant
    | none => s.postOnce .slotGrant
  | none => if s.slotWait.isEmpty then s else s.postOnce .slotGrant

/-- The unmapping ends: the slot is handed over, and a queue with packets left rejoins its list. -/
def State.unmapped (s : State) (n : Nat) : State :=
  match s.slots.look n with
  | none => s
  | some x =>
    match s.queues.look x.qid with
    | none => s
    | some q =>
      if q.state ≠ .unmapping ∨ q.busy.isSome then s
      else
        let s := (s.putStatus x.qid { q with state := .unmapped }).freeSlotOf n x
        s.wakeQueue x.qid

def execUnmappingEnd (slot : Nat) (s : State) := event (fun s => s.unmapped slot) s

/-- A mapped queue that has been empty for 1,024 ticks gives its slot up. -/
def State.unmapIdle (s : State) (n : Nat) : State :=
  match s.slots.look n with
  | none => s
  | some x =>
    match s.queues.look x.qid with
    | none => s
    | some q =>
      if q.state ≠ .mapped ∨ q.busy.isSome ∨ !q.empty then s
      else if s.tick.toNat < q.idleSince + idleTicks then
        s.postOnce (.idleUnmap n) (Config.tickCycles * (q.idleSince + idleTicks - s.tick.toNat))
      else (s.putStatus x.qid { q with state := .unmapped }).freeSlotOf n x

def execIdleUnmap (slot : Nat) (s : State) := event (fun s => s.unmapIdle slot) s

/-! ### Creation and destruction (R171) -/

/-- A request is well formed: what firmware seals into a capability (R168). -/
def queueReqOk (s : State) (r : QueueReq) : Bool :=
  (s.part r.part.toNat).isSome && decide (1 ≤ r.lgn.toNat) && r.base.toNat % 64 == 0 && r.stat.toNat % 8 == 0

/-- Firmware creates a queue: the lowest number with no live queue, its generation advanced. -/
def State.createQueue (s : State) (r : QueueReq) : State :=
  if !queueReqOk s r || s.pstate != .running then s
  else match (List.range 4096).find? fun i => !(s.queues.look i).any (·.live) with
  | none => s
  | some qid =>
    let gen := match s.queues.look qid with | some q => nextGen q.gen | none => 1#16
    s.putStatus qid ⟨true, gen, r.part.toNat, r.cls, r.lgn.toNat, r.hw, r.base.toNat, r.stat.toNat, r.rdes, r.rput, r.rwake,
      0#32, 0#32, .unmapped, 0#16, false, s.tick.toNat, none, none, []⟩

def execQueueCreate (req : QueueReq) (s : State) := event (fun s => s.createQueue req) s

/-- A destroy request. -/
def State.destroyQueue (s : State) (qid : Nat) : State :=
  match s.queues.look qid with
  | none => s
  | some q =>
    if !q.live || q.state == .destroying || q.state == .destroyed then s
    else
      let s := { s with slotWait := s.slotWait.filter (· != qid)
                        slots := s.slots.map fun (e : Nat × Slot) => (e.1, if e.2.next == some qid then { e.2 with next := none } else e.2) }
      let s := s.putStatus qid { q with state := .destroying, waiting := false }
      if q.busy.isSome then s else s.post (.queueDestroyed qid)

def execQueueDestroy (qid : Nat) (s : State) := event (fun s => s.destroyQueue qid) s

/-- Every dispatch begun has ended: the packets left are discarded and the number is free. -/
def State.queueGone (s : State) (qid : Nat) : State :=
  match s.queues.look qid with
  | none => s
  | some q =>
    if q.state ≠ .destroying ∨ q.busy.isSome then s
    else
      let s := s.putStatus qid { q with state := .destroyed, head := q.tail, gen := nextGen q.gen, live := false, indirect := none,
                                        covered := [] }
      match s.slotOfQueue qid with
      | some (n, x) => s.freeSlotOf n x
      | none => s

def execQueueDestroyed (qid : Nat) (s : State) := event (fun s => s.queueGone qid) s

/-! ### Wake writes (R169, R174, R176) -/

def Queue.entryAddr (q : Queue) (n : Word32) : Nat := q.base + 64 * (n.toNat % 2 ^ q.lgn)

/-- The lines an indirect reference names, if the packet is a well-formed one (R175): address and count. -/
def indirectOf (pk : Vec) : Option (Nat × Nat) :=
  let d (i : Nat) : Nat := pk.toNat >>> (64 * i) % 2 ^ 64
  if d 0 ≠ 2 ∨ d 1 % 64 ≠ 0 ∨ d 2 = 0 ∨ 256 < d 2 ∨ d 3 ≠ 0 ∨ d 4 ≠ 0 ∨ d 5 ≠ 0 ∨ d 6 ≠ 0 then none else some (d 1, d 2)

/-- The ring entries a wake newly covers: what is overwritten from here on comes after it (R176). -/
def Queue.cover (q : Queue) (at' : Nat) : Nat → Word32 → Queue
  | 0, _ => q
  | n + 1, i => Queue.cover { q with covered := q.covered.ins i.toNat at' } at' n (i + 1#32)

/-- The tail moves and the queue wakes: the entries it newly covers are noted, and one that comes back to the head begins the
time of head = tail (R171). -/
def State.setTail (s : State) (qid : Nat) (q : Queue) (tail : Word32) : State :=
  if tail = q.tail then s
  else
    let q' := q.cover s.overs.length ((tail - q.head).toNat - (q.tail - q.head).toNat) q.tail
    (s.setQueue qid { q' with tail := tail, idleSince := if tail = q.head then s.tick.toNat else q.idleSince }).wakeQueue qid

/-- A wake write that fails is counted. -/
def State.wakeFailed (s : State) (part : Nat) (cap : BitVec 256) : State :=
  let qid := capBits cap 128 12
  match s.queues.look qid with
  | some q => if q.live then s.putStatus qid { q with wfail := if q.wfail = 0xFFFF#16 then q.wfail else q.wfail + 1#16 } else count s
  | none => count s
where
  count (s : State) : State := match s.part part with
    | some p => { s with parts := s.parts.ins part { p with wakeFail := if p.wakeFail = allOnes then allOnes else p.wakeFail + 1#64 } }
    | none => s

/-- A 64-byte write to the wake line of a partition. -/
def State.wakeLine (s : State) (part : Nat) (data : BitVec 512) : State :=
  let cap : BitVec 256 := data.setWidth 256
  let tail : Nat := data.toNat / 2 ^ 256 % 2 ^ 64
  let rest : Nat := data.toNat / 2 ^ 320
  if tail = 2 ^ 64 - 1 then
    match s.unseal cap part 170 with
    | some (qid, q) => if rest ≠ 0 ∨ q.state = .destroying then s.wakeFailed part cap else s.destroyQueue qid
    | none => s.wakeFailed part cap
  else match s.unseal cap part 168 with
    | some (qid, q) =>
      let t := BitVec.ofNat 32 tail
      if rest ≠ 0 ∨ 2 ^ 32 ≤ tail ∨ q.state = .destroying ∨ 2 ^ q.lgn < (t - q.head).toNat then s.wakeFailed part cap
      else s.setTail qid q t
    | none => s.wakeFailed part cap

/-- The link delivers a host's write while it is up and the module runs; in hold it refuses it, and the host sees a link-level
rejection (R174, R357). -/
def execWakeWrite (part : Nat) (data : BitVec 512) (s : State) := event (fun s =>
  if s.pstate == .hold then { s with refusedWrites := s.refusedWrites + 1 }
  else if s.pstate == .off || s.pstate == .failed then s
  else if !s.linkUp then s.post (.wakeWrite part data) chanHost 64
  else s.wakeLine part data) s

/-! ### Enqueue from a device thread (R177, R314) -/

/-- A whole line written at a ring entry; one that cannot be written is discarded. -/
def State.putEntry (s : State) (q : Queue) (a : Nat) (pk : Vec) : State :=
  let bs := leBytes 64 pk.toNat
  if q.hw then match s.hostPlace q.part a 64 with
    | some x => { s with hostMem := s.hostMem.putRun 0#8 x bs }
    | none => s
  else match s.ctlPage q.part (wordNat a) .write with
    | some pa => (s.ctlMark q.part (wordNat a) .write).perform ⟨0, 0#32, pa, cellsOf pa bs, 0#32, true, none⟩
    | none => s

/-- The controller's answer reaches the thread that waits for it. -/
def State.qputAnswer (s : State) (src : Word32) (dst : Fld) (x : Word) : State :=
  match (s.thr src).wait with
  | .qput _ => (s.applied src).endWait src dst x
  -- the thread has been killed meanwhile: the request no longer counts (R177)
  | _ => s.applied src

/-- A capability that fails traps its thread, precisely. -/
def State.qputFail (s : State) (src : Word32) (capAddr : Word) : State :=
  match (s.thr src).wait with
  | .qput _ =>
    let s := (((s.applied src).untake src).modThr src fun t => { t with wait := .none }).takeTrap src 0xA4#8 capAddr 0#5
    if !s.live src then s else if (s.thr src).wait == .none then (s.joinRun src).traffic src else s.traffic src
  | _ => s.applied src

def State.enqueue (s : State) (src : Word32) (dst : Fld) (capAddr : Word) (cap : BitVec 256) (pk : Vec) : State :=
  match s.unseal cap (s.thr src).part 169 with
  | none => s.qputFail src capAddr
  | some (qid, q) =>
    if q.hw && !s.linkUp then s.post (.qputRequest src dst capAddr cap pk) 0 64
    else if (q.tail - q.head).toNat = 2 ^ q.lgn then s.qputAnswer src dst allOnes
    else
      let s := s.putEntry q (q.entryAddr q.tail) pk
      let t := q.tail + 1#32
      (s.setTail qid q t).qputAnswer src dst (t.zeroExtend 64)

def execQputRequest (src : Word32) (dst : Fld) (capAddr : Word) (cap : BitVec 256) (packet : BitVec 512) (s : State) :=
  event (fun s => s.enqueue src dst capAddr cap packet) s

end Sys2Proof.Machine
end

