-- ==== Sys2Proof/Machine/KernelEv.lean ====
section
/-!
DEFINITION. Kernels: launch packets, dispatch down the fan tree, release, retirement and hang detection (R145 to
R156, R161 to R163, R171, R175).
-/
namespace Sys2Proof.Machine

/-! ### Fan trees (R162) -/

/-- The edges of the fan tree of n nodes from lo: parent and child, each node's children in order. -/
def fanEdges : Nat → Nat → Nat → List (Nat × Nat)
  | 0, _, _ => []
  | f + 1, lo, n =>
    if n ≤ 1 then []
    else
      let q := (n + 3) / 4
      let cut (i : Nat) : Nat × Nat := (lo + min n (i * q), min n ((i + 1) * q) - min n (i * q))
      let parts := [cut 1, cut 2, cut 3].filter fun p => p.2 != 0
      parts.map (fun p => (lo, p.1)) ++ fanEdges f lo (min n q) ++ parts.flatMap fun p => fanEdges f p.1 p.2

/-- Depth enough for 1,024 nodes. -/
def fanTree (n : Nat) : List (Nat × Nat) := fanEdges 6 0 n
def fanKids (n r : Nat) : List Nat := ((fanTree n).filter fun e => e.1 == r).map (·.2)
def fanParent (n r : Nat) : Option Nat := ((fanTree n).find? fun e => e.2 == r).map (·.1)

/-! ### The packet (R145, R146, R150) -/

def pkDw (pk : List Word) (i : Nat) : Nat := (pk.getD i 0#64).toNat
def pkBits (x lo n : Nat) : Nat := x / 2 ^ lo % 2 ^ n
def packetOf (x : Vec) : List Word := (List.range 8).map fun i => BitVec.ofNat 64 (x.toNat >>> (64 * i))

def pkW (pk : List Word) : Nat := pkBits (pkDw pk 0) 40 8
def pkLen (pk : List Word) : Nat := pkBits (pkDw pk 1) 16 11
def pkBase (pk : List Word) : Nat := pkBits (pkDw pk 1) 0 11
def pkImage (pk : List Word) : Nat := pkBits (pkDw pk 3) 0 32
def pkEntry (pk : List Word) : Nat := pkBits (pkDw pk 3) 32 16
/-- Dwords of the register image (R149). -/
def pkRegs (pk : List Word) : Nat := if (pkDw pk 0).testBit 16 then pkW pk * pkLen pk else pkW pk
def pkPre (pk : List Word) : Bool := (pkDw pk 0).testBit 48
/-- The barrier a packet asks for. -/
def pkBar (pk : List Word) : Option (BitVec 4) :=
  if (pkDw pk 0).testBit 11 then some (BitVec.ofNat 4 (pkBits (pkDw pk 0) 12 4)) else none

/-- Code 0x01: a malformed type, field or reserved bit. -/
def pkBad (pk : List Word) : Bool :=
  let c := pkDw pk 0
  let d := pkDw pk 1
  c % 256 != 1 || pkBits c 56 8 != 0 || pkBits c 17 15 != 0 || pkBits c 8 3 != 0 || decide (4 < pkBits c 49 3) ||
    pkBits d 42 6 != 0 || pkBits d 27 5 != 0 || pkBits d 11 5 != 0 || decide (pkLen pk < 1) || decide (1024 < pkLen pk) ||
    pkDw pk 2 % 128 != 0 || pkBits (pkDw pk 3) 48 16 != 0 || decide (511 < pkEntry pk) ||
    pkImage pk % 128 != 0 || decide (pkImage pk < 128) || decide (Config.codeBytes < pkImage pk) || pkDw pk 4 % 64 != 0

/-- Code 0x02. -/
def pkShapeBad (pk : List Word) : Bool :=
  let c := pkDw pk 0
  !shapeOk (c.testBit 53) (pkW pk) (pkBits c 32 8) (pkBits c 49 3) (c.testBit 52)

/-- The root's checks in code order, and what it has read: the program image and the register image. -/
def State.checkPacket (s : State) (part : Nat) (pk : List Word) : Except Byte (Tbl Byte × List Word) :=
  match s.part part with
  | none => .error 3#8
  | some p =>
    let at' := p.desc.base + pkBase pk
    if pkBad pk then .error 1#8
    else if pkShapeBad pk then .error 2#8
    else if p.desc.len < pkBase pk + pkLen pk ∨ (List.range (pkLen pk)).any (fun r => (s.inPart part (at' + r)).isNone) then
      .error 3#8
    else match s.ctlRun part (pkImage pk / 64) (pkDw pk 2), s.ctlRun part ((8 * pkRegs pk + 63) / 64) (pkDw pk 4) with
      | some img, some regs =>
        if pkImage pk < 128 * (pkEntry pk + 1) then .error 4#8
        else if (pkBar pk).any fun k => !(s.barrier part k.toNat).members.isEmpty then .error 5#8
        else .ok ((List.range img.length).zip img,
          (List.range (pkRegs pk)).map fun i => BitVec.ofNat 64 (leNat ((regs.drop (8 * i)).take 8)))
      | _, _ => .error 4#8

/-- The root has read the program image and the register image: their pages are accessed (R69). -/
def State.markImage (s : State) (part : Nat) (pk : List Word) : State :=
  let run (s : State) (va n : Nat) : State := (List.range n).foldl (fun s i => s.ctlMark part (wordNat (va + 64 * i)) .read) s
  run (run s (pkDw pk 2) (pkImage pk / 64)) (pkDw pk 4) ((8 * pkRegs pk + 63) / 64)

/-! ### Reading packets (R171, R175, R176) -/

/-- A line of which each aligned dword is as one of some versions of the line has it, by a free choice for each (R176). -/
def mixLine (xs : List Vec) (free : Nat) : Vec :=
  BitVec.ofNat 512 (packBits ((List.range 8).map fun i =>
    ((xs.getD ((Config.freeWord (free + i)).toNat % xs.length) 0#512).toNat / 2 ^ (64 * i), 64)))

/-- A line the controller reaches: each change that the host has made to it since the wake that covers the packet is seen or
not (R176, log 81). -/
def State.readLine (s : State) (q : Queue) (a : Nat) : Option Vec × State :=
  match s.ctlLine q.part q.hw a with
  | none => (none, s)
  | some x =>
    let old := ((s.overs.drop (q.covered.lookD q.head.toNat s.overs.length)).filter fun e =>
      e.1 == q.hw && some e.2.1 == s.ctlPlace q.part q.hw a).map (·.2.2)
    let s := if q.hw then s else s.ctlMark q.part (wordNat a) .read
    if old.isEmpty then (some x, s) else (some (mixLine (x :: old) s.free), { s with free := s.free + 8 })

/-- The packet at the head of a queue has been read: the queue after it, whether head advances or the buffer goes on. -/
def Queue.advance (q : Queue) (tick : Nat) : Queue :=
  let next : Queue := { q with indirect := none, head := q.head + 1#32, covered := q.covered.del q.head.toNat, idleSince := tick }
  match q.indirect with
  | some (b, n) => if 1 < n then { q with indirect := some (b + 64, n - 1) } else next
  | none => next

/-- A packet is rejected: its error is written, and the queue goes on. -/
def State.reject (s : State) (qid : Nat) (q : Queue) (code : Option (Byte × Word)) : State :=
  let s := match code with
    | some (c, d7) => s.complete q.part d7 (wordNat (2 ^ 63 + c.toNat)) false
    | none => s
  (s.putStatus qid (q.advance s.tick.toNat)).wakeQueue qid

/-- Dispatch begins: the kernel exists, and the first flit leaves the root. -/
def State.beginDispatch (s : State) (qid : Nat) (q : Queue) (pk : List Word) (img : Tbl Byte) (regs : List Word) : State :=
  let k := s.nextOp
  let base := match s.part q.part with | some p => p.desc.base + pkBase pk | none => 0
  let x : Kernel := ⟨q.part, qid, q.cls, pk, .dispatching, base, pkLen pk, img, regs, [], [], [], [], 0, s.now, s.tick.toNat, 0, false⟩
  let s := { s with nextOp := k + 1, kernels := s.kernels.ins k x }
  (s.putStatus qid { q.advance s.tick.toNat with busy := some k }).post (.dispatchMulticast k 0) 0 32

/-- A slot reads the packet at its queue's head. -/
def State.readPacket (s : State) (n : Nat) : State :=
  match s.slots.look n with
  | none => s
  | some sl =>
    match s.queues.look sl.qid with
    | none => s
    | some q =>
      let qid := sl.qid
      if q.state ≠ .mapped ∨ q.busy.isSome ∨ q.empty then s
      else if q.hw && !s.linkUp then s.postOnce (.launchPacket n) 64
      else
        let a := match q.indirect with | some (b, _) => b | none => q.entryAddr q.head
        match s.readLine q a with
        | (none, s) => s.reject qid q none
        | (some x, s) =>
          let pk := packetOf x
          if pkDw pk 0 % 256 = 2 then
            match q.indirect, indirectOf x with
            | none, some (b, m) =>
              (s.setQueue qid { q with indirect := some (b, m) }).wakeQueue qid
            | _, _ => s.reject qid q (some (1#8, pk.getD 7 0#64))
          else match s.checkPacket q.part pk with
            | .error c => s.reject qid q (some (c, pk.getD 7 0#64))
            | .ok (img, regs) => (s.markImage q.part pk).beginDispatch qid q pk img regs

def execLaunchPacket (slot : Nat) (s : State) := event (fun s => s.readPacket slot) s

/-! ### Dispatch (R147 to R149, R152, R163) -/

/-- The lowest-addressed run of a code store that fits (R148). -/
def Core.freeRun (c : Core) (len : Nat) : Option Nat :=
  (0 :: c.codeRuns.map fun r => r.at' + r.len).foldl (fun (m : Option Nat) a =>
    if decide (a + len ≤ Config.codeBytes) && !c.codeRuns.any (fun r => decide (r.at' < a + len) && decide (a < r.at' + r.len)) &&
      (match m with | some b => decide (a < b) | none => true)
    then some a else m) none

/-- The shape and values a packet gives rank r (R46, R149). -/
def rankBirth (pk : List Word) (regs : List Word) (r : Nat) : Birth :=
  let c := pkDw pk 0
  let d := pkDw pk 1
  { roaming := c.testBit 53, W := pkW pk, V := pkBits c 32 8, k := pkBits c 49 3, dual := c.testBit 52,
    prio := BitVec.ofNat 2 (pkBits c 54 2), tstride := pk.getD 5 0#64, bthr := wordNat (pkBits d 32 10), slice := pkBits d 48 16,
    qlink := pk.getD 6 0#64, rank := r, gsize := pkLen pk, entry := wordNat (pkDw pk 2 + 128 * pkEntry pk),
    img := (regs.drop (if c.testBit 16 then pkW pk * r else 0)).take (pkW pk) }

/-- The image is put into a run of the code store, unless the core has no room for it yet. -/
def State.storeImage (s : State) (k : Nat) (x : Kernel) (core : Nat) : Option State :=
  let c := s.core core
  if c.codeRuns.any (·.kernel == k) then some s
  else match c.freeRun (pkImage x.packet) with
    | none => none
    | some a => some (s.setCore core { c with
        codeRuns := c.codeRuns ++ [⟨k, a, pkImage x.packet, x.packet.getD 2 0#64⟩]
        code := c.code.putRun 0#8 a (x.image.run 0#8 0 (pkImage x.packet)) })

/-- A node acknowledges once its rank is filled and every child has acknowledged. -/
def State.ackNode (s : State) (k r : Nat) : State :=
  match s.kernels.look k with
  | none => s
  | some x =>
    if (x.ranks.look r).isSome && (fanKids x.len r).all x.acks.contains && !x.acks.contains r then
      s.postOnce (.dispatchAck k r) 23
    else s

/-- The flits of a dispatch reach rank r: they are forwarded, and the rank is filled as soon as the core has room. -/
def State.fillRank (s : State) (k r : Nat) : State :=
  match s.kernels.look k with
  | none => s
  | some x =>
    if x.state ≠ .dispatching ∨ x.len ≤ r ∨ (x.ranks.look r).isSome then s
    else
      let first := !x.heard.contains r
      let x := if first then { x with heard := x.heard ++ [r], lastTraffic := s.now, lastTick := s.tick.toNat, idle := 0 } else x
      let s := { s with kernels := s.kernels.ins k x }
      let s := if first then (fanKids x.len r).foldl (fun s c => s.postOnce (.dispatchMulticast k c) 23) s else s
      match s.physOf (x.base + r) with
      | none => s
      | some core =>
        match s.storeImage k x core with
        | none => s
        | some s =>
          match s.newThread core x.part (rankBirth x.packet x.regs r) with
          | none => s
          | some (id, s) =>
            let s := s.modThr id fun t => { t with kernel := some k, pre := pkPre x.packet }
            State.ackNode { s with kernels := s.kernels.ins k { x with ranks := x.ranks.ins r id } } k r

def execDispatchMulticast (kernel rank : Nat) (s : State) := event (fun s => s.fillRank kernel rank) s

/-- A dispatch has ended: the queue reads its next packet, or its slot or itself comes to its end (R171). -/
def State.dispatchEnded (s : State) (k qid : Nat) : State :=
  match s.queues.look qid with
  | none => s
  | some q =>
    if q.busy ≠ some k then s
    else
      let s := s.setQueue qid { q with busy := none }
      match q.state with
      | .mapped => s.wakeQueue qid
      | .unmapping => match s.slotOfQueue qid with
        | some (n, _) => s.post (.unmappingEnd n)
        | none => s
      | .destroying => s.post (.queueDestroyed qid)
      | .unmapped | .destroyed => s

/-- The last acknowledgement: the barrier takes its members and the release tick is fixed (R152, R178, R182). -/
def State.released (s : State) (k : Nat) (x : Kernel) : State :=
  let s := match pkBar x.packet with
    | some b =>
      let key := barrierKey x.part b
      let old := s.barrier x.part b.toNat
      { s with barriers := s.barriers.ins key { old with kernel := some k, members := x.ranks.filter fun e => s.live e.2, arrived := [] } }
    | none => s
  let s := State.dispatchEnded { s with kernels := s.kernels.ins k { x with state := .released, T := s.tick.toNat + 2 } } k x.qid
  if x.freed.length = x.len then s.post (.kernelRetirement k) else s

def State.ackArrives (s : State) (k r : Nat) : State :=
  match s.kernels.look k with
  | none => s
  | some x =>
    if x.state ≠ .dispatching ∨ x.acks.contains r then s
    else
      let x := { x with acks := x.acks ++ [r], lastTraffic := s.now, lastTick := s.tick.toNat, idle := 0 }
      let s := { s with kernels := s.kernels.ins k x }
      match fanParent x.len r with
      | some p => s.ackNode k p
      | none => s.released k x

def execDispatchAck (kernel rank : Nat) (s : State) := event (fun s => s.ackArrives kernel rank) s

/-! ### Release and retirement (R151, R153) -/

/-- At tick T every rank joins the tail of its priority; saved ones do so when they are restored. -/
def State.runKernel (s : State) (k : Nat) : State :=
  match s.kernels.look k with
  | none => s
  | some x =>
    if x.state ≠ .released ∨ s.tick.toNat < x.T then s
    else
      let s := { s with kernels := s.kernels.ins k { x with state := .running, lastTraffic := s.now, lastTick := s.tick.toNat, idle := 0 } }
      x.ranks.foldl (fun s e => if (s.thr e.2).life == .ready && s.live e.2 then s.joinRun e.2 else s) s

def execKernelRelease (kernel : Nat) (s : State) := event (fun s => s.runKernel kernel) s

/-- Firmware's switches of a partition that waited go on (R154, R167). -/
def State.nextSwitch (s : State) (p : Nat) : State :=
  match s.part p with
  | some q => match q.queued with
    | ts :: r => if q.stop.isSome then s
      else State.post { s with parts := s.parts.ins p { q with queued := r } } (.tenantSwitch p (wordNat ts))
    | [] => s
  | none => s

/-- Every rank is free: the completion is written, the code store and the barrier are freed. -/
def State.retire (s : State) (k : Nat) : State :=
  match s.kernels.look k with
  | none => s
  | some x =>
    if x.freed.length ≠ x.len ∨ x.state == .dispatching then s
    else
      let s := s.complete x.part (x.packet.getD 7 0#64) (wordNat (s.tick.toNat % 2 ^ 63)) true
      let s := { s with cores := s.cores.map fun (e : Nat × Core) => (e.1, { e.2 with codeRuns := e.2.codeRuns.filter (·.kernel != k) }) }
      let s := { s with barriers := s.barriers.map fun (e : Nat × Barrier) =>
        (e.1, if e.2.kernel == some k then { e.2 with kernel := none, members := [], arrived := [] } else e.2) }
      let s := { s with kernels := s.kernels.del k }
      let s := (s.kernels.filter fun e => e.2.state == .dispatching).foldl (fun s e =>
        (e.2.heard.filter fun r => (e.2.ranks.look r).isNone).foldl (fun s r => s.postOnce (.dispatchMulticast e.1 r)) s) s
      s.nextSwitch x.part

def execKernelRetirement (kernel : Nat) (s : State) := event (fun s => s.retire kernel) s

/-! ### Hang detection (R155, R156) -/

/-- The live ranks of a kernel. -/
def State.liveRanks (s : State) (x : Kernel) : List Word32 := (x.ranks.map (·.2)).filter s.live

/-- Every live rank waits, nothing of the group is pending, and no packet of it has moved for 65,536 cycles. -/
def State.hangs (s : State) (x : Kernel) : Bool :=
  let ids := s.liveRanks x
  let all := x.ranks.map (·.2)
  x.state == .running && !x.hung && !ids.isEmpty && decide (Config.hangCycles ≤ x.idle) &&
    ids.all (fun id => (s.thr id).waiting) && !s.hires.any (fun e => all.contains e.2.thid && e.2.open') &&
    !s.copies.any (fun e => all.contains e.2.thid && e.2.live) &&
    !(s.books0 ++ s.books1).any (fun e => all.contains e.2.thid && (e.2.state == .committed || e.2.state == .started))

/-- tval of cause 0xE1: the tick of the last traffic, and the rank whose wait began last. -/
def State.hangTval (s : State) (x : Kernel) : Word :=
  let last := (s.liveRanks x).foldl (fun (m : Option Thread) id =>
    let t := s.thr id
    match m with
    | none => some t
    | some u => if u.waitSince < t.waitSince then some t else m) none
  wordNat (x.lastTick % 2 ^ 32 * 2 ^ 32 + (match last with | some t => t.rank | none => 0))

/-- Cause 0xE1 is posted to the lowest live rank, which becomes ready. -/
def State.hangOne (s : State) (k : Nat) (x : Kernel) : State :=
  if !s.hangs x then s
  else match s.lowestRank k none with
    | none => s
    | some id =>
      let s := { s with kernels := s.kernels.ins k { x with hung := true } }
      let s := s.postCause id 0xE1#8 (s.hangTval x)
      match (s.thr id).wait with
      | .none | .withdrawal _ _ _ => s
      -- a bar.aw is withdrawn first (R313)
      | .barrier b g true d => (s.startWait id (.withdrawal b g d)).post (.barrierWithdrawal id b)
      -- an access on its way is given up, with what it took
      | _ => ((((s.untake id).modThr id fun t => { t with atPort := false, outLd := 0 }).modThr id Thread.abandon).wake id).modThr id
          fun t => { t with reissue := false, bound := false, woke := .none }

def execHang (s : State) := event (fun s => s.kernels.foldl (fun s e => s.hangOne e.1 e.2) s) s

end Sys2Proof.Machine
end

