-- ==== Sys2Proof/Machine/Boot.lean ====
section
/-!
DEFINITION. Reset and start-up: the boot ROM's steps, the discovery flood, the map, the image fan-out and the start of
firmware (R349 to R354, R369 to R373), and attestation.
-/
namespace Sys2Proof.Machine

/-! ### The logical map (R9, R10) -/

/-- HilbertXY of R9 from scale s on. -/
def hilbertFrom : Nat → Nat → Nat → Nat → Nat → Nat × Nat
  | 0, _, _, x, y => (x, y)
  | n + 1, t, s, x, y =>
    let rx := t / 2 % 2
    let ry := (t + rx) % 2
    let (x, y) := if ry = 0 then (let (x, y) := if rx = 1 then (s - 1 - x, s - 1 - y) else (x, y); (y, x)) else (x, y)
    hilbertFrom n (t / 4) (2 * s) (x + s * rx) (y + s * ry)
def hilbertXY (d : Nat) : Nat × Nat := hilbertFrom 5 d 1 0 0
/-- The physical core at a Hilbert index. -/
def hilbertCore (d : Nat) : Nat := let p := hilbertXY d; 32 * p.2 + p.1

/-- The enabled cores in ascending Hilbert index: the core at place l has logical number l. -/
def mapOf (fused : List Nat) : List Nat := ((List.range 1024).map hilbertCore).filter fun c => !fused.contains c

def cfgGx (t : CfgTable) : Nat := t.dw0.toNat % 32
def cfgGw (t : CfgTable) : Nat := t.dw0.toNat / 1024 % 8
/-- The gable list of R373: enabled cores of columns gx to gx + gw, by column and then y. -/
def gableOf (t : CfgTable) (fused : List Nat) : List Nat :=
  (List.range (cfgGw t + 1)).flatMap fun i => ((List.range 32).map fun y => 32 * y + (cfgGx t + i)).filter fun c => !fused.contains c

/-- R352: a table that boot refuses. -/
def cfgBad (t : CfgTable) : Bool :=
  let d := t.dw0.toNat
  decide (31 < cfgGx t + cfgGw t) || decide (3 < cfgGw t) || d / 2 ^ 18 % 2 ^ 30 != 0 || d / 2 ^ 13 % 8 != 0 ||
    d / 2 ^ 5 % 32 != 0 || (List.range 5).any fun i => decide (31 < t.dw1.toNat / 2 ^ (8 * i) % 256)
/-- The core of a firmware role: (gx, y) with the role's row y, or the next enabled core southward of it in column gx (R352). -/
def State.roleCore (s : State) (role : Nat) : Option Nat :=
  let y := s.flash.table.dw1.toNat / 2 ^ (8 * role) % 256
  ((List.range 32).map fun i => 32 * ((y + i) % 32) + cfgGx s.flash.table).find? fun c => !s.fused.contains c
/-- The roles of R352 that the model names. -/
def roleLife : Nat := 3
def cfgBytes (t : CfgTable) : List Byte := leBytes 8 t.dw0.toNat ++ leBytes 8 t.dw1.toNat
def digestNat (bs : List Byte) : BitVec 256 := BitVec.ofNat 256 (leNat (digestBytes (sm3 bs)))

/-! ### Reset and the boot ROM (R349, R350) -/

/-- Boot ends with a code; only a reset leaves this state. -/
def State.bootFail (s : State) (code : Byte) : State := { s with pstate := .failed, bcode := code, agenda := [] }

/-- The first step of 1 to 5 of R350 that fails. -/
def Flash.bootCause (f : Flash) : Option Byte :=
  if !f.present || f.image.isEmpty || decide (65536 < f.image.length) then some 6#8
  else if !Config.sm2Verify (digestNat f.image) f.sig then some 1#8
  else if f.version < f.minVersion then some 2#8
  else if !Config.sm2Verify (digestNat (cfgBytes f.table)) f.tableSig then some 3#8
  else if cfgBad f.table then some 4#8 else none

/-- Reset: every thread, booking, queue, capability and image is discarded, and the module is as at State.reset but
for what is outside it, in its flash, its fuses or its life log, and the count of resets. -/
def State.cleared (s : State) : State :=
  { State.reset with
    free := s.free, agenda := [], fused := s.fused, flash := s.flash, resets := s.resets + 1, hostMem := s.hostMem,
    refusedWrites := s.refusedWrites,
    peerMem := s.peerMem, lifelog := s.lifelog, reports := s.reports, holds := BitVec.ofNat 32 (s.lifelog.lookD lgHold 0) }

/-- The boot ROM runs on core (0, 0): steps 1 to 5, then the flood of step 6. -/
def State.resetNow (s : State) : State :=
  let s := s.cleared
  match s.flash.bootCause with
  | some c => s.bootFail c
  | none =>
    let s := s.modCore 0 fun c => { c with pcore := some 0, boot := { c.boot with coords := some (0, 0) } }
    let s := { s with boot := { s.boot with began := some s.now } }
    ((s.postAt (.discovery 0#5 0#5 true 0#32) 23).postAt (.discovery 0#5 0#5 false 0#32) 24).post .reportTimeout 0 65536

def execReset (s : State) := event State.resetNow s

/-! ### Discovery and reports (R351, R369 to R371) -/

/-- A boot packet a router does not expect is dropped and counted. -/
def State.bootDrop (s : State) (core : Nat) : State :=
  s.modCore core fun c => { c with boot := { c.boot with errors := c.boot.errors + 1 } }

/-- Cycles until the first flit of an uncontended packet over h hops arrives (R187). -/
def flitCycles (h : Nat) : Nat := 20 + 3 * h

/-- Hops of the shortest route along one axis of the torus (R185). -/
def axisHops (a b : Nat) : Nat := min ((a + 32 - b) % 32) ((b + 32 - a) % 32)
/-- Hops between two cores. -/
def hops (a b : Nat) : Nat := axisHops (a % 32) (b % 32) + axisHops (a / 32) (b / 32)

/-- A core injects a boot packet of n flits for another, at one flit per cycle (R184, R373). -/
def State.inject (s : State) (src dst n : Nat) (ev : Instr) : State :=
  let at' := max s.now (s.core src).boot.free
  (s.modCore src fun c => { c with boot := { c.boot with free := at' + n } }).post ev (chanPort src dst)
    (at' - s.now + flitCycles (hops src dst))

/-- A router takes its coordinates from the link and the sender, and forwards or reports. -/
def State.discover (s : State) (sx sy : Nat) (west : Bool) (fuse : BitVec 32) : State :=
  let x := if west then (sx + 1) % 32 else sx
  let y := if west then sy else (sy + 1) % 32
  let c := 32 * y + x
  if s.pstate ≠ .booting || (s.core c).boot.coords.isSome then s.bootDrop c
  else
    let off := s.fused.contains c
    let w0 : BitVec 32 := if west then 0#32 else fuse
    let w := if off then w0 ||| BitVec.ofNat 32 (2 ^ y) else w0
    let s := s.modCore c fun k => { k with pcore := if off then none else some c, boot := { k.boot with coords := some (x, y) } }
    let bx := BitVec.ofNat 5 x
    let bY := BitVec.ofNat 5 y
    let east := west && decide (x < 31)
    let s := if east then s.postAt (.discovery bx bY true 0#32) 23 else s
    if y < 31 then s.postAt (.discovery bx bY false w) (if east then 24 else 23)
    else s.postAt (.report bx bY w) (flitCycles (min x (32 - x) + 1))

def execDiscovery (sx sy : BitVec 5) (west : Bool) (fuse : BitVec 32) (s : State) :=
  event (fun s => s.discover sx.toNat sy.toNat west fuse) s

/-- The column word the fuse map gives. -/
def columnWord (fused : List Nat) (x : Nat) : Nat :=
  (List.range 32).foldl (fun a y => a + (if fused.contains (32 * y + x) then 2 ^ y else 0)) 0

/-- The map flit of R372. -/
def State.mapFlit (s : State) : MapFlit :=
  let list := ((List.range 1024).map hilbertCore).filter s.fused.contains
  ⟨BitVec.ofNat 5 list.length, BitVec.ofNat 5 (cfgGx s.flash.table), BitVec.ofNat 2 (cfgGw s.flash.table),
    BitVec.ofNat 240 ((List.range list.length).foldl (fun a i => a + list.getD i 0 * 2 ^ (10 * i)) 0)⟩

/-- The boot ROM accepts one report for each column; after the 32nd it checks them, builds the map and injects it. -/
def State.acceptReport (s : State) (sx sy : Nat) (fuse : Word32) : State :=
  if s.pstate ≠ .booting || s.boot.mapAt.isSome then s.bootDrop 0
  else if (s.boot.reports.look sx).isSome || sy ≠ 31 then s.bootFail 5#8
  else
    let rs := s.boot.reports.ins sx fuse
    let s := { s with boot := { s.boot with reports := rs } }
    if rs.length < 32 then s
    else if (List.range 32).any (fun x => (rs.lookD x 0#32).toNat != columnWord s.fused x) ||
      decide ((mapOf s.fused).length < 1000) || s.cores.any (fun e => e.2.boot.errors != 0) then s.bootFail 5#8
    else
      let s := { s with boot := { s.boot with mapAt := some (s.now + 48) }, enabled := mapOf s.fused,
                        gable := gableOf s.flash.table s.fused }
      (s.postAt (.map 0#5 0#5 s.mapFlit) 48).post .imageSend 0 (48 + 2048)

def execReport (sx sy : BitVec 5) (fuse : BitVec 32) (s : State) := event (fun s => s.acceptReport sx.toNat sy.toNat fuse) s

def execReportTimeout (s : State) := event (fun s =>
  if s.pstate == .booting && s.boot.mapAt.isNone then s.bootFail 5#8 else s) s

/-! ### The map (R372) -/

/-- The fused-off cores a map flit lists. -/
def flitCores (f : MapFlit) : List Nat := (List.range f.n.toNat).map fun i => f.list.toNat / 2 ^ (10 * i) % 1024

/-- A router keeps the first map flit, an enabled core sets lcore, and the flit goes on as the flood went. -/
def State.takeMap (s : State) (x y : Nat) (f : MapFlit) : State :=
  let c := 32 * y + x
  if s.boot.mapAt.isNone || (s.core c).boot.mapped.isSome then s.bootDrop c
  else
    let s := s.modCore c fun k => { k with lcore := if (flitCores f).contains c then none else (mapOf (flitCores f)).idxOf? c
                                           boot := { k.boot with mapped := some f } }
    let east := decide (y = 0) && decide (x < 31)
    let s := if east then s.postAt (.map (BitVec.ofNat 5 (x + 1)) (BitVec.ofNat 5 y) f) 23 else s
    if y < 31 then s.postAt (.map (BitVec.ofNat 5 x) (BitVec.ofNat 5 (y + 1)) f) (if east then 24 else 23) else s

def execMap (x y : BitVec 5) (flit : MapFlit) (s : State) := event (fun s => s.takeMap x.toNat y.toNat flit) s

/-! ### Image fan-out (R373) -/

/-- Children and parent of a gable core in the fan tree over the gable list. -/
def State.gableKids (s : State) (core : Nat) : List Nat :=
  match s.gable.idxOf? core with
  | some i => (fanKids s.gable.length i).filterMap fun j => s.gable[j]?
  | none => []
def State.gableParent (s : State) (core : Nat) : Option Nat :=
  match s.gable.idxOf? core with
  | some i => (fanParent s.gable.length i).bind fun j => s.gable[j]?
  | none => none

/-- Lines of the image body, the last one padded with zero bytes. -/
def imageLines (bs : List Byte) : Nat := (bs.length + 127) / 128

/-- The boot ROM sends the lines and the end flit to the root. -/
def State.sendImage (s : State) : State :=
  if s.pstate ≠ .booting || s.boot.sentImage then s
  else match s.gable with
  | [] => s
  | root :: _ =>
    let n := imageLines s.flash.image
    let s := { s with boot := { s.boot with sentImage := true } }
    let s := (List.range n).foldl (fun s i =>
      s.inject 0 root 4 (.linePacket root (BitVec.ofNat 1024 (leNat ((s.flash.image.drop (128 * i)).take 128))))) s
    s.inject 0 root 1 (.endFlit root n)

def execImageSend (s : State) := event State.sendImage s

/-- A core that holds the end flit, every line and each child's acknowledgement acknowledges. -/
def State.bootCheck (s : State) (core : Nat) : State :=
  let b := (s.core core).boot
  if b.endAt == some b.lines && b.acks == (s.gableKids core).length && !b.acked then
    (s.modCore core fun c => { c with boot := { c.boot with acked := true } }).inject core ((s.gableParent core).getD 0) 1
      (.bootAck (s.gableParent core))
  else s

/-- The packet belongs to the phase of a gable core that is still being filled. -/
def State.filling (s : State) (core : Nat) : Bool :=
  s.pstate == .booting && s.gable.contains core && s.boot.sentImage && !(s.core core).boot.acked

/-- A 4-flit packet is the next line of the image. -/
def State.takeLine (s : State) (core : Nat) (data : BitVec 1024) : State :=
  if !s.filling core then s.bootDrop core
  else
    let s := s.modCore core fun c => { c with code := c.code.putRun 0#8 (128 * c.boot.lines) (leBytes 128 data.toNat)
                                              boot := { c.boot with lines := c.boot.lines + 1 } }
    let s := (s.gableKids core).foldl (fun s k => s.inject core k 4 (.linePacket k data)) s
    s.bootCheck core

def execLinePacket (core : Nat) (data : BitVec 1024) (s : State) := event (fun s => s.takeLine core data) s

def State.takeEnd (s : State) (core lines : Nat) : State :=
  if !s.filling core || (s.core core).boot.endAt.isSome then s.bootDrop core
  else
    let s := s.modCore core fun c => { c with boot := { c.boot with endAt := some lines } }
    let s := (s.gableKids core).foldl (fun s k => s.inject core k 1 (.endFlit k lines)) s
    s.bootCheck core

def execEndFlit (core lines : Nat) (s : State) := event (fun s => s.takeEnd core lines) s

/-- An acknowledgement at a parent, or the root's at (0, 0), which fixes Ts. -/
def State.takeAck (s : State) : Option Nat → State
  | some p =>
    if !s.filling p then s.bootDrop p
    else (s.modCore p fun c => { c with boot := { c.boot with acks := c.boot.acks + 1 } }).bootCheck p
  | none =>
    if s.pstate ≠ .booting || s.boot.ts.isSome then s.bootDrop 0
    else match s.gable with
    | [] => s
    | root :: _ =>
      let ts := s.tick.toNat + 4
      State.inject { s with boot := { s.boot with ts := some ts } } 0 root 1 (.startFlit root (wordNat ts))

def execBootAck (parent : Option Nat) (s : State) := event (fun s => s.takeAck parent) s

def State.takeStart (s : State) (core : Nat) (ts : Word) : State :=
  if !s.gable.contains core || !(s.core core).boot.acked || (s.core core).boot.ts.isSome then s.bootDrop core
  else
    let s := s.modCore core fun c => { c with boot := { c.boot with ts := some ts } }
    (s.gableKids core).foldl (fun s k => s.inject core k 1 (.startFlit k ts)) s

def execStartFlit (core : Nat) (ts : Word) (s : State) := event (fun s => s.takeStart core ts) s

/-! ### Firmware starts (R373, R352) -/

/-- What a gable core's firmware thread starts with: the whole window and every vector register (log 18). -/
def firmBirth : Birth := ⟨false, 128, 32, 0, false, 0#2, 0#64, 0#64, 0, 0#64, 0, 1, 0#64, []⟩

/-- No partition: a firmware thread belongs to none. -/
def noPart : Nat := 32

/-- A gable core enters firmware mode at code-store line 0. -/
def State.startFirm (s : State) (core : Nat) : State :=
  let s := s.modCore core fun c => { c with boot := { c.boot with entered := true } }
  match s.newThread core noPart firmBirth with
  | none => s
  | some (id, s) => (s.modThr id fun t => { t with firm := true, status := setBits t.status 0 2 2 }).joinRun id

/-- The gable cores whose start tick has come and that have not entered firmware mode yet (R373). -/
def State.firmDue (s : State) : List Nat :=
  s.gable.filter fun c => (match (s.core c).boot.ts with | some ts => decide (ts.toNat ≤ s.tick.toNat) | none => false) &&
    !(s.core c).boot.entered

/-- At the boundary of Ts firmware runs and pstate becomes 2; a hold asked for while booting is issued now (R355). -/
def State.firmStart (s : State) : State :=
  match s.boot.ts with
  | none => s
  | some ts =>
    if s.tick.toNat < ts then s
    else
      let s := s.firmDue.foldl State.startFirm s
      if s.pstate ≠ .booting then s
      else
        let s := { s with pstate := .running }
        if s.boot.waitingHold then
          State.askHold { s with boot := { s.boot with waitingHold := false } } 16 (0#32, ⟨0x80#8, false⟩) false
        else s

def execFirmwareStart (s : State) := event State.firmStart s

/-! ### The status block (R353) -/

/-- The codes of pstate. -/
def PState.code : PState → Nat
  | .off => 0 | .booting => 1 | .running => 2 | .entering => 3 | .hold => 4 | .resuming => 5 | .failed => 6

/-- The status block as the host reads it; hreq and rreq are written only. -/
def State.statusBlock (s : State) : Word := wordNat (packBits [(0, 16), (s.pstate.code, 3), (0, 5), (s.bcode.toNat, 8), (s.holds.toNat, 32)])

/-! ### Attestation (R354) -/

/-- Bits 1023:0 of the report. -/
def State.reportBody (s : State) (nonce : BitVec 256) : Nat :=
  (digestNat s.flash.image).toNat * 2 ^ 768 + (digestNat (cfgBytes s.flash.table)).toNat * 2 ^ 512 + nonce.toNat * 2 ^ 256 +
    Config.partSerial.toNat * 2 ^ 192 + s.lifelog.lookD lgHold 0 * 2 ^ 128 + s.tick.toNat * 2 ^ 64 + s.fused.length % 256 * 256 + 1

/-- The firmware of the life-log role runs: from its start until a hold stops it (R164, R352). -/
def State.lifeRole (s : State) : Bool :=
  (s.roleCore roleLife).isSome && (s.pstate == .running || (s.pstate == .entering && !s.holdAt.any fun x => decide (x ≤ s.tick.toNat)))

/-- The life-log role answers a nonce with a signed report; a request that finds it stopped waits for it, and in hold the link
refuses it (R357, log 112). -/
def State.attest (s : State) (nonce : BitVec 256) : State :=
  if s.lifeRole then
    let b := s.reportBody nonce
    { s with reports := s.reports ++ [Config.sm2Sign (digestNat (leBytes 128 b)) ++ BitVec.ofNat 1024 b] }
  else if s.pstate == .entering || s.pstate == .resuming then s.post (.attestationRequest nonce) 0 64
  else s

def execAttestationRequest (nonce : BitVec 256) (s : State) := event (fun s => s.attest nonce) s

end Sys2Proof.Machine
end

