-- ==== Sys2Proof/Machine/Control.lean ====
section
/-!
DEFINITION. Control transfer, loops, giving up the seat, waits, traps, messages and the swap of a shared
register: opcodes 0x00 to 0x13 but for spawn (R242 to R260).
-/
namespace Sys2Proof.Machine

/-! ### Transfers (R242, R243) -/

def execNop (h : Head) (s : State) := runU h (pure .fall) s

/-- The address disp24 names, from the first slot of the instruction. -/
def dispOf (x : Word) (disp : BitVec 24) : Word := x + 4#64 * disp.signExtend 64

def execBr (h : Head) (disp : BitVec 24) (s : State) := runU h (do
  tailCheck
  return .jump (dispOf (← pcM) disp)) s

def execBrl (h : Head) (a : BitVec 8) (disp : BitVec 24) (s : State) := runU h (do
  check1 [(.ws, ⟨a, false⟩)]
  tailCheck
  writeS ⟨a, false⟩ (← nextM)
  return .jump (dispOf (← pcM) disp)) s

def execJr (h : Head) (a : Fld) (s : State) := runU h (do
  check1 [(.rs, a)]
  tailCheck
  return .jump (← readS a)) s

/-- The target is read before the link is written. -/
def execJrl (h : Head) (d a : Fld) (s : State) := runU h (do
  check1 [(.ws, d), (.rs, a)]
  tailCheck
  let t ← readS a
  writeS d (← nextM)
  return .jump t) s

/-! ### Hardware loops (R61, R244) -/

/-- The header of the line at an address marks it as a start. -/
def State.isStart (s : State) (t : Thread) (x : Word) : Bool :=
  match s.peekLine t (lineOf x) with
  | some l => decide (x.toNat % 4 = 0) && hdrStart l (slotOf x)
  | none => false

/-- A line about to be looked at that lies on a compressed page expands first, as a fetch of it would (R74). -/
def expandLine (t : Thread) (x : Word) : M Unit := do
  match (← get).fetchLine t (lineOf x) with
  | (.error _, .touch leaf pte, _) => if pteBit pte 8 then throw (.touch (lineOf x) leaf pte) else pure ()
  | _ => pure ()

/-- Open a loop of n passes over the body that ends at e. -/
def openLoop (n : Word) (e : Word) : M Ctl := do
  let s ← get
  let t := s.th
  if 2 ≤ t.loops.length then trap 0x09#8 0#64
  if t.pc.toNat < e.toNat then expandLine t e
  if e.toNat ≤ t.pc.toNat || !s.isStart t e then trap 0x04#8 e
  else if (match (t.loops.filter (!·.sus)).getLast? with | some o => decide (o.stop.toNat < e.toNat) | none => false)
    then trap 0x04#8 e
  else if n = 0#64 then do
    modify fun s => s.passed s.cur e
    pure .stay
  else do
    let x ← nextM
    -- the loop instruction itself steps the outer loop before its own body is open
    fallThen fun s => s.modTh fun t => { t with loops := t.loops ++ [⟨x, e, n, false⟩] }

def execLoop (h : Head) (a : BitVec 8) (disp : BitVec 24) (s : State) := runU h (do
  check1 [(.rs, ⟨a, false⟩)]
  let n ← readS ⟨a, false⟩
  openLoop n (dispOf (← pcM) disp)) s

def execLoopi (h : Head) (n : BitVec 16) (disp : BitVec 24) (s : State) := runU h (do
  openLoop (zext 16 n) (dispOf (← pcM) disp)) s

/-! ### Ending and giving up the seat (R246, R247) -/

def execExit (h : Head) (s : State) := runU h (do
  tailCheck
  modify fun s => s.endThread s.cur false
  pure .stay) s

def execYield (h : Head) (s : State) := runU h (fallThen fun s => (s.unseat s.cur).joinRun s.cur) s

/-! ### Waits (R248 to R250) -/

def execWaitc (h : Head) (mask : BitVec 4) (n : BitVec 16) (s : State) := runU h (do
  if mask &&& 12#4 ≠ 0#4 then anchor
  let t ← getTh
  let above (i c : Nat) : Bool := mask.getLsbD i && decide (n.toNat < c)
  if above 0 t.outLd || above 1 t.outSt || above 2 t.outCp || above 3 t.outHr
  then waitFor (.counters mask n.toNat) else pure .fall) s

/-- m = 0 completes at once; bit 63 follows the mailbox and is not cleared (R249). -/
def execWaiteEv (h : Head) (d a : Fld) (s : State) := runU h (do
  check1 [(.ws, d), (.rs, a)]
  anchor
  let m ← readS a
  let t ← getTh
  if m ≠ 0#64 ∧ t.event &&& m = 0#64 then waitFor (.event m)
  else do
    writeS d (t.event &&& m)
    modTh fun t => { t with ev := t.ev &&& ~~~m }
    pure .fall) s

def execWaiteL (h : Head) (d b : Fld) (n : BitVec 16) (s : State) := runU h (do
  check1 [(.ws, d), (.ctr, b)]
  anchor
  let t ← getTh
  let i := b.spec.toNat
  let v := t.lR i
  if v.toNat < n.toNat then waitFor (.landing i n.toNat)
  else do
    writeS d (v.zeroExtend 64)
    modTh fun t => t.setL i (v - n.zeroExtend 32)
    modify fun s => s.pokeBooks fun k => k.thid == t.thid
    pure .fall) s

def execWaiteCb (h : Head) (d b : Fld) (n : BitVec 16) (s : State) := runU h (do
  check1 [(.ws, d), (.buf, b)]
  anchor
  let s ← get
  let c := (s.core s.th.core).cbuf b.spec.toNat
  if c.filled < n.toNat then waitFor (.filled b.spec.toNat n.toNat)
  else do
    writeS d (BitVec.ofNat 64 c.filled)
    pure .fall) s

/-- A booking that has started or ended answers its start tick; one cancelled by a failed attempt answers 0; a
stale handle traps (R250). -/
def execWaiteBk (h : Head) (d a : Fld) (s : State) := runU h (do
  check1 [(.ws, d), (.rs, a)]
  anchor
  let k ← readS a
  let s ← get
  match s.bookHere k with
  | none => trap 0x84#8 k
  | some (_, _, b) =>
    match b.state with
    | .started | .ended => do
      writeS d (BitVec.ofNat 64 b.start)
      pure .fall
    | .cancelled => do
      writeS d 0#64
      pure .fall
    | .submitted | .pending | .committed | .saved => do
      emptyCheck d
      waitFor (.booking k d a)) s

/-! ### Traps (R251, R252) -/

def execTrap (h : Head) (n : BitVec 4) (code : BitVec 16) (s : State) := runU h (do
  tailCheck
  Machine.trap (0xF0#8 + n.zeroExtend 8) (zext 16 code)) s

/-- An opcode in the first slot of a marked start. -/
def slotOpcode (line slot : Nat) : Nat := slotWord line slot / 4 % 256

/-- The test of epc and the return (R208, R252): a line that cannot be fetched in the restored mode, or fails
R213, is not tested and raises its cause at the next issue. -/
def eretTo (next : Bool) : M Ctl := do
  tailCheck
  anchor
  let s ← get
  let t := s.th
  let t' := t.leave
  let x := t.epc
  expandLine t' x
  match s.peekLine t' (lineOf x) with
  | some l =>
    if (lineCause l (lineOf x)).isSome then do
      modTh fun _ => { t' with pc := x, pcMode := .start }
      pure .stay
    else if !(decide (x.toNat % 4 = 0) && hdrStart l (slotOf x)) then Machine.trap 0x04#8 x
    else if next then do
      let y := if slotOpcode l (slotOf x) = 0xB0 then s.nextPC t' x else x
      modTh fun _ => t'
      modify fun s => s.passed s.cur y
      pure .stay
    else do
      modTh fun _ => { t' with pc := x, pcMode := .start }
      pure .stay
  | none => do
    modTh fun _ => { t' with pc := x, pcMode := .start }
    pure .stay

def execEret (h : Head) (s : State) := runI h (some 0x0C) (pure ()) (eretTo false) s
def execEretNext (h : Head) (s : State) := runI h (some 0x0C) (pure ()) (eretTo true) s

/-! ### Threads and messages (R254 to R259) -/

/-- kill of the issuer acts as exit and writes no answer. -/
def execKill (h : Head) (d a : Fld) (s : State) := runU h (do
  check1 [(.ws, d), (.rs, a)]
  let x ← readS a
  let s ← get
  if x = s.cur.zeroExtend 64 then do
    modify fun s => s.endThread s.cur false
    pure .stay
  else do
    handOut d
    modify fun s => s.post (.killRequest s.cur d x) 0 16
    pure .fall) s

/-- R255, R43, R44. -/
def execMigr (h : Head) (d a : Fld) (s : State) := runU h (do
  check1 [(.ws, d), (.rs, a)]
  let x ← readS a
  let s ← get
  let t := s.th
  let refuse (n : Word) : M Ctl := do
    writeS d n
    pure .fall
  if !t.roaming then refuse 1#64
  else if !t.loops.isEmpty then Machine.trap 0xA8#8 0#64
  else match s.inPart t.part x.toNat with
    | none => refuse 2#64
    | some c =>
      if c = t.core then refuse 3#64
      else if t.outLd ≠ 0 ∨ t.outSt ≠ 0 then waitFor .leaving
      else do
        handOff d
        fallThen fun s => (s.modTh fun t => { t with arrive := some d }).migrateTo s.cur c) s

def execSend (h : Head) (d a b : Fld) (s : State) := runU h (do
  check1 [(.ws, d), (.rs, a), (.rs, b)]
  let x ← readS a
  let y ← readS b
  handOut d
  modify fun s => (s.post (.mailboxDelivery s.cur d x y) (chanThread s.cur (x.setWidth 32)) 16).traffic s.cur
  pure .fall) s

def execRecv (h : Head) (d : Fld) (s : State) := runU h (do
  check1 [(.ws, d)]
  anchor
  let t ← getTh
  match t.mailbox with
  | [] => waitFor .mailbox
  | x :: r => do
    writeS d x
    modTh fun t => { t with mailbox := r }
    pure .fall) s

def execRecvTry (h : Head) (d b : Fld) (s : State) := runU h (do
  check1 [(.ws, d), (.pred, b)]
  anchor
  let t ← getTh
  match t.mailbox with
  | [] => do
    modTh fun t => t.setP b.spec.toNat false
    pure .fall
  | x :: r => do
    writeS d x
    modTh fun t => { t with mailbox := r }.setP b.spec.toNat true
    pure .fall) s

def execSignal (h : Head) (d a b : Fld) (s : State) := runU h (do
  check1 [(.ws, d), (.rs, a), (.rs, b)]
  let x ← readS a
  let y ← readS b
  handOut d
  modify fun s => (s.post (.signalDelivery s.cur d x y) (chanThread s.cur (x.setWidth 32)) 16).traffic s.cur
  pure .fall) s

/-- R260: the read and the write are one step, whatever the full bit; a plain write of the last cycles may not be seen (R347). -/
def execSwap (h : Head) (d a b : Fld) (s : State) := runU h (do
  check1 [(.ws, d), (.swp, a), (.rs, b)]
  let y ← readS b
  let s ← get
  let t := s.th
  let i := a.spec.toNat - 0x90
  let r := (s.core t.core).sreg i
  let x ← recentOr r.value (r.swapStale s.now)
  writeS d x
  modCoreM fun c => c.setSreg i ((c.sreg i).wrote y s.now false)
  modify fun s => s.pokeFull t.core a.spec
  pure .fall) s

end Sys2Proof.Machine
end

