-- ==== Sys2Proof/Machine/Integer.lean ====
section
/-!
DEFINITION. The integer instructions, opcodes 0x20 to 0x3F (R263 to R272).
-/
namespace Sys2Proof.Machine

/-! ### The arithmetic (R264 to R271) -/

def mulHigh (a b : Word) : Word := ((a.signExtend 128 * b.signExtend 128).extractLsb' 64 64)
def mulHighU (a b : Word) : Word := ((a.zeroExtend 128 * b.zeroExtend 128).extractLsb' 64 64)
def minW (u : Bool) (a b : Word) : Word := if (if u then a.ult b else a.slt b) then a else b
def maxW (u : Bool) (a b : Word) : Word := if (if u then a.ult b else a.slt b) then b else a

def shiftW (k : ShKind) (a : Word) (n : Nat) : Word :=
  match k with
  | .ll => a <<< n
  | .rl => a >>> n
  | .ra => a.sshiftRight n
  | .rot => a.rotateRight n

def condW (c : Cond) (a b : Word) : Bool :=
  match c with
  | .eq => a == b
  | .ne => a != b
  | .lt => a.slt b
  | .ge => !a.slt b
  | .ltu => a.ult b
  | .geu => !a.ult b
  | .tst => a &&& b != 0#64

/-- The number of one bits among the low n bits. -/
def popAux : Nat → Nat → Nat
  | 0, _ => 0
  | n + 1, x => x % 2 + popAux n (x / 2)
/-- Trailing zeros among the low n bits, n when there is no one bit. -/
def ctzAux : Nat → Nat → Nat
  | 0, _ => 0
  | n + 1, x => if x % 2 = 1 then 0 else 1 + ctzAux n (x / 2)
/-- The low n bits in reverse order. -/
def revAux : Nat → Nat → Nat → Nat
  | 0, _, acc => acc
  | n + 1, x, acc => revAux n (x / 2) (2 * acc + x % 2)

def bitsW (o : BitsOp) (a : Word) : Word :=
  match o with
  | .pop => BitVec.ofNat 64 (popAux 64 a.toNat)
  | .clz => BitVec.ofNat 64 (ctzAux 64 (revAux 64 a.toNat 0))
  | .ctz => BitVec.ofNat 64 (ctzAux 64 a.toNat)
  | .rev => BitVec.ofNat 64 (revAux 64 a.toNat 0)

/-- Bits pos + w − 1 : pos of a, extended (R271). -/
def extW (sgn : Bool) (pos w : Nat) (a : Word) : Word :=
  let x := a.toNat / 2 ^ pos % 2 ^ w
  if sgn && x.testBit (w - 1) then BitVec.ofNat 64 (x + (2 ^ 64 - 2 ^ w)) else BitVec.ofNat 64 x

/-- b with bits pos + w − 1 : pos replaced by the low bits of a (R271). -/
def insW (pos w : Nat) (a b : Word) : Word :=
  let m : Word := BitVec.ofNat 64 ((2 ^ w - 1) * 2 ^ pos)
  (b &&& ~~~m) ||| (BitVec.ofNat 64 (a.toNat % 2 ^ w * 2 ^ pos))

/-! ### The shared shape: read, compute, write with zero tangents -/

def int2 (d a b : Fld) (f : Word → Word → Word) : M Ctl := do
  check1 [(.ws, d), (.rs, a), (.rs, b)]
  let x ← readS a
  let y ← readS b
  writeS d (f x y)
  pure .fall

def int1 (d a : Fld) (f : Word → Word) : M Ctl := do
  check1 [(.ws, d), (.rs, a)]
  let x ← readS a
  writeS d (f x)
  pure .fall

/-- Division traps on a zero divisor (R265). -/
def intDiv (d a b : Fld) (f : Word → Word → Word) : M Ctl := do
  check1 [(.ws, d), (.rs, a), (.rs, b)]
  let x ← readS a
  let y ← readS b
  if y = 0#64 then trap 0xC5#8 0#64
  else do
    writeS d (f x y)
    pure .fall

def writeP (d : Fld) (v : Bool) : M Unit := modTh fun t => t.setP d.spec.toNat v

/-! ### Meanings -/

def execAdd (h : Head) (d a b : Fld) (s : State) := runU h (int2 d a b fun x y => x + y) s
def execSub (h : Head) (d a b : Fld) (s : State) := runU h (int2 d a b fun x y => x - y) s
def execMul (h : Head) (d a b : Fld) (s : State) := runU h (int2 d a b fun x y => x * y) s
def execMulh (h : Head) (d a b : Fld) (s : State) := runU h (int2 d a b mulHigh) s
def execMulhu (h : Head) (d a b : Fld) (s : State) := runU h (int2 d a b mulHighU) s
def execAnd (h : Head) (d a b : Fld) (s : State) := runU h (int2 d a b fun x y => x &&& y) s
def execOr (h : Head) (d a b : Fld) (s : State) := runU h (int2 d a b fun x y => x ||| y) s
def execXor (h : Head) (d a b : Fld) (s : State) := runU h (int2 d a b fun x y => x ^^^ y) s
def execShl (h : Head) (d a b : Fld) (s : State) := runU h (int2 d a b fun x y => shiftW .ll x (y.toNat % 64)) s
def execShr (h : Head) (d a b : Fld) (s : State) := runU h (int2 d a b fun x y => shiftW .rl x (y.toNat % 64)) s
def execSra (h : Head) (d a b : Fld) (s : State) := runU h (int2 d a b fun x y => shiftW .ra x (y.toNat % 64)) s
def execMin (h : Head) (d a b : Fld) (u : Bool) (s : State) := runU h (int2 d a b (minW u)) s
def execMax (h : Head) (d a b : Fld) (u : Bool) (s : State) := runU h (int2 d a b (maxW u)) s
def execDiv (h : Head) (d a b : Fld) (s : State) := runU h (intDiv d a b fun x y => x.sdiv y) s
def execDivu (h : Head) (d a b : Fld) (s : State) := runU h (intDiv d a b fun x y => x / y) s
def execRem (h : Head) (d a b : Fld) (s : State) := runU h (intDiv d a b fun x y => x.srem y) s
def execRemu (h : Head) (d a b : Fld) (s : State) := runU h (intDiv d a b fun x y => x % y) s
def execAddi (h : Head) (d a : Fld) (imm : BitVec 16) (s : State) := runU h (int1 d a fun x => x + sext 16 imm) s
def execAndi (h : Head) (d a : Fld) (imm : BitVec 16) (s : State) := runU h (int1 d a fun x => x &&& zext 16 imm) s
def execOri (h : Head) (d a : Fld) (imm : BitVec 16) (s : State) := runU h (int1 d a fun x => x ||| zext 16 imm) s
def execXori (h : Head) (d a : Fld) (imm : BitVec 16) (s : State) := runU h (int1 d a fun x => x ^^^ zext 16 imm) s
def execShi (h : Head) (d a : Fld) (kind : ShKind) (n : BitVec 6) (s : State) :=
  runU h (int1 d a fun x => shiftW kind x n.toNat) s

/-- R267. -/
def execCmp (h : Head) (d a b : Fld) (c : Cond) (s : State) := runU h (do
  check1 [(.pred, d), (.rs, a), (.rs, b)]
  let x ← readS a
  let y ← readS b
  writeP d (condW c x y)
  pure .fall) s

/-- The second operand of cmpi: zero-extended for .ltu, .geu and .tst (R267). -/
def cmpImm (c : Cond) (imm : BitVec 16) : Word :=
  match c with
  | .ltu | .geu | .tst => zext 16 imm
  | .eq | .ne | .lt | .ge => sext 16 imm

def execCmpi (h : Head) (d a : Fld) (c : Cond) (imm : BitVec 16) (s : State) := runU h (do
  check1 [(.pred, d), (.rs, a)]
  let x ← readS a
  writeP d (condW c x (cmpImm c imm))
  pure .fall) s

/-- R268: both operands are read; the value and the tangents of the chosen one move (R131). An unselected
tangent is written as +0 (R130). -/
def execSel (h : Head) (d a b : Fld) (p : BitVec 4) (neg : Bool) (s : State) := runU h (do
  check1 [(.ws, d), (.rs, a), (.rs, b)]
  let t ← getTh
  let x ← readS a
  let y ← readS b
  let takeA := t.p p.toNat != neg
  let f := if takeA then a else b
  writeST d (if takeA then x else y)
    ((List.range t.k).map fun j => if t.sel.contains j then t.tanS f j else 0#64)
  pure .fall) s

def execMovi (h : Head) (d : Fld) (zx : Bool) (imm : BitVec 32) (s : State) := runU h (do
  check1 [(.ws, d)]
  writeS d (if zx then zext 32 imm else sext 32 imm)
  pure .fall) s

def execMovh (h : Head) (d a : Fld) (imm : BitVec 32) (s : State) :=
  runU h (int1 d a fun x => imm ++ x.extractLsb' 0 32) s

def execLea (h : Head) (d : Fld) (imm : BitVec 32) (s : State) := runU h (do
  check1 [(.ws, d)]
  let pc ← pcM
  writeS d (pc + sext 32 imm)
  pure .fall) s

def execBits (h : Head) (d a : Fld) (op : BitsOp) (s : State) := runU h (int1 d a (bitsW op)) s
def execExt (h : Head) (d a : Fld) (sgn : Bool) (pos wm1 : BitVec 6) (s : State) :=
  runU h (int1 d a (extW sgn pos.toNat (wm1.toNat + 1))) s
def execIns (h : Head) (d a b : Fld) (pos wm1 : BitVec 6) (s : State) :=
  runU h (int2 d a b (insW pos.toNat (wm1.toNat + 1))) s

/-- R272: p(d) := bit (2·p(a) + p(b)) of the table. -/
def execPlog (h : Head) (d a b : Fld) (tbl : BitVec 4) (s : State) := runU h (do
  check1 [(.pred, d), (.pred, a), (.pred, b)]
  let t ← getTh
  let i := (if t.p a.spec.toNat then 2 else 0) + (if t.p b.spec.toNat then 1 else 0)
  writeP d (tbl.getLsbD i)
  pure .fall) s

def execPlogGet (h : Head) (d : Fld) (s : State) := runU h (do
  check1 [(.ws, d)]
  let t ← getTh
  writeS d (zext 16 (t.pred ||| 1#16))
  pure .fall) s

def execPlogSet (h : Head) (a : Fld) (s : State) := runU h (do
  check1 [(.rs, a)]
  let x ← readS a
  modTh fun t => { t with pred := x.extractLsb' 0 16 ||| 1#16 }
  pure .fall) s

end Sys2Proof.Machine
end

