-- ==== Sys2Proof/Machine/Power.lean ====
section
/-!
DEFINITION. Partitions (R157 to R160), synchronised stops, tenant switches (R164 to R167), hold and resumption (R355 to
R358), the life log in flash (R360) and the tick boundary (R5).
-/
namespace Sys2Proof.Machine

/-! ### Partitions (R157 to R160, R194) -/

def PartDesc.holds (d : PartDesc) (l : Nat) : Bool := decide (d.base ≤ l) && decide (l < d.base + d.len)

/-- Two allotments meet: an array both hold, but for the two halves of a split slate. -/
def allotClash (a b : PartDesc) : Bool :=
  (List.range 64).any (fun i =>
    let ah := a.halves.getLsbD i
    let bh := b.halves.getLsbD i
    (ah || a.slates.getLsbD i) && (bh || b.slates.getLsbD i) && !(ah && bh && a.uppers.getLsbD i != b.uppers.getLsbD i)) ||
  a.shingles &&& b.shingles != 0#64

/-- A dword of a descriptor as the firewall registers hold it (R159). -/
def PartDesc.dword (d : PartDesc) (i : Nat) : Word :=
  match i with
  | 0 => wordNat (packBits [(d.base, 11), (0, 5), (d.pnum.toNat, 5), (0, 11), (d.len, 11)])
  | 1 => d.slates
  | 2 => d.shingles
  | 3 => d.halves
  | 4 => d.uppers
  | 5 => d.root
  | 6 => d.hostBase
  | _ => d.hostLen

/-- The firewall registers of a partition take its descriptor, or zeros (R159, log 11). -/
def State.setDesc (s : State) (p : Nat) (f : Nat → Word) : State :=
  { s with descRegs := (List.range 8).foldl (fun (t : Tbl Word) i => t.put 0#64 (8 * p + i) (f i)) s.descRegs }

/-- A descriptor firmware may install, with peer ports that no partition has (R199). -/
def State.descOk (s : State) (d : PartDesc) : Bool :=
  (s.part d.pnum.toNat).isNone && decide (1 ≤ d.len) && decide (d.base + d.len ≤ s.enabled.length) &&
    d.pairs.all (fun q => (s.peers.look q.port.toNat).isNone) &&
    !s.parts.any (fun e => (decide (d.base < e.2.desc.base + e.2.desc.len) && decide (e.2.desc.base < d.base + d.len)) ||
      allotClash d e.2.desc) &&
    d.root.toNat % 4096 == 0 && d.hostBase.toNat % 4096 == 0 && d.hostLen.toNat % 4096 == 0 &&
    decide (0x2000 ≤ d.hostLen.toNat) && decide (d.hostLen.toNat ≤ 2 ^ 40)

/-- Firmware installs a descriptor, and pairs the partition's peer ports (R159, R199, log 88). -/
def State.createPart (s : State) (d : PartDesc) : State :=
  if s.pstate ≠ .running || !s.descOk d then s
  else
    let p := d.pnum.toNat
    let x : Part := ⟨{ d with tvec := d.tvec &&& 0xFFFFFFFFFFFFFF80#64 }, 0#64, 0#64, 0#64, none, [], [], none, [], 0⟩
    State.setDesc { s with
      parts := s.parts.ins p x
      peers := d.pairs.foldl (fun (t : Tbl PeerPair) q => t.ins q.port.toNat ⟨p, q.remote, q.base, q.len⟩) s.peers } p (PartDesc.dword d)

def execPartitionCreate (desc : PartDesc) (s : State) := event (fun s => s.createPart desc) s

/-- A partition none of whose threads is resident ends, with its barriers, its peer ports and the translations held of it. -/
def State.destroyPart (s : State) (p : Nat) : State :=
  if s.threads.any (fun e => e.2.part == p && e.2.life != .swappedOut) || s.kernels.any (fun e => e.2.part == p) then s
  else State.setDesc { s with
    parts := s.parts.del p
    peers := s.peers.filter fun e => e.2.part != p
    barriers := s.barriers.filter fun e => e.1 / 16 != p
    cores := s.cores.map fun (e : Nat × Core) => (e.1, e.2.dropPart p) } p fun _ => 0#64

def execPartitionDestroy (part : Nat) (s : State) := event (fun s => s.destroyPart part) s

/-! ### The set of a stop (R164) -/

/-- The set of a stop: the threads of a partition's tenant, or every thread of the device. -/
def inSet (part : Option Nat) (t : Thread) : Bool := match part with | some p => t.part == p | none => true
/-- A roaming thread on its way stays in a save buffer, or at the core whose arrivals it is among (R54, R165). -/
def State.parked (s : State) (t : Thread) : Bool :=
  t.life == .migrating && (s.cores.any (fun e => e.2.arrivals.contains t.thid) ||
    (s.inBuffers s.agenda []).any fun e => match e.2.ev with | .migrationArrival id _ => id == t.thid | _ => false)
/-- A thread of a tenant that is out: a stop takes it in unchanged (R167). -/
def State.isOut (s : State) (id : Word32) : Bool := s.parts.any fun e => e.2.out.any fun x => x.threads.contains id
/-- The threads of the set that no image is written of: those on their way, and those that have exited and are not freed yet
(R53, R165). -/
def State.unimaged (s : State) (part : Option Nat) : List Word32 :=
  ((s.threads.map (·.2)).filter fun t => inSet part t && !s.isOut t.thid && (t.life == .exited || s.parked t)).map (·.thid)
def State.stopSet (s : State) (part : Option Nat) : List Thread :=
  (s.threads.map (·.2)).filter fun t => inSet part t && !s.isOut t.thid && t.life != .exited && t.life != .swappedOut && !s.parked t

/-- An instruction of the thread that has issued has still to complete, or an operation of it is to run to its end (R51, R94,
R112, R320). One that waits, or has been woken to issue again, is abandoned (R53). -/
def State.midIssue (s : State) (part : Option Nat) (t : Thread) : Bool :=
  t.wait.inFlight || t.atPort || t.saving || t.arrive.isSome || t.life == .migrating ||
    (t.life == .seated && t.dualPfx.isSome) || !s.drained t.thid || !(s.pendOf t.thid).isEmpty ||
    (part.isSome && s.copies.any fun e => e.2.thid == t.thid && e.2.kind == .batld && e.2.live)

/-- The cores of a set. -/
def State.setCores (s : State) (part : Option Nat) : List Nat :=
  match part with | some p => s.partCores p | none => s.enabled

/-- At Ts copies are squashed, bookings saved, and a sweep token leaves on each of the four links of each core. -/
def State.beginStop (s : State) (part : Option Nat) (Ts : Nat) : State :=
  let ts := (s.stopSet part).map (·.thid) ++ s.unimaged part
  let s := ts.foldl (fun s id => (s.squashAll id part.isNone).saveBooks id Ts) s
  let cs := s.setCores part
  let s := cs.foldl (fun s c => s.modCore c fun k => { k with swept := [] }) s
  cs.foldl (fun s c => ([Dir.east, .west, .south, .north]).foldl (fun s d =>
    let n := neighbour c (dirCode d)
    s.post (.sweepToken n (dirOf (opposite (dirCode d)))) (chanPort c n) 23) s) s

/-- A router has received the token on a link. -/
def State.sweep (s : State) (core : Nat) (d : Dir) : State :=
  s.modCore core fun k => { k with swept := if k.swept.contains d then k.swept else k.swept ++ [d] }

def execSweepToken (core : Nat) (dir : Dir) (s : State) := event (fun s => s.sweep core dir) s

/-- A router has its token on every link from a core of the set (R165, log 97). -/
def State.swept' (s : State) (cs : List Nat) (c : Nat) : Bool :=
  ([Dir.east, .west, .south, .north]).all fun d => !cs.contains (neighbour c (dirCode d)) || (s.core c).swept.contains d

/-- Tokens have come in on every link that joins a core of the set to another. -/
def State.allSwept (s : State) (part : Option Nat) : Bool :=
  let cs := s.setCores part
  cs.all (s.swept' cs)

/-- A thread's image is written once it has nothing in flight and the router of its core is swept. -/
def State.savePass (s : State) (part : Option Nat) (Ts : Nat) : State :=
  (s.stopSet part).foldl (fun s t =>
    if s.midIssue part t || !s.swept' (s.setCores part) t.core then s
    else
      let s := s.swapOut t.thid (if part.isSome then 3 else 4) Ts
      match part with
      | some p => match s.part p with
        | some q => { s with parts := s.parts.ins p { q with saved := q.saved ++ [t.thid] } }
        | none => s
      | none => { s with held := s.held ++ [t.thid] }) s

/-- Packets of the set that found no room in a save buffer are still on their way (R165). -/
def State.overflowing (s : State) : Bool :=
  (s.inBuffers s.agenda []).length != (s.agenda.filter fun p => (s.savedFrom p.ev).isSome).length

/-- Every save of the set is done: threads, copies and hires, page migrations, dispatches, sweeps, and the packets that no save
buffer took (R76, R112, R164, R165). -/
def State.stopDone (s : State) (part : Option Nat) : Bool :=
  let mine (p : Nat) : Bool := match part with | some q => p == q | none => true
  (s.stopSet part).isEmpty && s.allSwept part && !s.overflowing &&
    !s.pages.any (fun e => mine e.2.part) && !s.asks.any (fun e => mine e.2.part) &&
    !s.kernels.any (fun e => e.2.state == .dispatching && mine e.2.part) &&
    !s.copies.any (fun e => e.2.live && mine e.2.part) && !s.hires.any (fun e => e.2.open' && mine e.2.part)

/-- Kernels of the set: those whose release tick has not come have their ranks saved as ready (R164). -/
def State.saveKernels (s : State) (part : Option Nat) : State :=
  { s with kernels := s.kernels.map fun (e : Nat × Kernel) => (e.1,
      if (match part with | some p => e.2.part == p | none => false) && (e.2.state == .released || e.2.state == .running)
      then { e.2 with state := .saved }
      else if part.isNone && e.2.state == .released then { e.2 with state := .running } else e.2) }

/-! ### Tenant switches (R154, R166, R167) -/

/-- Ticks between agreed ticks, and the ticks within which a switch is not late. -/
def agreed : Nat := 64

/-- The tick at which the incoming tenant's restore begins: done is the boundary at which every save is found done. -/
def restoreTick (Ts done : Nat) : Nat :=
  if done ≤ Ts + agreed then Ts + agreed else Ts + agreed * ((done - Ts + agreed - 1) / agreed)

/-- Post an event at this boundary, before any turn. -/
def State.atTick (s : State) (ev : Instr) : State :=
  if s.agenda.any (fun p => decide (p.ev = ev)) then s else s.postHard ev s.cycle

/-- A partition's tenant cannot be switched now: a kernel of it is not pre-emptible. -/
def State.pinned (s : State) (p : Nat) : Bool :=
  s.kernels.any fun e => e.2.part == p && !pkPre e.2.packet && e.2.state != .saved

/-- Firmware asks for a switch: its stop is fixed, at least 16 ticks ahead and later by the ticks the tenant is credited with
(R166), or it waits. -/
def State.askSwitch (s : State) (p ts : Nat) : State :=
  match s.part p with
  | none => s
  | some q =>
    if s.pstate ≠ .running ∨ s.holdAt.isSome ∨ s.holdAsk.isSome ∨ q.stop.isSome ∨ s.pinned p then
      { s with parts := s.parts.ins p { q with queued := q.queued ++ [ts] } }
    else { s with parts := s.parts.ins p { q with
      stop := some (max (ts + q.credit) (s.tick.toNat + 16)), saved := [], saveAt := none, credit := 0 } }

def execTenantSwitch (part : Nat) (ts : Word) (s : State) := event (fun s => s.askSwitch part ts.toNat) s

/-- The packets of a partition's tenant in the save buffers, and its roaming threads among the arrivals of a core. -/
def State.tenantPackets (s : State) (p : Nat) : List Posting :=
  let cs := s.partCores p
  ((s.inBuffers s.agenda []).filter fun e => cs.contains e.1).map (·.2) ++
    cs.flatMap fun c => (s.core c).arrivals.map fun id => ⟨s.nextOp, s.now, chanMigr (s.thr id).core c, false, .migrationArrival id c, 0⟩

/-- The battens of a partition's tenant are free once it is saved (R320). -/
def State.freeTenantBattens (s : State) (p : Nat) : State :=
  (s.battens.filter fun e => e.2.part == p && decide (e.2.state ≤ 1)).foldl (fun s e => s.freeBatten e.1 3 0#8) s

/-- A tenant's save is done: barriers, generations, pending chains, register-mapped queues and packets go with it, and its
battens are free (R144, R165, R167, R182, R320). -/
def State.tenantOut (s : State) (p : Nat) (q : Part) (Ts : Nat) : State :=
  let s := ((s.saveKernels (some p)).sealImages q.saved).freeTenantBattens p
  let mine (e : Nat × Barrier) : Bool := e.1 / 16 == p
  let cs := s.partCores p
  let chains := cs.filterMap fun c => if (s.core c).pending.isEmpty then none else some (c, (s.core c).pending)
  let queues := cs.map fun c => ⟨c, (s.core c).inq, (s.core c).credUsed, (s.core c).reserve⟩
  let packets := s.tenantPackets p
  let ten : Tenant := ⟨q.saved ++ s.unimaged (some p), s.barriers.filter mine, chains, queues, packets⟩
  let late := decide (Ts + agreed < s.tick.toNat)
  let q := { q with
    saveAt := some s.tick.toNat
    out := q.out ++ [ten]
    credit := if late then restoreTick Ts s.tick.toNat - (Ts + agreed) else 0
    lateSwitches := if late && q.lateSwitches != allOnes then q.lateSwitches + 1#64 else q.lateSwitches }
  let s := { s with parts := s.parts.ins p q
                    barriers := s.barriers.filter fun (e : Nat × Barrier) => !mine e
                    agenda := s.agenda.filter fun x => !packets.any fun y => decide (x = y) }
  let s := cs.foldl (fun s c => s.modCore c fun k => { k with pending := [], arrivals := [], inq := [], credUsed := [], reserve := 2 }) s
  let s := if late then s.count (lgLateSwitch p) else s
  if restoreTick Ts s.tick.toNat ≤ s.tick.toNat then s.atTick (.tenantRestore p) else s

/-- The tick at which a stop of the set was fixed. -/
def State.stopTick (s : State) (part : Option Nat) : Option Nat :=
  match part with
  | some p => (s.part p).bind (·.stop)
  | none => if s.pstate == .entering then s.holdAt else none

/-- A hold that waits for the end of every switch is fixed (R167, R336). -/
def State.holdGoes (s : State) (who : Word32 × Fld) : State :=
  if s.switching then s
  else
    let Ts := s.tick.toNat + 16
    let s := s.fixHold Ts
    if who.1 = 0#32 then s else s.answer who.1 who.2 (wordNat Ts)

/-- The switch has ended: another that waits, or a hold that waits, is fixed (R167, R336). -/
def State.switchEnded (s : State) (p : Nat) : State :=
  match s.holdAsk with
  | some who => s.holdGoes who
  | none => s.nextSwitch p

/-- A switch whose partition has meanwhile launched a kernel that is not pre-emptible waits for it (R154). -/
def State.deferred (s : State) (part : Option Nat) (Ts : Nat) : Option State :=
  match part with
  | none => none
  | some p => match s.part p with
    | some q => if s.tick.toNat = Ts && s.pinned p then
        let s := { s with parts := s.parts.ins p { q with stop := none, queued := Ts :: q.queued } }
        some (match s.holdAsk with | some who => s.holdGoes who | none => s) else none
    | none => none

/-- The stop goes on until every save is done; at its first boundary it begins. -/
def State.stopStep (s : State) (part : Option Nat) : State :=
  match s.stopTick part with
  | none => s
  | some Ts =>
    if s.tick.toNat < Ts then s
    else if let some s' := s.deferred part Ts then s'
    else
      let s := (if s.tick.toNat = Ts then s.beginStop part Ts else s).savePass part Ts
      match part with
      | some p => match s.part p with
        | none => s
        | some q =>
          if q.saveAt.isSome then s
          else if s.stopDone part then s.tenantOut p q Ts else s
      | none => if s.stopDone none then s.saveKernels none else s

def execSynchronisedStop (part : Option Nat) (s : State) := event (fun s => s.stopStep part) s

/-- A saved tenant comes in: a release in progress is sent again, and its threads go on (R166, R182). -/
def State.tenantIn (s : State) (p : Nat) (x : Tenant) : State :=
  let keep := s.barriers.filter fun e => e.1 / 16 != p
  let s := { s with barriers := x.barriers.foldl (fun (t : Tbl Barrier) (e : Nat × Barrier) => t.ins e.1 e.2) keep }
  let s := x.barriers.foldl (fun s e => e.2.releasing.foldl (fun s c => s.post (.barrierRelease p (BitVec.ofNat 4 (e.1 % 16)) c)) s) s
  let s := x.chains.foldl (fun s e => s.modCore e.1 fun k => { k with pending := e.2 }) s
  let s := x.queues.foldl (fun s e => s.modCore e.core fun k => { k with inq := e.inq, credUsed := e.credUsed, reserve := e.reserve }) s
  let s := { s with agenda := s.agenda ++ x.packets }
  let s := { s with kernels := s.kernels.map fun (e : Nat × Kernel) => (e.1,
    if e.2.state == KernelState.saved && e.2.ranks.any (fun r => x.threads.contains r.2) then { e.2 with state := .running } else e.2) }
  let s := x.threads.foldl (fun s id => s.restoreSaved id s.tick.toNat false) s
  x.chains.foldl (fun s e => s.createAll e.1) s

/-- At an agreed tick after the saves the incoming tenant's restore begins. -/
def State.restoreTenant (s : State) (p : Nat) : State :=
  match s.part p with
  | none => s
  | some q =>
    match q.stop, q.saveAt with
    | some Ts, some done =>
      if s.tick.toNat < restoreTick Ts done then s
      else
        -- the one to come in was out before the tenant just saved
        let inn := if q.out.length ≤ 1 then none else q.out.head?
        let q' := { q with stop := none, saveAt := none, saved := [], out := if inn.isSome then q.out.tail else q.out }
        let s := { s with parts := s.parts.ins p q' }
        let s := match inn with | some x => s.tenantIn p x | none => s
        s.switchEnded p
    | _, _ => s

def execTenantRestore (part : Nat) (s : State) := event (fun s => s.restoreTenant part) s

/-! ### Hold and resumption (R355 to R358, R360) -/

/-- hreq or the hold pin. -/
def State.holdAsked (s : State) : State :=
  match s.pstate with
  | .running => s.askHold 16 (0#32, ⟨0x80#8, false⟩) false
  | .booting => { s with boot := { s.boot with waitingHold := true } }
  | _ => s

def execHoldRequest (s : State) := event State.holdAsked s

/-- Ticks within which an entry is not late. -/
def lateHold : Nat := 53125

/-- Every save is done, every started booking has ended and the link has drained (R356). -/
def State.holdReady (s : State) : Bool :=
  s.pstate == .entering && (s.holdAt.any fun x => decide (x ≤ s.tick.toNat)) && s.stopDone none &&
    !(s.books0 ++ s.books1).any (fun e => e.2.state == .started) &&
    ((s.hostPend.isEmpty && !s.agenda.any (fun p => match p.ev with | .publishApply _ _ => true | _ => false)) ||
      (!s.linkUp && decide (s.linkDownAt + Config.linkDownCycles ≤ s.now)))

/-- Resumption takes this long in the model; the manual bounds it by 6,800,000 cycles (log 19). -/
def resumeCycles : Nat := 4096

/-- Resumption begins; it ends with a rotation, where the tick counter goes on (R5, R358). -/
def State.resuming (s : State) : State :=
  State.postHard { s with pstate := .resuming } .resumptionComplete ((s.now + resumeCycles + 15) / 16 * 16)

/-- What the gated ridge dies and the queue controller held goes into the hold save area (R356, R357). -/
def State.saveHold (s : State) : State :=
  { s with saveArea := some ⟨s.books0, s.books1, s.battens, s.barriers, s.queues, s.slots, s.slotWait⟩
           books0 := [], books1 := [], battens := [], barriers := [], queues := [], slots := [], slotWait := [] }
/-- Resumption reads it back: battens, calendars, barriers, the queue controller (R358). -/
def State.loadHold (s : State) : State :=
  match s.saveArea with
  | none => s
  | some a => { s with saveArea := none, battens := a.battens, books0 := a.books0, books1 := a.books1, barriers := a.barriers,
                       queues := a.queues, slots := a.slots, slotWait := a.slotWait }

/-- At Tf the counter stops and the ridge dies are gated; the life log, which counts the entry, has been written before (R356 to
R360). -/
def State.enterHold (s : State) : State :=
  if !s.holdReady then s
  else
    let s := (s.sealImages s.held).count lgHold
    let s := if s.holdAt.any fun x => decide (x + lateHold < s.tick.toNat) then s.count lgLateHold else s
    let s := { s.saveHold with flash := { s.flash with lifelog := s.lifelog }, pstate := .hold }
    if s.resumeAsked then State.resuming { s with resumeAsked := false } else s

def execHoldReached (s : State) := event State.enterHold s

/-- rreq or the resume pin; one made while hold is entered takes effect once hold is reached. -/
def State.resume (s : State) : State :=
  match s.pstate with
  | .hold => s.resuming
  | .entering => { s with resumeAsked := true }
  | _ => s

def execResumeRequest (s : State) := event State.resume s

/-- Restoration ends: bookings are placed at Tf plus their offsets, threads go on, and the counter runs from Tf: the next
boundary is 64 cycles away (R5, R358). -/
def State.resumed (s : State) : State :=
  if s.pstate ≠ .resuming then s
  else
    let ids := s.held ++ s.unimaged none
    let s := { s.loadHold with pstate := .running, tickBase := s.cycle, holdAt := none, held := [], holds := s.holds + 1#32 }
    let s := ids.foldl (fun s id => s.restoreSaved id s.tick.toNat true) s
    let s := s.enabled.foldl (fun s c => (s.roomFreed c).createAll c) s
    (s.parts.map (·.1)).foldl State.nextSwitch s

def execResumptionComplete (s : State) := event State.resumed s

/-- Retention power is lost in hold: every saved image is lost, and the module is off (R355). -/
def State.retentionLost (s : State) : State :=
  if s.pstate ≠ .hold then s
  else { s.cleared with pstate := .off, resets := s.resets, lifelog := s.flash.lifelog,
                        holds := BitVec.ofNat 32 (s.flash.lifelog.lookD lgHold 0) }

def execRetentionPowerLoss (s : State) := event State.retentionLost s

def execLifeLogWrite (s : State) := event (fun s => { s with flash := { s.flash with lifelog := s.lifelog } }) s

/-! ### The tick boundary (R5) -/

/-- Bookings that end or start at a tick, and slots that are handed over. -/
def State.tickBooks (s : State) : State :=
  let T := s.tick.toNat
  let s := [0, 1].foldl (fun s r => (s.books r).foldl (fun s e =>
    if e.2.state == .started && decide (e.2.last < T) then s.atTick (.bookingEnd r e.1) else s) s) s
  [0, 1].foldl (fun s r => (s.books r).foldl (fun s e =>
    let s := if e.2.state == .committed && decide (e.2.start ≤ T) then s.atTick (.bookingStart r e.1) else s
    e.2.ivals.foldl (fun s i => match i.res with
      | .slot c n => if i.lo = T then s.atTick (.slotHandover c n) else s
      | _ => s) s) s) s

/-- Hires that start, whose window has ended, or whose lines are due. A checksum mismatch is a fault of an array: it
may come at any window. -/
def State.tickHires (s : State) : State :=
  let T := s.tick.toNat
  s.hires.foldl (fun s e =>
    let h := e.2
    if h.state == .placed && h.bidx.isSome && decide (h.start ≤ T) then s.atTick (.hireStart e.1)
    else if h.state == .running && decide (h.wend < T) then
      let (n, s) := s.draw
      s.atTick (.arrayWindowEnd e.1 (Config.freeBool n))
    else if s.lineDue h then s.postLine h e.1
    else if h.state == .checked || (h.open' && s.hireStale h) then s.postOnce (.landingLine e.1) else s) s

/-- Copies whose booked start has come, and bursts that a refresh may split (R82). -/
def State.tickCopies (s : State) : State :=
  s.copies.foldl (fun s e =>
    if e.2.state == .queued && e.2.booked.isSome && decide (e.2.start ≤ s.tick.toNat) then s.atTick (.copyRunning e.1)
    else if e.2.state == .queued && e.2.slot.isNone && e.2.ready then s.atTick (.copyRunning e.1)
    else
    let s := if e.2.sends then s.postOnce (.tracerLine e.2.core) else s
    if e.2.opensRow then
      let (n, s) := s.draw
      if Config.freeBool n then s.postOnce (.refreshSplit e.1) else s
    else s) s

/-- The tick that ends at this boundary fell in a stop of the partition. -/
def State.stopRan (s : State) (part : Nat) : Bool :=
  (s.holdAt.any fun x => decide (x < s.tick.toNat)) ||
    (match s.parts.look part with | some q => q.stop.any fun x => decide (x < s.tick.toNat) | none => false)

/-- Running cycles without traffic, up to this boundary (R156). -/
def State.tickIdle (s : State) : State :=
  { s with kernels := s.kernels.map fun (e : Nat × Kernel) => (e.1,
      if e.2.state == KernelState.saved || s.stopRan e.2.part then e.2
      else { e.2 with idle := min (e.2.idle + Config.tickCycles) (s.cycle - e.2.lastTraffic) }) }

/-- Errors of the part appear at a tick boundary, or not (R78, R210, R295, log 93). -/
def State.tickEcc (s : State) : State :=
  let (n, s) := s.draw
  let s := if Config.freeBool n then s.errNew else s
  let (n, s) := s.draw
  if Config.freeBool n then s.softNew else s

/-- Stops, switches, kernels, firmware, the life log, hangs and the refresh window. -/
def State.tickRest (s : State) : State :=
  let T := s.tick.toNat
  let s := s.kernels.foldl (fun s e => if e.2.state == .released && decide (e.2.T ≤ T) then s.atTick (.kernelRelease e.1) else s) s
  let s := s.parts.foldl (fun s e => match e.2.stop, e.2.saveAt with
    | some Ts, none => if Ts ≤ T then s.atTick (.synchronisedStop (some e.1)) else s
    | some Ts, some d => if restoreTick Ts d ≤ T then s.atTick (.tenantRestore e.1) else s
    | _, _ => s) s
  let s := if s.pstate == .entering && (s.holdAt.any fun x => decide (x ≤ T)) then
      -- Tf may be this boundary, once its ends and saves have run (R356)
      (s.atTick (.synchronisedStop none)).atTick .holdReached
    else s
  let s := if s.boot.ts.isSome && !s.firmDue.isEmpty then s.atTick .firmwareStart else s
  let s := if T % 2 ^ 30 = 0 then s.atTick .lifeLogWrite else s
  let s := if s.kernels.any (fun e => s.hangs e.2) then s.atTick .hang else s
  let s := if s.cores.any (fun e => !e.2.rows.isEmpty) then
      (let (n, s) := s.draw
       if Config.freeBool n then s.postOnce .refreshWindowEnd else s) else s
  let s := if (s.books0 ++ s.books1).any (fun e => e.2.state == .committed && e.2.sheet.slide) then s.postOnce .compaction else s
  [0, 1].foldl (fun s r => if (s.hallQueue r).isEmpty then s else s.postOnce (.hirePlacement r)) s

/-- The counter advances, but for the ticks of a hold, and what falls on the boundary is posted. -/
def State.tickOver (s : State) : State :=
  if s.pstate == .hold || s.pstate == .resuming || s.pstate == .off then s
  else (State.tickBooks { s with tick := s.tick + 1#64 }).tickHires.tickCopies.tickIdle.tickEcc.tickRest

def execTickBoundary (s : State) := event State.tickOver s

end Sys2Proof.Machine
end

