-- ==== Sys2Proof/Machine/Dispatch.lean ====
section
/-!
DEFINITION. The dispatch of a step: one arm for each constructor of Instr, each one call of its meaning.
-/
namespace Sys2Proof.Machine

def exec (i : Instr) (s : State) : Host.Outcome State Fault Refusal :=
  match i with
  | .nop h => Sys2Proof.Machine.execNop h s
  | .br h disp => Sys2Proof.Machine.execBr h disp s
  | .brl h a disp => Sys2Proof.Machine.execBrl h a disp s
  | .jr h a => Sys2Proof.Machine.execJr h a s
  | .jrl h d a => Sys2Proof.Machine.execJrl h d a s
  | .loop h a disp => Sys2Proof.Machine.execLoop h a disp s
  | .loopi h n disp => Sys2Proof.Machine.execLoopi h n disp s
  | .exit h => Sys2Proof.Machine.execExit h s
  | .yield h => Sys2Proof.Machine.execYield h s
  | .waitc h mask n => Sys2Proof.Machine.execWaitc h mask n s
  | .waiteEv h d a => Sys2Proof.Machine.execWaiteEv h d a s
  | .waiteL h d b n => Sys2Proof.Machine.execWaiteL h d b n s
  | .waiteCb h d b n => Sys2Proof.Machine.execWaiteCb h d b n s
  | .waiteBk h d a => Sys2Proof.Machine.execWaiteBk h d a s
  | .trap h n code => Sys2Proof.Machine.execTrap h n code s
  | .eret h => Sys2Proof.Machine.execEret h s
  | .eretNext h => Sys2Proof.Machine.execEretNext h s
  | .spawn h d a b imm => Sys2Proof.Machine.execSpawn h d a b imm s
  | .kill h d a => Sys2Proof.Machine.execKill h d a s
  | .migr h d a => Sys2Proof.Machine.execMigr h d a s
  | .send h d a b => Sys2Proof.Machine.execSend h d a b s
  | .recv h d => Sys2Proof.Machine.execRecv h d s
  | .recvTry h d b => Sys2Proof.Machine.execRecvTry h d b s
  | .signal h d a b => Sys2Proof.Machine.execSignal h d a b s
  | .swap h d a b => Sys2Proof.Machine.execSwap h d a b s
  | .ctxsv h d a b dev cap => Sys2Proof.Machine.execCtxsv h d a b dev cap s
  | .ctxld h d a dev => Sys2Proof.Machine.execCtxld h d a dev s
  | .add h d a b => Sys2Proof.Machine.execAdd h d a b s
  | .sub h d a b => Sys2Proof.Machine.execSub h d a b s
  | .addi h d a imm => Sys2Proof.Machine.execAddi h d a imm s
  | .mul h d a b => Sys2Proof.Machine.execMul h d a b s
  | .mulh h d a b => Sys2Proof.Machine.execMulh h d a b s
  | .mulhu h d a b => Sys2Proof.Machine.execMulhu h d a b s
  | .div h d a b => Sys2Proof.Machine.execDiv h d a b s
  | .divu h d a b => Sys2Proof.Machine.execDivu h d a b s
  | .rem h d a b => Sys2Proof.Machine.execRem h d a b s
  | .remu h d a b => Sys2Proof.Machine.execRemu h d a b s
  | .and h d a b => Sys2Proof.Machine.execAnd h d a b s
  | .or h d a b => Sys2Proof.Machine.execOr h d a b s
  | .xor h d a b => Sys2Proof.Machine.execXor h d a b s
  | .andi h d a imm => Sys2Proof.Machine.execAndi h d a imm s
  | .ori h d a imm => Sys2Proof.Machine.execOri h d a imm s
  | .xori h d a imm => Sys2Proof.Machine.execXori h d a imm s
  | .shl h d a b => Sys2Proof.Machine.execShl h d a b s
  | .shr h d a b => Sys2Proof.Machine.execShr h d a b s
  | .sra h d a b => Sys2Proof.Machine.execSra h d a b s
  | .shi h d a kind n => Sys2Proof.Machine.execShi h d a kind n s
  | .min h d a b u => Sys2Proof.Machine.execMin h d a b u s
  | .max h d a b u => Sys2Proof.Machine.execMax h d a b u s
  | .cmp h d a b c => Sys2Proof.Machine.execCmp h d a b c s
  | .cmpi h d a c imm => Sys2Proof.Machine.execCmpi h d a c imm s
  | .sel h d a b p neg => Sys2Proof.Machine.execSel h d a b p neg s
  | .movi h d zx imm => Sys2Proof.Machine.execMovi h d zx imm s
  | .movh h d a imm => Sys2Proof.Machine.execMovh h d a imm s
  | .lea h d imm => Sys2Proof.Machine.execLea h d imm s
  | .bits h d a op => Sys2Proof.Machine.execBits h d a op s
  | .ext h d a sgn pos wm1 => Sys2Proof.Machine.execExt h d a sgn pos wm1 s
  | .ins h d a b pos wm1 => Sys2Proof.Machine.execIns h d a b pos wm1 s
  | .plog h d a b tbl => Sys2Proof.Machine.execPlog h d a b tbl s
  | .plogGet h d => Sys2Proof.Machine.execPlogGet h d s
  | .plogSet h a => Sys2Proof.Machine.execPlogSet h a s
  | .fadd h d a b t rc => Sys2Proof.Machine.execFadd h d a b t rc s
  | .fsub h d a b t rc => Sys2Proof.Machine.execFsub h d a b t rc s
  | .fmul h d a b t rc => Sys2Proof.Machine.execFmul h d a b t rc s
  | .fma h d a b c t rc => Sys2Proof.Machine.execFma h d a b c t rc s
  | .fdiv h d a b t rc => Sys2Proof.Machine.execFdiv h d a b t rc s
  | .fsqrt h d a t rc => Sys2Proof.Machine.execFsqrt h d a t rc s
  | .fmin h d a b t => Sys2Proof.Machine.execFmin h d a b t s
  | .fmax h d a b t => Sys2Proof.Machine.execFmax h d a b t s
  | .fcmp h d a b t c => Sys2Proof.Machine.execFcmp h d a b t c s
  | .fcvt h d a tgt src rc => Sys2Proof.Machine.execFcvt h d a tgt src rc s
  | .fcvti h d a tgt src rc => Sys2Proof.Machine.execFcvti h d a tgt src rc s
  | .fsgn h d a b t op => Sys2Proof.Machine.execFsgn h d a b t op s
  | .vadd h d a b m t rc => Sys2Proof.Machine.execVadd h d a b m t rc s
  | .vsub h d a b m t rc => Sys2Proof.Machine.execVsub h d a b m t rc s
  | .vmul h d a b m t rc => Sys2Proof.Machine.execVmul h d a b m t rc s
  | .vfma h d a b c m t rc => Sys2Proof.Machine.execVfma h d a b c m t rc s
  | .vdiv h d a b m t rc => Sys2Proof.Machine.execVdiv h d a b m t rc s
  | .vsqrt h d a m t rc => Sys2Proof.Machine.execVsqrt h d a m t rc s
  | .vmin h d a b m t => Sys2Proof.Machine.execVmin h d a b m t s
  | .vmax h d a b m t => Sys2Proof.Machine.execVmax h d a b m t s
  | .vcmp h d a b m t c => Sys2Proof.Machine.execVcmp h d a b m t c s
  | .vsel h d a b m t => Sys2Proof.Machine.execVsel h d a b m t s
  | .vcvt h d a m tgt src q rc => Sys2Proof.Machine.execVcvt h d a m tgt src q rc s
  | .vred h d a m t rc => Sys2Proof.Machine.execVred h d a m t rc s
  | .vdot h d a b m t rc => Sys2Proof.Machine.execVdot h d a b m t rc s
  | .vperm h d a b m t => Sys2Proof.Machine.execVperm h d a b m t s
  | .vbcast h d a m t k => Sys2Proof.Machine.execVbcast h d a m t k s
  | .vext h d a t k => Sys2Proof.Machine.execVext h d a t k s
  | .vins h d a t k => Sys2Proof.Machine.execVins h d a t k s
  | .viadd h d a b m t sat => Sys2Proof.Machine.execViadd h d a b m t sat s
  | .visub h d a b m t sat => Sys2Proof.Machine.execVisub h d a b m t sat s
  | .vimul h d a b m t => Sys2Proof.Machine.execVimul h d a b m t s
  | .vlog h d a b m t op => Sys2Proof.Machine.execVlog h d a b m t op s
  | .vsh h d a b m t op => Sys2Proof.Machine.execVsh h d a b m t op s
  | .vmov h d a m t => Sys2Proof.Machine.execVmov h d a m t s
  | .vmask h d a b op => Sys2Proof.Machine.execVmask h d a b op s
  | .vfsgn h d a b m t op => Sys2Proof.Machine.execVfsgn h d a b m t op s
  | .vscan h d a m t rc => Sys2Proof.Machine.execVscan h d a m t rc s
  | .viota h d m t => Sys2Proof.Machine.execViota h d m t s
  | .lds h d a typed z imm => Sys2Proof.Machine.execLds h d a typed z imm s
  | .sts h a b typed z imm => Sys2Proof.Machine.execSts h a b typed z imm s
  | .vlds h d a typed m imm => Sys2Proof.Machine.execVlds h d a typed m imm s
  | .vsts h a b typed m imm => Sys2Proof.Machine.execVsts h a b typed m imm s
  | .ldd h d a typed o z imm => Sys2Proof.Machine.execLdd h d a typed o z imm s
  | .std h a b typed o z imm => Sys2Proof.Machine.execStd h a b typed o z imm s
  | .vldd h d a typed m imm => Sys2Proof.Machine.execVldd h d a typed m imm s
  | .vstd h a b typed m imm => Sys2Proof.Machine.execVstd h a b typed m imm s
  | .ldh h d a z imm => Sys2Proof.Machine.execLdh h d a z imm s
  | .sth h a b z imm => Sys2Proof.Machine.execSth h a b z imm s
  | .amod h d a b o dw op => Sys2Proof.Machine.execAmod h d a b o dw op s
  | .casd h d a b c o dw => Sys2Proof.Machine.execCasd h d a b c o dw s
  | .amos h d a b dw op => Sys2Proof.Machine.execAmos h d a b dw op s
  | .cass h d a b c dw => Sys2Proof.Machine.execCass h d a b c dw s
  | .fence h sc => Sys2Proof.Machine.execFence h sc s
  | .publish h d => Sys2Proof.Machine.execPublish h d s
  | .ldsb h d a tg imm => Sys2Proof.Machine.execLdsb h d a tg imm s
  | .stsb h a b tg imm => Sys2Proof.Machine.execStsb h a b tg imm s
  | .vgas h d a b m t sc => Sys2Proof.Machine.execVgas h d a b m t sc s
  | .vscs h a b c m t sc => Sys2Proof.Machine.execVscs h a b c m t sc s
  | .pgmigNear h d a => Sys2Proof.Machine.execPgmigNear h d a s
  | .pgmigFar h d a => Sys2Proof.Machine.execPgmigFar h d a s
  | .cbset h d a size lgn => Sys2Proof.Machine.execCbset h d a size lgn s
  | .cbpop h d b => Sys2Proof.Machine.execCbpop h d b s
  | .cbpush h d b => Sys2Proof.Machine.execCbpush h d b s
  | .tenq h a => Sys2Proof.Machine.execTenq h a s
  | .tdec h a => Sys2Proof.Machine.execTdec h a s
  | .tset h a b => Sys2Proof.Machine.execTset h a b s
  | .barAw h d k => Sys2Proof.Machine.execBarAw h d k s
  | .barArr h d k => Sys2Proof.Machine.execBarArr h d k s
  | .barWait h d a k => Sys2Proof.Machine.execBarWait h d a k s
  | .qput h d a b => Sys2Proof.Machine.execQput h d a b s
  | .hire h d a b c e => Sys2Proof.Machine.execHire h d a b c e s
  | .batld h d a b e => Sys2Proof.Machine.execBatld h d a b e s
  | .batfree h a => Sys2Proof.Machine.execBatfree h a s
  | .copy h d a b c e => Sys2Proof.Machine.execCopy h d a b c e s
  | .copyr h d a b c e => Sys2Proof.Machine.execCopyr h d a b c e s
  | .book h d a => Sys2Proof.Machine.execBook h d a s
  | .bookH h d a => Sys2Proof.Machine.execBookH h d a s
  | .unbook h d a => Sys2Proof.Machine.execUnbook h d a s
  | .hstatCp h d a => Sys2Proof.Machine.execHstatCp h d a s
  | .hstatBk h d a => Sys2Proof.Machine.execHstatBk h d a s
  | .hstatBt h d a => Sys2Proof.Machine.execHstatBt h d a s
  | .dual mask => Sys2Proof.Machine.execDual mask s
  | .bndr h d a j => Sys2Proof.Machine.execBndr h d a j s
  | .bndw h d a j mx => Sys2Proof.Machine.execBndw h d a j mx s
  | .tanr h d a j vec => Sys2Proof.Machine.execTanr h d a j vec s
  | .tanw h d a j vec => Sys2Proof.Machine.execTanw h d a j vec s
  | .csrr h d n => Sys2Proof.Machine.execCsrr h d n s
  | .csrw h d a n => Sys2Proof.Machine.execCsrw h d a n s
  | .csrs h d a n => Sys2Proof.Machine.execCsrs h d a n s
  | .csrc h d a n => Sys2Proof.Machine.execCsrc h d a n s
  | .tlbiVa h d a => Sys2Proof.Machine.execTlbiVa h d a s
  | .tlbiAll h d a => Sys2Proof.Machine.execTlbiAll h d a s
  | .tlbiLva h d a => Sys2Proof.Machine.execTlbiLva h d a s
  | .tlbiLall h d a => Sys2Proof.Machine.execTlbiLall h d a s
  | .hold h d a => Sys2Proof.Machine.execHold h d a s
  | .halt h => Sys2Proof.Machine.execHalt h s
  | .ebreak h n => Sys2Proof.Machine.execEbreak h n s
  | .mcast h d a b c e => Sys2Proof.Machine.execMcast h d a b c e s
  | .discovery sx sy west fuse => Sys2Proof.Machine.execDiscovery sx sy west fuse s
  | .report sx sy fuse => Sys2Proof.Machine.execReport sx sy fuse s
  | .map x y flit => Sys2Proof.Machine.execMap x y flit s
  | .linePacket core data => Sys2Proof.Machine.execLinePacket core data s
  | .endFlit core lines => Sys2Proof.Machine.execEndFlit core lines s
  | .bootAck parent => Sys2Proof.Machine.execBootAck parent s
  | .startFlit core ts => Sys2Proof.Machine.execStartFlit core ts s
  | .attestationRequest nonce => Sys2Proof.Machine.execAttestationRequest nonce s
  | .synchronisedStop part => Sys2Proof.Machine.execSynchronisedStop part s
  | .sweepToken core dir => Sys2Proof.Machine.execSweepToken core dir s
  | .tenantRestore part => Sys2Proof.Machine.execTenantRestore part s
  | .threadSeating core => Sys2Proof.Machine.execThreadSeating core s
  | .contextSaveDone seat => Sys2Proof.Machine.execContextSaveDone seat s
  | .contextFetchDone seat => Sys2Proof.Machine.execContextFetchDone seat s
  | .sliceExpiry thid => Sys2Proof.Machine.execSliceExpiry thid s
  | .seatedWaitTimeout thid => Sys2Proof.Machine.execSeatedWaitTimeout thid s
  | .fullBitChange thid => Sys2Proof.Machine.execFullBitChange thid s
  | .waitEvent thid => Sys2Proof.Machine.execWaitEvent thid s
  | .migrationArrival thid core => Sys2Proof.Machine.execMigrationArrival thid core s
  | .postedCauseTaken thid => Sys2Proof.Machine.execPostedCauseTaken thid s
  | .threadFreed thid => Sys2Proof.Machine.execThreadFreed thid s
  | .homePortAccess thid id => Sys2Proof.Machine.execHomePortAccess thid id s
  | .accessAnswer thid => Sys2Proof.Machine.execAccessAnswer thid s
  | .statusAnswer thid dst value => Sys2Proof.Machine.execStatusAnswer thid dst value s
  | .rowThrottle core row => Sys2Proof.Machine.execRowThrottle core row s
  | .refreshSplit op => Sys2Proof.Machine.execRefreshSplit op s
  | .registrationRequest op core => Sys2Proof.Machine.execRegistrationRequest op core s
  | .stencilRegister core => Sys2Proof.Machine.execStencilRegister core s
  | .registrationGrant op core => Sys2Proof.Machine.execRegistrationGrant op core s
  | .copyRunning op => Sys2Proof.Machine.execCopyRunning op s
  | .slotHandover core slot => Sys2Proof.Machine.execSlotHandover core slot s
  | .startMessage op => Sys2Proof.Machine.execStartMessage op s
  | .tracerLine core => Sys2Proof.Machine.execTracerLine core s
  | .copyData op line => Sys2Proof.Machine.execCopyData op line s
  | .copyReport op => Sys2Proof.Machine.execCopyReport op s
  | .hirePlacement ridge => Sys2Proof.Machine.execHirePlacement ridge s
  | .hireStart op => Sys2Proof.Machine.execHireStart op s
  | .arrayWindowEnd op mismatch => Sys2Proof.Machine.execArrayWindowEnd op mismatch s
  | .landingLine op => Sys2Proof.Machine.execLandingLine op s
  | .hireLanded op => Sys2Proof.Machine.execHireLanded op s
  | .bookAttempt ridge idx => Sys2Proof.Machine.execBookAttempt ridge idx s
  | .pendingBookAttempt ridge idx => Sys2Proof.Machine.execPendingBookAttempt ridge idx s
  | .bookingStart ridge idx => Sys2Proof.Machine.execBookingStart ridge idx s
  | .bookingEnd ridge idx => Sys2Proof.Machine.execBookingEnd ridge idx s
  | .taskMessage src name op => Sys2Proof.Machine.execTaskMessage src name op s
  | .spawnRequest req => Sys2Proof.Machine.execSpawnRequest req s
  | .killRequest src dst target => Sys2Proof.Machine.execKillRequest src dst target s
  | .launchPacket slot => Sys2Proof.Machine.execLaunchPacket slot s
  | .dispatchAck kernel rank => Sys2Proof.Machine.execDispatchAck kernel rank s
  | .kernelRelease kernel => Sys2Proof.Machine.execKernelRelease kernel s
  | .kernelRetirement kernel => Sys2Proof.Machine.execKernelRetirement kernel s
  | .queueCreate req => Sys2Proof.Machine.execQueueCreate req s
  | .wakeWrite part data => Sys2Proof.Machine.execWakeWrite part data s
  | .queueDestroy qid => Sys2Proof.Machine.execQueueDestroy qid s
  | .queueDestroyed qid => Sys2Proof.Machine.execQueueDestroyed qid s
  | .unmappingEnd slot => Sys2Proof.Machine.execUnmappingEnd slot s
  | .idleUnmap slot => Sys2Proof.Machine.execIdleUnmap slot s
  | .qputRequest src dst capAddr cap packet => Sys2Proof.Machine.execQputRequest src dst capAddr cap packet s
  | .barrierArrival src k dst wait => Sys2Proof.Machine.execBarrierArrival src k dst wait s
  | .barrierRelease part k core => Sys2Proof.Machine.execBarrierRelease part k core s
  | .barrierWithdrawal src k => Sys2Proof.Machine.execBarrierWithdrawal src k s
  | .queueEntry core dir value => Sys2Proof.Machine.execQueueEntry core dir value s
  | .creditReturn core dir => Sys2Proof.Machine.execCreditReturn core dir s
  | .probeTokenSend core => Sys2Proof.Machine.execProbeTokenSend core s
  | .probeToken origin core dir hops => Sys2Proof.Machine.execProbeToken origin core dir hops s
  | .mailboxDelivery src dst target value => Sys2Proof.Machine.execMailboxDelivery src dst target value s
  | .sendRetry src => Sys2Proof.Machine.execSendRetry src s
  | .signalDelivery src dst target mask => Sys2Proof.Machine.execSignalDelivery src dst target mask s
  | .publishApply src dst => Sys2Proof.Machine.execPublishApply src dst s
  | .peerWrite port offset line => Sys2Proof.Machine.execPeerWrite port offset line s
  | .frameAvailable core frame => Sys2Proof.Machine.execFrameAvailable core frame s
  | .shootdown core va op => Sys2Proof.Machine.execShootdown core va op s
  | .migrationComplete op => Sys2Proof.Machine.execMigrationComplete op s
  | .pageEviction part va frame => Sys2Proof.Machine.execPageEviction part va frame s
  | .pageRetire part va => Sys2Proof.Machine.execPageRetire part va s
  | .peerPortFailure port => Sys2Proof.Machine.execPeerPortFailure port s
  | .thermalExcursion die peak => Sys2Proof.Machine.execThermalExcursion die peak s
  | .supplyDroop die depth => Sys2Proof.Machine.execSupplyDroop die depth s
  | .tenantSwitch part ts => Sys2Proof.Machine.execTenantSwitch part ts s
  | .partitionCreate desc => Sys2Proof.Machine.execPartitionCreate desc s
  | .partitionDestroy part => Sys2Proof.Machine.execPartitionDestroy part s
  | .dispatchMulticast kernel rank => Sys2Proof.Machine.execDispatchMulticast kernel rank s
  | .evictionComplete op => Sys2Proof.Machine.execEvictionComplete op s
  | .hostWritePerformed id => Sys2Proof.Machine.execHostWritePerformed id s
  | .tickBoundary => Sys2Proof.Machine.execTickBoundary s
  | .reset => Sys2Proof.Machine.execReset s
  | .reportTimeout => Sys2Proof.Machine.execReportTimeout s
  | .imageSend => Sys2Proof.Machine.execImageSend s
  | .firmwareStart => Sys2Proof.Machine.execFirmwareStart s
  | .holdRequest => Sys2Proof.Machine.execHoldRequest s
  | .resumeRequest => Sys2Proof.Machine.execResumeRequest s
  | .holdReached => Sys2Proof.Machine.execHoldReached s
  | .resumptionComplete => Sys2Proof.Machine.execResumptionComplete s
  | .retentionPowerLoss => Sys2Proof.Machine.execRetentionPowerLoss s
  | .lifeLogWrite => Sys2Proof.Machine.execLifeLogWrite s
  | .compaction => Sys2Proof.Machine.execCompaction s
  | .slotGrant => Sys2Proof.Machine.execSlotGrant s
  | .linkDownTimeout => Sys2Proof.Machine.execLinkDownTimeout s
  | .linkRetrain => Sys2Proof.Machine.execLinkRetrain s
  | .prietLinkDown => Sys2Proof.Machine.execPrietLinkDown s
  | .refreshWindowEnd => Sys2Proof.Machine.execRefreshWindowEnd s
  | .hang => Sys2Proof.Machine.execHang s

end Sys2Proof.Machine
end

