-- ==== Sys2Proof/Machine/Step.lean ====
section
/-!
DEFINITION. One step of the module: an entry of the agenda that may happen, or the turn of the next seat (R50), and
how an instruction is placed where the next step issues it.
-/
namespace Sys2Proof.Machine

/-- The turn of a seat: what it runs, and the cursor beyond it. -/
def turnOf (s : State) (k : Nat) : Host.Outcome State Fault Refusal :=
  match State.seatTurn { s with cursor := k } k with
  | .done s' => .next { s' with cursor := k + 1 }
  | .run i s' => match exec i s' with
    | .next s'' => .next { s'' with cursor := k + 1 }
    | .fault f => .fault f
    | .refused r => .refused r

/-- The sixteen turns of a rotation are over: sixteen cycles have passed, and at every fourth a tick ends (R5, R50). -/
def rotation (s : State) : State :=
  let s := { s with cycle := s.cycle + 16, cursor := 0 }
  if (s.cycle - s.tickBase) % Config.tickCycles = 0 then { s with agenda := ⟨s.nextOp, s.cycle, 0, true, .tickBoundary, 0⟩ :: s.agenda } else s

/-- One step. A module without power starts when power returns (R349, R355). -/
def step (s : State) : Host.Outcome State Fault Refusal :=
  if s.pstate = .off then exec .reset s
  else match s.choose with
    | (some i, s') => exec i s'
    | (none, s') => match s'.nextMoment with
      | .seat k => turnOf s' k
      | .cycle c => .next { s' with cursor := c }
      | .over => .next (rotation s')

/-! ### Placing an instruction -/

/-- A line with one instruction at slot 2 (R211, R212). -/
def lineWith (w : Nat) : Nat := 2 ^ 60 + 1 + w % 2 ^ 128 * 2 ^ 64

/-- The thread that issues a placed instruction: a user thread with the largest shape, all of it zero. -/
def fetchThread : Thread :=
  { Thread.blank with thid := 0x10000#32, kernel := some 0, life := .seated, W := 128, V := 32, k := 4, status := 0xCC#12 }

/-- The instruction whose bits are w, stored in the code store of core 0 as the line the thread in seat 0 issues from
next: a running module with nothing else due (log 20). -/
def State.withFetchWord (s : State) (_nbits w : Nat) : State :=
  let c := s.core 0
  let c := { c with
    pcore := some 0, lcore := some 0, resv := c.resv.ins 0 0x10000#32, codeRuns := [⟨0, 0, 128, 0#64⟩],
    code := c.code.putRun 0#8 0 (leBytes 128 (lineWith w)) }
  { s with
    pstate := .running, agenda := [], cursor := 0, enabled := [0], cores := s.cores.ins 0 c,
    parts := s.parts.ins 0 ⟨⟨0#5, 0, 1, 0#64, 0#64, 0#64, 0#64, 0#64, 0#64, 0x2000#64, 0#64, []⟩, 0#64, 0#64, 0#64, none, [], [], none, [], 0⟩,
    threads := s.threads.ins 0x10000 fetchThread, seats := s.seats.ins 0 ⟨0x10000#32, false, false⟩ }

end Sys2Proof.Machine
end

