-- ==== Sys2Proof/Safety.lean ====
section
/-!
DEFINITION. The terms claims about the machine are stated in: bytes of every memory, what an instruction
leaves as it was, when an instruction issues, and what counts as a sound state.
-/
namespace Sys2Proof.Machine

/-! ### Memory -/

/-- The memories of the module, and of a host and a peer it writes to. -/
inductive Space where
  | device | host | peer
  | sp (core : Nat)
  | code (core : Nat)
  deriving DecidableEq, Repr

/-- The byte performed at an address of a memory. -/
def State.byteAt (s : State) (m : Space) (a : Nat) : Byte :=
  match m with
  | .device => s.mem.lookD a 0#8
  | .host => s.hostMem.lookD a 0#8
  | .peer => s.peerMem.lookD a 0#8
  | .sp c => (s.core c).sp.lookD a 0#8
  | .code c => (s.core c).code.lookD a 0#8

/-- Everything memory holds beside its bytes: sideband words, scratchpad bounds, bank formats and the stores
still on their way. -/
structure SameMeta (s t : State) : Prop where
  sideband : ∀ pa, t.sbWord pa = s.sbWord pa
  bounds : ∀ c o, (t.core c).spB o = (s.core c).spB o
  formats : ∀ c b, (t.core c).fmtReg b = (s.core c).fmtReg b
  pending : ∀ c, (t.core c).pend = (s.core c).pend

/-- No byte of any memory and nothing beside it has changed. -/
structure SameMemory (s t : State) : Prop where
  bytes : ∀ m a, t.byteAt m a = s.byteAt m a
  meta' : SameMeta s t

/-- No byte outside a set of addresses has changed. -/
def SameBytesBut (s t : State) (p : Space → Nat → Prop) : Prop := ∀ m a, ¬p m a → t.byteAt m a = s.byteAt m a

/-! ### Registers -/

/-- What an instruction that only computes may write: a scalar register with its tangents, a predicate, a
vector register with its bound and tangents, the exception flags; and the specifiers of its destination and of
the operands it takes from (a synchronised read, a queue, the mailbox). -/
structure Writes where
  g : Option Nat
  p : Option Nat
  v : Option Nat
  flags : Bool
  specs : List (BitVec 8)
  deriving DecidableEq, Repr

/-- A thread with the files Writes names, its place in the program, its mailbox and the books of the
instruction in hand erased. What remains: status, cause and the other exception registers, every other
control register, the landing counters, the event word, the outstanding counters, its shape and its life. -/
def Thread.rest (t : Thread) : Thread :=
  { t with
    pc := 0#64, pcMode := .start, line := none, loops := [], dualPfx := none, vals := [], taken := []
    atAnchor := false, reissue := false, bound := false, planes := [], saveFor := none, woke := .none, g := [], gEmpty := [], gt := [], v := [], vb := [], vt := [], vtb := []
    pred := 0#16, fpflags := 0#5, mailbox := [] }

/-- A core with its shared registers, its queues and their credits erased. -/
def Core.still (c : Core) : Core := { c with shared := [], inq := [], credUsed := [], reserve := 0 }

/-- Nothing of the engines, the halls, the kernels' queues, the barriers or the partitions has changed. -/
structure SameModule (s t : State) : Prop where
  parts : t.parts = s.parts
  copies : t.copies = s.copies
  hires : t.hires = s.hires
  books : t.books0 = s.books0 ∧ t.books1 = s.books1
  battens : t.battens = s.battens
  barriers : t.barriers = s.barriers
  queues : t.queues = s.queues ∧ t.slots = s.slots
  pages : t.pages = s.pages ∧ t.invals = s.invals ∧ t.rewrites = s.rewrites
  errors : t.errs = s.errs
  power : t.pstate = s.pstate ∧ t.holdAt = s.holdAt ∧ t.lifelog = s.lifelog ∧ t.saveArea = s.saveArea

/-- The frame of an instruction of the thread in hand that only computes. Operands read may take a message, a
queue entry or a full bit; nothing else but what w names and the place in the program changes. -/
structure Frame (s t : State) (w : Writes) : Prop where
  memory : SameMemory s t
  module' : SameModule s t
  cores : ∀ c, (t.core c).still = (s.core c).still
  others : ∀ id, id ≠ s.cur → t.thr id = s.thr id
  cur : t.cur = s.cur
  time : t.cycle = s.cycle ∧ t.tick = s.tick
  rest : t.th.rest = s.th.rest
  scalar : ∀ n, n < 128 → w.g ≠ some n → t.th.gR n = s.th.gR n ∧ ∀ j, j < s.th.k → t.th.gT j n = s.th.gT j n
  full : ∀ n, n < 128 → BitVec.ofNat 8 n ∉ w.specs → t.th.gFull n = s.th.gFull n
  preds : ∀ n, n < 16 → w.p ≠ some n → t.th.p n = s.th.p n
  vector : ∀ n, n < 32 → w.v ≠ some n →
    t.th.vR n = s.th.vR n ∧ t.th.vB n = s.th.vB n ∧
    ∀ j, j < s.th.k → t.th.vT j n = s.th.vT j n ∧ t.th.vTb j n = s.th.vTb j n
  flags : w.flags = false → t.th.fpflags = s.th.fpflags
  shared : ∀ c n, n < 64 → (c ≠ s.th.core ∨ BitVec.ofNat 8 (0x90 + n) ∉ w.specs) → (t.core c).sreg n = (s.core c).sreg n
  inbound : ∀ c, (c ≠ s.th.core ∨ 0x81#8 ∉ w.specs) → (t.core c).inq = (s.core c).inq
  outbound : ∀ c, (c ≠ s.th.core ∨ 0x82#8 ∉ w.specs) → (t.core c).credUsed = (s.core c).credUsed
  mailbox : 0x83#8 ∉ w.specs → t.th.mailbox = s.th.mailbox

/-! ### Issue -/

/-- The thread in hand issues an instruction with this header on its own core: the guard lets it execute. -/
structure Issues (s : State) (h : Head) : Prop where
  guard : s.th.passes h = true
  own : s.th.atPort = false

/-- The operand fields pass the tests of R220 to R222. -/
def FieldsOk (s : State) (fs : List (FK × Fld)) : Prop := ∀ p ∈ fs, s.fieldCause s.th p.1 p.2 = none

/-- Fields of a kind. -/
def fieldsAs (k : FK) (fs : List Fld) : List (FK × Fld) := fs.map fun f => (k, f)

/-- A step or an instruction went on. -/
def Completes (o : Host.Outcome State Fault Refusal) : Prop := ∃ t, o = .next t

/-! ### Sound states -/

/-- Every memory is in canonical form: equal memories are equal data. -/
def Sound (s : State) : Prop := s.memWf = true

/-- Every copy and every hire has a number below the one the next operation takes. -/
def Numbered (s : State) : Prop := (∀ e ∈ s.copies, e.1 < s.nextOp) ∧ ∀ e ∈ s.hires, e.1 < s.nextOp

/-- The step from a state goes on: it neither faults nor is refused. -/
def Safe (s : State) : Prop := Completes (step s)

end Sys2Proof.Machine
end

