-- ==== Sys2Proof/Certificates/Slice0/Obligations.lean ====
section
/-!
DEFINITION. The statements about the Tabdestra 7700 for the provers: first the terms they share, then the statements,
from decoding over operands, traps and each family of instructions to the events and the whole machine.
-/
open Sys2Proof Sys2Proof.Machine

namespace Sys2Proof.Claims

/-- The length code of each opcode the map assigns (R216, R217, R229). -/
def lengthCode (op : Nat) : Option Nat :=
  if op ∈ [0x43, 0x7B, 0x7D] then some 1
  else if op ∈ [0x0D, 0x39, 0x3A, 0x3B, 0x3E, 0x53, 0x85] then some 2
  else if op ∈ [0xA0, 0xA1, 0xA3, 0xA4, 0xC8] then some 3
  else if op ≤ 0x15 ∨ (0x20 ≤ op ∧ op ≤ 0x4B) ∨ (0x50 ≤ op ∧ op ≤ 0x6A) ∨ (0x70 ≤ op ∧ op ≤ 0x87) ∨
      (0x90 ≤ op ∧ op ≤ 0x94) ∨ (0xA0 ≤ op ∧ op ≤ 0xA7) ∨ (0xB0 ≤ op ∧ op ≤ 0xB4) ∨ (0xC0 ≤ op ∧ op ≤ 0xC8) then some 1
  else none

end Sys2Proof.Claims

open Sys2Proof.Claims

/-! ### Decoding -/

/-- Decode and encode agree: the bytes of a well-formed instruction, whatever follows them, decode to it, every operand at
every value the encoding admits. -/
def Obligations.DecodeEncode : Prop :=
  ∀ (i : Instr) (rest : List Byte), WellFormed.instr i = true → decode (encodeBytes i ++ rest) = .ok (i, rest)

/-- A word that decodes is the word of the instruction it decodes to, and of no other; that instruction is well formed. -/
def Obligations.EncodeDecode : Prop :=
  ∀ (w : Nat) (i : Instr), decodeWord w = .ok i → WellFormed.instr i = true ∧ encode i = w % 2 ^ (32 * slotsOf i)

/-- Length code 0, an opcode the map leaves out, and a length that is not the format's, are refused by name; so is a word
whose bit 15 is set (R216 to R218, R229). -/
def Obligations.DecodeRefuses : Prop :=
  ∀ w : Nat,
    (w % 4 = 0 → decodeWord w = .error .length) ∧
    (w % 4 ≠ 0 → lengthCode (w / 4 % 256) ≠ some (w % 4) → decodeWord w = .error (.opcode (w / 4 % 256))) ∧
    (w % 4 ≠ 0 → lengthCode (w / 4 % 256) = some (w % 4) → w.testBit 15 = true → ∃ p, p ≤ 15 ∧ decodeWord w = .error (.field p))

/-- Words written out from the encoding tables decode to the instructions they stand for: one of each family. -/
def Obligations.DecodeWords : Prop :=
  -- add g3, g1, g2?: len 01, op 0x20, d 3, a 1, b 2, b synchronised
  decodeWord 0b0_00000_100_00000010_00000001_00000011_0_0_0000_00100000_01 = .ok
    (.add ⟨0#4, false⟩ ⟨3#8, false⟩ ⟨1#8, false⟩ ⟨2#8, true⟩) ∧
  -- (~p5) br −2: len 01, op 0x01, guard 5, gneg 1, disp24 −2
  decodeWord 0b11111111_11111111_11111110_0_1_0101_00000001_01 = .ok (.br ⟨5#4, true⟩ 0xFFFFFE#24) ∧
  -- trap 9, #0x1234: op 0x0B, fn bits 46:43 = 9, imm16
  decodeWord 0b0001001000110100_0_1001_000_00000000_00000000_00000000_0_0_0000_00001011_01 = .ok
    (.trap ⟨0#4, false⟩ 9#4 0x1234#16) ∧
  -- fma.s.rz g1, g2, g3, g4: op 0x43, fn 01 101, c 4
  decodeWord 0b00000000_00000100_01_101_000_00000011_00000010_00000001_0_0_0000_01000011_01 = .ok
    (.fma ⟨0#4, false⟩ ⟨1#8, false⟩ ⟨2#8, false⟩ ⟨3#8, false⟩ ⟨4#8, false⟩ .s .rz) ∧
  -- ldd.dw.acq g7, [g9 + 8]: op 0x74, size 11, order 01
  decodeWord 0b0000000000001000_0_01_11_000_00000000_00001001_00000111_0_0_0000_01110100_01 = .ok
    (.ldd ⟨0#4, false⟩ ⟨7#8, false⟩ ⟨9#8, false⟩ false .acq .dw 8#16) ∧
  -- movi g5, #1: len 10, op 0x39, imm32 1
  decodeWord (0b0000_00111001_10 + 5 * 2 ^ 16 + 1 * 2 ^ 64) = .ok (.movi ⟨0#4, false⟩ ⟨5#8, false⟩ false 1#32) ∧
  -- dual 0b0011: op 0xB0, mask in bits 19:16
  decodeWord 0b0011_0_0_0000_10110000_01 = .ok (.dual 3#4) ∧
  -- csrr g2, fpctl: op 0xC0, number 0x010
  decodeWord 0b0000000000010000_00000_000_00000000_00000000_00000010_0_0_0000_11000000_01 = .ok
    (.csrr ⟨0#4, false⟩ ⟨2#8, false⟩ 0x010#12) ∧
  -- bar.aw g1, 3: op 0x93, fn 0, k 3
  decodeWord 0b0000000000000011_00000_000_00000000_00000000_00000001_0_0_0000_10010011_01 = .ok
    (.barAw ⟨0#4, false⟩ ⟨1#8, false⟩ 3#4)

/-! ### Steps -/

/-- The turn of a seat whose thread goes on: its line is fetched and, at its entry, checked; control enters it; the bytes
at the place decode; and the step is exec of that instruction, the cursor then past the seat. A plane the thread does not
have, and then an instruction that the prefix in force cannot qualify, trap in its place (R129, R202). That the turn at which the
slice timer reaches its period is no longer used to issue is the model's choice (log 121). -/
def Obligations.StepRunsInstruction : Prop :=
  ∀ (s s₁ s₃ : State) (k l : Nat) (x : Seat) (tr : Tr) (t t' : Thread) (i : Instr),
    s.pstate ≠ .off → s.choose = (none, s₁) → s₁.nextMoment = .seat k → s₁.seats.look k = some x →
    x.loading = false → x.saving = false →
    -- the thread is seated, and nothing else claims its turn
    t = { s₁.thr x.thid with sliceCnt := (s₁.thr x.thid).sliceCnt + 1 } → t.life = .seated →
    (t.between = true → s₁.halted t = false ∧ (t.ie = false ∨ t.posted = []) ∧
      t.slicePend = false ∧ (t.slice = 0 ∨ t.sliceCnt < t.slice)) →
    -- its line, the place in it and the instruction there
    State.fetchLine { { s₁ with cursor := k }.setThr x.thid t with cur := x.thid } t (lineOf t.pc) = (.ok l, tr, s₃) →
    (t.line = some (lineOf t.pc) ∨ lineCause l (lineOf t.pc) = none) →
    t.enterLine l = some t' → decodeWord (insBits l t'.pc) = .ok i →
    let s₄ := s₃.setThr x.thid { t' with line := some (lineOf t.pc) }
    (t'.planeBad i = true → step s = .next { s₄.takeTrap x.thid 0x02#8 43#64 0#5 with cursor := k + 1 }) ∧
    (t'.planeBad i = false → t'.dualPfx ≠ none → eligible i = false → step s =
      .next { s₄.takeTrap x.thid 0x06#8 (BitVec.ofNat 64 (insBits l t'.pc / 4 % 256)) 0#5 with cursor := k + 1 }) ∧
    (t'.planeBad i = false → (t'.dualPfx = none ∨ eligible i = true) →
      step s = (match exec i s₄ with
        | .next u => .next { u with cursor := k + 1 }
        | .fault f => .fault f
        | .refused r => .refused r))

/-- An entry of the agenda that is chosen is run; a later cycle of the rotation comes before the seats after it; when nothing
is due and no seat has its turn, the rotation ends and 16 cycles have passed; a module without power starts from reset. -/
def Sys2Proof.Claims.StepRunsEvent : Prop :=
  ∀ s : State,
    (s.pstate = .off → step s = exec .reset s) ∧
    (∀ e s₁, s.pstate ≠ .off → s.choose = (some e, s₁) → step s = exec e s₁) ∧
    (∀ s₁ c, s.pstate ≠ .off → s.choose = (none, s₁) → s₁.nextMoment = .cycle c → step s = .next { s₁ with cursor := c }) ∧
    (∀ s₁, s.pstate ≠ .off → s.choose = (none, s₁) → s₁.nextMoment = .over →
      ∃ t, step s = .next t ∧ t.cycle = s₁.cycle + 16 ∧ t.cursor = 0 ∧ t.threads = s₁.threads ∧ t.mem = s₁.mem)

/-- No step stops. -/
def Sys2Proof.Claims.PoweredStepGoesOn : Prop := ∀ s : State, Safe s

/-! ### Operands -/

/-- ReadOp (R59, R60, R190, R210, R220, R222, R223, R257): what each scalar source answers, when it waits, and what a
synchronised read, a queue and the mailbox give up. -/
def Obligations.OperandReads : Prop :=
  ∀ (s : State) (f : Fld) (n : Nat), n = f.spec.toNat →
    let t := s.th
    let q := (s.core t.core).queue t.up
    let r := (s.core t.core).sreg (n - 0x90)
    -- a register with a soft error: a scalar, a vector register and a mask
    (s.regBad false f.spec = true → readS f s = .error (.trap 0x62#8 (f.spec.zeroExtend 64) 0#5)) ∧
    (∀ v, s.regBad true v = true → readV v s = .error (.trap 0x62#8 (v.zeroExtend 64) 0#5)) ∧
    (∀ m : BitVec 3, m ≠ 0#3 → s.regBad true (m.zeroExtend 8) = true →
      readMask m s = .error (.trap 0x62#8 (m.zeroExtend 64) 0#5)) ∧
    (s.regBad false f.spec = false →
      -- a g-register: empty waits; full answers, and a synchronised read leaves it empty
      (n < 0x80 → t.gFull n = false → readS f s = .error (.wait (.fullBit f.spec true))) ∧
      (n < 0x80 → t.gFull n = true → ∃ u, readS f s = .ok (t.gR n, u) ∧ u.th.gFull n = !f.sync ∧ u.th.gR n = t.gR n ∧
        ∀ m, m ≠ n → u.th.gFull m = t.gFull m) ∧
      -- zr and tick
      (n = 0x80 → readS f s = .ok (0#64, s)) ∧
      (n = 0x84 → readS f s = .ok (s.tick, s)) ∧
      -- the inbound queue of qlink, in order
      (n = 0x81 → q.items = [] → readS f s = .error (.wait (.qin (BitVec.ofNat 3 t.up)))) ∧
      (n = 0x81 → ∀ x xs, q.items = x :: xs → ∃ u, readS f s = .ok (x, u) ∧
        ((u.core t.core).queue t.up).items = xs) ∧
      -- the mailbox, at the anchor of a roaming thread
      (n = 0x83 → t.roaming = true → t.core ≠ homeOf s.cur → t.atAnchor = false → readS f s = .error (.wait .anchor)) ∧
      (n = 0x83 → (t.roaming = false ∨ t.core = homeOf s.cur ∨ t.atAnchor = true) → t.mailbox = [] →
        readS f s = .error (.wait .mailbox)) ∧
      (n = 0x83 → (t.roaming = false ∨ t.core = homeOf s.cur ∨ t.atAnchor = true) → ∀ x xs, t.mailbox = x :: xs →
        ∃ u, readS f s = .ok (x, u) ∧ u.th.mailbox = xs) ∧
      -- a shared register: a synchronised read waits for its full bit and clears it; a plain one does neither, and may
      -- answer a value that a write within 15 cycles replaced
      (0x90 ≤ n → n ≤ 0xCF → f.sync = true → r.full = false → readS f s = .error (.wait (.fullBit f.spec true))) ∧
      (0x90 ≤ n → n ≤ 0xCF → f.sync = true → r.full = true → ∃ u, readS f s = .ok (r.value, u) ∧
        ((u.core t.core).sreg (n - 0x90)).full = false ∧ ((u.core t.core).sreg (n - 0x90)).value = r.value) ∧
      (0x90 ≤ n → n ≤ 0xCF → f.sync = false → ∃ x u, readS f s = .ok (x, u) ∧ (u.core t.core).sreg (n - 0x90) = r ∧
        (x = r.value ∨ ∃ e ∈ r.olds, e.1 = x ∧ e.2.1 < s.now ∧ s.now < e.2.1 + 16)))

/-- WriteOp (R59, R60, R130, R189, R190, R220, R222): a result to a g-register is its value and its tangents and leaves it
full; zr discards; a shared register takes the value and is full; qout sends an entry; a wait-empty bit and a spent credit
wait. -/
def Obligations.OperandWrites : Prop :=
  ∀ (s : State) (f : Fld) (n : Nat) (x : Word) (ts : List Word), n = f.spec.toNat →
    let t := s.th
    let r := (s.core t.core).sreg (n - 0x90)
    let used := (s.core t.core).credUsed.lookD t.down 0
    (n = 0x80 → writeST f x ts s = .ok ((), s)) ∧
    (n < 0x80 → f.sync = true → t.gFull n = true → writeST f x ts s = .error (.wait (.fullBit f.spec false))) ∧
    (n < 0x80 → (f.sync = false ∨ t.gFull n = false) → ∃ u, writeST f x ts s = .ok ((), u) ∧
      u.th.gR n = x ∧ u.th.gFull n = true ∧ (∀ j, j < t.k → u.th.gT j n = ts.getD j 0#64) ∧
      ∀ m, m < 0x80 → m ≠ n → u.th.gR m = t.gR m ∧ u.th.gFull m = t.gFull m ∧ ∀ j, u.th.gT j m = t.gT j m) ∧
    (0x90 ≤ n → n ≤ 0xCF → f.sync = true → r.full = true → writeST f x ts s = .error (.wait (.fullBit f.spec false))) ∧
    (0x90 ≤ n → n ≤ 0xCF → (f.sync = false ∨ r.full = false) → ∃ u, writeST f x ts s = .ok ((), u) ∧
      ((u.core t.core).sreg (n - 0x90)).value = x ∧ ((u.core t.core).sreg (n - 0x90)).full = true) ∧
    (n = 0x82 → 8 ≤ used → writeST f x ts s = .error (.wait (.qout (BitVec.ofNat 3 t.down)))) ∧
    (n = 0x82 → used < 8 → ∃ u p, writeST f x ts s = .ok ((), u) ∧ (u.core t.core).credUsed.lookD t.down 0 = used + 1 ∧
      p ∈ u.agenda ∧ p.ev = .queueEntry (neighbour t.core t.down) (dirOf (opposite t.down)) x)

namespace Sys2Proof.Claims

/-- Numbers a write may not name: 0x020 and above in any mode, and in user mode 0x000 to 0x004, 0x014 and 0x015. -/
def csrClosed (s : State) (n : BitVec 12) : Bool :=
  decide (0x020 ≤ n.toNat) || (s.th.mode == 0#2 && decide (n.toNat ≤ 4 ∨ n.toNat = 0x014 ∨ n.toNat = 0x015))

/-- The opcode of an instruction that the mode of the thread may not execute (R48, R228, R252, R261, R262, R307, R334 to R337). -/
def privOf (s : State) : Instr → Option Word
  | .eret _ | .eretNext _ => if s.th.mode = 0#2 then some 0x0C#64 else none
  | .ctxsv .. => if s.th.mode = 0#2 then some 0x14#64 else none
  | .ctxld .. => if s.th.mode = 0#2 then some 0x15#64 else none
  | .pgmigFar _ _ _ => if s.th.mode = 0#2 then some 0x84#64 else none
  | .tlbiVa _ _ _ | .tlbiAll _ _ _ | .tlbiLva _ _ _ | .tlbiLall _ _ _ => if s.th.mode = 0#2 then some 0xC4#64 else none
  | .halt _ => if s.th.mode = 0#2 then some 0xC6#64 else none
  | .hold _ _ _ => if s.th.mode = 2#2 ∧ s.isGable s.th.core = true then none else some 0xC5#64
  | .csrw _ _ _ n => if csrClosed s n then some 0xC1#64 else none
  | .csrs _ _ _ n => if csrClosed s n then some 0xC2#64 else none
  | .csrc _ _ _ n => if csrClosed s n then some 0xC3#64 else none
  | _ => none

/-- The instruction names a plane of tangents above the thread's k (R332, R333). -/
def planeBad (t : Thread) : Instr → Bool
  | .bndr _ _ _ j => decide (t.k < j.toNat)
  | .bndw _ _ _ j _ => decide (t.k < j.toNat)
  | .tanr _ _ _ j _ => decide (j.toNat < 1 ∨ t.k < j.toNat)
  | .tanw _ _ _ j _ => decide (j.toNat < 1 ∨ t.k < j.toNat)
  | _ => false

/-- The guard of an instruction; dual and the events have none. -/
def guardOf (i : Instr) : Option Head :=
  match i, rowOf i with
  | .dual _, _ => none
  | _, some (_, g :: n :: _) => some (headOf g n)
  | _, _ => none

/-- The operand fields of every instruction that has some, in the order d, a, b, c, with their kinds (R221). A wait-empty bit on
the d field of tanw and of hire, which they do not write, is tested before all others (log 37) and is left to their own statements;
the d field of copy.bk and copyr.bk is read, for its handle, and written. -/
def operands : Instr → Option (Head × List (FK × Fld))
  | .brl h a _ => some (h, [(.ws, ⟨a, false⟩)])
  | .loop h a _ => some (h, [(.rs, ⟨a, false⟩)])
  | .jr h a | .plogSet h a | .tenq h a | .tdec h a | .batfree h a => some (h, [(.rs, a)])
  | .recv h d | .movi h d _ _ | .lea h d _ | .plogGet h d | .publish h d | .barArr h d _ | .barAw h d _ | .csrr h d _ =>
    some (h, [(.ws, d)])
  | .jrl h d a | .waiteEv h d a | .waiteBk h d a | .kill h d a | .migr h d a | .book h d a | .bookH h d a | .unbook h d a
  | .hstatCp h d a | .hstatBk h d a | .hstatBt h d a | .addi h d a _ | .andi h d a _ | .ori h d a _ | .xori h d a _
  | .shi h d a _ _ | .movh h d a _ | .bits h d a _ | .ext h d a _ _ _ | .fsqrt h d a _ _ | .fcvt h d a _ _ _ | .fcvti h d a _ _ _
  | .lds h d a _ _ _ | .ldd h d a _ _ _ _ | .ldh h d a _ _ | .ldsb h d a _ _ | .ctxld h d a _ | .pgmigNear h d a | .pgmigFar h d a
  | .barWait h d a _ | .csrw h d a _ | .csrs h d a _ | .csrc h d a _ | .tlbiVa h d a | .tlbiAll h d a | .tlbiLva h d a
  | .tlbiLall h d a | .hold h d a => some (h, [(.ws, d), (.rs, a)])
  | .send h d a b | .signal h d a b | .spawn h d a b _ | .ctxsv h d a b _ _ | .batld h d a b _ | .add h d a b | .sub h d a b
  | .mul h d a b | .mulh h d a b | .mulhu h d a b | .div h d a b | .divu h d a b | .rem h d a b | .remu h d a b | .and h d a b
  | .or h d a b | .xor h d a b | .shl h d a b | .shr h d a b | .sra h d a b | .min h d a b _ | .max h d a b _ | .sel h d a b _ _
  | .ins h d a b _ _ | .fadd h d a b _ _ | .fsub h d a b _ _ | .fmul h d a b _ _ | .fdiv h d a b _ _ | .fmin h d a b _
  | .fmax h d a b _ | .amod h d a b _ _ _ | .amos h d a b _ _ | .qput h d a b => some (h, [(.ws, d), (.rs, a), (.rs, b)])
  | .fsgn h d a b _ op => some (h, (.ws, d) :: fieldsAs .rs (if op = .neg ∨ op = .abs then [a] else [a, b]))
  | .fma h d a b c _ _ | .casd h d a b c _ _ | .cass h d a b c _ | .mcast h d a b c _ => some (h, (.ws, d) :: fieldsAs .rs [a, b, c])
  | .copy h d a b c e | .copyr h d a b c e =>
    some (h, (if e.bk then [(.rs, { d with sync := false })] else []) ++ (.ws, d) :: fieldsAs .rs [a, b, c])
  | .hire h d a b c e =>
    if d.sync then none else some (h, (if e.kind = .bk then [(.rs, d)] else []) ++ fieldsAs .rs [a, b, c])
  | .sts h a b _ _ _ | .std h a b _ _ _ _ | .sth h a b _ _ | .stsb h a b _ _ | .tset h a b => some (h, [(.rs, a), (.rs, b)])
  | .swap h d a b => some (h, [(.ws, d), (.swp, a), (.rs, b)])
  | .cmp h d a b _ | .fcmp h d a b _ _ => some (h, [(.pred, d), (.rs, a), (.rs, b)])
  | .cmpi h d a _ _ => some (h, [(.pred, d), (.rs, a)])
  | .plog h d a b _ => some (h, fieldsAs .pred [d, a, b])
  | .recvTry h d b => some (h, [(.ws, d), (.pred, b)])
  | .waiteL h d b _ => some (h, [(.ws, d), (.ctr, b)])
  | .waiteCb h d b _ | .cbpop h d b | .cbpush h d b => some (h, [(.ws, d), (.buf, b)])
  | .cbset h d a _ _ => some (h, [(.buf, d), (.rs, a)])
  | .vadd h d a b _ _ _ | .vsub h d a b _ _ _ | .vmul h d a b _ _ _ | .vdiv h d a b _ _ _ | .vmin h d a b _ _ | .vmax h d a b _ _
  | .vcmp h d a b _ _ _ | .vsel h d a b _ _ | .vdot h d a b _ _ _ | .vperm h d a b _ _ | .viadd h d a b _ _ _
  | .visub h d a b _ _ _ | .vimul h d a b _ _ | .vlog h d a b _ _ _ | .vsh h d a b _ _ _ => some (h, fieldsAs .vec [d, a, b])
  | .vfma h d a b c _ _ _ => some (h, fieldsAs .vec [d, a, b, ⟨c, false⟩])
  | .vsqrt h d a _ _ _ | .vcvt h d a _ _ _ _ _ | .vred h d a _ _ _ | .vscan h d a _ _ _ | .vbcast h d a _ _ _
  | .vmov h d a _ _ => some (h, fieldsAs .vec [d, a])
  | .vfsgn h d a b _ _ op => some (h, fieldsAs .vec (d :: if op = .neg ∨ op = .abs then [a] else [a, b]))
  | .vmask h d a b op => some (h, fieldsAs .vec (d :: if op = .not then [a] else [a, b]))
  | .viota h d _ _ => some (h, [(.vec, d)])
  | .vext h d a _ _ => some (h, [(.ws, d), (.vec, a)])
  | .vins h d a _ _ => some (h, [(.vec, d), (.rs, a)])
  | .vlds h d a _ _ _ | .vldd h d a _ _ _ => some (h, [(.vec, d), (.rs, a)])
  | .vsts h a b _ _ _ | .vstd h a b _ _ _ => some (h, [(.rs, a), (.vec, b)])
  | .vgas h d a b _ _ _ => some (h, [(.vec, d), (.rs, a), (.vec, b)])
  | .vscs h a b c _ _ _ => some (h, [(.rs, a), (.vec, b), (.vec, c)])
  | .bndr h d a _ => some (h, [(.ws, d), (.vec, a)])
  | .bndw h d a _ _ => some (h, [(.vec, d), (.rs, a)])
  | .tanr h d a _ true | .tanw h d a _ true => some (h, fieldsAs .vec [d, a])
  | .tanr h d a _ false => some (h, [(.ws, d), (.gOnly, a)])
  | .tanw h d a _ false => if d.sync then none else some (h, [(.gOnly, d), (.rs, a)])
  | _ => none

end Sys2Proof.Claims

/-- The class-1 tests of a field (R220 to R222) and their order (R221): a list of fields is tested from its first on, and the first
that fails traps with its specifier, whatever the fields after it are; an instruction whose mode and decode tests have passed and
whose guard lets it execute tests its operand fields so, in the order d, a, b, c; and within one field 0x22, 0x23, 0x20 and 0x21
are tested in that order. -/
def Obligations.FieldTests : Prop :=
  (∀ (s : State) (i : Instr) (h : Head) (fs gs : List (FK × Fld)) (k : FK) (f : Fld) (c : Byte),
    operands i = some (h, fs ++ (k, f) :: gs) → Issues s h → privOf s i = none → planeBad s.th i = false → FieldsOk s fs →
    s.fieldCause s.th k f = some c → exec i s = .next (s.takeTrap s.cur c (f.spec.zeroExtend 64) 0#5)) ∧
  ∀ (s : State) (fs gs : List (FK × Fld)) (k : FK) (f : Fld),
    FieldsOk s fs →
    (∀ c, s.fieldCause s.th k f = some c → check1 (fs ++ (k, f) :: gs) s = .error (.trap c (f.spec.zeroExtend 64) 0#5)) ∧
    -- what the tests are, for a source, a destination, a vector register, a predicate (a write to p0 is discarded), a counter
    -- and a circular buffer
    (k = .rs → s.fieldCause s.th k f =
      if (0x85 ≤ f.spec.toNat ∧ f.spec.toNat ≤ 0x8F) ∨ 0xD0 ≤ f.spec.toNat then some 0x22#8
      else if f.spec.toNat = 0x82 ∨ (f.sync = true ∧ 0x80 ≤ f.spec.toNat ∧ f.spec.toNat < 0x90) then some 0x23#8
      else if f.spec.toNat < 0x80 ∧ s.th.W ≤ f.spec.toNat then some 0x20#8
      else if f.spec.toNat = 0x81 ∧ s.linkBad s.th s.th.up = true then some 0x25#8 else none) ∧
    (k = .ws → s.fieldCause s.th k f =
      if (0x85 ≤ f.spec.toNat ∧ f.spec.toNat ≤ 0x8F) ∨ 0xD0 ≤ f.spec.toNat then some 0x22#8
      else if f.spec.toNat = 0x81 ∨ f.spec.toNat = 0x83 ∨ f.spec.toNat = 0x84 ∨
        (f.sync = true ∧ 0x80 ≤ f.spec.toNat ∧ f.spec.toNat < 0x90) then some 0x23#8
      else if f.spec.toNat < 0x80 ∧ s.th.W ≤ f.spec.toNat then some 0x20#8
      else if f.spec.toNat = 0x82 ∧ s.linkBad s.th s.th.down = true then some 0x25#8 else none) ∧
    (k = .vec → s.fieldCause s.th k f =
      if 0x20 ≤ f.spec.toNat ∨ f.sync = true then some 0x23#8
      else if s.th.V ≤ f.spec.toNat then some 0x21#8 else none) ∧
    (k = .pred → s.fieldCause s.th k f = if 0x10 ≤ f.spec.toNat ∨ f.sync = true then some 0x23#8 else none) ∧
    (∀ b, s.th.setP 0 b = s.th) ∧
    (k = .ctr → s.fieldCause s.th k f = if 0x08 ≤ f.spec.toNat ∨ f.sync = true then some 0x23#8 else none) ∧
    (k = .buf → s.fieldCause s.th k f = if 0x10 ≤ f.spec.toNat ∨ f.sync = true then some 0x23#8 else none) ∧
    -- the shared register that swap exchanges, and the g-register whose tangent tanr reads or tanw writes (R260, R333)
    (k = .swp → s.fieldCause s.th k f =
      if f.spec.toNat < 0x90 ∨ 0xCF < f.spec.toNat ∨ f.sync = true then some 0x23#8 else none) ∧
    (k = .gOnly → s.fieldCause s.th k f =
      if 0x80 ≤ f.spec.toNat then some 0x23#8 else if s.th.W ≤ f.spec.toNat then some 0x20#8 else none)

/-! ### The place in the program -/

/-- Sequential flow (R215, R241): from an instruction control goes to the lowest marked start above it in its line, and from
the last one to the lowest marked start of the next line. -/
def Sys2Proof.Claims.SequentialFlow : Prop :=
  ∀ (s : State) (t : Thread) (x : Word) (l : Nat), s.peekLine t (lineOf x) = some l →
    (∀ k, slotOf x < k → k < 32 → hdrStart l k = true → (∀ j, slotOf x < j → j < k → hdrStart l j = false) →
      s.nextPC t x = lineOf x + BitVec.ofNat 64 (4 * k)) ∧
    ((∀ j, slotOf x < j → j < 32 → hdrStart l j = false) →
      ∀ m, s.peekLine t (lineOf x + 128#64) = some m → ∀ k, 2 ≤ k → k < 32 → hdrStart m k = true →
        (∀ j, j < k → hdrStart m j = false) → s.nextPC t x = lineOf x + 128#64 + BitVec.ofNat 64 (4 * k))

/-- Completion (R61, R215, R245): control moves on, and at the last instruction of an active body the innermost loop is
stepped: back to its start while its count is above 1, else it closes and the loop around it is looked at. -/
def Sys2Proof.Claims.CompletionPlace : Prop :=
  ∀ s : State,
    let t := s.th
    (t.isTail t.pc = false → (s.finish .fall).th.pc = s.nextPC t t.pc ∧ (s.finish .fall).th.loops = t.loops) ∧
    (∀ ls l, t.loops = ls ++ [l] → l.sus = false → l.stop = t.pc → 1 < l.count.toNat →
      (s.finish .fall).th.pc = l.start ∧ (s.finish .fall).th.loops = ls ++ [{ l with count := l.count - 1#64 }]) ∧
    (∀ l, t.loops = [l] → l.sus = false → l.stop = t.pc → l.count.toNat ≤ 1 →
      (s.finish .fall).th.pc = s.nextPC t t.pc ∧ (s.finish .fall).th.loops = []) ∧
    (∀ o l, t.loops = [o, l] → l.sus = false → l.stop = t.pc → l.count.toNat ≤ 1 → o.sus = false → o.stop = t.pc →
      1 < o.count.toNat →
      (s.finish .fall).th.pc = o.start ∧ (s.finish .fall).th.loops = [{ o with count := o.count - 1#64 }]) ∧
    (s.finish .fall).th.dualPfx = none ∧ (s.finish .fall).th.rest = t.rest ∧ SameMemory s (s.finish .fall)

/-- A transfer (R215, R241): control is at the target, which must be marked, and the loops whose bodies it leaves are closed. -/
def Sys2Proof.Claims.TransferPlace : Prop :=
  ∀ (s : State) (a : Word),
    let t := s.th
    let u := (s.finish (.jump a)).th
    u.pc = a ∧ u.pcMode = .target ∧ u.rest = t.rest ∧
    (t.loops = [] → u.loops = []) ∧
    (∀ ls l, t.loops = ls ++ [l] → l.sus = false → l.start.toNat ≤ a.toNat → a.toNat ≤ l.stop.toNat → u.loops = t.loops) ∧
    (∀ l, t.loops = [l] → l.sus = false → (a.toNat < l.start.toNat ∨ l.stop.toNat < a.toNat) → u.loops = [])

/-! ### Traps -/

/-- TakeTrap with ie = 1 (R205, R207, R209): epc names the instruction or its dual prefix, on a line just entered the start
the thread was to issue; cause and tval are recorded, the
mode and ie are saved and set, the loops are suspended and control is at the base plus 128 times the class; the registers
and memory are as they were. -/
def Obligations.TrapEntry : Prop :=
  ∀ (s : State) (id : Word32) (code : Byte) (tv : Word) (fl : BitVec 5),
    let t := s.thr id
    let u := (s.takeTrap id code tv fl).thr id
    t.ie = true →
    u.epc = (match t.dualPfx with
      | some (_, x) => x
      | none => if t.pcMode = .line then s.entryOf t (lineOf t.pc) else t.pc) &&& 0xFFFFFFFFFFFFFFFC#64 ∧
    u.cause = (if t.lost then 0x4000000000000000#64 else 0#64) ||| code.zeroExtend 64 ∧ u.tval = tv ∧ u.lost = false ∧
    u.status.extractLsb' 10 2 = t.mode ∧ u.status.getLsbD 9 = true ∧ u.ie = false ∧ u.mode = 1#2 ∧
    (∀ b, 3 ≤ b → b ≤ 8 → u.status.getLsbD b = t.status.getLsbD b) ∧
    u.pc = (t.tvec &&& 0xFFFFFFFFFFFFFF80#64) + BitVec.ofNat 64 (128 * (code.toNat / 32)) ∧ u.pcMode = .line ∧
    u.dualPfx = none ∧ u.loops = t.loops.map (fun l => { l with sus := true }) ∧ u.fpflags = t.fpflags ||| fl ∧
    u.g = t.g ∧ u.gEmpty = t.gEmpty ∧ u.gt = t.gt ∧ u.v = t.v ∧ u.vb = t.vb ∧ u.vt = t.vt ∧ u.pred = t.pred ∧
    u.tvec = t.tvec ∧ u.tstride = t.tstride ∧ u.mailbox = t.mailbox ∧ u.l = t.l ∧ u.ev = t.ev ∧ u.posted = t.posted ∧
    (∀ x, x ≠ id → (s.takeTrap id code tv fl).thr x = s.thr x) ∧ SameMemory s (s.takeTrap id code tv fl)

/-- A synchronous cause with ie = 0 (R206): a fault dump is written, the thread ends as a kill ends it, and the lowest live
rank of its kernel learns it by cause 0xE3. -/
def Sys2Proof.Claims.DoubleTrap : Prop :=
  ∀ (s : State) (id : Word32) (code : Byte) (tv : Word) (fl : BitVec 5),
    let t := s.thr id
    let u := s.takeTrap id code tv fl
    t.ie = false →
    (u.thr id).life = .exited ∧ (u.thr id).cCode = code ∧
    (u.dumps.look t.core).isSome = true ∧
    u.lifelog.lookD lgDouble 0 = min (2 ^ 64 - 1) (s.lifelog.lookD lgDouble 0 + 1) ∧
    ∀ k r, t.kernel = some k → s.lowestRank k (some id) = some r → (s.thr r).posted.length < 4 →
      (s.threads.look r.toNat).isSome = true →
      ⟨0xE3#8, id.zeroExtend 64⟩ ∈ (u.thr r).posted

/-- The trap of a thread's own instruction is TakeTrap of its cause; at its home port the operands it took are put back and
the answer travels (R201, R223, R293). -/
def Sys2Proof.Claims.TrapIsPrecise : Prop :=
  ∀ (s : State) (code : Byte) (tv : Word) (fl : BitVec 5),
    (s.th.atPort = false → s.stopped (.trap code tv fl) = s.takeTrap s.cur code tv fl) ∧
    (s.th.atPort = true → s.stopped (.trap code tv fl) = ((s.untake s.cur).takeTrap s.cur code tv fl).answerAccess s.cur)

/-! ### Privilege and guards -/

/-- A mode that may not execute an instruction (eret R252, ctxsv R261, ctxld R262, pgmig.far R307, tlbi R335, hold R336, halt R337), or may
not write the control register it names (R228, R334), raises cause 0x07 with the opcode, before any operand or guard is looked at (R202). That they come before a false guard is the model's reading
(log 87). -/
def Sys2Proof.Claims.Privilege : Prop :=
  ∀ (s : State) (i : Instr) (op : Word), privOf s i = some op → exec i s = .next (s.stopped (.trap 0x07#8 op 0#5))

/-- A plane above the thread's k is a reserved field: cause 0x02 with the field's lowest bit (R332, R333). It comes before a
false guard: the model's reading (log 87). -/
def Sys2Proof.Claims.PlaneAboveK : Prop :=
  ∀ (s : State) (i : Instr), planeBad s.th i = true → exec i s = .next (s.stopped (.trap 0x02#8 43#64 0#5))

/-- An instruction whose guard is false, and which its mode may execute, does nothing but complete (R219). That causes 0x07 and 0x02
come before a false guard is the model's reading (log 87): R219 puts the guard after the checks of R213 and R218. -/
def Obligations.GuardFails : Prop :=
  ∀ (s : State) (i : Instr) (h : Head), guardOf i = some h → s.th.passes h = false → privOf s i = none →
    planeBad s.th i = false → s.th.atPort = false → exec i s = .next (s.finish .fall)

/-! ### Integers -/

namespace Sys2Proof.Claims

/-- A field of w bits at pos. -/
def fieldAt (pos w : Nat) (x : Word) : Nat := x.toNat / 2 ^ pos % 2 ^ w

/-- The results of R263 to R272 on exact integers, narrowed at the end: header, destination, sources and the value. -/
def intResult (s : State) : Instr → Option (Head × Fld × List Fld × (List Word → Word))
  | .add h d a b => two h d a b fun x y => BitVec.ofInt 64 (x.toInt + y.toInt)
  | .sub h d a b => two h d a b fun x y => BitVec.ofInt 64 (x.toInt - y.toInt)
  | .addi h d a imm => one h d a fun x => BitVec.ofInt 64 (x.toInt + imm.toInt)
  | .mul h d a b => two h d a b fun x y => BitVec.ofInt 64 (x.toInt * y.toInt)
  | .mulh h d a b => two h d a b fun x y => BitVec.ofInt 64 (x.toInt * y.toInt / 2 ^ 64)
  | .mulhu h d a b => two h d a b fun x y => BitVec.ofNat 64 (x.toNat * y.toNat / 2 ^ 64)
  | .div h d a b => two h d a b fun x y => BitVec.ofInt 64 (x.toInt.tdiv y.toInt)
  | .divu h d a b => two h d a b fun x y => BitVec.ofNat 64 (x.toNat / y.toNat)
  | .rem h d a b => two h d a b fun x y => BitVec.ofInt 64 (x.toInt.tmod y.toInt)
  | .remu h d a b => two h d a b fun x y => BitVec.ofNat 64 (x.toNat % y.toNat)
  | .and h d a b => two h d a b fun x y => BitVec.ofNat 64 (x.toNat &&& y.toNat)
  | .or h d a b => two h d a b fun x y => BitVec.ofNat 64 (x.toNat ||| y.toNat)
  | .xor h d a b => two h d a b fun x y => BitVec.ofNat 64 (x.toNat ^^^ y.toNat)
  | .andi h d a imm => one h d a fun x => BitVec.ofNat 64 (x.toNat &&& imm.toNat)
  | .ori h d a imm => one h d a fun x => BitVec.ofNat 64 (x.toNat ||| imm.toNat)
  | .xori h d a imm => one h d a fun x => BitVec.ofNat 64 (x.toNat ^^^ imm.toNat)
  | .shl h d a b => two h d a b fun x y => BitVec.ofNat 64 (x.toNat * 2 ^ (y.toNat % 64))
  | .shr h d a b => two h d a b fun x y => BitVec.ofNat 64 (x.toNat / 2 ^ (y.toNat % 64))
  | .sra h d a b => two h d a b fun x y => BitVec.ofInt 64 (x.toInt / 2 ^ (y.toNat % 64))
  | .shi h d a .ll n => one h d a fun x => BitVec.ofNat 64 (x.toNat * 2 ^ n.toNat)
  | .shi h d a .rl n => one h d a fun x => BitVec.ofNat 64 (x.toNat / 2 ^ n.toNat)
  | .shi h d a .ra n => one h d a fun x => BitVec.ofInt 64 (x.toInt / 2 ^ n.toNat)
  | .shi h d a .rot n => one h d a fun x => BitVec.ofNat 64 (x.toNat / 2 ^ n.toNat + x.toNat * 2 ^ (64 - n.toNat))
  | .min h d a b false => two h d a b fun x y => if x.toInt < y.toInt then x else y
  | .min h d a b true => two h d a b fun x y => if x.toNat < y.toNat then x else y
  | .max h d a b false => two h d a b fun x y => if x.toInt < y.toInt then y else x
  | .max h d a b true => two h d a b fun x y => if x.toNat < y.toNat then y else x
  | .movi h d zx imm => some (h, d, [], fun _ => if zx then BitVec.ofNat 64 imm.toNat else BitVec.ofInt 64 imm.toInt)
  | .movh h d a imm => one h d a fun x => BitVec.ofNat 64 (imm.toNat * 2 ^ 32 + x.toNat % 2 ^ 32)
  | .lea h d imm => some (h, d, [], fun _ => BitVec.ofInt 64 (s.th.pc.toInt + imm.toInt))
  | .bits h d a .pop => one h d a fun x => BitVec.ofNat 64 ((List.range 64).filter fun i => x.getLsbD i).length
  | .bits h d a .clz => one h d a fun x => BitVec.ofNat 64 ((List.range 64).takeWhile fun i => !x.getLsbD (63 - i)).length
  | .bits h d a .ctz => one h d a fun x => BitVec.ofNat 64 ((List.range 64).takeWhile fun i => !x.getLsbD i).length
  | .bits h d a .rev => one h d a fun x => BitVec.ofNat 64 (((List.range 64).map fun i => if x.getLsbD (63 - i) then 2 ^ i else 0).sum)
  | .ext h d a false pos wm1 => one h d a fun x => BitVec.ofNat 64 (fieldAt pos.toNat (wm1.toNat + 1) x)
  | .ext h d a true pos wm1 => one h d a fun x =>
      let f := fieldAt pos.toNat (wm1.toNat + 1) x
      BitVec.ofInt 64 (if 2 ^ wm1.toNat ≤ f then (f : Int) - 2 ^ (wm1.toNat + 1) else f)
  | .ins h d a b pos wm1 => two h d a b fun x y =>
      BitVec.ofNat 64 (y.toNat - fieldAt pos.toNat (wm1.toNat + 1) y * 2 ^ pos.toNat +
        x.toNat % 2 ^ (wm1.toNat + 1) * 2 ^ pos.toNat)
  | .plogGet h d => some (h, d, [], fun _ =>
      BitVec.ofNat 64 (((List.range 16).map fun i => if s.th.p i then 2 ^ i else 0).sum))
  | _ => none
where
  one (h : Head) (d a : Fld) (f : Word → Word) := some (h, d, [a], fun (xs : List Word) => f (xs.getD 0 0#64))
  two (h : Head) (d a b : Fld) (f : Word → Word → Word) :=
    some (h, d, [a, b], fun (xs : List Word) => f (xs.getD 0 0#64) (xs.getD 1 0#64))

/-- The instruction divides: its second operand may not be 0 (R265). -/
def divides : Instr → Option (Head × Fld × Fld × Fld)
  | .div h d a b | .divu h d a b | .rem h d a b | .remu h d a b => some (h, d, a, b)
  | _ => none

/-- A condition of cmp on integers (R267). -/
def condHolds (c : Cond) (x y : Word) : Prop :=
  match c with
  | .eq => x.toNat = y.toNat
  | .ne => x.toNat ≠ y.toNat
  | .lt => x.toInt < y.toInt
  | .ge => y.toInt ≤ x.toInt
  | .ltu => x.toNat < y.toNat
  | .geu => y.toNat ≤ x.toNat
  | .tst => ∃ i, i < 64 ∧ x.getLsbD i = true ∧ y.getLsbD i = true

/-- The machine after an instruction has written predicate n. -/
def withPred (s : State) (n : Nat) (v : Bool) : State := (s.modTh fun t => t.setP n v).finish .fall

end Sys2Proof.Claims

/-- R263 to R272: with its operands readable, its destination writable and, for a division, a divisor other than 0, an
integer instruction completes with the value of the table written to its destination. -/
def Obligations.IntegerResults : Prop :=
  ∀ (s s₁ s₂ : State) (i : Instr) (h : Head) (d : Fld) (srcs : List Fld) (f : List Word → Word) (xs : List Word),
    intResult s i = some (h, d, srcs, f) → Issues s h → FieldsOk s ((.ws, d) :: fieldsAs .rs srcs) →
    readAll srcs s = .ok (xs, s₁) → ((divides i).isSome = true → xs.getD 1 0#64 ≠ 0#64) →
    writeS d (f xs) s₁ = .ok ((), s₂) → exec i s = .next (s₂.finish .fall)

/-- A zero divisor traps with cause 0xC5 and changes no operand: a full bit or queue entry taken is given back (R223, R265).
The most negative number divided by −1 is itself, with remainder 0, and neither raises a cause (R265). -/
def Sys2Proof.Claims.DivisionByZero : Prop :=
  ∀ (s s₁ s₂ : State) (i : Instr) (h : Head) (d a b : Fld) (x : Word),
    Issues s h → FieldsOk s [(.ws, d), (.rs, a), (.rs, b)] →
    (divides i = some (h, d, a, b) → readAll [a, b] s = .ok ([x, 0#64], s₁) →
      exec i s = .next (s.takeTrap s.cur 0xC5#8 0#64 0#5)) ∧
    (readAll [a, b] s = .ok ([0x8000000000000000#64, 0xFFFFFFFFFFFFFFFF#64], s₁) →
      (writeS d 0x8000000000000000#64 s₁ = .ok ((), s₂) → exec (.div h d a b) s = .next (s₂.finish .fall)) ∧
      (writeS d 0#64 s₁ = .ok ((), s₂) → exec (.rem h d a b) s = .next (s₂.finish .fall)))

/-- R267, R272: cmp, cmpi and plog write one predicate, p0 excepted, which reads 1 always; plog.set replaces them all. -/
def Sys2Proof.Claims.PredicateResults : Prop :=
  (∀ (s s₁ : State) (h : Head) (d a b : Fld) (c : Cond) (x y : Word) (v : Bool), Issues s h →
    FieldsOk s [(.pred, d), (.rs, a), (.rs, b)] → readAll [a, b] s = .ok ([x, y], s₁) → (v = true ↔ condHolds c x y) →
    exec (.cmp h d a b c) s = .next (withPred s₁ d.spec.toNat v)) ∧
  (∀ (s s₁ : State) (h : Head) (d a : Fld) (c : Cond) (imm : BitVec 16) (x y : Word) (v : Bool), Issues s h →
    FieldsOk s [(.pred, d), (.rs, a)] → readS a s = .ok (x, s₁) →
    y = (if c = .ltu ∨ c = .geu ∨ c = .tst then BitVec.ofNat 64 imm.toNat else BitVec.ofInt 64 imm.toInt) →
    (v = true ↔ condHolds c x y) → exec (.cmpi h d a c imm) s = .next (withPred s₁ d.spec.toNat v)) ∧
  (∀ (s : State) (h : Head) (d a b : Fld) (tbl : BitVec 4), Issues s h → FieldsOk s (fieldsAs .pred [d, a, b]) →
    exec (.plog h d a b tbl) s = .next (withPred s d.spec.toNat
      (tbl.getLsbD (2 * (s.th.p a.spec.toNat).toNat + (s.th.p b.spec.toNat).toNat)))) ∧
  (∀ (s s₁ : State) (h : Head) (a : Fld) (x : Word), Issues s h → FieldsOk s [(.rs, a)] → readS a s = .ok (x, s₁) →
    ∃ t, exec (.plogSet h a) s = .next t ∧ (∀ n, 1 ≤ n → n < 16 → t.th.p n = x.getLsbD n) ∧ t.th.p 0 = true) ∧
  (∀ (t : Thread) (n m : Nat) (v : Bool), n < 16 → m < 16 → (t.setP n v).p m = if m = n ∧ n ≠ 0 then v else t.p m)

/-- sel moves the value and the tangents of the operand its predicate chooses; a tangent the instruction is not dual for is
written as +0 (R130, R131, R268). -/
def Sys2Proof.Claims.SelectResult : Prop :=
  ∀ (s s₁ s₂ : State) (h : Head) (d a b : Fld) (p : BitVec 4) (neg : Bool) (x y : Word) (ts : List Word), Issues s h →
    FieldsOk s [(.ws, d), (.rs, a), (.rs, b)] → readAll [a, b] s = .ok ([x, y], s₁) →
    let c := if s.th.p p.toNat = neg then b else a
    ts.length = s.th.k → (∀ j, j < s.th.k → ts.getD j 0#64 =
      if j ∈ s.th.sel ∧ c.spec.toNat < 0x80 then s.th.gT j c.spec.toNat else 0#64) →
    writeST d (if s.th.p p.toNat = neg then y else x) ts s₁ = .ok ((), s₂) →
    exec (.sel h d a b p neg) s = .next (s₂.finish .fall)

/-! ### Floating-point values -/

namespace Sys2Proof.Claims

/-- A format of scalar arithmetic. -/
def arith (f : FSpec) : Prop := f = fp64 ∨ f = fp32 ∨ f = bf16

/-- The mode moves a magnitude of this sign toward zero, or away from it. -/
def towardZero (rm : RMode) (s : Bool) : Prop := rm = .rtz ∨ (rm = .rup ∧ s = true) ∨ (rm = .rdn ∧ s = false)
def awayFromZero (rm : RMode) (s : Bool) : Prop := (rm = .rup ∧ s = false) ∨ (rm = .rdn ∧ s = true)

/-- The magnitude m · 2^e, and the number a finite value stands for. -/
noncomputable def mag (m : Nat) (e : Int) : ℝ := (m : ℝ) * (2 : ℝ) ^ e
noncomputable def num : FVal → ℝ
  | .fin s m e => if s then -mag m e else mag m e
  | _ => 0

/-- r is the pattern and are the exceptions of the number of sign s and magnitude v > 0 rounded to a format (R21, R24): toward zero
the largest finite magnitude that is not above it, away from zero the smallest that is not below it, and to nearest the closest,
of two equally close the even one; inexact when it is not the number itself, and underflow when that is so and the number rounded
without a least exponent is below the normal ones; a number that rounds beyond the finite ones overflows. -/
def IsRound (f : FSpec) (rm : RMode) (s : Bool) (v : ℝ) (r : Nat × Flags) : Prop :=
  let finite (p n : Nat) (k : Int) : Prop := p < 2 ^ f.width ∧ decodeF f p = .fin s n k
  let mb : Int := f.mb
  let top : Int := f.bias
  let beyond : Prop := (towardZero rm s ∧ mag 1 (top + 1) ≤ v) ∨ (awayFromZero rm s ∧ mag (2 ^ (f.mb + 1) - 1) (top - mb) < v) ∨
    (rm = .rne ∧ mag (2 ^ (f.mb + 2) - 1) (top - mb - 1) ≤ v)
  let tiny : Prop := (towardZero rm s ∧ v < mag 1 f.emin) ∨
    (awayFromZero rm s ∧ v ≤ mag (2 ^ (f.mb + 1) - 1) (f.emin - mb - 1)) ∨
    (rm = .rne ∧ v < mag (2 ^ (f.mb + 2) - 1) (f.emin - mb - 2))
  (r.2 &&& fOF ≠ 0#5 ↔ beyond) ∧ r.2 &&& (fNV ||| fDZ) = 0#5 ∧
  (beyond → r.2 &&& fNX ≠ 0#5 ∧ r.2 &&& fUF = 0#5 ∧ (towardZero rm s → r.1 = maxPat f s) ∧
    (rm = .rne ∨ awayFromZero rm s → r.1 = infPat f s)) ∧
  (¬beyond → ∃ n k, finite r.1 n k ∧
    (r.2 &&& fNX ≠ 0#5 ↔ mag n k ≠ v) ∧ (r.2 &&& fUF ≠ 0#5 ↔ mag n k ≠ v ∧ tiny) ∧
    (towardZero rm s → mag n k ≤ v ∧ ∀ p n' k', finite p n' k' → mag n' k' ≤ v → mag n' k' ≤ mag n k) ∧
    (awayFromZero rm s → v ≤ mag n k ∧ ∀ p n' k', finite p n' k' → v ≤ mag n' k' → mag n k ≤ mag n' k') ∧
    (rm = .rne → ∀ p n' k', finite p n' k' →
      |mag n k - v| ≤ |mag n' k' - v| ∧ (|mag n k - v| = |mag n' k' - v| → p ≠ r.1 → r.1 % 2 = 0)))

/-- r is the number v rounded, and for v = 0 the zero of the sign given with no exception. -/
def Rounds (f : FSpec) (rm : RMode) (v : ℝ) (zs : Bool) (r : Nat × Flags) : Prop :=
  (v < 0 → IsRound f rm true (-v) r) ∧ (0 < v → IsRound f rm false v r) ∧ (v = 0 → r = (zeroPat f zs, 0#5))

/-- The sign of an exact zero sum: that of both terms where they agree, else minus only when rounding down (IEEE 754-2019). -/
def sumSign (rm : RMode) (s t : Bool) : Bool := if s = t then s else decide (rm = .rdn)

end Sys2Proof.Claims

/-- R21, R24, R274: an exact magnitude is rounded as its mode says, once; the result of add, sub, mul, fma, div and sqrt on finite
operands is that of the exact sum, difference, product, product and sum, quotient and root. -/
def Sys2Proof.Claims.RoundingDirection : Prop :=
  (∀ (f : FSpec) (rm : RMode) (s : Bool) (m : Nat) (e : Int), arith f → 0 < m → IsRound f rm s (mag m e) (roundFin f rm s m e)) ∧
  ∀ (f : FSpec) (rm : RMode) (a b c : Nat) (s t u : Bool) (m n l : Nat) (i j k : Int), arith f →
    decodeF f a = .fin s m i → decodeF f b = .fin t n j → decodeF f c = .fin u l k →
    let x := num (.fin s m i)
    let y := num (.fin t n j)
    let z := num (.fin u l k)
    Rounds f rm (x + y) (sumSign rm s t) (fop f rm .add a b c) ∧
    Rounds f rm (x - y) (sumSign rm s (!t)) (fop f rm .sub a b c) ∧
    Rounds f rm (x * y) (s != t) (fop f rm .mul a b c) ∧
    Rounds f rm (x * y + z) (sumSign rm (s != t) u) (fop f rm .fma a b c) ∧
    (0 < n → Rounds f rm (x / y) (s != t) (fop f rm .div a b c)) ∧
    (s = false ∨ m = 0 → Rounds f rm (Real.sqrt x) s (fop f rm .sqrt a b c))

/-- R25, R274, R275: a NaN operand propagates, quieted, and only a signalling one raises invalid; ∞ − ∞, 0 · ∞, 0 / 0, ∞ / ∞ and
the root of a negative number give the default NaN with invalid, but fma gives a NaN c, quieted, with the invalid of 0 · ∞; a
finite number over 0 is infinite and raises division by zero; other results with an infinity are exact, and so is the root of −0;
fmin and fmax choose an operand and leave it as it is, a where they are equal, +0 and −0 among them. -/
def Sys2Proof.Claims.SpecialValues : Prop :=
  ∀ (f : FSpec) (rm : RMode) (a b c : Nat), arith f →
    let x := decodeF f a
    let y := decodeF f b
    let z := decodeF f c
    let invalid := (dNaN f, fNV)
    let sig (q : Bool) : Flags := if q then fNV else 0#5
    -- NaN operands
    (x.isNaN = true → ∀ o, o = .add ∨ o = .sub ∨ o = .mul ∨ o = .div ∨ o = .sqrt →
      fop f rm o a b 0 = (quiet f a, sig (x.isSig || (o != .sqrt && y.isSig)))) ∧
    (x.isNaN = false → y.isNaN = true → ∀ o, o = .add ∨ o = .sub ∨ o = .mul ∨ o = .div →
      fop f rm o a b 0 = (quiet f b, sig y.isSig)) ∧
    (x.isNaN = true → fop f rm .fma a b c = (quiet f a, sig (x.isSig || y.isSig || z.isSig))) ∧
    (x.isNaN = false → y.isNaN = true → fop f rm .fma a b c = (quiet f b, sig (y.isSig || z.isSig))) ∧
    -- invalid operations
    (∀ s, x = .inf s → y = .inf (!s) → fop f rm .add a b 0 = invalid) ∧
    (∀ s, x = .inf s → y = .inf s → fop f rm .sub a b 0 = invalid) ∧
    (∀ s, x = .inf s → y.isZero = true → fop f rm .mul a b 0 = invalid ∧ fop f rm .mul b a 0 = invalid ∧
      fop f rm .fma a b c = (if z.isNaN then quiet f c else dNaN f, fNV) ∧
      fop f rm .fma b a c = (if z.isNaN then quiet f c else dNaN f, fNV)) ∧
    (∀ s t, x = .inf s → y = .inf t → fop f rm .div a b 0 = invalid) ∧
    (x.isZero = true → y.isZero = true → fop f rm .div a b 0 = invalid) ∧
    (∀ m e, x = .fin true m e → 0 < m → fop f rm .sqrt a b 0 = invalid) ∧
    (x = .inf true → fop f rm .sqrt a b 0 = invalid) ∧
    (∀ s t, x = .inf s → y.isNaN = false → y.isZero = false → z = .inf t → (s != y.sign) ≠ t → fop f rm .fma a b c = invalid) ∧
    -- a NaN c beside a product that is none
    (x.isNaN = false → y.isNaN = false → z.isNaN = true → ¬(x.isFin = false ∧ y.isZero = true) → ¬(x.isZero = true ∧ y.isFin = false) →
      fop f rm .fma a b c = (quiet f c, sig z.isSig)) ∧
    -- exact results
    (∀ s m e, x = .fin s m e → 0 < m → y.isZero = true → fop f rm .div a b 0 = (infPat f (s != y.sign), fDZ)) ∧
    (∀ s, x = .inf s → y.isFin = true → fop f rm .add a b 0 = (infPat f s, 0#5) ∧ fop f rm .add b a 0 = (infPat f s, 0#5) ∧
      fop f rm .sub a b 0 = (infPat f s, 0#5) ∧ fop f rm .sub b a 0 = (infPat f (!s), 0#5) ∧
      fop f rm .div a b 0 = (infPat f (s != y.sign), 0#5) ∧ fop f rm .div b a 0 = (zeroPat f (y.sign != s), 0#5) ∧
      (y.isZero = false → fop f rm .mul a b 0 = (infPat f (s != y.sign), 0#5) ∧ fop f rm .mul b a 0 = (infPat f (y.sign != s), 0#5))) ∧
    (x = .inf false → fop f rm .sqrt a b 0 = (infPat f false, 0#5)) ∧
    (∀ s m e, x = .fin s m e → m = 0 → fop f rm .sqrt a b 0 = (zeroPat f s, 0#5)) ∧
    -- order, and the choice of fmin and fmax
    (∀ s m e t n k, x = .fin s m e → y = .fin t n k → (cmpV x y = .lt ↔ num x < num y) ∧ (cmpV x y = .eq ↔ num x = num y)) ∧
    (∀ s, x = .inf s → y.isFin = true → cmpV x y = (if s then .lt else .gt) ∧ cmpV y x = (if s then .gt else .lt)) ∧
    (∀ mn : Bool, fop f rm (if mn then .min else .max) a b 0 =
      (if x.isNaN && y.isNaN then quiet f a else if x.isNaN then b else if y.isNaN then a
        else if cmpV x y = .eq ∨ cmpV x y = (if mn then .lt else .gt) then a else b, sig (x.isSig || y.isSig)))

/-! ### Scalar floating point -/

namespace Sys2Proof.Claims

/-- A scalar floating-point instruction: header, destination, sources, format, and for sources x (number, pattern) its result
with the exceptions; its tangent from sources, their tangents and the result. -/
structure FpIns where
  h : Head
  d : Fld
  srcs : List Fld
  val : (Nat → Word) → Word × Flags
  tan : (Nat → Word) → (Nat → Word) → Word → Word

/-- The low bits of a register a format reads. -/
def low (f : FSpec) (x : Word) : Nat := x.toNat % 2 ^ f.width

def fpIns (s : State) : Instr → Option FpIns
  | .fadd h d a b t rc => some (arithIns .add h d [a, b] t (s.th.rmode rc))
  | .fsub h d a b t rc => some (arithIns .sub h d [a, b] t (s.th.rmode rc))
  | .fmul h d a b t rc => some (arithIns .mul h d [a, b] t (s.th.rmode rc))
  | .fma h d a b c t rc => some (arithIns .fma h d [a, b, c] t (s.th.rmode rc))
  | .fdiv h d a b t rc => some (arithIns .div h d [a, b] t (s.th.rmode rc))
  | .fsqrt h d a t rc => some (arithIns .sqrt h d [a] t (s.th.rmode rc))
  | .fmin h d a b t => some (arithIns .min h d [a, b] t (s.th.rmode .dyn))
  | .fmax h d a b t => some (arithIns .max h d [a, b] t (s.th.rmode .dyn))
  | .fsgn h d a b t op => some
      { h := h, d := d, srcs := if op = .neg ∨ op = .abs then [a] else [a, b]
        val := fun x => (BitVec.ofNat 64 (fSgn (ftySpec t) op (low (ftySpec t) (x 0)) (low (ftySpec t) (x 1))), 0#5)
        tan := fun x y q =>
          let f := ftySpec t
          if signBit f q.toNat = signBit f (low f (x 0)) then BitVec.ofNat 64 (low f (y 0))
          else BitVec.ofNat 64 (fSgn f .neg (low f (y 0)) 0) }
  | .fcvt h d a tgt src rc => some
      { h := h, d := d, srcs := [a]
        val := fun x => (placeS tgt (cv s tgt src rc (x 0)).1, (cv s tgt src rc (x 0)).2)
        tan := fun _ y _ => if (fspec? tgt).isSome then BitVec.ofNat 64 (cv s tgt src rc (y 0)).1 else 0#64 }
  | .fcvti h d a tgt src rc => some
      { h := h, d := d, srcs := [a]
        val := fun x =>
          let r := cvtIntegral (ftySpec src) (ftySpec tgt) (s.th.rmode rc) (low (ftySpec src) (x 0))
          (BitVec.ofNat 64 r.1, r.2)
        tan := fun _ _ _ => 0#64 }
  | _ => none
where
  cv (s : State) (tgt src : Fmt) (rc : Rc) (x : Word) : Nat × Flags :=
    cvt src tgt (s.th.rmode rc) s.th.sat8 (x.toNat % 2 ^ fmtWidth src)
  arithIns (o : FOp) (h : Head) (d : Fld) (srcs : List Fld) (t : FTy) (rm : RMode) : FpIns :=
    let f := ftySpec t
    { h := h, d := d, srcs := srcs
      val := fun x =>
        let r := fop f rm o (low f (x 0)) (low f (x 1)) (low f (x 2))
        (BitVec.ofNat 64 r.1, r.2)
      tan := fun x y q => BitVec.ofNat 64
        (fopTan f rm o (low f (x 0)) (low f (x 1)) (low f (x 2)) (low f (y 0)) (low f (y 1)) (low f (y 2)) q.toNat) }

/-- Flags accrue in fpflags (R23). -/
def withFlags (s : State) (fl : Flags) : State := s.modTh fun t => { t with fpflags := t.fpflags ||| fl }

/-- The cause of the lowest of the exceptions given (R24, R203): invalid, division by zero, overflow, underflow, inexact. -/
def fpCause (fl : Flags) : Option Byte :=
  if fl.getLsbD 4 then some 0xC0#8 else if fl.getLsbD 3 then some 0xC1#8 else if fl.getLsbD 2 then some 0xC2#8
  else if fl.getLsbD 1 then some 0xC3#8 else if fl.getLsbD 0 then some 0xC4#8 else none

end Sys2Proof.Claims

/-- R24, R130 to R132, R273 to R278: a scalar floating-point instruction whose exceptions are not enabled accrues its flags
and writes its result, with each tangent the thread carries computed where the instruction is dual and +0 elsewhere. -/
def Obligations.ScalarFloat : Prop :=
  ∀ (s s₁ s₂ : State) (i : Instr) (o : FpIns) (xs ts : List Word), fpIns s i = some o → Issues s o.h →
    FieldsOk s ((.ws, o.d) :: fieldsAs .rs o.srcs) → readAll o.srcs s = .ok (xs, s₁) →
    let r := o.val fun n => xs.getD n 0#64
    fpCause (r.2 &&& s.th.enables) = none →
    ts.length = s.th.k → (∀ j, j < s.th.k → ts.getD j 0#64 =
      if j ∈ s.th.sel then o.tan (fun n => xs.getD n 0#64)
        (fun n => match o.srcs[n]? with | some f => if f.spec.toNat < 0x80 then s.th.gT j f.spec.toNat else 0#64 | none => 0#64) r.1
      else 0#64) →
    writeST o.d r.1 ts (withFlags s₁ r.2) = .ok ((), s₂) → exec i s = .next (s₂.finish .fall)

/-- R24, R201: an enabled exception traps with the lowest cause among those enabled and tval 1; the destination is as it was. The
flags of all the exceptions raised are set, those that are not enabled too: the model's reading (log 21). -/
def Sys2Proof.Claims.ScalarFloatTraps : Prop :=
  ∀ (s s₁ : State) (i : Instr) (o : FpIns) (xs : List Word) (c : Byte), fpIns s i = some o → Issues s o.h →
    FieldsOk s ((.ws, o.d) :: fieldsAs .rs o.srcs) → readAll o.srcs s = .ok (xs, s₁) →
    let r := o.val fun n => xs.getD n 0#64
    fpCause (r.2 &&& s.th.enables) = some c → exec i s = .next (s.takeTrap s.cur c 1#64 r.2)

/-- R23, R276: fcmp writes a predicate: eq, lt and the rest are false on an unordered pair but for ne and un; the ordering
conditions raise invalid on any NaN, the others on a signalling one. -/
def Sys2Proof.Claims.ScalarCompare : Prop :=
  ∀ (s s₁ : State) (h : Head) (d a b : Fld) (t : FTy) (c : FCond) (x y : Word), Issues s h →
    FieldsOk s [(.pred, d), (.rs, a), (.rs, b)] → readAll [a, b] s = .ok ([x, y], s₁) →
    let f := ftySpec t
    let u := decodeF f (low f x)
    let v := decodeF f (low f y)
    let un := u.isNaN || v.isNaN
    let ord := c == .lt || c == .le || c == .gt || c == .ge
    let fl : Flags := if u.isSig || v.isSig || (ord && un) then fNV else 0#5
    let r : Bool := match c with
      | .un => un
      | .ord => !un
      | .eq => !un && cmpV u v == .eq
      | .ne => un || cmpV u v != .eq
      | .lt => !un && cmpV u v == .lt
      | .le => !un && (cmpV u v == .lt || cmpV u v == .eq)
      | .gt => !un && cmpV u v == .gt
      | .ge => !un && (cmpV u v == .gt || cmpV u v == .eq)
    (fl &&& s.th.enables = 0#5 → exec (.fcmp h d a b t c) s = .next (withPred (withFlags s₁ fl) d.spec.toNat r)) ∧
    (fl &&& s.th.enables ≠ 0#5 → exec (.fcmp h d a b t c) s = .next (s.takeTrap s.cur 0xC0#8 1#64 fl))

/-! ### Vectors -/

namespace Sys2Proof.Claims

/-- A lane-wise vector instruction: header, destination, sources, mask, the widths of source and target lanes, the lanes it
writes under a mask, and from the lanes of its sources (source, lane) the value of a lane with its exceptions. -/
structure LaneIns where
  h : Head
  d : Fld
  srcs : List Fld
  m : BitVec 3
  ws : Nat
  wt : Nat
  writes : (Nat → Bool) → Nat → Bool
  val : (Nat → Nat → Nat) → Nat → Nat × Flags

/-- The value of an integer lane of a format. -/
def laneInt (t : Fmt) (x : Nat) : Int :=
  match intFmt? t with
  | some (w, true) => if 2 ^ (w - 1) ≤ x then (x : Int) - 2 ^ w else x
  | _ => x

/-- A result clamped to the range of a format's signedness, or wrapped (R20, R291). -/
def narrow (t : Fmt) (sat : Bool) (x : Int) : Nat :=
  let w := fmtWidth t
  let sgn := match intFmt? t with | some (_, b) => b | none => false
  let lo : Int := if sgn then -2 ^ (w - 1) else 0
  let hi : Int := if sgn then 2 ^ (w - 1) - 1 else 2 ^ w - 1
  ((if sat then (if x < lo then lo else if hi < x then hi else x) else x) % 2 ^ w).toNat

/-- The lane-wise instructions of R282 to R287, R290 and R291. -/
def laneIns (s : State) : Instr → Option LaneIns
  | .vadd h d a b m t rc => some (fl .add h d [a, b] m t (s.th.rmode rc))
  | .vsub h d a b m t rc => some (fl .sub h d [a, b] m t (s.th.rmode rc))
  | .vmul h d a b m t rc => some (fl .mul h d [a, b] m t (s.th.rmode rc))
  | .vfma h d a b c m t rc => some (fl .fma h d [a, b, ⟨c, false⟩] m t (s.th.rmode rc))
  | .vdiv h d a b m t rc => some (fl .div h d [a, b] m t (s.th.rmode rc))
  | .vsqrt h d a m t rc => some (fl .sqrt h d [a] m t (s.th.rmode rc))
  | .vmin h d a b m t => some (fl .min h d [a, b] m t (s.th.rmode .dyn))
  | .vmax h d a b m t => some (fl .max h d [a, b] m t (s.th.rmode .dyn))
  | .vfsgn h d a b m t op => some ⟨h, d, if op = .neg ∨ op = .abs then [a] else [a, b], m, (ftySpec t).width,
      (ftySpec t).width, fun act i => act i, fun x i => (fSgn (ftySpec t) op (x 0 i) (x 1 i), 0#5)⟩
  | .vcvt h d a m tgt src q rc =>
      let nt := 512 / fmtWidth tgt
      let ns := 512 / fmtWidth src
      -- part q of the wider lane count
      let from' (i : Nat) : Option Nat :=
        if ns = nt then some i else if nt < ns then some (q.toNat * nt + i)
        else if q.toNat * ns ≤ i ∧ i < q.toNat * ns + ns then some (i - q.toNat * ns) else none
      some ⟨h, d, [a], m, fmtWidth src, fmtWidth tgt, fun act i => act i && (from' i).isSome,
        fun x i => cvt src tgt (s.th.rmode rc) s.th.sat8 (x 0 ((from' i).getD 0))⟩
  | .vmov h d a m t => some (move h d [a] m t fun _ i => i)
  | .vperm h d a b m t => some (move h d [a, b] m t fun x i => x 1 i % (512 / fmtWidth t))
  | .vbcast h d a m t k => some (move h d [a] m t fun _ _ => k.toNat)
  | .viadd h d a b m t sat => some (int h d [a, b] m t fun x i => narrow t sat (laneInt t (x 0 i) + laneInt t (x 1 i)))
  | .visub h d a b m t sat => some (int h d [a, b] m t fun x i => narrow t sat (laneInt t (x 0 i) - laneInt t (x 1 i)))
  | .vimul h d a b m t => some (int h d [a, b] m t fun x i => x 0 i * x 1 i % 2 ^ fmtWidth t)
  | .vlog h d a b m t op => some (int h d [a, b] m t fun x i => match op with
      | .and => x 0 i &&& x 1 i
      | .or => x 0 i ||| x 1 i
      | .xor => x 0 i ^^^ x 1 i
      | .andn => x 0 i - (x 0 i &&& x 1 i))
  | .vsh h d a b m t op =>
      let w := fmtWidth t
      some (int h d [a, b] m t fun x i =>
        let n := x 1 i % w
        match op with
        | .ll => x 0 i * 2 ^ n % 2 ^ w
        | .rl => x 0 i / 2 ^ n
        | .ra => (((if 2 ^ (w - 1) ≤ x 0 i then (x 0 i : Int) - 2 ^ w else x 0 i) / 2 ^ n) % 2 ^ w).toNat
        | .rot => (x 0 i / 2 ^ n + x 0 i * 2 ^ (w - n)) % 2 ^ w)
  | .viota h d m t => some (int h d [] m t fun _ i => i % 2 ^ fmtWidth t)
  | _ => none
where
  fl (o : FOp) (h : Head) (d : Fld) (srcs : List Fld) (m : BitVec 3) (t : FTy) (rm : RMode) : LaneIns :=
    ⟨h, d, srcs, m, (ftySpec t).width, (ftySpec t).width, fun act i => act i,
      fun x i => fop (ftySpec t) rm o (x 0 i) (x 1 i) (x 2 i)⟩
  move (h : Head) (d : Fld) (srcs : List Fld) (m : BitVec 3) (t : Fmt) (g : (Nat → Nat → Nat) → Nat → Nat) : LaneIns :=
    ⟨h, d, srcs, m, fmtWidth t, fmtWidth t, fun act i => act i, fun x i => (x 0 (g x i), 0#5)⟩
  int (h : Head) (d : Fld) (srcs : List Fld) (m : BitVec 3) (t : Fmt) (g : (Nat → Nat → Nat) → Nat → Nat) : LaneIns :=
    ⟨h, d, srcs, m, fmtWidth t, fmtWidth t, fun act i => act i, fun x i => (g x i, 0#5)⟩

/-- Vector operands can be read: the fields and the mask name registers the thread has, and none holds a soft error. -/
structure VecReady (s : State) (d : Fld) (srcs : List Fld) (m : BitVec 3) : Prop where
  fields : FieldsOk s ((.vec, d) :: fieldsAs .vec srcs)
  mask : m ≠ 0#3 → m.toNat < s.th.V
  sound : s.th.regErr = []

/-- Lane i of source k of an instruction. -/
def lane (s : State) (srcs : List Fld) (w k i : Nat) : Nat :=
  match srcs[k]? with
  | some f => (s.th.vR f.spec.toNat).toNat / 2 ^ (w * i) % 2 ^ w
  | none => 0

/-- Bit i of a mask operand; m0 is every bit. -/
def active (s : State) (m : BitVec 3) (i : Nat) : Bool := m == 0#3 || (s.th.vR m.toNat).getLsbD i

/-- The exceptions all written lanes raise together, and lane by lane those equal to one of them. -/
def allFlags (n : Nat) (w : Nat → Bool) (f : Nat → Flags) : Flags :=
  (List.range n).foldl (fun x i => if w i then x ||| f i else x) 0#5
def raising (n : Nat) (w : Nat → Bool) (f : Nat → Flags) (bit : Nat) : Nat :=
  ((List.range n).map fun i => if w i && (f i).getLsbD bit then 2 ^ i else 0).sum

/-- The exceptions of the lanes an instruction writes, together. -/
def laneFlagsOf (s : State) (o : LaneIns) : Flags :=
  allFlags (512 / o.wt) (o.writes (active s o.m)) fun j => (o.val (lane s o.srcs o.ws) j).2

/-- Lane i of register n of a thread holds x. -/
def laneIs (t : Thread) (n w i x : Nat) : Prop := (t.vR n).toNat / 2 ^ (w * i) % 2 ^ w = x

end Sys2Proof.Claims

/-- R20, R279, R281 to R287, R290, R291: active lanes of the destination take their values, every other lane is kept, and
the exceptions of active lanes accrue; nothing else is changed but the tangents and the bound of the destination. -/
def Obligations.VectorLanes : Prop :=
  ∀ (s : State) (i : Instr) (o : LaneIns), laneIns s i = some o → WellFormed.instr i = true → Issues s o.h →
    VecReady s o.d o.srcs o.m →
    let x := lane s o.srcs o.ws
    let w := o.writes (active s o.m)
    let n := 512 / o.wt
    let all := allFlags n w fun j => (o.val x j).2
    fpCause (all &&& s.th.enables) = none →
    ∃ t, exec i s = .next t ∧
      (∀ j, j < n → laneIs t.th o.d.spec.toNat o.wt j
        (if w j then (o.val x j).1 % 2 ^ o.wt else (s.th.vR o.d.spec.toNat).toNat / 2 ^ (o.wt * j) % 2 ^ o.wt)) ∧
      t.th.fpflags = s.th.fpflags ||| all ∧ Frame s t ⟨none, none, some o.d.spec.toNat, true, []⟩

/-- R24: an enabled exception of an active lane traps with the lowest cause; tval has a bit for each active lane that raised
it; the flags are set as for a scalar one (log 21). -/
def Sys2Proof.Claims.VectorFloatTraps : Prop :=
  ∀ (s : State) (i : Instr) (o : LaneIns) (c : Byte), laneIns s i = some o → WellFormed.instr i = true → Issues s o.h →
    VecReady s o.d o.srcs o.m →
    let x := lane s o.srcs o.ws
    let w := o.writes (active s o.m)
    let n := 512 / o.wt
    let all := allFlags n w fun j => (o.val x j).2
    fpCause (all &&& s.th.enables) = some c →
    exec i s = .next (s.takeTrap s.cur c (BitVec.ofNat 64 (raising n w (fun j => (o.val x j).2) (0xC4 - c.toNat))) all)

namespace Sys2Proof.Claims

/-- Whether the bound of a result is merged with the old one: under a mask register, and where a conversion fills one part of its
destination (R34, R287). -/
def keepsOld (m : BitVec 3) : Instr → Bool
  | .vcvt _ _ _ _ tgt src _ _ => m != 0#3 || decide (512 / fmtWidth src < 512 / fmtWidth tgt)
  | _ => m != 0#3

/-- max|a|·b_b + max|b|·b_a + b_a·b_b (R36). -/
def boundOfProduct (M : Nat → Mag) (b : Nat → Word32) : Word32 :=
  bSum [bMul (M 0) (b 1), bMul (M 1) (b 0), bMul (magOfBound (b 0)) (b 1)]

/-- max|a′|·b_b + max|b|·b_a′ + b_a′·b_b + max|a|·b_b′ + max|b′|·b_a + b_a·b_b′ + h (R135). -/
def boundOfProductTangent (M M' : Nat → Mag) (b b' : Nat → Word32) (h : Word32) : Word32 :=
  bSum [bMul (M' 0) (b 1), bMul (M 1) (b' 0), bMul (magOfBound (b' 0)) (b 1),
    bMul (M 0) (b' 1), bMul (M' 1) (b 0), bMul (magOfBound (b 0)) (b' 1), h]

/-- Lane l of tangent j of source k. -/
def tanLane (s : State) (srcs : List Fld) (w j k l : Nat) : Nat :=
  match srcs[k]? with
  | some g => (s.th.vT j g.spec.toNat).toNat / 2 ^ (w * l) % 2 ^ w
  | none => 0
/-- The bound of source k, and of its tangent j. -/
def boundOf (s : State) (srcs : List Fld) (k : Nat) : Word32 := match srcs[k]? with | some g => s.th.vB g.spec.toNat | none => 0#32
def tanBoundOf (s : State) (srcs : List Fld) (j k : Nat) : Word32 :=
  match srcs[k]? with | some g => s.th.vTb j g.spec.toNat | none => 0#32

/-- The floating-point operation of an instruction: format, operation and rounding. -/
def laneOp (s : State) : Instr → Option (FSpec × FOp × RMode)
  | .vadd _ _ _ _ _ ty rc => some (ftySpec ty, .add, s.th.rmode rc)
  | .vsub _ _ _ _ _ ty rc => some (ftySpec ty, .sub, s.th.rmode rc)
  | .vmul _ _ _ _ _ ty rc => some (ftySpec ty, .mul, s.th.rmode rc)
  | .vfma _ _ _ _ _ _ ty rc => some (ftySpec ty, .fma, s.th.rmode rc)
  | .vdiv _ _ _ _ _ ty rc => some (ftySpec ty, .div, s.th.rmode rc)
  | .vsqrt _ _ _ _ ty rc => some (ftySpec ty, .sqrt, s.th.rmode rc)
  | .vmin _ _ _ _ _ ty => some (ftySpec ty, .min, s.th.rmode .dyn)
  | .vmax _ _ _ _ _ ty => some (ftySpec ty, .max, s.th.rmode .dyn)
  | _ => none

end Sys2Proof.Claims

/-- R34, R36 to R38, R282, R287, R290, R291: the bound of a vector result; where the old one is kept it is the larger of the two.
The term h of an arithmetic instruction is that of the results of every lane, and max|x| of an operand that of its active lanes: the
model's reading (log 98); that an operand of a division or of a square root counts as exact only with bound 0 is R36, and that the
bound is h then whatever the operands are is the model's reading too (log 42). -/
def Sys2Proof.Claims.VectorBounds : Prop :=
  ∀ (s t : State) (i : Instr) (o : LaneIns), laneIns s i = some o → WellFormed.instr i = true → Issues s o.h →
    VecReady s o.d o.srcs o.m → fpCause (laneFlagsOf s o &&& s.th.enables) = none → exec i s = .next t →
    let n := 512 / o.wt
    let act := fun (g : Nat → Nat) => ((List.range n).filter (active s o.m)).map g
    let x := lane s o.srcs o.ws
    let b := boundOf s o.srcs
    let new (f : FSpec) (op : FOp) : Word32 :=
      let M := fun k => maxMag f (act (x k))
      let h := halfUlp f (maxMag f ((List.range n).map fun j => (o.val x j).1))
      match op with
      | .add | .sub => bSum [b 0, b 1, h]
      | .mul => bAdd (boundOfProduct M b) h
      | .fma => bSum [boundOfProduct M b, b 2, h]
      | .div => if b 0 = 0#32 ∧ b 1 = 0#32 then h else bInf
      | .sqrt => if b 0 = 0#32 then h else bInf
      | .min | .max => bMax (b 0) (b 1)
    let r : Word32 := match laneOp s i with
      | some (f, op, _) => new f op
      | none => match i with
        | .vfsgn _ _ _ _ _ _ op => if op = .neg ∨ op = .abs then b 0 else bMax (b 0) (b 1)
        | .vcvt _ _ _ _ tgt _ _ _ => match fspec? tgt with
          | some f => bAdd (b 0) (halfUlp f (maxMag f
              (((List.range n).filter (o.writes (active s o.m))).map fun j => (o.val x j).1)))
          | none => 0#32
        | .vperm .. => bMax (b 0) (b 1)
        | .vmov .. | .vbcast .. => b 0
        | _ => 0#32
    t.th.vB o.d.spec.toNat = if keepsOld o.m i then bMax (s.th.vB o.d.spec.toNat) r else r

/-- R130 to R132, R135: in a thread that carries tangents, each tangent that a floating-point instruction, a conversion to a
floating-point format or a move is dual for takes in the lanes written the rounded derivative, the converted or the moved lane of
the source's tangent, with the bound of R135; one it is not dual for takes +0 with bound 0, and so does every one of an integer
instruction. The readings of logs 42 and 98 hold of tangents too. -/
def Sys2Proof.Claims.VectorTangents : Prop :=
  ∀ (s t : State) (i : Instr) (o : LaneIns), laneIns s i = some o → WellFormed.instr i = true → Issues s o.h →
    VecReady s o.d o.srcs o.m → fpCause (laneFlagsOf s o &&& s.th.enables) = none → exec i s = .next t →
    let n := 512 / o.wt
    let x := lane s o.srcs o.ws
    let w := o.writes (active s o.m)
    ∀ j, j < s.th.k →
      let y := tanLane s o.srcs o.ws j
      let b := boundOf s o.srcs
      let b' := tanBoundOf s o.srcs j
      -- the tangent of a lane, and its bound
      let r : (Nat → Nat) × Word32 :=
        if j ∉ s.th.sel then (fun _ => 0, 0#32)
        else match laneOp s i with
          | some (f, op, rm) =>
            let d (l : Nat) : Nat := fopTan f rm op (x 0 l) (x 1 l) (x 2 l) (y 0 l) (y 1 l) (y 2 l) (o.val x l).1
            let act := fun (g : Nat → Nat) => ((List.range n).filter (active s o.m)).map g
            let M := fun k => maxMag f (act (x k))
            let M' := fun k => maxMag f (act (y k))
            let h := halfUlp f (maxMag f ((List.range n).map d))
            let flat : Bool := (List.range o.srcs.length).all fun k => (act (y k)).all fun z => (decodeF f z).isZero
            (d, match op with
              | .add | .sub => bSum [b' 0, b' 1, h]
              | .mul => boundOfProductTangent M M' b b' h
              | .fma => bAdd (boundOfProductTangent M M' b b' h) (b' 2)
              | .div | .sqrt => if flat then 0#32 else bInf
              | .min | .max => bMax (b' 0) (b' 1))
          | none => match i with
            | .vfsgn _ _ _ _ _ ty _ =>
              let f := ftySpec ty
              (fun l => if signBit f (o.val x l).1 = signBit f (x 0 l) then y 0 l else fSgn f .neg (y 0 l) 0, b' 0)
            | .vcvt _ _ _ _ tgt _ _ _ => match fspec? tgt with
              | some f =>
                let d (l : Nat) : Nat := (o.val y l).1
                (d, bAdd (b' 0) (halfUlp f (maxMag f (((List.range n).filter w).map d))))
              | none => (fun _ => 0, 0#32)
            | .vmov .. | .vperm .. | .vbcast .. => (fun l => (o.val (fun k l => if k = 0 then y 0 l else x k l) l).1, b' 0)
            | _ => (fun _ => 0, 0#32)
      (∀ l, l < n → (t.th.vT j o.d.spec.toNat).toNat / 2 ^ (o.wt * l) % 2 ^ o.wt =
        if w l then r.1 l % 2 ^ o.wt else (s.th.vT j o.d.spec.toNat).toNat / 2 ^ (o.wt * l) % 2 ^ o.wt) ∧
      t.th.vTb j o.d.spec.toNat = if keepsOld o.m i then bMax (s.th.vTb j o.d.spec.toNat) r.2 else r.2

/-! ### Comparison, choice, reductions -/

namespace Sys2Proof.Claims

/-- The tree of R31 over 2^k leaves from leaf i on: halves added, left below right. -/
def tree (f : FSpec) (rm : RMode) (leaf : Nat → Nat) : Nat → Nat → Nat
  | 0, i => leaf i
  | k + 1, i => (fAdd f rm (tree f rm leaf k i) (tree f rm leaf k (i + 2 ^ k))).1

/-- The running sum of R289 over the lanes of a list of lane numbers. -/
def running (f : FSpec) (rm : RMode) (act : Nat → Bool) (x : Nat → Nat) : Nat → Nat
  | 0 => 0
  | i + 1 => if act i then (fAdd f rm (running f rm act x i) (x i)).1 else running f rm act x i

/-- The tangents of the tree and of the running sum: the same additions, each by R132. -/
def treeTan (f : FSpec) (rm : RMode) (leaf leaf' : Nat → Nat) : Nat → Nat → Nat
  | 0, i => leaf' i
  | k + 1, i => fopTan f rm .add (tree f rm leaf k i) (tree f rm leaf k (i + 2 ^ k)) 0 (treeTan f rm leaf leaf' k i)
      (treeTan f rm leaf leaf' k (i + 2 ^ k)) 0 (tree f rm leaf (k + 1) i)
def runningTan (f : FSpec) (rm : RMode) (act : Nat → Bool) (x x' : Nat → Nat) : Nat → Nat
  | 0 => 0
  | i + 1 => if act i then fopTan f rm .add (running f rm act x i) (x i) 0 (runningTan f rm act x x' i) (x' i) 0
      (running f rm act x (i + 1)) else runningTan f rm act x x' i

/-- The exceptions of a lane of a reduction: its leaf's, and those of the additions of the tree that it feeds (R24). -/
def treeFlags (f : FSpec) (rm : RMode) (leaf : Nat → Nat) (fl : Nat → Flags) (q i : Nat) : Flags :=
  (List.range q).foldl (fun a k =>
    let lo := i / 2 ^ (k + 1) * 2 ^ (k + 1)
    a ||| (fAdd f rm (tree f rm leaf k lo) (tree f rm leaf k (lo + 2 ^ k))).2) (fl i)

/-- B_k := 2·B_(k−1) + h at the largest partial of level k (R36). -/
def treeBound (f : FSpec) (n : Nat) (node : Nat → Nat → Nat) (b : Word32) : Nat → Word32
  | 0 => b
  | k + 1 =>
    let c := treeBound f n node b k
    bSum [bAdd c c, halfUlp f (maxMag f ((List.range (n / 2 ^ (k + 1))).map fun i => node (k + 1) (i * 2 ^ (k + 1))))]
/-- nact·b + (nact − 1)·h at the largest sum (R289). -/
def scanBound (f : FSpec) (n : Nat) (act : Nat → Bool) (sum : Nat → Nat) (b : Word32) : Word32 :=
  let on := (List.range n).filter act
  bAdd (bMul (some (on.length, 0)) b) (bMul (some (on.length - 1, 0)) (halfUlp f (maxMag f (on.map fun i => sum (i + 1)))))

end Sys2Proof.Claims

namespace Sys2Proof.Claims

/-- A reduction, a scan or a comparison: how its lanes are active, and the exceptions of each lane. -/
structure RedIns where
  i : Instr
  n : Nat
  act : Nat → Bool
  fl : Nat → Flags

/-- The exceptions of all its active lanes together. -/
def RedIns.all (r : RedIns) : Flags := allFlags r.n r.act r.fl
/-- It raises no enabled exception. -/
def RedIns.quiet (r : RedIns) (s : State) : Prop := fpCause (r.all &&& s.th.enables) = none

/-- vred, vdot and vscan with their lanes' exceptions (R24): an addition of the tree belongs to every lane below it, a product of vdot
and an addition of vscan to its own lane. -/
def redIns (s : State) (h : Head) (d a b : Fld) (m : BitVec 3) (ty : FTy) (rc : Rc) : RedIns × RedIns × RedIns :=
  let f := ftySpec ty
  let n := 512 / f.width
  let rm := s.th.rmode rc
  let act := active s m
  let x := lane s [a, b] f.width
  (⟨.vred h d a m ty rc, n, act, treeFlags f rm (fun i => if act i then x 0 i else 0) (fun _ => 0#5) (Nat.log2 n)⟩,
   ⟨.vdot h d a b m ty rc, n, act, treeFlags f rm (fun i => if act i then (fMul f rm (x 0 i) (x 1 i)).1 else 0)
      (fun i => (fMul f rm (x 0 i) (x 1 i)).2) (Nat.log2 n)⟩,
   ⟨.vscan h d a m ty rc, n, act, fun i => (fAdd f rm (running f rm act (x 0) i) (x 0 i)).2⟩)

/-- vcmp with its lanes' exceptions. -/
def cmpIns (s : State) (h : Head) (d a b : Fld) (m : BitVec 3) (ty : Fmt) (c : FCond) : RedIns :=
  let x := lane s [a, b] (fmtWidth ty)
  ⟨.vcmp h d a b m ty c, 512 / fmtWidth ty, active s m, fun i => (cmpLane ty c (x 0 i) (x 1 i)).2⟩

end Sys2Proof.Claims

/-- R23, R24, R31, R288, R289: vred and vdot leave the root of the tree in lane 0 and +0 in the others, excluded lanes entering as +0;
vscan leaves the running sum in each active lane and keeps the others; the exceptions of active lanes accrue, and an enabled one
traps with the lowest cause and a bit of tval for each active lane that it belongs to. -/
def Obligations.VectorReductions : Prop :=
  ∀ (s : State) (h : Head) (d a b : Fld) (m : BitVec 3) (ty : FTy) (rc : Rc), Issues s h → VecReady s d [a, b] m →
    let f := ftySpec ty
    let n := 512 / f.width
    let rm := s.th.rmode rc
    let x := lane s [a, b] f.width
    let (red, dot, scan) := redIns s h d a b m ty rc
    (red.quiet s → ∃ t, exec red.i s = .next t ∧ t.th.fpflags = s.th.fpflags ||| red.all ∧
      ∀ j, j < n → laneIs t.th d.spec.toNat f.width j
        (if j = 0 then tree f rm (fun i => if active s m i then x 0 i else 0) (Nat.log2 n) 0 % 2 ^ f.width else 0)) ∧
    (dot.quiet s → ∃ t, exec dot.i s = .next t ∧ t.th.fpflags = s.th.fpflags ||| dot.all ∧
      ∀ j, j < n → laneIs t.th d.spec.toNat f.width j
        (if j = 0 then tree f rm (fun i => if active s m i then (fMul f rm (x 0 i) (x 1 i)).1 else 0) (Nat.log2 n) 0 % 2 ^ f.width
         else 0)) ∧
    (scan.quiet s → ∃ t, exec scan.i s = .next t ∧ t.th.fpflags = s.th.fpflags ||| scan.all ∧
      ∀ j, j < n → laneIs t.th d.spec.toNat f.width j
        (if active s m j then running f rm (active s m) (x 0) (j + 1) % 2 ^ f.width
         else (s.th.vR d.spec.toNat).toNat / 2 ^ (f.width * j) % 2 ^ f.width)) ∧
    ∀ r ∈ [red, dot, scan], ∀ c, fpCause (r.all &&& s.th.enables) = some c →
      exec r.i s = .next (s.takeTrap s.cur c (BitVec.ofNat 64 (raising r.n r.act r.fl (0xC4 - c.toNat))) r.all)

/-- R36, R132, R135, R288, R289: the bound and the tangents of vred, vdot and vscan; the leaves of vdot have the bound of a vmul, with
h at the products of the active lanes (log 98). -/
def Sys2Proof.Claims.ReductionSidecars : Prop :=
  ∀ (s t : State) (h : Head) (d a b : Fld) (m : BitVec 3) (ty : FTy) (rc : Rc), Issues s h → VecReady s d [a, b] m →
    let f := ftySpec ty
    let n := 512 / f.width
    let q := Nat.log2 n
    let rm := s.th.rmode rc
    let act := active s m
    let on (g : Nat → Nat) : List Nat := ((List.range n).filter act).map g
    let x := lane s [a, b] f.width
    let bs := boundOf s [a, b]
    let M := fun k => maxMag f (on (x k))
    let prod (i : Nat) : Nat := (fMul f rm (x 0 i) (x 1 i)).1
    let plain (i : Nat) : Nat := if act i then x 0 i else 0
    let leaf (i : Nat) : Nat := if act i then prod i else 0
    let bdot := bAdd (boundOfProduct M bs) (halfUlp f (maxMag f (on prod)))
    let merged (old r : Word32) : Word32 := if m = 0#3 then r else bMax old r
    let lane0 (v : Vec) (x : Nat) : Prop := ∀ l, l < n → v.toNat / 2 ^ (f.width * l) % 2 ^ f.width = if l = 0 then x % 2 ^ f.width else 0
    let dn := d.spec.toNat
    let (red, dot, scan) := redIns s h d a b m ty rc
    (red.quiet s → exec red.i s = .next t → t.th.vB dn = treeBound f n (tree f rm plain) (bs 0) q) ∧
    (dot.quiet s → exec dot.i s = .next t → t.th.vB dn = treeBound f n (tree f rm leaf) bdot q) ∧
    (scan.quiet s → exec scan.i s = .next t →
      t.th.vB dn = merged (s.th.vB dn) (scanBound f n act (running f rm act (x 0)) (bs 0))) ∧
    ∀ j, j < s.th.k →
      let on' : Bool := s.th.sel.contains j
      let y := tanLane s [a, b] f.width j
      let b' := tanBoundOf s [a, b] j
      let plain' (i : Nat) : Nat := if act i then y 0 i else 0
      let leaf' (i : Nat) : Nat := if act i then fopTan f rm .mul (x 0 i) (x 1 i) 0 (y 0 i) (y 1 i) 0 (prod i) else 0
      let M' := fun k => maxMag f (on (y k))
      let bdot' := boundOfProductTangent M M' bs b' (halfUlp f (maxMag f (on leaf')))
      let sum' := runningTan f rm act (x 0) (y 0)
      (red.quiet s → exec red.i s = .next t →
        lane0 (t.th.vT j dn) (if on' then treeTan f rm plain plain' q 0 else 0) ∧
        t.th.vTb j dn = if on' then treeBound f n (treeTan f rm plain plain') (b' 0) q else 0#32) ∧
      (dot.quiet s → exec dot.i s = .next t →
        lane0 (t.th.vT j dn) (if on' then treeTan f rm leaf leaf' q 0 else 0) ∧
        t.th.vTb j dn = if on' then treeBound f n (treeTan f rm leaf leaf') bdot' q else 0#32) ∧
      (scan.quiet s → exec scan.i s = .next t →
        (∀ l, l < n → (t.th.vT j dn).toNat / 2 ^ (f.width * l) % 2 ^ f.width =
          if act l then (if on' then sum' (l + 1) % 2 ^ f.width else 0)
          else (s.th.vT j dn).toNat / 2 ^ (f.width * l) % 2 ^ f.width) ∧
        t.th.vTb j dn = merged (s.th.vTb j dn) (if on' then scanBound f n act sum' (b' 0) else 0#32))

/-- R23, R24, R284, R285, R292: vcmp writes a mask whose inactive bits are 0 and raises the exceptions of its active lanes, vsel chooses lane by lane by its mask, vmask combines the
low 64 bits and clears the rest. -/
def Sys2Proof.Claims.VectorMasks : Prop :=
  ∀ (s : State) (h : Head) (d a b : Fld) (m : BitVec 3), Issues s h → VecReady s d [a, b] m →
    (∀ (ty : Fmt) (c : FCond), WellFormed.instr (.vcmp h d a b m ty c) = true →
      let r := cmpIns s h d a b m ty c
      (r.quiet s → ∃ t, exec (.vcmp h d a b m ty c) s = .next t ∧ t.th.fpflags = s.th.fpflags ||| r.all ∧ (∀ j, j < 512 →
        ((t.th.vR d.spec.toNat).getLsbD j = (decide (j < 512 / fmtWidth ty) && active s m j &&
          (cmpLane ty c (lane s [a, b] (fmtWidth ty) 0 j) (lane s [a, b] (fmtWidth ty) 1 j)).1))) ∧
        t.th.vB d.spec.toNat = 0#32 ∧ t.th.vt = s.th.vt) ∧
      (∀ q, fpCause (r.all &&& s.th.enables) = some q → exec (.vcmp h d a b m ty c) s =
        .next (s.takeTrap s.cur q (BitVec.ofNat 64 (raising r.n r.act r.fl (0xC4 - q.toNat))) r.all))) ∧
    (∀ ty : Fmt, WellFormed.instr (.vsel h d a b m ty) = true →
      ∃ t, exec (.vsel h d a b m ty) s = .next t ∧ (∀ j, j < 512 / fmtWidth ty → laneIs t.th d.spec.toNat (fmtWidth ty) j
        (lane s [a, b] (fmtWidth ty) (if active s m j then 0 else 1) j)) ∧
        t.th.vB d.spec.toNat = bMax (s.th.vB a.spec.toNat) (s.th.vB b.spec.toNat) ∧
        ∀ q, q < s.th.k →
          (∀ j, j < 512 / fmtWidth ty → (t.th.vT q d.spec.toNat).toNat / 2 ^ (fmtWidth ty * j) % 2 ^ fmtWidth ty =
            if q ∈ s.th.sel then tanLane s [a, b] (fmtWidth ty) q (if active s m j then 0 else 1) j else 0) ∧
          t.th.vTb q d.spec.toNat = if q ∈ s.th.sel then bMax (tanBoundOf s [a, b] q 0) (tanBoundOf s [a, b] q 1) else 0#32) ∧
    (∀ op : MaskOp, ∃ t, exec (.vmask h d a b op) s = .next t ∧ (∀ j, j < 512 →
      ((t.th.vR d.spec.toNat).getLsbD j =
        let p := (s.th.vR a.spec.toNat).getLsbD j
        let q := (s.th.vR b.spec.toNat).getLsbD j
        decide (j < 64) && (match op with | .and => p && q | .or => p || q | .xor => p != q | .andn => p && !q | .not => !p))) ∧
      t.th.vB d.spec.toNat = 0#32)

/-- R16, R290: vext moves one lane to a scalar register, floating values alone and integers extended by their signedness;
vins writes one lane and keeps the others and the larger bound. -/
def Sys2Proof.Claims.VectorScalarMoves : Prop :=
  ∀ (s s₁ s₂ : State) (h : Head) (d a : Fld) (ty : Fmt) (k : BitVec 6), Issues s h → s.th.regErr = [] →
    let w := fmtWidth ty
    (∀ (y : Word) (ts : List Word), FieldsOk s [(.ws, d), (.vec, a)] →
      let x := lane s [a] w 0 k.toNat
      y = (match intFmt? ty with | some _ => BitVec.ofInt 64 (laneInt ty x) | none => BitVec.ofNat 64 x) →
      ts.length = s.th.k → (∀ j, j < s.th.k → j ∉ s.th.sel → ts.getD j 0#64 = 0#64) →
      (∀ j, j ∈ s.th.sel → ts.getD j 0#64 = placeS ty (laneN w (s.th.vT j a.spec.toNat) k.toNat)) →
      writeST d y ts s = .ok ((), s₂) → exec (.vext h d a ty k) s = .next (s₂.finish .fall)) ∧
    (∀ x : Word, WellFormed.instr (.vins h d a ty k) = true → FieldsOk s [(.vec, d), (.rs, a)] → readS a s = .ok (x, s₁) →
      ∃ t, exec (.vins h d a ty k) s = .next t ∧ (∀ j, j < 512 / w → laneIs t.th d.spec.toNat w j
        (if j = k.toNat then x.toNat % 2 ^ w else (s.th.vR d.spec.toNat).toNat / 2 ^ (w * j) % 2 ^ w)) ∧
        t.th.vB d.spec.toNat = bMax (s.th.vB d.spec.toNat) 0#32 ∧
        ∀ q, q < s.th.k → ((t.th.vT q d.spec.toNat).toNat / 2 ^ (w * k.toNat) % 2 ^ w =
            if q ∈ s.th.sel then (s.th.tanS a q).toNat % 2 ^ w else 0) ∧
          t.th.vTb q d.spec.toNat = bMax (s.th.vTb q d.spec.toNat) 0#32)

/-! ### Memory -/

namespace Sys2Proof.Claims

/-- The addresses of an access: the operand with its displacement, and for each tangent a typed access carries the same
address a multiple of tstride above it (R133). -/
def planeVAs (s : State) (typed : Bool) (va : Word) : List Word :=
  va :: (if typed then s.th.sel else []).map fun j => va + BitVec.ofNat 64 (j + 1) * s.th.tstride

/-- A typed access of a thread that carries tangents needs a stride (R133). -/
def StrideOk (s : State) (typed : Bool) : Prop := typed = true → s.th.sel ≠ [] → s.th.tstride ≠ 0#64

/-- The value of n bytes of a memory, little-endian (R12). -/
def valueAt (s : State) (m : Space) (a n : Nat) : Nat := leNat ((List.range n).map fun i => s.byteAt m (a + i))

/-- An access of n bytes to the own scratchpad passes the tests of R89, R202, R293 and R295. -/
structure SpOk (s : State) (va : Word) (n align : Nat) (write : Bool) : Prop where
  aligned : va.toNat % align = 0
  inside : va.toNat + n ≤ 0x100000
  free : stencilCause (s.core s.th.core).stencil (spKey s.th.core va.toNat) n write = none
  sound : write = false → ∀ l ∈ (s.core s.th.core).softErr, ¬(l * 64 < va.toNat + n ∧ va.toNat < l * 64 + 64)

/-- The tangents a typed load writes: the planes it read, +0 elsewhere (R133). -/
def PlaneTans (s : State) (typed : Bool) (val : Word → Word) (va : Word) (ts : List Word) : Prop :=
  ts.length = s.th.k ∧ ∀ j, j < s.th.k → ts.getD j 0#64 =
    if typed = true ∧ j ∈ s.th.sel then val (va + BitVec.ofNat 64 (j + 1) * s.th.tstride) else 0#64

/-- Bytes of an access size (R227). -/
def bytesOf (z : Sz) : Nat := match z with | .b => 1 | .h => 2 | .w => 4 | .dw => 8

/-- The planes of a store: the register and its tangents. -/
def storeVals (s : State) (typed : Bool) (b : Fld) (y : Word) : List Word :=
  y :: (if typed then s.th.sel else []).map fun j => if b.spec.toNat < 0x80 then s.th.gT j b.spec.toNat else 0#64

/-- The planes of an access to device memory are translated in order and pass the stencil at their home ports on the own core
(R71, R89, R133, R202, R293): their physical addresses, and the machine with its page-table bits and TLB brought up to date. -/
def Checked (n : Nat) (acc : Acc) : State → List Word → List Nat → State → Prop
  | s, [], pas, t => pas = [] ∧ t = s
  | s, va :: r, pas, t => va.toNat % n = 0 ∧ ∃ pa pas' s', pas = pa :: pas' ∧
      s.translate s.th.core s.th.part s.th.user va acc = (.ok pa, s') ∧ homeCore pa = s.th.core ∧
      stencilCause (s'.core s.th.core).stencil pa n acc.writes = none ∧ Checked n acc s' r pas' t

/-- Lines are read at their ports in order: the error of a line is met, its row activated, and none is poisoned (R78, R80, R81;
which accesses count an activation is the model's reading, log 17, and which lines hold an error is free, log 93). -/
def LinesRead (acc : Acc) : State → List Nat → State → Prop
  | s, [], t => t = s
  | s, pa :: r, t => (acc ≠ .side → sbPoison ((s.lineRead pa).dmSb s.th.core pa) = false) ∧ LinesRead acc (s.lineRead pa) r t

/-- The planes of an access reach their home ports on the own core with every test passed: all are checked before any is read
(R133). -/
def Reaches (n : Nat) (acc : Acc) (s : State) (vas : List Word) (pas : List Nat) (t : State) : Prop :=
  ∃ u, Checked n acc s vas pas u ∧ (if acc.reads then LinesRead acc u pas t else t = u)

/-- No store of the core to these bytes is on its way; no store of the thread is. -/
def NonePending (s : State) (pa n : Nat) : Prop :=
  ∀ p ∈ (s.core s.th.core).pend, ∀ c ∈ p.bytes, ¬(pa ≤ c.1 ∧ c.1 < pa + n)
def ReleaseOk (s : State) (o : MOrd) : Prop := (o = .rel ∨ o = .ar) → s.pendOf s.cur = []

/-- The addresses of bytes a list of accesses covers. -/
def covers (n : Nat) (as : List Nat) (a : Nat) : Prop := ∃ b ∈ as, b ≤ a ∧ a < b + n

/-- A register file of lines after a line load into register n: 8-byte lanes the mask selects are the line's, the others as
before; the bound is the line's, under a mask register the larger of it and the old one (R34, R298). -/
def LineLoaded (old : Nat → Vec) (oldB : Nat → Word32) (new : Nat → Vec) (newB : Nat → Word32) (n : Nat) (act : Nat → Bool)
    (m : BitVec 3) (val : Nat → Nat) (b : Word32) : Prop :=
  (∀ i, i < 8 → (new n).toNat / 2 ^ (64 * i) % 2 ^ 64 = if act i then val i else (old n).toNat / 2 ^ (64 * i) % 2 ^ 64) ∧
  newB n = if m = 0#3 then b else bMax (oldB n) b

/-- The lines a vector store writes, with their bounds: the register and, typed, the tangents it carries. -/
def storedLines (s : State) (typed : Bool) (n : Nat) : List (Vec × Word32) :=
  (s.th.vR n, s.th.vB n) :: (if typed then s.th.sel else []).map fun j => (s.th.vT j n, s.th.vTb j n)

/-- No access of a list overlaps a later one. -/
def apart (n : Nat) (as : List Nat) : Prop :=
  ∀ i j, i < j → j < as.length → as.getD i 0 + n ≤ as.getD j 0 ∨ as.getD j 0 + n ≤ as.getD i 0

end Sys2Proof.Claims

/-- R12, R66, R133, R296: lds answers the bytes at its address, zero-extended, and a typed one the tangents beside them. -/
def Sys2Proof.Claims.ScratchpadLoads : Prop :=
  ∀ (s s₁ s₂ : State) (h : Head) (d a : Fld) (typed : Bool) (z : Sz) (imm : BitVec 16) (x : Word) (ts : List Word),
    Issues s h → FieldsOk s [(.ws, d), (.rs, a)] → StrideOk s typed → readS a s = .ok (x, s₁) →
    let va := x + imm.signExtend 64
    let val := fun (v : Word) => BitVec.ofNat 64 (valueAt s (.sp s.th.core) v.toNat (bytesOf z))
    (∀ v ∈ planeVAs s typed va, SpOk s v (bytesOf z) (bytesOf z) false) → PlaneTans s typed val va ts →
    writeST d (val va) ts s₁ = .ok ((), s₂) → exec (.lds h d a typed z imm) s = .next (s₂.finish .fall)

/-- R12, R41, R133, R296: sts stores the low bytes of its register, and a typed one each tangent at its plane; every other
byte of every memory is as it was. -/
def Sys2Proof.Claims.ScratchpadStores : Prop :=
  ∀ (s s₁ : State) (h : Head) (a b : Fld) (typed : Bool) (z : Sz) (imm : BitVec 16) (x y : Word),
    Issues s h → FieldsOk s [(.rs, a), (.rs, b)] → StrideOk s typed → readAll [a, b] s = .ok ([x, y], s₁) →
    let n := bytesOf z
    let vas := planeVAs s typed (x + imm.signExtend 64)
    (∀ v ∈ vas, SpOk s v n n true) →
    ∃ t, exec (.sts h a b typed z imm) s = .next t ∧
      SameBytesBut s t (fun m q => m = .sp s.th.core ∧ covers n (vas.map (·.toNat)) q) ∧
      (apart n (vas.map (·.toNat)) → ∀ i, i < vas.length →
        valueAt t (.sp s.th.core) (vas.getD i 0#64).toNat n = ((storeVals s typed b y).getD i 0#64).toNat % 2 ^ (8 * n)) ∧
      (∀ o, (t.core s.th.core).spB o = (s.core s.th.core).spB o) ∧ t.th.rest = s₁.th.rest

/-- R89, R202, R293, R295: the checks of an access to the scratchpad: alignment, range, the stencil, and a line with a soft error
that it reads. -/
def Sys2Proof.Claims.ScratchpadChecks : Prop :=
  ∀ (s : State) (va : Word) (n align : Nat) (write : Bool), 0 < align →
    (va.toNat % align ≠ 0 → spCheck va n align write s = .error (.trap 0x48#8 va 0#5)) ∧
    (va.toNat % align = 0 → 0x100000 < va.toNat + n → spCheck va n align write s = .error (.trap 0x47#8 va 0#5)) ∧
    (va.toNat % align = 0 → va.toNat + n ≤ 0x100000 → ∀ c,
      stencilCause (s.core s.th.core).stencil (spKey s.th.core va.toNat) n write = some c →
      spCheck va n align write s = .error (.trap c va 0#5)) ∧
    (∀ l ls, va.toNat % align = 0 → va.toNat + n ≤ 0x100000 → write = false →
      stencilCause (s.core s.th.core).stencil (spKey s.th.core va.toNat) n false = none →
      (s.core s.th.core).softErr = l :: ls → l * 64 < va.toNat + n → va.toNat < l * 64 + 64 →
      spCheck va n align write s = .error (.trap 0x61#8 (BitVec.ofNat 64 (64 * l)) 0#5)) ∧
    (∀ st lo m w, stencilCause st lo m w =
      if ∃ p ∈ st, p.lo < lo + m ∧ lo < p.hi ∧ p.write = true then some 0x81#8
      else if w = true ∧ ∃ p ∈ st, p.lo < lo + m ∧ lo < p.hi then some 0x80#8 else none)

namespace Sys2Proof.Claims

/-- A plane of an access of n bytes is aligned, lies in the scratchpad and meets no piece of the stencil. -/
def SpPlaced (s : State) (n align : Nat) (write : Bool) (v : Word) : Prop :=
  v.toNat % align = 0 ∧ v.toNat + n ≤ 0x100000 ∧
    stencilCause (s.core s.th.core).stencil (spKey s.th.core v.toNat) n write = none

/-- The cause and tval with which an access of several planes stops: of the first plane that is not placed, and when all are, of the
first whose bytes it reads from a line with a soft error (R133, R202, R295). -/
def SpStops (s : State) (n align : Nat) (write reads : Bool) (vas : List Word) (code : Byte) (tv : Word) : Prop :=
  let soft (v : Word) : Option Nat :=
    (s.core s.th.core).softErr.find? fun l => decide (l * 64 < v.toNat + n) && decide (v.toNat < l * 64 + 64)
  (∃ pre v post, vas = pre ++ v :: post ∧ (∀ u ∈ pre, SpPlaced s n align write u) ∧ tv = v ∧
    ((v.toNat % align ≠ 0 ∧ code = 0x48#8) ∨ (v.toNat % align = 0 ∧ 0x100000 < v.toNat + n ∧ code = 0x47#8) ∨
     (v.toNat % align = 0 ∧ v.toNat + n ≤ 0x100000 ∧
       stencilCause (s.core s.th.core).stencil (spKey s.th.core v.toNat) n write = some code))) ∨
  ((∀ u ∈ vas, SpPlaced s n align write u) ∧ reads = true ∧
    ∃ pre v post l, vas = pre ++ v :: post ∧ (∀ u ∈ pre, soft u = none) ∧ soft v = some l ∧ code = 0x61#8 ∧
      tv = BitVec.ofNat 64 (64 * l))

end Sys2Proof.Claims

/-- R89, R133, R202, R293, R295, R296, R298 to R300: the loads, stores and atomics of the scratchpad take the trap of those checks; all
planes are checked before any is read. -/
def Sys2Proof.Claims.ScratchpadStops : Prop :=
  ∀ (s s₁ : State) (h : Head) (d a b c : Fld) (typed dw : Bool) (z : Sz) (op : AtOp) (m : BitVec 3) (imm : BitVec 16) (x y w : Word)
    (code : Byte) (tv : Word), Issues s h →
    let trapped (i : Instr) : Prop := exec i s = .next (s.stopped (.trap code tv 0#5))
    let vas := planeVAs s typed (x + imm.signExtend 64)
    let n := if dw then 8 else 4
    (FieldsOk s [(.ws, d), (.rs, a)] → StrideOk s typed → readAll [a] s = .ok ([x], s₁) →
      SpStops s₁ (bytesOf z) (bytesOf z) false true vas code tv → trapped (.lds h d a typed z imm)) ∧
    (FieldsOk s [(.rs, a), (.rs, b)] → StrideOk s typed → readAll [a, b] s = .ok ([x, y], s₁) →
      SpStops s₁ (bytesOf z) (bytesOf z) true false vas code tv → trapped (.sts h a b typed z imm)) ∧
    (FieldsOk s [(.ws, d), (.rs, a), (.rs, b)] → readAll [a, b] s = .ok ([x, y], s₁) →
      SpStops s₁ n n true true [x] code tv → trapped (.amos h d a b dw op)) ∧
    (FieldsOk s [(.ws, d), (.rs, a), (.rs, b), (.rs, c)] → readAll [a, b, c] s = .ok ([x, y, w], s₁) →
      SpStops s₁ n n true true [x] code tv → trapped (.cass h d a b c dw)) ∧
    (FieldsOk s [(.vec, d), (.rs, a)] → (m ≠ 0#3 → m.toNat < s.th.V) → s.th.regErr = [] → StrideOk s typed →
      readAll [a] s = .ok ([x], s₁) → SpStops s₁ 64 64 false true vas code tv → trapped (.vlds h d a typed m imm)) ∧
    (FieldsOk s [(.rs, a), (.vec, b)] → (m ≠ 0#3 → m.toNat < s.th.V) → s.th.regErr = [] → StrideOk s typed →
      readAll [a] s = .ok ([x], s₁) → SpStops s₁ 64 64 true false vas code tv → trapped (.vsts h a b typed m imm))

/-- The traps of accesses to the scratchpad. -/
def Obligations.ScratchpadTraps : Prop :=
  Claims.ScratchpadChecks ∧ Claims.ScratchpadStops

/-- R41, R133, R298: vlds and vsts move whole lines of the scratchpad with their bounds, and typed ones a line for each tangent
at its plane; under a mask bit i governs bytes 8i to 8i + 7, and the destination keeps its other bytes and the larger bound.
Tangents a load does not carry become +0 with bound 0. -/
def Sys2Proof.Claims.VectorScratchpad : Prop :=
  ∀ (s s₁ : State) (h : Head) (d a : Fld) (typed : Bool) (m : BitVec 3) (imm : BitVec 16) (x : Word), Issues s h →
    s.th.regErr = [] → (m ≠ 0#3 → m.toNat < s.th.V) → StrideOk s typed → readS a s = .ok (x, s₁) →
    let va := x + imm.signExtend 64
    let vas := planeVAs s typed va
    let n := d.spec.toNat
    let own := Space.sp s.th.core
    (FieldsOk s [(.vec, d), (.rs, a)] → (∀ v ∈ vas, SpOk s v 64 64 false) →
      ∃ t, exec (.vlds h d a typed m imm) s = .next t ∧ SameMemory s t ∧
        LineLoaded s.th.vR s.th.vB t.th.vR t.th.vB n (active s m) m (fun i => valueAt s own (va.toNat + 8 * i) 8)
          ((s.core s.th.core).spB va.toNat) ∧
        ∀ j, j < s.th.k →
          let pl := (va + BitVec.ofNat 64 (j + 1) * s.th.tstride).toNat
          let on := typed = true ∧ j ∈ s.th.sel
          LineLoaded (s.th.vT j) (s.th.vTb j) (t.th.vT j) (t.th.vTb j) n (active s m) m
            (fun i => if on then valueAt s own (pl + 8 * i) 8 else 0) (if on then (s.core s.th.core).spB pl else 0#32)) ∧
    (FieldsOk s [(.rs, a), (.vec, d)] → (∀ v ∈ vas, SpOk s v 64 64 true) →
      ∃ t, exec (.vsts h a d typed m imm) s = .next t ∧ t.th.rest = s₁.th.rest ∧
        SameBytesBut s t (fun sp q => sp = own ∧ covers 64 (vas.map (·.toNat)) q) ∧
        (apart 64 (vas.map (·.toNat)) → ∀ (p : Nat) (v : Word) (l : Vec × Word32), vas[p]? = some v → (storedLines s typed n)[p]? = some l →
          (∀ i, i < 64 → t.byteAt own (v.toNat + i) =
            if active s m (i / 8) then BitVec.ofNat 8 (l.1.toNat / 2 ^ (8 * i)) else s.byteAt own (v.toNat + i)) ∧
          (t.core s.th.core).spB v.toNat = if m = 0#3 then l.2 else bMax ((s.core s.th.core).spB v.toNat) l.2))

/-- R12, R133, R293, R294, R296, R340: a load from device memory at home on the own core answers the bytes its core sees, with
earlier stores of the core first; an acquire waits for those to the same bytes, a release for all of the thread's. Reading counts an
activation for each plane (LinesRead: R81, and log 17 for what counts). -/
def Sys2Proof.Claims.DeviceLoads : Prop :=
  ∀ (s s₁ s₂ s₃ : State) (h : Head) (d a : Fld) (typed : Bool) (o : MOrd) (z : Sz) (imm : BitVec 16) (x : Word)
    (pas : List Nat) (ts : List Word),
    Issues s h → FieldsOk s [(.ws, d), (.rs, a)] → StrideOk s typed → readOps [a] s = .ok ([x], s₁) →
    ReleaseOk s₁ o → Reaches (bytesOf z) .read s₁ (planeVAs s₁ typed (x + imm.signExtend 64)) pas s₂ →
    ((o = .acq ∨ o = .ar) → ∀ pa ∈ pas, NonePending s₂ pa (bytesOf z)) →
    ts.length = s.th.k → (∀ j, j < s.th.k → ts.getD j 0#64 = match (if typed then s.th.sel else []).idxOf? j with
      | some i => BitVec.ofNat 64 (s₂.dmNat s.th.core (pas.getD (i + 1) 0) (bytesOf z))
      | none => 0#64) →
    writeST d (BitVec.ofNat 64 (s₂.dmNat s.th.core (pas.getD 0 0) (bytesOf z))) ts
      s₂ = .ok ((), s₃) →
    exec (.ldd h d a typed o z imm) s = .next (s₃.finish .fall)

/-- R12, R133, R293, R294, R296, R340: a store to device memory at home on the own core is complete at once for its core,
pending until its port performs it, and counted; under .acq it is performed first, by reading and rewriting the line, which meets
an error the line holds (R78, R79); no other byte changes for the core. -/
def Sys2Proof.Claims.DeviceStores : Prop :=
  ∀ (s s₁ s₂ : State) (h : Head) (a b : Fld) (typed : Bool) (o : MOrd) (z : Sz) (imm : BitVec 16) (x y : Word) (pas : List Nat),
    Issues s h → FieldsOk s [(.rs, a), (.rs, b)] → StrideOk s typed → readOps [a, b] s = .ok ([x, y], s₁) →
    ReleaseOk s₁ o → Reaches (bytesOf z) .write s₁ (planeVAs s₁ typed (x + imm.signExtend 64)) pas s₂ →
    (o = .acq → ∀ pa ∈ pas, NonePending s₂ pa (bytesOf z)) → (o = .acq → s₂.pendOf s.cur = []) → o ≠ .ar →
    let n := bytesOf z
    ∃ t, exec (.std h a b typed o z imm) s = .next t ∧
      (∀ q, ¬covers n pas q → t.dmByte s.th.core q = (if o = .acq then pas.foldl State.eccRead s₂ else s₂).dmByte s.th.core q) ∧
      (apart n pas → ∀ i, i < pas.length →
        t.dmNat s.th.core (pas.getD i 0) n = ((storeVals s typed b y).getD i 0#64).toNat % 2 ^ (8 * n)) ∧
      (o ≠ .acq → t.mem = s₂.mem ∧ t.th.outSt = s.th.outSt + pas.length ∧
        ((t.core s.th.core).pend.length = (s₂.core s.th.core).pend.length + pas.length)) ∧
      (o = .acq → t.th.outSt = s.th.outSt ∧ (t.core s.th.core).pend = (s₂.core s.th.core).pend)

/-- R41, R133, R298, R340: vldd and vstd move whole lines of device memory with their bounds, and typed ones a line for each
tangent at its plane; under a mask the bytes it selects, the larger bound kept. -/
def Sys2Proof.Claims.VectorDevice : Prop :=
  ∀ (s s₁ s₂ : State) (h : Head) (d a : Fld) (typed : Bool) (m : BitVec 3) (imm : BitVec 16) (x : Word) (pas : List Nat),
    Issues s h → s.th.regErr = [] → (m ≠ 0#3 → m.toNat < s.th.V) → StrideOk s typed → readOps [a] s = .ok ([x], s₁) →
    let vas := planeVAs s₁ typed (x + imm.signExtend 64)
    let n := d.spec.toNat
    let c := s.th.core
    (FieldsOk s [(.vec, d), (.rs, a)] → Reaches 64 .read s₁ vas pas s₂ →
      ∃ t, exec (.vldd h d a typed m imm) s = .next t ∧ t.mem = s₂.mem ∧
        (∀ pa, pas[0]? = some pa → LineLoaded s.th.vR s.th.vB t.th.vR t.th.vB n (active s m) m
          (fun i => s₂.dmNat c (pa + 8 * i) 8) (sbBound (s₂.dmSb c pa))) ∧
        ∀ j, j < s.th.k →
          let pl := match (if typed then s.th.sel else []).idxOf? j with | some i => pas[i + 1]? | none => none
          LineLoaded (s.th.vT j) (s.th.vTb j) (t.th.vT j) (t.th.vTb j) n (active s m) m
            (fun i => match pl with | some pa => s₂.dmNat c (pa + 8 * i) 8 | none => 0)
            (match pl with | some pa => sbBound (s₂.dmSb c pa) | none => 0#32)) ∧
    (FieldsOk s [(.rs, a), (.vec, d)] → Reaches 64 .write s₁ vas pas s₂ →
      ∃ t, exec (.vstd h a d typed m imm) s = .next t ∧ t.mem = s₂.mem ∧ t.th.outSt = s.th.outSt + pas.length ∧
        (∀ q, ¬covers 64 pas q → t.dmByte c q = s₂.dmByte c q) ∧
        (apart 64 pas → ∀ (p pa : Nat) (l : Vec × Word32), pas[p]? = some pa → (storedLines s typed n)[p]? = some l →
          (∀ i, i < 64 → t.dmByte c (pa + i) =
            if active s m (i / 8) then BitVec.ofNat 8 (l.1.toNat / 2 ^ (8 * i)) else s₂.dmByte c (pa + i)) ∧
          t.dmSb c pa = (let old := s₂.dmSb c pa
            if m = 0#3 then mkSb l.2 true 0#2 false
            else mkSb (bMax (sbBound old) l.2) true (sbSev old) (sbPoison old))))

/-! ### Atomics -/

namespace Sys2Proof.Claims

/-- The value an atomic operation leaves (R299), on n bytes. -/
def atomicNew (op : AtOp) (n : Nat) (old : Nat) (y : Word) : Nat :=
  let m := 2 ^ (8 * n)
  let b := y.toNat % m
  let sg (v : Nat) : Int := if m / 2 ≤ v then (v : Int) - m else v
  match op with
  | .swap => b
  | .add => (old + b) % m
  | .and => old &&& b
  | .or => old ||| b
  | .xor => old ^^^ b
  | .min => if sg old < sg b then old else b
  | .max => if sg old < sg b then b else old
  | .minu => if old < b then old else b
  | .maxu => if old < b then b else old

end Sys2Proof.Claims

/-- R66, R299, R300: amos and cass read and write 4 or 8 bytes of the own scratchpad as one step and answer the old value;
cass writes only when the old value is the one expected. -/
def Sys2Proof.Claims.ScratchpadAtomics : Prop :=
  ∀ (s s₁ s₂ : State) (h : Head) (d a b c : Fld) (dw : Bool) (x y z : Word) (n old : Nat), Issues s h →
    n = (if dw then 8 else 4) → SpOk s x n n true → SpOk s x n n false → old = valueAt s (.sp s.th.core) x.toNat n →
    (∀ op : AtOp, FieldsOk s [(.ws, d), (.rs, a), (.rs, b)] → readAll [a, b] s = .ok ([x, y], s₁) →
      writeS d (BitVec.ofNat 64 old) (s₁.modCore s.th.core fun k => k.spWrite x.toNat (leBytes n (atomicNew op n old y))) =
        .ok ((), s₂) →
      ∃ t, exec (.amos h d a b dw op) s = .next t ∧
        valueAt t (.sp s.th.core) x.toNat n = atomicNew op n old y ∧ t.th.g = s₂.th.g ∧ t.th.gEmpty = s₂.th.gEmpty ∧
        SameBytesBut s t (fun m q => m = .sp s.th.core ∧ x.toNat ≤ q ∧ q < x.toNat + n)) ∧
    (FieldsOk s [(.ws, d), (.rs, a), (.rs, b), (.rs, c)] → readAll [a, b, c] s = .ok ([x, y, z], s₁) →
      writeS d (BitVec.ofNat 64 old) s₁ = .ok ((), s₂) →
      ∃ t, exec (.cass h d a b c dw) s = .next t ∧
        valueAt t (.sp s.th.core) x.toNat n = (if old = y.toNat % 2 ^ (8 * n) then z.toNat % 2 ^ (8 * n) else old) ∧
        t.th.g = s₂.th.g ∧ t.th.gEmpty = s₂.th.gEmpty ∧
        SameBytesBut s t (fun m q => m = .sp s.th.core ∧ x.toNat ≤ q ∧ q < x.toNat + n))

/-- R293, R299, R300: amod and casd do the same at the home port in device memory, when no earlier store of the thread to the
port and none of the core to the bytes is on its way. -/
def Sys2Proof.Claims.DeviceAtomics : Prop :=
  ∀ (s s₁ s₂ s₃ : State) (h : Head) (d a b c : Fld) (o : MOrd) (dw : Bool) (x y z : Word) (n old pa : Nat), Issues s h →
    n = (if dw then 8 else 4) → ReleaseOk s₁ o → Reaches n .atomic s₁ [x] [pa] s₂ → s₂.pendOf s.cur = [] →
    NonePending s₂ pa n → old = valueAt s₂ .device pa n →
    (∀ op : AtOp, FieldsOk s [(.ws, d), (.rs, a), (.rs, b)] → readOps [a, b] s = .ok ([x, y], s₁) →
      writeS d (BitVec.ofNat 64 old) (s₂.dmWrite pa (leBytes n (atomicNew op n old y))) = .ok ((), s₃) →
      ∃ t, exec (.amod h d a b o dw op) s = .next t ∧ valueAt t .device pa n = atomicNew op n old y ∧
        t.th.g = s₃.th.g ∧ t.th.gEmpty = s₃.th.gEmpty ∧
        SameBytesBut s₂ t (fun m q => m = .device ∧ pa ≤ q ∧ q < pa + n)) ∧
    (FieldsOk s [(.ws, d), (.rs, a), (.rs, b), (.rs, c)] → readOps [a, b, c] s = .ok ([x, y, z], s₁) →
      writeS d (BitVec.ofNat 64 old) s₂ = .ok ((), s₃) →
      ∃ t, exec (.casd h d a b c o dw) s = .next t ∧
        valueAt t .device pa n = (if old = y.toNat % 2 ^ (8 * n) then z.toNat % 2 ^ (8 * n) else old) ∧
        t.th.g = s₃.th.g ∧ t.th.gEmpty = s₃.th.gEmpty ∧
        SameBytesBut s₂ t (fun m q => m = .device ∧ pa ≤ q ∧ q < pa + n))

/-- R133, R298: a typed vector access moves each tangent it carries at its own plane, with its bound. -/
def Sys2Proof.Claims.VectorPlanes : Prop :=
  ∀ (s s₁ s₂ : State) (h : Head) (d a : Fld) (imm : BitVec 16) (x : Word) (pas : List Nat), Issues s h → s.th.regErr = [] →
    s.th.sel ≠ [] → s.th.tstride ≠ 0#64 →
    let va := x + imm.signExtend 64
    let vas := planeVAs s true va
    let plane := fun (j : Nat) => (va + BitVec.ofNat 64 (j + 1) * s.th.tstride).toNat
    (FieldsOk s [(.vec, d), (.rs, a)] → readS a s = .ok (x, s₁) → (∀ v ∈ vas, SpOk s v 64 64 false) →
      ∃ t, exec (.vlds h d a true 0#3 imm) s = .next t ∧
        (t.th.vR d.spec.toNat).toNat = valueAt s (.sp s.th.core) va.toNat 64 ∧
        ∀ j, j < s.th.k →
          ((t.th.vT j d.spec.toNat).toNat = if j ∈ s.th.sel then valueAt s (.sp s.th.core) (plane j) 64 else 0) ∧
          t.th.vTb j d.spec.toNat = if j ∈ s.th.sel then (s.core s.th.core).spB (plane j) else 0#32) ∧
    (FieldsOk s [(.rs, a), (.vec, d)] → readS a s = .ok (x, s₁) → (∀ v ∈ vas, SpOk s v 64 64 true) →
      apart 64 (vas.map (·.toNat)) →
      ∃ t, exec (.vsts h a d true 0#3 imm) s = .next t ∧
        valueAt t (.sp s.th.core) va.toNat 64 = (s.th.vR d.spec.toNat).toNat ∧
        (∀ j, j ∈ s.th.sel → valueAt t (.sp s.th.core) (plane j) 64 = (s.th.vT j d.spec.toNat).toNat ∧
          (t.core s.th.core).spB (plane j) = s.th.vTb j d.spec.toNat) ∧
        SameBytesBut s t (fun m q => m = .sp s.th.core ∧ covers 64 (vas.map (·.toNat)) q)) ∧
    (FieldsOk s [(.vec, d), (.rs, a)] → readOps [a] s = .ok ([x], s₁) → Reaches 64 .read s₁ vas pas s₂ →
      ∃ t, exec (.vldd h d a true 0#3 imm) s = .next t ∧
        (t.th.vR d.spec.toNat).toNat = s₂.dmNat s.th.core (pas.getD 0 0) 64 ∧
        ∀ i j, s.th.sel[i]? = some j → (t.th.vT j d.spec.toNat).toNat = s₂.dmNat s.th.core (pas.getD (i + 1) 0) 64) ∧
    (FieldsOk s [(.rs, a), (.vec, d)] → readOps [a] s = .ok ([x], s₁) → Reaches 64 .write s₁ vas pas s₂ → apart 64 pas →
      ∃ t, exec (.vstd h a d true 0#3 imm) s = .next t ∧
        t.dmNat s.th.core (pas.getD 0 0) 64 = (s.th.vR d.spec.toNat).toNat ∧
        ∀ i j, s.th.sel[i]? = some j → t.dmNat s.th.core (pas.getD (i + 1) 0) 64 = (s.th.vT j d.spec.toNat).toNat)

/-- R305, R306: vgas reads and vscs writes the lanes its mask selects at a plus the index of the lane scaled; a lane it does
not select keeps its value, and of two lanes at one address the higher one is left. The address of a lane wraps modulo 2^64 before
it is checked: the model's reading (log 44). -/
def Obligations.GatherScatter : Prop :=
  ∀ (s s₁ : State) (h : Head) (d a b c : Fld) (m : BitVec 3) (ty : Fmt) (sc : BitVec 3) (x : Word), Issues s h →
    s.th.regErr = [] → (m ≠ 0#3 → m.toNat < s.th.V) → readS a s = .ok (x, s₁) →
    let w := fmtWidth ty
    let n := 512 / w
    let at' := fun i => x + BitVec.ofNat 64 (lane s [b] w 0 i * 2 ^ sc.toNat)
    (WellFormed.instr (.vgas h d a b m ty sc) = true → FieldsOk s [(.vec, d), (.rs, a), (.vec, b)] →
      (∀ i, i < n → active s m i = true → SpOk s (at' i) (w / 8) (w / 8) false ∧ (at' i).toNat < 0x100000) →
      ∃ t, exec (.vgas h d a b m ty sc) s = .next t ∧ SameMemory s t ∧
        (∀ i, i < n → laneIs t.th d.spec.toNat w i (if active s m i then valueAt s (.sp s.th.core) (at' i).toNat (w / 8)
          else (s.th.vR d.spec.toNat).toNat / 2 ^ (w * i) % 2 ^ w)) ∧
        -- the largest bound of the lines read, and zero tangents
        let r := ((List.range n).filter (active s m)).foldl (fun x i => bMax x ((s.core s.th.core).spB (at' i).toNat)) 0#32
        t.th.vB d.spec.toNat = (if m = 0#3 then r else bMax (s.th.vB d.spec.toNat) r) ∧
        ∀ j, j < s.th.k →
          (∀ i, i < n → (t.th.vT j d.spec.toNat).toNat / 2 ^ (w * i) % 2 ^ w =
            if active s m i then 0 else (s.th.vT j d.spec.toNat).toNat / 2 ^ (w * i) % 2 ^ w) ∧
          t.th.vTb j d.spec.toNat = if m = 0#3 then 0#32 else bMax (s.th.vTb j d.spec.toNat) 0#32) ∧
    (WellFormed.instr (.vscs h a b c m ty sc) = true → FieldsOk s [(.rs, a), (.vec, b), (.vec, c)] →
      (∀ i, i < n → active s m i = true →
        SpOk s (at' i) (w / 8) (w / 8) true ∧ SpOk s (at' i) (w / 8) (w / 8) false ∧ (at' i).toNat < 0x100000) →
      ∃ t, exec (.vscs h a b c m ty sc) s = .next t ∧ t.th.rest = s₁.th.rest ∧
        SameBytesBut s t (fun sp q => sp = .sp s.th.core ∧
          ∃ i, i < n ∧ active s m i = true ∧ (at' i).toNat ≤ q ∧ q < (at' i).toNat + w / 8) ∧
        (∀ i, i < n → active s m i = true →
          (∀ j, i < j → j < n → active s m j = true → at' j ≠ at' i) →
          valueAt t (.sp s.th.core) (at' i).toNat (w / 8) = lane s [c] w 0 i) ∧
        -- a line written keeps the larger bound, and the others theirs
        ∀ q, q % 64 = 0 → q < 0x100000 → (t.core s.th.core).spB q =
          if (List.range n).any (fun i => active s m i && decide ((at' i).toNat / 64 * 64 = q))
          then bMax ((s.core s.th.core).spB q) (s.th.vB c.spec.toNat) else (s.core s.th.core).spB q)

/-- R33, R39, R40, R303, R304: ldsb and stsb read and write the sideband word of a line at home on the own core, a bound word
and a bank's format register, and no byte of data. -/
def Obligations.SidebandAccess : Prop :=
  ∀ (s s₁ s₂ s₃ : State) (h : Head) (d a : Fld) (imm : BitVec 16) (x y : Word) (pa : Nat), Issues s h →
    let va := x + imm.signExtend 64
    let c := s.core s.th.core
    (FieldsOk s [(.ws, d), (.rs, a)] → readOps [a] s = .ok ([x], s₁) →
      (∀ r, Reaches 64 .side s₁ [va] [pa] s₂ → r = BitVec.ofNat 64 (s₂.dmSb s.th.core pa).toNat →
        writeS d r s₂ = .ok ((), s₃) → exec (.ldsb h d a .dev imm) s = .next (s₃.finish .fall)) ∧
      (SpOk s va 64 64 false → writeS d (BitVec.ofNat 64 (c.spB va.toNat).toNat) s₁ = .ok ((), s₃) →
        exec (.ldsb h d a .spb imm) s = .next (s₃.finish .fall)) ∧
      (SpOk s va 64 65536 false → writeS d (c.fmtReg (va.toNat / 65536)) s₁ = .ok ((), s₃) →
        exec (.ldsb h d a .fmt imm) s = .next (s₃.finish .fall))) ∧
    (FieldsOk s [(.rs, a), (.rs, d)] → readOps [a, d] s = .ok ([x, y], s₁) →
      (Reaches 64 .write s₁ [va] [pa] s₂ → ∃ t, exec (.stsb h a d .dev imm) s = .next t ∧ t.mem = s₂.mem ∧
        t.th.outSt = s.th.outSt + 1 ∧
        let old := s₂.dmSb s.th.core pa
        let new := t.dmSb s.th.core pa
        new.getLsbD 31 = false ∧ (∀ i, 8 ≤ i → i < 31 → new.getLsbD i = y.getLsbD i) ∧ new.getLsbD 7 = y.getLsbD 7 ∧
        (new.getLsbD 5 = old.getLsbD 5 ∧ new.getLsbD 6 = old.getLsbD 6) ∧ new.getLsbD 4 = (old.getLsbD 4 || y.getLsbD 4) ∧
        ∀ i, i < 4 → new.getLsbD i = false) ∧
      (SpOk s va 64 64 true → ∃ t, exec (.stsb h a d .spb imm) s = .next t ∧
        (t.core s.th.core).spB va.toNat = bClean (y.setWidth 32) ∧
        (∀ o, o / 64 ≠ va.toNat / 64 → (t.core s.th.core).spB o = c.spB o) ∧ ∀ m q, t.byteAt m q = s.byteAt m q) ∧
      (SpOk s va 64 65536 false → (∀ p ∈ c.stencil, ¬(p.lo < spKey s.th.core va.toNat + 65536 ∧ spKey s.th.core va.toNat < p.hi)) →
        ∃ t, exec (.stsb h a d .fmt imm) s = .next t ∧
          (let r := (t.core s.th.core).fmtReg (va.toNat / 65536)
           r.toNat % 16 = (if y.toNat % 16 = 6 then 7 else y.toNat % 16) ∧
           r.toNat / 16 % 4096 = 0 ∧ r.toNat / 65536 = y.toNat / 65536 % 2 ^ 20) ∧
          (∀ b, b ≠ va.toNat / 65536 → (t.core s.th.core).fmtReg b = c.fmtReg b) ∧ ∀ m q, t.byteAt m q = s.byteAt m q) ∧
      (SpOk s va 64 65536 false → (∃ p ∈ c.stencil, p.lo < spKey s.th.core va.toNat + 65536 ∧ spKey s.th.core va.toNat < p.hi) →
        exec (.stsb h a d .fmt imm) s = .next (s.takeTrap s.cur 0x81#8 va 0#5)))

/-- R301: a fence completes when no store of its scope is on its way, and waits otherwise. -/
def Sys2Proof.Claims.FenceWaits : Prop :=
  ∀ (s : State) (h : Head) (sc : Scope), Issues s h →
    let own := s.pendOf s.cur
    -- the group's first core: that of the thread's kernel, else rank cores below its own
    let own' := match s.logOf s.th.core with | some b => b - s.th.rank | none => 0
    let base := match s.th.kernel with
      | some k => (match s.kernels.look k with | some x => x.base | none => own')
      | none => own'
    let inGroup := fun (p : PendStore) => ∃ l, s.logOf (homeCore p.pa) = some l ∧ base ≤ l ∧ l < base + s.th.gsize
    let done : Prop := match sc with
      | .core => ∀ p ∈ own, homeCore p.pa ≠ s.th.core
      | .grp => ∀ p ∈ own, ¬inGroup p
      | .dev => s.th.outSt ≤ s.hostPendOf s.cur
      | .host => s.th.outSt = 0
    (done → exec (.fence h sc) s = .next (s.finish .fall)) ∧
    (¬done → exec (.fence h sc) s = .next (s.startWait s.cur (.fence sc)))

/-! ### The host window, proxies and translation -/

/-- R194, R195, R293, R297: a host-window access below 0x1040 or beyond the window traps 0x49, a misaligned one 0x48; one that
passes leaves by proxy for the Priet controller; there a load answers the bytes of host memory and a store is accepted. -/
def Sys2Proof.Claims.HostWindow : Prop :=
  ∀ (s s₁ s₂ : State) (h : Head) (d a : Fld) (z : Sz) (imm : BitVec 16) (x y : Word) (q : Part),
    s.th.passes h = true → s.part s.th.part = some q →
    let va := x + imm.signExtend 64
    let n := bytesOf z
    let pa := q.desc.hostBase.toNat + va.toNat
    let inside := 0x1040 ≤ va.toNat ∧ va.toNat + n ≤ q.desc.hostLen.toNat
    (FieldsOk s [(.ws, d), (.rs, a)] → readOps [a] s = .ok ([x], s₁) →
      (¬inside → exec (.ldh h d a z imm) s = .next (s.stopped (.trap 0x49#8 va 0#5))) ∧
      (inside → va.toNat % n ≠ 0 → exec (.ldh h d a z imm) s = .next (s.stopped (.trap 0x48#8 va 0#5))) ∧
      (inside → va.toNat % n = 0 → s.th.atPort = false → ∃ t, exec (.ldh h d a z imm) s = .next t ∧
        t.th.wait = .hostAccess va.toNat false ∧ t.th.life = .waitUnseated ∧ t.th.outLd = 1) ∧
      (inside → va.toNat % n = 0 → s.th.atPort = true → (∀ e ∈ s.hostPend, e.2.thid ≠ s.cur) →
        writeS d (BitVec.ofNat 64 (valueAt s .host pa n)) s₁ = .ok ((), s₂) →
        exec (.ldh h d a z imm) s = .next ((s₂.finish .fall).answerAccess s.cur))) ∧
    (FieldsOk s [(.rs, a), (.rs, d)] → readOps [a, d] s = .ok ([x, y], s₁) →
      (¬inside → exec (.sth h a d z imm) s = .next (s.stopped (.trap 0x49#8 va 0#5))) ∧
      (inside → va.toNat % n ≠ 0 → exec (.sth h a d z imm) s = .next (s.stopped (.trap 0x48#8 va 0#5))) ∧
      (inside → va.toNat % n = 0 → s.th.atPort = false → ∃ t, exec (.sth h a d z imm) s = .next t ∧
        t.th.wait = .hostAccess va.toNat true ∧ t.th.life = .waitUnseated ∧ t.th.outLd = 0) ∧
      (inside → va.toNat % n = 0 → s.th.atPort = true → s.th.life ≠ .exited → ∃ t, exec (.sth h a d z imm) s = .next t ∧
        t.th.outSt = s.th.outSt + 1 ∧ t.hostMem = s.hostMem ∧
        ∃ id e, t.hostPend.look id = some e ∧ e.thid = s.cur ∧ e.value = none ∧
          e.bytes = cellsOf pa (leBytes n y.toNat) ∧ ∃ p ∈ t.agenda, p.ev = .hostWritePerformed id))

namespace Sys2Proof.Claims

/-- An untyped access to one place of device memory: header, mask register, its fields with their kinds, the operands it reads,
whether it is a release, displacement, bytes and kind. -/
structure OneAccess where
  h : Head
  m : BitVec 3
  fields : List (FK × Fld)
  srcs : List Fld
  rel : Bool
  imm : Word
  n : Nat
  acc : Acc

def oneAccess : Instr → Option OneAccess
  | .ldd h d a false o z imm => some ⟨h, 0#3, [(.ws, d), (.rs, a)], [a], isRel o, imm.signExtend 64, bytesOf z, .read⟩
  | .std h a b false o z imm => some ⟨h, 0#3, [(.rs, a), (.rs, b)], [a, b], isRel o, imm.signExtend 64, bytesOf z, .write⟩
  | .amod h d a b o dw _ =>
    some ⟨h, 0#3, [(.ws, d), (.rs, a), (.rs, b)], [a, b], isRel o, 0#64, if dw then 8 else 4, .atomic⟩
  | .casd h d a b c o dw =>
    some ⟨h, 0#3, [(.ws, d), (.rs, a), (.rs, b), (.rs, c)], [a, b, c], isRel o, 0#64, if dw then 8 else 4, .atomic⟩
  | .vldd h d a false m imm => some ⟨h, m, [(.vec, d), (.rs, a)], [a], false, imm.signExtend 64, 64, .read⟩
  | .vstd h a b false m imm => some ⟨h, m, [(.rs, a), (.vec, b)], [a], false, imm.signExtend 64, 64, .write⟩
  | .ldsb h d a .dev imm => some ⟨h, 0#3, [(.ws, d), (.rs, a)], [a], false, imm.signExtend 64, 64, .side⟩
  | .stsb h a b .dev imm => some ⟨h, 0#3, [(.rs, a), (.rs, b)], [a, b], false, imm.signExtend 64, 64, .write⟩
  | _ => none

end Sys2Proof.Claims

/-- R43, R293: an untyped access to device memory, a load, store, atomic, vector access or access to the sideband, whose home is
another core leaves a rooted thread by proxy with its operands captured, and takes a roaming one there when it has no loop open and
nothing outstanding; an open loop traps 0xA8, with the reads of the walk done (keepReads: R78, R81, log 17). -/
def Obligations.RemoteAccess : Prop :=
  ∀ (s s₁ s₂ : State) (i : Instr) (x : OneAccess) (v : Word) (vs : List Word) (pa : Nat), oneAccess i = some x → Issues s x.h →
    s.th.regErr = [] → (x.m ≠ 0#3 → x.m.toNat < s.th.V) → FieldsOk s x.fields → readOps x.srcs s = .ok (v :: vs, s₁) →
    (x.rel = true → s₁.pendOf s.cur = []) →
    let va := v + x.imm
    va.toNat % x.n = 0 → s₁.translate s.th.core s.th.part s.th.user va x.acc = (.ok pa, s₂) → homeCore pa ≠ s.th.core →
    (s.th.roaming = false → ∃ t, exec i s = .next t ∧ t.th.wait = .access ∧ t.th.life = .waitUnseated ∧ t.th.vals = v :: vs ∧
      t.th.outLd = (if x.acc = .write then 0 else 1) ∧ ∃ p ∈ t.agenda, p.ev = .homePortAccess s.cur 0) ∧
    (s.th.roaming = true → s.th.loops ≠ [] → exec i s = .next ((s.keepReads s₂).takeTrap s.cur 0xA8#8 0#64 0#5)) ∧
    (s.th.roaming = true → s.th.loops = [] → s.th.outLd = 0 → s.th.outSt = 0 → ∃ t, exec i s = .next t ∧ t.th.life = .migrating ∧
      ∃ p ∈ t.agenda, p.ev = .migrationArrival s.cur (homeCore pa))

/-- R67 to R73: an address that is not canonical, a page-table entry that is not present, one that no table may hold and a
permission the leaf does not give fail with their causes, and so does an address where there is no memory, near or far; a leaf
of a far, compressed or migrating page is touched; another translates, its accessed bit, and for a write or an atomic its dirty
bit, become 1 in the leaf, whose other bits stay, and the TLB holds the translation, which a later access uses without a walk
(R69, R73). A page of a contig run uses its own entry, or the run's first where software broke the rule of R72 (which of the two
then, and that the first is used only while it is plainly near, is the model's choice: log 5). The walk reads its entries
(walkRead: R78, R81 and logs 17 and 93), which changes no byte where no line holds an error. That an address with a bit of R67 set
that must be zero is one where there is no memory is the model's choice (log 123). -/
def Obligations.Translation : Prop :=
  ∀ (s : State) (core part : Nat) (user : Bool) (va : Word) (acc : Acc),
    let v := va.toNat % 2 ^ 48
    let denied (poisoned forUser exec read write : Bool) : Option Byte :=
      if poisoned then some 0x4C#8 else if user && !forUser then some 0x44#8
      else if acc == .fetch && !exec then some 0x43#8
      else if (acc == .read || acc == .atomic || acc == .side) && !read then some 0x41#8
      else if (acc == .write || acc == .atomic) && !write then some 0x42#8 else none
    let hit := (s.core core).tlb.find? fun x => x.has part (v / 4096) && (x.dirty || !(acc == .write || acc == .atomic))
    (canonical va = false → s.translate core part user va acc = (.fault 0x45#8, s)) ∧
    (canonical va = true ↔ ∀ i, 47 ≤ i → i < 64 → va.getLsbD i = va.getLsbD 47) ∧
    -- the TLB holds a translation of the page, and one whose dirty bit is set for a write
    (∀ x, canonical va = true → hit = some x →
      let pa := (x.pfn + (v / 4096 - x.vpn)) * 4096 + v % 4096
      (∀ c, denied false x.user x.exec x.read x.write = some c → s.translate core part user va acc = (.fault c, s)) ∧
      (denied false x.user x.exec x.read x.write = none →
        s.translate core part user va acc = (if s.absent pa then .fault 0x46#8 else .ok pa, s))) ∧
    let w := s.walkRead core part v
    (s.errs = [] → w.mem = s.mem ∧ w.sideband = s.sideband ∧ w.threads = s.threads) ∧
    (∀ c ws, canonical va = true → hit = none → w.walk core part v = (.error c, ws) →
      s.translate core part user va acc = (.fault c, w)) ∧
    (∀ l ws, canonical va = true → hit = none → w.walk core part v = (.ok l, ws) →
      let e := l.pte
      let e' := e ||| 1024 ||| (if acc.writes then 2048 else 0)
      let i := v / 4096 % 16
      let entry (j : Nat) : Nat := w.dmNat core (l.addr - 8 * i + 8 * j) 8
      -- the entry that is used, and its frame
      ∃ u f, ((u = e ∧ f = pteAddr e) ∨
          (l.level = 1 ∧ pteBit e 9 = true ∧ pteBit u 9 = true ∧ u = entry 0 ∧ f = pteAddr u + 4096 * i)) ∧
        (pteBit e 9 = true → (∀ j, j < 16 → pteBit (entry j) 9 = true ∧ entry j % 4096 = entry 0 % 4096 ∧
          pteAddr (entry j) = pteAddr (entry 0) + 4096 * j ∧ w.rewrites.look (l.addr - 8 * i + 8 * j) = none) →
          u = e ∧ f = pteAddr e) ∧
        let fault := denied (pteBit u 63) (pteBit u 4) (pteBit u 3) (pteBit u 1) (pteBit u 2)
        let pa := f + v % 2 ^ (12 + 9 * (l.level - 1))
        (∀ c, fault = some c → s.translate core part user va acc = (.fault c, w)) ∧
        (fault = none → pteBit u 6 = true → w.absent (f + v % 4096) = true →
          s.translate core part user va acc = (.fault 0x46#8, w)) ∧
        (fault = none → (pteBit u 6 || pteBit u 7 || pteBit u 8) = true →
          (pteBit u 6 = true → w.absent (f + v % 4096) = false) →
          s.translate core part user va acc = (.touch l.addr u, w)) ∧
        (fault = none → (pteBit u 6 || pteBit u 7 || pteBit u 8) = false → w.absent pa = true →
          s.translate core part user va acc = (.fault 0x46#8, w)) ∧
        (fault = none → (pteBit u 6 || pteBit u 7 || pteBit u 8) = false → w.absent pa = false → ∃ t,
          s.translate core part user va acc = (.ok pa, t) ∧
          -- the leaf, as the core sees it, and nothing else of memory
          t.dmNat core l.addr 8 = e' ∧
          (∀ m q, ¬(m = .device ∧ l.addr ≤ q ∧ q < l.addr + 8) → t.byteAt m q = w.byteAt m q) ∧
          (e' = e → t.mem = w.mem) ∧ t.threads = s.threads ∧
          -- the TLB
          let pages := 2 ^ (9 * (l.level - 1))
          TlbEnt.mk part (v / 4096 / pages * pages) pages (f / 4096) (pteBit u 4) (pteBit u 3) (pteBit u 2) (pteBit u 1)
            (pteBit e' 11) ∈ (t.core core).tlb))

/-! ### Control, waits and messages -/

namespace Sys2Proof.Claims

/-- The thread is at its anchor, or has no need to be: what R45 keeps there can be read. -/
def AtAnchor (s : State) : Prop := s.th.roaming = false ∨ s.th.core = homeOf s.cur ∨ s.th.atAnchor = true

/-- The instruction in hand is not the last of an active loop body, where R61 lets nothing transfer control. -/
def NotTail (s : State) : Prop := s.th.isTail s.th.pc = false

/-- A destination with a wait-empty bit is empty (R59, R222). -/
def Vacant (s : State) (d : Fld) : Prop := d.sync = true →
  (d.spec.toNat < 0x80 → s.th.gFull d.spec.toNat = false) ∧
  (0x90 ≤ d.spec.toNat → d.spec.toNat ≤ 0xCF → ((s.core s.th.core).sreg (d.spec.toNat - 0x90)).full = false)

/-- An event is posted. -/
def Posted (s : State) (e : Instr) : Prop := ∃ p ∈ s.agenda, p.ev = e

end Sys2Proof.Claims

/-- R61, R241 to R243, R338: nop completes; br, brl, jr and jrl transfer control, to their own address plus four times the
displacement or to the address read, and the linking ones write the address of the next instruction; at the last instruction of
a loop body they trap 0x05; ebreak traps 0x0A. -/
def Sys2Proof.Claims.Transfers : Prop :=
  ∀ (s s₁ s₂ : State) (h : Head), Issues s h →
    let next := s.nextPC s.th s.th.pc
    (exec (.nop h) s = .next (s.finish .fall)) ∧
    (∀ n, exec (.ebreak h n) s = .next (s.takeTrap s.cur 0x0A#8 (BitVec.ofNat 64 n.toNat) 0#5)) ∧
    (∀ disp : BitVec 24, let tgt := BitVec.ofInt 64 (s.th.pc.toInt + 4 * disp.toInt)
      (NotTail s → exec (.br h disp) s = .next (s.finish (.jump tgt))) ∧
      (¬NotTail s → exec (.br h disp) s = .next (s.takeTrap s.cur 0x05#8 0#64 0#5)) ∧
      ∀ a : BitVec 8, FieldsOk s [(.ws, ⟨a, false⟩)] →
        (NotTail s → writeS ⟨a, false⟩ next s = .ok ((), s₂) → exec (.brl h a disp) s = .next (s₂.finish (.jump tgt))) ∧
        (¬NotTail s → exec (.brl h a disp) s = .next (s.takeTrap s.cur 0x05#8 0#64 0#5))) ∧
    (∀ (a : Fld) (x : Word), FieldsOk s [(.rs, a)] →
      (NotTail s → readS a s = .ok (x, s₁) → exec (.jr h a) s = .next (s₁.finish (.jump x))) ∧
      (¬NotTail s → exec (.jr h a) s = .next (s.takeTrap s.cur 0x05#8 0#64 0#5))) ∧
    (∀ (d a : Fld) (x : Word), FieldsOk s [(.ws, d), (.rs, a)] →
      (NotTail s → readS a s = .ok (x, s₁) → writeS d next s₁ = .ok ((), s₂) →
        exec (.jrl h d a) s = .next (s₂.finish (.jump x))) ∧
      (¬NotTail s → exec (.jrl h d a) s = .next (s.takeTrap s.cur 0x05#8 0#64 0#5))) ∧
    -- a false guard takes no branch, at the end of a body or not
    (∀ g : Head, s.th.passes g = false → ∀ i, (∃ disp, i = .br g disp) ∨ (∃ a disp, i = .brl g a disp) ∨ (∃ a, i = .jr g a) ∨
      (∃ d a, i = .jrl g d a) → exec i s = .next (s.finish .fall))

/-- R61, R244, R245: loop and loopi open a loop over the instructions up to the one they name, inside the loop that is open, if one
is; a count of 0 passes over the body and steps the outer loop if its last instruction is the same; a third loop, suspended ones
counted, traps 0x09; an end at or before the instruction, that is no marked start, or that lies beyond the end of the outer loop
traps 0x04. That an end in a line that cannot be read is no marked start and that control after it goes to the line itself (log 15),
and that a line of the end on a compressed page is touched first (log 105), is the model's choice. -/
def Sys2Proof.Claims.Loops : Prop :=
  ∀ (s s₁ : State) (h : Head) (i : Instr) (n : Word) (disp : BitVec 24), Issues s h →
    ((∃ a, i = .loop h a disp ∧ FieldsOk s [(.rs, ⟨a, false⟩)] ∧ readS ⟨a, false⟩ s = .ok (n, s₁)) ∨
     (∃ k, i = .loopi h k disp ∧ n = BitVec.ofNat 64 k.toNat ∧ s₁ = s)) →
    let e := BitVec.ofInt 64 (s.th.pc.toInt + 4 * disp.toInt)
    (2 ≤ s.th.loops.length → exec i s = .next (s.takeTrap s.cur 0x09#8 0#64 0#5)) ∧
    (s.th.loops.length < 2 →
      (e.toNat ≤ s.th.pc.toNat ∨ (expandLine s₁.th e s₁ = .ok ((), s₁) ∧ s₁.isStart s₁.th e = false)) →
      exec i s = .next (s.takeTrap s.cur 0x04#8 e 0#5)) ∧
    (∀ st, s.th.loops.length < 2 → s.th.pc.toNat < e.toNat → expandLine s₁.th e s₁ = .error st →
      exec i s = .next (s.stopped st)) ∧
    (∀ o, s.th.loops = [o] → o.sus = false → s.th.pc.toNat < e.toNat → expandLine s₁.th e s₁ = .ok ((), s₁) →
      o.stop.toNat < e.toNat → exec i s = .next (s.takeTrap s.cur 0x04#8 e 0#5)) ∧
    -- the end lies in the outer body
    (s.th.loops.length < 2 → (∀ o ∈ s.th.loops, o.sus = false → e.toNat ≤ o.stop.toNat) → s.th.pc.toNat < e.toNat →
      s₁.isStart s₁.th e = true →
      (n ≠ 0#64 → ∃ t, exec i s = .next t ∧ t.th.pc = s₁.nextPC s₁.th s.th.pc ∧
        t.th.loops = s.th.loops ++ [⟨s₁.nextPC s₁.th s.th.pc, e, n, false⟩] ∧ t.th.rest = s₁.th.rest ∧ SameMemory s₁ t) ∧
      (n = 0#64 → (∀ o ∈ s.th.loops, o.sus = true ∨ o.stop ≠ e) → ∃ t, exec i s = .next t ∧
        t.th.pc = s₁.nextPC s₁.th e ∧ t.th.loops = s.th.loops ∧ t.th.rest = s₁.th.rest ∧ SameMemory s₁ t) ∧
      (n = 0#64 → ∀ o, s.th.loops = [o] → o.sus = false → o.stop = e → ∃ t, exec i s = .next t ∧
        t.th.rest = s₁.th.rest ∧ SameMemory s₁ t ∧
        (1 < o.count.toNat → t.th.pc = o.start ∧ t.th.loops = [{ o with count := o.count - 1#64 }]) ∧
        (o.count.toNat ≤ 1 → t.th.pc = s₁.nextPC s₁.th e ∧ t.th.loops = [])))

/-- R53, R61, R246, R247: exit ends the thread; yield gives up the seat, to be ready behind its priority at the next
instruction. -/
def Sys2Proof.Claims.EndAndYield : Prop :=
  ∀ (s : State) (h : Head), Issues s h →
    (NotTail s → ∃ t, exec (.exit h) s = .next t ∧ t.th.life = .exited ∧ t.th.wait = .none ∧ t.th.posted = [] ∧
      s.cur ∉ (t.core s.th.core).run) ∧
    (∃ t, exec (.yield h) s = .next t ∧ t.th.life = .ready ∧ t.th.pc = (s.finish .fall).th.pc ∧
      (t.core s.th.core).run.getLast? = some s.cur ∧ t.th.g = s.th.g ∧ Posted t (.threadSeating s.th.core))

/-- R248 to R250: each wait completes with its result when what it waits for holds, and waits otherwise. -/
def Sys2Proof.Claims.Waits : Prop :=
  ∀ (s s₁ s₂ : State) (h : Head) (d a b : Fld) (mask : BitVec 4) (n : BitVec 16) (x : Word), Issues s h → AtAnchor s →
    (let ok := (mask.getLsbD 0 = true → s.th.outLd ≤ n.toNat) ∧ (mask.getLsbD 1 = true → s.th.outSt ≤ n.toNat) ∧
        (mask.getLsbD 2 = true → s.th.outCp ≤ n.toNat) ∧ (mask.getLsbD 3 = true → s.th.outHr ≤ n.toNat)
     (ok → exec (.waitc h mask n) s = .next (s.finish .fall)) ∧
     (¬ok → exec (.waitc h mask n) s = .next (s.startWait s.cur (.counters mask n.toNat)))) ∧
    (FieldsOk s [(.ws, d), (.rs, a)] → readS a s = .ok (x, s₁) →
      (x ≠ 0#64 → s₁.th.event &&& x = 0#64 → exec (.waiteEv h d a) s = .next (s.startWait s.cur (.event x))) ∧
      ((x = 0#64 ∨ s₁.th.event &&& x ≠ 0#64) → writeS d (s₁.th.event &&& x) s₁ = .ok ((), s₂) →
        exec (.waiteEv h d a) s = .next ((s₂.modTh fun t => { t with ev := t.ev &&& ~~~x }).finish .fall))) ∧
    (FieldsOk s [(.ws, d), (.ctr, b)] →
      let v := s.th.lR b.spec.toNat
      (v.toNat < n.toNat → exec (.waiteL h d b n) s = .next (s.startWait s.cur (.landing b.spec.toNat n.toNat))) ∧
      (n.toNat ≤ v.toNat → writeS d (BitVec.ofNat 64 v.toNat) s = .ok ((), s₂) → ∃ t, exec (.waiteL h d b n) s = .next t ∧
        (t.th.lR b.spec.toNat).toNat = v.toNat - n.toNat ∧ (∀ m, m ≠ b.spec.toNat → t.th.lR m = s.th.lR m) ∧
        t.th.g = s₂.th.g)) ∧
    (FieldsOk s [(.ws, d), (.buf, b)] →
      let c := (s.core s.th.core).cbuf b.spec.toNat
      (c.filled < n.toNat → exec (.waiteCb h d b n) s = .next (s.startWait s.cur (.filled b.spec.toNat n.toNat))) ∧
      (n.toNat ≤ c.filled → writeS d (BitVec.ofNat 64 c.filled) s = .ok ((), s₂) →
        exec (.waiteCb h d b n) s = .next (s₂.finish .fall))) ∧
    (FieldsOk s [(.ws, d), (.rs, a)] → readS a s = .ok (x, s₁) →
      (s₁.bookHere x = none → exec (.waiteBk h d a) s = .next (s.takeTrap s.cur 0x84#8 x 0#5)) ∧
      (∀ r i k, s₁.bookHere x = some (r, i, k) → (k.state = .started ∨ k.state = .ended) →
        writeS d (BitVec.ofNat 64 k.start) s₁ = .ok ((), s₂) → exec (.waiteBk h d a) s = .next (s₂.finish .fall)) ∧
      (∀ r i k, s₁.bookHere x = some (r, i, k) → k.state = .cancelled → writeS d 0#64 s₁ = .ok ((), s₂) →
        exec (.waiteBk h d a) s = .next (s₂.finish .fall)) ∧
      (∀ r i k, s₁.bookHere x = some (r, i, k) →
        (k.state = .submitted ∨ k.state = .pending ∨ k.state = .committed ∨ k.state = .saved) →
        (Vacant s₁ d → exec (.waiteBk h d a) s = .next (s.startWait s.cur (.booking x d a))) ∧
        (¬Vacant s₁ d → exec (.waiteBk h d a) s = .next (s.startWait s.cur (.fullBit d.spec false)))))

/-- R203, R251: trap raises the software cause 0xF0 + n with its immediate as tval, and enters the handler. -/
def Sys2Proof.Claims.SoftwareTrap : Prop :=
  ∀ (s : State) (h : Head) (n : BitVec 4) (code : BitVec 16), Issues s h →
    (NotTail s → exec (.trap h n code) s =
      .next (s.takeTrap s.cur (BitVec.ofNat 8 (0xF0 + n.toNat)) (BitVec.ofNat 64 code.toNat) 0#5)) ∧
    (¬NotTail s → exec (.trap h n code) s = .next (s.takeTrap s.cur 0x05#8 0#64 0#5))

/-- R207, R208, R252: eret restores the mode and ie saved in status, discards the handler's loops, resumes the suspended ones
and continues at epc, eret.next at the instruction after it; an epc that is no marked start traps 0x04. -/
def Sys2Proof.Claims.ReturnFromTrap : Prop :=
  ∀ (s : State) (h : Head) (l : Nat), Issues s h → s.th.mode ≠ 0#2 → NotTail s → AtAnchor s →
    let t := s.th
    let st := t.status
    s.peekLine t.leave (lineOf t.epc) = some l → lineCause l (lineOf t.epc) = none →
    let good := t.epc.toNat % 4 = 0 ∧ hdrStart l (slotOf t.epc) = true
    let back := fun (u : State) => u.th.mode = st.extractLsb' 10 2 ∧ u.th.ie = st.getLsbD 9 ∧
      (∀ b, 3 ≤ b → b < 12 → u.th.status.getLsbD b = st.getLsbD b) ∧ u.th.g = t.g ∧ u.th.pred = t.pred ∧
      u.th.epc = t.epc ∧ u.th.cCode = t.cCode ∧ SameMemory s u
    (¬good → exec (.eret h) s = .next (s.takeTrap s.cur 0x04#8 t.epc 0#5) ∧
      exec (.eretNext h) s = .next (s.takeTrap s.cur 0x04#8 t.epc 0#5)) ∧
    (good → ∃ u, exec (.eret h) s = .next u ∧ u.th.pc = t.epc ∧ back u ∧
      u.th.loops = (t.loops.filter (·.sus)).map (fun x => { x with sus := false })) ∧
    (good → l >>> (32 * slotOf t.epc) % 2 ^ 10 / 4 ≠ 0xB0 → (∀ x ∈ t.loops, x.sus = true → x.stop ≠ t.epc) →
      ∃ u, exec (.eretNext h) s = .next u ∧ u.th.pc = s.nextPC t.leave t.epc ∧ back u)

/-- R59, R223, R240: a destination handed off is empty until its answer arrives, the answer counts in the outstanding-store
counter, and a wait-empty bit is honoured at issue. -/
def Obligations.HandedOff : Prop :=
  ∀ (s : State) (f : Fld) (n : Nat), n = f.spec.toNat →
    let t := s.th
    (n < 0x80 → f.sync = true → t.gFull n = true → handOut f s = .error (.wait (.fullBit f.spec false))) ∧
    (n < 0x80 → (f.sync = false ∨ t.gFull n = false) → ∃ u, handOut f s = .ok ((), u) ∧ u.th.gFull n = false ∧
      u.th.outSt = t.outSt + 1 ∧ (∀ m, u.th.gR m = t.gR m) ∧ (∀ m, m ≠ n → u.th.gFull m = t.gFull m) ∧ SameMemory s u) ∧
    (n = 0x80 → ∃ u, handOut f s = .ok ((), u) ∧ u.th.outSt = t.outSt + 1 ∧ u.th.gEmpty = t.gEmpty) ∧
    (∀ (u : Word32) (x : Word), (s.thr u).life ≠ .exited → (s.thr u).life ≠ .swappedOut → (s.threads.look u.toNat).isSome = true →
      n < 0x80 → ∃ v, exec (.statusAnswer u f x) s = .next v ∧ (v.thr u).gR n = x ∧ (v.thr u).gFull n = true ∧
        (v.thr u).outSt = (s.thr u).outSt - 1 ∧ ∀ m, m < 0x80 → m ≠ n → (v.thr u).gR m = (s.thr u).gR m)

namespace Sys2Proof.Claims

/-- An instruction completes by handing an answer off: the answer's destination is given up and a message is on its way. -/
def Sends (s : State) (i : Instr) (d : Fld) (s₁ : State) (e : Instr) : Prop :=
  ∀ u, handOut d s₁ = .ok ((), u) → ∃ t, exec i s = .next t ∧ Posted t e ∧ t.th.outSt = u.th.outSt ∧ t.th.gEmpty = u.th.gEmpty ∧
    t.th.g = u.th.g ∧ SameMemory s t

end Sys2Proof.Claims

/-- R189, R240, R254, R256, R258, R259, R302, R312: send, signal, kill, publish and bar.a complete at issue
with their message sent and their answer owed; kill of the issuer ends it. -/
def Sys2Proof.Claims.Messages : Prop :=
  ∀ (s s₁ : State) (h : Head) (d a b : Fld) (k : BitVec 4) (x y : Word), Issues s h →
    (FieldsOk s [(.ws, d), (.rs, a), (.rs, b)] → readAll [a, b] s = .ok ([x, y], s₁) →
      Sends s (.send h d a b) d s₁ (.mailboxDelivery s.cur d x y) ∧
      Sends s (.signal h d a b) d s₁ (.signalDelivery s.cur d x y)) ∧
    (FieldsOk s [(.ws, d), (.rs, a)] → readS a s = .ok (x, s₁) →
      (x ≠ s.cur.zeroExtend 64 → Sends s (.kill h d a) d s₁ (.killRequest s.cur d x)) ∧
      (x = s.cur.zeroExtend 64 → ∃ t, exec (.kill h d a) s = .next t ∧ t.th.life = .exited)) ∧
    (FieldsOk s [(.ws, d)] →
      Sends s (.publish h d) d s (.publishApply s.cur d) ∧
      Sends s (.barArr h d k) d s (.barrierArrival s.cur k d false))

/-- R257, R260: recv takes the oldest message or waits for one; recv.try says in a predicate whether it took one; swap leaves
the new value in a shared register, full, and answers the old one, or a value that only plain writes of the last 15 cycles have
replaced. -/
def Sys2Proof.Claims.Receive : Prop :=
  ∀ (s s₁ s₂ : State) (h : Head) (d a b : Fld) (y : Word), Issues s h → AtAnchor s →
    (FieldsOk s [(.ws, d)] →
      (s.th.mailbox = [] → exec (.recv h d) s = .next (s.startWait s.cur .mailbox)) ∧
      (∀ x r, s.th.mailbox = x :: r → writeS d x s = .ok ((), s₂) →
        exec (.recv h d) s = .next ((s₂.modTh fun t => { t with mailbox := r }).finish .fall))) ∧
    (FieldsOk s [(.ws, d), (.pred, b)] →
      (s.th.mailbox = [] → exec (.recvTry h d b) s = .next (withPred s b.spec.toNat false)) ∧
      (∀ x r, s.th.mailbox = x :: r → writeS d x s = .ok ((), s₂) →
        exec (.recvTry h d b) s = .next (withPred (s₂.modTh fun t => { t with mailbox := r }) b.spec.toNat true))) ∧
    (FieldsOk s [(.ws, d), (.swp, a), (.rs, b)] → readS b s = .ok (y, s₁) → d.spec.toNat < 0x80 →
      (d.sync = false ∨ s₁.th.gFull d.spec.toNat = false) →
      let r := (s₁.core s.th.core).sreg (a.spec.toNat - 0x90)
      ∃ t x, exec (.swap h d a b) s = .next t ∧ t.th.gR d.spec.toNat = x ∧ t.th.gFull d.spec.toNat = true ∧
        (x = r.value ∨ ∃ e ∈ r.olds, e.1 = x ∧ e.2.2 = true ∧ e.2.1 < s.now ∧ s.now < e.2.1 + 16) ∧
        ((∀ e, r.olds.head? = some e → e.2.2 = false ∨ s.now ≤ e.2.1 ∨ e.2.1 + 16 ≤ s.now) → x = r.value) ∧
        ((t.core s.th.core).sreg (a.spec.toNat - 0x90)).value = y ∧
        ((t.core s.th.core).sreg (a.spec.toNat - 0x90)).full = true) ∧
    -- with the register itself as d, it reads into it first and then writes b
    (FieldsOk s [(.ws, d), (.swp, a), (.rs, b)] → readS b s = .ok (y, s₁) → d.spec = a.spec → d.sync = false →
      ∃ t, exec (.swap h d a b) s = .next t ∧ ((t.core s.th.core).sreg (a.spec.toNat - 0x90)).value = y ∧
        ((t.core s.th.core).sreg (a.spec.toNat - 0x90)).full = true)

/-- R43, R44, R255: migr of a roaming thread leaves for the core it names and answers there; it answers 1 in a rooted thread,
2 for a core that is not of the partition and 3 for the own core, and traps 0xA8 inside a loop. -/
def Sys2Proof.Claims.Migrate : Prop :=
  ∀ (s s₁ s₂ : State) (h : Head) (d a : Fld) (x : Word), Issues s h → FieldsOk s [(.ws, d), (.rs, a)] →
    readS a s = .ok (x, s₁) →
    let code := if s.th.roaming = false then some 1#64 else if s.inPart s.th.part x.toNat = none then some 2#64
      else if s.inPart s.th.part x.toNat = some s.th.core then some 3#64 else none
    ((s.th.roaming = true → s.th.loops = []) → ∀ c, code = some c → writeS d c s₁ = .ok ((), s₂) →
      exec (.migr h d a) s = .next (s₂.finish .fall)) ∧
    (s.th.roaming = true → s.th.loops ≠ [] → exec (.migr h d a) s = .next (s.takeTrap s.cur 0xA8#8 0#64 0#5)) ∧
    (s.th.roaming = true → s.th.loops = [] → s.th.outLd = 0 → s.th.outSt = 0 → ∀ c, s.inPart s.th.part x.toNat = some c →
      c ≠ s.th.core → handOff d s₁ = .ok ((), s₂) → ∃ t, exec (.migr h d a) s = .next t ∧ t.th.life = .migrating ∧
        t.th.arrive = some d ∧ Posted t (.migrationArrival s.cur c))

/-! ### Pages, buffers, tasks, barriers and queues -/

/-- R74, R75, R307: pgmig completes at issue with its answer owed: 1 for an address that does not translate, 2 for a page that
must not move, 3 without permission, 4 for .far on a large page, 5 when no frame is free, 0 when the page lies there already;
else the move begins or is joined. The order of the statuses (log 46), that a page already moving is asked for again when its
move is over, and that a migrating bit without a move is ignored (log 100), is the model's choice. -/
def Sys2Proof.Claims.PageAnswers : Prop :=
  ∀ (s s₁ s₂ : State) (h : Head) (d a : Fld) (far : Bool) (va : Word), Issues s h → FieldsOk s [(.ws, d), (.rs, a)] →
    readS a s = .ok (va, s₁) → (far = true → s.th.mode ≠ 0#2) →
    let i : Instr := if far then .pgmigFar h d a else .pgmigNear h d a
    let v := va.toNat % 2 ^ 48
    let ans := fun (x : Word) => ∃ t, exec i s = .next t ∧ Posted t (.statusAnswer s.cur d x) ∧ t.th.gEmpty = s₂.th.gEmpty ∧
      t.th.outSt = s₂.th.outSt
    (canonical va = false → exec i s = .next (s.takeTrap s.cur 0x45#8 va 0#5)) ∧
    (canonical va = true → handOut d s₁ = .ok ((), s₂) →
      -- the walk reads its entries
      let w := s₂.walkRead s.th.core s.th.part v
      (∀ c ws, w.walk s.th.core s.th.part v = (.error c, ws) → ans 1#64) ∧
      (∀ l ws, w.walk s.th.core s.th.part v = (.ok l, ws) →
        let e := l.pte
        (pteBit e 63 = true → ans 2#64) ∧
        (pteBit e 63 = false →
          ((s.th.user && !pteBit e 4) = true ∨ (pteBit e 1 = false ∧ pteBit e 2 = false) → ans 3#64) ∧
          (((s.th.user && !pteBit e 4) = false ∧ (pteBit e 1 = true ∨ pteBit e 2 = true)) →
            (far = true → l.level ≠ 1 → ans 4#64) ∧
            ((far = false ∨ l.level = 1) →
              -- no move of the page is in progress
              (pteBit e 7 = false ∨ s₂.pageOf l.addr = none →
                (far = true → pteBit e 8 = false → pteBit e 6 = true → ans 0#64) ∧
                (far = false → pteBit e 6 = false → pteBit e 8 = false → ans 0#64) ∧
                (far = true → pteBit e 8 = false → pteBit e 6 = false → s₂.farPool = [] → ans 5#64) ∧
                (far = false ∨ pteBit e 8 = true → (pteBit e 6 || pteBit e 8) = true → (s₂.core s.th.core).frames = [] →
                  ans 5#64)) ∧
              -- one is, and is joined
              (∀ op x, pteBit e 7 = true → s₂.pageOf l.addr = some (op, x) → ∃ t y, exec i s = .next t ∧
                t.pages.look op = some y ∧ y.askers = x.askers ++ [(s.cur, d, far)] ∧ y.waiters = x.waiters))))))

/-- R74, R75, R240, R307: with its operands readable and its destination given up, pgmig of a canonical address completes, its
answer on its way or owed by the move of the page; .near takes a frame of the own pool for a far or compressed page, .far one
of the far tier for a near page. -/
def Sys2Proof.Claims.PageMoves : Prop :=
  ∀ (s s₁ s₂ : State) (h : Head) (d a : Fld) (va : Word), Issues s h → FieldsOk s [(.ws, d), (.rs, a)] →
    readS a s = .ok (va, s₁) → canonical va = true → handOut d s₁ = .ok ((), s₂) →
    let owed := fun (t : State) (far : Bool) => t.th.gEmpty = s₂.th.gEmpty ∧ t.th.outSt = s₂.th.outSt ∧
      ((∃ x, Posted t (.statusAnswer s.cur d x)) ∨ ∃ op x, t.pages.look op = some x ∧ (s.cur, d, far) ∈ x.askers)
    let begins := fun (t : State) (l : Leaf) (far : Bool) (f : Nat) => ∃ x, t.pages.look s.nextOp = some x ∧ x.va = va ∧
      x.leaf = l.addr ∧ x.pfn = pteAddr l.pte / 4096 ∧ x.evict = far ∧ x.frame = some f ∧ x.askers = [(s.cur, d, far)]
    (∃ t, exec (.pgmigNear h d a) s = .next t ∧ owed t false) ∧
    (s.th.mode ≠ 0#2 → ∃ t, exec (.pgmigFar h d a) s = .next t ∧ owed t true) ∧
    ∀ l ws, (s₂.walkRead s.th.core s.th.part (va.toNat % 2 ^ 48)).walk s.th.core s.th.part (va.toNat % 2 ^ 48) = (.ok l, ws) →
      pteBit l.pte 63 = false → pteBit l.pte 7 = false →
      (s.th.user && !pteBit l.pte 4) = false → (pteBit l.pte 1 = true ∨ pteBit l.pte 2 = true) →
      (∀ f fs, (pteBit l.pte 6 || pteBit l.pte 8) = true → (s₂.core s.th.core).frames = f :: fs →
        (∀ e ∈ s₂.pages, ¬(e.2.core = s.th.core ∧ e.2.evict = false ∧ e.2.frame = none)) → s₂.pageOf l.addr = none →
        ∃ t, exec (.pgmigNear h d a) s = .next t ∧ owed t false ∧ begins t l false f ∧ (t.core s.th.core).frames = fs ∧
          Posted t (.migrationComplete s.nextOp)) ∧
      (∀ f fs, s.th.mode ≠ 0#2 → l.level = 1 → pteBit l.pte 6 = false → pteBit l.pte 8 = false → s₂.farPool = f :: fs →
        ∃ t, exec (.pgmigFar h d a) s = .next t ∧ owed t true ∧ begins t l true f ∧ t.farPool = fs)

/-- R74, R75, R307: the requests for a page to move: what they answer, and the moves they begin. -/
def Obligations.PageRequests : Prop := PageAnswers ∧ PageMoves

/-- R95, R308 to R310: cbset describes an empty buffer; cbpop answers the head entry's offset and frees nothing until cbpush
answers and frees the oldest entry popped; an empty pop traps 0x86 and a push of nothing 0x87. -/
def Obligations.CircularBuffers : Prop :=
  ∀ (s s₁ s₂ : State) (h : Head) (d a b : Fld), Issues s h →
    let core := s.th.core
    let n := b.spec.toNat
    let c := (s.core core).cbuf n
    (∀ (size : BitVec 11) (lgn : BitVec 4) (base : Word), FieldsOk s [(.buf, d), (.rs, a)] → readS a s = .ok (base, s₁) →
      1 ≤ size.toNat → size.toNat ≤ 1024 → 1 ≤ lgn.toNat → lgn.toNat ≤ 8 → base.toNat % 64 = 0 →
      base.toNat + 64 * size.toNat * 2 ^ lgn.toNat ≤ 0x100000 →
      (∀ e ∈ s.copies, e.2.live = true → e.2.core = core → e.2.cb ≠ some d.spec.toNat) →
      ∃ t, exec (.cbset h d a size lgn) s = .next t ∧ (t.core core).cbuf d.spec.toNat =
        ⟨base.toNat, 64 * size.toNat, 2 ^ lgn.toNat, 0, 0, 0, 2 ^ lgn.toNat, 0⟩ ∧
        ∀ m, m ≠ d.spec.toNat → (t.core core).cbuf m = (s.core core).cbuf m) ∧
    (FieldsOk s [(.ws, d), (.buf, b)] →
      (c.filled = 0 → exec (.cbpop h d b) s = .next (s.takeTrap s.cur 0x86#8 (BitVec.ofNat 64 n) 0#5)) ∧
      (0 < c.filled → writeS d (BitVec.ofNat 64 (c.base + c.size * c.head)) s = .ok ((), s₂) →
        ∃ t, exec (.cbpop h d b) s = .next t ∧ t.th.g = s₂.th.g ∧ (t.core core).cbuf n =
          { c with head := (c.head + 1) % c.n, filled := c.filled - 1, out := c.out + 1 }) ∧
      (c.out = 0 → exec (.cbpush h d b) s = .next (s.takeTrap s.cur 0x87#8 (BitVec.ofNat 64 n) 0#5)) ∧
      (0 < c.out → c.out ≤ c.n → c.head < c.n →
        writeS d (BitVec.ofNat 64 (c.base + c.size * (if c.out ≤ c.head then c.head - c.out else c.head + c.n - c.out))) s = .ok ((), s₂) →
        ∃ t, exec (.cbpush h d b) s = .next t ∧ t.th.g = s₂.th.g ∧ (t.core core).cbuf n =
          { c with out := c.out - 1, free := c.free + 1 }))

/-- R137, R141, R311: tenq, tdec and tset send their message to the home of the task and count it until it is applied; a name
that is no record of the partition traps 0xA1. -/
def Sys2Proof.Claims.TaskMessagesSent : Prop :=
  ∀ (s s₁ : State) (h : Head) (a b : Fld) (i : Instr) (name : Word) (op : TaskOp), Issues s h →
    ((i = .tenq h a ∧ op = .tenq ∧ FieldsOk s [(.rs, a)] ∧ readS a s = .ok (name, s₁)) ∨
     (i = .tdec h a ∧ op = .tdec ∧ FieldsOk s [(.rs, a)] ∧ readS a s = .ok (name, s₁)) ∨
     (∃ y : Word, i = .tset h a b ∧ op = .tset (BitVec.ofNat 32 y.toNat) ∧ FieldsOk s [(.rs, a), (.rs, b)] ∧
       readAll [a, b] s = .ok ([name, y], s₁))) →
    let off := name.toNat % 2 ^ 20
    let lc := name.toNat / 2 ^ 32 % 1024
    let good := name.toNat = lc * 2 ^ 32 + off ∧ off % 128 = 0 ∧ (s.inPart s.th.part lc).isSome = true
    (good → ∃ t, exec i s = .next t ∧ Posted t (.taskMessage s.cur name op) ∧ t.th.outSt = s.th.outSt + 1) ∧
    (¬good → exec i s = .next (s.takeTrap s.cur 0xA1#8 name 0#5))

/-- R178 to R181, R312: bar.aw sends its arrival and waits for the release; bar.wait completes with the generation when it is
not the one named, and waits for it otherwise. -/
def Sys2Proof.Claims.BarrierInstructions : Prop :=
  ∀ (s s₁ s₂ : State) (h : Head) (d a : Fld) (k : BitVec 4) (g : Word), Issues s h →
    (FieldsOk s [(.ws, d)] →
      (Vacant s d → ∃ t, exec (.barAw h d k) s = .next t ∧ t.th.wait = .arrival k ∧ t.th.life = .waitUnseated ∧
        t.th.pc = s.th.pc ∧ t.th.outSt = s.th.outSt + 1 ∧ Posted t (.barrierArrival s.cur k d true)) ∧
      (¬Vacant s d → exec (.barAw h d k) s = .next (s.startWait s.cur (.fullBit d.spec false)))) ∧
    (FieldsOk s [(.ws, d), (.rs, a)] → readS a s = .ok (g, s₁) →
      let b := s.barriers.lookD (16 * s.th.part + k.toNat) ⟨none, [], [], 0#32, []⟩
      (b.gen.toNat ≠ g.toNat % 2 ^ 32 → writeS d (BitVec.ofNat 64 b.gen.toNat) s₁ = .ok ((), s₂) →
        exec (.barWait h d a k) s = .next (s₂.finish .fall)) ∧
      (b.gen.toNat = g.toNat % 2 ^ 32 → exec (.barWait h d a k) s = .next (s.startWait s.cur (.barrier k b.gen false d))))

/-- R177, R314: qput sends the capability and the packet it reads in the scratchpad and waits for its answer. -/
def Sys2Proof.Claims.QueuePutIssue : Prop :=
  ∀ (s s₁ : State) (h : Head) (d a b : Fld) (x y : Word), Issues s h → FieldsOk s [(.ws, d), (.rs, a), (.rs, b)] →
    readAll [a, b] s = .ok ([x, y], s₁) → SpOk s x 32 32 false → SpOk s y 64 64 false → Vacant s₁ d →
    ∃ t, exec (.qput h d a b) s = .next t ∧ t.th.wait = .qput d ∧ t.th.life = .waitUnseated ∧ SameMemory s t ∧
      t.th.outSt = s.th.outSt + 1 ∧
      Posted t (.qputRequest s.cur d x (BitVec.ofNat 256 (valueAt s (.sp s.th.core) x.toNat 32))
        (BitVec.ofNat 512 (valueAt s (.sp s.th.core) y.toNat 64)))

/-! ### Dual, bounds, tangents -/

/-- R129, R331: dual selects tangents for the next instruction, which starts at the prefix's own address when it traps; a
thread without tangents, an empty mask, one above k and the last place of a loop body trap 0x06. -/
def Sys2Proof.Claims.DualPrefix : Prop :=
  ∀ (s : State) (m : BitVec 4), s.th.atPort = false →
    (s.th.k = 0 → exec (.dual m) s = .next (s.takeTrap s.cur 0x06#8 0#64 0#5)) ∧
    (s.th.k ≠ 0 → (m = 0#4 ∨ 2 ^ s.th.k ≤ m.toNat) →
      exec (.dual m) s = .next (s.takeTrap s.cur 0x06#8 (BitVec.ofNat 64 m.toNat) 0#5)) ∧
    (s.th.k ≠ 0 → m ≠ 0#4 → m.toNat < 2 ^ s.th.k → ¬NotTail s →
      exec (.dual m) s = .next (s.takeTrap s.cur 0x06#8 0#64 0#5)) ∧
    (s.th.k ≠ 0 → m ≠ 0#4 → m.toNat < 2 ^ s.th.k → NotTail s → ∃ t, exec (.dual m) s = .next t ∧
      t.th.pc = s.nextPC s.th s.th.pc ∧ t.th.restart = s.th.pc ∧ t.th.g = s.th.g ∧ SameMemory s t ∧
      (∀ j, j ∈ t.th.sel ↔ j < s.th.k ∧ m.getLsbD j = true))

/-- R33, R128, R332, R333: bndr and bndw read and write the bound of a plane, bndw.max keeping the larger; tanr and tanw move one
tangent, scalar or vector, and leave the primal; a wait-empty bit on the scalar destination of tanw traps 0x23 (log 37). -/
def Sys2Proof.Claims.BoundsAndTangents : Prop :=
  ∀ (s s₁ s₂ : State) (h : Head) (d a : Fld) (j : BitVec 3) (x : Word), Issues s h → s.th.regErr = [] → j.toNat ≤ s.th.k →
    let plane := fun (t : Thread) (n : Nat) => if j.toNat = 0 then t.vB n else t.vTb (j.toNat - 1) n
    (FieldsOk s [(.ws, d), (.vec, a)] → writeS d (BitVec.ofNat 64 (plane s.th a.spec.toNat).toNat) s = .ok ((), s₂) →
      exec (.bndr h d a j) s = .next (s₂.finish .fall)) ∧
    (∀ mx : Bool, FieldsOk s [(.vec, d), (.rs, a)] → readS a s = .ok (x, s₁) →
      ∃ t, exec (.bndw h d a j mx) s = .next t ∧ plane t.th d.spec.toNat =
        (let b := bClean (BitVec.ofNat 32 x.toNat)
         if mx then bMax (plane s.th d.spec.toNat) b else b) ∧ t.th.v = s.th.v ∧ t.th.vt = s.th.vt) ∧
    (1 ≤ j.toNat →
      (FieldsOk s [(.ws, d), (.gOnly, a)] → readS a s = .ok (x, s₁) →
        writeS d (s.th.gT (j.toNat - 1) a.spec.toNat) s₁ = .ok ((), s₂) → exec (.tanr h d a j false) s = .next (s₂.finish .fall)) ∧
      (FieldsOk s [(.vec, d), (.vec, a)] → ∃ t, exec (.tanr h d a j true) s = .next t ∧
        t.th.vR d.spec.toNat = s.th.vT (j.toNat - 1) a.spec.toNat ∧ t.th.vB d.spec.toNat = s.th.vTb (j.toNat - 1) a.spec.toNat ∧
        ∀ i, i < s.th.k → t.th.vT i d.spec.toNat = 0#512) ∧
      (d.sync = true → exec (.tanw h d a j false) s = .next (s.takeTrap s.cur 0x23#8 (BitVec.ofNat 64 d.spec.toNat) 0#5)) ∧
      (d.sync = false → FieldsOk s [(.gOnly, d), (.rs, a)] → s.th.gFull d.spec.toNat = true → readS a s = .ok (x, s₁) →
        ∃ t, exec (.tanw h d a j false) s = .next t ∧ t.th.gT (j.toNat - 1) d.spec.toNat = x ∧ t.th.g = s.th.g ∧
          ∀ i, i ≠ j.toNat - 1 → t.th.gT i d.spec.toNat = s.th.gT i d.spec.toNat) ∧
      (FieldsOk s [(.vec, d), (.vec, a)] → ∃ t, exec (.tanw h d a j true) s = .next t ∧
        t.th.vT (j.toNat - 1) d.spec.toNat = s.th.vR a.spec.toNat ∧ t.th.vTb (j.toNat - 1) d.spec.toNat = s.th.vB a.spec.toNat ∧
        t.th.v = s.th.v))

/-! ### Control registers and the system -/

namespace Sys2Proof.Claims

/-- What each control register reads (R228). -/
def csrValue (s : State) (n : Nat) : Word :=
  let t := s.th
  if n = 0x000 then BitVec.ofNat 64 t.status.toNat else if n = 0x001 then t.cause else if n = 0x002 then t.tval
  else if n = 0x003 then t.epc else if n = 0x004 then t.tvec else if n = 0x010 then BitVec.ofNat 64 t.fpctl.toNat
  else if n = 0x011 then BitVec.ofNat 64 t.fpflags.toNat else if n = 0x012 then t.tstride else if n = 0x013 then t.bthr
  else if n = 0x014 then BitVec.ofNat 64 t.slice else if n = 0x015 then BitVec.ofNat 64 t.prio.toNat else if n = 0x016 then t.qlink
  else if n = 0x020 then BitVec.ofNat 64 t.thid.toNat else if n = 0x021 then BitVec.ofNat 64 t.rank
  else if n = 0x022 then BitVec.ofNat 64 t.gsize else if n = 0x030 then BitVec.ofNat 64 ((s.logOf t.core).getD 0)
  else if n = 0x031 then BitVec.ofNat 64 t.core else s.tick

/-- The bits a write of a control register changes (R13, R22, R23, R56, R108, R134, R209), where it is no status word and no
qlink. -/
def csrMask (n : Nat) : Word :=
  if n = 0x001 then 0xC0000000000000FF#64 else if n = 0x002 then 0xFFFFFFFFFFFFFFFF#64 else if n = 0x003 then 0xFFFFFFFFFFFFFFFC#64
  else if n = 0x004 then 0xFFFFFFFFFFFFFF80#64 else if n = 0x010 then 0x1F07#64 else if n = 0x011 then 0x1F#64
  else if n = 0x012 then 0x0000FFFFFFFFFFC0#64 else if n = 0x013 then 0x33F#64 else if n = 0x014 then 0xFFFF#64
  else if n = 0x015 then 3#64 else 0#64

/-- The value a csr instruction gives the register: its own, or of the old value the bits of a set or cleared; on fpflags csrw
clears. -/
def csrNew (i : Instr) (old x : Word) : Word :=
  match i with
  | .csrw _ _ _ n => if n.toNat = 0x011 then old &&& ~~~x else x
  | .csrs .. => old ||| x
  | .csrc .. => old &&& ~~~x
  | _ => x

/-- The register after a csr instruction that gives it the value y (R48, R189, R228, R334): status keeps its read-only fields, and a
mode or pmd field of 0b11 is discarded; qlink stores 0 for a malformed value; the others keep their reserved bits at zero. -/
def csrKept (n : Nat) (old y : Word) : Word :=
  let field (sh : Nat) : Nat := if y.toNat / 2 ^ sh % 4 = 3 then old.toNat / 2 ^ sh % 4 else y.toNat / 2 ^ sh % 4
  if n = 0 then (old &&& 0xF8#64) ||| (y &&& 0x304#64) ||| BitVec.ofNat 64 (field 0 + field 10 * 1024)
  else if n = 0x016 then (if y.toNat < 128 ∧ y.toNat / 16 ≤ 4 ∧ y.toNat % 16 ≤ 4 then y else 0#64)
  else y &&& csrMask n

/-- The opcode of an instruction that writes a control register (R334). -/
def csrOp : Instr → Word
  | .csrw .. => 0xC1#64
  | .csrs .. => 0xC2#64
  | _ => 0xC3#64

/-- A thread with its control registers and the slice timer erased. -/
def noCsr (t : Thread) : Thread :=
  { t with
    status := 0#12, cAsync := false, cLost := false, cCode := 0#8, tval := 0#64, epc := 0#64, tvec := 0#64, fpctl := 0#13
    fpflags := 0#5, tstride := 0#64, bthr := 0#64, slice := 0, sliceCnt := 0, slicePend := false, prio := 0#2, qlink := 0#64 }

end Sys2Proof.Claims

/-- R13, R45, R48, R228, R334: csrr answers a register; csrw, csrs and csrc change it and answer its old value in d, whatever
scalar register d names, with every other control register, register, thread and memory as that answer leaves them; a write of
slice restarts its timer; a status write that would enter firmware mode elsewhere than there traps with the opcode; a roaming
thread away from its anchor waits for it. That a pmd field of 0b11 is discarded as a mode of 0b11 is (log 36) is the model's
choice. -/
def Obligations.ControlRegisters : Prop :=
  ∀ (s s₁ s₂ : State) (h : Head) (d a : Fld) (n : BitVec 12) (x : Word) (i : Instr), Issues s h → csrAssigned n = true →
    let anchored := (1 ≤ n.toNat ∧ n.toNat ≤ 4) ∨ n.toNat = 0x012
    (FieldsOk s [(.ws, d)] →
      (anchored → ¬AtAnchor s → exec (.csrr h d n) s = .next (s.stopped (.wait .anchor))) ∧
      ((anchored → AtAnchor s) → writeS d (csrValue s n.toNat) s = .ok ((), s₂) →
        exec (.csrr h d n) s = .next (s₂.finish .fall))) ∧
    ((i = .csrw h d a n ∨ i = .csrs h d a n ∨ i = .csrc h d a n) → csrClosed s n = false → FieldsOk s [(.ws, d), (.rs, a)] →
      (anchored → ¬AtAnchor s → exec i s = .next (s.stopped (.wait .anchor))) ∧
      ((anchored → AtAnchor s) → readS a s = .ok (x, s₁) →
        let old := csrValue s₁ n.toNat
        let y := csrNew i old x
        let enters := n.toNat = 0 ∧ y.toNat % 4 = 2 ∧ ¬(s.th.mode = 2#2 ∧ s.isGable s.th.core = true)
        (enters → exec i s = .next (s.takeTrap s.cur 0x07#8 (csrOp i) 0#5)) ∧
        (¬enters → writeS d old s₁ = .ok ((), s₂) → ∃ u, exec i s = .next (u.finish .fall) ∧
          csrValue u n.toNat = csrKept n.toNat old y ∧
          (∀ m, csrAssigned m = true → m ≠ n → csrValue u m.toNat = csrValue s₂ m.toNat) ∧
          (n.toNat = 0x014 → u.th.sliceCnt = 0 ∧ u.th.slicePend = false) ∧
          (n.toNat ≠ 0x014 → u.th.sliceCnt = s₂.th.sliceCnt ∧ u.th.slicePend = s₂.th.slicePend) ∧
          noCsr u.th = noCsr s₂.th ∧ (∀ id, id ≠ s.cur → u.thr id = s₂.thr id) ∧ { u with threads := s₂.threads } = s₂)))

/-- R73, R75, R335: the local forms of tlbi drop the translations and the walk-cache entries of the core that they name and answer
0; the others send the invalidation to every core of the partition and answer when all have replied. That tlbi.all and tlbi.lall
read no operand (log 38) is the model's choice. -/
def Sys2Proof.Claims.TlbInvalidate : Prop :=
  ∀ (s s₁ : State) (h : Head) (d a : Fld) (va : Word), Issues s h → s.th.mode ≠ 0#2 → FieldsOk s [(.ws, d), (.rs, a)] →
    d.spec.toNat < 0x80 → d.sync = false →
    let core := s.th.core
    let part := s.th.part
    (∃ t, exec (.tlbiLall h d a) s = .next t ∧ (t.core core).tlb = [] ∧ (t.core core).walk = [] ∧ t.th.gR d.spec.toNat = 0#64) ∧
    (readS a s = .ok (va, s₁) →
      (canonical va = true → ∃ t, exec (.tlbiLva h d a) s = .next t ∧
        (∀ e, e ∈ (t.core core).tlb ↔ e ∈ (s.core core).tlb ∧
          ¬(e.vpn ≤ va.toNat % 2 ^ 48 / 4096 ∧ va.toNat % 2 ^ 48 / 4096 < e.vpn + e.pages)) ∧
        t.th.gR d.spec.toNat = 0#64 ∧
        ∀ w, w ∈ (t.core core).walk ↔ w ∈ (s.core core).walk ∧ w.tag ≠ va.toNat % 2 ^ 48 / 2 ^ levelBits w.level) ∧
      (canonical va = false → exec (.tlbiLva h d a) s = .next (s.takeTrap s.cur 0x45#8 va 0#5)) ∧
      (canonical va = true → s₁.pendOf s.cur = [] → s.partCores part ≠ [] → ∃ t x, exec (.tlbiVa h d a) s = .next t ∧
        t.th.gFull d.spec.toNat = false ∧ t.th.outSt = s.th.outSt + 1 ∧ t.invals.look s.nextOp = some x ∧
        x.waiting = s.partCores part ∧ ∀ c ∈ s.partCores part, Posted t (.shootdown c (some va) s.nextOp))) ∧
    (s.pendOf s.cur = [] → s.partCores part ≠ [] → ∃ t x, exec (.tlbiAll h d a) s = .next t ∧
      t.th.gFull d.spec.toNat = false ∧ t.invals.look s.nextOp = some x ∧ x.waiting = s.partCores part ∧
      ∀ c ∈ s.partCores part, Posted t (.shootdown c none s.nextOp))

/-- R164, R336, R337: hold fixes the stop tick, at least 16 ticks away, and answers it; with one fixed
already it answers 1; halt waits while no message, event or cause is there and completes when one is, or with ie = 0. -/
def Sys2Proof.Claims.HoldAndHalt : Prop :=
  ∀ (s s₁ s₂ : State) (h : Head) (d a : Fld) (x : Word), Issues s h →
    (s.th.mode = 2#2 → s.isGable s.th.core = true → FieldsOk s [(.ws, d), (.rs, a)] → readS a s = .ok (x, s₁) →
      handOut d s₁ = .ok ((), s₂) →
      (s.holdAt = none → s.holdAsk = none → s.switching = false → ∃ t, exec (.hold h d a) s = .next t ∧
        t.holdAt = some (s.tick.toNat + max 16 x.toNat) ∧ t.pstate = .entering ∧
        Posted t (.statusAnswer s.cur d (BitVec.ofNat 64 (s.tick.toNat + max 16 x.toNat)))) ∧
      (s.holdAt = none → s.holdAsk = none → s.switching = true → ∃ t, exec (.hold h d a) s = .next t ∧
        t.holdAsk = some (s.cur, d) ∧ t.holdAt = none) ∧
      (∀ ts, s.holdAt = some ts → ∃ t, exec (.hold h d a) s = .next t ∧ t.holdAt = some ts ∧
        Posted t (.statusAnswer s.cur d 1#64))) ∧
    (s.th.mode ≠ 0#2 →
      let rouse := s.th.ie = false ∨ s.th.mailbox ≠ [] ∨ s.th.posted ≠ [] ∨ s.th.ev &&& 0x7FFFFFFFFFFFFFFF#64 ≠ 0#64
      (rouse → exec (.halt h) s = .next (s.finish .fall)) ∧
      (¬rouse → exec (.halt h) s = .next (s.startWait s.cur .halt)))

/-! ### Creating, saving and restoring threads -/

/-- R46, R138, R253: spawn sends the captured record, image and sheet to the core it names and hands its answer off; a core
outside the partition answers 3, a bad record 1 and a range it cannot read 4, at once. -/
def Obligations.SpawnIssue : Prop :=
  ∀ (s s₁ s₂ : State) (h : Head) (d a b : Fld) (imm : BitVec 32) (x y : Word), Issues s h →
    FieldsOk s [(.ws, d), (.rs, a), (.rs, b)] → readAll [a, b] s = .ok ([x, y], s₁) → SpOk s y 128 128 false →
    let c := s.core s.th.core
    let w := fun i => BitVec.ofNat 64 (valueAt s (.sp s.th.core) (y.toNat + 8 * i) 8)
    let d0 := (w 0).toNat
    let entry := BitVec.ofInt 64 (s.th.pc.toInt + imm.toInt)
    let W := d0 / 2 ^ 40 % 256
    let io := (w 3).toNat
    let so := (w 4).toNat
    let dwords := fun o n => (List.range n).map fun i => BitVec.ofNat 64 (valueAt s (.sp s.th.core) (o + 8 * i) 8)
    let target := if x = 0xFFFFFFFFFFFFFFFF#64 then some s.th.core else s.inPart s.th.part x.toNat
    let record := d0 / 2 ^ 60 = 0 ∧ d0 % 2 ^ 32 = 0 ∧ entry.toNat % 128 = 0 ∧
      shapeOk (d0.testBit 53) W (d0 / 2 ^ 32 % 256) (d0 / 2 ^ 49 % 8) (d0.testBit 52) = true
    let readable := fun o n => stencilCause c.stencil (spKey s.th.core o) n false = none ∧
      ∀ l ∈ c.softErr, ¬(l * 64 < o + n ∧ o < l * 64 + 64)
    -- the entries of the sheet that lie in the scratchpad
    let ents := if 0x100000 < so + 32 then 0
      else min (min (valueAt s (.sp s.th.core) (so + 16) 8 % 32) 16) ((0x100000 - so - 32) / 8)
    let ranges := io % 64 = 0 ∧ io + 8 * W ≤ 0x100000 ∧ readable io (8 * W) ∧
      (d0.testBit 48 = true → so % 64 = 0 ∧ so + 32 ≤ 0x100000 ∧ readable so (32 + 8 * ents))
    (∀ core, ranges → record → target = some core → ∃ r : SpawnReq,
      r.core = core ∧ r.src = s.cur ∧ r.dst = d ∧ r.ctl = w 0 ∧ r.entry = entry ∧ r.init = (List.range 9).map w ∧
      r.image = dwords io W ∧ r.sheet = (if d0.testBit 48 then some (dwords so (4 + ents)) else none) ∧
      Sends s (.spawn h d a b imm) d s₁ (.spawnRequest r)) ∧
    (ranges → target = none → writeS d 3#64 s₁ = .ok ((), s₂) → exec (.spawn h d a b imm) s = .next (s₂.finish .fall)) ∧
    (ranges → target ≠ none → ¬record → writeS d 1#64 s₁ = .ok ((), s₂) →
      exec (.spawn h d a b imm) s = .next (s₂.finish .fall)) ∧
    (¬ranges → writeS d 4#64 s₁ = .ok ((), s₂) → exec (.spawn h d a b imm) s = .next (s₂.finish .fall))

/-- R58, R62, R93, R127, R261: ctxsv of a thread of the own core that neither runs nor has anything in flight writes its image
and swaps it out, and answers the image's length; it answers 1 when there is no such thread, or a rank whose kernel has not
been released, and 2 when the image is longer than the area; it waits for what the thread has in flight. What it waits for (log
39) and the layout of the sections (log 94) are the model's choices. -/
def Sys2Proof.Claims.ContextSave : Prop :=
  ∀ (s s₁ s₂ s₃ : State) (h : Head) (d a b : Fld) (dev : Bool) (cap : BitVec 16) (x va : Word) (id : Word32), Issues s h →
    s.th.mode ≠ 0#2 → FieldsOk s [(.ws, d), (.rs, a), (.rs, b)] → readOps [a, b] s = .ok ([x, va], s₁) →
    id = BitVec.ofNat 32 x.toNat →
    let t := s₁.thr id
    let here := (s₁.threads.look id.toNat).isSome = true ∧ t.core = s.th.core ∧ id ≠ s.cur ∧ x.toNat < 2 ^ 32 ∧
      ((t.life = .ready ∧ s₁.unreleased t = false) ∨ t.life = .waitUnseated)
    let img := t.image 1 t.core (((s₁.squashAll id).saveBooks id s.tick.toNat).records id)
    (¬here → writeS d 1#64 s₁ = .ok ((), s₂) → exec (.ctxsv h d a b dev cap) s = .next (s₂.finish .fall)) ∧
    (here → 64 * cap.toNat < img.length → writeS d 2#64 s₁ = .ok ((), s₂) →
      exec (.ctxsv h d a b dev cap) s = .next (s₂.finish .fall)) ∧
    (here → img.length ≤ 64 * cap.toNat → (t.wait.inFlight = true ∨ s₁.drained id = false ∨ s₁.pendOf id ≠ []) →
      exec (.ctxsv h d a b dev cap) s = .next (s.startWait s.cur (.saving id))) ∧
    (here → t.wait.inFlight = false → s₁.drained id = true → s₁.pendOf id = [] → img.length ≤ 64 * cap.toNat →
      putLines dev va (linesOf (img.length / 64 + 1) img) (s₁.modTh fun u => { u with saveFor := some id }) = .ok ((), s₂) →
      writeS d (BitVec.ofNat 64 img.length) (s₂.swapOut id 1 s.tick.toNat) = .ok ((), s₃) →
      exec (.ctxsv h d a b dev cap) s = .next (s₃.finish .fall)) ∧
    ((s₂.core (s₂.thr id).core).pending = [] → (s₂.thr id).life ≠ .exited →
      ((s₂.swapOut id 1 s.tick.toNat).thr id).life = .swappedOut ∧ ((s₂.swapOut id 1 s.tick.toNat).thr id).g = (s₂.thr id).g ∧
      id ∉ ((s₂.swapOut id 1 s.tick.toNat).core (s₂.thr id).core).run)

/-- R62 to R65, R239, R240, R262: ctxld reads an image, checks it, and asks the creating core of its thread about the number, at
once on its own core and else by a message, with the answer handed off. A core with 64 residents answers 1, a number another thread
holds 2, a rank that must stay with its partition, and an image of a thread the device does not hold unless a migration wrote it, 3
(log 96); else the thread is live on the issuing core with the registers the image gives. A bad image traps 0xAC, with the reads of
its lines done (keepReads: R78, R81, log 17). The layout of the sections (log 94) is the model's choice. -/
def Sys2Proof.Claims.ContextLoad : Prop :=
  ∀ (s s₁ s₂ s₃ s₄ : State) (h : Head) (d a : Fld) (dev : Bool) (va : Word) (first bs : List Byte), Issues s h →
    s.th.mode ≠ 0#2 → FieldsOk s [(.ws, d), (.rs, a)] → readOps [a] s = .ok ([va], s₁) →
    getLines dev 1 va s₁ = .ok (first, s₂) →
    (if natAt first 12 4 ≤ 64 then bs = first ∧ s₃ = s₂
     else getLines dev ((natAt first 12 4 + 63) / 64) va s₂ = .ok (bs, s₃)) →
    let core := s.th.core
    let r := match secOf (secTable bs (natAt bs 10 2)) 1 with | some e => e.off | none => 0
    let id : Word32 := BitVec.ofNat 32 (natAt bs r 4)
    let held := (s₃.core (homeOf id)).resv.look (id.toNat % 64)
    let part := (s₃.partOf core).getD s.th.part
    let out := held = some id ∧ (s₃.threads.look id.toNat).isSome = true ∧ (s₃.thr id).life = .swappedOut
    let stays := out ∧ (s₃.thr id).kernel ≠ none ∧ (s₃.thr id).pre = false ∧ (s₃.thr id).part ≠ part
    let w := s₃.loadImage core part bs
    (∀ o, imageFault bs = some o →
      exec (.ctxld h d a dev) s = .next ((s.keepReads s₃).takeTrap s.cur 0xAC#8 (BitVec.ofNat 64 o) 0#5)) ∧
    (imageFault bs = none → homeOf id = core ∨ 64 ≤ s₃.residents core → writeS d w.1 w.2 = .ok ((), s₄) →
      exec (.ctxld h d a dev) s = .next (s₄.finish .fall)) ∧
    (imageFault bs = none → homeOf id ≠ core → s₃.residents core < 64 → handOut d s₃ = .ok ((), s₄) →
      exec (.ctxld h d a dev) s = .next ((s₄.askNumber ⟨s.cur, d, core, part, bs⟩ id).finish .fall)) ∧
    (∀ (src : Word32) (op : Nat) (q : LoadAsk), s.asks.look op = some q → planesMax ≤ op →
      let u := { s with asks := s.asks.del op }.loadImage q.core q.part q.img
      exec (.homePortAccess src op) s = .next (u.2.answer q.src q.dst u.1)) ∧
    -- what the creating core makes of the number
    (64 ≤ s₃.residents core → w = (1#64, s₃)) ∧
    (s₃.residents core < 64 → ∀ x, held = some x → x ≠ id → w = (2#64, s₃)) ∧
    (s₃.residents core < 64 → held = some id →
      ((s₃.threads.look id.toNat).isSome = false ∨ (s₃.thr id).life ≠ .swappedOut) → w = (2#64, s₃)) ∧
    (s₃.residents core < 64 → stays ∨ (held = none ∧ natAt bs 9 1 ≠ 2) → w = (3#64, s₃)) ∧
    (s₃.residents core < 64 → ¬stays →
      ∀ base : Thread, (out ∧ base = { s₃.thr id with part := part }) ∨
        (held = none ∧ natAt bs 9 1 = 2 ∧ base = { Thread.blank with thid := id, part := part, pre := true }) →
      w.1 = BitVec.ofNat 64 id.toNat ∧ (w.2.thr id).core = core ∧ (w.2.thr id).part = part ∧
        ((w.2.thr id).life = .ready ∨ (w.2.thr id).life = .waitUnseated) ∧ (w.2.thr id).g = (threadOf bs base).g ∧
        ((threadOf bs base).posted = [] → (w.2.thr id).pc = (threadOf bs base).pc) ∧
        (w.2.thr id).status = (threadOf bs base).status)

/-! ### Engine operations at issue -/

/-- R83, R84, R315: an operation that begins takes the index and the slot given, a generation that is never 0 and a handle of
generation, index and thid, and counts in the outstanding-copy counter. -/
def Sys2Proof.Claims.CopyBegins : Prop :=
  ∀ (s s' : State) (o : CopyOp) (idx : Nat) (slot : Option Nat) (hd : Word), s.beginCopy o idx slot = (hd, s') → idx < 32 →
    s.copies.look s.nextOp = none →
    hd.toNat % 2 ^ 32 = o.thid.toNat ∧ hd.toNat / 2 ^ 32 % 2 ^ 16 = idx ∧ hd.toNat / 2 ^ 48 ≠ 0 ∧
    ((s.thr o.thid).copyGen.look idx = none → hd.toNat / 2 ^ 48 = 1) ∧
    (∀ g, (s.thr o.thid).copyGen.look idx = some g → g ≠ 0xFFFF#16 → hd.toNat / 2 ^ 48 = g.toNat + 1) ∧
    ∃ c, s'.copies.look s.nextOp = some c ∧ c.handle = hd ∧ c.idx = idx ∧ c.kind = o.kind ∧ c.thid = o.thid ∧
      (o.state = .queued → c.state = .queued → (s'.thr o.thid).outCp = (s.thr o.thid).outCp + 1)

namespace Sys2Proof.Claims

/-- An operation o begins for an instruction whose operands have been read: with an index and a slot free its destination
receives the handle, otherwise 0. -/
def Begins (s : State) (i : Instr) (d : Fld) (s₁ : State) (o : CopyOp) (before : State → State) (answer : Word → Word) : Prop :=
  s₁.pendOf s.cur = [] →
    (∀ idx n hd s₂ s₃, s₁.copyIndex s.cur = some idx → s₁.freeSlot s.th.core = some n →
      (before s₁).beginCopy o idx (some n) = (hd, s₂) → writeS d (answer hd) s₂ = .ok ((), s₃) → exec i s = .next (s₃.finish .fall)) ∧
    (∀ s₃, (s₁.copyIndex s.cur = none ∨ s₁.freeSlot s.th.core = none) → writeS d 0#64 s₁ = .ok ((), s₃) →
      exec i s = .next (s₃.finish .fall))

/-- A range of the own scratchpad on line boundaries. -/
def spLines (a n : Nat) : Prop := a % 64 = 0 ∧ a + n ≤ 0x100000

end Sys2Proof.Claims

/-- R83, R86 to R91, R315, R323 to R325: a copy or copyr of whole lines that passes the tests begins; one that is misaligned
traps 0x48, one of no or too many elements 0x47, one whose ends overlap 0x83, and copyr of a pre-emptible kernel 0x90. The
format of an end is that of its first byte's bank (log 25), and the order and the tval of step 7 (log 26), are the model's
readings. -/
def Sys2Proof.Claims.CopyIssue : Prop :=
  ∀ (s s₁ : State) (h : Head) (d a b c : Fld) (e : CopyEng) (red : Bool) (x y n : Word), Issues s h →
    let i : Instr := if red then .copyr h d a b c e else .copy h d a b c e
    FieldsOk s [(.ws, d), (.rs, a), (.rs, b), (.rs, c)] → readAll [a, b, c] s = .ok ([x, y, n], s₁) → e.bk = false →
    let core := s.th.core
    -- scratchpad and device endpoints, each format its bank's or the field's
    (e.ssp = 0#3 ∨ e.ssp = 2#3) → (e.dsp = 0#3 ∨ e.dsp = 2#3) →
    let sf := if e.ssp = 0#3 then (s.core core).bankFmt (x.toNat % 2 ^ 20) else fmtOf e.sfmt.toNat
    let df := if e.dsp = 0#3 then (s.core core).bankFmt (y.toNat % 2 ^ 20) else fmtOf e.dfmt.toNat
    let sw := if sf = .raw then fmtWidth df else fmtWidth sf
    let dw := if df = .raw then fmtWidth sf else fmtWidth df
    let sl := n.toNat * sw / 8
    let dl := n.toNat * dw / 8
    pairBad red e (some sf) (some df) = none → (if red then e.op ≠ 3#2 else e.op = 0#2) → (red = true → s.th.pre = false) →
    (x.toNat % 64 ≠ 0 → exec i s = .next (s.takeTrap s.cur 0x48#8 x 0#5)) ∧
    (x.toNat % 64 = 0 → y.toNat % 64 ≠ 0 → exec i s = .next (s.takeTrap s.cur 0x48#8 y 0#5)) ∧
    (x.toNat % 64 = 0 → y.toNat % 64 = 0 → n.toNat * sw % 512 ≠ 0 →
      exec i s = .next (s.takeTrap s.cur 0x48#8 (BitVec.ofNat 64 (n.toNat * sw / 8)) 0#5)) ∧
    (x.toNat % 64 = 0 → y.toNat % 64 = 0 → n.toNat * sw % 512 = 0 → n.toNat * dw % 512 = 0 →
      (e.ssp = 0#3 → x.toNat + sl ≤ 0x100000) → (e.dsp = 0#3 → y.toNat + dl ≤ 0x100000) →
      ((n.toNat = 0 ∨ 2 ^ 24 < n.toNat) → exec i s = .next (s.takeTrap s.cur 0x47#8 n 0#5)) ∧
      (1 ≤ n.toNat → n.toNat ≤ 2 ^ 24 → (red = true → dl ≤ 2 ^ 20) →
        (e.ssp = e.dsp → x.toNat < y.toNat + dl → y.toNat < x.toNat + sl →
          exec i s = .next (s.takeTrap s.cur 0x83#8 (BitVec.ofNat 64 (max x.toNat y.toNat)) 0#5)) ∧
        ((e.ssp = e.dsp → y.toNat + dl ≤ x.toNat ∨ x.toNat + sl ≤ y.toNat) → ∃ o : CopyOp,
          o.kind = (if red then .copyr else .copy) ∧ o.thid = s.th.thid ∧ o.core = core ∧ o.count = n.toNat ∧ o.sfmt = sf ∧
          o.dfmt = df ∧ o.src = ⟨e.ssp, core, x.toNat, e.port.toNat⟩ ∧ o.dst = ⟨e.dsp, core, y.toNat, e.port.toNat⟩ ∧
          o.lnum = e.lnum.toNat ∧ o.op = e.op ∧ o.total = max (sl / 64) (dl / 64) ∧ o.booked = none ∧ o.cb = none ∧
          Begins s i d s₁ o id id)))

/-- R83 to R88, R91, R95, R124, R315, R323 to R326: a copy or copyr between any two spaces they may join begins when its formats,
alignment, ranges, host windows and ends pass the tests; a booked one takes the slot its booking holds for it. The format of an
end in a scratchpad is that of the bank of its first byte (log 25): the model's reading. -/
def Sys2Proof.Claims.CopyRuns : Prop :=
  ∀ (s s₁ : State) (h : Head) (d a b c : Fld) (e : CopyEng) (red : Bool) (hd x y n : Word) (src dst : Endpoint), Issues s h →
    let i : Instr := if red then .copyr h d a b c e else .copy h d a b c e
    let dr : Fld := { d with sync := false }
    FieldsOk s ((if e.bk then [(.rs, dr)] else []) ++ [(.ws, d), (.rs, a), (.rs, b), (.rs, c)]) →
    readAll ((if e.bk then [dr] else []) ++ [a] ++ (if e.dsp = 5#3 then [] else [b]) ++ [c]) s =
      .ok ((if e.bk then [hd] else []) ++ [x] ++ (if e.dsp = 5#3 then [] else [y]) ++ [n], s₁) → (e.dsp = 5#3 → y = 0#64) →
    let t := s₁.th
    let cb := if e.dsp = 5#3 then some e.cbn.toNat else none
    let isSp := fun (sp : BitVec 3) => sp = 0#3 ∨ sp = 1#3
    s₁.endpoint e.ssp x e.port.toNat = some src → s₁.endpoint e.dsp y e.port.toNat = some dst →
    let sf := s₁.endFmt src none e.sfmt.toNat
    let df := s₁.endFmt dst cb e.dfmt.toNat
    let sl := n.toNat * (if sf = .raw then fmtWidth df else fmtWidth sf) / 8
    let dl := n.toNat * (if df = .raw then fmtWidth sf else fmtWidth df) / 8
    pairBad red e (some sf) (some df) = none → (if red then e.op ≠ 3#2 else e.op = 0#2) → (red = true → t.pre = false ∧ dl ≤ 2 ^ 20) →
    1 ≤ n.toNat → n.toNat ≤ 2 ^ 24 → x.toNat % 64 = 0 → (cb = none → y.toNat % 64 = 0) →
    n.toNat * (if sf = .raw then fmtWidth df else fmtWidth sf) % 512 = 0 →
    n.toNat * (if df = .raw then fmtWidth sf else fmtWidth df) % 512 = 0 →
    (isSp e.ssp → src.addr + sl ≤ 0x100000) → (isSp e.dsp → dst.addr + dl ≤ 0x100000) →
    (∀ m, cb = some m → dl ≤ ((s₁.core t.core).cbuf m).size) →
    let window := fun v len => ∃ q, s₁.part t.part = some q ∧ 0x1040 ≤ v ∧ v + len ≤ q.desc.hostLen.toNat
    (e.ssp = 3#3 → window x.toNat sl) → (e.dsp = 3#3 → window y.toNat dl) →
    (cb = none → nameOverlap src dst sl dl = none) → s₁.pendOf s.cur = [] →
    let lines := max (sl / 64) (dl / 64)
    ∃ o : CopyOp, o.kind = (if red then .copyr else .copy) ∧ o.thid = t.thid ∧ o.core = t.core ∧ o.count = n.toNat ∧
      o.sfmt = sf ∧ o.dfmt = df ∧ o.lnum = e.lnum.toNat ∧ o.op = e.op ∧ o.total = lines ∧ o.cb = cb ∧
      o.src.space = e.ssp ∧ o.dst.space = e.dsp ∧ o.src.core = src.core ∧ o.dst.core = dst.core ∧
      (e.ssp ≠ 3#3 → o.src.addr = src.addr) ∧ (e.dsp ≠ 3#3 → o.dst.addr = dst.addr) ∧
      o.booked = (if e.bk then some (hd, e.ent.toNat) else none) ∧
      (e.bk = false → Begins s i d s₁ o id id) ∧
      (∀ q bo en, e.bk = true → s₁.bookOf hd = some (ridgeOf t.core, q, bo) → bo.part = t.part →
        bo.sheet.ents[e.ent.toNat]? = some en → (en.kind = 5#4 ∨ en.kind = 6#4) → e.ssp = 0#3 → e.dsp = 0#3 →
        bo.state ≠ .pending → bo.state ≠ .saved → bo.state ≠ .cancelled →
        let ws := bo.start + en.off
        let we := bo.start + en.off + en.dur - 1
        s₁.tick.toNat ≤ we → (if s₁.tick.toNat < ws then ws else s₁.tick.toNat + 1) + (lines + 15) / 16 - 1 ≤ we →
        let k := s₁.core t.core
        registersNow k.stencil k.stWait
          ((sortPieces [(t.core, ⟨spKey t.core src.addr, spKey t.core src.addr + sl, false, s₁.nextOp⟩),
            (t.core, ⟨spKey t.core dst.addr, spKey t.core dst.addr + dl, true, s₁.nextOp⟩)]).map (·.2)) = true →
        (∀ idx h' s₂ s₃, s₁.copyIndex s.cur = some idx → s₁.beginCopy o idx none = (h', s₂) → writeS d h' s₂ = .ok ((), s₃) →
          exec i s = .next (s₃.finish .fall)) ∧
        (∀ s₃, s₁.copyIndex s.cur = none → writeS d 0#64 s₁ = .ok ((), s₃) → exec i s = .next (s₃.finish .fall)))

/-- R94, R326: a reduction of a pre-emptible kernel traps 0x90, before its operands are read. -/
def Sys2Proof.Claims.ReductionPreemptible : Prop :=
  ∀ (s : State) (h : Head) (d a b c : Fld) (e : CopyEng), Issues s h →
    FieldsOk s ((if e.bk then [(.rs, { d with sync := false })] else []) ++ [(.ws, d), (.rs, a), (.rs, b), (.rs, c)]) →
    s.th.pre = true → exec (.copyr h d a b c e) s = .next (s.takeTrap s.cur 0x90#8 0#64 0#5)

/-- R83, R315, R320, R321, R327: mcast from the own scratchpad to an interval of the partition, and batld of a batten that its
array has room for, begin; batld answers the handle of the batten. The first generation of a batten, and that a load keeps it
(log 85), is the model's reading. -/
def Sys2Proof.Claims.MulticastAndBattenLoad : Prop :=
  ∀ (s s₁ : State) (h : Head) (d a b c : Fld), Issues s h →
    let t := s.th
    (∀ (e : McastEng) (x y n : Word) (cores : List Nat), FieldsOk s [(.ws, d), (.rs, a), (.rs, b), (.rs, c)] →
      readAll [a, b, c] s = .ok ([x, y, n], s₁) → e.len ≠ 0#11 → s.interval t.part e.base.toNat e.len.toNat = some cores →
      spLines x.toNat n.toNat → spLines y.toNat n.toNat → n.toNat % 64 = 0 → 1 ≤ n.toNat → n.toNat ≤ 2 ^ 20 →
      (t.core ∈ cores → y.toNat + n.toNat ≤ x.toNat ∨ x.toNat + n.toNat ≤ y.toNat) → ∃ o : CopyOp,
        o.kind = .mcast ∧ o.thid = t.thid ∧ o.core = t.core ∧ o.members = cores ∧ o.src.addr = x.toNat ∧ o.dst.addr = y.toNat ∧
        o.total = n.toNat / 64 ∧ o.lnum = e.lnum.toNat ∧ Begins s (.mcast h d a b c e) d s₁ o id id) ∧
    (∀ (e : BatEng) (x y : Word) (half : Nat), FieldsOk s [(.ws, d), (.rs, a), (.rs, b)] →
      readAll [a, b] s = .ok ([x, y], s₁) → e.sp ≠ 3#2 → e.kb.toNat ≤ 4 → y.toNat < 128 → arrRidge y.toNat = ridgeOf t.core →
      s.arrHalf t.part y.toNat = some half →
      let key := 4 * y.toNat + half
      let f := fmtOf e.fmt.toNat
      let K := e.km1.toNat + 1
      let n := if 64 ≤ y.toNat then 256 else 128
      let len := K * n * fmtWidth f / 8
      let as := planeAddrs x.toNat (List.range e.kb.toNat) t.tstride.toNat
      (∀ o, s.battens.look key = some o → 2 ≤ o.state) → (∀ p ∈ as, p % 64 = 0) →
      (e.ssp = false → ∀ p ∈ as, p + len ≤ 0x100000 ∧ (s.core t.core).banksHold f p len = true) →
      e.fmt ≠ 6#4 → (if 64 ≤ y.toNat then f = .f4 else f = .d ∨ f = .s ∨ f = .bf ∨ f = .e4 ∨ f = .e5) →
      (f = .f4 → e.ssp = false → ∀ p ∈ as, p / 65536 = x.toNat / 65536 ∧ oneBank p len = true) →
      batSize f K n e.kb.toNat e.sp ≤ (if half = 0 then 0x400000 else 0x200000) →
      (1 ≤ e.kb.toNat → t.tstride ≠ 0#64) → ∃ (o : CopyOp) (bat : Batten),
        bat.state = 0 ∧ bat.K = K ∧ bat.fmt = f ∧ bat.thid = t.thid ∧ bat.gen = (match s.battens.look key with | some q => q.gen | none => 1#16) ∧
        o.kind = .batld ∧ o.batKey = key ∧ o.batHandle = batHandle key bat ∧
        Begins s (.batld h d a b e) d s₁ o (fun q => { q with battens := q.battens.ins key bat }) (fun _ => batHandle key bat))

/-- R98, R113, R316, R320, R322: batfree of a live batten of the partition advances its generation and waits for the mirrors; a
stale handle, or one of the other ridge die, traps 0x84. That the generation advances when a batten is freed (log 85) is the
model's reading. -/
def Sys2Proof.Claims.BattenFree : Prop :=
  ∀ (s s₁ : State) (h : Head) (a : Fld) (x : Word), Issues s h → FieldsOk s [(.rs, a)] → readS a s = .ok (x, s₁) →
    (s.battenLive s.th.part x = none → exec (.batfree h a) s = .next (s.takeTrap s.cur 0x84#8 x 0#5)) ∧
    (∀ key b, s.battenLive s.th.part x = some (key, b) →
      (arrRidge (key / 4) ≠ ridgeOf s.th.core → exec (.batfree h a) s = .next (s.takeTrap s.cur 0x84#8 x 0#5)) ∧
      (arrRidge (key / 4) = ridgeOf s.th.core → ∃ t b', exec (.batfree h a) s = .next t ∧ t.battens.look key = some b' ∧
        b'.gen = nextGen b.gen ∧ b'.state = 3 ∧ t.th.wait = .batfree x ∧ t.th.life = .waitUnseated ∧
        Posted t (.waitEvent s.cur)))

/-- R99, R221, R317, R319: the first tests of a hire: a wait-empty bit on d, which is only read, an array that is not on the
ridge die, outside the allotment or half of a slate another partition shares, and a stale batten trap; a reserved specifier that
names the booking comes before a wait-empty bit on it. That a wait-empty bit on d traps so (log 37) and that hire.at of half of a
split slate is turned away (log 23) is the model's choice. -/
def Sys2Proof.Claims.HireTests : Prop :=
  ∀ (s s₁ : State) (h : Head) (d a b c : Fld) (e : HireEng) (av bh cv : Word), Issues s h →
    let go := exec (.hire h d a b c e) s
    let reserved := (0x85 ≤ d.spec.toNat ∧ d.spec.toNat ≤ 0x8F) ∨ 0xD0 ≤ d.spec.toNat
    (e.kind = .bk → reserved → go = .next (s.takeTrap s.cur 0x22#8 (BitVec.ofNat 64 d.spec.toNat) 0#5)) ∧
    (d.sync = true → (e.kind ≠ .bk ∨ ¬reserved) → go = .next (s.takeTrap s.cur 0x23#8 (BitVec.ofNat 64 d.spec.toNat) 0#5)) ∧
    (d.sync = false → e.kind ≠ .bk → FieldsOk s [(.rs, a), (.rs, b), (.rs, c)] → readAll [a, b, c] s = .ok ([av, bh, cv], s₁) →
      let t := s.th
      let array := arrRidge e.arr.toNat = ridgeOf t.core ∧ s.arrHalf t.part e.arr.toNat ≠ none ∧ s.splitOff t.part e.arr.toNat = false
      (e.kind = .at → ¬array → go = .next (s.takeTrap s.cur 0x8A#8 (BitVec.ofNat 64 e.arr.toNat) 0#5)) ∧
      ((e.kind = .at → array) → s.battenLive t.part bh = none → go = .next (s.takeTrap s.cur 0x84#8 bh 0#5)) ∧
      ((e.kind = .at → array) → ∀ key bat, s.battenLive t.part bh = some (key, bat) → arrRidge (key / 4) ≠ ridgeOf t.core →
        go = .next (s.takeTrap s.cur 0x84#8 bh 0#5)))

namespace Sys2Proof.Claims

/-- The array a booking holds for one of its entries. -/
def bookedArray (b : Booking) (ent : Nat) : Option Nat :=
  b.ivals.findSome? fun i => match i.res with
    | .array n _ => if i.ent = ent then some n else none
    | _ => none

/-- The tile of a hire: its rows, columns and accumulator format, from the array and format of its batten (R99, R318). -/
structure TileShape where
  m : Nat
  n : Nat
  acc : Fmt
def tileShape (key : Nat) (f : Fmt) : TileShape :=
  ⟨if 64 ≤ key / 4 then 256 else if key % 4 = 0 then 128 else 64, if 64 ≤ key / 4 then 256 else 128, if f = .d then .d else .s⟩

/-- Ranges of a tile that lie in the scratchpad, whole lines in banks of one format. -/
def tilesOk (k : Core) (f : Fmt) (as : List Nat) (len : Nat) : Prop :=
  ∀ p ∈ as, p % 64 = 0 ∧ p + len ≤ 0x100000 ∧ k.banksHold f p len = true

end Sys2Proof.Claims

/-- R99 to R101, R111, R116, R124, R317 to R319: a hire of every kind whose batten, array, operands and ranges pass the tests is
issued with its state captured, counts in the outstanding-hire counter and completes; a booked one runs under its entry. That cofs
counts only with .acc (log 22) and that a split slate is named by its number (log 23) is the model's choice. -/
def Sys2Proof.Claims.HireRuns : Prop :=
  ∀ (s s₁ s₂ : State) (h : Head) (d a b c : Fld) (e : HireEng) (hd av bh cv : Word) (key : Nat) (bat : Batten) (arr : Option Nat)
    (segs : List Seg), Issues s h → d.sync = false →
    let bk := e.kind = .bk
    FieldsOk s ((if bk then [(.rs, d)] else []) ++ [(.rs, a), (.rs, b), (.rs, c)]) →
    readAll ((if bk then [d] else []) ++ [a, b, c]) s = .ok ((if bk then [hd] else []) ++ [av, bh, cv], s₁) →
    let t := s₁.th
    let core := t.core
    let k := s₁.core core
    let tick := s₁.tick.toNat
    -- the batten, and the tile it gives
    s₁.battenLive t.part bh = some (key, bat) → arrRidge (key / 4) = ridgeOf core → bat.state = 1 →
    let f := bat.fmt
    let m := (tileShape key f).m
    let n := (tileShape key f).n
    let acc := (tileShape key f).acc
    let aLen := m * bat.K * fmtWidth f / 8
    let cLen := m * n * fmtWidth acc / 8
    let q := t.sel.length
    let ts := t.tstride.toNat
    let w := windowTicks (halfCycles f) bat.K bat.sp q ((1 + q) * (aBytes f m bat.K + (if e.hc then cLen else 0)))
      (if m = 256 then 512 else 256)
    -- the array: named, booked with a window that fits, or left to the hall
    (∀ x, arr = some x → arrRidge x = ridgeOf core ∧ ∃ y, s₁.arrHalf t.part x = some y ∧ shapeOf x y = shapeOf (key / 4) (key % 4)) →
    (e.kind = .at → arr = some e.arr.toNat ∧ s₁.splitOff t.part e.arr.toNat = false) →
    (e.kind = .sl → arr = none ∧ key / 4 < 64) → (e.kind = .sh → arr = none ∧ 64 ≤ key / 4) →
    (¬bk → e.cls = 0#2 ∨ w ≤ 112) →
    ∀ (bo : Booking) (x : SheetEnt), let ws := bo.start + x.off
    let we := ws + x.dur - 1
    let begin' := if tick < ws then ws else tick + 1
    (bk → (∃ i, s₁.bookOf hd = some (ridgeOf core, i, bo)) ∧ bo.part = t.part ∧ bo.sheet.ents[e.ent.toNat]? = some x ∧
      1 ≤ x.kind.toNat ∧ x.kind.toNat ≤ 3 ∧ bo.state ≠ .pending ∧ bo.state ≠ .saved ∧ bo.state ≠ .cancelled ∧ tick ≤ we ∧ arr = bookedArray bo e.ent.toNat ∧
      (arr = none → ¬64 ≤ key / 4) ∧ begin' + w - 1 ≤ we ∧ landTicks q cLen ≤ x.land) →
    -- the tiles
    let as := planeAddrs av.toNat t.sel ts
    let cs := if e.hc then planeAddrs (64 * e.cofs.toNat) t.sel ts else []
    let ds := planeAddrs cv.toNat t.sel ts
    let dfmt := if e.dsp then fmtOf e.dfmt.toNat else k.bankFmt cv.toNat
    let dLen := m * n * fmtWidth (if dfmt = .raw then acc else dfmt) / 8
    tilesOk k f as aLen → (f = .f4 → ∀ p ∈ as, oneBank p aLen = true) → tilesOk k acc cs cLen →
    (dfmt = .d ∨ dfmt = .s ∨ dfmt = .bf ∨ dfmt = .e4 ∨ dfmt = .e5 ∨ dfmt = .raw) → (∀ p ∈ ds, p % 64 = 0) →
    (e.dsp = false → tilesOk k dfmt ds dLen ∧ s₂ = s₁ ∧
      segs = (List.range ds.length).map fun i => (dLen * i, spKey core (ds.getD i 0), dLen)) →
    (e.dsp = true → e.dfmt ≠ 6#4 ∧ (∀ p ∈ ds, ∀ x ∈ pagesOf p dLen, s₁.awayPage core t.part x = false) ∧
      allDest dLen ds 0 s₁ = .ok (segs, s₂)) →
    (t.sel ≠ [] → t.tstride ≠ 0#64) → t.outHr < 16 →
    let scales := if f = .f4 then as.map (fun p => (scaleAddr k.regs p, aLen / 4)) ++
      (as.map fun p => (bandAddr k.regs p 0, 2 * (m / 64))).eraseDups else []
    let reads := as.map (fun p => (p, aLen)) ++ scales ++ cs.map (fun p => (p, cLen))
    let dests := ds.map fun p => (p, dLen)
    firstOverlap (reads ++ (if e.dsp then [] else dests) ++ [(8 * e.sta.toNat, 8)]) = none →
    (e.dsp = true → firstOverlap dests = none) →
    let sk := spKey core
    (bk → registersNow k.stencil k.stWait
      ((sortPieces (reads.map (fun p => (core, ⟨sk p.1, sk p.1 + p.2, false, s₁.nextOp⟩)) ++
        piecesOf core s₁.nextOp true 0 (dLen * ds.length) segs ++
        [(core, ⟨sk (8 * e.sta.toNat), sk (8 * e.sta.toNat) + 8, true, s₁.nextOp⟩)])).map (·.2)) = true) →
    s₁.pendOf s.cur = [] → ∃ u, exec (.hire h d a b c e) s = .next u ∧ u.th.outHr = t.outHr + 1 ∧ u.th.g = t.g ∧
      (s₂.copies.look s₁.nextOp = none → ∃ r, u.hires.look s₁.nextOp = some r ∧ r.thid = t.thid ∧ r.bat = bh ∧ r.a = av.toNat ∧
        r.c = (if e.hc then some (64 * e.cofs.toNat) else none) ∧ r.dst = cv.toNat ∧ r.dev = e.dsp ∧ r.K = bat.K ∧ r.rows = m ∧
        r.cols = n ∧ r.sel = t.sel ∧ r.dfmt = dfmt ∧ r.sta = 8 * e.sta.toNat ∧ r.lnum = e.lnum.toNat ∧
        (¬bk → r.state = .issued ∧ r.booked = none) ∧
        (bk → r.state = .placed ∧ r.booked = some (hd, e.ent.toNat) ∧ r.start = begin' ∧ r.wend = begin' + w - 1 ∧ r.land = we + 1))

/-- R99 to R101, R111, R116, R124, R317 to R319: hire: the tests it fails first, and what a hire that passes them begins. -/
def Obligations.HireIssue : Prop := HireTests ∧ HireRuns

/-- R117, R121, R123, R328, R329: book and book.h capture the sheet, send it to the hall and hand their answer off; unbook
cancels a booking that is live or saved and answers 0, and 1 for another; a stale handle traps 0x84. The index a sheet has on
its way to the hall is the model's own (log 29). -/
def Sys2Proof.Claims.Bookings : Prop :=
  ∀ (s s₁ s₂ : State) (h : Head) (d a : Fld) (x : Word), Issues s h → FieldsOk s [(.ws, d), (.rs, a)] →
    readS a s = .ok (x, s₁) →
    let r := ridgeOf s.th.core
    (∀ (sh : Sheet) (early : Bool), sheetAt x s₁ = .ok (sh, s₁) → handOut d s₁ = .ok ((), s₂) →
      let i : Instr := if early then .bookH h d a else .book h d a
      ∃ t k, exec i s = .next t ∧ (t.books r).look (transit s.nextOp) = some k ∧ k.thid = s.th.thid ∧ k.part = s.th.part ∧
        k.core = s.th.core ∧ k.state = .submitted ∧ k.sheet = sh ∧ k.ivals = [] ∧ k.early = early ∧ k.dst = some d ∧
        Posted t (.bookAttempt r (transit s.nextOp)) ∧ t.th.gEmpty = s₂.th.gEmpty ∧ t.th.outSt = s₂.th.outSt) ∧
    (∀ q i k, s₁.bookOf x = some (q, i, k) → q = r → k.part = s.th.part → q < 2 → handOut d s₁ = .ok ((), s₂) →
      ((k.live = true ∨ k.state = .saved) → ∃ t k', exec (.unbook h d a) s = .next t ∧
        (t.books q).look i = some k' ∧ k'.state = .cancelled ∧ k'.ivals = [] ∧ k'.gen = nextGen k.gen ∧
        Posted t (.statusAnswer s.cur d 0#64)) ∧
      (k.live = false → k.state ≠ .saved → ∃ t, exec (.unbook h d a) s = .next t ∧ t.books0 = s.books0 ∧ t.books1 = s.books1 ∧
        Posted t (.statusAnswer s.cur d 1#64))) ∧
    ((s₁.bookOf x = none ∨ ∃ q i k, s₁.bookOf x = some (q, i, k) ∧ (q ≠ r ∨ k.part ≠ s.th.part)) →
      exec (.unbook h d a) s = .next (s.takeTrap s.cur 0x84#8 x 0#5))

/-- R86, R98, R123, R330: hstat answers what a handle names: a copy's state, lines and flags at once, a booking's and a batten's
through the hall; a handle that names nothing answers 0xF00. lines are the destination lines written: those counted, of which the parts
of one are several where the source has more of them (R86). -/
def Sys2Proof.Claims.HandleStatus : Prop :=
  ∀ (s s₁ s₂ : State) (h : Head) (d a : Fld) (x : Word), Issues s h → FieldsOk s [(.ws, d), (.rs, a)] →
    readS a s = .ok (x, s₁) →
    ((∀ e ∈ s.copies, e.2.handle ≠ x) → writeS d 0xF00#64 s₁ = .ok ((), s₂) → exec (.hstatCp h d a) s = .next (s₂.finish .fall)) ∧
    (∀ op o, (op, o) ∈ s.copies → (∀ e ∈ s.copies, e.2.handle = x → e = (op, o)) → o.handle = x → o.kind ≠ .batld → o.core = s.th.core →
      (s.threads.look o.thid.toNat).isSome = true → (s.thr o.thid).core = s.th.core → (s.thr o.thid).life ≠ .swappedOut →
      (s.thr o.thid).life ≠ .migrating →
      ∀ w : Word, w.toNat / 2 ^ 32 = o.lines / o.parts % 2 ^ 32 → w.toNat / 2 ^ 24 % 256 = o.why.toNat →
        w.toNat / 2 ^ 16 % 256 = min o.splits 255 → w.toNat % 256 = o.flags.toNat →
        w.toNat / 256 % 256 = (match o.state with
          | .queued => 0 | .running => 1 | .done => 2 | .revoked => 3 | .poisoned => 4 | .faulted => 5 | .squashed => 6) →
        writeS d w s₁ = .ok ((), s₂) → exec (.hstatCp h d a) s = .next (s₂.finish .fall)) ∧
    Sends s (.hstatBk h d a) d s₁ (.statusAnswer s.cur d (match s.bookHere x with | some (_, _, k) => k.stat | none => 0xF00#64)) ∧
    Sends s (.hstatBt h d a) d s₁ (.statusAnswer s.cur d (s.battenStat s.th.part (ridgeOf s.th.core) x)) ∧
    (∀ k : Booking, k.stat.toNat % 256 = k.code.toNat ∧ k.stat.getLsbD 15 = k.moved ∧
      k.stat.toNat / 256 % 128 = (match k.state with
        | .submitted | .pending => 0 | .committed => 1 | .started => 2 | .ended => 3 | .cancelled => 4 | .saved => 5) ∧
      k.stat.toNat / 2 ^ 32 = if k.state = .pending ∨ k.state = .saved then 0 else k.start % 2 ^ 32)

/-! ### Events: boot, hold, threads -/

namespace Sys2Proof.Claims

/-- The step of the boot ROM that fails, with its code (R350). -/
def bootCode (f : Flash) : Option Byte :=
  if f.present = false ∨ f.image = [] ∨ 65536 < f.image.length then some 6#8
  else if Config.sm2Verify (digestNat f.image) f.sig = false then some 1#8
  else if f.version < f.minVersion then some 2#8
  else if Config.sm2Verify (digestNat (leBytes 8 f.table.dw0.toNat ++ leBytes 8 f.table.dw1.toNat)) f.tableSig = false then some 3#8
  else if cfgBad f.table = true then some 4#8 else none

/-- Line i of an image body. -/
def imageLine (bs : List Byte) (i : Nat) : BitVec 1024 := BitVec.ofNat 1024 (leNat ((bs.drop (128 * i)).take 128))

/-- A gable core that is still being filled (R373). -/
def Filling (s : State) (c : Nat) : Prop :=
  s.pstate = .booting ∧ c ∈ s.gable ∧ s.boot.sentImage = true ∧ (s.core c).boot.acked = false

end Sys2Proof.Claims

/-- R349 to R354, R369 to R373: reset discards every thread and memory and ends with the failed step's code or starts the flood;
a router takes its coordinates from its link and sends on; a second report of a column, a wrong one and a report that does not
come fail with code 5; the 32nd fixes the map; the image, its end, the acknowledgements and the start tick go down and up the
fan tree of the gable; a gable core enters firmware mode once, at the start tick; a nonce is answered by a signed report.
The model's choices: SM2 is a free value (log 8); what the flash and each register hold at reset where the spec gives nothing, and
what a reset keeps (logs 11 to 13, 67); the byte order of digests (log 16); the shape of a firmware thread (log 18); and
when a nonce is answered (log 112). -/
def Obligations.BootEvents : Prop :=
  ∀ s : State,
    -- reset
    (∃ t, exec .reset s = .next t ∧ t.threads = [] ∧ t.mem = [] ∧ t.sideband = [] ∧ t.queues = [] ∧ t.kernels = [] ∧ t.parts = [] ∧
      t.flash = s.flash ∧ t.fused = s.fused ∧ t.hostMem = s.hostMem ∧
      (∀ c, bootCode s.flash = some c → t.pstate = .failed ∧ t.bcode = c ∧ t.agenda = []) ∧
      (t.core 0).boot.coords = some (0, 0) ∧
      (bootCode s.flash = none → t.pstate = .booting ∧ (t.core 0).pcore = some 0 ∧
        Posted t (.discovery 0#5 0#5 true 0#32) ∧ Posted t (.discovery 0#5 0#5 false 0#32) ∧ Posted t .reportTimeout)) ∧
    -- the flood
    (∀ (sx sy : BitVec 5) (west : Bool) (w : BitVec 32), s.pstate = .booting →
      let x := if west then (sx.toNat + 1) % 32 else sx.toNat
      let y := if west then sy.toNat else (sy.toNat + 1) % 32
      let c := 32 * y + x
      let off := s.fused.contains c
      let v := (if west then 0#32 else w) ||| (if off then BitVec.ofNat 32 (2 ^ y) else 0#32)
      (s.core c).boot.coords = none → ∃ t, exec (.discovery sx sy west w) s = .next t ∧ (t.core c).boot.coords = some (x, y) ∧
        (t.core c).pcore = (if off then none else some c) ∧
        (west = true → x < 31 → Posted t (.discovery (BitVec.ofNat 5 x) (BitVec.ofNat 5 y) true 0#32)) ∧
        (y < 31 → Posted t (.discovery (BitVec.ofNat 5 x) (BitVec.ofNat 5 y) false v)) ∧
        (y = 31 → Posted t (.report (BitVec.ofNat 5 x) (BitVec.ofNat 5 y) v))) ∧
    -- the reports
    (∀ (sx sy : BitVec 5) (w : Word32), s.pstate = .booting → s.boot.mapAt = none →
      ((s.boot.reports.look sx.toNat).isSome = true ∨ sy ≠ 31#5 →
        ∃ t, exec (.report sx sy w) s = .next t ∧ t.pstate = .failed ∧ t.bcode = 5#8) ∧
      (s.boot.reports.look sx.toNat = none → sy = 31#5 →
        (s.boot.reports.length < 31 → ∃ t, exec (.report sx sy w) s = .next t ∧ t.pstate = .booting ∧
          t.boot.reports.look sx.toNat = some w) ∧
        (s.boot.reports.length = 31 →
          (∀ x, x < 32 → ((s.boot.reports.ins sx.toNat w).lookD x 0#32).toNat = columnWord s.fused x) →
          1000 ≤ (mapOf s.fused).length → (∀ e ∈ s.cores, e.2.boot.errors = 0) →
          ∃ t, exec (.report sx sy w) s = .next t ∧ t.pstate = .booting ∧ t.enabled = mapOf s.fused ∧
            t.boot.mapAt = some (s.now + 48) ∧ Posted t (.map 0#5 0#5 s.mapFlit) ∧ Posted t .imageSend))) ∧
    (s.pstate = .booting → s.boot.mapAt = none → ∃ t, exec .reportTimeout s = .next t ∧ t.pstate = .failed ∧ t.bcode = 5#8) ∧
    -- the map
    (∀ (x y : BitVec 5) (f : MapFlit), s.boot.mapAt.isSome = true →
      let c := 32 * y.toNat + x.toNat
      let off := (List.range f.n.toNat).map fun i => f.list.toNat / 2 ^ (10 * i) % 1024
      (s.core c).boot.mapped = none → ∃ t, exec (.map x y f) s = .next t ∧ (t.core c).boot.mapped = some f ∧
        (c ∈ off → (t.core c).lcore = none) ∧ (c ∉ off → (t.core c).lcore = (mapOf off).idxOf? c)) ∧
    -- the image
    (∀ root r, s.pstate = .booting → s.boot.sentImage = false → s.gable = root :: r →
      ∃ t, exec .imageSend s = .next t ∧ t.boot.sentImage = true ∧
        (∀ i, i < (s.flash.image.length + 127) / 128 → Posted t (.linePacket root (imageLine s.flash.image i))) ∧
        Posted t (.endFlit root ((s.flash.image.length + 127) / 128))) ∧
    (∀ c (data : BitVec 1024), Filling s c → ∃ t, exec (.linePacket c data) s = .next t ∧
      (t.core c).boot.lines = (s.core c).boot.lines + 1 ∧
      (t.core c).code.run 0#8 (128 * (s.core c).boot.lines) 128 = leBytes 128 data.toNat ∧
      ∀ k ∈ s.gableKids c, Posted t (.linePacket k data)) ∧
    (∀ c n, Filling s c → (s.core c).boot.endAt = none → ∃ t, exec (.endFlit c n) s = .next t ∧ (t.core c).boot.endAt = some n ∧
      ∀ k ∈ s.gableKids c, Posted t (.endFlit k n)) ∧
    (∀ p, Filling s p → ∃ t, exec (.bootAck (some p)) s = .next t ∧ (t.core p).boot.acks = (s.core p).boot.acks + 1) ∧
    (∀ root r, s.pstate = .booting → s.boot.ts = none → s.gable = root :: r → ∃ t, exec (.bootAck none) s = .next t ∧
      t.boot.ts = some (s.tick.toNat + 4) ∧ Posted t (.startFlit root (BitVec.ofNat 64 (s.tick.toNat + 4)))) ∧
    (∀ c (ts : Word), c ∈ s.gable → (s.core c).boot.acked = true → (s.core c).boot.ts = none →
      ∃ t, exec (.startFlit c ts) s = .next t ∧ (t.core c).boot.ts = some ts ∧
        ∀ k ∈ s.gableKids c, Posted t (.startFlit k ts)) ∧
    -- firmware
    (∀ ts c w, s.pstate = .booting → s.boot.ts = some ts → ts ≤ s.tick.toNat → s.boot.waitingHold = false → s.gable = [c] →
      (s.core c).boot.ts = some w → w.toNat ≤ s.tick.toNat →
      ∃ t, exec .firmwareStart s = .next t ∧ t.pstate = .running ∧
        ((s.core c).boot.entered = true → t.threads = s.threads) ∧
        ((s.core c).boot.entered = false → (t.core c).boot.entered = true) ∧
        ((s.core c).boot.entered = false → s.residents c < 64 → (∃ n, n < 64 ∧ (s.core c).resv.look n = none) →
          ∃ id : Word32, id.toNat / 64 % 1024 = c % 1024 ∧ (s.core c).resv.look (id.toNat % 64) = none ∧
            (t.thr id).firm = true ∧ (t.thr id).core = c ∧ (t.thr id).mode = 2#2 ∧ (t.thr id).pc = 0#64 ∧
            (t.thr id).life = .ready ∧ id ∈ (t.core c).run)) ∧
    -- attestation
    (∀ nonce : BitVec 256, s.pstate = .running → (∃ c, s.roleCore roleLife = some c) → s.lifelog.lookD lgHold 0 < 2 ^ 64 → ∃ t r, exec (.attestationRequest nonce) s = .next t ∧
      t.reports = s.reports ++ [r] ∧ r.toNat % 256 = 1 ∧ r.toNat / 2 ^ 64 % 2 ^ 64 = s.tick.toNat ∧
      r.toNat / 256 % 256 = s.fused.length % 256 ∧ r.toNat / 2 ^ 16 % 2 ^ 48 = 0 ∧ r.toNat / 2 ^ 128 % 2 ^ 64 = s.lifelog.lookD lgHold 0 ∧
      r.toNat / 2 ^ 512 % 2 ^ 256 = (digestNat (cfgBytes s.flash.table)).toNat ∧ r.toNat / 2 ^ 256 % 2 ^ 256 = nonce.toNat ∧
      r.toNat / 2 ^ 768 % 2 ^ 256 = (digestNat s.flash.image).toNat ∧
      r.toNat / 2 ^ 1024 = (Config.sm2Sign (digestNat (leBytes 128 (r.toNat % 2 ^ 1024)))).toNat)

/-- R5, R164 to R167, R355 to R360: the tick advances at its boundary, and not in hold; a switch and a hold fix a stop at least 16
ticks ahead; from the stop on each thread with nothing in flight is saved, and when all is done the save tick stands; the incoming
tenant's threads come back at an agreed tick; hold is reached, left and lost, and the life log written, binned and counted.
That tenants come in in the order they were saved (log 71), that a hold is counted when it is reached (log 72), the table of images
and the save area (log 73) and the bins in whole degrees and per cent for ten dies (log 79) are the model's choices. -/
def Obligations.HoldEvents : Prop :=
  ∀ s : State,
    -- the tick boundary
    (s.pstate ≠ .hold → s.pstate ≠ .resuming → s.pstate ≠ .off → ∃ t, exec .tickBoundary s = .next t ∧ t.tick = s.tick + 1#64 ∧
      (∀ e ∈ s.books0, e.2.state = .committed → e.2.start ≤ (s.tick + 1#64).toNat → Posted t (.bookingStart 0 e.1)) ∧
      (∀ e ∈ s.kernels, e.2.state = .released → e.2.T ≤ (s.tick + 1#64).toNat → Posted t (.kernelRelease e.1)) ∧
      t.threads = s.threads ∧ t.mem = s.mem) ∧
    ((s.pstate = .hold ∨ s.pstate = .resuming ∨ s.pstate = .off) → exec .tickBoundary s = .next s) ∧
    -- tenant switches
    (∀ p (ts : Word) q, s.part p = some q →
      (s.pstate = .running → s.holdAt = none → s.holdAsk = none → q.stop = none → (∀ e ∈ s.kernels, e.2.part ≠ p) →
        ∃ t q', exec (.tenantSwitch p ts) s = .next t ∧ t.part p = some q' ∧ q'.stop = some (max (ts.toNat + q.credit) (s.tick.toNat + 16)) ∧
          q'.saveAt = none) ∧
      (q.stop.isSome = true → ∃ t q', exec (.tenantSwitch p ts) s = .next t ∧ t.part p = some q' ∧ q'.stop = q.stop ∧
        q'.queued = q.queued ++ [ts.toNat])) ∧
    (∀ p q Ts, s.part p = some q → q.stop = some Ts →
      (s.tick.toNat < Ts → exec (.synchronisedStop (some p)) s = .next s) ∧
      (Ts < s.tick.toNat → ∀ x, s.stopSet (some p) = [x] → s.threads.look x.thid.toNat = some x → s.midIssue (some p) x = false →
        (s.core x.core).pending = [] → s.swept' (s.setCores (some p)) x.core = true →
        ∃ t, exec (.synchronisedStop (some p)) s = .next t ∧ (t.thr x.thid).life = .swappedOut ∧ (t.thr x.thid).purpose = 3#8 ∧
          (t.thr x.thid).g = x.g ∧ (t.thr x.thid).pc = x.pc ∧ (t.images.look x.thid.toNat).isSome = true) ∧
      (Ts < s.tick.toNat → q.saveAt = none → s.stopSet (some p) = [] → s.stopDone (some p) = true →
        ∃ t q', exec (.synchronisedStop (some p)) s = .next t ∧ t.part p = some q' ∧ q'.saveAt = some s.tick.toNat ∧
          q'.stop = some Ts) ∧
      (∀ done, q.saveAt = some done → s.holdAsk = none →
        (if done ≤ Ts + 64 then Ts + 64 else Ts + 64 * ((done - Ts + 63) / 64)) ≤ s.tick.toNat →
        ∃ t q', exec (.tenantRestore p) s = .next t ∧ t.part p = some q' ∧ q'.stop = none ∧ q'.saveAt = none ∧
          ∀ x y r id, q.out = x :: y :: r → x.threads = [id] → x.barriers = [] → x.chains = [] →
            (s.threads.look id.toNat).isSome = true → (s.thr id).life = .swappedOut →
            imageFault (s.images.lookD id.toNat []) = none → (t.thr id).life ≠ .swappedOut)) ∧
    (∀ c d, ∃ t, exec (.sweepToken c d) s = .next t ∧ d ∈ (t.core c).swept) ∧
    -- hold
    (s.pstate = .running → s.holdAt = none → s.holdAsk = none → (∀ e ∈ s.parts, e.2.stop = none) →
      ∃ t, exec .holdRequest s = .next t ∧ t.pstate = .entering ∧ t.holdAt = some (s.tick.toNat + 16)) ∧
    (s.pstate = .booting → ∃ t, exec .holdRequest s = .next t ∧ t.boot.waitingHold = true ∧ t.pstate = .booting) ∧
    (s.holdReady = true → ∃ t, exec .holdReached s = .next t ∧ (s.resumeAsked = false → t.pstate = .hold) ∧
      t.saveArea = some ⟨s.books0, s.books1, s.battens, s.barriers, s.queues, s.slots, s.slotWait⟩ ∧ t.battens = [] ∧ t.queues = [] ∧
      t.lifelog.lookD lgHold 0 = min (2 ^ 64 - 1) (s.lifelog.lookD lgHold 0 + 1) ∧
      (s.resumeAsked = true → t.pstate = .resuming ∧ Posted t .resumptionComplete) ∧ t.flash.lifelog = t.lifelog) ∧
    (s.pstate = .hold → ∃ t, exec .resumeRequest s = .next t ∧ t.pstate = .resuming ∧ Posted t .resumptionComplete) ∧
    (s.pstate = .entering → ∃ t, exec .resumeRequest s = .next t ∧ t.pstate = .entering ∧ t.resumeAsked = true) ∧
    (s.pstate = .resuming → ∃ t, exec .resumptionComplete s = .next t ∧ t.pstate = .running ∧ t.holds = s.holds + 1#32 ∧
      t.holdAt = none ∧ t.tick = s.tick ∧ t.held = [] ∧ (s.saveArea.isSome = true → t.saveArea = none)) ∧
    (s.pstate = .hold → ∃ t, exec .retentionPowerLoss s = .next t ∧ t.pstate = .off ∧ t.threads = [] ∧ t.mem = [] ∧ t.held = [] ∧
      t.flash = s.flash) ∧
    -- the life log, excursions, the refresh window
    (∃ t, exec .lifeLogWrite s = .next t ∧ t.flash.lifelog = s.lifelog) ∧
    (∀ die x, die < 10 →
      (let k := 4000 + 4 * die + (if x < 2 then 0 else if x < 5 then 1 else if x < 10 then 2 else 3)
       ∃ t, exec (.thermalExcursion die x) s = .next t ∧ t.lifelog.lookD k 0 = min (2 ^ 32 - 1) (s.lifelog.lookD k 0 + 1)) ∧
      (let k := 5000 + 4 * die + (if x < 2 then 0 else if x < 4 then 1 else if x < 8 then 2 else 3)
       ∃ t, exec (.supplyDroop die x) s = .next t ∧ t.lifelog.lookD k 0 = min (2 ^ 32 - 1) (s.lifelog.lookD k 0 + 1))) ∧
    (∃ t, exec .refreshWindowEnd s = .next t ∧ ∀ c, (t.core c).rows = [] ∧ (t.core c).throttled = [] ∧ (t.core c).sp = (s.core c).sp)

namespace Sys2Proof.Claims

/-- A thread about to issue a new instruction: nothing of it is in flight and no dual prefix is in force. -/
def Fresh (t : Thread) : Prop :=
  t.life = .seated ∧ t.wait = .none ∧ t.dualPfx = none ∧ t.atPort = false ∧ t.reissue = false

/-- The handler of an asynchronous cause has been entered (R205, R209): from t to u. -/
def EntersAsync (t u : Thread) (code : Byte) (tv : Word) : Prop :=
  u.cAsync = true ∧ u.cCode = code ∧ u.tval = tv ∧ u.epc = t.pc &&& 0xFFFFFFFFFFFFFFFC#64 ∧ u.ie = false ∧ u.mode = 1#2 ∧ u.status.extractLsb' 10 2 = t.mode ∧
  u.status.getLsbD 9 = t.ie ∧ u.pc = (t.tvec &&& 0xFFFFFFFFFFFFFF80#64) + BitVec.ofNat 64 (128 * (code.toNat / 32)) ∧ u.g = t.g

/-- A thread is ready at the tail of the run list of its core. -/
def AtTail (s : State) (id : Word32) : Prop :=
  (s.thr id).life = .ready ∧ (s.thr id).wait = .none ∧ (s.core (s.thr id).core).run.getLast? = some id

end Sys2Proof.Claims

/-- R42, R50 to R60, R204, R205, R239: a free seat takes the first thread of the highest priority, whose context is fetched; a
save ends and frees its seat; a slice that has run out traps, gives the seat up or is held pending; a seated wait times out; a
wait that is over ends and another goes on; a migration arrives; a posted cause enters the handler; an ended thread with
nothing outstanding is freed with its number. That the lowest free seat is taken (log 49) and that a pre-empted thread joins
its list at the expiry (log 92) is the model's choice. -/
def Sys2Proof.Claims.SeatEvents : Prop :=
  ∀ (s : State) (id : Word32),
    let t := s.thr id
    -- seating
    (∀ n xs ys, n < 16 → (s.core t.core).run = xs ++ id :: ys → (∀ x ∈ xs, t.prio.toNat < (s.thr x).prio.toNat) →
      (∀ y ∈ ys, t.prio.toNat ≤ (s.thr y).prio.toNat) → s.seats.look (n * 1024 + t.core) = none →
      (∀ m, m < n → (s.seats.look (m * 1024 + t.core)).isSome = true) → t.life = .ready → t.saving = false →
      s.claimed id = false → s.shadowFits t.core t = true → ∃ u, exec (.threadSeating t.core) s = .next u ∧ (u.thr id).life = .seated ∧
        u.seats.look (n * 1024 + t.core) = some ⟨id, true, false⟩ ∧ id ∉ (u.core t.core).run ∧
        Posted u (.contextFetchDone (n * 1024 + t.core)) ∧ (u.thr id).g = t.g ∧ (u.thr id).pc = t.pc) ∧
    (∀ k x, s.seats.look k = some x → x.saving = true → (s.threads.look x.thid.toNat).isSome = true →
      ∃ u, exec (.contextSaveDone k) s = .next u ∧ u.seats.look k = none ∧ (u.thr x.thid).saving = false ∧
        Posted u (.threadSeating (k % 1024))) ∧
    (∀ k x, s.seats.look k = some x → x.saving = false → ∃ u, exec (.contextFetchDone k) s = .next u ∧
      u.seats.look k = some { x with loading := false }) ∧
    -- the slice
    (Fresh t → 0 < t.slice → t.slice ≤ t.sliceCnt →
      (t.ie = false → ∃ u, exec (.sliceExpiry id) s = .next u ∧ (u.thr id).slicePend = true ∧ (u.thr id).life = .seated) ∧
      (t.ie = true → (∀ x ∈ (s.core t.core).run, t.prio.toNat < (s.thr x).prio.toNat) →
        ∃ u, exec (.sliceExpiry id) s = .next u ∧ (u.thr id).sliceCnt = 0 ∧ (u.thr id).life = .seated) ∧
      (t.ie = true → (∃ x ∈ (s.core t.core).run, (s.thr x).prio.toNat ≤ t.prio.toNat) →
        (t.sltrap = false → ∃ u, exec (.sliceExpiry id) s = .next u ∧ AtTail u id ∧ (u.thr id).pc = t.pc) ∧
        (t.sltrap = true → t.pcMode ≠ .line → ∃ u, exec (.sliceExpiry id) s = .next u ∧
          EntersAsync t (u.thr id) 0xE0#8 (BitVec.ofNat 64 t.slice)))) ∧
    -- waits
    (t.life = .waitSeated → 4 ≤ t.waitTurns →
      ((∃ x w, t.wait = .fullBit x w) ∨ (∃ d, t.wait = .qin d) ∨ (∃ d, t.wait = .qout d) ∨ t.wait = .mailbox) →
      ∃ u, exec (.seatedWaitTimeout id) s = .next u ∧ (u.thr id).life = .waitUnseated ∧ (u.thr id).wait = t.wait) ∧
    (∀ e, e = .fullBitChange id ∨ e = .waitEvent id → (t.life = .waitSeated ∨ t.life = .waitUnseated) → t.late = none →
      let done := fun (u : State) => (t.life = .waitSeated → (u.thr id).life = .seated ∧ (u.thr id).wait = .none) ∧
        (t.life = .waitUnseated → AtTail u id) ∧ (u.thr id).pc = t.pc ∧ (u.thr id).g = t.g
      (∀ x w, t.wait = .fullBit x w → x.toNat < 0x80 → (t.gFull x.toNat = w → ∃ u, exec e s = .next u ∧ done u) ∧
        (t.gFull x.toNat ≠ w → exec e s = .next s)) ∧
      (∀ m, t.wait = .event m → (t.event &&& m ≠ 0#64 → ∃ u, exec e s = .next u ∧ done u) ∧
        (t.event &&& m = 0#64 → exec e s = .next s)) ∧
      (∀ l n, t.wait = .landing l n → (n ≤ (t.lR l).toNat → ∃ u, exec e s = .next u ∧ done u) ∧
        ((t.lR l).toNat < n → exec e s = .next s)) ∧
      (∀ k g d, t.wait = .barrier k g true d → d.spec.toNat < 0x80 →
        let b := s.barriers.lookD (16 * t.part + k.toNat) ⟨none, [], [], 0#32, []⟩
        (b.gen ≠ g → t.core ∉ b.releasing → ∃ u, exec e s = .next u ∧ (u.thr id).gR d.spec.toNat = BitVec.ofNat 64 b.gen.toNat ∧
          (u.thr id).wait = .none ∧ ((u.thr id).life = .seated ∨ (u.thr id).life = .ready)) ∧
        (b.gen = g → exec e s = .next s))) ∧
    -- migration
    (∀ c, t.life = .migrating → t.killers = [] →
      (s.residents c < 64 → (s.core t.core).pending = [] → (∀ d, t.arrive = some d → d.spec.toNat < 0x80) →
        ∃ u, exec (.migrationArrival id c) s = .next u ∧ (u.thr id).core = c ∧ AtTail u id ∧
          (u.thr id).pc = ((t.packet.getD 0 0#256).extractLsb' 32 48).signExtend 64 ∧
          ∀ d, t.arrive = some d → (u.thr id).gR d.spec.toNat = 0#64 ∧ (u.thr id).gFull d.spec.toNat = true) ∧
      (64 ≤ s.residents c → ∃ u, exec (.migrationArrival id c) s = .next u ∧ (u.thr id).life = .migrating ∧
        id ∈ (u.core c).arrivals)) ∧
    -- posted causes
    (∀ p r, Fresh t → t.ie = true → t.posted = p :: r → t.pcMode ≠ .line → ∃ u, exec (.postedCauseTaken id) s = .next u ∧
      (u.thr id).posted = r ∧ EntersAsync t (u.thr id) p.code p.tval) ∧
    -- the end
    (t.life = .exited → t.outLd = 0 → t.outSt = 0 → t.outCp = 0 → t.outHr = 0 → (s.threads.look id.toNat).isSome = true →
      (s.core t.core).pending = [] → (s.core (homeOf id)).pending = [] →
      ∃ u, exec (.threadFreed id) s = .next u ∧ u.threads.look id.toNat = none ∧
        ((s.core (homeOf id)).resv.look (id.toNat % 64) = some id → (u.core (homeOf id)).resv.look (id.toNat % 64) = none))

/-- R43, R45, R81, R195, R197, R293, R302, R340: a pending store is performed at its home port and no longer counts; a reading of
the anchor's registers gets there and back; an access of the host window waits while the link is down; an answer makes its thread
ready; a host write and a publication are performed in the host's memory; a row at its limit is throttled. -/
def Sys2Proof.Claims.PortEvents : Prop :=
  ∀ (s : State) (id : Word32),
    let t := s.thr id
    (∀ n c p, planesMax ≤ n → s.asks.look n = none → p.id = n → p.thid = id → (∃ e ∈ s.cores, e.1 = c ∧ p ∈ e.2.pend) →
      (∀ e ∈ s.cores, ∀ q ∈ e.2.pend, q.id = n → q.thid = id → e.1 = c ∧ q = p) → (p.bytes.map (·.1)).Nodup →
      -- a part of a line is written by reading and rewriting the line (R79)
      let v := if p.line then s else s.eccRead p.pa
      (s.errs = [] → v.mem = s.mem) ∧
      ∃ u, exec (.homePortAccess id n) s = .next u ∧ (∀ e ∈ p.bytes, u.byteAt .device e.1 = e.2) ∧
        (∀ m a, (m = .device → a ∉ p.bytes.map (·.1)) → u.byteAt m a = v.byteAt m a) ∧ p ∉ (u.core c).pend ∧
        ((s.threads.look id.toNat).isSome = true → (u.thr id).outSt = t.outSt - 1)) ∧
    (t.wait = .anchor → ∃ u, exec (.homePortAccess id 0) s = .next u ∧ (u.thr id).atAnchor = true ∧ (u.thr id).wait = .answer ∧
      Posted u (.accessAnswer id)) ∧
    (∀ o st, t.wait = .hostAccess o st → s.linkUp = false → exec (.homePortAccess id 0) s = .next s) ∧
    (t.wait = .entry → t.life = .waitSeated → ∃ u, exec (.accessAnswer id) s = .next u ∧ (u.thr id).life = .seated ∧
      (u.thr id).wait = .none ∧ (u.thr id).pc = t.pc) ∧
    (t.wait = .answer → t.life = .waitUnseated → ∃ u, exec (.accessAnswer id) s = .next u ∧ AtTail u id ∧
      (u.thr id).g = t.g ∧ (u.thr id).pc = t.pc) ∧
    (∀ n e, s.hostPend.look n = some e → (e.bytes.map (·.1)).Nodup → ∃ u, exec (.hostWritePerformed n) s = .next u ∧
      u.hostPend.look n = none ∧ (∀ b ∈ e.bytes, u.byteAt .host b.1 = b.2) ∧
      (∀ m a, (m = .host → a ∉ e.bytes.map (·.1)) → u.byteAt m a = s.byteAt m a) ∧
      ((s.threads.look e.thid.toNat).isSome = true → (u.thr e.thid).outSt = (s.thr e.thid).outSt - 1)) ∧
    (∀ (d : Fld) q, (s.threads.look id.toNat).isSome = true → t.life ≠ .exited → t.life ≠ .swappedOut → s.part t.part = some q →
      s.linkUp = true → d.spec.toNat < 0x80 → let v := q.pubCount + 1#64
      ∃ u n e q', exec (.publishApply id d) s = .next u ∧ (u.thr id).gR d.spec.toNat = v ∧ (u.thr id).gFull d.spec.toNat = true ∧
        u.part t.part = some q' ∧ q'.pubCount = v ∧ u.hostPend.look n = some e ∧ e.thid = id ∧ e.value = some v ∧
        e.bytes = (leBytes 8 v.toNat).zipIdx.map (fun b => (q.desc.hostBase.toNat + 0x1000 + b.2, b.1)) ∧
        Posted u (.hostWritePerformed n)) ∧
    (∀ c r, ∃ u, exec (.rowThrottle c r) s = .next u ∧ r ∈ (u.core c).throttled)

/-- Threads: SeatEvents and PortEvents together. -/
def Obligations.ThreadEvents : Prop := SeatEvents ∧ PortEvents

namespace Sys2Proof.Claims

/-- A piece may register at a stencil behind earlier waiters (R87, R88): fewer than 64 entries, no entry of another operation over
its bytes where either writes, and no waiter of another operation over them. -/
def Fits (st ws : List Piece) (p : Piece) : Prop :=
  let meets := fun (q : Piece) => p.lo < q.hi ∧ q.lo < p.hi ∧ q.op ≠ p.op
  st.length < 64 ∧ (∀ q ∈ st, meets q → p.write = false ∧ q.write = false) ∧ ∀ q ∈ ws, ¬meets q

/-- The operation at a number, the only one in a table of which a test holds. -/
def OnlyOne {α : Type} (tb : Tbl α) (op : Nat) (o : α) (p : α → Prop) : Prop :=
  ∃ xs ys, tb = xs ++ (op, o) :: ys ∧ ∀ e ∈ xs ++ ys, e.1 ≠ op ∧ ¬p e.2

end Sys2Proof.Claims

/-- R82 to R95, R380: a piece registers when it fits and waits when it does not, and its grant goes back; a copy runs once its ranges
are registered and it has a slot; a slot booked by another is handed over; the tracer sends a line and stops at a poisoned one; a line
is performed at its destination; the last one ends the copy, its landing counter counts and its range is released. -/
def Sys2Proof.Claims.CopyEvents : Prop :=
  ∀ (s : State) (op : Nat) (o : CopyOp),
    (∀ c p r, s.copies.look op = some o → o.live = true → o.todo = (c, p) :: r → p ∉ (s.core c).stencil → p ∉ (s.core c).stWait →
      (Fits (s.core c).stencil (s.core c).stWait p → ∃ t, exec (.registrationRequest op c) s = .next t ∧ p ∈ (t.core c).stencil ∧
        (o.core ≠ c → Posted t (.registrationGrant op c))) ∧
      (¬Fits (s.core c).stencil (s.core c).stWait p → ∃ t, exec (.registrationRequest op c) s = .next t ∧
        p ∈ (t.core c).stWait ∧ (t.core c).stencil = (s.core c).stencil)) ∧
    (∀ c p, (s.core c).stWait = [p] →
      (Fits (s.core c).stencil [] p → ∃ t, exec (.stencilRegister c) s = .next t ∧ p ∈ (t.core c).stencil ∧
        (p.op = op → s.copies.look op = some o → o.core ≠ c → Posted t (.registrationGrant op c))) ∧
      (¬Fits (s.core c).stencil [] p → ∃ t, exec (.stencilRegister c) s = .next t ∧ (t.core c).stWait = [p] ∧
        (t.core c).stencil = (s.core c).stencil)) ∧
    (∀ c p, s.copies.look op = some o → o.live = true → o.todo = [(c, p)] → p ∈ (s.core c).stencil →
      ∃ t o', exec (.registrationGrant op c) s = .next t ∧ t.copies.look op = some o' ∧ o'.todo = [] ∧ o'.ready = true ∧
        Posted t (.copyRunning op)) ∧
    (s.copies.look op = some o → o.state = .queued → o.stop = none → o.secLo ≠ o.secHi → o.ready = true → o.started = false →
      o.booked = none → o.cb = none →
      (∀ n, (o.slot = some n ∨ (o.slot = none ∧ s.freeSlot o.core = some n)) → ∃ t o', exec (.copyRunning op) s = .next t ∧
        t.copies.look op = some o' ∧ o'.state = .running ∧ o'.slot = some n ∧
        (o.srcCore = o.core → Posted t (.tracerLine o.core)) ∧ (o.srcCore ≠ o.core → Posted t (.startMessage op))) ∧
      (o.slot = none → s.freeSlot o.core = none → exec (.copyRunning op) s = .next s)) ∧
    (∀ c n, s.slotHeld c n s.tick.toNat = true → o.core = c → o.slot = some n → o.live = true → o.booked = none →
      OnlyOne s.copies op o (fun x => x.core = c ∧ x.slot = some n ∧ x.live = true ∧ x.booked = none) →
      (∀ m, s.freeSlot c = some m → ∃ t o', exec (.slotHandover c n) s = .next t ∧ t.copies.look op = some o' ∧
        o' = { o with slot := some m }) ∧
      (s.freeSlot c = none → ∃ t o', exec (.slotHandover c n) s = .next t ∧ t.copies.look op = some o' ∧ o'.slot = none ∧
        o'.state = .queued)) ∧
    (s.copies.look op = some o → o.state = .running → o.ready = true → o.stop = none → ∃ t o', exec (.startMessage op) s = .next t ∧
      t.copies.look op = some o' ∧ o' = { o with started := true } ∧ Posted t (.tracerLine o.core)) ∧
    (OnlyOne s.copies op o (fun x => x.core = o.core ∧ x.live = true) → o.state = .running → o.started = true → o.stop = none →
      o.sent < o.secHi → s.copyStale o = false → s.banksOpen o = true → o.kind = .copy → o.members = [] →
      let s₁ := State.postOnce (s.modCore o.core fun c => { c with rr := o.slot.getD 0 }) (.tracerLine o.core) 1
      let x := (s₁.readLines o.srcSeg (o.sent * o.perLine) o.perLine).readRun o.srcSeg (o.sent * o.perLine) o.perLine
      ((x.2.2 = false ∨ o.carries o.sent = true) → ∃ t o', exec (.tracerLine o.core) s = .next t ∧ t.copies.look op = some o' ∧
        o' = { o with sent := o.sent + 1 } ∧ Posted t (.copyData op o.sent) ∧ Posted t (.tracerLine o.core)) ∧
      (x.2.2 = true → o.carries o.sent = false → o.lines < o.sent → ∃ t o', exec (.tracerLine o.core) s = .next t ∧
        t.copies.look op = some o' ∧ o' = { o with stop := some .poisoned })) ∧
    (∀ idx k, s.copies.look op = some o → o.state = .running → o.kind = .copy → o.members = [] → o.lines < o.sent →
      o.viaHost = false → o.plain = true → o.stop = none → idx < o.total → segAt o.dstSeg (64 * idx) = some k →
      ∃ t o', exec (.copyData op idx) s = .next t ∧ t.copies.look op = some o' ∧ o'.lines = o.lines + 1 ∧
        t.keyBytes k 64 = (s.readRun o.srcSeg (64 * idx) 64).1 ∧
        (o.lines + 1 = o.secHi → Posted t (.copyReport op))) ∧
    (s.copies.look op = some o → (∀ e ∈ s.copies, e.1 = op → e.2 = o) → o.state = .running → o.kind = .copy → o.members = [] →
      o.lines = o.secHi → o.stop = none → o.total ≤ o.secHi → o.cb = none → o.booked = none →
      ∃ t o', exec (.copyReport op) s = .next t ∧ t.copies.look op = some o' ∧ o'.state = .done ∧ o'.slot = none ∧
        (t.thr o.thid).lR o.lnum = (s.thr o.thid).lR o.lnum + 1#32 ∧ (t.thr o.thid).outCp = (s.thr o.thid).outCp - 1 ∧
        ∀ c, ∀ p ∈ (t.core c).stencil, p.op ≠ op) ∧
    (s.copies.look op = some o → o.opensRow = true → ∃ t o', exec (.refreshSplit op) s = .next t ∧ t.copies.look op = some o' ∧
      o'.splits = o.splits + 1 ∧ (t.core o.core).splits = (s.core o.core).splits + 1)

/-- R101 to R113, R126: a waiting hire is placed in a window that is booked for it; at its start its tile is formed; a mismatch runs it
again, a second one fails the array; a window that ends well lands it; a line is written in its tick; the last one ends it: the status
word, then the landing counter, and it is outstanding no more. The index a placement without a booking has in the hall's table,
4,096 plus the number of the operation (log 30), and that a hire waits for a bank another booking holds (log 118), is the
model's choice. -/
def Sys2Proof.Claims.HireEvents : Prop :=
  ∀ (s : State) (op : Nat) (h : Hire),
    (∀ key b u, s.hires = [(op, h)] → (h.cls = 0#2 ∨ ∀ x ∈ s.sheetsAt (ridgeOf h.core), x.1 = false) → h.state = .issued → h.ready = true → h.arrives ≤ s.now → h.booked = none → h.bidx = none → s.hallWait = [] →
      s.hireStale h = false → s.hireArrays h ≠ [] → s.battenLive h.part h.bat = some (key, b) →
      State.placeHire { s with hires := [(op, { h with state := .placed })], hallWait := [op] } op { h with state := .placed } b.sp = some u →
      ∃ t h' k, exec (.hirePlacement (ridgeOf h.core)) s = .next t ∧ t.hires.look op = some h' ∧ h'.state = .placed ∧
        h'.bidx = some (4096 + op) ∧ (t.books (ridgeOf h.core)).look (4096 + op) = some k ∧ k.state = .committed ∧
        k.hire = some op ∧ k.start = h'.start ∧ t.hallWait = []) ∧
    (s.hires.look op = some h →
      -- a bank that another booking has claimed holds a hire up: the model's choice (log 118)
      (h.state = .placed → h.bidx ≠ none → h.ready = true → h.start ≤ s.tick.toNat → s.hireStale h = false →
        (∀ x ∈ h.quads, s.arrFailed x.1 x.2 = false) → s.hireShut op h = true → exec (.hireStart op) s = .next s) ∧
      (∀ key b i, h.state = .placed → h.bidx = some i → h.ready = true → h.start ≤ s.tick.toNat → s.hireStale h = false →
        (∀ x ∈ h.quads, s.arrFailed x.1 x.2 = false) → s.hireShut op h = false → s.battenLive h.part h.bat = some (key, b) → ∃ t h', exec (.hireStart op) s = .next t ∧
          t.hires.look op = some h' ∧ h'.state = .running ∧ h'.planes = (s.tile h b).1 ∧ h'.flags = (s.tile h b).2) ∧
      (h.state = .running → s.hireStale h = false →
        (h.wide = false → h.bthr.getLsbD 9 = false → ∃ t h', exec (.arrayWindowEnd op false) s = .next t ∧
          t.hires.look op = some h' ∧ h'.state = .landing ∧ h'.planes = h.planes ∧ h'.ntrip = h.ntrip ∧ h'.tripped = h.tripped) ∧
        (h.miss = 0 → ∃ t h', exec (.arrayWindowEnd op true) s = .next t ∧ t.hires.look op = some h' ∧ h'.state = .placed ∧
          h'.rerun = true ∧ h'.miss = 1 ∧ h'.planes = [] ∧ h'.since = some s.tick.toNat ∧ op ∈ t.hallWait) ∧
        (h.miss ≠ 0 → ∃ t a, exec (.arrayWindowEnd op true) s = .next t ∧ (a = (h.arr, h.half) ∨ a ∈ h.quads) ∧ a ∈ t.failedArr)) ∧
      (∀ k, h.state = .landing → h.ending = none → s.hireStale h = false → h.lines < h.total → h.dueTick h.lines ≤ s.tick.toNat → h.dev = false →
        segAt h.dstSeg (64 * h.lines) = some k → s.bankShut h.booked k = false → ∃ t h', exec (.landingLine op) s = .next t ∧ t.hires.look op = some h' ∧
          h' = { h with lines := h.lines + 1, ltick := some s.tick.toNat } ∧
          t.keyBytes k (h.lineData h.lines).1.length = (h.lineData h.lines).1 ∧
          (h.lines + 1 = h.total → Posted t (.hireLanded op))) ∧
      -- the status word waits for a bank that another booking has claimed: the model's choice (log 118)
      (h.state = .landing → h.lines = h.total → h.wide = false → h.tripped = false → h.ending = none →
        s.bankShut h.booked (spKey h.core h.sta) = true → ∃ t h', exec (.hireLanded op) s = .next t ∧
        t.hires.look op = some h' ∧ h'.ending = some 0 ∧ h'.lines = h.total ∧ t.cores = s.cores ∧ t.threads = s.threads) ∧
      (h.state = .landing → h.lines = h.total → h.wide = false → h.tripped = false → h.ending = none →
        s.bankShut h.booked (spKey h.core h.sta) = false → ∃ t, exec (.hireLanded op) s = .next t ∧
        t.hires.look op = none ∧ (t.core h.core).spNat h.sta 8 = (h.status 0 s.tick.toNat).toNat ∧
        (t.thr h.thid).lR h.lnum = (s.thr h.thid).lR h.lnum + 1#32 ∧ (t.thr h.thid).outHr = (s.thr h.thid).outHr - 1))

/-- R115, R120 to R123, R127: a captured sheet fails with the first code that applies, waits for its condition, or is committed from
the start found, with its handle handed over; a pending one is tried again; a booking starts, ends and is moved earlier. The
index a sheet has on its way and that status 5 is decided at capture (log 29), the index of a placement without a booking of
its own (log 30), and the index a booking takes (log 117), are the model's choices. -/
def Sys2Proof.Claims.BookingEvents : Prop :=
  ∀ (s : State) (r i : Nat) (b : Booking), (s.books r).look i = some b →
    -- a sheet that is captured
    (b.state = .submitted →
      let u := (s.delBook r i).served r
      let d := b.dst.getD ⟨0x80#8, false⟩
      (s.live b.thid = false ∨ 16 ≤ u.liveBooks b.thid ∨ u.freeIndex r = none → ∃ t, exec (.bookAttempt r i) s = .next t ∧
        (t.books r).look i = none ∧ Posted t (.statusAnswer b.thid d 5#64)) ∧
      (∀ j g, s.live b.thid = true → u.liveBooks b.thid < 16 → u.freeIndex r = some (j, g) →
        let b₀ := { b with gen := g, state := .pending, dst := if b.early then none else b.dst }
        let v := u.setBook r j b₀
        let sheetCode := if b.sheet.bad then some 4#8 else if s.sheetOutside b.part b.core b.sheet then some 3#8
          else if b.sheet.tooLong then some 6#8 else none
        ∃ t b', exec (.bookAttempt r i) s = .next t ∧ (t.books r).look j = some b' ∧ b'.gen = g ∧ b'.sheet = b.sheet ∧
          (b.early = true → Posted t (.statusAnswer b.thid d (b₀.handle r j))) ∧
          (∀ c, (sheetCode = some c ∨ (sheetCode = none ∧ v.condHolds b₀ = true ∧ v.attempt j b₀ = .error c)) →
            b'.state = .cancelled ∧ b'.ivals = [] ∧ (b.early = true → b'.code = c) ∧
            (b.early = false → ∀ e, b.dst = some e → Posted t (.statusAnswer b.thid e (BitVec.ofNat 64 c.toNat)))) ∧
          (sheetCode = none → v.condHolds b₀ = false → b' = b₀) ∧
          (∀ start is, sheetCode = none → v.condHolds b₀ = true → v.attempt j b₀ = .ok (start, is) →
            b'.state = .committed ∧ b'.start = start ∧ b'.ivals = is ∧
            (b.early = false → ∀ e, b.dst = some e → Posted t (.statusAnswer b.thid e (b₀.handle r j)))))) ∧
    -- a pending one
    (b.state = .pending →
      (s.condHolds b = false → exec (.pendingBookAttempt r i) s = .next s) ∧
      (s.condHolds b = true → ∃ t b', exec (.pendingBookAttempt r i) s = .next t ∧ (t.books r).look i = some b' ∧ b'.gen = b.gen ∧
        (∀ c, s.attempt i b = .error c → b'.state = .cancelled ∧ b'.ivals = [] ∧ (b.early = true → b'.code = c) ∧
          (b.early = false → ∀ e, b.dst = some e → Posted t (.statusAnswer b.thid e (BitVec.ofNat 64 c.toNat)))) ∧
        (∀ start is, s.attempt i b = .ok (start, is) → b'.state = .committed ∧ b'.start = start ∧ b'.ivals = is ∧
          ∀ e, b.dst = some e → Posted t (.statusAnswer b.thid e (b.handle r i))))) ∧
    (b.state = .committed → b.start ≤ s.tick.toNat → ∃ t b', exec (.bookingStart r i) s = .next t ∧ (t.books r).look i = some b' ∧
      b' = { b with state := .started }) ∧
    (b.state = .started → b.last < s.tick.toNat → ∃ t b', exec (.bookingEnd r i) s = .next t ∧ (t.books r).look i = some b' ∧
      b' = { b with state := .ended, ivals := [] }) ∧
    (∀ S, s.books0 = [(i, b)] → s.books1 = [] → b.state = .committed → b.sheet.slide = true → s.movesTo 0 i b = some S →
      ∃ t b', exec .compaction s = .next t ∧ t.books0.look i = some b' ∧
        b' = { b with start := S, ivals := b.ivals.map fun j => { j with lo := j.lo - (b.start - S), hi := j.hi - (b.start - S) } })

/-- Engines: CopyEvents, HireEvents and BookingEvents together. -/
def Obligations.EngineEvents : Prop := CopyEvents ∧ HireEvents ∧ BookingEvents

namespace Sys2Proof.Claims

/-- A cause is among those posted to a thread. -/
def HasPosted (s : State) (id : Word32) (code : Byte) (tv : Word) : Prop := ⟨code, tv⟩ ∈ (s.thr id).posted

/-- A thread to which a cause can be posted: it lives, and holds fewer than four. -/
def CanPost (s : State) (id : Word32) : Prop :=
  (s.threads.look id.toNat).isSome = true ∧ (s.thr id).life ≠ .exited ∧ (s.thr id).posted.length < 4

/-- A live thread of the source's partition, by the dword that names it. -/
def ReachesThread (s : State) (src id : Word32) : Prop :=
  (s.threads.look id.toNat).isSome = true ∧ (s.thr id).life ≠ .exited ∧ (s.thr id).part = (s.thr src).part

end Sys2Proof.Claims

/-- R137 to R142, R253, R254, R256 to R259: at a task's home port the counter counts down, an armed record is armed, a record at 0 is
released: found bad, chained behind an earlier one, or made a thread; a message the table does not allow posts its cause; a spawn
request makes a ready thread and answers its thid; kill, send and signal act at their target and answer. -/
def Sys2Proof.Claims.TaskEvents : Prop :=
  ∀ (s : State) (src : Word32) (d : Fld),
    (∀ (name : Word) (core off : Nat), s.taskHome (s.thr src).part name = some (core, off) →
      let c := s.core core
      let st := c.spNat off 8 / 2 ^ 56 % 16
      let n := c.spNat (off + 8) 4
      let free := st = 0 ∨ st = 4 ∨ st = 5
      let refused := fun (op : TaskOp) (code : Byte) =>
        (CanPost s src → ∃ t, exec (.taskMessage src name op) s = .next t ∧ HasPosted t src code name) ∧
        (s.live src = false → ∃ t, exec (.taskMessage src name op) s = .next t ∧ (t.core core).taskFaults = c.taskFaults + 1)
      (st = 1 → 2 ≤ n → ∃ t, exec (.taskMessage src name .tdec) s = .next t ∧ (t.core core).spNat (off + 8) 4 = n - 1 ∧
        ((s.threads.look src.toNat).isSome = true → (t.thr src).outSt = (s.thr src).outSt - 1)) ∧
      (∀ k : Word32, free → k ≠ 0#32 → ∃ t, exec (.taskMessage src name (.tset k)) s = .next t ∧
        (t.core core).spNat (off + 8) 4 = k.toNat ∧ (t.core core).spNat off 8 / 2 ^ 56 % 16 = 1) ∧
      (∀ op, (op = .tdec ∧ st = 1 ∧ n = 1) ∨ ((op = .tenq ∨ op = .tset 0#32) ∧ free) →
        (c.taskBad off = true → ∃ t, exec (.taskMessage src name op) s = .next t ∧ (t.core core).spNat off 8 / 2 ^ 56 % 16 = 5 ∧
          (CanPost s src → HasPosted t src 0xA3#8 name)) ∧
        (c.taskBad off = false → ∀ e ∈ c.pending, e.1 ≤ c.spNat off 8 / 2 ^ 54 % 4 → e.2 ≠ [] →
          ∃ t, exec (.taskMessage src name op) s = .next t ∧ (t.core core).spNat off 8 / 2 ^ 56 % 16 = 2 ∧
            ((t.core core).pending.lookD (c.spNat off 8 / 2 ^ 54 % 4) []).getLast? = some off) ∧
        (∀ p, c.taskBad off = false → (∀ e ∈ c.pending, e.2 = []) → s.partOf core = some p → s.stopTicks p = false →
          s.residents core < 64 → (∃ n, n < 64 ∧ c.resv.look n = none) → (c.spNat off 8).testBit 48 = false →
          ∃ t id, exec (.taskMessage src name op) s = .next t ∧ (t.core core).spNat off 8 / 2 ^ 56 % 16 = 3 ∧ AtTail t id ∧
            (t.thr id).core = core ∧ (t.thr id).part = p ∧ (t.thr id).task = some (BitVec.ofNat 64 (core * 2 ^ 32 + off)) ∧
            (t.core core).spNat (off + 72) 8 = id.toNat)) ∧
      (∀ op, 5 < st ∨ (st ≠ 0 ∧ st ≠ 4 ∧ st ≠ 5 ∧ op ≠ .tdec) → refused op 0xA2#8) ∧
      (st ≤ 5 → (st ≠ 1 ∨ n = 0) → refused .tdec 0xA0#8)) ∧
    (∀ req : SpawnReq,
      let b := birthOf req.ctl.toNat (fun i => req.init.getD i 0#64) req.entry req.image
      (s.newThread req.core (s.thr req.src).part b = none → ∃ t, exec (.spawnRequest req) s = .next t ∧
        Posted t (.statusAnswer req.src req.dst 2#64) ∧ t.threads = s.threads) ∧
      (∀ id u, s.newThread req.core (s.thr req.src).part b = some (id, u) → req.sheet = none →
        ∃ t, exec (.spawnRequest req) s = .next t ∧ AtTail t id ∧ (t.thr id).core = req.core ∧ (t.thr id).pc = req.entry ∧
          Posted t (.statusAnswer req.src req.dst (BitVec.ofNat 64 id.toNat)))) ∧
    (∀ (e : Word → Instr) (v : Word), (e = .killRequest src d ∨
        (e = (fun x => .mailboxDelivery src d x v) ∧ (s.thr src).sends = []) ∨
        (e = (fun x => .signalDelivery src d x v) ∧ (s.thr src).sends = [])) →
      -- no live thread; another partition's
      (∀ x : Word, (2 ^ 32 ≤ x.toNat ∨ s.live (BitVec.ofNat 32 x.toNat) = false) →
        ∃ t, exec (e x) s = .next t ∧ Posted t (.statusAnswer src d 1#64) ∧ t.threads = s.threads) ∧
      (∀ id : Word32, s.live id = true → (s.thr id).part ≠ (s.thr src).part →
        ∃ t, exec (e (id.zeroExtend 64)) s = .next t ∧ Posted t (.statusAnswer src d 2#64) ∧ t.threads = s.threads)) ∧
    (∀ id : Word32, ReachesThread s src id →
      let x : Word := id.zeroExtend 64
      ((s.thr id).life = .migrating → ∃ t, exec (.killRequest src d x) s = .next t ∧ (t.thr id).life = .migrating ∧
        (t.thr id).killers = (s.thr id).killers ++ [(src, d)]) ∧
      (∀ c, (s.thr id).life = .migrating → (s.thr id).killers = [(src, d)] → ∃ t, exec (.migrationArrival id c) s = .next t ∧
        (t.thr id).life = .exited ∧ Posted t (.statusAnswer src d 0#64)) ∧
      ((s.thr id).life ≠ .migrating → ∃ t, exec (.killRequest src d x) s = .next t ∧ (t.thr id).life = .exited ∧
        Posted t (.statusAnswer src d (if (s.thr id).life = .swappedOut then 3#64 else 0#64))) ∧
      ((s.thr src).sends = [] → (s.thr id).life ≠ .swappedOut → ∀ v,
        ((s.thr id).mailbox.length < 16 → ∃ t, exec (.mailboxDelivery src d x v) s = .next t ∧
          (t.thr id).mailbox = (s.thr id).mailbox ++ [v] ∧ Posted t (.statusAnswer src d 0#64) ∧ Posted t (.waitEvent id)) ∧
        (16 ≤ (s.thr id).mailbox.length → ∃ t, exec (.mailboxDelivery src d x v) s = .next t ∧
          (t.thr id).mailbox = (s.thr id).mailbox ∧ (t.thr src).sends = [(x, v, d)] ∧ Posted t (.sendRetry src)) ∧
        (∃ t, exec (.signalDelivery src d x v) s = .next t ∧ (t.thr id).ev = (s.thr id).ev ||| (v &&& 0x7FFFFFFFFFFFFFFF#64) ∧
          Posted t (.statusAnswer src d 0#64) ∧ Posted t (.waitEvent id))) ∧
      (∀ v, (s.threads.look src.toNat).isSome = true → (s.thr src).life ≠ .swappedOut → (s.thr src).sends = [(x, v, d)] →
        (s.thr id).life ≠ .swappedOut →
        (s.thr id).mailbox.length < 16 → ∃ t, exec (.sendRetry src) s = .next t ∧ (t.thr src).sends = [] ∧
          (t.thr id).mailbox = (s.thr id).mailbox ++ [v] ∧ Posted t (.statusAnswer src d 0#64)))

/-- R145 to R156, R162, R163, R178: a packet that passes the root's checks begins its dispatch and one that does not is passed over; a
rank is filled with its shape, its place in the register image and its entry, and its children hear of it; the last acknowledgement
fixes the release tick, two ticks away, and gives the barrier its members; at that tick the ranks are ready; when all are freed the
completion is written and the code store freed; a group that hangs is told. That a group hangs also when no posted cause ends a
wait of it (log 78) is the model's reading. -/
def Sys2Proof.Claims.KernelEvents : Prop :=
  ∀ (s : State) (k : Nat) (x : Kernel),
    (∀ n sl q line, s.slots.look n = some sl → s.queues.look sl.qid = some q → q.state = .mapped → q.busy = none → q.head ≠ q.tail →
      (q.hw = true → s.linkUp = true) → q.indirect = none → s.overs = [] →
      s.ctlLine q.part q.hw (q.base + 64 * (q.head.toNat % 2 ^ q.lgn)) = some line →
      let pk := (List.range 8).map fun i => BitVec.ofNat 64 (line.toNat >>> (64 * i))
      line.toNat % 256 ≠ 2 →
      let s₁ := if q.hw then s else s.ctlMark q.part (BitVec.ofNat 64 (q.base + 64 * (q.head.toNat % 2 ^ q.lgn))) .read
      (∀ img regs, s₁.checkPacket q.part pk = .ok (img, regs) → ∃ t y q', exec (.launchPacket n) s = .next t ∧
        t.kernels.look s.nextOp = some y ∧ y.state = .dispatching ∧ y.packet = pk ∧ y.image = img ∧ y.regs = regs ∧ y.ranks = [] ∧
        y.len = pkLen pk ∧ t.queues.look sl.qid = some q' ∧ q'.head = q.head + 1#32 ∧ q'.busy = some s.nextOp ∧
        Posted t (.dispatchMulticast s.nextOp 0)) ∧
      (∀ c, s₁.checkPacket q.part pk = .error c → ∃ t q', exec (.launchPacket n) s = .next t ∧ t.queues.look sl.qid = some q' ∧
        q'.head = q.head + 1#32 ∧ q'.busy = none ∧ t.kernels = s.kernels)) ∧
    (s.kernels.look k = some x →
      (∀ r core, x.state = .dispatching → r < x.len → x.ranks.look r = none → s.physOf (x.base + r) = some core →
        ((∃ u ∈ (s.core core).codeRuns, u.kernel = k) ∨ ((s.core core).freeRun (pkImage x.packet)).isSome = true) →
        s.residents core < 64 → (∃ n, n < 64 ∧ (s.core core).resv.look n = none) →
        let w := pkW x.packet
        ∃ t y id, exec (.dispatchMulticast k r) s = .next t ∧ t.kernels.look k = some y ∧ y.ranks.look r = some id ∧
          (t.thr id).kernel = some k ∧ (t.thr id).rank = r ∧ (t.thr id).gsize = pkLen x.packet ∧ (t.thr id).core = core ∧
          (t.thr id).part = x.part ∧ (t.thr id).W = w ∧ (t.thr id).life = .ready ∧
          (t.thr id).pc = BitVec.ofNat 64 ((x.packet.getD 2 0#64).toNat + 128 * pkEntry x.packet) ∧
          (∀ i, i < w → (t.thr id).gR i = x.regs.getD ((if (x.packet.getD 0 0#64).getLsbD 16 then w * r else 0) + i) 0#64) ∧
          (∃ u ∈ (t.core core).codeRuns, u.kernel = k) ∧ (r ∉ x.heard → ∀ c ∈ fanKids x.len r, Posted t (.dispatchMulticast k c))) ∧
      (∀ r, x.state = .dispatching → r ∉ x.acks →
        ((fanParent x.len r).isSome = true → ∃ t y, exec (.dispatchAck k r) s = .next t ∧ t.kernels.look k = some y ∧
          r ∈ y.acks ∧ y.state = .dispatching) ∧
        (fanParent x.len r = none → ∃ t y, exec (.dispatchAck k r) s = .next t ∧ t.kernels.look k = some y ∧ y.state = .released ∧
          y.T = s.tick.toNat + 2 ∧
          ∀ b, pkBar x.packet = some b → ∃ m, t.barriers.look (16 * x.part + b.toNat) = some m ∧ m.kernel = some k ∧
            m.members = x.ranks.filter (fun e => s.live e.2) ∧ m.arrived = [])) ∧
      (x.state = .released → x.T ≤ s.tick.toNat → ∃ t y, exec (.kernelRelease k) s = .next t ∧ t.kernels.look k = some y ∧
        y.state = .running ∧ ∀ e ∈ x.ranks, (s.thr e.2).life = .ready → s.live e.2 = true → e.2 ∈ (t.core (s.thr e.2).core).run) ∧
      (x.freed.length = x.len → x.state ≠ .dispatching → ∃ t, exec (.kernelRetirement k) s = .next t ∧ t.kernels.look k = none ∧
        (∀ c, ∀ u ∈ (t.core c).codeRuns, u.kernel ≠ k) ∧
        ∀ d7 pa, x.packet.getD 7 0#64 = d7 → d7 ≠ 0#64 → d7.toNat % 8 = 0 → s.ctlAddr x.part d7 .write = some pa →
          t.mem.run 0#8 pa 8 = leBytes 8 (s.tick.toNat % 2 ^ 63)) ∧
      (∀ id, s.kernels = [(k, x)] → s.hangs x = true → s.lowestRank k none = some id → (s.thr id).posted.length < 4 →
        ∃ t y, exec .hang s = .next t ∧ HasPosted t id 0xE1#8 (s.hangTval x) ∧ t.kernels.look k = some y ∧ y.hung = true))

/-- R168 to R177, R314: a queue is created with the lowest free number and a new generation; a wake write under a valid capability
advances its tail and one that fails is counted; a slot is granted, unmapped and idle; destroying frees the number for a new
generation; a device enqueue writes its packet and answers the new tail, answers all ones when the ring is full and traps 0xA4 on
a bad capability. Where a wake that fails under another partition's capability is counted (log 64), a qput to a queue that is
being destroyed (log 65) and the start of the idle count (log 66) are the model's readings. -/
def Sys2Proof.Claims.QueueEvents : Prop :=
  ∀ (s : State) (qid : Nat),
    (∀ (r : QueueReq), s.pstate = .running → (s.part r.part.toNat).isSome = true → 1 ≤ r.lgn.toNat → r.base.toNat % 64 = 0 →
      r.stat.toNat % 8 = 0 → qid < 4096 → (∀ j, j < qid → ∃ q, s.queues.look j = some q ∧ q.live = true) →
      (∀ q, s.queues.look qid = some q → q.live = false) → ∃ t q, exec (.queueCreate r) s = .next t ∧ t.queues.look qid = some q ∧
        q.live = true ∧ q.state = .unmapped ∧ q.head = 0#32 ∧ q.tail = 0#32 ∧ q.wfail = 0#16 ∧ q.part = r.part.toNat ∧ q.cls = r.cls ∧
        q.lgn = r.lgn.toNat ∧ q.base = r.base.toNat ∧ q.stat = r.stat.toNat ∧
        q.gen = (match s.queues.look qid with | some o => nextGen o.gen | none => 1#16)) ∧
    (∀ (p : Nat) (data : BitVec 512), s.linkUp = true → (s.pstate = .running ∨ s.pstate = .entering) →
      let cap : BitVec 256 := BitVec.ofNat 256 data.toNat
      let tail := data.toNat / 2 ^ 256 % 2 ^ 64
      (∀ q, s.unseal cap p 168 = some (qid, q) → data.toNat / 2 ^ 320 = 0 → tail < 2 ^ 32 → q.state ≠ .destroying →
        (BitVec.ofNat 32 tail - q.head).toNat ≤ 2 ^ q.lgn → ∃ t q', exec (.wakeWrite p data) s = .next t ∧
          t.queues.look qid = some q' ∧ q'.tail = BitVec.ofNat 32 tail ∧ q'.head = q.head) ∧
      (∀ q, s.unseal cap p 168 = none → tail ≠ 2 ^ 64 - 1 → cap.toNat / 2 ^ 128 % 2 ^ 12 = qid → s.queues.look qid = some q →
        q.live = true → ∃ t q', exec (.wakeWrite p data) s = .next t ∧ t.queues.look qid = some q' ∧ q'.tail = q.tail ∧
          q'.wfail = if q.wfail = 0xFFFF#16 then q.wfail else q.wfail + 1#16) ∧
      (∀ q, s.unseal cap p 170 = some (qid, q) → data.toNat / 2 ^ 320 = 0 → tail = 2 ^ 64 - 1 → q.state ≠ .destroying →
        q.state ≠ .destroyed → ∃ t q', exec (.wakeWrite p data) s = .next t ∧ t.queues.look qid = some q' ∧ q'.state = .destroying)) ∧
    (∀ q, s.queues.look qid = some q →
      (q.live = true → q.state ≠ .destroying → q.state ≠ .destroyed → ∃ t q', exec (.queueDestroy qid) s = .next t ∧
        t.queues.look qid = some q' ∧ q'.state = .destroying ∧ qid ∉ t.slotWait ∧ (q.busy = none → Posted t (.queueDestroyed qid))) ∧
      (q.state = .destroying → q.busy = none → q.waiting = false → ∃ t q', exec (.queueDestroyed qid) s = .next t ∧
        t.queues.look qid = some q' ∧ q'.live = false ∧ q'.state = .destroyed ∧ q'.gen = nextGen q.gen ∧ q'.head = q.tail) ∧
      (∀ n x, s.slots.look n = some x → x.qid = qid → q.busy = none → q.waiting = false →
        (q.state = .unmapping → ∃ t q', exec (.unmappingEnd n) s = .next t ∧ t.queues.look qid = some q' ∧ q'.state = .unmapped ∧
          (x.next = none → t.slots.look n = none) ∧
          ∀ m y, x.next = some m → m ≠ qid → s.queues.look m = some y → y.waiting = true → ∃ z y', t.slots.look n = some z ∧
            z.qid = m ∧ t.queues.look m = some y' ∧ y'.state = .mapped) ∧
        (q.state = .mapped → q.head = q.tail → q.idleSince + 1024 ≤ s.tick.toNat → x.next = none →
          ∃ t q', exec (.idleUnmap n) s = .next t ∧ t.queues.look qid = some q' ∧ q'.state = .unmapped ∧ t.slots.look n = none)) ∧
      (∀ n, s.slotWait = [qid] → (s.lastGrant = none ∨ ∃ c, s.lastGrant = some c ∧ c + 16 ≤ s.now) →
        (∀ e ∈ s.slots, e.2.next ≠ some qid) → n < 128 → s.slots.look n = none → (∀ m, m < n → (s.slots.look m).isSome = true) →
        ∃ t q', exec .slotGrant s = .next t ∧ t.slots.look n = some ⟨qid, q.cls, s.slotSeq, none⟩ ∧ t.slotWait = [] ∧
          t.lastGrant = some s.now ∧ t.queues.look qid = some q' ∧ q'.state = .mapped ∧ q'.waiting = false) ∧
      (∀ (src : Word32) (d e : Fld) (a : Word) (cap : BitVec 256) (pk : BitVec 512), (s.thr src).wait = .qput e →
        (s.thr src).life = .waitUnseated →
        (s.unseal cap (s.thr src).part 169 = some (qid, q) → q.hw = false → d.spec.toNat < 0x80 →
          ((q.tail - q.head).toNat = 2 ^ q.lgn → ∃ t, exec (.qputRequest src d a cap pk) s = .next t ∧
            (t.thr src).gR d.spec.toNat = 0xFFFFFFFFFFFFFFFF#64 ∧ t.queues = s.queues) ∧
          ((q.tail - q.head).toNat ≠ 2 ^ q.lgn → ∃ t q', exec (.qputRequest src d a cap pk) s = .next t ∧
            t.queues.look qid = some q' ∧ q'.tail = q.tail + 1#32 ∧
            (t.thr src).gR d.spec.toNat = BitVec.ofNat 64 (q.tail + 1#32).toNat ∧ (t.thr src).wait = .none ∧
            ∀ pa, s.ctlPage q.part (BitVec.ofNat 64 (q.base + 64 * (q.tail.toNat % 2 ^ q.lgn))) .write = some pa →
              t.mem.run 0#8 pa 64 = leBytes 64 pk.toNat)) ∧
        (s.unseal cap (s.thr src).part 169 = none → (s.thr src).ie = true → (s.thr src).roaming = false →
          (s.thr src).pcMode ≠ .line → (s.threads.look src.toNat).isSome = true → ∃ t, exec (.qputRequest src d a cap pk) s = .next t ∧
          (t.thr src).cCode = 0xA4#8 ∧ (t.thr src).tval = a ∧ (t.thr src).ie = false ∧
          (t.thr src).epc = (s.thr src).restart &&& 0xFFFFFFFFFFFFFFFC#64 ∧ AtTail t src)))

/-- Tasks, kernels and queues: TaskEvents, KernelEvents and QueueEvents together. -/
def Obligations.TaskKernelQueueEvents : Prop := TaskEvents ∧ KernelEvents ∧ QueueEvents

namespace Sys2Proof.Claims

/-- The members of a barrier that are a thread, the first with its rank r. -/
def MemberAt (b : Barrier) (src : Word32) (r : Nat) : Prop :=
  ∃ xs ys, b.members = xs ++ (r, src) :: ys ∧ ∀ x ∈ xs, x.2 ≠ src

end Sys2Proof.Claims

/-- R178 to R182, R312, R313: an arrival is counted and answers the generation, and the last one advances it, clears the arrived mask
and sends the release to every member; one of a thread that is no member, or has arrived, posts 0xB0 or 0xB1 and answers all ones;
a release wakes the waiters of its core; a withdrawal takes the arrival back, or completes when the barrier has. -/
def Sys2Proof.Claims.BarrierEvents : Prop :=
  ∀ (s : State) (src : Word32) (k : BitVec 4) (d : Fld),
    let t := s.thr src
    let key := 16 * t.part + k.toNat
    let b := s.barriers.lookD key ⟨none, [], [], 0#32, []⟩
    let tv := BitVec.ofNat 64 k.toNat
    (t.life ≠ .swappedOut →
      (∀ r, MemberAt b src r → r ∉ b.arrived →
        (∃ u, exec (.barrierArrival src k d false) s = .next u ∧ Posted u (.statusAnswer src d (BitVec.ofNat 64 b.gen.toNat))) ∧
        ((t.ie = false ∨ t.posted = []) → ∃ u, exec (.barrierArrival src k d true) s = .next u ∧
          (u.thr src).wait = .barrier k b.gen true d ∧ (u.thr src).pc = t.pc) ∧
        ∀ w, (t.ie = false ∨ t.posted = [] ∨ w = false) → ∃ u b', exec (.barrierArrival src k d w) s = .next u ∧
          u.barriers.look key = some b' ∧ b'.members = b.members ∧
          ((∃ m ∈ b.members, m.1 ≠ r ∧ m.1 ∉ b.arrived) → b'.arrived = b.arrived ++ [r] ∧ b'.gen = b.gen) ∧
          ((∀ m ∈ b.members, m.1 = r ∨ m.1 ∈ b.arrived) → b'.arrived = [] ∧ b'.gen = b.gen + 1#32 ∧
            ∀ m ∈ b.members, (s.thr m.2).core ∈ b'.releasing ∧ Posted u (.barrierRelease t.part k (s.thr m.2).core))) ∧
      ((∀ m ∈ b.members, m.2 ≠ src) → CanPost s src → ∃ u, exec (.barrierArrival src k d false) s = .next u ∧
        HasPosted u src 0xB0#8 tv ∧ Posted u (.statusAnswer src d 0xFFFFFFFFFFFFFFFF#64)) ∧
      (∀ r, MemberAt b src r → r ∈ b.arrived → CanPost s src → ∃ u, exec (.barrierArrival src k d false) s = .next u ∧
        HasPosted u src 0xB1#8 tv ∧ Posted u (.statusAnswer src d 0xFFFFFFFFFFFFFFFF#64) ∧
        u.barriers.lookD key ⟨none, [], [], 0#32, []⟩ = b)) ∧
    (∀ c b', s.barriers.look key = some b' → ∃ u b'', exec (.barrierRelease t.part k c) s = .next u ∧ u.barriers.look key = some b'' ∧
      c ∉ b''.releasing ∧ b''.gen = b'.gen ∧
      ∀ e ∈ s.threads, e.2.core = c → e.2.part = t.part → (∃ g w f, e.2.wait = .barrier k g w f) → Posted u (.waitEvent e.2.thid)) ∧
    (∀ g, t.wait = .withdrawal k g d → t.life = .waitUnseated →
      (∀ r, MemberAt b src r → r ∈ b.arrived → b.gen = g → ∃ u b', exec (.barrierWithdrawal src k) s = .next u ∧
        u.barriers.look key = some b' ∧ b'.arrived = b.arrived.filter (· != r) ∧ AtTail u src ∧ (u.thr src).pc = t.restart) ∧
      (b.gen ≠ g → d.spec.toNat < 0x80 → ∃ u, exec (.barrierWithdrawal src k) s = .next u ∧
        (u.thr src).gR d.spec.toNat = BitVec.ofNat 64 b.gen.toNat ∧ AtTail u src))

/-- R189 to R191, R195, R198, R199, R297: an entry joins its queue and a credit comes back; a core whose oldest wait on qout is 256
cycles old sends a token, which goes on along the waiters, lends a reserve entry back at its origin or posts 0xB4; the Priet Link goes
down, is up again with its waiters tried, or stays down until host accesses and copies end; a peer device writes a line of its window,
and a port that fails ends its copies. A token sent again every 256 cycles (log 57), one back at its origin after 1,024 hops
(log 56), and how accesses and copies end when the link limit passes (log 77), are the model's readings. -/
def Sys2Proof.Claims.LinkEvents : Prop :=
  ∀ (s : State),
    (∀ c (d : Dir) (v : Word), ∃ t, exec (.queueEntry c d v) s = .next t ∧
      ((t.core c).inq.lookD (dirCode d) ⟨[], 0, 0⟩).items = ((s.core c).inq.lookD (dirCode d) ⟨[], 0, 0⟩).items ++ [v] ∧
      ∀ e ∈ s.threads, e.2.core = c → e.2.wait = .qin (BitVec.ofNat 3 (dirCode d)) → Posted t (.waitEvent e.2.thid)) ∧
    (∀ c (d : Dir), let nb := neighbour c (dirCode d)
      let o := opposite (dirCode d)
      ∃ t, exec (.creditReturn c d) s = .next t ∧ (t.core nb).credUsed.lookD o 0 = (s.core nb).credUsed.lookD o 0 - 1 ∧
        ∀ e ∈ s.threads, e.2.core = nb → e.2.wait = .qout (BitVec.ofNat 3 o) → Posted t (.waitEvent e.2.thid)) ∧
    (∀ c t, s.oldestQout c = some t →
      let go := fun (u : State) (origin hops : Nat) =>
        Posted u (.probeToken origin (neighbour t.core t.down) (dirOf (opposite t.down)) (hops + 1))
      (t.waitSince + 256 ≤ s.now → (∀ p, (s.core c).lastProbe = some p → p + 256 ≤ s.now) →
        ∃ u, exec (.probeTokenSend c) s = .next u ∧ go u c 0 ∧ (u.core c).lastProbe = some s.now) ∧
      (∀ o d hops, o ≠ c → hops < 1024 → ∃ u, exec (.probeToken o c d hops) s = .next u ∧ go u o hops) ∧
      (∀ o d hops, o ≠ c → 1024 ≤ hops → exec (.probeToken o c d hops) s = .next s) ∧
      (∀ d hops, (s.core c).reserve = 0 → CanPost s t.thid → ∃ u, exec (.probeToken c c d hops) s = .next u ∧
        HasPosted u t.thid 0xB4#8 (BitVec.ofNat 64 c))) ∧
    (∀ c d hops, 0 < (s.core c).reserve → ∃ u, exec (.probeToken c c d hops) s = .next u ∧
      (u.core c).reserve = (s.core c).reserve - 1 ∧ ((u.core c).inq.lookD (dirCode d) ⟨[], 0, 0⟩).lent =
        ((s.core c).inq.lookD (dirCode d) ⟨[], 0, 0⟩).lent + 1 ∧ Posted u (.creditReturn c d)) ∧
    (∀ o c d hops, o ≠ c → s.oldestQout c = none → exec (.probeToken o c d hops) s = .next s) ∧
    -- the Priet Link
    (s.linkUp = true → ∃ t, exec .prietLinkDown s = .next t ∧ t.linkUp = false ∧ t.linkDownAt = s.now ∧ Posted t .linkDownTimeout) ∧
    (s.linkUp = false → ∃ t, exec .linkRetrain s = .next t ∧ t.linkUp = true ∧
      ∀ e ∈ s.threads, (∃ o st, e.2.wait = .hostAccess o st) → Posted t (.homePortAccess e.2.thid 0)) ∧
    (s.linkUp = false → s.linkDownAt + 1048576 ≤ s.now → s.hostPend = [] →
      (∀ id th o, th.thid = id → s.threads.look id.toNat = some th → th.life = .waitUnseated → th.posted.length < 4 → s.copies = [] →
        th.ie = true → OnlyOne s.threads id.toNat th (fun x => ∃ o st, x.wait = .hostAccess o st) →
        (th.wait = .hostAccess o false → ∃ t, exec .linkDownTimeout s = .next t ∧ HasPosted t id 0xE4#8 (BitVec.ofNat 64 o) ∧
          AtTail t id ∧ (t.thr id).pc = th.restart) ∧
        (th.wait = .hostAccess o true → ∃ t, exec .linkDownTimeout s = .next t ∧ AtTail t id ∧
          t.lifelog.lookD lgDropSth 0 = min (2 ^ 64 - 1) (s.lifelog.lookD lgDropSth 0 + 1))) ∧
      (∀ op o, s.copies = [(op, o)] → o.live = true → o.kind = .copy → o.cb = none → o.booked = none →
        (o.src.space = 3#3 ∨ o.dst.space = 3#3) → (∀ e ∈ s.threads, ∀ x st, e.2.wait ≠ .hostAccess x st) →
        ∃ t o', exec .linkDownTimeout s = .next t ∧ t.copies.look op = some o' ∧ o'.state = .faulted ∧ o'.why = 0xF4#8)) ∧
    -- peer ports
    (∀ port off (line : BitVec 512) p, s.peers.look port = some p → off % 64 = 0 → off + 64 ≤ p.len → port ∉ s.peerFail →
      s.pstate ≠ .hold → s.pstate ≠ .resuming → isDevKey (p.base + off) = true → ∃ t, exec (.peerWrite port off line) s = .next t ∧
        t.mem.run 0#8 (p.base + off) 64 = leBytes 64 line.toNat ∧ t.sbWord (p.base + off) = 0#32) ∧
    (∀ port op o, s.copies = [(op, o)] → o.live = true → o.kind = .copy → o.cb = none → o.booked = none →
      (o.src.space = 4#3 ∧ o.src.port = port ∨ o.dst.space = 4#3 ∧ o.dst.port = port) →
      ∃ t o', exec (.peerPortFailure port) s = .next t ∧ port ∈ t.peerFail ∧ t.copies.look op = some o' ∧ o'.why = 0xF3#8 ∧
        (o.lines = o.sent * o.mult → o'.state = .faulted) ∧
        (o.lines ≠ o.sent * o.mult → o'.state = o.state ∧ o'.stop = some .faulted))

/-- Barriers and links: BarrierEvents and LinkEvents together. -/
def Obligations.BarrierLinkEvents : Prop := BarrierEvents ∧ LinkEvents

/-- R74 to R76, R157 to R160, R194, R307, R335: a free frame goes to the move that waits for one; a core drops the translations a
shootdown names and the last reply ends it; a page moves with its bytes and its leaf names the new frame; an eviction and a retirement
begin with the leaf marked; a well-formed partition is installed and an idle one removed. The peer pairs taken when a partition
is created (log 88) and the first values of its counters (log 69) are the model's choices. -/
def Obligations.PagePartitionEvents : Prop :=
  ∀ (s : State) (op : Nat),
    (∀ c f,
      ((∀ e ∈ s.pages, e.2.core = c → e.2.evict = true ∨ e.2.frame.isSome = true) →
        ∃ t, exec (.frameAvailable c (some f)) s = .next t ∧ (t.core c).frames = (s.core c).frames ++ [f]) ∧
      (∀ x, s.pages = [(op, x)] → x.core = c → x.evict = false → x.frame = none → (s.core c).frames = [] →
        ∃ t x', exec (.frameAvailable c (some f)) s = .next t ∧ t.pages.look op = some x' ∧ x'.frame = some f ∧
          (t.core c).frames = [] ∧ Posted t (.migrationComplete op))) ∧
    (∀ c (va : Option Word),
      let gone := fun (part : Nat) (t : State) => ∀ e ∈ (t.core c).tlb,
        match va with | none => e.part ≠ part | some a => e.has part (a.toNat % 2 ^ 48 / 4096) = false
      (∀ x, s.pages.look op = none → s.invals.look op = some x → ∃ t, exec (.shootdown c va op) s = .next t ∧ gone x.part t ∧
        (x.waiting.filter (· != c) = [] → t.invals.look op = none ∧ Posted t (.statusAnswer x.thid x.dst 0#64)) ∧
        (∀ y r, x.waiting.filter (· != c) = y :: r → t.invals.look op = some { x with waiting := y :: r })) ∧
      (∀ x, s.pages.look op = some x → ∃ t, exec (.shootdown c va op) s = .next t ∧ gone x.part t ∧
        t.pages.look op = some { x with replies := x.replies.filter (· != c) } ∧
        (x.replies = [c] → x.evict = true → Posted t (.evictionComplete op)) ∧
        (x.replies = [c] → x.evict = false → x.rewritten = true → Posted t (.migrationComplete op)))) ∧
    (∀ x f, s.pages.look op = some x → x.frame = some f → (x.leaf + 8 ≤ f * 4096 ∨ (f + 1) * 4096 ≤ x.leaf) →
      -- no line of the page holds an error that its reading would meet (R78)
      (∀ l, 64 * x.pfn ≤ l → l < 64 * x.pfn + 64 → s.errs.look l = none) →
      let e := leNat (s.mem.run 0#8 x.leaf 8)
      let moved := fun (t : State) => (∀ i, i < 4096 → t.byteAt .device (f * 4096 + i) = s.byteAt .device (x.pfn * 4096 + i)) ∧
        (∀ i, i < 64 → t.sbWord (f * 4096 + 64 * i) = s.sbWord (x.pfn * 4096 + 64 * i)) ∧
        t.mem.run 0#8 x.leaf 8 = leBytes 8 (f * 4096 + (e / 512 % 8) * 512 + (if (f * 4096).testBit 46 then 64 else 0) + e % 64)
      -- an asker is told where the page lies: not present, retired, or in the tier asked for
      let answered := fun (t : State) (id : Word32) (d : Fld) (far : Bool) =>
        (e.testBit 0 = false → Posted t (.statusAnswer id d 1#64)) ∧
        (e.testBit 0 = true → e.testBit 63 = true → Posted t (.statusAnswer id d 2#64)) ∧
        (e.testBit 0 = true → e.testBit 63 = false → e.testBit 7 = false → e.testBit 8 = false → e.testBit 6 = far →
          Posted t (.statusAnswer id d 0#64))
      (x.evict = false → x.rewritten = false → e.testBit 8 = false → ∃ t x', exec (.migrationComplete op) s = .next t ∧ moved t ∧
        t.pages.look op = some x' ∧ x'.rewritten = true ∧ x'.replies = s.partCores x.part ∧
        ∀ c ∈ s.partCores x.part, Posted t (.shootdown c (some x.va) op)) ∧
      (x.evict = false → x.rewritten = true → x.replies = [] → ∃ t, exec (.migrationComplete op) s = .next t ∧
        (isFar (x.pfn * 4096) = true → x.pfn ∈ t.farPool) ∧ (x.askers = [] → t.pages.look op = none) ∧
        ∀ id d, x.askers = [(id, d, false)] → answered t id d false) ∧
      (x.evict = true → x.replies = [] → x.askers = [] → ∃ t, exec (.evictionComplete op) s = .next t ∧ moved t ∧
        t.pages.look op = none ∧ x.pfn ∈ (t.core (homeCore (x.pfn * 4096))).frames) ∧
      (∀ id d, x.evict = true → x.replies = [] → x.askers = [(id, d, true)] → ∃ t, exec (.evictionComplete op) s = .next t ∧
        ((f * 4096).testBit 46 = true → f < 2 ^ 51 → e.testBit 0 = true → Posted t (.statusAnswer id d 0#64)))) ∧
    (∀ part (va : Word) c l, s.leafOf part va = some (c, l) →
      -- no store to the entry is on its way (one would be performed first)
      (∀ e ∈ s.cores, e.2.holds l.addr 8 = false) →
      (∀ f, l.level = 1 → l.pte.testBit 63 = false → l.pte.testBit 6 = false → l.pte.testBit 7 = false → l.pte.testBit 8 = false →
        s.farPool = [] → ∃ t x, exec (.pageEviction part va (some f)) s = .next t ∧ t.pages.look s.nextOp = some x ∧ x.evict = true ∧
          x.frame = some f ∧ x.va = va ∧ t.mem.run 0#8 l.addr 8 = leBytes 8 (l.pte ||| 128) ∧ t.farPool = []) ∧
      ((l.pte.testBit 7 = false ∨ s.pageOf l.addr = none) → ∃ t x, exec (.pageRetire part va) s = .next t ∧
        t.mem.run 0#8 l.addr 8 = leBytes 8 (l.pte % 2 ^ 63 + 2 ^ 63) ∧ t.invals.look s.nextOp = some x ∧
        x.waiting = s.partCores part ∧ ∀ k ∈ s.partCores part, Posted t (.shootdown k (some va) s.nextOp)) ∧
      (l.pte.testBit 7 = true → (s.pageOf l.addr).isSome = true → ∃ t, exec (.pageRetire part va) s = .next t ∧ Posted t (.pageRetire part va) ∧ t.mem = s.mem)) ∧
    (∀ d : PartDesc, s.pstate = .running →
      (s.descOk d = true → ∃ t q, exec (.partitionCreate d) s = .next t ∧ t.part d.pnum.toNat = some q ∧
        q.desc = { d with tvec := d.tvec &&& 0xFFFFFFFFFFFFFF80#64 } ∧ q.pubCount = 0#64 ∧ q.wakeFail = 0#64 ∧ q.stop = none ∧
        (∀ i, i < 8 → t.descRegs.lookD (8 * d.pnum.toNat + i) 0#64 = PartDesc.dword d i) ∧
        ∀ x, d.pairs = [x] → t.peers.look x.port.toNat = some ⟨d.pnum.toNat, x.remote, x.base, x.len⟩) ∧
      ((s.part d.pnum.toNat).isSome = true ∨ d.len = 0 ∨ s.enabled.length < d.base + d.len ∨
        (∃ e ∈ s.parts, d.base < e.2.desc.base + e.2.desc.len ∧ e.2.desc.base < d.base + d.len) ∨
        (∃ x ∈ d.pairs, (s.peers.look x.port.toNat).isSome = true) →
        exec (.partitionCreate d) s = .next s)) ∧
    (∀ p, (∀ e ∈ s.threads, e.2.part = p → e.2.life = .swappedOut) → (∀ e ∈ s.kernels, e.2.part ≠ p) →
      ∃ t, exec (.partitionDestroy p) s = .next t ∧ t.part p = none ∧ (∀ e ∈ t.peers, e.2.part ≠ p) ∧
        (∀ i, i < 8 → t.descRegs.lookD (8 * p + i) 0#64 = 0#64) ∧ ∀ c, ∀ e ∈ (t.core c).tlb, e.part ≠ p)

/-! ### The whole machine -/

namespace Sys2Proof.Claims

/-- What an instruction with a scalar destination, one with a predicate and one with a vector register may write, with the scalar
operands it takes from; fl: it may raise exception flags. -/
def wG (fl : Bool) (d : Fld) (srcs : List Fld) : Writes :=
  ⟨if d.spec.toNat < 0x80 then some d.spec.toNat else none, none, none, fl, d.spec :: srcs.map (·.spec)⟩
def wP (fl : Bool) (d : Fld) (srcs : List Fld) : Writes := ⟨none, some d.spec.toNat, none, fl, srcs.map (·.spec)⟩
def wV (fl : Bool) (d : Fld) (srcs : List Fld) : Writes := ⟨none, none, some d.spec.toNat, fl, srcs.map (·.spec)⟩

/-- The instructions that only compute, or only read the scratchpad or a control register, with what each may write. -/
def computes (s : State) : Instr → Option Writes
  | .sel _ d a b _ _ => some (wG false d [a, b])
  | .cmp _ d a b _ => some (wP false d [a, b])
  | .cmpi _ d a _ _ => some (wP false d [a])
  | .plog _ d _ _ _ => some (wP false d [])
  | .fadd _ d a b _ _ | .fsub _ d a b _ _ | .fmul _ d a b _ _ | .fdiv _ d a b _ _ => some (wG true d [a, b])
  | .fma _ d a b c _ _ => some (wG true d [a, b, c])
  | .fsqrt _ d a _ _ => some (wG true d [a])
  | .fmin _ d a b _ | .fmax _ d a b _ => some (wG true d [a, b])
  | .fcmp _ d a b _ _ => some (wP true d [a, b])
  | .fcvt _ d a _ _ _ => some (wG true d [a])
  | .fcvti _ d a _ _ _ => some (wG true d [a])
  | .fsgn _ d a b _ _ => some (wG false d [a, b])
  | .vadd _ d _ _ _ _ _ | .vsub _ d _ _ _ _ _ | .vmul _ d _ _ _ _ _ | .vdiv _ d _ _ _ _ _ => some (wV true d [])
  | .vfma _ d _ _ _ _ _ _ => some (wV true d [])
  | .vsqrt _ d _ _ _ _ => some (wV true d [])
  | .vmin _ d _ _ _ _ | .vmax _ d _ _ _ _ => some (wV true d [])
  | .vcmp _ d _ _ _ _ _ => some (wV true d [])
  | .vcvt _ d _ _ _ _ _ _ => some (wV true d [])
  | .vred _ d _ _ _ _ | .vscan _ d _ _ _ _ => some (wV true d [])
  | .vdot _ d _ _ _ _ _ => some (wV true d [])
  | .vsel _ d _ _ _ _ | .vperm _ d _ _ _ _ | .vimul _ d _ _ _ _ => some (wV false d [])
  | .vfsgn _ d _ _ _ _ _ => some (wV false d [])
  | .vbcast _ d _ _ _ _ => some (wV false d [])
  | .vext _ d _ _ _ => some (wG false d [])
  | .vins _ d a _ _ => some (wV false d [a])
  | .viadd _ d _ _ _ _ _ | .visub _ d _ _ _ _ _ => some (wV false d [])
  | .vlog _ d _ _ _ _ _ => some (wV false d [])
  | .vsh _ d _ _ _ _ _ => some (wV false d [])
  | .vmov _ d _ _ _ => some (wV false d [])
  | .vmask _ d _ _ _ => some (wV false d [])
  | .viota _ d _ _ => some (wV false d [])
  | .lds _ d a _ _ _ => some (wG false d [a])
  | .vlds _ d a _ _ _ => some (wV false d [a])
  | .vgas _ d a _ _ _ _ => some (wV false d [a])
  | .bndr _ d _ _ => some (wG false d [])
  | .bndw _ d a _ _ => some (wV false d [a])
  | .csrr _ d _ => some (wG false d [])
  | i => (intResult s i).map fun x => wG false x.2.1 x.2.2.1

end Sys2Proof.Claims

/-- The frame of the instructions that only compute (R201, R223, R263 to R292, R296, R298, R305, R332, R334): such an instruction,
whatever its operands, takes a trap, waits as it was, or changes nothing but its destination with its tangents and full bit, the
exception flags where it may raise them, and what the operands it reads give up: no byte or bound of any memory, no other register,
no status, control or exception register, no other thread, and nothing of the module. -/
def Obligations.ComputesOnly : Prop :=
  ∀ (s t : State) (i : Instr) (w : Writes), computes s i = some w → s.th.atPort = false → exec i s = .next t →
    (∃ c tv fl, t = s.takeTrap s.cur c tv fl) ∨ (∃ x, t = s.stopped (.wait x)) ∨ Frame s t w

/-- The invariants every step keeps, whatever instruction or event it runs: the memories stay in canonical form, and every
engine operation in hand has a number below the next one. Both are the model's own, of how it holds memory (log 13) and its one
list of operations (log 1), and no rule of the spec. -/
def Obligations.StepKeepsInvariants : Prop :=
  (∀ s t : State, Sound s → step s = .next t → Sound t) ∧ (∀ s t : State, Numbered s → step s = .next t → Numbered t)

/-- R349, R352, R353 and the Reset columns: right after reset the module is booting with the boot ROM about to run, nothing is in
any memory and no thread, partition, queue, kernel or engine operation exists; a core's shared registers are zero and empty, its
bank formats 7, its bounds zero; and both invariants hold. The values the spec does not give, of registers, of the flash and of
memory, are the model's choices (logs 11 to 13). -/
def Obligations.ResetState : Prop :=
  let s := State.reset
  Sound s ∧ Numbered s ∧ s.pstate = .booting ∧ s.tick = 0#64 ∧ (s.agenda.map (·.ev)) = [.reset] ∧
  s.threads = [] ∧ s.parts = [] ∧ s.queues = [] ∧ s.kernels = [] ∧ s.copies = [] ∧ s.hires = [] ∧ s.books0 = [] ∧ s.books1 = [] ∧
  s.battens = [] ∧ s.barriers = [] ∧ (∀ m a, s.byteAt m a = 0#8) ∧
  ∀ c n, ((s.core c).sreg n).value = 0#64 ∧ ((s.core c).sreg n).full = false ∧ (s.core c).fmtReg n = 7#64 ∧
    (s.core c).spB n = 0#32 ∧ (s.core c).pcore = none ∧ (s.core c).lcore = none

/-! ### Statements put together -/

/-- A step runs the event that is due, and no step stops: the agenda and which of its entries a step takes, the cursor in a rotation, and
that no step stops are the model's choice (logs 1, 2, 3 and 52), in which the events of R50, R349, R353 and R355 come about. -/
def Obligations.EventSteps : Prop :=
  Claims.StepRunsEvent ∧ Claims.PoweredStepGoesOn

/-- Where control goes when an instruction completes: the order of a program, the loops it steps, the loops a transfer leaves. -/
def Obligations.Completion : Prop :=
  Claims.SequentialFlow ∧ Claims.CompletionPlace ∧ Claims.TransferPlace

/-- A trap while ie = 0 ends the thread; a trap leaves everything else as it was; an enabled floating-point exception traps. -/
def Obligations.TrapRules : Prop :=
  Claims.DoubleTrap ∧ Claims.TrapIsPrecise ∧ Claims.ScalarFloatTraps ∧ Claims.VectorFloatTraps

/-- The tests of mode, feature and plane that come before the operands. -/
def Obligations.PrivilegeRules : Prop :=
  Claims.Privilege ∧ Claims.PlaneAboveK

/-- Division by zero, and the most negative number divided by −1 (R265). -/
def Obligations.ArithmeticTraps : Prop :=
  Claims.DivisionByZero

/-- Predicates, what selects on them, and the comparisons that write them. -/
def Obligations.Predicates : Prop :=
  Claims.PredicateResults ∧ Claims.SelectResult ∧ Claims.ScalarCompare

/-- The rounding of an exact result and the results of special values. -/
def Obligations.RoundingRules : Prop :=
  Claims.RoundingDirection ∧ Claims.SpecialValues

/-- The bound and the tangents a vector result carries. -/
def Obligations.VectorSidecars : Prop :=
  Claims.VectorBounds ∧ Claims.VectorTangents ∧ Claims.ReductionSidecars

/-- Masks, and moves between vector lanes and scalar registers. -/
def Obligations.VectorMoves : Prop :=
  Claims.VectorMasks ∧ Claims.VectorScalarMoves

/-- Scalar loads and stores of the own scratchpad. -/
def Obligations.ScratchpadAccess : Prop :=
  Claims.ScratchpadLoads ∧ Claims.ScratchpadStores

/-- Vector loads and stores of every space, and their tangent planes. -/
def Obligations.VectorAccess : Prop :=
  Claims.VectorScratchpad ∧ Claims.VectorDevice ∧ Claims.VectorPlanes

/-- Scalar loads and stores of device memory. -/
def Obligations.DeviceAccess : Prop :=
  Claims.DeviceLoads ∧ Claims.DeviceStores

/-- The atomics of scratchpad and device memory. -/
def Obligations.Atomics : Prop :=
  Claims.ScratchpadAtomics ∧ Claims.DeviceAtomics

/-- Fences, and accesses to the host window. -/
def Obligations.FencesAndHost : Prop :=
  Claims.FenceWaits ∧ Claims.HostWindow

/-- Control transfers and hardware loops. -/
def Obligations.ControlFlow : Prop :=
  Claims.Transfers ∧ Claims.Loops

/-- exit, yield and the waits. -/
def Obligations.EndingAndWaiting : Prop :=
  Claims.EndAndYield ∧ Claims.Waits

/-- The software trap, and the return from a trap. -/
def Obligations.TrapAndReturn : Prop :=
  Claims.SoftwareTrap ∧ Claims.ReturnFromTrap

/-- Messages between threads, what they leave for their receiver, and migration. -/
def Obligations.Messaging : Prop :=
  Claims.Messages ∧ Claims.Receive ∧ Claims.Migrate

/-- Task, barrier and queue instructions. -/
def Obligations.TasksBarriersQueues : Prop :=
  Claims.TaskMessagesSent ∧ Claims.BarrierInstructions ∧ Claims.QueuePutIssue

/-- The dual prefix, and the reads and writes of bounds and tangents. -/
def Obligations.DualBoundsTangents : Prop :=
  Claims.DualPrefix ∧ Claims.BoundsAndTangents

/-- tlbi, hold and halt. -/
def Obligations.ManagerInstructions : Prop :=
  Claims.TlbInvalidate ∧ Claims.HoldAndHalt

/-- Contexts saved and loaded. -/
def Obligations.ContextImages : Prop :=
  Claims.ContextSave ∧ Claims.ContextLoad

/-- Copies and reductions at issue. -/
def Obligations.Copies : Prop :=
  Claims.CopyBegins ∧ Claims.CopyIssue ∧ Claims.CopyRuns ∧ Claims.ReductionPreemptible

/-- Battens loaded and freed, and multicasts, at issue. -/
def Obligations.BattensAndMulticast : Prop :=
  Claims.MulticastAndBattenLoad ∧ Claims.BattenFree

/-- Bookings made and cancelled, and the status of handles. -/
def Obligations.BookingsAndStatus : Prop :=
  Claims.Bookings ∧ Claims.HandleStatus
end

