-- ==== Sys2Proof/Laws/State.lean ====
section
/-!
SUPPORT. What each named update of the state, of a thread and of a core leaves in each field: one lemma per field and
update, all true by rfl.
-/
namespace Sys2Proof.Machine

/-! ### Updates of the state -/

@[simp] theorem State.setThr_free (s : State) (id : Word32) (t : Thread) : (s.setThr id t).free = s.free := rfl
@[simp] theorem State.setThr_cycle (s : State) (id : Word32) (t : Thread) : (s.setThr id t).cycle = s.cycle := rfl
@[simp] theorem State.setThr_tickBase (s : State) (id : Word32) (t : Thread) : (s.setThr id t).tickBase = s.tickBase := rfl
@[simp] theorem State.setThr_tick (s : State) (id : Word32) (t : Thread) : (s.setThr id t).tick = s.tick := rfl
@[simp] theorem State.setThr_cursor (s : State) (id : Word32) (t : Thread) : (s.setThr id t).cursor = s.cursor := rfl
@[simp] theorem State.setThr_cur (s : State) (id : Word32) (t : Thread) : (s.setThr id t).cur = s.cur := rfl
@[simp] theorem State.setThr_agenda (s : State) (id : Word32) (t : Thread) : (s.setThr id t).agenda = s.agenda := rfl
@[simp] theorem State.setThr_nextOp (s : State) (id : Word32) (t : Thread) : (s.setThr id t).nextOp = s.nextOp := rfl
@[simp] theorem State.setThr_fused (s : State) (id : Word32) (t : Thread) : (s.setThr id t).fused = s.fused := rfl
@[simp] theorem State.setThr_flash (s : State) (id : Word32) (t : Thread) : (s.setThr id t).flash = s.flash := rfl
@[simp] theorem State.setThr_pstate (s : State) (id : Word32) (t : Thread) : (s.setThr id t).pstate = s.pstate := rfl
@[simp] theorem State.setThr_bcode (s : State) (id : Word32) (t : Thread) : (s.setThr id t).bcode = s.bcode := rfl
@[simp] theorem State.setThr_holds (s : State) (id : Word32) (t : Thread) : (s.setThr id t).holds = s.holds := rfl
@[simp] theorem State.setThr_resets (s : State) (id : Word32) (t : Thread) : (s.setThr id t).resets = s.resets := rfl
@[simp] theorem State.setThr_boot (s : State) (id : Word32) (t : Thread) : (s.setThr id t).boot = s.boot := rfl
@[simp] theorem State.setThr_enabled (s : State) (id : Word32) (t : Thread) : (s.setThr id t).enabled = s.enabled := rfl
@[simp] theorem State.setThr_gable (s : State) (id : Word32) (t : Thread) : (s.setThr id t).gable = s.gable := rfl
@[simp] theorem State.setThr_cores (s : State) (id : Word32) (t : Thread) : (s.setThr id t).cores = s.cores := rfl
@[simp] theorem State.setThr_dumps (s : State) (id : Word32) (t : Thread) : (s.setThr id t).dumps = s.dumps := rfl
@[simp] theorem State.setThr_images (s : State) (id : Word32) (t : Thread) : (s.setThr id t).images = s.images := rfl
@[simp] theorem State.setThr_threads (s : State) (id : Word32) (t : Thread) : (s.setThr id t).threads = s.threads.ins id.toNat t := rfl
@[simp] theorem State.setThr_seats (s : State) (id : Word32) (t : Thread) : (s.setThr id t).seats = s.seats := rfl
@[simp] theorem State.setThr_mem (s : State) (id : Word32) (t : Thread) : (s.setThr id t).mem = s.mem := rfl
@[simp] theorem State.setThr_sideband (s : State) (id : Word32) (t : Thread) : (s.setThr id t).sideband = s.sideband := rfl
@[simp] theorem State.setThr_errs (s : State) (id : Word32) (t : Thread) : (s.setThr id t).errs = s.errs := rfl
@[simp] theorem State.setThr_rewrites (s : State) (id : Word32) (t : Thread) : (s.setThr id t).rewrites = s.rewrites := rfl
@[simp] theorem State.setThr_hostMem (s : State) (id : Word32) (t : Thread) : (s.setThr id t).hostMem = s.hostMem := rfl
@[simp] theorem State.setThr_overs (s : State) (id : Word32) (t : Thread) : (s.setThr id t).overs = s.overs := rfl
@[simp] theorem State.setThr_hostPend (s : State) (id : Word32) (t : Thread) : (s.setThr id t).hostPend = s.hostPend := rfl
@[simp] theorem State.setThr_parts (s : State) (id : Word32) (t : Thread) : (s.setThr id t).parts = s.parts := rfl
@[simp] theorem State.setThr_descRegs (s : State) (id : Word32) (t : Thread) : (s.setThr id t).descRegs = s.descRegs := rfl
@[simp] theorem State.setThr_copies (s : State) (id : Word32) (t : Thread) : (s.setThr id t).copies = s.copies := rfl
@[simp] theorem State.setThr_hires (s : State) (id : Word32) (t : Thread) : (s.setThr id t).hires = s.hires := rfl
@[simp] theorem State.setThr_books0 (s : State) (id : Word32) (t : Thread) : (s.setThr id t).books0 = s.books0 := rfl
@[simp] theorem State.setThr_books1 (s : State) (id : Word32) (t : Thread) : (s.setThr id t).books1 = s.books1 := rfl
@[simp] theorem State.setThr_hallWait (s : State) (id : Word32) (t : Thread) : (s.setThr id t).hallWait = s.hallWait := rfl
@[simp] theorem State.setThr_hallBusy (s : State) (id : Word32) (t : Thread) : (s.setThr id t).hallBusy = s.hallBusy := rfl
@[simp] theorem State.setThr_battens (s : State) (id : Word32) (t : Thread) : (s.setThr id t).battens = s.battens := rfl
@[simp] theorem State.setThr_failedArr (s : State) (id : Word32) (t : Thread) : (s.setThr id t).failedArr = s.failedArr := rfl
@[simp] theorem State.setThr_kernels (s : State) (id : Word32) (t : Thread) : (s.setThr id t).kernels = s.kernels := rfl
@[simp] theorem State.setThr_queues (s : State) (id : Word32) (t : Thread) : (s.setThr id t).queues = s.queues := rfl
@[simp] theorem State.setThr_slots (s : State) (id : Word32) (t : Thread) : (s.setThr id t).slots = s.slots := rfl
@[simp] theorem State.setThr_slotWait (s : State) (id : Word32) (t : Thread) : (s.setThr id t).slotWait = s.slotWait := rfl
@[simp] theorem State.setThr_slotSeq (s : State) (id : Word32) (t : Thread) : (s.setThr id t).slotSeq = s.slotSeq := rfl
@[simp] theorem State.setThr_lastGrant (s : State) (id : Word32) (t : Thread) : (s.setThr id t).lastGrant = s.lastGrant := rfl
@[simp] theorem State.setThr_barriers (s : State) (id : Word32) (t : Thread) : (s.setThr id t).barriers = s.barriers := rfl
@[simp] theorem State.setThr_pages (s : State) (id : Word32) (t : Thread) : (s.setThr id t).pages = s.pages := rfl
@[simp] theorem State.setThr_invals (s : State) (id : Word32) (t : Thread) : (s.setThr id t).invals = s.invals := rfl
@[simp] theorem State.setThr_asks (s : State) (id : Word32) (t : Thread) : (s.setThr id t).asks = s.asks := rfl
@[simp] theorem State.setThr_linkUp (s : State) (id : Word32) (t : Thread) : (s.setThr id t).linkUp = s.linkUp := rfl
@[simp] theorem State.setThr_refusedWrites (s : State) (id : Word32) (t : Thread) : (s.setThr id t).refusedWrites = s.refusedWrites := rfl
@[simp] theorem State.setThr_linkDownAt (s : State) (id : Word32) (t : Thread) : (s.setThr id t).linkDownAt = s.linkDownAt := rfl
@[simp] theorem State.setThr_peers (s : State) (id : Word32) (t : Thread) : (s.setThr id t).peers = s.peers := rfl
@[simp] theorem State.setThr_peerMem (s : State) (id : Word32) (t : Thread) : (s.setThr id t).peerMem = s.peerMem := rfl
@[simp] theorem State.setThr_peerFail (s : State) (id : Word32) (t : Thread) : (s.setThr id t).peerFail = s.peerFail := rfl
@[simp] theorem State.setThr_lifelog (s : State) (id : Word32) (t : Thread) : (s.setThr id t).lifelog = s.lifelog := rfl
@[simp] theorem State.setThr_farPool (s : State) (id : Word32) (t : Thread) : (s.setThr id t).farPool = s.farPool := rfl
@[simp] theorem State.setThr_starved (s : State) (id : Word32) (t : Thread) : (s.setThr id t).starved = s.starved := rfl
@[simp] theorem State.setThr_holdAt (s : State) (id : Word32) (t : Thread) : (s.setThr id t).holdAt = s.holdAt := rfl
@[simp] theorem State.setThr_holdAsk (s : State) (id : Word32) (t : Thread) : (s.setThr id t).holdAsk = s.holdAsk := rfl
@[simp] theorem State.setThr_resumeAsked (s : State) (id : Word32) (t : Thread) : (s.setThr id t).resumeAsked = s.resumeAsked := rfl
@[simp] theorem State.setThr_savedBooks (s : State) (id : Word32) (t : Thread) : (s.setThr id t).savedBooks = s.savedBooks := rfl
@[simp] theorem State.setThr_held (s : State) (id : Word32) (t : Thread) : (s.setThr id t).held = s.held := rfl
@[simp] theorem State.setThr_saveArea (s : State) (id : Word32) (t : Thread) : (s.setThr id t).saveArea = s.saveArea := rfl
@[simp] theorem State.setThr_reports (s : State) (id : Word32) (t : Thread) : (s.setThr id t).reports = s.reports := rfl

@[simp] theorem State.setCore_free (s : State) (c : Nat) (x : Core) : (s.setCore c x).free = s.free := rfl
@[simp] theorem State.setCore_cycle (s : State) (c : Nat) (x : Core) : (s.setCore c x).cycle = s.cycle := rfl
@[simp] theorem State.setCore_tickBase (s : State) (c : Nat) (x : Core) : (s.setCore c x).tickBase = s.tickBase := rfl
@[simp] theorem State.setCore_tick (s : State) (c : Nat) (x : Core) : (s.setCore c x).tick = s.tick := rfl
@[simp] theorem State.setCore_cursor (s : State) (c : Nat) (x : Core) : (s.setCore c x).cursor = s.cursor := rfl
@[simp] theorem State.setCore_cur (s : State) (c : Nat) (x : Core) : (s.setCore c x).cur = s.cur := rfl
@[simp] theorem State.setCore_agenda (s : State) (c : Nat) (x : Core) : (s.setCore c x).agenda = s.agenda := rfl
@[simp] theorem State.setCore_nextOp (s : State) (c : Nat) (x : Core) : (s.setCore c x).nextOp = s.nextOp := rfl
@[simp] theorem State.setCore_fused (s : State) (c : Nat) (x : Core) : (s.setCore c x).fused = s.fused := rfl
@[simp] theorem State.setCore_flash (s : State) (c : Nat) (x : Core) : (s.setCore c x).flash = s.flash := rfl
@[simp] theorem State.setCore_pstate (s : State) (c : Nat) (x : Core) : (s.setCore c x).pstate = s.pstate := rfl
@[simp] theorem State.setCore_bcode (s : State) (c : Nat) (x : Core) : (s.setCore c x).bcode = s.bcode := rfl
@[simp] theorem State.setCore_holds (s : State) (c : Nat) (x : Core) : (s.setCore c x).holds = s.holds := rfl
@[simp] theorem State.setCore_resets (s : State) (c : Nat) (x : Core) : (s.setCore c x).resets = s.resets := rfl
@[simp] theorem State.setCore_boot (s : State) (c : Nat) (x : Core) : (s.setCore c x).boot = s.boot := rfl
@[simp] theorem State.setCore_enabled (s : State) (c : Nat) (x : Core) : (s.setCore c x).enabled = s.enabled := rfl
@[simp] theorem State.setCore_gable (s : State) (c : Nat) (x : Core) : (s.setCore c x).gable = s.gable := rfl
@[simp] theorem State.setCore_cores (s : State) (c : Nat) (x : Core) : (s.setCore c x).cores = s.cores.ins c x := rfl
@[simp] theorem State.setCore_dumps (s : State) (c : Nat) (x : Core) : (s.setCore c x).dumps = s.dumps := rfl
@[simp] theorem State.setCore_images (s : State) (c : Nat) (x : Core) : (s.setCore c x).images = s.images := rfl
@[simp] theorem State.setCore_threads (s : State) (c : Nat) (x : Core) : (s.setCore c x).threads = s.threads := rfl
@[simp] theorem State.setCore_seats (s : State) (c : Nat) (x : Core) : (s.setCore c x).seats = s.seats := rfl
@[simp] theorem State.setCore_mem (s : State) (c : Nat) (x : Core) : (s.setCore c x).mem = s.mem := rfl
@[simp] theorem State.setCore_sideband (s : State) (c : Nat) (x : Core) : (s.setCore c x).sideband = s.sideband := rfl
@[simp] theorem State.setCore_errs (s : State) (c : Nat) (x : Core) : (s.setCore c x).errs = s.errs := rfl
@[simp] theorem State.setCore_rewrites (s : State) (c : Nat) (x : Core) : (s.setCore c x).rewrites = s.rewrites := rfl
@[simp] theorem State.setCore_hostMem (s : State) (c : Nat) (x : Core) : (s.setCore c x).hostMem = s.hostMem := rfl
@[simp] theorem State.setCore_overs (s : State) (c : Nat) (x : Core) : (s.setCore c x).overs = s.overs := rfl
@[simp] theorem State.setCore_hostPend (s : State) (c : Nat) (x : Core) : (s.setCore c x).hostPend = s.hostPend := rfl
@[simp] theorem State.setCore_parts (s : State) (c : Nat) (x : Core) : (s.setCore c x).parts = s.parts := rfl
@[simp] theorem State.setCore_descRegs (s : State) (c : Nat) (x : Core) : (s.setCore c x).descRegs = s.descRegs := rfl
@[simp] theorem State.setCore_copies (s : State) (c : Nat) (x : Core) : (s.setCore c x).copies = s.copies := rfl
@[simp] theorem State.setCore_hires (s : State) (c : Nat) (x : Core) : (s.setCore c x).hires = s.hires := rfl
@[simp] theorem State.setCore_books0 (s : State) (c : Nat) (x : Core) : (s.setCore c x).books0 = s.books0 := rfl
@[simp] theorem State.setCore_books1 (s : State) (c : Nat) (x : Core) : (s.setCore c x).books1 = s.books1 := rfl
@[simp] theorem State.setCore_hallWait (s : State) (c : Nat) (x : Core) : (s.setCore c x).hallWait = s.hallWait := rfl
@[simp] theorem State.setCore_hallBusy (s : State) (c : Nat) (x : Core) : (s.setCore c x).hallBusy = s.hallBusy := rfl
@[simp] theorem State.setCore_battens (s : State) (c : Nat) (x : Core) : (s.setCore c x).battens = s.battens := rfl
@[simp] theorem State.setCore_failedArr (s : State) (c : Nat) (x : Core) : (s.setCore c x).failedArr = s.failedArr := rfl
@[simp] theorem State.setCore_kernels (s : State) (c : Nat) (x : Core) : (s.setCore c x).kernels = s.kernels := rfl
@[simp] theorem State.setCore_queues (s : State) (c : Nat) (x : Core) : (s.setCore c x).queues = s.queues := rfl
@[simp] theorem State.setCore_slots (s : State) (c : Nat) (x : Core) : (s.setCore c x).slots = s.slots := rfl
@[simp] theorem State.setCore_slotWait (s : State) (c : Nat) (x : Core) : (s.setCore c x).slotWait = s.slotWait := rfl
@[simp] theorem State.setCore_slotSeq (s : State) (c : Nat) (x : Core) : (s.setCore c x).slotSeq = s.slotSeq := rfl
@[simp] theorem State.setCore_lastGrant (s : State) (c : Nat) (x : Core) : (s.setCore c x).lastGrant = s.lastGrant := rfl
@[simp] theorem State.setCore_barriers (s : State) (c : Nat) (x : Core) : (s.setCore c x).barriers = s.barriers := rfl
@[simp] theorem State.setCore_pages (s : State) (c : Nat) (x : Core) : (s.setCore c x).pages = s.pages := rfl
@[simp] theorem State.setCore_invals (s : State) (c : Nat) (x : Core) : (s.setCore c x).invals = s.invals := rfl
@[simp] theorem State.setCore_asks (s : State) (c : Nat) (x : Core) : (s.setCore c x).asks = s.asks := rfl
@[simp] theorem State.setCore_linkUp (s : State) (c : Nat) (x : Core) : (s.setCore c x).linkUp = s.linkUp := rfl
@[simp] theorem State.setCore_refusedWrites (s : State) (c : Nat) (x : Core) : (s.setCore c x).refusedWrites = s.refusedWrites := rfl
@[simp] theorem State.setCore_linkDownAt (s : State) (c : Nat) (x : Core) : (s.setCore c x).linkDownAt = s.linkDownAt := rfl
@[simp] theorem State.setCore_peers (s : State) (c : Nat) (x : Core) : (s.setCore c x).peers = s.peers := rfl
@[simp] theorem State.setCore_peerMem (s : State) (c : Nat) (x : Core) : (s.setCore c x).peerMem = s.peerMem := rfl
@[simp] theorem State.setCore_peerFail (s : State) (c : Nat) (x : Core) : (s.setCore c x).peerFail = s.peerFail := rfl
@[simp] theorem State.setCore_lifelog (s : State) (c : Nat) (x : Core) : (s.setCore c x).lifelog = s.lifelog := rfl
@[simp] theorem State.setCore_farPool (s : State) (c : Nat) (x : Core) : (s.setCore c x).farPool = s.farPool := rfl
@[simp] theorem State.setCore_starved (s : State) (c : Nat) (x : Core) : (s.setCore c x).starved = s.starved := rfl
@[simp] theorem State.setCore_holdAt (s : State) (c : Nat) (x : Core) : (s.setCore c x).holdAt = s.holdAt := rfl
@[simp] theorem State.setCore_holdAsk (s : State) (c : Nat) (x : Core) : (s.setCore c x).holdAsk = s.holdAsk := rfl
@[simp] theorem State.setCore_resumeAsked (s : State) (c : Nat) (x : Core) : (s.setCore c x).resumeAsked = s.resumeAsked := rfl
@[simp] theorem State.setCore_savedBooks (s : State) (c : Nat) (x : Core) : (s.setCore c x).savedBooks = s.savedBooks := rfl
@[simp] theorem State.setCore_held (s : State) (c : Nat) (x : Core) : (s.setCore c x).held = s.held := rfl
@[simp] theorem State.setCore_saveArea (s : State) (c : Nat) (x : Core) : (s.setCore c x).saveArea = s.saveArea := rfl
@[simp] theorem State.setCore_reports (s : State) (c : Nat) (x : Core) : (s.setCore c x).reports = s.reports := rfl

@[simp] theorem State.post_free (s : State) (e : Instr) (ch d : Nat) : (s.post e ch d).free = s.free := rfl
@[simp] theorem State.post_cycle (s : State) (e : Instr) (ch d : Nat) : (s.post e ch d).cycle = s.cycle := rfl
@[simp] theorem State.post_tickBase (s : State) (e : Instr) (ch d : Nat) : (s.post e ch d).tickBase = s.tickBase := rfl
@[simp] theorem State.post_tick (s : State) (e : Instr) (ch d : Nat) : (s.post e ch d).tick = s.tick := rfl
@[simp] theorem State.post_cursor (s : State) (e : Instr) (ch d : Nat) : (s.post e ch d).cursor = s.cursor := rfl
@[simp] theorem State.post_cur (s : State) (e : Instr) (ch d : Nat) : (s.post e ch d).cur = s.cur := rfl
@[simp] theorem State.post_agenda (s : State) (e : Instr) (ch d : Nat) : (s.post e ch d).agenda = s.agenda ++ [⟨s.nextOp, s.now + d, ch, false, e, match releaseOf e with | some src => s.sender src | none => 0⟩] := rfl
@[simp] theorem State.post_nextOp (s : State) (e : Instr) (ch d : Nat) : (s.post e ch d).nextOp = s.nextOp := rfl
@[simp] theorem State.post_fused (s : State) (e : Instr) (ch d : Nat) : (s.post e ch d).fused = s.fused := rfl
@[simp] theorem State.post_flash (s : State) (e : Instr) (ch d : Nat) : (s.post e ch d).flash = s.flash := rfl
@[simp] theorem State.post_pstate (s : State) (e : Instr) (ch d : Nat) : (s.post e ch d).pstate = s.pstate := rfl
@[simp] theorem State.post_bcode (s : State) (e : Instr) (ch d : Nat) : (s.post e ch d).bcode = s.bcode := rfl
@[simp] theorem State.post_holds (s : State) (e : Instr) (ch d : Nat) : (s.post e ch d).holds = s.holds := rfl
@[simp] theorem State.post_resets (s : State) (e : Instr) (ch d : Nat) : (s.post e ch d).resets = s.resets := rfl
@[simp] theorem State.post_boot (s : State) (e : Instr) (ch d : Nat) : (s.post e ch d).boot = s.boot := rfl
@[simp] theorem State.post_enabled (s : State) (e : Instr) (ch d : Nat) : (s.post e ch d).enabled = s.enabled := rfl
@[simp] theorem State.post_gable (s : State) (e : Instr) (ch d : Nat) : (s.post e ch d).gable = s.gable := rfl
@[simp] theorem State.post_cores (s : State) (e : Instr) (ch d : Nat) : (s.post e ch d).cores = s.cores := rfl
@[simp] theorem State.post_dumps (s : State) (e : Instr) (ch d : Nat) : (s.post e ch d).dumps = s.dumps := rfl
@[simp] theorem State.post_images (s : State) (e : Instr) (ch d : Nat) : (s.post e ch d).images = s.images := rfl
@[simp] theorem State.post_threads (s : State) (e : Instr) (ch d : Nat) : (s.post e ch d).threads = s.threads := rfl
@[simp] theorem State.post_seats (s : State) (e : Instr) (ch d : Nat) : (s.post e ch d).seats = s.seats := rfl
@[simp] theorem State.post_mem (s : State) (e : Instr) (ch d : Nat) : (s.post e ch d).mem = s.mem := rfl
@[simp] theorem State.post_sideband (s : State) (e : Instr) (ch d : Nat) : (s.post e ch d).sideband = s.sideband := rfl
@[simp] theorem State.post_errs (s : State) (e : Instr) (ch d : Nat) : (s.post e ch d).errs = s.errs := rfl
@[simp] theorem State.post_rewrites (s : State) (e : Instr) (ch d : Nat) : (s.post e ch d).rewrites = s.rewrites := rfl
@[simp] theorem State.post_hostMem (s : State) (e : Instr) (ch d : Nat) : (s.post e ch d).hostMem = s.hostMem := rfl
@[simp] theorem State.post_overs (s : State) (e : Instr) (ch d : Nat) : (s.post e ch d).overs = s.overs := rfl
@[simp] theorem State.post_hostPend (s : State) (e : Instr) (ch d : Nat) : (s.post e ch d).hostPend = s.hostPend := rfl
@[simp] theorem State.post_parts (s : State) (e : Instr) (ch d : Nat) : (s.post e ch d).parts = s.parts := rfl
@[simp] theorem State.post_descRegs (s : State) (e : Instr) (ch d : Nat) : (s.post e ch d).descRegs = s.descRegs := rfl
@[simp] theorem State.post_copies (s : State) (e : Instr) (ch d : Nat) : (s.post e ch d).copies = s.copies := rfl
@[simp] theorem State.post_hires (s : State) (e : Instr) (ch d : Nat) : (s.post e ch d).hires = s.hires := rfl
@[simp] theorem State.post_books0 (s : State) (e : Instr) (ch d : Nat) : (s.post e ch d).books0 = s.books0 := rfl
@[simp] theorem State.post_books1 (s : State) (e : Instr) (ch d : Nat) : (s.post e ch d).books1 = s.books1 := rfl
@[simp] theorem State.post_hallWait (s : State) (e : Instr) (ch d : Nat) : (s.post e ch d).hallWait = s.hallWait := rfl
@[simp] theorem State.post_hallBusy (s : State) (e : Instr) (ch d : Nat) : (s.post e ch d).hallBusy = s.hallBusy := rfl
@[simp] theorem State.post_battens (s : State) (e : Instr) (ch d : Nat) : (s.post e ch d).battens = s.battens := rfl
@[simp] theorem State.post_failedArr (s : State) (e : Instr) (ch d : Nat) : (s.post e ch d).failedArr = s.failedArr := rfl
@[simp] theorem State.post_kernels (s : State) (e : Instr) (ch d : Nat) : (s.post e ch d).kernels = s.kernels := rfl
@[simp] theorem State.post_queues (s : State) (e : Instr) (ch d : Nat) : (s.post e ch d).queues = s.queues := rfl
@[simp] theorem State.post_slots (s : State) (e : Instr) (ch d : Nat) : (s.post e ch d).slots = s.slots := rfl
@[simp] theorem State.post_slotWait (s : State) (e : Instr) (ch d : Nat) : (s.post e ch d).slotWait = s.slotWait := rfl
@[simp] theorem State.post_slotSeq (s : State) (e : Instr) (ch d : Nat) : (s.post e ch d).slotSeq = s.slotSeq := rfl
@[simp] theorem State.post_lastGrant (s : State) (e : Instr) (ch d : Nat) : (s.post e ch d).lastGrant = s.lastGrant := rfl
@[simp] theorem State.post_barriers (s : State) (e : Instr) (ch d : Nat) : (s.post e ch d).barriers = s.barriers := rfl
@[simp] theorem State.post_pages (s : State) (e : Instr) (ch d : Nat) : (s.post e ch d).pages = s.pages := rfl
@[simp] theorem State.post_invals (s : State) (e : Instr) (ch d : Nat) : (s.post e ch d).invals = s.invals := rfl
@[simp] theorem State.post_asks (s : State) (e : Instr) (ch d : Nat) : (s.post e ch d).asks = s.asks := rfl
@[simp] theorem State.post_linkUp (s : State) (e : Instr) (ch d : Nat) : (s.post e ch d).linkUp = s.linkUp := rfl
@[simp] theorem State.post_refusedWrites (s : State) (e : Instr) (ch d : Nat) : (s.post e ch d).refusedWrites = s.refusedWrites := rfl
@[simp] theorem State.post_linkDownAt (s : State) (e : Instr) (ch d : Nat) : (s.post e ch d).linkDownAt = s.linkDownAt := rfl
@[simp] theorem State.post_peers (s : State) (e : Instr) (ch d : Nat) : (s.post e ch d).peers = s.peers := rfl
@[simp] theorem State.post_peerMem (s : State) (e : Instr) (ch d : Nat) : (s.post e ch d).peerMem = s.peerMem := rfl
@[simp] theorem State.post_peerFail (s : State) (e : Instr) (ch d : Nat) : (s.post e ch d).peerFail = s.peerFail := rfl
@[simp] theorem State.post_lifelog (s : State) (e : Instr) (ch d : Nat) : (s.post e ch d).lifelog = s.lifelog := rfl
@[simp] theorem State.post_farPool (s : State) (e : Instr) (ch d : Nat) : (s.post e ch d).farPool = s.farPool := rfl
@[simp] theorem State.post_starved (s : State) (e : Instr) (ch d : Nat) : (s.post e ch d).starved = s.starved := rfl
@[simp] theorem State.post_holdAt (s : State) (e : Instr) (ch d : Nat) : (s.post e ch d).holdAt = s.holdAt := rfl
@[simp] theorem State.post_holdAsk (s : State) (e : Instr) (ch d : Nat) : (s.post e ch d).holdAsk = s.holdAsk := rfl
@[simp] theorem State.post_resumeAsked (s : State) (e : Instr) (ch d : Nat) : (s.post e ch d).resumeAsked = s.resumeAsked := rfl
@[simp] theorem State.post_savedBooks (s : State) (e : Instr) (ch d : Nat) : (s.post e ch d).savedBooks = s.savedBooks := rfl
@[simp] theorem State.post_held (s : State) (e : Instr) (ch d : Nat) : (s.post e ch d).held = s.held := rfl
@[simp] theorem State.post_saveArea (s : State) (e : Instr) (ch d : Nat) : (s.post e ch d).saveArea = s.saveArea := rfl
@[simp] theorem State.post_reports (s : State) (e : Instr) (ch d : Nat) : (s.post e ch d).reports = s.reports := rfl

@[simp] theorem State.postHard_free (s : State) (e : Instr) (d : Nat) : (s.postHard e d).free = s.free := rfl
@[simp] theorem State.postHard_cycle (s : State) (e : Instr) (d : Nat) : (s.postHard e d).cycle = s.cycle := rfl
@[simp] theorem State.postHard_tickBase (s : State) (e : Instr) (d : Nat) : (s.postHard e d).tickBase = s.tickBase := rfl
@[simp] theorem State.postHard_tick (s : State) (e : Instr) (d : Nat) : (s.postHard e d).tick = s.tick := rfl
@[simp] theorem State.postHard_cursor (s : State) (e : Instr) (d : Nat) : (s.postHard e d).cursor = s.cursor := rfl
@[simp] theorem State.postHard_cur (s : State) (e : Instr) (d : Nat) : (s.postHard e d).cur = s.cur := rfl
@[simp] theorem State.postHard_agenda (s : State) (e : Instr) (d : Nat) : (s.postHard e d).agenda = s.agenda ++ [⟨s.nextOp, d, 0, true, e, 0⟩] := rfl
@[simp] theorem State.postHard_nextOp (s : State) (e : Instr) (d : Nat) : (s.postHard e d).nextOp = s.nextOp := rfl
@[simp] theorem State.postHard_fused (s : State) (e : Instr) (d : Nat) : (s.postHard e d).fused = s.fused := rfl
@[simp] theorem State.postHard_flash (s : State) (e : Instr) (d : Nat) : (s.postHard e d).flash = s.flash := rfl
@[simp] theorem State.postHard_pstate (s : State) (e : Instr) (d : Nat) : (s.postHard e d).pstate = s.pstate := rfl
@[simp] theorem State.postHard_bcode (s : State) (e : Instr) (d : Nat) : (s.postHard e d).bcode = s.bcode := rfl
@[simp] theorem State.postHard_holds (s : State) (e : Instr) (d : Nat) : (s.postHard e d).holds = s.holds := rfl
@[simp] theorem State.postHard_resets (s : State) (e : Instr) (d : Nat) : (s.postHard e d).resets = s.resets := rfl
@[simp] theorem State.postHard_boot (s : State) (e : Instr) (d : Nat) : (s.postHard e d).boot = s.boot := rfl
@[simp] theorem State.postHard_enabled (s : State) (e : Instr) (d : Nat) : (s.postHard e d).enabled = s.enabled := rfl
@[simp] theorem State.postHard_gable (s : State) (e : Instr) (d : Nat) : (s.postHard e d).gable = s.gable := rfl
@[simp] theorem State.postHard_cores (s : State) (e : Instr) (d : Nat) : (s.postHard e d).cores = s.cores := rfl
@[simp] theorem State.postHard_dumps (s : State) (e : Instr) (d : Nat) : (s.postHard e d).dumps = s.dumps := rfl
@[simp] theorem State.postHard_images (s : State) (e : Instr) (d : Nat) : (s.postHard e d).images = s.images := rfl
@[simp] theorem State.postHard_threads (s : State) (e : Instr) (d : Nat) : (s.postHard e d).threads = s.threads := rfl
@[simp] theorem State.postHard_seats (s : State) (e : Instr) (d : Nat) : (s.postHard e d).seats = s.seats := rfl
@[simp] theorem State.postHard_mem (s : State) (e : Instr) (d : Nat) : (s.postHard e d).mem = s.mem := rfl
@[simp] theorem State.postHard_sideband (s : State) (e : Instr) (d : Nat) : (s.postHard e d).sideband = s.sideband := rfl
@[simp] theorem State.postHard_errs (s : State) (e : Instr) (d : Nat) : (s.postHard e d).errs = s.errs := rfl
@[simp] theorem State.postHard_rewrites (s : State) (e : Instr) (d : Nat) : (s.postHard e d).rewrites = s.rewrites := rfl
@[simp] theorem State.postHard_hostMem (s : State) (e : Instr) (d : Nat) : (s.postHard e d).hostMem = s.hostMem := rfl
@[simp] theorem State.postHard_overs (s : State) (e : Instr) (d : Nat) : (s.postHard e d).overs = s.overs := rfl
@[simp] theorem State.postHard_hostPend (s : State) (e : Instr) (d : Nat) : (s.postHard e d).hostPend = s.hostPend := rfl
@[simp] theorem State.postHard_parts (s : State) (e : Instr) (d : Nat) : (s.postHard e d).parts = s.parts := rfl
@[simp] theorem State.postHard_descRegs (s : State) (e : Instr) (d : Nat) : (s.postHard e d).descRegs = s.descRegs := rfl
@[simp] theorem State.postHard_copies (s : State) (e : Instr) (d : Nat) : (s.postHard e d).copies = s.copies := rfl
@[simp] theorem State.postHard_hires (s : State) (e : Instr) (d : Nat) : (s.postHard e d).hires = s.hires := rfl
@[simp] theorem State.postHard_books0 (s : State) (e : Instr) (d : Nat) : (s.postHard e d).books0 = s.books0 := rfl
@[simp] theorem State.postHard_books1 (s : State) (e : Instr) (d : Nat) : (s.postHard e d).books1 = s.books1 := rfl
@[simp] theorem State.postHard_hallWait (s : State) (e : Instr) (d : Nat) : (s.postHard e d).hallWait = s.hallWait := rfl
@[simp] theorem State.postHard_hallBusy (s : State) (e : Instr) (d : Nat) : (s.postHard e d).hallBusy = s.hallBusy := rfl
@[simp] theorem State.postHard_battens (s : State) (e : Instr) (d : Nat) : (s.postHard e d).battens = s.battens := rfl
@[simp] theorem State.postHard_failedArr (s : State) (e : Instr) (d : Nat) : (s.postHard e d).failedArr = s.failedArr := rfl
@[simp] theorem State.postHard_kernels (s : State) (e : Instr) (d : Nat) : (s.postHard e d).kernels = s.kernels := rfl
@[simp] theorem State.postHard_queues (s : State) (e : Instr) (d : Nat) : (s.postHard e d).queues = s.queues := rfl
@[simp] theorem State.postHard_slots (s : State) (e : Instr) (d : Nat) : (s.postHard e d).slots = s.slots := rfl
@[simp] theorem State.postHard_slotWait (s : State) (e : Instr) (d : Nat) : (s.postHard e d).slotWait = s.slotWait := rfl
@[simp] theorem State.postHard_slotSeq (s : State) (e : Instr) (d : Nat) : (s.postHard e d).slotSeq = s.slotSeq := rfl
@[simp] theorem State.postHard_lastGrant (s : State) (e : Instr) (d : Nat) : (s.postHard e d).lastGrant = s.lastGrant := rfl
@[simp] theorem State.postHard_barriers (s : State) (e : Instr) (d : Nat) : (s.postHard e d).barriers = s.barriers := rfl
@[simp] theorem State.postHard_pages (s : State) (e : Instr) (d : Nat) : (s.postHard e d).pages = s.pages := rfl
@[simp] theorem State.postHard_invals (s : State) (e : Instr) (d : Nat) : (s.postHard e d).invals = s.invals := rfl
@[simp] theorem State.postHard_asks (s : State) (e : Instr) (d : Nat) : (s.postHard e d).asks = s.asks := rfl
@[simp] theorem State.postHard_linkUp (s : State) (e : Instr) (d : Nat) : (s.postHard e d).linkUp = s.linkUp := rfl
@[simp] theorem State.postHard_refusedWrites (s : State) (e : Instr) (d : Nat) : (s.postHard e d).refusedWrites = s.refusedWrites := rfl
@[simp] theorem State.postHard_linkDownAt (s : State) (e : Instr) (d : Nat) : (s.postHard e d).linkDownAt = s.linkDownAt := rfl
@[simp] theorem State.postHard_peers (s : State) (e : Instr) (d : Nat) : (s.postHard e d).peers = s.peers := rfl
@[simp] theorem State.postHard_peerMem (s : State) (e : Instr) (d : Nat) : (s.postHard e d).peerMem = s.peerMem := rfl
@[simp] theorem State.postHard_peerFail (s : State) (e : Instr) (d : Nat) : (s.postHard e d).peerFail = s.peerFail := rfl
@[simp] theorem State.postHard_lifelog (s : State) (e : Instr) (d : Nat) : (s.postHard e d).lifelog = s.lifelog := rfl
@[simp] theorem State.postHard_farPool (s : State) (e : Instr) (d : Nat) : (s.postHard e d).farPool = s.farPool := rfl
@[simp] theorem State.postHard_starved (s : State) (e : Instr) (d : Nat) : (s.postHard e d).starved = s.starved := rfl
@[simp] theorem State.postHard_holdAt (s : State) (e : Instr) (d : Nat) : (s.postHard e d).holdAt = s.holdAt := rfl
@[simp] theorem State.postHard_holdAsk (s : State) (e : Instr) (d : Nat) : (s.postHard e d).holdAsk = s.holdAsk := rfl
@[simp] theorem State.postHard_resumeAsked (s : State) (e : Instr) (d : Nat) : (s.postHard e d).resumeAsked = s.resumeAsked := rfl
@[simp] theorem State.postHard_savedBooks (s : State) (e : Instr) (d : Nat) : (s.postHard e d).savedBooks = s.savedBooks := rfl
@[simp] theorem State.postHard_held (s : State) (e : Instr) (d : Nat) : (s.postHard e d).held = s.held := rfl
@[simp] theorem State.postHard_saveArea (s : State) (e : Instr) (d : Nat) : (s.postHard e d).saveArea = s.saveArea := rfl
@[simp] theorem State.postHard_reports (s : State) (e : Instr) (d : Nat) : (s.postHard e d).reports = s.reports := rfl

@[simp] theorem State.setSb_free (s : State) (pa : Nat) (w : Word32) : (s.setSb pa w).free = s.free := rfl
@[simp] theorem State.setSb_cycle (s : State) (pa : Nat) (w : Word32) : (s.setSb pa w).cycle = s.cycle := rfl
@[simp] theorem State.setSb_tickBase (s : State) (pa : Nat) (w : Word32) : (s.setSb pa w).tickBase = s.tickBase := rfl
@[simp] theorem State.setSb_tick (s : State) (pa : Nat) (w : Word32) : (s.setSb pa w).tick = s.tick := rfl
@[simp] theorem State.setSb_cursor (s : State) (pa : Nat) (w : Word32) : (s.setSb pa w).cursor = s.cursor := rfl
@[simp] theorem State.setSb_cur (s : State) (pa : Nat) (w : Word32) : (s.setSb pa w).cur = s.cur := rfl
@[simp] theorem State.setSb_agenda (s : State) (pa : Nat) (w : Word32) : (s.setSb pa w).agenda = s.agenda := rfl
@[simp] theorem State.setSb_nextOp (s : State) (pa : Nat) (w : Word32) : (s.setSb pa w).nextOp = s.nextOp := rfl
@[simp] theorem State.setSb_fused (s : State) (pa : Nat) (w : Word32) : (s.setSb pa w).fused = s.fused := rfl
@[simp] theorem State.setSb_flash (s : State) (pa : Nat) (w : Word32) : (s.setSb pa w).flash = s.flash := rfl
@[simp] theorem State.setSb_pstate (s : State) (pa : Nat) (w : Word32) : (s.setSb pa w).pstate = s.pstate := rfl
@[simp] theorem State.setSb_bcode (s : State) (pa : Nat) (w : Word32) : (s.setSb pa w).bcode = s.bcode := rfl
@[simp] theorem State.setSb_holds (s : State) (pa : Nat) (w : Word32) : (s.setSb pa w).holds = s.holds := rfl
@[simp] theorem State.setSb_resets (s : State) (pa : Nat) (w : Word32) : (s.setSb pa w).resets = s.resets := rfl
@[simp] theorem State.setSb_boot (s : State) (pa : Nat) (w : Word32) : (s.setSb pa w).boot = s.boot := rfl
@[simp] theorem State.setSb_enabled (s : State) (pa : Nat) (w : Word32) : (s.setSb pa w).enabled = s.enabled := rfl
@[simp] theorem State.setSb_gable (s : State) (pa : Nat) (w : Word32) : (s.setSb pa w).gable = s.gable := rfl
@[simp] theorem State.setSb_cores (s : State) (pa : Nat) (w : Word32) : (s.setSb pa w).cores = s.cores := rfl
@[simp] theorem State.setSb_dumps (s : State) (pa : Nat) (w : Word32) : (s.setSb pa w).dumps = s.dumps := rfl
@[simp] theorem State.setSb_images (s : State) (pa : Nat) (w : Word32) : (s.setSb pa w).images = s.images := rfl
@[simp] theorem State.setSb_threads (s : State) (pa : Nat) (w : Word32) : (s.setSb pa w).threads = s.threads := rfl
@[simp] theorem State.setSb_seats (s : State) (pa : Nat) (w : Word32) : (s.setSb pa w).seats = s.seats := rfl
@[simp] theorem State.setSb_mem (s : State) (pa : Nat) (w : Word32) : (s.setSb pa w).mem = s.mem := rfl
@[simp] theorem State.setSb_sideband (s : State) (pa : Nat) (w : Word32) : (s.setSb pa w).sideband = s.sideband.put 0#32 (pa / 64) w := rfl
@[simp] theorem State.setSb_errs (s : State) (pa : Nat) (w : Word32) : (s.setSb pa w).errs = s.errs := rfl
@[simp] theorem State.setSb_rewrites (s : State) (pa : Nat) (w : Word32) : (s.setSb pa w).rewrites = s.rewrites := rfl
@[simp] theorem State.setSb_hostMem (s : State) (pa : Nat) (w : Word32) : (s.setSb pa w).hostMem = s.hostMem := rfl
@[simp] theorem State.setSb_overs (s : State) (pa : Nat) (w : Word32) : (s.setSb pa w).overs = s.overs := rfl
@[simp] theorem State.setSb_hostPend (s : State) (pa : Nat) (w : Word32) : (s.setSb pa w).hostPend = s.hostPend := rfl
@[simp] theorem State.setSb_parts (s : State) (pa : Nat) (w : Word32) : (s.setSb pa w).parts = s.parts := rfl
@[simp] theorem State.setSb_descRegs (s : State) (pa : Nat) (w : Word32) : (s.setSb pa w).descRegs = s.descRegs := rfl
@[simp] theorem State.setSb_copies (s : State) (pa : Nat) (w : Word32) : (s.setSb pa w).copies = s.copies := rfl
@[simp] theorem State.setSb_hires (s : State) (pa : Nat) (w : Word32) : (s.setSb pa w).hires = s.hires := rfl
@[simp] theorem State.setSb_books0 (s : State) (pa : Nat) (w : Word32) : (s.setSb pa w).books0 = s.books0 := rfl
@[simp] theorem State.setSb_books1 (s : State) (pa : Nat) (w : Word32) : (s.setSb pa w).books1 = s.books1 := rfl
@[simp] theorem State.setSb_hallWait (s : State) (pa : Nat) (w : Word32) : (s.setSb pa w).hallWait = s.hallWait := rfl
@[simp] theorem State.setSb_hallBusy (s : State) (pa : Nat) (w : Word32) : (s.setSb pa w).hallBusy = s.hallBusy := rfl
@[simp] theorem State.setSb_battens (s : State) (pa : Nat) (w : Word32) : (s.setSb pa w).battens = s.battens := rfl
@[simp] theorem State.setSb_failedArr (s : State) (pa : Nat) (w : Word32) : (s.setSb pa w).failedArr = s.failedArr := rfl
@[simp] theorem State.setSb_kernels (s : State) (pa : Nat) (w : Word32) : (s.setSb pa w).kernels = s.kernels := rfl
@[simp] theorem State.setSb_queues (s : State) (pa : Nat) (w : Word32) : (s.setSb pa w).queues = s.queues := rfl
@[simp] theorem State.setSb_slots (s : State) (pa : Nat) (w : Word32) : (s.setSb pa w).slots = s.slots := rfl
@[simp] theorem State.setSb_slotWait (s : State) (pa : Nat) (w : Word32) : (s.setSb pa w).slotWait = s.slotWait := rfl
@[simp] theorem State.setSb_slotSeq (s : State) (pa : Nat) (w : Word32) : (s.setSb pa w).slotSeq = s.slotSeq := rfl
@[simp] theorem State.setSb_lastGrant (s : State) (pa : Nat) (w : Word32) : (s.setSb pa w).lastGrant = s.lastGrant := rfl
@[simp] theorem State.setSb_barriers (s : State) (pa : Nat) (w : Word32) : (s.setSb pa w).barriers = s.barriers := rfl
@[simp] theorem State.setSb_pages (s : State) (pa : Nat) (w : Word32) : (s.setSb pa w).pages = s.pages := rfl
@[simp] theorem State.setSb_invals (s : State) (pa : Nat) (w : Word32) : (s.setSb pa w).invals = s.invals := rfl
@[simp] theorem State.setSb_asks (s : State) (pa : Nat) (w : Word32) : (s.setSb pa w).asks = s.asks := rfl
@[simp] theorem State.setSb_linkUp (s : State) (pa : Nat) (w : Word32) : (s.setSb pa w).linkUp = s.linkUp := rfl
@[simp] theorem State.setSb_refusedWrites (s : State) (pa : Nat) (w : Word32) : (s.setSb pa w).refusedWrites = s.refusedWrites := rfl
@[simp] theorem State.setSb_linkDownAt (s : State) (pa : Nat) (w : Word32) : (s.setSb pa w).linkDownAt = s.linkDownAt := rfl
@[simp] theorem State.setSb_peers (s : State) (pa : Nat) (w : Word32) : (s.setSb pa w).peers = s.peers := rfl
@[simp] theorem State.setSb_peerMem (s : State) (pa : Nat) (w : Word32) : (s.setSb pa w).peerMem = s.peerMem := rfl
@[simp] theorem State.setSb_peerFail (s : State) (pa : Nat) (w : Word32) : (s.setSb pa w).peerFail = s.peerFail := rfl
@[simp] theorem State.setSb_lifelog (s : State) (pa : Nat) (w : Word32) : (s.setSb pa w).lifelog = s.lifelog := rfl
@[simp] theorem State.setSb_farPool (s : State) (pa : Nat) (w : Word32) : (s.setSb pa w).farPool = s.farPool := rfl
@[simp] theorem State.setSb_starved (s : State) (pa : Nat) (w : Word32) : (s.setSb pa w).starved = s.starved := rfl
@[simp] theorem State.setSb_holdAt (s : State) (pa : Nat) (w : Word32) : (s.setSb pa w).holdAt = s.holdAt := rfl
@[simp] theorem State.setSb_holdAsk (s : State) (pa : Nat) (w : Word32) : (s.setSb pa w).holdAsk = s.holdAsk := rfl
@[simp] theorem State.setSb_resumeAsked (s : State) (pa : Nat) (w : Word32) : (s.setSb pa w).resumeAsked = s.resumeAsked := rfl
@[simp] theorem State.setSb_savedBooks (s : State) (pa : Nat) (w : Word32) : (s.setSb pa w).savedBooks = s.savedBooks := rfl
@[simp] theorem State.setSb_held (s : State) (pa : Nat) (w : Word32) : (s.setSb pa w).held = s.held := rfl
@[simp] theorem State.setSb_saveArea (s : State) (pa : Nat) (w : Word32) : (s.setSb pa w).saveArea = s.saveArea := rfl
@[simp] theorem State.setSb_reports (s : State) (pa : Nat) (w : Word32) : (s.setSb pa w).reports = s.reports := rfl

@[simp] theorem State.dmWrite_free (s : State) (pa : Nat) (bs : List Byte) : (s.dmWrite pa bs).free = s.free := rfl
@[simp] theorem State.dmWrite_cycle (s : State) (pa : Nat) (bs : List Byte) : (s.dmWrite pa bs).cycle = s.cycle := rfl
@[simp] theorem State.dmWrite_tickBase (s : State) (pa : Nat) (bs : List Byte) : (s.dmWrite pa bs).tickBase = s.tickBase := rfl
@[simp] theorem State.dmWrite_tick (s : State) (pa : Nat) (bs : List Byte) : (s.dmWrite pa bs).tick = s.tick := rfl
@[simp] theorem State.dmWrite_cursor (s : State) (pa : Nat) (bs : List Byte) : (s.dmWrite pa bs).cursor = s.cursor := rfl
@[simp] theorem State.dmWrite_cur (s : State) (pa : Nat) (bs : List Byte) : (s.dmWrite pa bs).cur = s.cur := rfl
@[simp] theorem State.dmWrite_agenda (s : State) (pa : Nat) (bs : List Byte) : (s.dmWrite pa bs).agenda = s.agenda := rfl
@[simp] theorem State.dmWrite_nextOp (s : State) (pa : Nat) (bs : List Byte) : (s.dmWrite pa bs).nextOp = s.nextOp := rfl
@[simp] theorem State.dmWrite_fused (s : State) (pa : Nat) (bs : List Byte) : (s.dmWrite pa bs).fused = s.fused := rfl
@[simp] theorem State.dmWrite_flash (s : State) (pa : Nat) (bs : List Byte) : (s.dmWrite pa bs).flash = s.flash := rfl
@[simp] theorem State.dmWrite_pstate (s : State) (pa : Nat) (bs : List Byte) : (s.dmWrite pa bs).pstate = s.pstate := rfl
@[simp] theorem State.dmWrite_bcode (s : State) (pa : Nat) (bs : List Byte) : (s.dmWrite pa bs).bcode = s.bcode := rfl
@[simp] theorem State.dmWrite_holds (s : State) (pa : Nat) (bs : List Byte) : (s.dmWrite pa bs).holds = s.holds := rfl
@[simp] theorem State.dmWrite_resets (s : State) (pa : Nat) (bs : List Byte) : (s.dmWrite pa bs).resets = s.resets := rfl
@[simp] theorem State.dmWrite_boot (s : State) (pa : Nat) (bs : List Byte) : (s.dmWrite pa bs).boot = s.boot := rfl
@[simp] theorem State.dmWrite_enabled (s : State) (pa : Nat) (bs : List Byte) : (s.dmWrite pa bs).enabled = s.enabled := rfl
@[simp] theorem State.dmWrite_gable (s : State) (pa : Nat) (bs : List Byte) : (s.dmWrite pa bs).gable = s.gable := rfl
@[simp] theorem State.dmWrite_cores (s : State) (pa : Nat) (bs : List Byte) : (s.dmWrite pa bs).cores = s.cores := rfl
@[simp] theorem State.dmWrite_dumps (s : State) (pa : Nat) (bs : List Byte) : (s.dmWrite pa bs).dumps = s.dumps := rfl
@[simp] theorem State.dmWrite_images (s : State) (pa : Nat) (bs : List Byte) : (s.dmWrite pa bs).images = s.images := rfl
@[simp] theorem State.dmWrite_threads (s : State) (pa : Nat) (bs : List Byte) : (s.dmWrite pa bs).threads = s.threads := rfl
@[simp] theorem State.dmWrite_seats (s : State) (pa : Nat) (bs : List Byte) : (s.dmWrite pa bs).seats = s.seats := rfl
@[simp] theorem State.dmWrite_mem (s : State) (pa : Nat) (bs : List Byte) : (s.dmWrite pa bs).mem = s.mem.putRun 0#8 pa bs := rfl
@[simp] theorem State.dmWrite_sideband (s : State) (pa : Nat) (bs : List Byte) : (s.dmWrite pa bs).sideband = s.sideband := rfl
@[simp] theorem State.dmWrite_errs (s : State) (pa : Nat) (bs : List Byte) : (s.dmWrite pa bs).errs = s.errs := rfl
@[simp] theorem State.dmWrite_rewrites (s : State) (pa : Nat) (bs : List Byte) : (s.dmWrite pa bs).rewrites = s.rewrites := rfl
@[simp] theorem State.dmWrite_hostMem (s : State) (pa : Nat) (bs : List Byte) : (s.dmWrite pa bs).hostMem = s.hostMem := rfl
@[simp] theorem State.dmWrite_overs (s : State) (pa : Nat) (bs : List Byte) : (s.dmWrite pa bs).overs = s.overs := rfl
@[simp] theorem State.dmWrite_hostPend (s : State) (pa : Nat) (bs : List Byte) : (s.dmWrite pa bs).hostPend = s.hostPend := rfl
@[simp] theorem State.dmWrite_parts (s : State) (pa : Nat) (bs : List Byte) : (s.dmWrite pa bs).parts = s.parts := rfl
@[simp] theorem State.dmWrite_descRegs (s : State) (pa : Nat) (bs : List Byte) : (s.dmWrite pa bs).descRegs = s.descRegs := rfl
@[simp] theorem State.dmWrite_copies (s : State) (pa : Nat) (bs : List Byte) : (s.dmWrite pa bs).copies = s.copies := rfl
@[simp] theorem State.dmWrite_hires (s : State) (pa : Nat) (bs : List Byte) : (s.dmWrite pa bs).hires = s.hires := rfl
@[simp] theorem State.dmWrite_books0 (s : State) (pa : Nat) (bs : List Byte) : (s.dmWrite pa bs).books0 = s.books0 := rfl
@[simp] theorem State.dmWrite_books1 (s : State) (pa : Nat) (bs : List Byte) : (s.dmWrite pa bs).books1 = s.books1 := rfl
@[simp] theorem State.dmWrite_hallWait (s : State) (pa : Nat) (bs : List Byte) : (s.dmWrite pa bs).hallWait = s.hallWait := rfl
@[simp] theorem State.dmWrite_hallBusy (s : State) (pa : Nat) (bs : List Byte) : (s.dmWrite pa bs).hallBusy = s.hallBusy := rfl
@[simp] theorem State.dmWrite_battens (s : State) (pa : Nat) (bs : List Byte) : (s.dmWrite pa bs).battens = s.battens := rfl
@[simp] theorem State.dmWrite_failedArr (s : State) (pa : Nat) (bs : List Byte) : (s.dmWrite pa bs).failedArr = s.failedArr := rfl
@[simp] theorem State.dmWrite_kernels (s : State) (pa : Nat) (bs : List Byte) : (s.dmWrite pa bs).kernels = s.kernels := rfl
@[simp] theorem State.dmWrite_queues (s : State) (pa : Nat) (bs : List Byte) : (s.dmWrite pa bs).queues = s.queues := rfl
@[simp] theorem State.dmWrite_slots (s : State) (pa : Nat) (bs : List Byte) : (s.dmWrite pa bs).slots = s.slots := rfl
@[simp] theorem State.dmWrite_slotWait (s : State) (pa : Nat) (bs : List Byte) : (s.dmWrite pa bs).slotWait = s.slotWait := rfl
@[simp] theorem State.dmWrite_slotSeq (s : State) (pa : Nat) (bs : List Byte) : (s.dmWrite pa bs).slotSeq = s.slotSeq := rfl
@[simp] theorem State.dmWrite_lastGrant (s : State) (pa : Nat) (bs : List Byte) : (s.dmWrite pa bs).lastGrant = s.lastGrant := rfl
@[simp] theorem State.dmWrite_barriers (s : State) (pa : Nat) (bs : List Byte) : (s.dmWrite pa bs).barriers = s.barriers := rfl
@[simp] theorem State.dmWrite_pages (s : State) (pa : Nat) (bs : List Byte) : (s.dmWrite pa bs).pages = s.pages := rfl
@[simp] theorem State.dmWrite_invals (s : State) (pa : Nat) (bs : List Byte) : (s.dmWrite pa bs).invals = s.invals := rfl
@[simp] theorem State.dmWrite_asks (s : State) (pa : Nat) (bs : List Byte) : (s.dmWrite pa bs).asks = s.asks := rfl
@[simp] theorem State.dmWrite_linkUp (s : State) (pa : Nat) (bs : List Byte) : (s.dmWrite pa bs).linkUp = s.linkUp := rfl
@[simp] theorem State.dmWrite_refusedWrites (s : State) (pa : Nat) (bs : List Byte) : (s.dmWrite pa bs).refusedWrites = s.refusedWrites := rfl
@[simp] theorem State.dmWrite_linkDownAt (s : State) (pa : Nat) (bs : List Byte) : (s.dmWrite pa bs).linkDownAt = s.linkDownAt := rfl
@[simp] theorem State.dmWrite_peers (s : State) (pa : Nat) (bs : List Byte) : (s.dmWrite pa bs).peers = s.peers := rfl
@[simp] theorem State.dmWrite_peerMem (s : State) (pa : Nat) (bs : List Byte) : (s.dmWrite pa bs).peerMem = s.peerMem := rfl
@[simp] theorem State.dmWrite_peerFail (s : State) (pa : Nat) (bs : List Byte) : (s.dmWrite pa bs).peerFail = s.peerFail := rfl
@[simp] theorem State.dmWrite_lifelog (s : State) (pa : Nat) (bs : List Byte) : (s.dmWrite pa bs).lifelog = s.lifelog := rfl
@[simp] theorem State.dmWrite_farPool (s : State) (pa : Nat) (bs : List Byte) : (s.dmWrite pa bs).farPool = s.farPool := rfl
@[simp] theorem State.dmWrite_starved (s : State) (pa : Nat) (bs : List Byte) : (s.dmWrite pa bs).starved = s.starved := rfl
@[simp] theorem State.dmWrite_holdAt (s : State) (pa : Nat) (bs : List Byte) : (s.dmWrite pa bs).holdAt = s.holdAt := rfl
@[simp] theorem State.dmWrite_holdAsk (s : State) (pa : Nat) (bs : List Byte) : (s.dmWrite pa bs).holdAsk = s.holdAsk := rfl
@[simp] theorem State.dmWrite_resumeAsked (s : State) (pa : Nat) (bs : List Byte) : (s.dmWrite pa bs).resumeAsked = s.resumeAsked := rfl
@[simp] theorem State.dmWrite_savedBooks (s : State) (pa : Nat) (bs : List Byte) : (s.dmWrite pa bs).savedBooks = s.savedBooks := rfl
@[simp] theorem State.dmWrite_held (s : State) (pa : Nat) (bs : List Byte) : (s.dmWrite pa bs).held = s.held := rfl
@[simp] theorem State.dmWrite_saveArea (s : State) (pa : Nat) (bs : List Byte) : (s.dmWrite pa bs).saveArea = s.saveArea := rfl
@[simp] theorem State.dmWrite_reports (s : State) (pa : Nat) (bs : List Byte) : (s.dmWrite pa bs).reports = s.reports := rfl

@[simp] theorem State.count_free (s : State) (e n : Nat) : (s.count e n).free = s.free := rfl
@[simp] theorem State.count_cycle (s : State) (e n : Nat) : (s.count e n).cycle = s.cycle := rfl
@[simp] theorem State.count_tickBase (s : State) (e n : Nat) : (s.count e n).tickBase = s.tickBase := rfl
@[simp] theorem State.count_tick (s : State) (e n : Nat) : (s.count e n).tick = s.tick := rfl
@[simp] theorem State.count_cursor (s : State) (e n : Nat) : (s.count e n).cursor = s.cursor := rfl
@[simp] theorem State.count_cur (s : State) (e n : Nat) : (s.count e n).cur = s.cur := rfl
@[simp] theorem State.count_agenda (s : State) (e n : Nat) : (s.count e n).agenda = s.agenda := rfl
@[simp] theorem State.count_nextOp (s : State) (e n : Nat) : (s.count e n).nextOp = s.nextOp := rfl
@[simp] theorem State.count_fused (s : State) (e n : Nat) : (s.count e n).fused = s.fused := rfl
@[simp] theorem State.count_flash (s : State) (e n : Nat) : (s.count e n).flash = s.flash := rfl
@[simp] theorem State.count_pstate (s : State) (e n : Nat) : (s.count e n).pstate = s.pstate := rfl
@[simp] theorem State.count_bcode (s : State) (e n : Nat) : (s.count e n).bcode = s.bcode := rfl
@[simp] theorem State.count_holds (s : State) (e n : Nat) : (s.count e n).holds = s.holds := rfl
@[simp] theorem State.count_resets (s : State) (e n : Nat) : (s.count e n).resets = s.resets := rfl
@[simp] theorem State.count_boot (s : State) (e n : Nat) : (s.count e n).boot = s.boot := rfl
@[simp] theorem State.count_enabled (s : State) (e n : Nat) : (s.count e n).enabled = s.enabled := rfl
@[simp] theorem State.count_gable (s : State) (e n : Nat) : (s.count e n).gable = s.gable := rfl
@[simp] theorem State.count_cores (s : State) (e n : Nat) : (s.count e n).cores = s.cores := rfl
@[simp] theorem State.count_dumps (s : State) (e n : Nat) : (s.count e n).dumps = s.dumps := rfl
@[simp] theorem State.count_images (s : State) (e n : Nat) : (s.count e n).images = s.images := rfl
@[simp] theorem State.count_threads (s : State) (e n : Nat) : (s.count e n).threads = s.threads := rfl
@[simp] theorem State.count_seats (s : State) (e n : Nat) : (s.count e n).seats = s.seats := rfl
@[simp] theorem State.count_mem (s : State) (e n : Nat) : (s.count e n).mem = s.mem := rfl
@[simp] theorem State.count_sideband (s : State) (e n : Nat) : (s.count e n).sideband = s.sideband := rfl
@[simp] theorem State.count_errs (s : State) (e n : Nat) : (s.count e n).errs = s.errs := rfl
@[simp] theorem State.count_rewrites (s : State) (e n : Nat) : (s.count e n).rewrites = s.rewrites := rfl
@[simp] theorem State.count_hostMem (s : State) (e n : Nat) : (s.count e n).hostMem = s.hostMem := rfl
@[simp] theorem State.count_overs (s : State) (e n : Nat) : (s.count e n).overs = s.overs := rfl
@[simp] theorem State.count_hostPend (s : State) (e n : Nat) : (s.count e n).hostPend = s.hostPend := rfl
@[simp] theorem State.count_parts (s : State) (e n : Nat) : (s.count e n).parts = s.parts := rfl
@[simp] theorem State.count_descRegs (s : State) (e n : Nat) : (s.count e n).descRegs = s.descRegs := rfl
@[simp] theorem State.count_copies (s : State) (e n : Nat) : (s.count e n).copies = s.copies := rfl
@[simp] theorem State.count_hires (s : State) (e n : Nat) : (s.count e n).hires = s.hires := rfl
@[simp] theorem State.count_books0 (s : State) (e n : Nat) : (s.count e n).books0 = s.books0 := rfl
@[simp] theorem State.count_books1 (s : State) (e n : Nat) : (s.count e n).books1 = s.books1 := rfl
@[simp] theorem State.count_hallWait (s : State) (e n : Nat) : (s.count e n).hallWait = s.hallWait := rfl
@[simp] theorem State.count_hallBusy (s : State) (e n : Nat) : (s.count e n).hallBusy = s.hallBusy := rfl
@[simp] theorem State.count_battens (s : State) (e n : Nat) : (s.count e n).battens = s.battens := rfl
@[simp] theorem State.count_failedArr (s : State) (e n : Nat) : (s.count e n).failedArr = s.failedArr := rfl
@[simp] theorem State.count_kernels (s : State) (e n : Nat) : (s.count e n).kernels = s.kernels := rfl
@[simp] theorem State.count_queues (s : State) (e n : Nat) : (s.count e n).queues = s.queues := rfl
@[simp] theorem State.count_slots (s : State) (e n : Nat) : (s.count e n).slots = s.slots := rfl
@[simp] theorem State.count_slotWait (s : State) (e n : Nat) : (s.count e n).slotWait = s.slotWait := rfl
@[simp] theorem State.count_slotSeq (s : State) (e n : Nat) : (s.count e n).slotSeq = s.slotSeq := rfl
@[simp] theorem State.count_lastGrant (s : State) (e n : Nat) : (s.count e n).lastGrant = s.lastGrant := rfl
@[simp] theorem State.count_barriers (s : State) (e n : Nat) : (s.count e n).barriers = s.barriers := rfl
@[simp] theorem State.count_pages (s : State) (e n : Nat) : (s.count e n).pages = s.pages := rfl
@[simp] theorem State.count_invals (s : State) (e n : Nat) : (s.count e n).invals = s.invals := rfl
@[simp] theorem State.count_asks (s : State) (e n : Nat) : (s.count e n).asks = s.asks := rfl
@[simp] theorem State.count_linkUp (s : State) (e n : Nat) : (s.count e n).linkUp = s.linkUp := rfl
@[simp] theorem State.count_refusedWrites (s : State) (e n : Nat) : (s.count e n).refusedWrites = s.refusedWrites := rfl
@[simp] theorem State.count_linkDownAt (s : State) (e n : Nat) : (s.count e n).linkDownAt = s.linkDownAt := rfl
@[simp] theorem State.count_peers (s : State) (e n : Nat) : (s.count e n).peers = s.peers := rfl
@[simp] theorem State.count_peerMem (s : State) (e n : Nat) : (s.count e n).peerMem = s.peerMem := rfl
@[simp] theorem State.count_peerFail (s : State) (e n : Nat) : (s.count e n).peerFail = s.peerFail := rfl
@[simp] theorem State.count_lifelog (s : State) (e n : Nat) : (s.count e n).lifelog = s.lifelog.ins e (min (if e < 4000 then 2 ^ 64 - 1 else 2 ^ 32 - 1) (s.lifelog.lookD e 0 + n)) := rfl
@[simp] theorem State.count_farPool (s : State) (e n : Nat) : (s.count e n).farPool = s.farPool := rfl
@[simp] theorem State.count_starved (s : State) (e n : Nat) : (s.count e n).starved = s.starved := rfl
@[simp] theorem State.count_holdAt (s : State) (e n : Nat) : (s.count e n).holdAt = s.holdAt := rfl
@[simp] theorem State.count_holdAsk (s : State) (e n : Nat) : (s.count e n).holdAsk = s.holdAsk := rfl
@[simp] theorem State.count_resumeAsked (s : State) (e n : Nat) : (s.count e n).resumeAsked = s.resumeAsked := rfl
@[simp] theorem State.count_savedBooks (s : State) (e n : Nat) : (s.count e n).savedBooks = s.savedBooks := rfl
@[simp] theorem State.count_held (s : State) (e n : Nat) : (s.count e n).held = s.held := rfl
@[simp] theorem State.count_saveArea (s : State) (e n : Nat) : (s.count e n).saveArea = s.saveArea := rfl
@[simp] theorem State.count_reports (s : State) (e n : Nat) : (s.count e n).reports = s.reports := rfl

/-! ### Updates of a thread -/

@[simp] theorem Thread.setG_thid (t : Thread) (i : Nat) (x : Word) : (t.setG i x).thid = t.thid := rfl
@[simp] theorem Thread.setG_part (t : Thread) (i : Nat) (x : Word) : (t.setG i x).part = t.part := rfl
@[simp] theorem Thread.setG_kernel (t : Thread) (i : Nat) (x : Word) : (t.setG i x).kernel = t.kernel := rfl
@[simp] theorem Thread.setG_task (t : Thread) (i : Nat) (x : Word) : (t.setG i x).task = t.task := rfl
@[simp] theorem Thread.setG_core (t : Thread) (i : Nat) (x : Word) : (t.setG i x).core = t.core := rfl
@[simp] theorem Thread.setG_life (t : Thread) (i : Nat) (x : Word) : (t.setG i x).life = t.life := rfl
@[simp] theorem Thread.setG_wait (t : Thread) (i : Nat) (x : Word) : (t.setG i x).wait = t.wait := rfl
@[simp] theorem Thread.setG_roaming (t : Thread) (i : Nat) (x : Word) : (t.setG i x).roaming = t.roaming := rfl
@[simp] theorem Thread.setG_W (t : Thread) (i : Nat) (x : Word) : (t.setG i x).W = t.W := rfl
@[simp] theorem Thread.setG_V (t : Thread) (i : Nat) (x : Word) : (t.setG i x).V = t.V := rfl
@[simp] theorem Thread.setG_k (t : Thread) (i : Nat) (x : Word) : (t.setG i x).k = t.k := rfl
@[simp] theorem Thread.setG_pc (t : Thread) (i : Nat) (x : Word) : (t.setG i x).pc = t.pc := rfl
@[simp] theorem Thread.setG_pcMode (t : Thread) (i : Nat) (x : Word) : (t.setG i x).pcMode = t.pcMode := rfl
@[simp] theorem Thread.setG_line (t : Thread) (i : Nat) (x : Word) : (t.setG i x).line = t.line := rfl
@[simp] theorem Thread.setG_dualPfx (t : Thread) (i : Nat) (x : Word) : (t.setG i x).dualPfx = t.dualPfx := rfl
@[simp] theorem Thread.setG_g (t : Thread) (i : Nat) (x : Word) : (t.setG i x).g = t.g.put 0#64 i x := rfl
@[simp] theorem Thread.setG_gEmpty (t : Thread) (i : Nat) (x : Word) : (t.setG i x).gEmpty = t.gEmpty := rfl
@[simp] theorem Thread.setG_v (t : Thread) (i : Nat) (x : Word) : (t.setG i x).v = t.v := rfl
@[simp] theorem Thread.setG_vb (t : Thread) (i : Nat) (x : Word) : (t.setG i x).vb = t.vb := rfl
@[simp] theorem Thread.setG_gt (t : Thread) (i : Nat) (x : Word) : (t.setG i x).gt = t.gt := rfl
@[simp] theorem Thread.setG_vt (t : Thread) (i : Nat) (x : Word) : (t.setG i x).vt = t.vt := rfl
@[simp] theorem Thread.setG_vtb (t : Thread) (i : Nat) (x : Word) : (t.setG i x).vtb = t.vtb := rfl
@[simp] theorem Thread.setG_pred (t : Thread) (i : Nat) (x : Word) : (t.setG i x).pred = t.pred := rfl
@[simp] theorem Thread.setG_l (t : Thread) (i : Nat) (x : Word) : (t.setG i x).l = t.l := rfl
@[simp] theorem Thread.setG_ev (t : Thread) (i : Nat) (x : Word) : (t.setG i x).ev = t.ev := rfl
@[simp] theorem Thread.setG_outLd (t : Thread) (i : Nat) (x : Word) : (t.setG i x).outLd = t.outLd := rfl
@[simp] theorem Thread.setG_outSt (t : Thread) (i : Nat) (x : Word) : (t.setG i x).outSt = t.outSt := rfl
@[simp] theorem Thread.setG_outCp (t : Thread) (i : Nat) (x : Word) : (t.setG i x).outCp = t.outCp := rfl
@[simp] theorem Thread.setG_outHr (t : Thread) (i : Nat) (x : Word) : (t.setG i x).outHr = t.outHr := rfl
@[simp] theorem Thread.setG_loops (t : Thread) (i : Nat) (x : Word) : (t.setG i x).loops = t.loops := rfl
@[simp] theorem Thread.setG_status (t : Thread) (i : Nat) (x : Word) : (t.setG i x).status = t.status := rfl
@[simp] theorem Thread.setG_cAsync (t : Thread) (i : Nat) (x : Word) : (t.setG i x).cAsync = t.cAsync := rfl
@[simp] theorem Thread.setG_cLost (t : Thread) (i : Nat) (x : Word) : (t.setG i x).cLost = t.cLost := rfl
@[simp] theorem Thread.setG_cCode (t : Thread) (i : Nat) (x : Word) : (t.setG i x).cCode = t.cCode := rfl
@[simp] theorem Thread.setG_tval (t : Thread) (i : Nat) (x : Word) : (t.setG i x).tval = t.tval := rfl
@[simp] theorem Thread.setG_epc (t : Thread) (i : Nat) (x : Word) : (t.setG i x).epc = t.epc := rfl
@[simp] theorem Thread.setG_tvec (t : Thread) (i : Nat) (x : Word) : (t.setG i x).tvec = t.tvec := rfl
@[simp] theorem Thread.setG_fpctl (t : Thread) (i : Nat) (x : Word) : (t.setG i x).fpctl = t.fpctl := rfl
@[simp] theorem Thread.setG_fpflags (t : Thread) (i : Nat) (x : Word) : (t.setG i x).fpflags = t.fpflags := rfl
@[simp] theorem Thread.setG_tstride (t : Thread) (i : Nat) (x : Word) : (t.setG i x).tstride = t.tstride := rfl
@[simp] theorem Thread.setG_bthr (t : Thread) (i : Nat) (x : Word) : (t.setG i x).bthr = t.bthr := rfl
@[simp] theorem Thread.setG_slice (t : Thread) (i : Nat) (x : Word) : (t.setG i x).slice = t.slice := rfl
@[simp] theorem Thread.setG_prio (t : Thread) (i : Nat) (x : Word) : (t.setG i x).prio = t.prio := rfl
@[simp] theorem Thread.setG_qlink (t : Thread) (i : Nat) (x : Word) : (t.setG i x).qlink = t.qlink := rfl
@[simp] theorem Thread.setG_rank (t : Thread) (i : Nat) (x : Word) : (t.setG i x).rank = t.rank := rfl
@[simp] theorem Thread.setG_gsize (t : Thread) (i : Nat) (x : Word) : (t.setG i x).gsize = t.gsize := rfl
@[simp] theorem Thread.setG_posted (t : Thread) (i : Nat) (x : Word) : (t.setG i x).posted = t.posted := rfl
@[simp] theorem Thread.setG_lost (t : Thread) (i : Nat) (x : Word) : (t.setG i x).lost = t.lost := rfl
@[simp] theorem Thread.setG_mailbox (t : Thread) (i : Nat) (x : Word) : (t.setG i x).mailbox = t.mailbox := rfl
@[simp] theorem Thread.setG_sliceCnt (t : Thread) (i : Nat) (x : Word) : (t.setG i x).sliceCnt = t.sliceCnt := rfl
@[simp] theorem Thread.setG_slicePend (t : Thread) (i : Nat) (x : Word) : (t.setG i x).slicePend = t.slicePend := rfl
@[simp] theorem Thread.setG_waitTurns (t : Thread) (i : Nat) (x : Word) : (t.setG i x).waitTurns = t.waitTurns := rfl
@[simp] theorem Thread.setG_woke (t : Thread) (i : Nat) (x : Word) : (t.setG i x).woke = t.woke := rfl
@[simp] theorem Thread.setG_waitSince (t : Thread) (i : Nat) (x : Word) : (t.setG i x).waitSince = t.waitSince := rfl
@[simp] theorem Thread.setG_saving (t : Thread) (i : Nat) (x : Word) : (t.setG i x).saving = t.saving := rfl
@[simp] theorem Thread.setG_atPort (t : Thread) (i : Nat) (x : Word) : (t.setG i x).atPort = t.atPort := rfl
@[simp] theorem Thread.setG_vals (t : Thread) (i : Nat) (x : Word) : (t.setG i x).vals = t.vals := rfl
@[simp] theorem Thread.setG_taken (t : Thread) (i : Nat) (x : Word) : (t.setG i x).taken = t.taken := rfl
@[simp] theorem Thread.setG_planes (t : Thread) (i : Nat) (x : Word) : (t.setG i x).planes = t.planes := rfl
@[simp] theorem Thread.setG_regErr (t : Thread) (i : Nat) (x : Word) : (t.setG i x).regErr = t.regErr.filter (· != (false, BitVec.ofNat 8 i)) := rfl
@[simp] theorem Thread.setG_copyGen (t : Thread) (i : Nat) (x : Word) : (t.setG i x).copyGen = t.copyGen := rfl
@[simp] theorem Thread.setG_pre (t : Thread) (i : Nat) (x : Word) : (t.setG i x).pre = t.pre := rfl
@[simp] theorem Thread.setG_purpose (t : Thread) (i : Nat) (x : Word) : (t.setG i x).purpose = t.purpose := rfl
@[simp] theorem Thread.setG_firm (t : Thread) (i : Nat) (x : Word) : (t.setG i x).firm = t.firm := rfl
@[simp] theorem Thread.setG_sends (t : Thread) (i : Nat) (x : Word) : (t.setG i x).sends = t.sends := rfl
@[simp] theorem Thread.setG_arrive (t : Thread) (i : Nat) (x : Word) : (t.setG i x).arrive = t.arrive := rfl
@[simp] theorem Thread.setG_atAnchor (t : Thread) (i : Nat) (x : Word) : (t.setG i x).atAnchor = t.atAnchor := rfl
@[simp] theorem Thread.setG_reissue (t : Thread) (i : Nat) (x : Word) : (t.setG i x).reissue = t.reissue := rfl
@[simp] theorem Thread.setG_bound (t : Thread) (i : Nat) (x : Word) : (t.setG i x).bound = t.bound := rfl
@[simp] theorem Thread.setG_late (t : Thread) (i : Nat) (x : Word) : (t.setG i x).late = t.late := rfl
@[simp] theorem Thread.setG_saveFor (t : Thread) (i : Nat) (x : Word) : (t.setG i x).saveFor = t.saveFor := rfl
@[simp] theorem Thread.setG_killers (t : Thread) (i : Nat) (x : Word) : (t.setG i x).killers = t.killers := rfl

@[simp] theorem Thread.setGT_thid (t : Thread) (j i : Nat) (x : Word) : (t.setGT j i x).thid = t.thid := rfl
@[simp] theorem Thread.setGT_part (t : Thread) (j i : Nat) (x : Word) : (t.setGT j i x).part = t.part := rfl
@[simp] theorem Thread.setGT_kernel (t : Thread) (j i : Nat) (x : Word) : (t.setGT j i x).kernel = t.kernel := rfl
@[simp] theorem Thread.setGT_task (t : Thread) (j i : Nat) (x : Word) : (t.setGT j i x).task = t.task := rfl
@[simp] theorem Thread.setGT_core (t : Thread) (j i : Nat) (x : Word) : (t.setGT j i x).core = t.core := rfl
@[simp] theorem Thread.setGT_life (t : Thread) (j i : Nat) (x : Word) : (t.setGT j i x).life = t.life := rfl
@[simp] theorem Thread.setGT_wait (t : Thread) (j i : Nat) (x : Word) : (t.setGT j i x).wait = t.wait := rfl
@[simp] theorem Thread.setGT_roaming (t : Thread) (j i : Nat) (x : Word) : (t.setGT j i x).roaming = t.roaming := rfl
@[simp] theorem Thread.setGT_W (t : Thread) (j i : Nat) (x : Word) : (t.setGT j i x).W = t.W := rfl
@[simp] theorem Thread.setGT_V (t : Thread) (j i : Nat) (x : Word) : (t.setGT j i x).V = t.V := rfl
@[simp] theorem Thread.setGT_k (t : Thread) (j i : Nat) (x : Word) : (t.setGT j i x).k = t.k := rfl
@[simp] theorem Thread.setGT_pc (t : Thread) (j i : Nat) (x : Word) : (t.setGT j i x).pc = t.pc := rfl
@[simp] theorem Thread.setGT_pcMode (t : Thread) (j i : Nat) (x : Word) : (t.setGT j i x).pcMode = t.pcMode := rfl
@[simp] theorem Thread.setGT_line (t : Thread) (j i : Nat) (x : Word) : (t.setGT j i x).line = t.line := rfl
@[simp] theorem Thread.setGT_dualPfx (t : Thread) (j i : Nat) (x : Word) : (t.setGT j i x).dualPfx = t.dualPfx := rfl
@[simp] theorem Thread.setGT_g (t : Thread) (j i : Nat) (x : Word) : (t.setGT j i x).g = t.g := rfl
@[simp] theorem Thread.setGT_gEmpty (t : Thread) (j i : Nat) (x : Word) : (t.setGT j i x).gEmpty = t.gEmpty := rfl
@[simp] theorem Thread.setGT_v (t : Thread) (j i : Nat) (x : Word) : (t.setGT j i x).v = t.v := rfl
@[simp] theorem Thread.setGT_vb (t : Thread) (j i : Nat) (x : Word) : (t.setGT j i x).vb = t.vb := rfl
@[simp] theorem Thread.setGT_gt (t : Thread) (j i : Nat) (x : Word) : (t.setGT j i x).gt = t.gt.put 0#64 (128 * j + i) x := rfl
@[simp] theorem Thread.setGT_vt (t : Thread) (j i : Nat) (x : Word) : (t.setGT j i x).vt = t.vt := rfl
@[simp] theorem Thread.setGT_vtb (t : Thread) (j i : Nat) (x : Word) : (t.setGT j i x).vtb = t.vtb := rfl
@[simp] theorem Thread.setGT_pred (t : Thread) (j i : Nat) (x : Word) : (t.setGT j i x).pred = t.pred := rfl
@[simp] theorem Thread.setGT_l (t : Thread) (j i : Nat) (x : Word) : (t.setGT j i x).l = t.l := rfl
@[simp] theorem Thread.setGT_ev (t : Thread) (j i : Nat) (x : Word) : (t.setGT j i x).ev = t.ev := rfl
@[simp] theorem Thread.setGT_outLd (t : Thread) (j i : Nat) (x : Word) : (t.setGT j i x).outLd = t.outLd := rfl
@[simp] theorem Thread.setGT_outSt (t : Thread) (j i : Nat) (x : Word) : (t.setGT j i x).outSt = t.outSt := rfl
@[simp] theorem Thread.setGT_outCp (t : Thread) (j i : Nat) (x : Word) : (t.setGT j i x).outCp = t.outCp := rfl
@[simp] theorem Thread.setGT_outHr (t : Thread) (j i : Nat) (x : Word) : (t.setGT j i x).outHr = t.outHr := rfl
@[simp] theorem Thread.setGT_loops (t : Thread) (j i : Nat) (x : Word) : (t.setGT j i x).loops = t.loops := rfl
@[simp] theorem Thread.setGT_status (t : Thread) (j i : Nat) (x : Word) : (t.setGT j i x).status = t.status := rfl
@[simp] theorem Thread.setGT_cAsync (t : Thread) (j i : Nat) (x : Word) : (t.setGT j i x).cAsync = t.cAsync := rfl
@[simp] theorem Thread.setGT_cLost (t : Thread) (j i : Nat) (x : Word) : (t.setGT j i x).cLost = t.cLost := rfl
@[simp] theorem Thread.setGT_cCode (t : Thread) (j i : Nat) (x : Word) : (t.setGT j i x).cCode = t.cCode := rfl
@[simp] theorem Thread.setGT_tval (t : Thread) (j i : Nat) (x : Word) : (t.setGT j i x).tval = t.tval := rfl
@[simp] theorem Thread.setGT_epc (t : Thread) (j i : Nat) (x : Word) : (t.setGT j i x).epc = t.epc := rfl
@[simp] theorem Thread.setGT_tvec (t : Thread) (j i : Nat) (x : Word) : (t.setGT j i x).tvec = t.tvec := rfl
@[simp] theorem Thread.setGT_fpctl (t : Thread) (j i : Nat) (x : Word) : (t.setGT j i x).fpctl = t.fpctl := rfl
@[simp] theorem Thread.setGT_fpflags (t : Thread) (j i : Nat) (x : Word) : (t.setGT j i x).fpflags = t.fpflags := rfl
@[simp] theorem Thread.setGT_tstride (t : Thread) (j i : Nat) (x : Word) : (t.setGT j i x).tstride = t.tstride := rfl
@[simp] theorem Thread.setGT_bthr (t : Thread) (j i : Nat) (x : Word) : (t.setGT j i x).bthr = t.bthr := rfl
@[simp] theorem Thread.setGT_slice (t : Thread) (j i : Nat) (x : Word) : (t.setGT j i x).slice = t.slice := rfl
@[simp] theorem Thread.setGT_prio (t : Thread) (j i : Nat) (x : Word) : (t.setGT j i x).prio = t.prio := rfl
@[simp] theorem Thread.setGT_qlink (t : Thread) (j i : Nat) (x : Word) : (t.setGT j i x).qlink = t.qlink := rfl
@[simp] theorem Thread.setGT_rank (t : Thread) (j i : Nat) (x : Word) : (t.setGT j i x).rank = t.rank := rfl
@[simp] theorem Thread.setGT_gsize (t : Thread) (j i : Nat) (x : Word) : (t.setGT j i x).gsize = t.gsize := rfl
@[simp] theorem Thread.setGT_posted (t : Thread) (j i : Nat) (x : Word) : (t.setGT j i x).posted = t.posted := rfl
@[simp] theorem Thread.setGT_lost (t : Thread) (j i : Nat) (x : Word) : (t.setGT j i x).lost = t.lost := rfl
@[simp] theorem Thread.setGT_mailbox (t : Thread) (j i : Nat) (x : Word) : (t.setGT j i x).mailbox = t.mailbox := rfl
@[simp] theorem Thread.setGT_sliceCnt (t : Thread) (j i : Nat) (x : Word) : (t.setGT j i x).sliceCnt = t.sliceCnt := rfl
@[simp] theorem Thread.setGT_slicePend (t : Thread) (j i : Nat) (x : Word) : (t.setGT j i x).slicePend = t.slicePend := rfl
@[simp] theorem Thread.setGT_waitTurns (t : Thread) (j i : Nat) (x : Word) : (t.setGT j i x).waitTurns = t.waitTurns := rfl
@[simp] theorem Thread.setGT_woke (t : Thread) (j i : Nat) (x : Word) : (t.setGT j i x).woke = t.woke := rfl
@[simp] theorem Thread.setGT_waitSince (t : Thread) (j i : Nat) (x : Word) : (t.setGT j i x).waitSince = t.waitSince := rfl
@[simp] theorem Thread.setGT_saving (t : Thread) (j i : Nat) (x : Word) : (t.setGT j i x).saving = t.saving := rfl
@[simp] theorem Thread.setGT_atPort (t : Thread) (j i : Nat) (x : Word) : (t.setGT j i x).atPort = t.atPort := rfl
@[simp] theorem Thread.setGT_vals (t : Thread) (j i : Nat) (x : Word) : (t.setGT j i x).vals = t.vals := rfl
@[simp] theorem Thread.setGT_taken (t : Thread) (j i : Nat) (x : Word) : (t.setGT j i x).taken = t.taken := rfl
@[simp] theorem Thread.setGT_planes (t : Thread) (j i : Nat) (x : Word) : (t.setGT j i x).planes = t.planes := rfl
@[simp] theorem Thread.setGT_regErr (t : Thread) (j i : Nat) (x : Word) : (t.setGT j i x).regErr = t.regErr := rfl
@[simp] theorem Thread.setGT_copyGen (t : Thread) (j i : Nat) (x : Word) : (t.setGT j i x).copyGen = t.copyGen := rfl
@[simp] theorem Thread.setGT_pre (t : Thread) (j i : Nat) (x : Word) : (t.setGT j i x).pre = t.pre := rfl
@[simp] theorem Thread.setGT_purpose (t : Thread) (j i : Nat) (x : Word) : (t.setGT j i x).purpose = t.purpose := rfl
@[simp] theorem Thread.setGT_firm (t : Thread) (j i : Nat) (x : Word) : (t.setGT j i x).firm = t.firm := rfl
@[simp] theorem Thread.setGT_sends (t : Thread) (j i : Nat) (x : Word) : (t.setGT j i x).sends = t.sends := rfl
@[simp] theorem Thread.setGT_arrive (t : Thread) (j i : Nat) (x : Word) : (t.setGT j i x).arrive = t.arrive := rfl
@[simp] theorem Thread.setGT_atAnchor (t : Thread) (j i : Nat) (x : Word) : (t.setGT j i x).atAnchor = t.atAnchor := rfl
@[simp] theorem Thread.setGT_reissue (t : Thread) (j i : Nat) (x : Word) : (t.setGT j i x).reissue = t.reissue := rfl
@[simp] theorem Thread.setGT_bound (t : Thread) (j i : Nat) (x : Word) : (t.setGT j i x).bound = t.bound := rfl
@[simp] theorem Thread.setGT_late (t : Thread) (j i : Nat) (x : Word) : (t.setGT j i x).late = t.late := rfl
@[simp] theorem Thread.setGT_saveFor (t : Thread) (j i : Nat) (x : Word) : (t.setGT j i x).saveFor = t.saveFor := rfl
@[simp] theorem Thread.setGT_killers (t : Thread) (j i : Nat) (x : Word) : (t.setGT j i x).killers = t.killers := rfl

@[simp] theorem Thread.setV_thid (t : Thread) (i : Nat) (x : Vec) : (t.setV i x).thid = t.thid := rfl
@[simp] theorem Thread.setV_part (t : Thread) (i : Nat) (x : Vec) : (t.setV i x).part = t.part := rfl
@[simp] theorem Thread.setV_kernel (t : Thread) (i : Nat) (x : Vec) : (t.setV i x).kernel = t.kernel := rfl
@[simp] theorem Thread.setV_task (t : Thread) (i : Nat) (x : Vec) : (t.setV i x).task = t.task := rfl
@[simp] theorem Thread.setV_core (t : Thread) (i : Nat) (x : Vec) : (t.setV i x).core = t.core := rfl
@[simp] theorem Thread.setV_life (t : Thread) (i : Nat) (x : Vec) : (t.setV i x).life = t.life := rfl
@[simp] theorem Thread.setV_wait (t : Thread) (i : Nat) (x : Vec) : (t.setV i x).wait = t.wait := rfl
@[simp] theorem Thread.setV_roaming (t : Thread) (i : Nat) (x : Vec) : (t.setV i x).roaming = t.roaming := rfl
@[simp] theorem Thread.setV_W (t : Thread) (i : Nat) (x : Vec) : (t.setV i x).W = t.W := rfl
@[simp] theorem Thread.setV_V (t : Thread) (i : Nat) (x : Vec) : (t.setV i x).V = t.V := rfl
@[simp] theorem Thread.setV_k (t : Thread) (i : Nat) (x : Vec) : (t.setV i x).k = t.k := rfl
@[simp] theorem Thread.setV_pc (t : Thread) (i : Nat) (x : Vec) : (t.setV i x).pc = t.pc := rfl
@[simp] theorem Thread.setV_pcMode (t : Thread) (i : Nat) (x : Vec) : (t.setV i x).pcMode = t.pcMode := rfl
@[simp] theorem Thread.setV_line (t : Thread) (i : Nat) (x : Vec) : (t.setV i x).line = t.line := rfl
@[simp] theorem Thread.setV_dualPfx (t : Thread) (i : Nat) (x : Vec) : (t.setV i x).dualPfx = t.dualPfx := rfl
@[simp] theorem Thread.setV_g (t : Thread) (i : Nat) (x : Vec) : (t.setV i x).g = t.g := rfl
@[simp] theorem Thread.setV_gEmpty (t : Thread) (i : Nat) (x : Vec) : (t.setV i x).gEmpty = t.gEmpty := rfl
@[simp] theorem Thread.setV_v (t : Thread) (i : Nat) (x : Vec) : (t.setV i x).v = t.v.put 0#512 i x := rfl
@[simp] theorem Thread.setV_vb (t : Thread) (i : Nat) (x : Vec) : (t.setV i x).vb = t.vb := rfl
@[simp] theorem Thread.setV_gt (t : Thread) (i : Nat) (x : Vec) : (t.setV i x).gt = t.gt := rfl
@[simp] theorem Thread.setV_vt (t : Thread) (i : Nat) (x : Vec) : (t.setV i x).vt = t.vt := rfl
@[simp] theorem Thread.setV_vtb (t : Thread) (i : Nat) (x : Vec) : (t.setV i x).vtb = t.vtb := rfl
@[simp] theorem Thread.setV_pred (t : Thread) (i : Nat) (x : Vec) : (t.setV i x).pred = t.pred := rfl
@[simp] theorem Thread.setV_l (t : Thread) (i : Nat) (x : Vec) : (t.setV i x).l = t.l := rfl
@[simp] theorem Thread.setV_ev (t : Thread) (i : Nat) (x : Vec) : (t.setV i x).ev = t.ev := rfl
@[simp] theorem Thread.setV_outLd (t : Thread) (i : Nat) (x : Vec) : (t.setV i x).outLd = t.outLd := rfl
@[simp] theorem Thread.setV_outSt (t : Thread) (i : Nat) (x : Vec) : (t.setV i x).outSt = t.outSt := rfl
@[simp] theorem Thread.setV_outCp (t : Thread) (i : Nat) (x : Vec) : (t.setV i x).outCp = t.outCp := rfl
@[simp] theorem Thread.setV_outHr (t : Thread) (i : Nat) (x : Vec) : (t.setV i x).outHr = t.outHr := rfl
@[simp] theorem Thread.setV_loops (t : Thread) (i : Nat) (x : Vec) : (t.setV i x).loops = t.loops := rfl
@[simp] theorem Thread.setV_status (t : Thread) (i : Nat) (x : Vec) : (t.setV i x).status = t.status := rfl
@[simp] theorem Thread.setV_cAsync (t : Thread) (i : Nat) (x : Vec) : (t.setV i x).cAsync = t.cAsync := rfl
@[simp] theorem Thread.setV_cLost (t : Thread) (i : Nat) (x : Vec) : (t.setV i x).cLost = t.cLost := rfl
@[simp] theorem Thread.setV_cCode (t : Thread) (i : Nat) (x : Vec) : (t.setV i x).cCode = t.cCode := rfl
@[simp] theorem Thread.setV_tval (t : Thread) (i : Nat) (x : Vec) : (t.setV i x).tval = t.tval := rfl
@[simp] theorem Thread.setV_epc (t : Thread) (i : Nat) (x : Vec) : (t.setV i x).epc = t.epc := rfl
@[simp] theorem Thread.setV_tvec (t : Thread) (i : Nat) (x : Vec) : (t.setV i x).tvec = t.tvec := rfl
@[simp] theorem Thread.setV_fpctl (t : Thread) (i : Nat) (x : Vec) : (t.setV i x).fpctl = t.fpctl := rfl
@[simp] theorem Thread.setV_fpflags (t : Thread) (i : Nat) (x : Vec) : (t.setV i x).fpflags = t.fpflags := rfl
@[simp] theorem Thread.setV_tstride (t : Thread) (i : Nat) (x : Vec) : (t.setV i x).tstride = t.tstride := rfl
@[simp] theorem Thread.setV_bthr (t : Thread) (i : Nat) (x : Vec) : (t.setV i x).bthr = t.bthr := rfl
@[simp] theorem Thread.setV_slice (t : Thread) (i : Nat) (x : Vec) : (t.setV i x).slice = t.slice := rfl
@[simp] theorem Thread.setV_prio (t : Thread) (i : Nat) (x : Vec) : (t.setV i x).prio = t.prio := rfl
@[simp] theorem Thread.setV_qlink (t : Thread) (i : Nat) (x : Vec) : (t.setV i x).qlink = t.qlink := rfl
@[simp] theorem Thread.setV_rank (t : Thread) (i : Nat) (x : Vec) : (t.setV i x).rank = t.rank := rfl
@[simp] theorem Thread.setV_gsize (t : Thread) (i : Nat) (x : Vec) : (t.setV i x).gsize = t.gsize := rfl
@[simp] theorem Thread.setV_posted (t : Thread) (i : Nat) (x : Vec) : (t.setV i x).posted = t.posted := rfl
@[simp] theorem Thread.setV_lost (t : Thread) (i : Nat) (x : Vec) : (t.setV i x).lost = t.lost := rfl
@[simp] theorem Thread.setV_mailbox (t : Thread) (i : Nat) (x : Vec) : (t.setV i x).mailbox = t.mailbox := rfl
@[simp] theorem Thread.setV_sliceCnt (t : Thread) (i : Nat) (x : Vec) : (t.setV i x).sliceCnt = t.sliceCnt := rfl
@[simp] theorem Thread.setV_slicePend (t : Thread) (i : Nat) (x : Vec) : (t.setV i x).slicePend = t.slicePend := rfl
@[simp] theorem Thread.setV_waitTurns (t : Thread) (i : Nat) (x : Vec) : (t.setV i x).waitTurns = t.waitTurns := rfl
@[simp] theorem Thread.setV_woke (t : Thread) (i : Nat) (x : Vec) : (t.setV i x).woke = t.woke := rfl
@[simp] theorem Thread.setV_waitSince (t : Thread) (i : Nat) (x : Vec) : (t.setV i x).waitSince = t.waitSince := rfl
@[simp] theorem Thread.setV_saving (t : Thread) (i : Nat) (x : Vec) : (t.setV i x).saving = t.saving := rfl
@[simp] theorem Thread.setV_atPort (t : Thread) (i : Nat) (x : Vec) : (t.setV i x).atPort = t.atPort := rfl
@[simp] theorem Thread.setV_vals (t : Thread) (i : Nat) (x : Vec) : (t.setV i x).vals = t.vals := rfl
@[simp] theorem Thread.setV_taken (t : Thread) (i : Nat) (x : Vec) : (t.setV i x).taken = t.taken := rfl
@[simp] theorem Thread.setV_planes (t : Thread) (i : Nat) (x : Vec) : (t.setV i x).planes = t.planes := rfl
@[simp] theorem Thread.setV_regErr (t : Thread) (i : Nat) (x : Vec) : (t.setV i x).regErr = t.regErr.filter (· != (true, BitVec.ofNat 8 i)) := rfl
@[simp] theorem Thread.setV_copyGen (t : Thread) (i : Nat) (x : Vec) : (t.setV i x).copyGen = t.copyGen := rfl
@[simp] theorem Thread.setV_pre (t : Thread) (i : Nat) (x : Vec) : (t.setV i x).pre = t.pre := rfl
@[simp] theorem Thread.setV_purpose (t : Thread) (i : Nat) (x : Vec) : (t.setV i x).purpose = t.purpose := rfl
@[simp] theorem Thread.setV_firm (t : Thread) (i : Nat) (x : Vec) : (t.setV i x).firm = t.firm := rfl
@[simp] theorem Thread.setV_sends (t : Thread) (i : Nat) (x : Vec) : (t.setV i x).sends = t.sends := rfl
@[simp] theorem Thread.setV_arrive (t : Thread) (i : Nat) (x : Vec) : (t.setV i x).arrive = t.arrive := rfl
@[simp] theorem Thread.setV_atAnchor (t : Thread) (i : Nat) (x : Vec) : (t.setV i x).atAnchor = t.atAnchor := rfl
@[simp] theorem Thread.setV_reissue (t : Thread) (i : Nat) (x : Vec) : (t.setV i x).reissue = t.reissue := rfl
@[simp] theorem Thread.setV_bound (t : Thread) (i : Nat) (x : Vec) : (t.setV i x).bound = t.bound := rfl
@[simp] theorem Thread.setV_late (t : Thread) (i : Nat) (x : Vec) : (t.setV i x).late = t.late := rfl
@[simp] theorem Thread.setV_saveFor (t : Thread) (i : Nat) (x : Vec) : (t.setV i x).saveFor = t.saveFor := rfl
@[simp] theorem Thread.setV_killers (t : Thread) (i : Nat) (x : Vec) : (t.setV i x).killers = t.killers := rfl

@[simp] theorem Thread.setVb_thid (t : Thread) (i : Nat) (b : Word32) : (t.setVb i b).thid = t.thid := rfl
@[simp] theorem Thread.setVb_part (t : Thread) (i : Nat) (b : Word32) : (t.setVb i b).part = t.part := rfl
@[simp] theorem Thread.setVb_kernel (t : Thread) (i : Nat) (b : Word32) : (t.setVb i b).kernel = t.kernel := rfl
@[simp] theorem Thread.setVb_task (t : Thread) (i : Nat) (b : Word32) : (t.setVb i b).task = t.task := rfl
@[simp] theorem Thread.setVb_core (t : Thread) (i : Nat) (b : Word32) : (t.setVb i b).core = t.core := rfl
@[simp] theorem Thread.setVb_life (t : Thread) (i : Nat) (b : Word32) : (t.setVb i b).life = t.life := rfl
@[simp] theorem Thread.setVb_wait (t : Thread) (i : Nat) (b : Word32) : (t.setVb i b).wait = t.wait := rfl
@[simp] theorem Thread.setVb_roaming (t : Thread) (i : Nat) (b : Word32) : (t.setVb i b).roaming = t.roaming := rfl
@[simp] theorem Thread.setVb_W (t : Thread) (i : Nat) (b : Word32) : (t.setVb i b).W = t.W := rfl
@[simp] theorem Thread.setVb_V (t : Thread) (i : Nat) (b : Word32) : (t.setVb i b).V = t.V := rfl
@[simp] theorem Thread.setVb_k (t : Thread) (i : Nat) (b : Word32) : (t.setVb i b).k = t.k := rfl
@[simp] theorem Thread.setVb_pc (t : Thread) (i : Nat) (b : Word32) : (t.setVb i b).pc = t.pc := rfl
@[simp] theorem Thread.setVb_pcMode (t : Thread) (i : Nat) (b : Word32) : (t.setVb i b).pcMode = t.pcMode := rfl
@[simp] theorem Thread.setVb_line (t : Thread) (i : Nat) (b : Word32) : (t.setVb i b).line = t.line := rfl
@[simp] theorem Thread.setVb_dualPfx (t : Thread) (i : Nat) (b : Word32) : (t.setVb i b).dualPfx = t.dualPfx := rfl
@[simp] theorem Thread.setVb_g (t : Thread) (i : Nat) (b : Word32) : (t.setVb i b).g = t.g := rfl
@[simp] theorem Thread.setVb_gEmpty (t : Thread) (i : Nat) (b : Word32) : (t.setVb i b).gEmpty = t.gEmpty := rfl
@[simp] theorem Thread.setVb_v (t : Thread) (i : Nat) (b : Word32) : (t.setVb i b).v = t.v := rfl
@[simp] theorem Thread.setVb_vb (t : Thread) (i : Nat) (b : Word32) : (t.setVb i b).vb = t.vb.put 0#32 i b := rfl
@[simp] theorem Thread.setVb_gt (t : Thread) (i : Nat) (b : Word32) : (t.setVb i b).gt = t.gt := rfl
@[simp] theorem Thread.setVb_vt (t : Thread) (i : Nat) (b : Word32) : (t.setVb i b).vt = t.vt := rfl
@[simp] theorem Thread.setVb_vtb (t : Thread) (i : Nat) (b : Word32) : (t.setVb i b).vtb = t.vtb := rfl
@[simp] theorem Thread.setVb_pred (t : Thread) (i : Nat) (b : Word32) : (t.setVb i b).pred = t.pred := rfl
@[simp] theorem Thread.setVb_l (t : Thread) (i : Nat) (b : Word32) : (t.setVb i b).l = t.l := rfl
@[simp] theorem Thread.setVb_ev (t : Thread) (i : Nat) (b : Word32) : (t.setVb i b).ev = t.ev := rfl
@[simp] theorem Thread.setVb_outLd (t : Thread) (i : Nat) (b : Word32) : (t.setVb i b).outLd = t.outLd := rfl
@[simp] theorem Thread.setVb_outSt (t : Thread) (i : Nat) (b : Word32) : (t.setVb i b).outSt = t.outSt := rfl
@[simp] theorem Thread.setVb_outCp (t : Thread) (i : Nat) (b : Word32) : (t.setVb i b).outCp = t.outCp := rfl
@[simp] theorem Thread.setVb_outHr (t : Thread) (i : Nat) (b : Word32) : (t.setVb i b).outHr = t.outHr := rfl
@[simp] theorem Thread.setVb_loops (t : Thread) (i : Nat) (b : Word32) : (t.setVb i b).loops = t.loops := rfl
@[simp] theorem Thread.setVb_status (t : Thread) (i : Nat) (b : Word32) : (t.setVb i b).status = t.status := rfl
@[simp] theorem Thread.setVb_cAsync (t : Thread) (i : Nat) (b : Word32) : (t.setVb i b).cAsync = t.cAsync := rfl
@[simp] theorem Thread.setVb_cLost (t : Thread) (i : Nat) (b : Word32) : (t.setVb i b).cLost = t.cLost := rfl
@[simp] theorem Thread.setVb_cCode (t : Thread) (i : Nat) (b : Word32) : (t.setVb i b).cCode = t.cCode := rfl
@[simp] theorem Thread.setVb_tval (t : Thread) (i : Nat) (b : Word32) : (t.setVb i b).tval = t.tval := rfl
@[simp] theorem Thread.setVb_epc (t : Thread) (i : Nat) (b : Word32) : (t.setVb i b).epc = t.epc := rfl
@[simp] theorem Thread.setVb_tvec (t : Thread) (i : Nat) (b : Word32) : (t.setVb i b).tvec = t.tvec := rfl
@[simp] theorem Thread.setVb_fpctl (t : Thread) (i : Nat) (b : Word32) : (t.setVb i b).fpctl = t.fpctl := rfl
@[simp] theorem Thread.setVb_fpflags (t : Thread) (i : Nat) (b : Word32) : (t.setVb i b).fpflags = t.fpflags := rfl
@[simp] theorem Thread.setVb_tstride (t : Thread) (i : Nat) (b : Word32) : (t.setVb i b).tstride = t.tstride := rfl
@[simp] theorem Thread.setVb_bthr (t : Thread) (i : Nat) (b : Word32) : (t.setVb i b).bthr = t.bthr := rfl
@[simp] theorem Thread.setVb_slice (t : Thread) (i : Nat) (b : Word32) : (t.setVb i b).slice = t.slice := rfl
@[simp] theorem Thread.setVb_prio (t : Thread) (i : Nat) (b : Word32) : (t.setVb i b).prio = t.prio := rfl
@[simp] theorem Thread.setVb_qlink (t : Thread) (i : Nat) (b : Word32) : (t.setVb i b).qlink = t.qlink := rfl
@[simp] theorem Thread.setVb_rank (t : Thread) (i : Nat) (b : Word32) : (t.setVb i b).rank = t.rank := rfl
@[simp] theorem Thread.setVb_gsize (t : Thread) (i : Nat) (b : Word32) : (t.setVb i b).gsize = t.gsize := rfl
@[simp] theorem Thread.setVb_posted (t : Thread) (i : Nat) (b : Word32) : (t.setVb i b).posted = t.posted := rfl
@[simp] theorem Thread.setVb_lost (t : Thread) (i : Nat) (b : Word32) : (t.setVb i b).lost = t.lost := rfl
@[simp] theorem Thread.setVb_mailbox (t : Thread) (i : Nat) (b : Word32) : (t.setVb i b).mailbox = t.mailbox := rfl
@[simp] theorem Thread.setVb_sliceCnt (t : Thread) (i : Nat) (b : Word32) : (t.setVb i b).sliceCnt = t.sliceCnt := rfl
@[simp] theorem Thread.setVb_slicePend (t : Thread) (i : Nat) (b : Word32) : (t.setVb i b).slicePend = t.slicePend := rfl
@[simp] theorem Thread.setVb_waitTurns (t : Thread) (i : Nat) (b : Word32) : (t.setVb i b).waitTurns = t.waitTurns := rfl
@[simp] theorem Thread.setVb_woke (t : Thread) (i : Nat) (b : Word32) : (t.setVb i b).woke = t.woke := rfl
@[simp] theorem Thread.setVb_waitSince (t : Thread) (i : Nat) (b : Word32) : (t.setVb i b).waitSince = t.waitSince := rfl
@[simp] theorem Thread.setVb_saving (t : Thread) (i : Nat) (b : Word32) : (t.setVb i b).saving = t.saving := rfl
@[simp] theorem Thread.setVb_atPort (t : Thread) (i : Nat) (b : Word32) : (t.setVb i b).atPort = t.atPort := rfl
@[simp] theorem Thread.setVb_vals (t : Thread) (i : Nat) (b : Word32) : (t.setVb i b).vals = t.vals := rfl
@[simp] theorem Thread.setVb_taken (t : Thread) (i : Nat) (b : Word32) : (t.setVb i b).taken = t.taken := rfl
@[simp] theorem Thread.setVb_planes (t : Thread) (i : Nat) (b : Word32) : (t.setVb i b).planes = t.planes := rfl
@[simp] theorem Thread.setVb_regErr (t : Thread) (i : Nat) (b : Word32) : (t.setVb i b).regErr = t.regErr := rfl
@[simp] theorem Thread.setVb_copyGen (t : Thread) (i : Nat) (b : Word32) : (t.setVb i b).copyGen = t.copyGen := rfl
@[simp] theorem Thread.setVb_pre (t : Thread) (i : Nat) (b : Word32) : (t.setVb i b).pre = t.pre := rfl
@[simp] theorem Thread.setVb_purpose (t : Thread) (i : Nat) (b : Word32) : (t.setVb i b).purpose = t.purpose := rfl
@[simp] theorem Thread.setVb_firm (t : Thread) (i : Nat) (b : Word32) : (t.setVb i b).firm = t.firm := rfl
@[simp] theorem Thread.setVb_sends (t : Thread) (i : Nat) (b : Word32) : (t.setVb i b).sends = t.sends := rfl
@[simp] theorem Thread.setVb_arrive (t : Thread) (i : Nat) (b : Word32) : (t.setVb i b).arrive = t.arrive := rfl
@[simp] theorem Thread.setVb_atAnchor (t : Thread) (i : Nat) (b : Word32) : (t.setVb i b).atAnchor = t.atAnchor := rfl
@[simp] theorem Thread.setVb_reissue (t : Thread) (i : Nat) (b : Word32) : (t.setVb i b).reissue = t.reissue := rfl
@[simp] theorem Thread.setVb_bound (t : Thread) (i : Nat) (b : Word32) : (t.setVb i b).bound = t.bound := rfl
@[simp] theorem Thread.setVb_late (t : Thread) (i : Nat) (b : Word32) : (t.setVb i b).late = t.late := rfl
@[simp] theorem Thread.setVb_saveFor (t : Thread) (i : Nat) (b : Word32) : (t.setVb i b).saveFor = t.saveFor := rfl
@[simp] theorem Thread.setVb_killers (t : Thread) (i : Nat) (b : Word32) : (t.setVb i b).killers = t.killers := rfl

@[simp] theorem Thread.setVT_thid (t : Thread) (j i : Nat) (x : Vec) : (t.setVT j i x).thid = t.thid := rfl
@[simp] theorem Thread.setVT_part (t : Thread) (j i : Nat) (x : Vec) : (t.setVT j i x).part = t.part := rfl
@[simp] theorem Thread.setVT_kernel (t : Thread) (j i : Nat) (x : Vec) : (t.setVT j i x).kernel = t.kernel := rfl
@[simp] theorem Thread.setVT_task (t : Thread) (j i : Nat) (x : Vec) : (t.setVT j i x).task = t.task := rfl
@[simp] theorem Thread.setVT_core (t : Thread) (j i : Nat) (x : Vec) : (t.setVT j i x).core = t.core := rfl
@[simp] theorem Thread.setVT_life (t : Thread) (j i : Nat) (x : Vec) : (t.setVT j i x).life = t.life := rfl
@[simp] theorem Thread.setVT_wait (t : Thread) (j i : Nat) (x : Vec) : (t.setVT j i x).wait = t.wait := rfl
@[simp] theorem Thread.setVT_roaming (t : Thread) (j i : Nat) (x : Vec) : (t.setVT j i x).roaming = t.roaming := rfl
@[simp] theorem Thread.setVT_W (t : Thread) (j i : Nat) (x : Vec) : (t.setVT j i x).W = t.W := rfl
@[simp] theorem Thread.setVT_V (t : Thread) (j i : Nat) (x : Vec) : (t.setVT j i x).V = t.V := rfl
@[simp] theorem Thread.setVT_k (t : Thread) (j i : Nat) (x : Vec) : (t.setVT j i x).k = t.k := rfl
@[simp] theorem Thread.setVT_pc (t : Thread) (j i : Nat) (x : Vec) : (t.setVT j i x).pc = t.pc := rfl
@[simp] theorem Thread.setVT_pcMode (t : Thread) (j i : Nat) (x : Vec) : (t.setVT j i x).pcMode = t.pcMode := rfl
@[simp] theorem Thread.setVT_line (t : Thread) (j i : Nat) (x : Vec) : (t.setVT j i x).line = t.line := rfl
@[simp] theorem Thread.setVT_dualPfx (t : Thread) (j i : Nat) (x : Vec) : (t.setVT j i x).dualPfx = t.dualPfx := rfl
@[simp] theorem Thread.setVT_g (t : Thread) (j i : Nat) (x : Vec) : (t.setVT j i x).g = t.g := rfl
@[simp] theorem Thread.setVT_gEmpty (t : Thread) (j i : Nat) (x : Vec) : (t.setVT j i x).gEmpty = t.gEmpty := rfl
@[simp] theorem Thread.setVT_v (t : Thread) (j i : Nat) (x : Vec) : (t.setVT j i x).v = t.v := rfl
@[simp] theorem Thread.setVT_vb (t : Thread) (j i : Nat) (x : Vec) : (t.setVT j i x).vb = t.vb := rfl
@[simp] theorem Thread.setVT_gt (t : Thread) (j i : Nat) (x : Vec) : (t.setVT j i x).gt = t.gt := rfl
@[simp] theorem Thread.setVT_vt (t : Thread) (j i : Nat) (x : Vec) : (t.setVT j i x).vt = t.vt.put 0#512 (32 * j + i) x := rfl
@[simp] theorem Thread.setVT_vtb (t : Thread) (j i : Nat) (x : Vec) : (t.setVT j i x).vtb = t.vtb := rfl
@[simp] theorem Thread.setVT_pred (t : Thread) (j i : Nat) (x : Vec) : (t.setVT j i x).pred = t.pred := rfl
@[simp] theorem Thread.setVT_l (t : Thread) (j i : Nat) (x : Vec) : (t.setVT j i x).l = t.l := rfl
@[simp] theorem Thread.setVT_ev (t : Thread) (j i : Nat) (x : Vec) : (t.setVT j i x).ev = t.ev := rfl
@[simp] theorem Thread.setVT_outLd (t : Thread) (j i : Nat) (x : Vec) : (t.setVT j i x).outLd = t.outLd := rfl
@[simp] theorem Thread.setVT_outSt (t : Thread) (j i : Nat) (x : Vec) : (t.setVT j i x).outSt = t.outSt := rfl
@[simp] theorem Thread.setVT_outCp (t : Thread) (j i : Nat) (x : Vec) : (t.setVT j i x).outCp = t.outCp := rfl
@[simp] theorem Thread.setVT_outHr (t : Thread) (j i : Nat) (x : Vec) : (t.setVT j i x).outHr = t.outHr := rfl
@[simp] theorem Thread.setVT_loops (t : Thread) (j i : Nat) (x : Vec) : (t.setVT j i x).loops = t.loops := rfl
@[simp] theorem Thread.setVT_status (t : Thread) (j i : Nat) (x : Vec) : (t.setVT j i x).status = t.status := rfl
@[simp] theorem Thread.setVT_cAsync (t : Thread) (j i : Nat) (x : Vec) : (t.setVT j i x).cAsync = t.cAsync := rfl
@[simp] theorem Thread.setVT_cLost (t : Thread) (j i : Nat) (x : Vec) : (t.setVT j i x).cLost = t.cLost := rfl
@[simp] theorem Thread.setVT_cCode (t : Thread) (j i : Nat) (x : Vec) : (t.setVT j i x).cCode = t.cCode := rfl
@[simp] theorem Thread.setVT_tval (t : Thread) (j i : Nat) (x : Vec) : (t.setVT j i x).tval = t.tval := rfl
@[simp] theorem Thread.setVT_epc (t : Thread) (j i : Nat) (x : Vec) : (t.setVT j i x).epc = t.epc := rfl
@[simp] theorem Thread.setVT_tvec (t : Thread) (j i : Nat) (x : Vec) : (t.setVT j i x).tvec = t.tvec := rfl
@[simp] theorem Thread.setVT_fpctl (t : Thread) (j i : Nat) (x : Vec) : (t.setVT j i x).fpctl = t.fpctl := rfl
@[simp] theorem Thread.setVT_fpflags (t : Thread) (j i : Nat) (x : Vec) : (t.setVT j i x).fpflags = t.fpflags := rfl
@[simp] theorem Thread.setVT_tstride (t : Thread) (j i : Nat) (x : Vec) : (t.setVT j i x).tstride = t.tstride := rfl
@[simp] theorem Thread.setVT_bthr (t : Thread) (j i : Nat) (x : Vec) : (t.setVT j i x).bthr = t.bthr := rfl
@[simp] theorem Thread.setVT_slice (t : Thread) (j i : Nat) (x : Vec) : (t.setVT j i x).slice = t.slice := rfl
@[simp] theorem Thread.setVT_prio (t : Thread) (j i : Nat) (x : Vec) : (t.setVT j i x).prio = t.prio := rfl
@[simp] theorem Thread.setVT_qlink (t : Thread) (j i : Nat) (x : Vec) : (t.setVT j i x).qlink = t.qlink := rfl
@[simp] theorem Thread.setVT_rank (t : Thread) (j i : Nat) (x : Vec) : (t.setVT j i x).rank = t.rank := rfl
@[simp] theorem Thread.setVT_gsize (t : Thread) (j i : Nat) (x : Vec) : (t.setVT j i x).gsize = t.gsize := rfl
@[simp] theorem Thread.setVT_posted (t : Thread) (j i : Nat) (x : Vec) : (t.setVT j i x).posted = t.posted := rfl
@[simp] theorem Thread.setVT_lost (t : Thread) (j i : Nat) (x : Vec) : (t.setVT j i x).lost = t.lost := rfl
@[simp] theorem Thread.setVT_mailbox (t : Thread) (j i : Nat) (x : Vec) : (t.setVT j i x).mailbox = t.mailbox := rfl
@[simp] theorem Thread.setVT_sliceCnt (t : Thread) (j i : Nat) (x : Vec) : (t.setVT j i x).sliceCnt = t.sliceCnt := rfl
@[simp] theorem Thread.setVT_slicePend (t : Thread) (j i : Nat) (x : Vec) : (t.setVT j i x).slicePend = t.slicePend := rfl
@[simp] theorem Thread.setVT_waitTurns (t : Thread) (j i : Nat) (x : Vec) : (t.setVT j i x).waitTurns = t.waitTurns := rfl
@[simp] theorem Thread.setVT_woke (t : Thread) (j i : Nat) (x : Vec) : (t.setVT j i x).woke = t.woke := rfl
@[simp] theorem Thread.setVT_waitSince (t : Thread) (j i : Nat) (x : Vec) : (t.setVT j i x).waitSince = t.waitSince := rfl
@[simp] theorem Thread.setVT_saving (t : Thread) (j i : Nat) (x : Vec) : (t.setVT j i x).saving = t.saving := rfl
@[simp] theorem Thread.setVT_atPort (t : Thread) (j i : Nat) (x : Vec) : (t.setVT j i x).atPort = t.atPort := rfl
@[simp] theorem Thread.setVT_vals (t : Thread) (j i : Nat) (x : Vec) : (t.setVT j i x).vals = t.vals := rfl
@[simp] theorem Thread.setVT_taken (t : Thread) (j i : Nat) (x : Vec) : (t.setVT j i x).taken = t.taken := rfl
@[simp] theorem Thread.setVT_planes (t : Thread) (j i : Nat) (x : Vec) : (t.setVT j i x).planes = t.planes := rfl
@[simp] theorem Thread.setVT_regErr (t : Thread) (j i : Nat) (x : Vec) : (t.setVT j i x).regErr = t.regErr := rfl
@[simp] theorem Thread.setVT_copyGen (t : Thread) (j i : Nat) (x : Vec) : (t.setVT j i x).copyGen = t.copyGen := rfl
@[simp] theorem Thread.setVT_pre (t : Thread) (j i : Nat) (x : Vec) : (t.setVT j i x).pre = t.pre := rfl
@[simp] theorem Thread.setVT_purpose (t : Thread) (j i : Nat) (x : Vec) : (t.setVT j i x).purpose = t.purpose := rfl
@[simp] theorem Thread.setVT_firm (t : Thread) (j i : Nat) (x : Vec) : (t.setVT j i x).firm = t.firm := rfl
@[simp] theorem Thread.setVT_sends (t : Thread) (j i : Nat) (x : Vec) : (t.setVT j i x).sends = t.sends := rfl
@[simp] theorem Thread.setVT_arrive (t : Thread) (j i : Nat) (x : Vec) : (t.setVT j i x).arrive = t.arrive := rfl
@[simp] theorem Thread.setVT_atAnchor (t : Thread) (j i : Nat) (x : Vec) : (t.setVT j i x).atAnchor = t.atAnchor := rfl
@[simp] theorem Thread.setVT_reissue (t : Thread) (j i : Nat) (x : Vec) : (t.setVT j i x).reissue = t.reissue := rfl
@[simp] theorem Thread.setVT_bound (t : Thread) (j i : Nat) (x : Vec) : (t.setVT j i x).bound = t.bound := rfl
@[simp] theorem Thread.setVT_late (t : Thread) (j i : Nat) (x : Vec) : (t.setVT j i x).late = t.late := rfl
@[simp] theorem Thread.setVT_saveFor (t : Thread) (j i : Nat) (x : Vec) : (t.setVT j i x).saveFor = t.saveFor := rfl
@[simp] theorem Thread.setVT_killers (t : Thread) (j i : Nat) (x : Vec) : (t.setVT j i x).killers = t.killers := rfl

@[simp] theorem Thread.setVTb_thid (t : Thread) (j i : Nat) (b : Word32) : (t.setVTb j i b).thid = t.thid := rfl
@[simp] theorem Thread.setVTb_part (t : Thread) (j i : Nat) (b : Word32) : (t.setVTb j i b).part = t.part := rfl
@[simp] theorem Thread.setVTb_kernel (t : Thread) (j i : Nat) (b : Word32) : (t.setVTb j i b).kernel = t.kernel := rfl
@[simp] theorem Thread.setVTb_task (t : Thread) (j i : Nat) (b : Word32) : (t.setVTb j i b).task = t.task := rfl
@[simp] theorem Thread.setVTb_core (t : Thread) (j i : Nat) (b : Word32) : (t.setVTb j i b).core = t.core := rfl
@[simp] theorem Thread.setVTb_life (t : Thread) (j i : Nat) (b : Word32) : (t.setVTb j i b).life = t.life := rfl
@[simp] theorem Thread.setVTb_wait (t : Thread) (j i : Nat) (b : Word32) : (t.setVTb j i b).wait = t.wait := rfl
@[simp] theorem Thread.setVTb_roaming (t : Thread) (j i : Nat) (b : Word32) : (t.setVTb j i b).roaming = t.roaming := rfl
@[simp] theorem Thread.setVTb_W (t : Thread) (j i : Nat) (b : Word32) : (t.setVTb j i b).W = t.W := rfl
@[simp] theorem Thread.setVTb_V (t : Thread) (j i : Nat) (b : Word32) : (t.setVTb j i b).V = t.V := rfl
@[simp] theorem Thread.setVTb_k (t : Thread) (j i : Nat) (b : Word32) : (t.setVTb j i b).k = t.k := rfl
@[simp] theorem Thread.setVTb_pc (t : Thread) (j i : Nat) (b : Word32) : (t.setVTb j i b).pc = t.pc := rfl
@[simp] theorem Thread.setVTb_pcMode (t : Thread) (j i : Nat) (b : Word32) : (t.setVTb j i b).pcMode = t.pcMode := rfl
@[simp] theorem Thread.setVTb_line (t : Thread) (j i : Nat) (b : Word32) : (t.setVTb j i b).line = t.line := rfl
@[simp] theorem Thread.setVTb_dualPfx (t : Thread) (j i : Nat) (b : Word32) : (t.setVTb j i b).dualPfx = t.dualPfx := rfl
@[simp] theorem Thread.setVTb_g (t : Thread) (j i : Nat) (b : Word32) : (t.setVTb j i b).g = t.g := rfl
@[simp] theorem Thread.setVTb_gEmpty (t : Thread) (j i : Nat) (b : Word32) : (t.setVTb j i b).gEmpty = t.gEmpty := rfl
@[simp] theorem Thread.setVTb_v (t : Thread) (j i : Nat) (b : Word32) : (t.setVTb j i b).v = t.v := rfl
@[simp] theorem Thread.setVTb_vb (t : Thread) (j i : Nat) (b : Word32) : (t.setVTb j i b).vb = t.vb := rfl
@[simp] theorem Thread.setVTb_gt (t : Thread) (j i : Nat) (b : Word32) : (t.setVTb j i b).gt = t.gt := rfl
@[simp] theorem Thread.setVTb_vt (t : Thread) (j i : Nat) (b : Word32) : (t.setVTb j i b).vt = t.vt := rfl
@[simp] theorem Thread.setVTb_vtb (t : Thread) (j i : Nat) (b : Word32) : (t.setVTb j i b).vtb = t.vtb.put 0#32 (32 * j + i) b := rfl
@[simp] theorem Thread.setVTb_pred (t : Thread) (j i : Nat) (b : Word32) : (t.setVTb j i b).pred = t.pred := rfl
@[simp] theorem Thread.setVTb_l (t : Thread) (j i : Nat) (b : Word32) : (t.setVTb j i b).l = t.l := rfl
@[simp] theorem Thread.setVTb_ev (t : Thread) (j i : Nat) (b : Word32) : (t.setVTb j i b).ev = t.ev := rfl
@[simp] theorem Thread.setVTb_outLd (t : Thread) (j i : Nat) (b : Word32) : (t.setVTb j i b).outLd = t.outLd := rfl
@[simp] theorem Thread.setVTb_outSt (t : Thread) (j i : Nat) (b : Word32) : (t.setVTb j i b).outSt = t.outSt := rfl
@[simp] theorem Thread.setVTb_outCp (t : Thread) (j i : Nat) (b : Word32) : (t.setVTb j i b).outCp = t.outCp := rfl
@[simp] theorem Thread.setVTb_outHr (t : Thread) (j i : Nat) (b : Word32) : (t.setVTb j i b).outHr = t.outHr := rfl
@[simp] theorem Thread.setVTb_loops (t : Thread) (j i : Nat) (b : Word32) : (t.setVTb j i b).loops = t.loops := rfl
@[simp] theorem Thread.setVTb_status (t : Thread) (j i : Nat) (b : Word32) : (t.setVTb j i b).status = t.status := rfl
@[simp] theorem Thread.setVTb_cAsync (t : Thread) (j i : Nat) (b : Word32) : (t.setVTb j i b).cAsync = t.cAsync := rfl
@[simp] theorem Thread.setVTb_cLost (t : Thread) (j i : Nat) (b : Word32) : (t.setVTb j i b).cLost = t.cLost := rfl
@[simp] theorem Thread.setVTb_cCode (t : Thread) (j i : Nat) (b : Word32) : (t.setVTb j i b).cCode = t.cCode := rfl
@[simp] theorem Thread.setVTb_tval (t : Thread) (j i : Nat) (b : Word32) : (t.setVTb j i b).tval = t.tval := rfl
@[simp] theorem Thread.setVTb_epc (t : Thread) (j i : Nat) (b : Word32) : (t.setVTb j i b).epc = t.epc := rfl
@[simp] theorem Thread.setVTb_tvec (t : Thread) (j i : Nat) (b : Word32) : (t.setVTb j i b).tvec = t.tvec := rfl
@[simp] theorem Thread.setVTb_fpctl (t : Thread) (j i : Nat) (b : Word32) : (t.setVTb j i b).fpctl = t.fpctl := rfl
@[simp] theorem Thread.setVTb_fpflags (t : Thread) (j i : Nat) (b : Word32) : (t.setVTb j i b).fpflags = t.fpflags := rfl
@[simp] theorem Thread.setVTb_tstride (t : Thread) (j i : Nat) (b : Word32) : (t.setVTb j i b).tstride = t.tstride := rfl
@[simp] theorem Thread.setVTb_bthr (t : Thread) (j i : Nat) (b : Word32) : (t.setVTb j i b).bthr = t.bthr := rfl
@[simp] theorem Thread.setVTb_slice (t : Thread) (j i : Nat) (b : Word32) : (t.setVTb j i b).slice = t.slice := rfl
@[simp] theorem Thread.setVTb_prio (t : Thread) (j i : Nat) (b : Word32) : (t.setVTb j i b).prio = t.prio := rfl
@[simp] theorem Thread.setVTb_qlink (t : Thread) (j i : Nat) (b : Word32) : (t.setVTb j i b).qlink = t.qlink := rfl
@[simp] theorem Thread.setVTb_rank (t : Thread) (j i : Nat) (b : Word32) : (t.setVTb j i b).rank = t.rank := rfl
@[simp] theorem Thread.setVTb_gsize (t : Thread) (j i : Nat) (b : Word32) : (t.setVTb j i b).gsize = t.gsize := rfl
@[simp] theorem Thread.setVTb_posted (t : Thread) (j i : Nat) (b : Word32) : (t.setVTb j i b).posted = t.posted := rfl
@[simp] theorem Thread.setVTb_lost (t : Thread) (j i : Nat) (b : Word32) : (t.setVTb j i b).lost = t.lost := rfl
@[simp] theorem Thread.setVTb_mailbox (t : Thread) (j i : Nat) (b : Word32) : (t.setVTb j i b).mailbox = t.mailbox := rfl
@[simp] theorem Thread.setVTb_sliceCnt (t : Thread) (j i : Nat) (b : Word32) : (t.setVTb j i b).sliceCnt = t.sliceCnt := rfl
@[simp] theorem Thread.setVTb_slicePend (t : Thread) (j i : Nat) (b : Word32) : (t.setVTb j i b).slicePend = t.slicePend := rfl
@[simp] theorem Thread.setVTb_waitTurns (t : Thread) (j i : Nat) (b : Word32) : (t.setVTb j i b).waitTurns = t.waitTurns := rfl
@[simp] theorem Thread.setVTb_woke (t : Thread) (j i : Nat) (b : Word32) : (t.setVTb j i b).woke = t.woke := rfl
@[simp] theorem Thread.setVTb_waitSince (t : Thread) (j i : Nat) (b : Word32) : (t.setVTb j i b).waitSince = t.waitSince := rfl
@[simp] theorem Thread.setVTb_saving (t : Thread) (j i : Nat) (b : Word32) : (t.setVTb j i b).saving = t.saving := rfl
@[simp] theorem Thread.setVTb_atPort (t : Thread) (j i : Nat) (b : Word32) : (t.setVTb j i b).atPort = t.atPort := rfl
@[simp] theorem Thread.setVTb_vals (t : Thread) (j i : Nat) (b : Word32) : (t.setVTb j i b).vals = t.vals := rfl
@[simp] theorem Thread.setVTb_taken (t : Thread) (j i : Nat) (b : Word32) : (t.setVTb j i b).taken = t.taken := rfl
@[simp] theorem Thread.setVTb_planes (t : Thread) (j i : Nat) (b : Word32) : (t.setVTb j i b).planes = t.planes := rfl
@[simp] theorem Thread.setVTb_regErr (t : Thread) (j i : Nat) (b : Word32) : (t.setVTb j i b).regErr = t.regErr := rfl
@[simp] theorem Thread.setVTb_copyGen (t : Thread) (j i : Nat) (b : Word32) : (t.setVTb j i b).copyGen = t.copyGen := rfl
@[simp] theorem Thread.setVTb_pre (t : Thread) (j i : Nat) (b : Word32) : (t.setVTb j i b).pre = t.pre := rfl
@[simp] theorem Thread.setVTb_purpose (t : Thread) (j i : Nat) (b : Word32) : (t.setVTb j i b).purpose = t.purpose := rfl
@[simp] theorem Thread.setVTb_firm (t : Thread) (j i : Nat) (b : Word32) : (t.setVTb j i b).firm = t.firm := rfl
@[simp] theorem Thread.setVTb_sends (t : Thread) (j i : Nat) (b : Word32) : (t.setVTb j i b).sends = t.sends := rfl
@[simp] theorem Thread.setVTb_arrive (t : Thread) (j i : Nat) (b : Word32) : (t.setVTb j i b).arrive = t.arrive := rfl
@[simp] theorem Thread.setVTb_atAnchor (t : Thread) (j i : Nat) (b : Word32) : (t.setVTb j i b).atAnchor = t.atAnchor := rfl
@[simp] theorem Thread.setVTb_reissue (t : Thread) (j i : Nat) (b : Word32) : (t.setVTb j i b).reissue = t.reissue := rfl
@[simp] theorem Thread.setVTb_bound (t : Thread) (j i : Nat) (b : Word32) : (t.setVTb j i b).bound = t.bound := rfl
@[simp] theorem Thread.setVTb_late (t : Thread) (j i : Nat) (b : Word32) : (t.setVTb j i b).late = t.late := rfl
@[simp] theorem Thread.setVTb_saveFor (t : Thread) (j i : Nat) (b : Word32) : (t.setVTb j i b).saveFor = t.saveFor := rfl
@[simp] theorem Thread.setVTb_killers (t : Thread) (j i : Nat) (b : Word32) : (t.setVTb j i b).killers = t.killers := rfl

@[simp] theorem Thread.setL_thid (t : Thread) (i : Nat) (x : Word32) : (t.setL i x).thid = t.thid := rfl
@[simp] theorem Thread.setL_part (t : Thread) (i : Nat) (x : Word32) : (t.setL i x).part = t.part := rfl
@[simp] theorem Thread.setL_kernel (t : Thread) (i : Nat) (x : Word32) : (t.setL i x).kernel = t.kernel := rfl
@[simp] theorem Thread.setL_task (t : Thread) (i : Nat) (x : Word32) : (t.setL i x).task = t.task := rfl
@[simp] theorem Thread.setL_core (t : Thread) (i : Nat) (x : Word32) : (t.setL i x).core = t.core := rfl
@[simp] theorem Thread.setL_life (t : Thread) (i : Nat) (x : Word32) : (t.setL i x).life = t.life := rfl
@[simp] theorem Thread.setL_wait (t : Thread) (i : Nat) (x : Word32) : (t.setL i x).wait = t.wait := rfl
@[simp] theorem Thread.setL_roaming (t : Thread) (i : Nat) (x : Word32) : (t.setL i x).roaming = t.roaming := rfl
@[simp] theorem Thread.setL_W (t : Thread) (i : Nat) (x : Word32) : (t.setL i x).W = t.W := rfl
@[simp] theorem Thread.setL_V (t : Thread) (i : Nat) (x : Word32) : (t.setL i x).V = t.V := rfl
@[simp] theorem Thread.setL_k (t : Thread) (i : Nat) (x : Word32) : (t.setL i x).k = t.k := rfl
@[simp] theorem Thread.setL_pc (t : Thread) (i : Nat) (x : Word32) : (t.setL i x).pc = t.pc := rfl
@[simp] theorem Thread.setL_pcMode (t : Thread) (i : Nat) (x : Word32) : (t.setL i x).pcMode = t.pcMode := rfl
@[simp] theorem Thread.setL_line (t : Thread) (i : Nat) (x : Word32) : (t.setL i x).line = t.line := rfl
@[simp] theorem Thread.setL_dualPfx (t : Thread) (i : Nat) (x : Word32) : (t.setL i x).dualPfx = t.dualPfx := rfl
@[simp] theorem Thread.setL_g (t : Thread) (i : Nat) (x : Word32) : (t.setL i x).g = t.g := rfl
@[simp] theorem Thread.setL_gEmpty (t : Thread) (i : Nat) (x : Word32) : (t.setL i x).gEmpty = t.gEmpty := rfl
@[simp] theorem Thread.setL_v (t : Thread) (i : Nat) (x : Word32) : (t.setL i x).v = t.v := rfl
@[simp] theorem Thread.setL_vb (t : Thread) (i : Nat) (x : Word32) : (t.setL i x).vb = t.vb := rfl
@[simp] theorem Thread.setL_gt (t : Thread) (i : Nat) (x : Word32) : (t.setL i x).gt = t.gt := rfl
@[simp] theorem Thread.setL_vt (t : Thread) (i : Nat) (x : Word32) : (t.setL i x).vt = t.vt := rfl
@[simp] theorem Thread.setL_vtb (t : Thread) (i : Nat) (x : Word32) : (t.setL i x).vtb = t.vtb := rfl
@[simp] theorem Thread.setL_pred (t : Thread) (i : Nat) (x : Word32) : (t.setL i x).pred = t.pred := rfl
@[simp] theorem Thread.setL_l (t : Thread) (i : Nat) (x : Word32) : (t.setL i x).l = t.l.put 0#32 i x := rfl
@[simp] theorem Thread.setL_ev (t : Thread) (i : Nat) (x : Word32) : (t.setL i x).ev = t.ev := rfl
@[simp] theorem Thread.setL_outLd (t : Thread) (i : Nat) (x : Word32) : (t.setL i x).outLd = t.outLd := rfl
@[simp] theorem Thread.setL_outSt (t : Thread) (i : Nat) (x : Word32) : (t.setL i x).outSt = t.outSt := rfl
@[simp] theorem Thread.setL_outCp (t : Thread) (i : Nat) (x : Word32) : (t.setL i x).outCp = t.outCp := rfl
@[simp] theorem Thread.setL_outHr (t : Thread) (i : Nat) (x : Word32) : (t.setL i x).outHr = t.outHr := rfl
@[simp] theorem Thread.setL_loops (t : Thread) (i : Nat) (x : Word32) : (t.setL i x).loops = t.loops := rfl
@[simp] theorem Thread.setL_status (t : Thread) (i : Nat) (x : Word32) : (t.setL i x).status = t.status := rfl
@[simp] theorem Thread.setL_cAsync (t : Thread) (i : Nat) (x : Word32) : (t.setL i x).cAsync = t.cAsync := rfl
@[simp] theorem Thread.setL_cLost (t : Thread) (i : Nat) (x : Word32) : (t.setL i x).cLost = t.cLost := rfl
@[simp] theorem Thread.setL_cCode (t : Thread) (i : Nat) (x : Word32) : (t.setL i x).cCode = t.cCode := rfl
@[simp] theorem Thread.setL_tval (t : Thread) (i : Nat) (x : Word32) : (t.setL i x).tval = t.tval := rfl
@[simp] theorem Thread.setL_epc (t : Thread) (i : Nat) (x : Word32) : (t.setL i x).epc = t.epc := rfl
@[simp] theorem Thread.setL_tvec (t : Thread) (i : Nat) (x : Word32) : (t.setL i x).tvec = t.tvec := rfl
@[simp] theorem Thread.setL_fpctl (t : Thread) (i : Nat) (x : Word32) : (t.setL i x).fpctl = t.fpctl := rfl
@[simp] theorem Thread.setL_fpflags (t : Thread) (i : Nat) (x : Word32) : (t.setL i x).fpflags = t.fpflags := rfl
@[simp] theorem Thread.setL_tstride (t : Thread) (i : Nat) (x : Word32) : (t.setL i x).tstride = t.tstride := rfl
@[simp] theorem Thread.setL_bthr (t : Thread) (i : Nat) (x : Word32) : (t.setL i x).bthr = t.bthr := rfl
@[simp] theorem Thread.setL_slice (t : Thread) (i : Nat) (x : Word32) : (t.setL i x).slice = t.slice := rfl
@[simp] theorem Thread.setL_prio (t : Thread) (i : Nat) (x : Word32) : (t.setL i x).prio = t.prio := rfl
@[simp] theorem Thread.setL_qlink (t : Thread) (i : Nat) (x : Word32) : (t.setL i x).qlink = t.qlink := rfl
@[simp] theorem Thread.setL_rank (t : Thread) (i : Nat) (x : Word32) : (t.setL i x).rank = t.rank := rfl
@[simp] theorem Thread.setL_gsize (t : Thread) (i : Nat) (x : Word32) : (t.setL i x).gsize = t.gsize := rfl
@[simp] theorem Thread.setL_posted (t : Thread) (i : Nat) (x : Word32) : (t.setL i x).posted = t.posted := rfl
@[simp] theorem Thread.setL_lost (t : Thread) (i : Nat) (x : Word32) : (t.setL i x).lost = t.lost := rfl
@[simp] theorem Thread.setL_mailbox (t : Thread) (i : Nat) (x : Word32) : (t.setL i x).mailbox = t.mailbox := rfl
@[simp] theorem Thread.setL_sliceCnt (t : Thread) (i : Nat) (x : Word32) : (t.setL i x).sliceCnt = t.sliceCnt := rfl
@[simp] theorem Thread.setL_slicePend (t : Thread) (i : Nat) (x : Word32) : (t.setL i x).slicePend = t.slicePend := rfl
@[simp] theorem Thread.setL_waitTurns (t : Thread) (i : Nat) (x : Word32) : (t.setL i x).waitTurns = t.waitTurns := rfl
@[simp] theorem Thread.setL_woke (t : Thread) (i : Nat) (x : Word32) : (t.setL i x).woke = t.woke := rfl
@[simp] theorem Thread.setL_waitSince (t : Thread) (i : Nat) (x : Word32) : (t.setL i x).waitSince = t.waitSince := rfl
@[simp] theorem Thread.setL_saving (t : Thread) (i : Nat) (x : Word32) : (t.setL i x).saving = t.saving := rfl
@[simp] theorem Thread.setL_atPort (t : Thread) (i : Nat) (x : Word32) : (t.setL i x).atPort = t.atPort := rfl
@[simp] theorem Thread.setL_vals (t : Thread) (i : Nat) (x : Word32) : (t.setL i x).vals = t.vals := rfl
@[simp] theorem Thread.setL_taken (t : Thread) (i : Nat) (x : Word32) : (t.setL i x).taken = t.taken := rfl
@[simp] theorem Thread.setL_planes (t : Thread) (i : Nat) (x : Word32) : (t.setL i x).planes = t.planes := rfl
@[simp] theorem Thread.setL_regErr (t : Thread) (i : Nat) (x : Word32) : (t.setL i x).regErr = t.regErr := rfl
@[simp] theorem Thread.setL_copyGen (t : Thread) (i : Nat) (x : Word32) : (t.setL i x).copyGen = t.copyGen := rfl
@[simp] theorem Thread.setL_pre (t : Thread) (i : Nat) (x : Word32) : (t.setL i x).pre = t.pre := rfl
@[simp] theorem Thread.setL_purpose (t : Thread) (i : Nat) (x : Word32) : (t.setL i x).purpose = t.purpose := rfl
@[simp] theorem Thread.setL_firm (t : Thread) (i : Nat) (x : Word32) : (t.setL i x).firm = t.firm := rfl
@[simp] theorem Thread.setL_sends (t : Thread) (i : Nat) (x : Word32) : (t.setL i x).sends = t.sends := rfl
@[simp] theorem Thread.setL_arrive (t : Thread) (i : Nat) (x : Word32) : (t.setL i x).arrive = t.arrive := rfl
@[simp] theorem Thread.setL_atAnchor (t : Thread) (i : Nat) (x : Word32) : (t.setL i x).atAnchor = t.atAnchor := rfl
@[simp] theorem Thread.setL_reissue (t : Thread) (i : Nat) (x : Word32) : (t.setL i x).reissue = t.reissue := rfl
@[simp] theorem Thread.setL_bound (t : Thread) (i : Nat) (x : Word32) : (t.setL i x).bound = t.bound := rfl
@[simp] theorem Thread.setL_late (t : Thread) (i : Nat) (x : Word32) : (t.setL i x).late = t.late := rfl
@[simp] theorem Thread.setL_saveFor (t : Thread) (i : Nat) (x : Word32) : (t.setL i x).saveFor = t.saveFor := rfl
@[simp] theorem Thread.setL_killers (t : Thread) (i : Nat) (x : Word32) : (t.setL i x).killers = t.killers := rfl

@[simp] theorem Thread.setFull_thid (t : Thread) (i : Nat) (f : Bool) : (t.setFull i f).thid = t.thid := rfl
@[simp] theorem Thread.setFull_part (t : Thread) (i : Nat) (f : Bool) : (t.setFull i f).part = t.part := rfl
@[simp] theorem Thread.setFull_kernel (t : Thread) (i : Nat) (f : Bool) : (t.setFull i f).kernel = t.kernel := rfl
@[simp] theorem Thread.setFull_task (t : Thread) (i : Nat) (f : Bool) : (t.setFull i f).task = t.task := rfl
@[simp] theorem Thread.setFull_core (t : Thread) (i : Nat) (f : Bool) : (t.setFull i f).core = t.core := rfl
@[simp] theorem Thread.setFull_life (t : Thread) (i : Nat) (f : Bool) : (t.setFull i f).life = t.life := rfl
@[simp] theorem Thread.setFull_wait (t : Thread) (i : Nat) (f : Bool) : (t.setFull i f).wait = t.wait := rfl
@[simp] theorem Thread.setFull_roaming (t : Thread) (i : Nat) (f : Bool) : (t.setFull i f).roaming = t.roaming := rfl
@[simp] theorem Thread.setFull_W (t : Thread) (i : Nat) (f : Bool) : (t.setFull i f).W = t.W := rfl
@[simp] theorem Thread.setFull_V (t : Thread) (i : Nat) (f : Bool) : (t.setFull i f).V = t.V := rfl
@[simp] theorem Thread.setFull_k (t : Thread) (i : Nat) (f : Bool) : (t.setFull i f).k = t.k := rfl
@[simp] theorem Thread.setFull_pc (t : Thread) (i : Nat) (f : Bool) : (t.setFull i f).pc = t.pc := rfl
@[simp] theorem Thread.setFull_pcMode (t : Thread) (i : Nat) (f : Bool) : (t.setFull i f).pcMode = t.pcMode := rfl
@[simp] theorem Thread.setFull_line (t : Thread) (i : Nat) (f : Bool) : (t.setFull i f).line = t.line := rfl
@[simp] theorem Thread.setFull_dualPfx (t : Thread) (i : Nat) (f : Bool) : (t.setFull i f).dualPfx = t.dualPfx := rfl
@[simp] theorem Thread.setFull_g (t : Thread) (i : Nat) (f : Bool) : (t.setFull i f).g = t.g := rfl
@[simp] theorem Thread.setFull_gEmpty (t : Thread) (i : Nat) (f : Bool) : (t.setFull i f).gEmpty = if f then t.gEmpty.filter (· != i) else if t.gEmpty.contains i then t.gEmpty else i :: t.gEmpty := rfl
@[simp] theorem Thread.setFull_v (t : Thread) (i : Nat) (f : Bool) : (t.setFull i f).v = t.v := rfl
@[simp] theorem Thread.setFull_vb (t : Thread) (i : Nat) (f : Bool) : (t.setFull i f).vb = t.vb := rfl
@[simp] theorem Thread.setFull_gt (t : Thread) (i : Nat) (f : Bool) : (t.setFull i f).gt = t.gt := rfl
@[simp] theorem Thread.setFull_vt (t : Thread) (i : Nat) (f : Bool) : (t.setFull i f).vt = t.vt := rfl
@[simp] theorem Thread.setFull_vtb (t : Thread) (i : Nat) (f : Bool) : (t.setFull i f).vtb = t.vtb := rfl
@[simp] theorem Thread.setFull_pred (t : Thread) (i : Nat) (f : Bool) : (t.setFull i f).pred = t.pred := rfl
@[simp] theorem Thread.setFull_l (t : Thread) (i : Nat) (f : Bool) : (t.setFull i f).l = t.l := rfl
@[simp] theorem Thread.setFull_ev (t : Thread) (i : Nat) (f : Bool) : (t.setFull i f).ev = t.ev := rfl
@[simp] theorem Thread.setFull_outLd (t : Thread) (i : Nat) (f : Bool) : (t.setFull i f).outLd = t.outLd := rfl
@[simp] theorem Thread.setFull_outSt (t : Thread) (i : Nat) (f : Bool) : (t.setFull i f).outSt = t.outSt := rfl
@[simp] theorem Thread.setFull_outCp (t : Thread) (i : Nat) (f : Bool) : (t.setFull i f).outCp = t.outCp := rfl
@[simp] theorem Thread.setFull_outHr (t : Thread) (i : Nat) (f : Bool) : (t.setFull i f).outHr = t.outHr := rfl
@[simp] theorem Thread.setFull_loops (t : Thread) (i : Nat) (f : Bool) : (t.setFull i f).loops = t.loops := rfl
@[simp] theorem Thread.setFull_status (t : Thread) (i : Nat) (f : Bool) : (t.setFull i f).status = t.status := rfl
@[simp] theorem Thread.setFull_cAsync (t : Thread) (i : Nat) (f : Bool) : (t.setFull i f).cAsync = t.cAsync := rfl
@[simp] theorem Thread.setFull_cLost (t : Thread) (i : Nat) (f : Bool) : (t.setFull i f).cLost = t.cLost := rfl
@[simp] theorem Thread.setFull_cCode (t : Thread) (i : Nat) (f : Bool) : (t.setFull i f).cCode = t.cCode := rfl
@[simp] theorem Thread.setFull_tval (t : Thread) (i : Nat) (f : Bool) : (t.setFull i f).tval = t.tval := rfl
@[simp] theorem Thread.setFull_epc (t : Thread) (i : Nat) (f : Bool) : (t.setFull i f).epc = t.epc := rfl
@[simp] theorem Thread.setFull_tvec (t : Thread) (i : Nat) (f : Bool) : (t.setFull i f).tvec = t.tvec := rfl
@[simp] theorem Thread.setFull_fpctl (t : Thread) (i : Nat) (f : Bool) : (t.setFull i f).fpctl = t.fpctl := rfl
@[simp] theorem Thread.setFull_fpflags (t : Thread) (i : Nat) (f : Bool) : (t.setFull i f).fpflags = t.fpflags := rfl
@[simp] theorem Thread.setFull_tstride (t : Thread) (i : Nat) (f : Bool) : (t.setFull i f).tstride = t.tstride := rfl
@[simp] theorem Thread.setFull_bthr (t : Thread) (i : Nat) (f : Bool) : (t.setFull i f).bthr = t.bthr := rfl
@[simp] theorem Thread.setFull_slice (t : Thread) (i : Nat) (f : Bool) : (t.setFull i f).slice = t.slice := rfl
@[simp] theorem Thread.setFull_prio (t : Thread) (i : Nat) (f : Bool) : (t.setFull i f).prio = t.prio := rfl
@[simp] theorem Thread.setFull_qlink (t : Thread) (i : Nat) (f : Bool) : (t.setFull i f).qlink = t.qlink := rfl
@[simp] theorem Thread.setFull_rank (t : Thread) (i : Nat) (f : Bool) : (t.setFull i f).rank = t.rank := rfl
@[simp] theorem Thread.setFull_gsize (t : Thread) (i : Nat) (f : Bool) : (t.setFull i f).gsize = t.gsize := rfl
@[simp] theorem Thread.setFull_posted (t : Thread) (i : Nat) (f : Bool) : (t.setFull i f).posted = t.posted := rfl
@[simp] theorem Thread.setFull_lost (t : Thread) (i : Nat) (f : Bool) : (t.setFull i f).lost = t.lost := rfl
@[simp] theorem Thread.setFull_mailbox (t : Thread) (i : Nat) (f : Bool) : (t.setFull i f).mailbox = t.mailbox := rfl
@[simp] theorem Thread.setFull_sliceCnt (t : Thread) (i : Nat) (f : Bool) : (t.setFull i f).sliceCnt = t.sliceCnt := rfl
@[simp] theorem Thread.setFull_slicePend (t : Thread) (i : Nat) (f : Bool) : (t.setFull i f).slicePend = t.slicePend := rfl
@[simp] theorem Thread.setFull_waitTurns (t : Thread) (i : Nat) (f : Bool) : (t.setFull i f).waitTurns = t.waitTurns := rfl
@[simp] theorem Thread.setFull_woke (t : Thread) (i : Nat) (f : Bool) : (t.setFull i f).woke = t.woke := rfl
@[simp] theorem Thread.setFull_waitSince (t : Thread) (i : Nat) (f : Bool) : (t.setFull i f).waitSince = t.waitSince := rfl
@[simp] theorem Thread.setFull_saving (t : Thread) (i : Nat) (f : Bool) : (t.setFull i f).saving = t.saving := rfl
@[simp] theorem Thread.setFull_atPort (t : Thread) (i : Nat) (f : Bool) : (t.setFull i f).atPort = t.atPort := rfl
@[simp] theorem Thread.setFull_vals (t : Thread) (i : Nat) (f : Bool) : (t.setFull i f).vals = t.vals := rfl
@[simp] theorem Thread.setFull_taken (t : Thread) (i : Nat) (f : Bool) : (t.setFull i f).taken = t.taken := rfl
@[simp] theorem Thread.setFull_planes (t : Thread) (i : Nat) (f : Bool) : (t.setFull i f).planes = t.planes := rfl
@[simp] theorem Thread.setFull_regErr (t : Thread) (i : Nat) (f : Bool) : (t.setFull i f).regErr = t.regErr := rfl
@[simp] theorem Thread.setFull_copyGen (t : Thread) (i : Nat) (f : Bool) : (t.setFull i f).copyGen = t.copyGen := rfl
@[simp] theorem Thread.setFull_pre (t : Thread) (i : Nat) (f : Bool) : (t.setFull i f).pre = t.pre := rfl
@[simp] theorem Thread.setFull_purpose (t : Thread) (i : Nat) (f : Bool) : (t.setFull i f).purpose = t.purpose := rfl
@[simp] theorem Thread.setFull_firm (t : Thread) (i : Nat) (f : Bool) : (t.setFull i f).firm = t.firm := rfl
@[simp] theorem Thread.setFull_sends (t : Thread) (i : Nat) (f : Bool) : (t.setFull i f).sends = t.sends := rfl
@[simp] theorem Thread.setFull_arrive (t : Thread) (i : Nat) (f : Bool) : (t.setFull i f).arrive = t.arrive := rfl
@[simp] theorem Thread.setFull_atAnchor (t : Thread) (i : Nat) (f : Bool) : (t.setFull i f).atAnchor = t.atAnchor := rfl
@[simp] theorem Thread.setFull_reissue (t : Thread) (i : Nat) (f : Bool) : (t.setFull i f).reissue = t.reissue := rfl
@[simp] theorem Thread.setFull_bound (t : Thread) (i : Nat) (f : Bool) : (t.setFull i f).bound = t.bound := rfl
@[simp] theorem Thread.setFull_late (t : Thread) (i : Nat) (f : Bool) : (t.setFull i f).late = t.late := rfl
@[simp] theorem Thread.setFull_saveFor (t : Thread) (i : Nat) (f : Bool) : (t.setFull i f).saveFor = t.saveFor := rfl
@[simp] theorem Thread.setFull_killers (t : Thread) (i : Nat) (f : Bool) : (t.setFull i f).killers = t.killers := rfl

/-! ### Updates of a core -/

@[simp] theorem Core.spWrite_pcore (c : Core) (a : Nat) (bs : List Byte) : (c.spWrite a bs).pcore = c.pcore := rfl
@[simp] theorem Core.spWrite_lcore (c : Core) (a : Nat) (bs : List Byte) : (c.spWrite a bs).lcore = c.lcore := rfl
@[simp] theorem Core.spWrite_serial (c : Core) (a : Nat) (bs : List Byte) : (c.spWrite a bs).serial = c.serial := rfl
@[simp] theorem Core.spWrite_numNext (c : Core) (a : Nat) (bs : List Byte) : (c.spWrite a bs).numNext = c.numNext := rfl
@[simp] theorem Core.spWrite_resv (c : Core) (a : Nat) (bs : List Byte) : (c.spWrite a bs).resv = c.resv := rfl
@[simp] theorem Core.spWrite_run (c : Core) (a : Nat) (bs : List Byte) : (c.spWrite a bs).run = c.run := rfl
@[simp] theorem Core.spWrite_tcc (c : Core) (a : Nat) (bs : List Byte) : (c.spWrite a bs).tcc = c.tcc := rfl
@[simp] theorem Core.spWrite_shared (c : Core) (a : Nat) (bs : List Byte) : (c.spWrite a bs).shared = c.shared := rfl
@[simp] theorem Core.spWrite_sp (c : Core) (a : Nat) (bs : List Byte) : (c.spWrite a bs).sp = c.sp.putRun 0#8 a bs := rfl
@[simp] theorem Core.spWrite_spBound (c : Core) (a : Nat) (bs : List Byte) : (c.spWrite a bs).spBound = c.spBound := rfl
@[simp] theorem Core.spWrite_softErr (c : Core) (a : Nat) (bs : List Byte) : (c.spWrite a bs).softErr = c.softErr := rfl
@[simp] theorem Core.spWrite_sregErr (c : Core) (a : Nat) (bs : List Byte) : (c.spWrite a bs).sregErr = c.sregErr := rfl
@[simp] theorem Core.spWrite_fmt (c : Core) (a : Nat) (bs : List Byte) : (c.spWrite a bs).fmt = c.fmt := rfl
@[simp] theorem Core.spWrite_cb (c : Core) (a : Nat) (bs : List Byte) : (c.spWrite a bs).cb = c.cb := rfl
@[simp] theorem Core.spWrite_stencil (c : Core) (a : Nat) (bs : List Byte) : (c.spWrite a bs).stencil = c.stencil := rfl
@[simp] theorem Core.spWrite_stWait (c : Core) (a : Nat) (bs : List Byte) : (c.spWrite a bs).stWait = c.stWait := rfl
@[simp] theorem Core.spWrite_codeRuns (c : Core) (a : Nat) (bs : List Byte) : (c.spWrite a bs).codeRuns = c.codeRuns := rfl
@[simp] theorem Core.spWrite_code (c : Core) (a : Nat) (bs : List Byte) : (c.spWrite a bs).code = c.code := rfl
@[simp] theorem Core.spWrite_pend (c : Core) (a : Nat) (bs : List Byte) : (c.spWrite a bs).pend = c.pend := rfl
@[simp] theorem Core.spWrite_tlb (c : Core) (a : Nat) (bs : List Byte) : (c.spWrite a bs).tlb = c.tlb := rfl
@[simp] theorem Core.spWrite_walk (c : Core) (a : Nat) (bs : List Byte) : (c.spWrite a bs).walk = c.walk := rfl
@[simp] theorem Core.spWrite_inq (c : Core) (a : Nat) (bs : List Byte) : (c.spWrite a bs).inq = c.inq := rfl
@[simp] theorem Core.spWrite_credUsed (c : Core) (a : Nat) (bs : List Byte) : (c.spWrite a bs).credUsed = c.credUsed := rfl
@[simp] theorem Core.spWrite_lastProbe (c : Core) (a : Nat) (bs : List Byte) : (c.spWrite a bs).lastProbe = c.lastProbe := rfl
@[simp] theorem Core.spWrite_reserve (c : Core) (a : Nat) (bs : List Byte) : (c.spWrite a bs).reserve = c.reserve := rfl
@[simp] theorem Core.spWrite_pending (c : Core) (a : Nat) (bs : List Byte) : (c.spWrite a bs).pending = c.pending := rfl
@[simp] theorem Core.spWrite_taskFaults (c : Core) (a : Nat) (bs : List Byte) : (c.spWrite a bs).taskFaults = c.taskFaults := rfl
@[simp] theorem Core.spWrite_splits (c : Core) (a : Nat) (bs : List Byte) : (c.spWrite a bs).splits = c.splits := rfl
@[simp] theorem Core.spWrite_frames (c : Core) (a : Nat) (bs : List Byte) : (c.spWrite a bs).frames = c.frames := rfl
@[simp] theorem Core.spWrite_arrivals (c : Core) (a : Nat) (bs : List Byte) : (c.spWrite a bs).arrivals = c.arrivals := rfl
@[simp] theorem Core.spWrite_rr (c : Core) (a : Nat) (bs : List Byte) : (c.spWrite a bs).rr = c.rr := rfl
@[simp] theorem Core.spWrite_rows (c : Core) (a : Nat) (bs : List Byte) : (c.spWrite a bs).rows = c.rows := rfl
@[simp] theorem Core.spWrite_throttled (c : Core) (a : Nat) (bs : List Byte) : (c.spWrite a bs).throttled = c.throttled := rfl
@[simp] theorem Core.spWrite_boot (c : Core) (a : Nat) (bs : List Byte) : (c.spWrite a bs).boot = c.boot := rfl
@[simp] theorem Core.spWrite_swept (c : Core) (a : Nat) (bs : List Byte) : (c.spWrite a bs).swept = c.swept := rfl

@[simp] theorem Core.setSpB_pcore (c : Core) (a : Nat) (b : Word32) : (c.setSpB a b).pcore = c.pcore := rfl
@[simp] theorem Core.setSpB_lcore (c : Core) (a : Nat) (b : Word32) : (c.setSpB a b).lcore = c.lcore := rfl
@[simp] theorem Core.setSpB_serial (c : Core) (a : Nat) (b : Word32) : (c.setSpB a b).serial = c.serial := rfl
@[simp] theorem Core.setSpB_numNext (c : Core) (a : Nat) (b : Word32) : (c.setSpB a b).numNext = c.numNext := rfl
@[simp] theorem Core.setSpB_resv (c : Core) (a : Nat) (b : Word32) : (c.setSpB a b).resv = c.resv := rfl
@[simp] theorem Core.setSpB_run (c : Core) (a : Nat) (b : Word32) : (c.setSpB a b).run = c.run := rfl
@[simp] theorem Core.setSpB_tcc (c : Core) (a : Nat) (b : Word32) : (c.setSpB a b).tcc = c.tcc := rfl
@[simp] theorem Core.setSpB_shared (c : Core) (a : Nat) (b : Word32) : (c.setSpB a b).shared = c.shared := rfl
@[simp] theorem Core.setSpB_sp (c : Core) (a : Nat) (b : Word32) : (c.setSpB a b).sp = c.sp := rfl
@[simp] theorem Core.setSpB_spBound (c : Core) (a : Nat) (b : Word32) : (c.setSpB a b).spBound = c.spBound.put 0#32 (a / 64) b := rfl
@[simp] theorem Core.setSpB_softErr (c : Core) (a : Nat) (b : Word32) : (c.setSpB a b).softErr = c.softErr := rfl
@[simp] theorem Core.setSpB_sregErr (c : Core) (a : Nat) (b : Word32) : (c.setSpB a b).sregErr = c.sregErr := rfl
@[simp] theorem Core.setSpB_fmt (c : Core) (a : Nat) (b : Word32) : (c.setSpB a b).fmt = c.fmt := rfl
@[simp] theorem Core.setSpB_cb (c : Core) (a : Nat) (b : Word32) : (c.setSpB a b).cb = c.cb := rfl
@[simp] theorem Core.setSpB_stencil (c : Core) (a : Nat) (b : Word32) : (c.setSpB a b).stencil = c.stencil := rfl
@[simp] theorem Core.setSpB_stWait (c : Core) (a : Nat) (b : Word32) : (c.setSpB a b).stWait = c.stWait := rfl
@[simp] theorem Core.setSpB_codeRuns (c : Core) (a : Nat) (b : Word32) : (c.setSpB a b).codeRuns = c.codeRuns := rfl
@[simp] theorem Core.setSpB_code (c : Core) (a : Nat) (b : Word32) : (c.setSpB a b).code = c.code := rfl
@[simp] theorem Core.setSpB_pend (c : Core) (a : Nat) (b : Word32) : (c.setSpB a b).pend = c.pend := rfl
@[simp] theorem Core.setSpB_tlb (c : Core) (a : Nat) (b : Word32) : (c.setSpB a b).tlb = c.tlb := rfl
@[simp] theorem Core.setSpB_walk (c : Core) (a : Nat) (b : Word32) : (c.setSpB a b).walk = c.walk := rfl
@[simp] theorem Core.setSpB_inq (c : Core) (a : Nat) (b : Word32) : (c.setSpB a b).inq = c.inq := rfl
@[simp] theorem Core.setSpB_credUsed (c : Core) (a : Nat) (b : Word32) : (c.setSpB a b).credUsed = c.credUsed := rfl
@[simp] theorem Core.setSpB_lastProbe (c : Core) (a : Nat) (b : Word32) : (c.setSpB a b).lastProbe = c.lastProbe := rfl
@[simp] theorem Core.setSpB_reserve (c : Core) (a : Nat) (b : Word32) : (c.setSpB a b).reserve = c.reserve := rfl
@[simp] theorem Core.setSpB_pending (c : Core) (a : Nat) (b : Word32) : (c.setSpB a b).pending = c.pending := rfl
@[simp] theorem Core.setSpB_taskFaults (c : Core) (a : Nat) (b : Word32) : (c.setSpB a b).taskFaults = c.taskFaults := rfl
@[simp] theorem Core.setSpB_splits (c : Core) (a : Nat) (b : Word32) : (c.setSpB a b).splits = c.splits := rfl
@[simp] theorem Core.setSpB_frames (c : Core) (a : Nat) (b : Word32) : (c.setSpB a b).frames = c.frames := rfl
@[simp] theorem Core.setSpB_arrivals (c : Core) (a : Nat) (b : Word32) : (c.setSpB a b).arrivals = c.arrivals := rfl
@[simp] theorem Core.setSpB_rr (c : Core) (a : Nat) (b : Word32) : (c.setSpB a b).rr = c.rr := rfl
@[simp] theorem Core.setSpB_rows (c : Core) (a : Nat) (b : Word32) : (c.setSpB a b).rows = c.rows := rfl
@[simp] theorem Core.setSpB_throttled (c : Core) (a : Nat) (b : Word32) : (c.setSpB a b).throttled = c.throttled := rfl
@[simp] theorem Core.setSpB_boot (c : Core) (a : Nat) (b : Word32) : (c.setSpB a b).boot = c.boot := rfl
@[simp] theorem Core.setSpB_swept (c : Core) (a : Nat) (b : Word32) : (c.setSpB a b).swept = c.swept := rfl

@[simp] theorem Core.setCb_pcore (c : Core) (n : Nat) (b : CircBuf) : (c.setCb n b).pcore = c.pcore := rfl
@[simp] theorem Core.setCb_lcore (c : Core) (n : Nat) (b : CircBuf) : (c.setCb n b).lcore = c.lcore := rfl
@[simp] theorem Core.setCb_serial (c : Core) (n : Nat) (b : CircBuf) : (c.setCb n b).serial = c.serial := rfl
@[simp] theorem Core.setCb_numNext (c : Core) (n : Nat) (b : CircBuf) : (c.setCb n b).numNext = c.numNext := rfl
@[simp] theorem Core.setCb_resv (c : Core) (n : Nat) (b : CircBuf) : (c.setCb n b).resv = c.resv := rfl
@[simp] theorem Core.setCb_run (c : Core) (n : Nat) (b : CircBuf) : (c.setCb n b).run = c.run := rfl
@[simp] theorem Core.setCb_tcc (c : Core) (n : Nat) (b : CircBuf) : (c.setCb n b).tcc = c.tcc := rfl
@[simp] theorem Core.setCb_shared (c : Core) (n : Nat) (b : CircBuf) : (c.setCb n b).shared = c.shared := rfl
@[simp] theorem Core.setCb_sp (c : Core) (n : Nat) (b : CircBuf) : (c.setCb n b).sp = c.sp := rfl
@[simp] theorem Core.setCb_spBound (c : Core) (n : Nat) (b : CircBuf) : (c.setCb n b).spBound = c.spBound := rfl
@[simp] theorem Core.setCb_softErr (c : Core) (n : Nat) (b : CircBuf) : (c.setCb n b).softErr = c.softErr := rfl
@[simp] theorem Core.setCb_sregErr (c : Core) (n : Nat) (b : CircBuf) : (c.setCb n b).sregErr = c.sregErr := rfl
@[simp] theorem Core.setCb_fmt (c : Core) (n : Nat) (b : CircBuf) : (c.setCb n b).fmt = c.fmt := rfl
@[simp] theorem Core.setCb_cb (c : Core) (n : Nat) (b : CircBuf) : (c.setCb n b).cb = c.cb.ins n b := rfl
@[simp] theorem Core.setCb_stencil (c : Core) (n : Nat) (b : CircBuf) : (c.setCb n b).stencil = c.stencil := rfl
@[simp] theorem Core.setCb_stWait (c : Core) (n : Nat) (b : CircBuf) : (c.setCb n b).stWait = c.stWait := rfl
@[simp] theorem Core.setCb_codeRuns (c : Core) (n : Nat) (b : CircBuf) : (c.setCb n b).codeRuns = c.codeRuns := rfl
@[simp] theorem Core.setCb_code (c : Core) (n : Nat) (b : CircBuf) : (c.setCb n b).code = c.code := rfl
@[simp] theorem Core.setCb_pend (c : Core) (n : Nat) (b : CircBuf) : (c.setCb n b).pend = c.pend := rfl
@[simp] theorem Core.setCb_tlb (c : Core) (n : Nat) (b : CircBuf) : (c.setCb n b).tlb = c.tlb := rfl
@[simp] theorem Core.setCb_walk (c : Core) (n : Nat) (b : CircBuf) : (c.setCb n b).walk = c.walk := rfl
@[simp] theorem Core.setCb_inq (c : Core) (n : Nat) (b : CircBuf) : (c.setCb n b).inq = c.inq := rfl
@[simp] theorem Core.setCb_credUsed (c : Core) (n : Nat) (b : CircBuf) : (c.setCb n b).credUsed = c.credUsed := rfl
@[simp] theorem Core.setCb_lastProbe (c : Core) (n : Nat) (b : CircBuf) : (c.setCb n b).lastProbe = c.lastProbe := rfl
@[simp] theorem Core.setCb_reserve (c : Core) (n : Nat) (b : CircBuf) : (c.setCb n b).reserve = c.reserve := rfl
@[simp] theorem Core.setCb_pending (c : Core) (n : Nat) (b : CircBuf) : (c.setCb n b).pending = c.pending := rfl
@[simp] theorem Core.setCb_taskFaults (c : Core) (n : Nat) (b : CircBuf) : (c.setCb n b).taskFaults = c.taskFaults := rfl
@[simp] theorem Core.setCb_splits (c : Core) (n : Nat) (b : CircBuf) : (c.setCb n b).splits = c.splits := rfl
@[simp] theorem Core.setCb_frames (c : Core) (n : Nat) (b : CircBuf) : (c.setCb n b).frames = c.frames := rfl
@[simp] theorem Core.setCb_arrivals (c : Core) (n : Nat) (b : CircBuf) : (c.setCb n b).arrivals = c.arrivals := rfl
@[simp] theorem Core.setCb_rr (c : Core) (n : Nat) (b : CircBuf) : (c.setCb n b).rr = c.rr := rfl
@[simp] theorem Core.setCb_rows (c : Core) (n : Nat) (b : CircBuf) : (c.setCb n b).rows = c.rows := rfl
@[simp] theorem Core.setCb_throttled (c : Core) (n : Nat) (b : CircBuf) : (c.setCb n b).throttled = c.throttled := rfl
@[simp] theorem Core.setCb_boot (c : Core) (n : Nat) (b : CircBuf) : (c.setCb n b).boot = c.boot := rfl
@[simp] theorem Core.setCb_swept (c : Core) (n : Nat) (b : CircBuf) : (c.setCb n b).swept = c.swept := rfl

@[simp] theorem Core.setSreg_pcore (c : Core) (n : Nat) (x : Shared) : (c.setSreg n x).pcore = c.pcore := rfl
@[simp] theorem Core.setSreg_lcore (c : Core) (n : Nat) (x : Shared) : (c.setSreg n x).lcore = c.lcore := rfl
@[simp] theorem Core.setSreg_serial (c : Core) (n : Nat) (x : Shared) : (c.setSreg n x).serial = c.serial := rfl
@[simp] theorem Core.setSreg_numNext (c : Core) (n : Nat) (x : Shared) : (c.setSreg n x).numNext = c.numNext := rfl
@[simp] theorem Core.setSreg_resv (c : Core) (n : Nat) (x : Shared) : (c.setSreg n x).resv = c.resv := rfl
@[simp] theorem Core.setSreg_run (c : Core) (n : Nat) (x : Shared) : (c.setSreg n x).run = c.run := rfl
@[simp] theorem Core.setSreg_tcc (c : Core) (n : Nat) (x : Shared) : (c.setSreg n x).tcc = c.tcc := rfl
@[simp] theorem Core.setSreg_shared (c : Core) (n : Nat) (x : Shared) : (c.setSreg n x).shared = c.shared.ins n x := rfl
@[simp] theorem Core.setSreg_sp (c : Core) (n : Nat) (x : Shared) : (c.setSreg n x).sp = c.sp := rfl
@[simp] theorem Core.setSreg_spBound (c : Core) (n : Nat) (x : Shared) : (c.setSreg n x).spBound = c.spBound := rfl
@[simp] theorem Core.setSreg_softErr (c : Core) (n : Nat) (x : Shared) : (c.setSreg n x).softErr = c.softErr := rfl
@[simp] theorem Core.setSreg_sregErr (c : Core) (n : Nat) (x : Shared) : (c.setSreg n x).sregErr = c.sregErr.filter (· != BitVec.ofNat 8 (0x90 + n)) := rfl
@[simp] theorem Core.setSreg_fmt (c : Core) (n : Nat) (x : Shared) : (c.setSreg n x).fmt = c.fmt := rfl
@[simp] theorem Core.setSreg_cb (c : Core) (n : Nat) (x : Shared) : (c.setSreg n x).cb = c.cb := rfl
@[simp] theorem Core.setSreg_stencil (c : Core) (n : Nat) (x : Shared) : (c.setSreg n x).stencil = c.stencil := rfl
@[simp] theorem Core.setSreg_stWait (c : Core) (n : Nat) (x : Shared) : (c.setSreg n x).stWait = c.stWait := rfl
@[simp] theorem Core.setSreg_codeRuns (c : Core) (n : Nat) (x : Shared) : (c.setSreg n x).codeRuns = c.codeRuns := rfl
@[simp] theorem Core.setSreg_code (c : Core) (n : Nat) (x : Shared) : (c.setSreg n x).code = c.code := rfl
@[simp] theorem Core.setSreg_pend (c : Core) (n : Nat) (x : Shared) : (c.setSreg n x).pend = c.pend := rfl
@[simp] theorem Core.setSreg_tlb (c : Core) (n : Nat) (x : Shared) : (c.setSreg n x).tlb = c.tlb := rfl
@[simp] theorem Core.setSreg_walk (c : Core) (n : Nat) (x : Shared) : (c.setSreg n x).walk = c.walk := rfl
@[simp] theorem Core.setSreg_inq (c : Core) (n : Nat) (x : Shared) : (c.setSreg n x).inq = c.inq := rfl
@[simp] theorem Core.setSreg_credUsed (c : Core) (n : Nat) (x : Shared) : (c.setSreg n x).credUsed = c.credUsed := rfl
@[simp] theorem Core.setSreg_lastProbe (c : Core) (n : Nat) (x : Shared) : (c.setSreg n x).lastProbe = c.lastProbe := rfl
@[simp] theorem Core.setSreg_reserve (c : Core) (n : Nat) (x : Shared) : (c.setSreg n x).reserve = c.reserve := rfl
@[simp] theorem Core.setSreg_pending (c : Core) (n : Nat) (x : Shared) : (c.setSreg n x).pending = c.pending := rfl
@[simp] theorem Core.setSreg_taskFaults (c : Core) (n : Nat) (x : Shared) : (c.setSreg n x).taskFaults = c.taskFaults := rfl
@[simp] theorem Core.setSreg_splits (c : Core) (n : Nat) (x : Shared) : (c.setSreg n x).splits = c.splits := rfl
@[simp] theorem Core.setSreg_frames (c : Core) (n : Nat) (x : Shared) : (c.setSreg n x).frames = c.frames := rfl
@[simp] theorem Core.setSreg_arrivals (c : Core) (n : Nat) (x : Shared) : (c.setSreg n x).arrivals = c.arrivals := rfl
@[simp] theorem Core.setSreg_rr (c : Core) (n : Nat) (x : Shared) : (c.setSreg n x).rr = c.rr := rfl
@[simp] theorem Core.setSreg_rows (c : Core) (n : Nat) (x : Shared) : (c.setSreg n x).rows = c.rows := rfl
@[simp] theorem Core.setSreg_throttled (c : Core) (n : Nat) (x : Shared) : (c.setSreg n x).throttled = c.throttled := rfl
@[simp] theorem Core.setSreg_boot (c : Core) (n : Nat) (x : Shared) : (c.setSreg n x).boot = c.boot := rfl
@[simp] theorem Core.setSreg_swept (c : Core) (n : Nat) (x : Shared) : (c.setSreg n x).swept = c.swept := rfl

end Sys2Proof.Machine
end

