-- ==== Sys2Proof/Laws/Table.lean ====
section
/-!
SUPPORT. The laws of sparse stores: reading after writing, and that writes keep the canonical form.
-/
namespace Sys2Proof.Tbl

variable {α : Type}

/-! ### Reading after a write -/

@[simp] theorem look_nil (k : Nat) : Tbl.look ([] : Tbl α) k = none := rfl

@[simp] theorem look_ins_self (t : Tbl α) (k : Nat) (v : α) : (t.ins k v).look k = some v := by
  induction t with
  | nil => simp [Tbl.ins, Tbl.look]
  | cons e r ih =>
    obtain ⟨i, w⟩ := e
    simp only [Tbl.ins]
    split
    · simp [Tbl.look]
    · split
      · simp [Tbl.look]
      · simp [Tbl.look, *]

theorem look_ins_ne (t : Tbl α) {k j : Nat} (v : α) (h : j ≠ k) : (t.ins k v).look j = t.look j := by
  induction t with
  | nil => simp [Tbl.ins, Tbl.look, Ne.symm h]
  | cons e r ih =>
    obtain ⟨i, w⟩ := e
    simp only [Tbl.ins]
    split
    · simp [Tbl.look, Ne.symm h]
    · split
      · next _ he => subst he; simp [Tbl.look, Ne.symm h]
      · simp only [Tbl.look, ih]

theorem look_ins (t : Tbl α) (k j : Nat) (v : α) :
    (t.ins k v).look j = if j = k then some v else t.look j := by
  split
  · next h => subst h; exact look_ins_self t j v
  · next h => exact look_ins_ne t v h

/-- The last of two writes to one key is the one that stays. -/
@[simp] theorem ins_ins_self (t : Tbl α) (k : Nat) (v w : α) : (t.ins k v).ins k w = t.ins k w := by
  induction t with
  | nil => simp [Tbl.ins]
  | cons e r ih =>
    obtain ⟨i, x⟩ := e
    simp only [Tbl.ins]
    split
    · simp [Tbl.ins]
    · split
      · simp [Tbl.ins]
      · next h1 h2 => simp [Tbl.ins, h1, h2, ih]

@[simp] theorem look_del_self (t : Tbl α) (k : Nat) : (t.del k).look k = none := by
  induction t with
  | nil => rfl
  | cons e r ih =>
    obtain ⟨i, w⟩ := e
    simp only [Tbl.del]
    split
    · exact ih
    · next h => simp [Tbl.look, h, ih]

theorem look_del_ne (t : Tbl α) {k j : Nat} (h : j ≠ k) : (t.del k).look j = t.look j := by
  induction t with
  | nil => rfl
  | cons e r ih =>
    obtain ⟨i, w⟩ := e
    simp only [Tbl.del]
    split
    · next he => subst he; simp [Tbl.look, Ne.symm h, ih]
    · simp only [Tbl.look, ih]

theorem look_del (t : Tbl α) (k j : Nat) : (t.del k).look j = if j = k then none else t.look j := by
  split
  · next h => subst h; exact look_del_self t j
  · next h => exact look_del_ne t h

theorem lookD_ins (t : Tbl α) (k j : Nat) (v d : α) :
    (t.ins k v).lookD j d = if j = k then v else t.lookD j d := by
  unfold Tbl.lookD
  rw [look_ins]
  split <;> rfl

@[simp] theorem lookD_ins_self (t : Tbl α) (k : Nat) (v d : α) : (t.ins k v).lookD k d = v := by
  simp [lookD_ins]

theorem lookD_ins_ne (t : Tbl α) {k j : Nat} (v d : α) (h : j ≠ k) : (t.ins k v).lookD j d = t.lookD j d := by
  simp [lookD_ins, h]

theorem lookD_del (t : Tbl α) (k j : Nat) (d : α) :
    (t.del k).lookD j d = if j = k then d else t.lookD j d := by
  unfold Tbl.lookD
  rw [look_del]
  split <;> rfl

variable [DecidableEq α]

/-- A read after a write to the same key gives the value written, and a write leaves every other key alone. -/
theorem lookD_put (t : Tbl α) (k j : Nat) (v d : α) :
    (t.put d k v).lookD j d = if j = k then v else t.lookD j d := by
  unfold Tbl.put
  split
  · next h => rw [lookD_del, h]
  · rw [lookD_ins]

@[simp] theorem lookD_put_self (t : Tbl α) (k : Nat) (v d : α) : (t.put d k v).lookD k d = v := by
  simp [lookD_put]

theorem lookD_put_ne (t : Tbl α) {k j : Nat} (v d : α) (h : j ≠ k) : (t.put d k v).lookD j d = t.lookD j d := by
  simp [lookD_put, h]

/-- A run of values at consecutive keys reads back as written, and every other key as before. -/
theorem lookD_putRun (t : Tbl α) (d : α) (k j : Nat) (vs : List α) :
    (t.putRun d k vs).lookD j d = if k ≤ j ∧ j < k + vs.length then vs.getD (j - k) d else t.lookD j d := by
  induction vs generalizing t k with
  | nil => simp only [Tbl.putRun, List.length_nil]; rw [if_neg (by omega)]
  | cons v vs ih =>
    simp only [Tbl.putRun, ih, lookD_put, List.length_cons]
    by_cases h1 : k + 1 ≤ j ∧ j < k + 1 + vs.length
    · rw [if_pos h1, if_pos (by omega)]
      obtain ⟨m, rfl⟩ : ∃ m, j = k + 1 + m := ⟨j - (k + 1), by omega⟩
      rw [show k + 1 + m - (k + 1) = m by omega, show k + 1 + m - k = m + 1 by omega]
      rfl
    · rw [if_neg h1]
      by_cases h2 : j = k
      · subst h2
        rw [if_pos rfl, if_pos (by omega), Nat.sub_self]
        rfl
      · rw [if_neg h2, if_neg (by omega)]

/-! ### Runs -/

omit [DecidableEq α] in
@[simp] theorem length_run (t : Tbl α) (d : α) (k n : Nat) : (t.run d k n).length = n := by
  induction n generalizing k with
  | zero => rfl
  | succ n ih => simp [Tbl.run, ih]

omit [DecidableEq α] in
theorem getD_run (t : Tbl α) (d : α) (k n i : Nat) (h : i < n) : (t.run d k n).getD i d = t.lookD (k + i) d := by
  induction n generalizing k i with
  | zero => omega
  | succ n ih =>
    cases i with
    | zero => simp [Tbl.run]
    | succ i =>
      simp only [Tbl.run, List.getD_cons_succ]
      rw [ih (k + 1) i (by omega)]
      congr 1
      omega

omit [DecidableEq α] in
/-- Runs of stores that agree on the keys agree. -/
theorem run_congr {t u : Tbl α} {d : α} (k n : Nat) (h : ∀ i, k ≤ i → i < k + n → t.lookD i d = u.lookD i d) :
    t.run d k n = u.run d k n := by
  induction n generalizing k with
  | zero => rfl
  | succ n ih =>
    simp only [Tbl.run]
    rw [h k (by omega) (by omega), ih (k + 1) fun i h1 h2 => h i (by omega) (by omega)]

/-! ### The canonical form -/

omit [DecidableEq α] in
theorem rising_weaken {t : Tbl α} {a b : Nat} (hab : a ≤ b) (h : t.rising (some b) = true) :
    t.rising (some a) = true := by
  cases t with
  | nil => rfl
  | cons e r =>
    simp only [Tbl.rising, Bool.and_eq_true, decide_eq_true_eq] at h ⊢
    exact ⟨by omega, h.2⟩

omit [DecidableEq α] in
theorem rising_drop {t : Tbl α} {o : Option Nat} (h : t.rising o = true) : t.rising none = true := by
  cases t with
  | nil => rfl
  | cons e r => simp only [Tbl.rising, Bool.and_eq_true] at h ⊢; exact ⟨trivial, h.2⟩

omit [DecidableEq α] in
theorem rising_ins {t : Tbl α} {o : Option Nat} (k : Nat) (v : α) (h : t.rising o = true)
    (ho : ∀ l, o = some l → l < k) : (t.ins k v).rising o = true := by
  induction t generalizing o with
  | nil =>
    cases o with
    | none => rfl
    | some l => simp [Tbl.ins, Tbl.rising, ho l rfl]
  | cons e r ih =>
    obtain ⟨i, w⟩ := e
    simp only [Tbl.rising, Bool.and_eq_true] at h
    simp only [Tbl.ins]
    split
    · next hk =>
      simp only [Tbl.rising, Bool.and_eq_true, decide_eq_true_eq]
      refine ⟨?_, hk, h.2⟩
      cases o with
      | none => rfl
      | some l => simpa using ho l rfl
    · split
      · next _ he => subst he; simp only [Tbl.rising, Bool.and_eq_true]; exact h
      · simp only [Tbl.rising, Bool.and_eq_true]
        exact ⟨h.1, ih h.2 fun l hl => by cases hl; omega⟩

omit [DecidableEq α] in
theorem rising_del {t : Tbl α} {o : Option Nat} (k : Nat) (h : t.rising o = true) : (t.del k).rising o = true := by
  induction t generalizing o with
  | nil => rfl
  | cons e r ih =>
    obtain ⟨i, w⟩ := e
    simp only [Tbl.rising, Bool.and_eq_true] at h
    simp only [Tbl.del]
    split
    · cases o with
      | none => exact rising_drop (ih h.2)
      | some l =>
        have hl : l < i := by simpa using h.1
        exact rising_weaken (Nat.le_of_lt hl) (ih h.2)
    · simp only [Tbl.rising, Bool.and_eq_true]
      exact ⟨h.1, ih h.2⟩

omit [DecidableEq α] in
theorem mem_ins {t : Tbl α} {k : Nat} {v : α} {e : Nat × α} (h : e ∈ t.ins k v) : e = (k, v) ∨ e ∈ t := by
  induction t with
  | nil => simpa [Tbl.ins] using h
  | cons f r ih =>
    obtain ⟨i, w⟩ := f
    simp only [Tbl.ins] at h
    split at h
    · simpa using h
    · split at h
      · rcases List.mem_cons.mp h with rfl | h
        · exact .inl rfl
        · exact .inr (List.mem_cons_of_mem _ h)
      · rcases List.mem_cons.mp h with rfl | h
        · exact .inr (List.mem_cons_self ..)
        · exact (ih h).imp id (List.mem_cons_of_mem _)

omit [DecidableEq α] in
theorem mem_del {t : Tbl α} {k : Nat} {e : Nat × α} (h : e ∈ t.del k) : e ∈ t := by
  induction t with
  | nil => exact h
  | cons f r ih =>
    obtain ⟨i, w⟩ := f
    simp only [Tbl.del] at h
    split at h
    · exact List.mem_cons_of_mem _ (ih h)
    · rcases List.mem_cons.mp h with rfl | h
      · exact List.mem_cons_self ..
      · exact List.mem_cons_of_mem _ (ih h)

@[simp] theorem canon_nil (d : α) : Tbl.canon ([] : Tbl α) d = true := rfl

/-- A write keeps the canonical form. -/
theorem canon_put {t : Tbl α} {d : α} (k : Nat) (v : α) (h : t.canon d = true) : (t.put d k v).canon d = true := by
  simp only [Tbl.canon, Bool.and_eq_true, List.all_eq_true, decide_eq_true_eq] at h ⊢
  unfold Tbl.put
  split
  · exact ⟨rising_del k h.1, fun e he => h.2 e (mem_del he)⟩
  · next hv =>
    refine ⟨rising_ins k v h.1 (by simp), fun e he => ?_⟩
    rcases mem_ins he with rfl | he
    · exact hv
    · exact h.2 e he

/-- A run of writes keeps the canonical form. -/
theorem canon_putRun {t : Tbl α} {d : α} (k : Nat) (vs : List α) (h : t.canon d = true) :
    (t.putRun d k vs).canon d = true := by
  induction vs generalizing t k with
  | nil => exact h
  | cons v vs ih => exact ih (k + 1) (canon_put k v h)

/-- Writes of a list of cells keep the canonical form. -/
theorem canon_foldl_put {β : Type} {t : Tbl α} {d : α} (key : β → Nat) (val : β → α) (xs : List β)
    (h : t.canon d = true) : (xs.foldl (fun m e => m.put d (key e) (val e)) t).canon d = true := by
  induction xs generalizing t with
  | nil => exact h
  | cons x xs ih => exact ih (canon_put (key x) (val x) h)

end Sys2Proof.Tbl
end

