-- ==== Sys2Proof/Laws/Access.lean ====
section
/-!
SUPPORT. Reading a thread, a core, a register or a byte after one of them has been written.
-/
namespace Sys2Proof.Machine

/-! ### Threads and cores -/

theorem State.modThr_eq (s : State) (id : Word32) (f : Thread → Thread) : s.modThr id f = s.setThr id (f (s.thr id)) := rfl
theorem State.setTh_eq (s : State) (t : Thread) : s.setTh t = s.setThr s.cur t := rfl
theorem State.modTh_eq (s : State) (f : Thread → Thread) : s.modTh f = s.setThr s.cur (f s.th) := rfl
theorem State.modCore_eq (s : State) (c : Nat) (f : Core → Core) : s.modCore c f = s.setCore c (f (s.core c)) := rfl
theorem State.th_eq (s : State) : s.th = s.thr s.cur := rfl

theorem State.thr_setThr (s : State) (id x : Word32) (t : Thread) :
    (s.setThr id t).thr x = if x = id then t else s.thr x := by
  simp only [State.thr, State.setThr_threads, Tbl.lookD_ins, BitVec.toNat_inj]

@[simp] theorem State.thr_setThr_self (s : State) (id : Word32) (t : Thread) : (s.setThr id t).thr id = t := by
  simp [State.thr_setThr]

theorem State.thr_setThr_ne (s : State) {id x : Word32} (t : Thread) (h : x ≠ id) : (s.setThr id t).thr x = s.thr x := by
  simp [State.thr_setThr, h]

@[simp] theorem State.setThr_setThr_self (s : State) (id : Word32) (a b : Thread) :
    (s.setThr id a).setThr id b = s.setThr id b := by
  simp only [State.setThr, Tbl.ins_ins_self]

@[simp] theorem State.setCore_setCore_self (s : State) (c : Nat) (a b : Core) :
    (s.setCore c a).setCore c b = s.setCore c b := by
  simp only [State.setCore, Tbl.ins_ins_self]

theorem State.th_setThr (s : State) (id : Word32) (t : Thread) :
    (s.setThr id t).th = if s.cur = id then t else s.th := by
  rw [State.th_eq, State.setThr_cur, State.thr_setThr]
  rfl

@[simp] theorem State.th_setThr_cur (s : State) (t : Thread) : (s.setThr s.cur t).th = t := by
  simp [State.th_eq]

@[simp] theorem State.th_modTh (s : State) (f : Thread → Thread) : (s.modTh f).th = f s.th := by
  simp [State.modTh_eq]

@[simp] theorem State.th_setTh (s : State) (t : Thread) : (s.setTh t).th = t := by simp [State.setTh_eq]

theorem State.core_setCore (s : State) (c d : Nat) (x : Core) :
    (s.setCore c x).core d = if d = c then x else s.core d := by
  simp only [State.core, State.setCore_cores, Tbl.lookD_ins]

@[simp] theorem State.core_setCore_self (s : State) (c : Nat) (x : Core) : (s.setCore c x).core c = x := by
  simp [State.core_setCore]

theorem State.core_setCore_ne (s : State) {c d : Nat} (x : Core) (h : d ≠ c) : (s.setCore c x).core d = s.core d := by
  simp [State.core_setCore, h]

@[simp] theorem State.core_setThr (s : State) (id : Word32) (t : Thread) (c : Nat) : (s.setThr id t).core c = s.core c := rfl
@[simp] theorem State.thr_setCore (s : State) (c : Nat) (x : Core) (id : Word32) : (s.setCore c x).thr id = s.thr id := rfl
@[simp] theorem State.th_setCore (s : State) (c : Nat) (x : Core) : (s.setCore c x).th = s.th := rfl
@[simp] theorem State.core_post (s : State) (e : Instr) (ch d : Nat) (c : Nat) : (s.post e ch d).core c = s.core c := rfl
@[simp] theorem State.thr_post (s : State) (e : Instr) (ch d : Nat) (id : Word32) : (s.post e ch d).thr id = s.thr id := rfl
@[simp] theorem State.th_post (s : State) (e : Instr) (ch d : Nat) : (s.post e ch d).th = s.th := rfl

/-! ### Registers of a thread -/

theorem Thread.gR_setG (t : Thread) (i j : Nat) (x : Word) : (t.setG i x).gR j = if j = i then x else t.gR j := by
  simp only [Thread.gR, Thread.setG_g, Tbl.lookD_put]

theorem Thread.vR_setV (t : Thread) (i j : Nat) (x : Vec) : (t.setV i x).vR j = if j = i then x else t.vR j := by
  simp only [Thread.vR, Thread.setV_v, Tbl.lookD_put]

theorem Thread.vB_setVb (t : Thread) (i j : Nat) (b : Word32) : (t.setVb i b).vB j = if j = i then b else t.vB j := by
  simp only [Thread.vB, Thread.setVb_vb, Tbl.lookD_put]

theorem Thread.gT_setGT (t : Thread) (j i k n : Nat) (x : Word) :
    (t.setGT j i x).gT k n = if 128 * k + n = 128 * j + i then x else t.gT k n := by
  simp only [Thread.gT, Thread.setGT_gt, Tbl.lookD_put]

theorem Thread.vT_setVT (t : Thread) (j i k n : Nat) (x : Vec) :
    (t.setVT j i x).vT k n = if 32 * k + n = 32 * j + i then x else t.vT k n := by
  simp only [Thread.vT, Thread.setVT_vt, Tbl.lookD_put]

theorem Thread.vTb_setVTb (t : Thread) (j i k n : Nat) (b : Word32) :
    (t.setVTb j i b).vTb k n = if 32 * k + n = 32 * j + i then b else t.vTb k n := by
  simp only [Thread.vTb, Thread.setVTb_vtb, Tbl.lookD_put]

theorem Thread.lR_setL (t : Thread) (i j : Nat) (x : Word32) : (t.setL i x).lR j = if j = i then x else t.lR j := by
  simp only [Thread.lR, Thread.setL_l, Tbl.lookD_put]

theorem Thread.gFull_setFull (t : Thread) (i j : Nat) (f : Bool) :
    (t.setFull i f).gFull j = if j = i then f else t.gFull j := by
  simp only [Thread.gFull, Thread.setFull_gEmpty]
  by_cases h : j = i
  · subst h
    rw [if_pos rfl]
    cases f with
    | true => simp
    | false =>
      simp only [Bool.false_eq_true, if_false]
      split
      · next hc => simpa using hc
      · simp
  · rw [if_neg h]
    cases f with
    | true => simp [h]
    | false =>
      simp only [Bool.false_eq_true, if_false]
      split
      · rfl
      · simp [h]

/-! ### Shared registers and bound words of a core -/

theorem Core.sreg_setSreg (c : Core) (n m : Nat) (x : Shared) : (c.setSreg n x).sreg m = if m = n then x else c.sreg m := by
  simp only [Core.sreg, Core.setSreg_shared, Tbl.lookD_ins]

theorem Core.cbuf_setCb (c : Core) (n m : Nat) (b : CircBuf) : (c.setCb n b).cbuf m = if m = n then b else c.cbuf m := by
  simp only [Core.cbuf, Core.setCb_cb, Tbl.lookD_ins]

theorem Core.spB_setSpB (c : Core) (a o : Nat) (b : Word32) :
    (c.setSpB a b).spB o = if o / 64 = a / 64 then b else c.spB o := by
  simp only [Core.spB, Core.setSpB_spBound, Tbl.lookD_put]

/-! ### Bytes -/

theorem leBytes_length (n w : Nat) : (leBytes n w).length = n := by
  induction n generalizing w with
  | zero => rfl
  | succ n ih => simp [leBytes, ih]

/-- n bytes of a number, read back least significant first, are the number modulo 2 to the 8 n. -/
theorem leNat_leBytes (n w : Nat) : leNat (leBytes n w) = w % 2 ^ (8 * n) := by
  induction n generalizing w with
  | zero => simp [leNat, leBytes, Nat.mod_one]
  | succ n ih =>
    simp only [leBytes, leNat, ih, BitVec.toNat_ofNat]
    rw [show 8 * (n + 1) = 8 + 8 * n by omega, Nat.pow_add, Nat.mod_mul]

/-- A byte written is a byte read. -/
theorem getD_leBytes (n w i : Nat) (h : i < n) : (leBytes n w).getD i 0#8 = BitVec.ofNat 8 (w / 256 ^ i) := by
  induction n generalizing w i with
  | zero => omega
  | succ n ih =>
    cases i with
    | zero => simp [leBytes]
    | succ i =>
      simp only [leBytes, List.getD_cons_succ]
      rw [ih _ _ (by omega), Nat.div_div_eq_div_mul, Nat.pow_succ, Nat.mul_comm 256]

end Sys2Proof.Machine
end

