-- ==== Sys2Proof/Laws/Ops.lean ====
section
/-!
SUPPORT. What the shared operations of an instruction do, each said once: the monad, the class-1 checks, the frame of
an instruction, completion.
-/
namespace Sys2Proof.Machine

/-! ### The monad of an instruction -/

namespace M
variable {α β : Type}

@[simp] theorem pure_run (a : α) (s : State) : (pure a : M α) s = .ok (a, s) := rfl
@[simp] theorem bind_run (m : M α) (f : α → M β) (s : State) :
    (m >>= f) s = match m s with | .ok (a, s') => f a s' | .error e => .error e := by
  show (m s >>= fun p => f p.1 p.2) = _
  cases m s <;> rfl
@[simp] theorem get_run (s : State) : (get : M State) s = .ok (s, s) := rfl
@[simp] theorem set_run (t s : State) : (set t : M PUnit) s = .ok ((), t) := rfl
@[simp] theorem modify_run (f : State → State) (s : State) : (modify f : M PUnit) s = .ok ((), f s) := rfl
@[simp] theorem throw_run (e : Stop) (s : State) : (throw e : M α) s = .error e := rfl
@[simp] theorem map_run (f : α → β) (m : M α) (s : State) :
    (f <$> m) s = match m s with | .ok (a, s') => .ok (f a, s') | .error e => .error e := by
  show (f <$> m) s = _
  rw [← bind_pure_comp]
  simp only [bind_run]
  cases m s <;> rfl
@[simp] theorem ite_run (c : Prop) [Decidable c] (m n : M α) (s : State) : (if c then m else n) s = if c then m s else n s := by
  split <;> rfl

end M

@[simp] theorem trap_run {α : Type} (c : Byte) (tv : Word) (s : State) : (trap c tv : M α) s = .error (.trap c tv 0#5) := rfl
@[simp] theorem waitFor_run {α : Type} (w : Wait) (s : State) : (waitFor w : M α) s = .error (.wait w) := rfl
@[simp] theorem getTh_run (s : State) : getTh s = .ok (s.th, s) := rfl
@[simp] theorem modTh_run (f : Thread → Thread) (s : State) : modTh f s = .ok ((), s.modTh f) := rfl
@[simp] theorem modCoreM_run (f : Core → Core) (s : State) : modCoreM f s = .ok ((), s.modCore s.th.core f) := rfl

/-! ### The class-1 checks (R220 to R222) -/

/-- Fields that pass leave the machine as it was. -/
theorem check1_ok {fs : List (FK × Fld)} {s : State} (h : FieldsOk s fs) : check1 fs s = .ok ((), s) := by
  induction fs with
  | nil => rfl
  | cons p r ih =>
    obtain ⟨k, f⟩ := p
    have hp := h (k, f) (List.mem_cons_self ..)
    have hr : FieldsOk s r := fun q hq => h q (List.mem_cons_of_mem _ hq)
    simp only [check1, M.bind_run, M.get_run] at hp ⊢
    simp only [hp, ih hr]

/-- The first field that fails is the one that traps, with its specifier as tval. -/
theorem check1_trap {fs gs : List (FK × Fld)} {s : State} {k : FK} {f : Fld} {c : Byte} (h : FieldsOk s fs)
    (hc : s.fieldCause s.th k f = some c) :
    check1 (fs ++ (k, f) :: gs) s = .error (.trap c (f.spec.zeroExtend 64) 0#5) := by
  induction fs with
  | nil => simp only [List.nil_append, check1, M.bind_run, M.get_run, hc, trap_run]
  | cons p r ih =>
    obtain ⟨k', f'⟩ := p
    have hp := h (k', f') (List.mem_cons_self ..)
    have hr : FieldsOk s r := fun q hq => h q (List.mem_cons_of_mem _ hq)
    simp only [List.cons_append, check1, M.bind_run, M.get_run] at hp ⊢
    simp only [hp, ih hr]

/-- check1 changes nothing when it answers. -/
theorem check1_state {fs : List (FK × Fld)} {s s' : State} (h : check1 fs s = .ok ((), s')) : s' = s := by
  induction fs with
  | nil => cases h; rfl
  | cons p r ih =>
    obtain ⟨k, f⟩ := p
    simp only [check1, M.bind_run, M.get_run] at h
    cases hc : s.fieldCause s.th k f with
    | some c => simp [hc] at h
    | none => exact ih (by simpa [hc] using h)

/-! ### The frame of an instruction (R202, R219) -/

/-- An instruction whose checks pass, whose guard lets it execute and whose body answers, and does not hand its answer off, completes. -/
theorem runI_done {h : Head} {priv : Option Nat} {pre : M Unit} {body : M Ctl} {s s' : State} {c : Ctl}
    (hp : priv = none ∨ s.th.user = false) (hpre : (pre s).toOption.isSome = true) (hi : Issues s h)
    (hb : body s = .ok (c, s')) (hc : c ≠ .held) : runI h priv pre body s = .next (s'.finish c) := by
  obtain ⟨hg, ho⟩ := hi
  unfold runI
  cases hpre' : pre s with
  | error e => simp [hpre', Except.toOption] at hpre
  | ok p =>
    rcases hp with rfl | hu
    · simp [hg, hb, ho, hc]
    · cases priv <;> simp [hg, hb, ho, hu, hc]

theorem runU_done {h : Head} {body : M Ctl} {s s' : State} {c : Ctl} (hi : Issues s h) (hb : body s = .ok (c, s'))
    (hc : c ≠ .held) : runU h body s = .next (s'.finish c) :=
  runI_done (.inl rfl) rfl hi hb hc

/-- One that stops leaves the machine to the stop. -/
theorem runU_stop {h : Head} {body : M Ctl} {s : State} {e : Stop} (hi : Issues s h) (hb : body s = .error e) :
    runU h body s = .next (s.stopped e) := by
  simp [runU, runI, hi.guard, hb]

/-- An instruction whose guard fails does nothing but advance (R219). -/
theorem runU_skip {h : Head} {body : M Ctl} {s : State} (hg : s.th.passes h = false) :
    runU h body s = .next (s.finish .fall) := by
  simp [runU, runI, hg]

/-- A privileged instruction traps in user mode, with its opcode as tval (R202). -/
theorem runI_user {h : Head} {op : Nat} {pre : M Unit} {body : M Ctl} {s : State} (hu : s.th.user = true) :
    runI h (some op) pre body s = .next (s.stopped (.trap 0x07#8 (BitVec.ofNat 64 op) 0#5)) := by
  simp [runI, hu]

/-- Whatever an instruction is, it goes on. -/
theorem runI_next (h : Head) (priv : Option Nat) (pre : M Unit) (body : M Ctl) (s : State) :
    ∃ t, runI h priv pre body s = .next t := by
  unfold runI
  dsimp only
  repeat' split
  all_goals exact ⟨_, rfl⟩

theorem event_next (f : State → State) (s : State) : event f s = .next (f s) := rfl

/-! ### Completion (R215, R241, R245) -/

/-- A relation every step of a fold keeps holds from its start to its end. -/
theorem foldl_rel {β : Type} {R : State → State → Prop} (refl : ∀ s, R s s) (trans : ∀ {a b c}, R a b → R b c → R a c)
    {f : State → β → State} (step : ∀ s x, R s (f s x)) (xs : List β) (s : State) : R s (xs.foldl f s) := by
  induction xs generalizing s with
  | nil => exact refl s
  | cons x xs ih => exact trans (step s x) (ih (f s x))

/-- What every step of a fold keeps, the fold keeps. -/
theorem foldl_keeps {β : Type} {P : State → Prop} {f : State → β → State} (step : ∀ s x, P s → P (f s x)) (xs : List β)
    {s : State} (h : P s) : P (xs.foldl f s) := by
  induction xs generalizing s with
  | nil => exact h
  | cons x xs ih => exact ih (step s x h)

/-- Two states that differ in the agenda, the thread records and the traffic of the kernels alone. -/
def SameRest (s t : State) : Prop := ∃ a th ks, (∀ k, ((ks : Tbl Kernel).look k).map (·.part) = (s.kernels.look k).map (·.part)) ∧
  t = { s with agenda := a, threads := th, kernels := ks }

theorem SameRest.refl (s : State) : SameRest s s := ⟨_, _, _, fun _ => rfl, rfl⟩
theorem SameRest.trans {a b c : State} (h : SameRest a b) (g : SameRest b c) : SameRest a c := by
  obtain ⟨_, _, _, k, rfl⟩ := h
  obtain ⟨_, _, _, l, rfl⟩ := g
  exact ⟨_, _, _, fun n => (l n).trans (k n), rfl⟩
theorem sameRest_post (s : State) (e : Instr) (ch d : Nat) : SameRest s (s.post e ch d) := ⟨_, _, _, fun _ => rfl, rfl⟩
theorem sameRest_setThr (s : State) (id : Word32) (t : Thread) : SameRest s (s.setThr id t) := ⟨_, _, _, fun _ => rfl, rfl⟩
/-- A packet of a kernel leaves its partition as it is. -/
theorem sameRest_traffic (s : State) (id : Word32) : SameRest s (s.traffic id) := by
  unfold State.traffic
  split
  · exact .refl s
  · split
    · exact .refl s
    · next x hx =>
      refine ⟨_, _, _, fun k => ?_, rfl⟩
      rw [Tbl.look_ins]
      split
      · next h => subst h; rw [hx]; rfl
      · rfl
theorem SameRest.core {s t : State} (h : SameRest s t) (c : Nat) : t.core c = s.core c := by
  obtain ⟨_, _, _, k, rfl⟩ := h; rfl
theorem SameRest.cur {s t : State} (h : SameRest s t) : t.cur = s.cur := by obtain ⟨_, _, _, k, rfl⟩ := h; rfl
theorem SameRest.byteAt {s t : State} (h : SameRest s t) (m : Space) (a : Nat) : t.byteAt m a = s.byteAt m a := by
  obtain ⟨_, _, _, k, rfl⟩ := h; cases m <;> rfl
theorem SameRest.memory {s t : State} (h : SameRest s t) : SameMemory s t where
  bytes := h.byteAt
  meta' := by obtain ⟨_, _, _, k, rfl⟩ := h; exact ⟨fun _ => rfl, fun _ _ => rfl, fun _ _ => rfl, fun _ => rfl⟩
theorem SameRest.time {s t : State} (h : SameRest s t) : t.cycle = s.cycle ∧ t.tick = s.tick := by
  obtain ⟨_, _, _, k, rfl⟩ := h; exact ⟨rfl, rfl⟩

/-! #### Memory and translation do not look at the agenda or at the thread records -/

namespace SameRest
variable {s t : State} (h : SameRest s t)
include h

theorem modCore (c : Nat) (f : Core → Core) : SameRest (s.modCore c f) (t.modCore c f) := by
  obtain ⟨_, _, _, k, rfl⟩ := h; exact ⟨_, _, _, k, rfl⟩
theorem dmSb (core pa : Nat) : t.dmSb core pa = s.dmSb core pa := by obtain ⟨_, _, _, k, rfl⟩ := h; rfl
theorem dmNat (core pa n : Nat) : t.dmNat core pa n = s.dmNat core pa n := by obtain ⟨_, _, _, k, rfl⟩ := h; rfl
theorem absent (pa : Nat) : t.absent pa = s.absent pa := by obtain ⟨_, _, _, k, rfl⟩ := h; rfl
theorem lookup_part (p : Nat) : t.part p = s.part p := by obtain ⟨_, _, _, k, rfl⟩ := h; rfl
theorem dmWrite (pa : Nat) (bs : List Byte) : SameRest (s.dmWrite pa bs) (t.dmWrite pa bs) := by
  obtain ⟨_, _, _, k, rfl⟩ := h; exact ⟨_, _, _, k, rfl⟩
theorem post (e : Instr) (ch d : Nat) : SameRest (s.post e ch d) (t.post e ch d) := by
  obtain ⟨_, _, _, k, rfl⟩ := h; exact ⟨_, _, _, k, rfl⟩
theorem drawn (n : Nat) : SameRest { s with free := n } { t with free := n } := by obtain ⟨_, _, _, k, rfl⟩ := h; exact ⟨_, _, _, k, rfl⟩
theorem ite {u v : State} (g : SameRest u v) (p : Prop) [Decidable p] : SameRest (if p then s else u) (if p then t else v) := by
  split <;> assumption
theorem free : t.free = s.free := by obtain ⟨_, _, _, k, rfl⟩ := h; rfl

theorem activate (pa : Nat) : SameRest (s.activate pa) (t.activate pa) := by
  unfold State.activate
  dsimp only
  rw [h.core]
  have hl : t.rowLimit = s.rowLimit := by obtain ⟨_, _, _, k, rfl⟩ := h; rfl
  split
  · exact h
  · have hm := fun n => h.modCore (homeCore pa) fun x => { x with rows := x.rows.ins (rowKey (dramRow pa)) n }
    have hl' : ∀ (u : State) n, (u.modCore (homeCore pa) fun x => { x with rows := x.rows.ins (rowKey (dramRow pa)) n }).rowLimit =
        u.rowLimit := fun _ _ => rfl
    rw [hl', hl', hl]
    split
    · exact (hm _).post ..
    · exact hm _

theorem eccRead (pa : Nat) : SameRest (s.eccRead pa) (t.eccRead pa) := by
  obtain ⟨a, th, ks, k, rfl⟩ := h
  unfold State.eccRead
  show SameRest (match s.errs.look (pa / 64) with | _ => _) (match s.errs.look (pa / 64) with | _ => _)
  cases s.errs.look (pa / 64) with
  | none => exact ⟨_, _, _, k, rfl⟩
  | some n =>
    dsimp only
    split
    · exact ⟨_, _, _, k, rfl⟩
    · split <;> exact ⟨_, _, _, k, rfl⟩

theorem lineRead (pa : Nat) : SameRest (s.lineRead pa) (t.lineRead pa) := (h.eccRead pa).activate pa

theorem walkFrom (core va part : Nat) : ∀ n tab ws, t.walkFrom core va n tab ws part = s.walkFrom core va n tab ws part := by
  intro n
  induction n with
  | zero => intros; rfl
  | succ n ih => intro tab ws; simp only [State.walkFrom, ih, h.dmSb, h.dmNat]
theorem walk (core part va : Nat) : t.walk core part va = s.walk core part va := by
  simp only [State.walk, h.walkFrom, h.core, h.lookup_part]
theorem walkPath (core va : Nat) : ∀ n tab, t.walkPath core va n tab = s.walkPath core va n tab := by
  intro n
  induction n with
  | zero => intros; rfl
  | succ n ih => intro tab; simp only [State.walkPath, ih, h.dmNat]

theorem walkRead (core part va : Nat) : SameRest (s.walkRead core part va) (t.walkRead core part va) := by
  unfold State.walkRead
  simp only [h.walkPath, h.core, h.lookup_part]
  generalize s.walkPath core va _ _ = xs
  induction xs generalizing s t with
  | nil => exact h
  | cons x xs ih => exact ih (h.lineRead x)

theorem contigLeaf (core : Nat) (l : Leaf) (va : Nat) : t.contigLeaf core l va = s.contigLeaf core l va := by
  obtain ⟨_, _, _, k, rfl⟩ := h; rfl
theorem pteOr (core a : Nat) (m : Byte) : SameRest (s.pteOr core a m) (t.pteOr core a m) := by
  unfold State.pteOr
  rw [h.core]
  have hm : t.mem = s.mem := by obtain ⟨_, _, _, k, rfl⟩ := h; rfl
  rw [hm]
  split
  · exact h.modCore ..
  · exact (h.dmWrite ..).activate _
theorem noteWalk (core : Nat) (ws : List WalkEnt) : SameRest (s.noteWalk core ws) (t.noteWalk core ws) := by
  unfold State.noteWalk
  split
  · exact h
  · exact h.modCore ..

/-- Translation answers the same. -/
theorem translate (core part : Nat) (u : Bool) (va : Word) (acc : Acc) :
    (t.translate core part u va acc).1 = (s.translate core part u va acc).1 ∧
      SameRest (s.translate core part u va acc).2 (t.translate core part u va acc).2 := by
  have hw := h.walkRead core part (va.toNat % 2 ^ 48)
  unfold State.translate
  simp only [h.core, hw.walk, hw.contigLeaf, hw.absent, h.absent]
  split
  · exact ⟨rfl, h⟩
  · split
    · repeat' split
      all_goals exact ⟨rfl, h⟩
    · rcases (s.walkRead core part (va.toNat % 2 ^ 48)).walk core part (va.toNat % 2 ^ 48) with ⟨r, ws⟩
      cases r with
      | error c => exact ⟨rfl, hw⟩
      | ok l =>
        dsimp only
        rcases (s.walkRead core part (va.toNat % 2 ^ 48)).contigLeaf core l (va.toNat % 2 ^ 48) with ⟨pte, frame⟩
        dsimp only
        cases leafCause pte u acc with
        | some c => exact ⟨rfl, hw⟩
        | none =>
          dsimp only
          split
          · split <;> exact ⟨rfl, hw⟩
          · split
            · exact ⟨rfl, hw⟩
            · refine ⟨rfl, ?_⟩
              apply SameRest.noteWalk
              have hp := fun p [Decidable p] m => hw.ite (hw.pteOr core (l.addr + 1) m) p
              have hm := fun p [Decidable p] m f => (hp p m).modCore core f
              split
              · rw [(hm ..).free]
                exact (hm ..).drawn _
              · exact hm ..

theorem codeRun (x : Thread) (line : Word) : t.codeRun x line = s.codeRun x line := by
  obtain ⟨_, _, ks, k, rfl⟩ := h
  unfold State.codeRun
  cases x.kernel with
  | some _ => rfl
  | none =>
    refine congrArg (fun f => List.find? f _) (funext fun r => ?_)
    have e (o : Option Kernel) : (match o with | some k => k.part == x.part | none => false) =
        (match o.map (·.part) with | some p => p == x.part | none => false) := by cases o <;> rfl
    exact (e _).trans ((congrArg (fun o : Option Nat => match o with | some p => p == x.part | none => false) (k r.kernel)).trans (e _).symm)
theorem lineInPlace (x : Thread) (line : Word) (pte : Nat) : t.lineInPlace x line pte = s.lineInPlace x line pte := by
  simp only [State.lineInPlace, h.walk, h.dmSb, h.dmNat]

/-- A fetch reads the same line. -/
theorem fetchLine (x : Thread) (line : Word) : (t.fetchLine x line).1 = (s.fetchLine x line).1 ∧
    (t.fetchLine x line).2.1 = (s.fetchLine x line).2.1 ∧ SameRest (s.fetchLine x line).2.2 (t.fetchLine x line).2.2 := by
  unfold State.fetchLine
  rw [h.core, h.codeRun]
  split
  · exact ⟨rfl, rfl, h⟩
  · split
    · exact ⟨rfl, rfl, h⟩
    · obtain ⟨h1, h2⟩ := h.translate x.core x.part x.user line .fetch
      generalize s.translate x.core x.part x.user line .fetch = u at *
      generalize t.translate x.core x.part x.user line .fetch = v at *
      rcases u with ⟨r, s'⟩
      rcases v with ⟨r', t'⟩
      obtain rfl : r' = r := h1
      cases r' with
      | fault c => exact ⟨rfl, rfl, h2⟩
      | touch l e => exact ⟨rfl, rfl, h2⟩
      | ok pa =>
        dsimp only at h2 ⊢
        have hr : SameRest (if x.line = some line then s' else (s'.lineRead pa).lineRead (pa + 64))
            (if x.line = some line then t' else (t'.lineRead pa).lineRead (pa + 64)) := by
          split
          · exact h2
          · exact (h2.lineRead _).lineRead _
        rw [hr.dmSb, hr.dmSb, hr.dmNat]
        generalize (if x.line = some line then s' else _) = u at *
        generalize (if x.line = some line then t' else _) = v at *
        split <;> exact ⟨rfl, rfl, hr⟩

theorem peekLine (x : Thread) (line : Word) : t.peekLine x line = s.peekLine x line := by
  obtain ⟨h1, h2, -⟩ := h.fetchLine x line
  unfold State.peekLine
  generalize s.fetchLine x line = u at *
  generalize t.fetchLine x line = v at *
  rcases u with ⟨r, y, z⟩
  rcases v with ⟨r', y', z'⟩
  obtain rfl : r' = r := h1
  obtain rfl : y' = y := h2
  cases r' <;> cases y' <;> first | rfl | exact h.lineInPlace ..

theorem nextPC (x : Thread) (a : Word) : t.nextPC x a = s.nextPC x a := by
  simp only [State.nextPC, State.entryOf, h.peekLine]

end SameRest

/-- Away from a home port credits change the agenda and the traffic alone. -/
theorem State.payCredits_rest (s : State) (t : Thread) (hp : t.atPort = false) :
    SameRest s (s.payCredits t) ∧ (s.payCredits t).threads = s.threads := by
  refine foldl_rel (R := fun a b => SameRest a b ∧ b.threads = a.threads) (fun s => ⟨.refl s, rfl⟩) ?_ ?_ t.taken s
  · rintro a b c ⟨h, e⟩ ⟨g, f⟩
    exact ⟨h.trans g, f.trans e⟩
  · intro s x
    simp only [hp, Bool.false_and, Bool.and_false, Bool.false_eq_true, if_false]
    split
    · refine ⟨(sameRest_traffic ..).trans (sameRest_post ..), ?_⟩
      show (s.traffic _).threads = _
      unfold State.traffic
      repeat' split
      all_goals rfl
    · exact ⟨.refl s, rfl⟩

theorem State.payCredits_thr (s : State) (t : Thread) (id : Word32) (hp : t.atPort = false) :
    (s.payCredits t).thr id = s.thr id := by
  simp only [State.thr, (s.payCredits_rest t hp).2]

theorem State.payCredits_th (s : State) (t : Thread) (hp : t.atPort = false) : (s.payCredits t).th = s.th := by
  rw [State.th_eq, (s.payCredits_rest t hp).1.cur, s.payCredits_thr t _ hp, State.th_eq]

/-- A thread whose instruction in hand is over. -/
def Thread.settled (t : Thread) : Thread :=
  { t with dualPfx := none, vals := [], taken := [], planes := [], atAnchor := false, reissue := false, bound := false,
           saveFor := none, woke := .none }

/-- Passing an instruction moves a thread's place in the program and its loops. -/
theorem State.passed_eq (s : State) (id : Word32) (x : Word) :
    ∃ pc m ls, s.passed id x = s.setThr id { s.thr id with pc := pc, pcMode := m, loops := ls } := ⟨_, _, _, rfl⟩

section
variable (s : State) (hp : s.th.atPort = false)
include hp

theorem State.finish_fall_eq : ∃ pc m ls, s.finish .fall =
    ((s.payCredits s.th).setTh s.th.settled).setTh { s.th.settled with pc := pc, pcMode := m, loops := ls } := by
  obtain ⟨hr, ht⟩ := s.payCredits_rest s.th hp
  unfold State.finish
  rw [if_neg (by decide)]
  dsimp only
  rw [payCredits_th s s.th hp]
  rw [show { s.th with dualPfx := none, vals := [], taken := [], planes := [], atAnchor := false, reissue := false,
                       bound := false, saveFor := none, woke := .none } = s.th.settled from rfl]
  generalize hu : (s.payCredits s.th).setTh s.th.settled = u
  obtain ⟨pc, m, ls, h⟩ := u.passed_eq u.cur s.th.pc
  refine ⟨pc, m, ls, ?_⟩
  rw [h, State.setTh_eq]
  congr 1
  rw [← State.th_eq, ← hu, State.th_setTh]

/-- Falling through changes, beside the agenda, the thread in hand alone. -/
theorem State.finish_fall_rest : SameRest s (s.finish .fall) := by
  obtain ⟨pc, m, ls, h⟩ := s.finish_fall_eq hp
  rw [h]
  exact ((s.payCredits_rest s.th hp).1.trans (sameRest_setThr _ _ _)).trans (sameRest_setThr _ _ _)

/-- Of the thread in hand: its place in the program, its loops and the books of the instruction in hand. -/
theorem State.finish_fall_th : ∃ pc m ls, (s.finish .fall).th = { s.th.settled with pc := pc, pcMode := m, loops := ls } := by
  obtain ⟨pc, m, ls, h⟩ := s.finish_fall_eq hp
  exact ⟨pc, m, ls, by rw [h, State.th_setTh]⟩

theorem State.finish_fall_thr_ne {id : Word32} (hid : id ≠ s.cur) : (s.finish .fall).thr id = s.thr id := by
  obtain ⟨pc, m, ls, h⟩ := s.finish_fall_eq hp
  have hc : (s.payCredits s.th).cur = s.cur := (s.payCredits_rest s.th hp).1.cur
  rw [h, State.setTh_eq, State.setTh_eq, State.thr_setThr_ne _ _ (by simpa [hc] using hid),
    State.thr_setThr_ne _ _ (by simpa [hc] using hid), State.payCredits_thr _ _ _ hp]

/-- Without a loop in force control falls through to NextPC. -/
theorem State.finish_fall_pc (hl : s.th.loops = []) : (s.finish .fall).th.pc = s.nextPC s.th s.th.pc := by
  obtain ⟨hr₀, ht⟩ := s.payCredits_rest s.th hp
  have hr : SameRest s ((s.payCredits s.th).setTh s.th.settled) := hr₀.trans (sameRest_setThr _ _ _)
  unfold State.finish
  rw [if_neg (by decide)]
  dsimp only
  rw [payCredits_th s s.th hp]
  rw [show { s.th with dualPfx := none, vals := [], taken := [], planes := [], atAnchor := false, reissue := false,
                       bound := false, saveFor := none, woke := .none } = s.th.settled from rfl]
  generalize hu : (s.payCredits s.th).setTh s.th.settled = u at hr
  have hth : u.th = s.th.settled := by
    rw [← hu, State.th_setTh]
  have hcur : u.thr u.cur = u.th := rfl
  unfold State.passed
  dsimp only
  rw [State.th_setThr_cur, hcur, hth]
  rw [show s.th.settled.loops = [] from hl]
  simp only [List.reverse_nil, stepLoops]
  rw [hr.nextPC]
  rfl

end

end Sys2Proof.Machine
end

