-- ==== Sys2Proof/Laws/Memory.lean ====
section
/-!
SUPPORT. Every operation that writes a byte memory keeps its canonical form.
-/
namespace Sys2Proof.Machine

/-! ### What the form of a state is about -/

theorem memWf_iff (s : State) : s.memWf = true ↔
    Memory.wf s.mem = true ∧ Memory.wf s.hostMem = true ∧ Memory.wf s.peerMem = true ∧
      ∀ e ∈ s.cores, Memory.wf e.2.sp = true ∧ Memory.wf e.2.code = true := by
  simp [State.memWf, and_assoc]

/-- States with the same memories and the same cores are sound together. -/
theorem Sound.congr {s t : State} (h : Sound s) (hm : t.mem = s.mem) (hh : t.hostMem = s.hostMem)
    (hp : t.peerMem = s.peerMem) (hc : t.cores = s.cores) : Sound t := by
  unfold Sound at h ⊢
  rw [memWf_iff] at h ⊢
  rw [hm, hh, hp, hc]
  exact h

theorem Sound.mem {s : State} (h : Sound s) : Memory.wf s.mem = true := ((memWf_iff s).mp h).1
theorem Sound.hostMem {s : State} (h : Sound s) : Memory.wf s.hostMem = true := ((memWf_iff s).mp h).2.1
theorem Sound.peerMem {s : State} (h : Sound s) : Memory.wf s.peerMem = true := ((memWf_iff s).mp h).2.2.1

theorem look_mem {α : Type} {t : Tbl α} {k : Nat} {v : α} (h : t.look k = some v) : (k, v) ∈ t := by
  induction t with
  | nil => cases h
  | cons e r ih =>
    obtain ⟨i, w⟩ := e
    simp only [Tbl.look] at h
    split at h
    · next hi => cases h; cases hi; exact List.mem_cons_self ..
    · exact List.mem_cons_of_mem _ (ih h)

/-- The scratchpad and the code store of a core are in canonical form, one never written to among them. -/
theorem Sound.core {s : State} (h : Sound s) (c : Nat) :
    Memory.wf (s.core c).sp = true ∧ Memory.wf (s.core c).code = true := by
  unfold State.core Tbl.lookD
  cases hl : s.cores.look c with
  | none => exact ⟨rfl, rfl⟩
  | some x => exact ((memWf_iff s).mp h).2.2.2 _ (look_mem hl)

/-! ### Writing one memory -/

theorem Sound.setMem {s : State} (h : Sound s) {m : Tbl Byte} (hm : Memory.wf m = true) : Sound { s with mem := m } :=
  (memWf_iff _).mpr ⟨hm, ((memWf_iff s).mp h).2⟩

theorem Sound.setHostMem {s : State} (h : Sound s) {m : Tbl Byte} (hm : Memory.wf m = true) :
    Sound { s with hostMem := m } :=
  (memWf_iff _).mpr ⟨h.mem, hm, ((memWf_iff s).mp h).2.2⟩

theorem Sound.setPeerMem {s : State} (h : Sound s) {m : Tbl Byte} (hm : Memory.wf m = true) :
    Sound { s with peerMem := m } :=
  (memWf_iff _).mpr ⟨h.mem, h.hostMem, hm, ((memWf_iff s).mp h).2.2.2⟩

theorem Sound.setCore {s : State} (h : Sound s) (c : Nat) {x : Core} (hs : Memory.wf x.sp = true)
    (hc : Memory.wf x.code = true) : Sound (s.setCore c x) := by
  refine (memWf_iff _).mpr ⟨h.mem, h.hostMem, h.peerMem, fun e he => ?_⟩
  rcases Tbl.mem_ins he with rfl | he
  · exact ⟨hs, hc⟩
  · exact ((memWf_iff s).mp h).2.2.2 e he

theorem Sound.modCore {s : State} (h : Sound s) (c : Nat) (f : Core → Core)
    (hs : ∀ x, Memory.wf x.sp = true → Memory.wf (f x).sp = true)
    (hc : ∀ x, Memory.wf x.code = true → Memory.wf (f x).code = true) : Sound (s.modCore c f) :=
  h.setCore c (hs _ (h.core c).1) (hc _ (h.core c).2)

theorem Sound.setFree {s : State} (h : Sound s) (n : Nat) : Sound { s with free := n } := h.congr rfl rfl rfl rfl

theorem Sound.setThr {s : State} (h : Sound s) (id : Word32) (t : Thread) : Sound (s.setThr id t) :=
  h.congr rfl rfl rfl rfl

theorem Sound.postOnce {s : State} (h : Sound s) (e : Instr) : Sound (s.postOnce e) := by
  unfold State.postOnce
  split
  · exact h
  · exact h.congr rfl rfl rfl rfl

theorem Sound.tryFree {s : State} (h : Sound s) (id : Word32) : Sound (s.tryFree id) := by
  unfold State.tryFree
  dsimp only
  split
  · exact h.postOnce _
  · exact h

theorem Sound.post {s : State} (h : Sound s) (e : Instr) (ch d : Nat) : Sound (s.post e ch d) :=
  h.congr rfl rfl rfl rfl

/-! ### Writes of bytes -/

theorem wf_putRun {m : Tbl Byte} (h : Memory.wf m = true) (a : Nat) (bs : List Byte) :
    Memory.wf (m.putRun 0#8 a bs) = true := Tbl.canon_putRun a bs h

theorem wf_cells {m : Tbl Byte} (h : Memory.wf m = true) (cs : List Host.Cell) :
    Memory.wf (cs.foldl (fun (m : Tbl Byte) (e : Host.Cell) => m.put 0#8 e.1 e.2) m) = true :=
  Tbl.canon_foldl_put _ _ cs h

theorem Core.spWrite_wf {c : Core} (h : Memory.wf c.sp = true) (o : Nat) (bs : List Byte) :
    Memory.wf (c.spWrite o bs).sp = true := wf_putRun h o bs

theorem Core.spPut_wf {c : Core} (h : Memory.wf c.sp = true) (o n x : Nat) (b : Word32) (full : Bool) :
    Memory.wf (c.spPut o n x b full).sp = true := by
  unfold Core.spPut
  cases full <;> exact wf_putRun h o (leBytes n x)

theorem Core.spPut_code (c : Core) (o n x : Nat) (b : Word32) (full : Bool) : (c.spPut o n x b full).code = c.code := by
  unfold Core.spPut
  cases full <;> rfl

/-- A write of device memory at once. -/
theorem Sound.dmWrite {s : State} (h : Sound s) (pa : Nat) (bs : List Byte) : Sound (s.dmWrite pa bs) :=
  h.setMem (wf_putRun h.mem pa bs)

theorem Sound.setSb {s : State} (h : Sound s) (pa : Nat) (w : Word32) : Sound (s.setSb pa w) := h.congr rfl rfl rfl rfl

/-- Read after write of device memory: a byte written is the byte read, every other byte is as it was. -/
theorem dmWrite_byte (s : State) (pa : Nat) (bs : List Byte) (a : Nat) :
    (s.dmWrite pa bs).mem.lookD a 0#8 =
      if pa ≤ a ∧ a < pa + bs.length then bs.getD (a - pa) 0#8 else s.mem.lookD a 0#8 :=
  Tbl.lookD_putRun s.mem 0#8 pa a bs

/-- Read after write of a scratchpad. -/
theorem spWrite_byte (c : Core) (o : Nat) (bs : List Byte) (a : Nat) :
    (c.spWrite o bs).sp.lookD a 0#8 =
      if o ≤ a ∧ a < o + bs.length then bs.getD (a - o) 0#8 else c.sp.lookD a 0#8 :=
  Tbl.lookD_putRun c.sp 0#8 o a bs

/-- An activation of a row counts, and may throttle it. -/
theorem Sound.activate {s : State} (h : Sound s) (pa : Nat) : Sound (s.activate pa) := by
  unfold State.activate
  dsimp only
  have h2 (n : Nat) : Sound (s.modCore (homeCore pa) fun x => { x with rows := x.rows.ins (rowKey (dramRow pa)) n }) :=
    h.modCore _ _ (fun _ hx => hx) (fun _ hx => hx)
  split
  · exact h
  · split
    · exact (h2 _).post _ _ _
    · exact h2 _

theorem Sound.ite {s t : State} (h : Sound s) (g : Sound t) (p : Prop) [Decidable p] : Sound (if p then s else t) := by
  split <;> assumption
theorem Sound.count {s : State} (h : Sound s) (e n : Nat) : Sound (s.count e n) := h.congr rfl rfl rfl rfl
theorem Sound.renewed {s : State} (h : Sound s) (pa : Nat) : Sound (s.renewed pa) := h.congr rfl rfl rfl rfl

theorem Sound.miscorrect {s : State} (h : Sound s) (pa sev : Nat) : Sound (s.miscorrect pa sev) := by
  unfold State.miscorrect
  exact ((h.setFree (s.free + 9)).dmWrite _ _).setSb _ _

/-- A controller's read of a line writes it only where it takes the line for another. -/
theorem Sound.eccRead {s : State} (h : Sound s) (pa : Nat) : Sound (s.eccRead pa) := by
  unfold State.eccRead
  split
  · exact h
  · have hr := h.renewed pa
    exact Sound.count ((hr.setSb _ _).ite ((hr.miscorrect _ _).ite (hr.setSb _ _) _) _) _ _

theorem Sound.lineRead {s : State} (h : Sound s) (pa : Nat) : Sound (s.lineRead pa) := (h.eccRead pa).activate pa

/-- What every step of a fold keeps sound, the fold keeps sound. -/
theorem Sound.foldl {β : Type} {f : State → β → State} (step : ∀ s x, Sound s → Sound (f s x)) (xs : List β) {s : State}
    (h : Sound s) : Sound (xs.foldl f s) := foldl_keeps step xs h

theorem Sound.walkRead {s : State} (h : Sound s) (core part va : Nat) : Sound (s.walkRead core part va) :=
  Sound.foldl (fun _ a hs => hs.lineRead a) _ h

theorem Sound.pteOr {s : State} (h : Sound s) (core a : Nat) (m : Byte) : Sound (s.pteOr core a m) := by
  unfold State.pteOr
  split
  · exact h.modCore _ _ (fun _ hx => hx) (fun _ hx => hx)
  · exact (h.dmWrite _ _).activate _

theorem Sound.setMoving {s : State} (h : Sound s) (leaf : Nat) : Sound (s.setMoving leaf) := (h.dmWrite _ _).activate _

theorem Sound.rewriteLeaf {s : State} (h : Sound s) (leaf frame : Nat) : Sound (s.rewriteLeaf leaf frame) := by
  unfold State.rewriteLeaf
  refine Sound.activate (Sound.dmWrite ?_ _ _) _
  split
  · exact h.congr rfl rfl rfl rfl
  · exact h

/-- The lines of a page that are written whole. -/
theorem Sound.pageWritten {s : State} (h : Sound s) (tgt : Nat) : Sound (s.pageWritten tgt) :=
  Sound.foldl (fun _ _ hs => (hs.renewed _).activate _) _ h

/-- A pending store performed at its home port. -/
theorem Sound.perform {s : State} (h : Sound s) (p : PendStore) : Sound (s.perform p) :=
  Sound.setSb (Sound.congr (s := { s with mem := p.bytes.foldl (fun (m : Tbl Byte) (e : Host.Cell) => m.put 0#8 e.1 e.2) s.mem })
    (h.setMem (wf_cells h.mem p.bytes)) (by cases p.line <;> rfl) (by cases p.line <;> rfl) (by cases p.line <;> rfl)
    (by cases p.line <;> rfl)) _ _

/-- A store reaches its line. -/
theorem Sound.performNow {s : State} (h : Sound s) (p : PendStore) : Sound (s.performNow p) :=
  ((h.ite (h.eccRead _) _).perform p).activate _

theorem Sound.traffic {s : State} (h : Sound s) (id : Word32) : Sound (s.traffic id) := by
  unfold State.traffic
  repeat' split
  all_goals first | exact h | exact h.congr rfl rfl rfl rfl

/-- A pending store leaves its list and its count. -/
theorem Sound.performStore {s : State} (h : Sound s) (thid : Word32) (id : Nat) : Sound (s.performStore thid id) := by
  unfold State.performStore
  split
  · exact h
  · next core p _ =>
    dsimp only
    refine Sound.tryFree (Sound.postOnce (Sound.traffic (Sound.foldl (fun _ _ hs => hs.postOnce _) _ ?_) _) _) _
    have h1 := h.modCore core (fun c => { c with pend := c.pend.filter (· != p) }) (fun _ hx => hx) (fun _ hx => hx)
    have h2 (a : List Posting) : Sound { s.modCore core fun c => { c with pend := c.pend.filter (· != p) } with agenda := a } :=
      h1.congr rfl rfl rfl rfl
    split
    · exact ((h2 _).performNow _).setThr _ _
    · exact (h2 _).performNow _

/-- The stores to a run of bytes performed. -/
theorem Sound.drainPort {s : State} (h : Sound s) (lo hi : Nat) : Sound (s.drainPort lo hi) := by
  unfold State.drainPort
  refine Sound.foldl (fun s e hs => ?_) _ h
  dsimp only
  split
  · exact hs
  · exact Sound.foldl (fun _ _ hs => hs.performStore _ _) _ hs

/-- A page moves with its sideband words. -/
theorem Sound.movePage {s : State} (h : Sound s) (from' tgt : Nat) : Sound (s.movePage from' tgt) :=
  Sound.pageWritten (Sound.foldl (fun _ _ hs => hs.setSb _ _) _
    ((Sound.foldl (fun _ _ hs => hs.lineRead _) _ (h.drainPort _ _)).dmWrite _ _)) _

theorem Sound.expandPage {s : State} (h : Sound s) (tgt : Nat) : Sound (s.expandPage tgt) :=
  Sound.pageWritten (Sound.foldl (fun _ _ hs => hs.setSb _ _) _ ((h.setFree (s.free + 576)).dmWrite _ _)) _

theorem Sound.noteWalk {s : State} (h : Sound s) (core : Nat) (ws : List WalkEnt) : Sound (s.noteWalk core ws) := by
  unfold State.noteWalk
  split
  · exact h
  · exact h.modCore _ _ (fun _ hx => hx) (fun _ hx => hx)

/-- A translation may set bits of a leaf and fill the TLB and the walk cache. -/
theorem Sound.translate {s : State} (h : Sound s) (core part : Nat) (u : Bool) (va : Word) (a : Acc) :
    Sound (s.translate core part u va a).2 := by
  unfold State.translate
  dsimp only
  split
  · exact h
  · cases (s.core core).tlb.find? _ with
    | some e =>
      dsimp only
      repeat' split
      all_goals exact h
    | none =>
      dsimp only
      replace h := h.walkRead core part (va.toNat % 2 ^ 48)
      generalize s.walkRead core part (va.toNat % 2 ^ 48) = s at h ⊢
      rcases s.walk core part (va.toNat % 2 ^ 48) with ⟨r, ws⟩
      cases r with
      | error c => exact h
      | ok l =>
        dsimp only
        rcases s.contigLeaf core l (va.toNat % 2 ^ 48) with ⟨pte, frame⟩
        dsimp only
        cases leafCause pte u a with
        | some c => exact h
        | none =>
          dsimp only
          split
          · split <;> exact h
          · split
            · exact h
            · refine Sound.noteWalk ?_ _ _
              have h2 (x : Nat) (m : Byte) : Sound (if x = l.pte then s else s.pteOr core (l.addr + 1) m) := by
                split
                · exact h
                · exact h.pteOr _ _ _
              have h3 (x : Nat) (m : Byte) (f : Core → List TlbEnt) := (h2 x m).modCore core (fun c => { c with tlb := f c })
                (fun _ hx => hx) (fun _ hx => hx)
              split
              · exact (h3 _ _ _).setFree _
              · exact h3 _ _ _

/-- What a controller's access of a page leaves. -/
theorem Sound.ctlMark {s : State} (h : Sound s) (part : Nat) (va : Word) (a : Acc) : Sound (s.ctlMark part va a) := by
  unfold State.ctlMark
  split
  · next c _ pa _ _ =>
    refine Sound.lineRead ?_ _
    have ht := h.translate c part false va a
    generalize s.translate c part false va a = r at ht ⊢
    obtain ⟨t, s'⟩ := r
    cases t with
    | ok _ => exact ht
    | touch _ _ => exact Sound.ite ht (Sound.pteOr ht _ _ _) _
    | fault _ => exact ht
  · exact h

/-- A host-window write performed at the host. -/
theorem Sound.hostPerform {s : State} (h : Sound s) (id : Nat) : Sound (s.hostPerform id) := by
  unfold State.hostPerform
  split
  · exact h
  · next e _ =>
    have h2 := (h.setHostMem (wf_cells h.hostMem e.bytes)).congr (t := { s with
      overs := match e.bytes with | [] => s.overs | c :: _ => s.oversWith true c.1 e.bytes.length
      hostPend := s.hostPend.del id
      hostMem := e.bytes.foldl (fun (m : Tbl Byte) (c : Host.Cell) => m.put 0#8 c.1 c.2) s.hostMem }) rfl rfl rfl rfl
    dsimp only
    split
    · exact h2
    · exact ((h2.setThr _ _).postOnce _).tryFree _

/-- A write of an engine to device memory, a scratchpad, a host or a peer. -/
theorem Sound.keyWrite {s : State} (h : Sound s) (k : Nat) (bs : List Byte) (full : Bool) (b : Word32)
    (bvalid poison : Bool) : Sound (s.keyWrite k bs full b bvalid poison) := by
  unfold State.keyWrite
  split
  · exact h.setPeerMem (wf_putRun h.peerMem _ bs)
  · split
    · exact (h.setHostMem (wf_putRun h.hostMem _ bs)).congr rfl rfl rfl rfl
    · split
      · exact h.modCore _ _ (fun _ hx => Core.spPut_wf hx ..) (fun x hx => by rw [Core.spPut_code]; exact hx)
      · refine Sound.setSb (Sound.activate (Sound.dmWrite ?_ _ _) _) _ _
        split
        · exact h.renewed _
        · exact h.eccRead _

/-- The controller's write of a line of a page. -/
theorem Sound.putEntry {s : State} (h : Sound s) (q : Queue) (a : Nat) (pk : Vec) : Sound (s.putEntry q a pk) := by
  unfold State.putEntry
  dsimp only
  split
  · split
    · exact h.setHostMem (wf_putRun h.hostMem _ _)
    · exact h
  · split
    · exact (h.ctlMark ..).perform _
    · exact h

/-- A kernel's image put into a code store. -/
theorem Sound.storeImage {s t : State} (h : Sound s) (k : Nat) (x : Kernel) (core : Nat)
    (ht : s.storeImage k x core = some t) : Sound t := by
  unfold State.storeImage at ht
  dsimp only at ht
  split at ht
  · cases ht; exact h
  · split at ht
    · cases ht
    · next a _ =>
      cases ht
      exact h.setCore core (h.core core).1 (wf_putRun (h.core core).2 a _)

/-- The placed instruction of a probe. -/
theorem Sound.withFetchWord {s : State} (h : Sound s) (nbits w : Nat) : Sound (s.withFetchWord nbits w) := by
  have h2 := (memWf_iff _).mp (h.setCore 0 (x := { s.core 0 with
    pcore := some 0, lcore := some 0, resv := (s.core 0).resv.ins 0 0x10000#32, codeRuns := [⟨0, 0, 128, 0#64⟩],
    code := (s.core 0).code.putRun 0#8 0 (leBytes 128 (lineWith w)) }) (h.core 0).1 (wf_putRun (h.core 0).2 0 _))
  exact (memWf_iff _).mpr ⟨h.mem, h.hostMem, h.peerMem, h2.2.2.2⟩

end Sys2Proof.Machine
end

