-- ==== Sys2Proof/Laws/PerInstr.lean ====
section
/-!
SUPPORT. The family Row: what each instruction's row of the encoding says is what its form reads back. One lemma for each
constructor of Instr; an event has no row and is not well formed.
-/
namespace Sys2Proof
set_option Elab.async false
set_option linter.unusedSimpArgs false

/-! ### Field codes: each is read back as what it stands for -/

@[simp] theorem bv_toNat {w : Nat} (x : BitVec w) : bv w x.toNat = x := by simp [bv]
@[simp] theorem bv_zero {w : Nat} : bv w 0 = 0#w := rfl
theorem bitOf_false : bitOf false = 0 := rfl
theorem bitOf_true : bitOf true = 1 := rfl
@[simp] theorem bitOf_beq (b : Bool) : (bitOf b == 1) = b := by cases b <;> rfl
@[simp] theorem headOf_row (h : Head) : headOf h.guard.toNat (bitOf h.gneg) = h := by cases h; simp [headOf]
@[simp] theorem fldOf_row (f : Fld) : fldOf f.spec.toNat (bitOf f.sync) = f := by cases f; simp [fldOf]
@[simp] theorem fldOf_zero (s : Bool) : fldOf 0 (bitOf s) = ⟨0#8, s⟩ := by simp [fldOf]
@[simp] theorem fmtOf_code (t : Fmt) : fmtOf (fmtCode t) = t := by cases t <;> rfl
@[simp] theorem ftyOf_code (t : FTy) : ftyOf (ftyCode t) = t := by cases t <;> rfl
@[simp] theorem rcOf_code (r : Rc) : rcOf (rcCode r) = r := by cases r <;> rfl
@[simp] theorem condOf_code (c : Cond) : condOf (condCode c) = c := by cases c <;> rfl
@[simp] theorem fcondOf_code (c : FCond) : fcondOf (fcondCode c) = c := by cases c <;> rfl
@[simp] theorem sgnOf_code (o : SgnOp) : sgnOf (sgnCode o) = o := by cases o <;> rfl
@[simp] theorem shOf_code (k : ShKind) : shOf (shCode k) = k := by cases k <;> rfl
@[simp] theorem bitsOf_code (o : BitsOp) : bitsOf (bitsCode o) = o := by cases o <;> rfl
@[simp] theorem logOf_code (o : LogOp) : logOf (logCode o) = o := by cases o <;> rfl
@[simp] theorem maskOf_code (o : MaskOp) : maskOf (maskCode o) = o := by cases o <;> rfl
@[simp] theorem szOf_code (z : Sz) : szOf (szCode z) = z := by cases z <;> rfl
@[simp] theorem ordOf_code (o : MOrd) : ordOf (ordCode o) = o := by cases o <;> rfl
@[simp] theorem atOf_code (o : AtOp) : atOf (atCode o) = o := by cases o <;> rfl
@[simp] theorem scopeOf_code (c : Scope) : scopeOf (scopeCode c) = c := by cases c <;> rfl
@[simp] theorem sbOf_code (t : SbTgt) : sbOf (sbCode t) = t := by cases t <;> rfl
@[simp] theorem hkOf_code (k : HireKind) : hkOf (hkCode k) = k := by cases k <;> rfl
@[simp] theorem rcBad_code (r : Rc) : rcBad (rcCode r) = false := by cases r <;> rfl
@[simp] theorem ftyCode_ne (t : FTy) : (ftyCode t == 3) = false := by cases t <;> rfl
@[simp] theorem fmtBad_code (p : Fmt → Bool) (t : Fmt) : fmtBad p (fmtCode t) = !p t := by cases t <;> rfl
@[simp] theorem fmtBad_fty (t : FTy) : fmtBad Fmt.isF (ftyCode t) = false := by cases t <;> rfl
@[simp] theorem condCode_ne (c : Cond) : (condCode c = 7) = False := by cases c <;> simp [condCode]
@[simp] theorem toNat_eq_zero {w : Nat} (x : BitVec w) : (x.toNat = 0) = (x = 0#w) := by simp [BitVec.toNat_eq]
@[simp] theorem ftyOf_fty (t : FTy) : fmtOf (ftyCode t) = t.fmt := by cases t <;> rfl
@[simp] theorem ordCode_ar (o : MOrd) : (ordCode o = 3) = (o = .ar) := by cases o <;> simp [ordCode]
theorem below2 {n : Nat} {p : Prop} : (n < 2 ∨ p) ↔ (2 ≤ n → p) :=
  ⟨fun h g => h.elim (fun l => absurd g (by omega)) id, fun h => (Nat.lt_or_ge n 2).imp id h⟩
theorem six4 (x : BitVec 4) : (x.toNat = 6) = (x = 6#4) := by simp [← BitVec.toNat_inj]
theorem atCode_lt (o : AtOp) : atCode o < 9 := by cases o <;> simp [atCode]
theorem sbCode_ne (t : SbTgt) : ¬sbCode t = 3 := by cases t <;> simp [sbCode]
theorem zero_of {b : Fld} (h : b.isZero = true) : b = ⟨0, false⟩ := by
  cases b; simp [Fld.isZero] at h; simp [h]

namespace Laws.Row

/-- The form of a well-formed instruction's row reads the row's values back as that instruction, with no offence. -/
def Statement (i : Instr) : Prop :=
  WellFormed.instr i = true → ∃ op vs F, rowOf i = some (op, vs) ∧ formOf op (subOf i) = some F ∧ (F.rd vs).ins = i ∧
    ∀ e ∈ (F.rd vs).bad, e.1 = false

/-- An instruction whose form is known. -/
theorem intro {i : Instr} {op : Nat} {vs : List Nat} {F : Form} (hr : rowOf i = some (op, vs)) (hf : formOf op (subOf i) = some F)
    (h : WellFormed.instr i = true → (F.rd vs).ins = i ∧ ∀ e ∈ (F.rd vs).bad, e.1 = false) : Statement i :=
  fun hw => ⟨op, vs, F, hr, hf, h hw⟩

theorem nop (h : Head) : Statement (.nop h) := intro rfl rfl fun _ => by
  simp [hv, fNone, ok]
theorem br (h : Head) (disp : BitVec 24) : Statement (.br h disp) := intro rfl rfl fun _ => by
  simp [hv, ok]
theorem brl (h : Head) (a : BitVec 8) (disp : BitVec 24) : Statement (.brl h a disp) := intro rfl rfl fun _ => by
  simp [hv, ok]
theorem jr (h : Head) (a : Fld) : Statement (.jr h a) := intro rfl rfl fun _ => by
  simp [hv, rD, fA, ok]
theorem jrl (h : Head) (d : Fld) (a : Fld) : Statement (.jrl h d a) := intro rfl rfl fun _ => by
  simp [hv, rDA, fDA, ok]
theorem loop (h : Head) (a : BitVec 8) (disp : BitVec 24) : Statement (.loop h a disp) := intro rfl rfl fun _ => by
  simp [hv, ok]
theorem loopi (h : Head) (n : BitVec 16) (disp : BitVec 24) : Statement (.loopi h n disp) := intro rfl rfl fun _ => by
  simp [hv, ok]
theorem exit (h : Head) : Statement (.exit h) := intro rfl rfl fun _ => by
  simp [hv, fNone, ok]
theorem yield (h : Head) : Statement (.yield h) := intro rfl rfl fun _ => by
  simp [hv, fNone, ok]
theorem waitc (h : Head) (mask : BitVec 4) (n : BitVec 16) : Statement (.waitc h mask n) := intro rfl rfl fun hw => by
  simp [WellFormed.instr] at hw; simp [hv, ok, hw]
theorem waiteEv (h : Head) (d : Fld) (a : Fld) : Statement (.waiteEv h d a) := intro rfl rfl fun _ => by
  simp [hv, rDA, fDAsub, ok]
theorem waiteL (h : Head) (d : Fld) (b : Fld) (n : BitVec 16) : Statement (.waiteL h d b n) := intro rfl rfl fun _ => by
  simp [hv, rDA, ok]
theorem waiteCb (h : Head) (d : Fld) (b : Fld) (n : BitVec 16) : Statement (.waiteCb h d b n) := intro rfl rfl fun _ => by
  simp [hv, rDA, ok]
theorem waiteBk (h : Head) (d : Fld) (a : Fld) : Statement (.waiteBk h d a) := intro rfl rfl fun _ => by
  simp [hv, rDA, fDAsub, ok]
theorem trap (h : Head) (n : BitVec 4) (code : BitVec 16) : Statement (.trap h n code) := intro rfl rfl fun _ => by
  simp [hv, ok]
theorem eret (h : Head) : Statement (.eret h) := intro rfl rfl fun _ => by
  simp [hv, ok]
theorem eretNext (h : Head) : Statement (.eretNext h) := intro rfl rfl fun _ => by
  simp [hv, ok]
theorem spawn (h : Head) (d : Fld) (a : Fld) (b : Fld) (imm : BitVec 32) : Statement (.spawn h d a b imm) := intro rfl rfl fun _ => by
  simp [hv, rDAB, ok]
theorem kill (h : Head) (d : Fld) (a : Fld) : Statement (.kill h d a) := intro rfl rfl fun _ => by
  simp [hv, rDA, fDA, ok]
theorem migr (h : Head) (d : Fld) (a : Fld) : Statement (.migr h d a) := intro rfl rfl fun _ => by
  simp [hv, rDA, fDA, ok]
theorem send (h : Head) (d : Fld) (a : Fld) (b : Fld) : Statement (.send h d a b) := intro rfl rfl fun _ => by
  simp [hv, rDAB, fDAB, ok]
theorem recv (h : Head) (d : Fld) : Statement (.recv h d) := intro rfl rfl fun _ => by
  simp [hv, rD, ok]
theorem recvTry (h : Head) (d : Fld) (b : Fld) : Statement (.recvTry h d b) := intro rfl rfl fun _ => by
  simp [hv, rDA, ok]
theorem signal (h : Head) (d : Fld) (a : Fld) (b : Fld) : Statement (.signal h d a b) := intro rfl rfl fun _ => by
  simp [hv, rDAB, fDAB, ok]
theorem swap (h : Head) (d : Fld) (a : Fld) (b : Fld) : Statement (.swap h d a b) := intro rfl rfl fun _ => by
  simp [hv, rDAB, fDAB, ok]
theorem ctxsv (h : Head) (d : Fld) (a : Fld) (b : Fld) (dev : Bool) (cap : BitVec 16) : Statement (.ctxsv h d a b dev cap) := intro rfl rfl fun _ => by
  simp [hv, rDAB, ok]
theorem ctxld (h : Head) (d : Fld) (a : Fld) (dev : Bool) : Statement (.ctxld h d a dev) := intro rfl rfl fun _ => by
  simp [hv, rDA, ok]
theorem add (h : Head) (d : Fld) (a : Fld) (b : Fld) : Statement (.add h d a b) := intro rfl rfl fun _ => by
  simp [hv, rDAB, fDAB, ok]
theorem sub (h : Head) (d : Fld) (a : Fld) (b : Fld) : Statement (.sub h d a b) := intro rfl rfl fun _ => by
  simp [hv, rDAB, fDAB, ok]
theorem addi (h : Head) (d : Fld) (a : Fld) (imm : BitVec 16) : Statement (.addi h d a imm) := intro rfl rfl fun _ => by
  simp [hv, rDA, fDAI, ok]
theorem mul (h : Head) (d : Fld) (a : Fld) (b : Fld) : Statement (.mul h d a b) := intro rfl rfl fun _ => by
  simp [hv, rDAB, fDAB, ok]
theorem mulh (h : Head) (d : Fld) (a : Fld) (b : Fld) : Statement (.mulh h d a b) := intro rfl rfl fun _ => by
  simp [hv, rDAB, fDAB, ok]
theorem mulhu (h : Head) (d : Fld) (a : Fld) (b : Fld) : Statement (.mulhu h d a b) := intro rfl rfl fun _ => by
  simp [hv, rDAB, fDAB, ok]
theorem div (h : Head) (d : Fld) (a : Fld) (b : Fld) : Statement (.div h d a b) := intro rfl rfl fun _ => by
  simp [hv, rDAB, fDAB, ok]
theorem divu (h : Head) (d : Fld) (a : Fld) (b : Fld) : Statement (.divu h d a b) := intro rfl rfl fun _ => by
  simp [hv, rDAB, fDAB, ok]
theorem rem (h : Head) (d : Fld) (a : Fld) (b : Fld) : Statement (.rem h d a b) := intro rfl rfl fun _ => by
  simp [hv, rDAB, fDAB, ok]
theorem remu (h : Head) (d : Fld) (a : Fld) (b : Fld) : Statement (.remu h d a b) := intro rfl rfl fun _ => by
  simp [hv, rDAB, fDAB, ok]
theorem and (h : Head) (d : Fld) (a : Fld) (b : Fld) : Statement (.and h d a b) := intro rfl rfl fun _ => by
  simp [hv, rDAB, fDAB, ok]
theorem or (h : Head) (d : Fld) (a : Fld) (b : Fld) : Statement (.or h d a b) := intro rfl rfl fun _ => by
  simp [hv, rDAB, fDAB, ok]
theorem xor (h : Head) (d : Fld) (a : Fld) (b : Fld) : Statement (.xor h d a b) := intro rfl rfl fun _ => by
  simp [hv, rDAB, fDAB, ok]
theorem andi (h : Head) (d : Fld) (a : Fld) (imm : BitVec 16) : Statement (.andi h d a imm) := intro rfl rfl fun _ => by
  simp [hv, rDA, fDAI, ok]
theorem ori (h : Head) (d : Fld) (a : Fld) (imm : BitVec 16) : Statement (.ori h d a imm) := intro rfl rfl fun _ => by
  simp [hv, rDA, fDAI, ok]
theorem xori (h : Head) (d : Fld) (a : Fld) (imm : BitVec 16) : Statement (.xori h d a imm) := intro rfl rfl fun _ => by
  simp [hv, rDA, fDAI, ok]
theorem shl (h : Head) (d : Fld) (a : Fld) (b : Fld) : Statement (.shl h d a b) := intro rfl rfl fun _ => by
  simp [hv, rDAB, fDAB, ok]
theorem shr (h : Head) (d : Fld) (a : Fld) (b : Fld) : Statement (.shr h d a b) := intro rfl rfl fun _ => by
  simp [hv, rDAB, fDAB, ok]
theorem sra (h : Head) (d : Fld) (a : Fld) (b : Fld) : Statement (.sra h d a b) := intro rfl rfl fun _ => by
  simp [hv, rDAB, fDAB, ok]
theorem shi (h : Head) (d : Fld) (a : Fld) (kind : ShKind) (n : BitVec 6) : Statement (.shi h d a kind n) := intro rfl rfl fun _ => by
  simp [hv, rDA, ok]
theorem min (h : Head) (d : Fld) (a : Fld) (b : Fld) (u : Bool) : Statement (.min h d a b u) := intro rfl rfl fun _ => by
  simp [hv, rDAB, fMM, ok]
theorem max (h : Head) (d : Fld) (a : Fld) (b : Fld) (u : Bool) : Statement (.max h d a b u) := intro rfl rfl fun _ => by
  simp [hv, rDAB, fMM, ok]
theorem cmp (h : Head) (d : Fld) (a : Fld) (b : Fld) (c : Cond) : Statement (.cmp h d a b c) := intro rfl rfl fun _ => by
  simp [hv, rDAB, ok]
theorem cmpi (h : Head) (d : Fld) (a : Fld) (c : Cond) (imm : BitVec 16) : Statement (.cmpi h d a c imm) := intro rfl rfl fun _ => by
  simp [hv, rDA, ok]
theorem sel (h : Head) (d : Fld) (a : Fld) (b : Fld) (p : BitVec 4) (neg : Bool) : Statement (.sel h d a b p neg) := intro rfl rfl fun _ => by
  simp [hv, rDAB, ok]
theorem movi (h : Head) (d : Fld) (zx : Bool) (imm : BitVec 32) : Statement (.movi h d zx imm) := intro rfl rfl fun _ => by
  simp [hv, rD, ok]
theorem movh (h : Head) (d : Fld) (a : Fld) (imm : BitVec 32) : Statement (.movh h d a imm) := intro rfl rfl fun _ => by
  simp [hv, rDA, ok]
theorem lea (h : Head) (d : Fld) (imm : BitVec 32) : Statement (.lea h d imm) := intro rfl rfl fun _ => by
  simp [hv, rD, ok]
theorem bits (h : Head) (d : Fld) (a : Fld) (op : BitsOp) : Statement (.bits h d a op) := intro rfl rfl fun _ => by
  simp [hv, rDA, ok]
theorem ext (h : Head) (d : Fld) (a : Fld) (sgn : Bool) (pos : BitVec 6) (wm1 : BitVec 6) : Statement (.ext h d a sgn pos wm1) := intro rfl rfl fun hw => by
  simp [WellFormed.instr] at hw; simp [hv, rDA, ok, hw]
theorem ins (h : Head) (d : Fld) (a : Fld) (b : Fld) (pos : BitVec 6) (wm1 : BitVec 6) : Statement (.ins h d a b pos wm1) := intro rfl rfl fun hw => by
  simp [WellFormed.instr] at hw; simp [hv, rDAB, ok, hw]
theorem plog (h : Head) (d : Fld) (a : Fld) (b : Fld) (tbl : BitVec 4) : Statement (.plog h d a b tbl) := fun _ => by
  have hf : formOf 0x3F [tbl.toNat] = formOf 0x3F [0] := by
    have := tbl.isLt
    rcases (show tbl.toNat = 0 ∨ tbl.toNat = 1 ∨ tbl.toNat = 2 ∨ tbl.toNat = 3 ∨ tbl.toNat = 4 ∨ tbl.toNat = 5 ∨ tbl.toNat = 6 ∨ tbl.toNat = 7 ∨
      tbl.toNat = 8 ∨ tbl.toNat = 9 ∨ tbl.toNat = 10 ∨ tbl.toNat = 11 ∨ tbl.toNat = 12 ∨ tbl.toNat = 13 ∨ tbl.toNat = 14 ∨ tbl.toNat = 15 by omega)
      with e | e | e | e | e | e | e | e | e | e | e | e | e | e | e | e <;> (rw [e]; try rfl)
  exact ⟨_, _, _, rfl, hf, by simp [hv, rDAB], by have := tbl.isLt; simp [hv, rDAB]; exact this⟩
theorem plogGet (h : Head) (d : Fld) : Statement (.plogGet h d) := intro rfl rfl fun _ => by
  simp [hv, rD, ok]
theorem plogSet (h : Head) (a : Fld) : Statement (.plogSet h a) := intro rfl rfl fun _ => by
  simp [hv, rD, ok]
theorem fadd (h : Head) (d : Fld) (a : Fld) (b : Fld) (t : FTy) (rc : Rc) : Statement (.fadd h d a b t rc) := intro rfl rfl fun _ => by
  simp [hv, rDAB, fFp3, ok]
theorem fsub (h : Head) (d : Fld) (a : Fld) (b : Fld) (t : FTy) (rc : Rc) : Statement (.fsub h d a b t rc) := intro rfl rfl fun _ => by
  simp [hv, rDAB, fFp3, ok]
theorem fmul (h : Head) (d : Fld) (a : Fld) (b : Fld) (t : FTy) (rc : Rc) : Statement (.fmul h d a b t rc) := intro rfl rfl fun _ => by
  simp [hv, rDAB, fFp3, ok]
theorem fma (h : Head) (d : Fld) (a : Fld) (b : Fld) (c : Fld) (t : FTy) (rc : Rc) : Statement (.fma h d a b c t rc) := intro rfl rfl fun _ => by
  simp [hv, rDAB, rcf, ok]
theorem fdiv (h : Head) (d : Fld) (a : Fld) (b : Fld) (t : FTy) (rc : Rc) : Statement (.fdiv h d a b t rc) := intro rfl rfl fun _ => by
  simp [hv, rDAB, fFp3, ok]
theorem fsqrt (h : Head) (d : Fld) (a : Fld) (t : FTy) (rc : Rc) : Statement (.fsqrt h d a t rc) := intro rfl rfl fun _ => by
  simp [hv, rDA, ok]
theorem fmin (h : Head) (d : Fld) (a : Fld) (b : Fld) (t : FTy) : Statement (.fmin h d a b t) := intro rfl rfl fun _ => by
  simp [hv, rDAB, fFpM, ok]
theorem fmax (h : Head) (d : Fld) (a : Fld) (b : Fld) (t : FTy) : Statement (.fmax h d a b t) := intro rfl rfl fun _ => by
  simp [hv, rDAB, fFpM, ok]
theorem fcmp (h : Head) (d : Fld) (a : Fld) (b : Fld) (t : FTy) (c : FCond) : Statement (.fcmp h d a b t c) := intro rfl rfl fun _ => by
  simp [hv, rDAB, ok]
theorem fcvt (h : Head) (d : Fld) (a : Fld) (tgt : Fmt) (src : Fmt) (rc : Rc) : Statement (.fcvt h d a tgt src rc) := intro rfl rfl fun hw => by
  simp [WellFormed.instr] at hw; simp [hv, rDA, hw]; rcases hw.2 with h | h <;> simp [h]
theorem fcvti (h : Head) (d : Fld) (a : Fld) (tgt : FTy) (src : FTy) (rc : Rc) : Statement (.fcvti h d a tgt src rc) := intro rfl rfl fun _ => by
  simp [hv, rDA, ok]
theorem fsgn (h : Head) (d : Fld) (a : Fld) (b : Fld) (t : FTy) (op : SgnOp) : Statement (.fsgn h d a b t op) := fun hw => by
  cases op <;> simp [WellFormed.instr, WellFormed.sgn] at hw
  case neg => exact ⟨_, _, _, rfl, rfl, by simp [hv, rDA, zero_of hw, sgnCode, sgnOf], by simp [hv, rDA]⟩
  case abs => exact ⟨_, _, _, rfl, rfl, by simp [hv, rDA, zero_of hw, sgnCode, sgnOf], by simp [hv, rDA]⟩
  all_goals exact ⟨_, _, _, rfl, rfl, by simp [hv, rDAB, sgnCode, sgnOf], by simp [hv, rDAB, sgnCode]⟩
theorem vadd (h : Head) (d : Fld) (a : Fld) (b : Fld) (m : BitVec 3) (t : FTy) (rc : Rc) : Statement (.vadd h d a b m t rc) := intro rfl rfl fun _ => by
  simp [hv, rDAB, fV3, ok]
theorem vsub (h : Head) (d : Fld) (a : Fld) (b : Fld) (m : BitVec 3) (t : FTy) (rc : Rc) : Statement (.vsub h d a b m t rc) := intro rfl rfl fun _ => by
  simp [hv, rDAB, fV3, ok]
theorem vmul (h : Head) (d : Fld) (a : Fld) (b : Fld) (m : BitVec 3) (t : FTy) (rc : Rc) : Statement (.vmul h d a b m t rc) := intro rfl rfl fun _ => by
  simp [hv, rDAB, fV3, ok]
theorem vfma (h : Head) (d : Fld) (a : Fld) (b : Fld) (c : BitVec 8) (m : BitVec 3) (t : FTy) (rc : Rc) : Statement (.vfma h d a b c m t rc) := intro rfl rfl fun _ => by
  simp [hv, rDAB, ok]
theorem vdiv (h : Head) (d : Fld) (a : Fld) (b : Fld) (m : BitVec 3) (t : FTy) (rc : Rc) : Statement (.vdiv h d a b m t rc) := intro rfl rfl fun _ => by
  simp [hv, rDAB, fV3, ok]
theorem vsqrt (h : Head) (d : Fld) (a : Fld) (m : BitVec 3) (t : FTy) (rc : Rc) : Statement (.vsqrt h d a m t rc) := intro rfl rfl fun _ => by
  simp [hv, rDA, fV2, ok]
theorem vmin (h : Head) (d : Fld) (a : Fld) (b : Fld) (m : BitVec 3) (t : FTy) : Statement (.vmin h d a b m t) := intro rfl rfl fun _ => by
  simp [hv, rDAB, fVM, ok]
theorem vmax (h : Head) (d : Fld) (a : Fld) (b : Fld) (m : BitVec 3) (t : FTy) : Statement (.vmax h d a b m t) := intro rfl rfl fun _ => by
  simp [hv, rDAB, fVM, ok]
theorem vcmp (h : Head) (d : Fld) (a : Fld) (b : Fld) (m : BitVec 3) (t : Fmt) (c : FCond) : Statement (.vcmp h d a b m t c) := intro rfl rfl fun hw => by
  cases c <;> simp_all [WellFormed.instr, hv, rDAB, fcondCode, fcondOf] <;> cases t <;> simp_all [Fmt.isF, Fmt.isI]
theorem vsel (h : Head) (d : Fld) (a : Fld) (b : Fld) (m : BitVec 3) (t : Fmt) : Statement (.vsel h d a b m t) := intro rfl rfl fun hw => by
  simp [WellFormed.instr] at hw; simp [hv, rDAB, fVF3, ok, hw]
theorem vcvt (h : Head) (d : Fld) (a : Fld) (m : BitVec 3) (tgt : Fmt) (src : Fmt) (q : BitVec 3) (rc : Rc) : Statement (.vcvt h d a m tgt src q rc) := intro rfl rfl fun hw => by
  simp [WellFormed.instr] at hw; simp [hv, rDA, hw]; rcases hw.1.2 with h | h <;> simp [h]
theorem vred (h : Head) (d : Fld) (a : Fld) (m : BitVec 3) (t : FTy) (rc : Rc) : Statement (.vred h d a m t rc) := intro rfl rfl fun _ => by
  simp [hv, rDA, fV2, ok]
theorem vdot (h : Head) (d : Fld) (a : Fld) (b : Fld) (m : BitVec 3) (t : FTy) (rc : Rc) : Statement (.vdot h d a b m t rc) := intro rfl rfl fun _ => by
  simp [hv, rDAB, fV3, ok]
theorem vperm (h : Head) (d : Fld) (a : Fld) (b : Fld) (m : BitVec 3) (t : Fmt) : Statement (.vperm h d a b m t) := intro rfl rfl fun hw => by
  simp [WellFormed.instr] at hw; simp [hv, rDAB, fVF3, ok, hw]
theorem vbcast (h : Head) (d : Fld) (a : Fld) (m : BitVec 3) (t : Fmt) (k : BitVec 6) : Statement (.vbcast h d a m t k) := intro rfl rfl fun hw => by
  simp [WellFormed.instr] at hw; simp [hv, rDA, ok, hw]
theorem vext (h : Head) (d : Fld) (a : Fld) (t : Fmt) (k : BitVec 6) : Statement (.vext h d a t k) := intro rfl rfl fun hw => by
  simp [WellFormed.instr] at hw; simp [hv, rDA, fVK, ok, hw]
theorem vins (h : Head) (d : Fld) (a : Fld) (t : Fmt) (k : BitVec 6) : Statement (.vins h d a t k) := intro rfl rfl fun hw => by
  simp [WellFormed.instr] at hw; simp [hv, rDA, fVK, ok, hw]
theorem viadd (h : Head) (d : Fld) (a : Fld) (b : Fld) (m : BitVec 3) (t : Fmt) (sat : Bool) : Statement (.viadd h d a b m t sat) := intro rfl rfl fun hw => by
  simp [WellFormed.instr] at hw; simp [hv, rDAB, fVS, ok, hw]
theorem visub (h : Head) (d : Fld) (a : Fld) (b : Fld) (m : BitVec 3) (t : Fmt) (sat : Bool) : Statement (.visub h d a b m t sat) := intro rfl rfl fun hw => by
  simp [WellFormed.instr] at hw; simp [hv, rDAB, fVS, ok, hw]
theorem vimul (h : Head) (d : Fld) (a : Fld) (b : Fld) (m : BitVec 3) (t : Fmt) : Statement (.vimul h d a b m t) := intro rfl rfl fun hw => by
  simp [WellFormed.instr] at hw; simp [hv, rDAB, fVF3, ok, hw]
theorem vlog (h : Head) (d : Fld) (a : Fld) (b : Fld) (m : BitVec 3) (t : Fmt) (op : LogOp) : Statement (.vlog h d a b m t op) := intro rfl rfl fun hw => by
  simp [WellFormed.instr] at hw; simp [hv, rDAB, ok, hw]
theorem vsh (h : Head) (d : Fld) (a : Fld) (b : Fld) (m : BitVec 3) (t : Fmt) (op : ShKind) : Statement (.vsh h d a b m t op) := intro rfl rfl fun hw => by
  simp [WellFormed.instr] at hw; simp [hv, rDAB, ok, hw]
theorem vmov (h : Head) (d : Fld) (a : Fld) (m : BitVec 3) (t : Fmt) : Statement (.vmov h d a m t) := intro rfl rfl fun hw => by
  simp [WellFormed.instr] at hw; simp [hv, rDA, ok, hw]
theorem vmask (h : Head) (d : Fld) (a : Fld) (b : Fld) (op : MaskOp) : Statement (.vmask h d a b op) := fun hw => by
  cases op <;> simp [WellFormed.instr] at hw
  case not => exact ⟨_, _, _, rfl, rfl, by simp [hv, rDA, ok, zero_of hw, maskCode, maskOf], by simp [hv, rDA, ok]⟩
  all_goals exact ⟨_, _, _, rfl, rfl, by simp [hv, rDAB, maskCode, maskOf], by simp [hv, rDAB, maskCode]⟩
theorem vfsgn (h : Head) (d : Fld) (a : Fld) (b : Fld) (m : BitVec 3) (t : FTy) (op : SgnOp) : Statement (.vfsgn h d a b m t op) := fun hw => by
  cases op <;> simp [WellFormed.instr, WellFormed.sgn] at hw
  case neg => exact ⟨_, _, _, rfl, rfl, by simp [hv, rDA, zero_of hw, sgnCode, sgnOf], by simp [hv, rDA]⟩
  case abs => exact ⟨_, _, _, rfl, rfl, by simp [hv, rDA, zero_of hw, sgnCode, sgnOf], by simp [hv, rDA]⟩
  all_goals exact ⟨_, _, _, rfl, rfl, by simp [hv, rDAB, sgnCode, sgnOf], by simp [hv, rDAB, sgnCode]⟩
theorem vscan (h : Head) (d : Fld) (a : Fld) (m : BitVec 3) (t : FTy) (rc : Rc) : Statement (.vscan h d a m t rc) := intro rfl rfl fun _ => by
  simp [hv, rDA, fV2, ok]
theorem viota (h : Head) (d : Fld) (m : BitVec 3) (t : Fmt) : Statement (.viota h d m t) := intro rfl rfl fun hw => by
  simp [WellFormed.instr] at hw; simp [hv, rD, ok, hw]
theorem lds (h : Head) (d : Fld) (a : Fld) (typed : Bool) (z : Sz) (imm : BitVec 16) : Statement (.lds h d a typed z imm) := intro rfl rfl fun hw => by
  cases typed <;> cases z <;> simp_all [WellFormed.instr, typedOk, hv, rDA, fLd, badSp, bitOf_false, bitOf_true, szCode, szOf]
theorem sts (h : Head) (a : Fld) (b : Fld) (typed : Bool) (z : Sz) (imm : BitVec 16) : Statement (.sts h a b typed z imm) := intro rfl rfl fun hw => by
  cases typed <;> cases z <;> simp_all [WellFormed.instr, typedOk, hv, rDA, fSt, badSp, bitOf_false, bitOf_true, szCode, szOf]
theorem vlds (h : Head) (d : Fld) (a : Fld) (typed : Bool) (m : BitVec 3) (imm : BitVec 16) : Statement (.vlds h d a typed m imm) := intro rfl rfl fun _ => by
  simp [hv, rDA, fVLd, ok]
theorem vsts (h : Head) (a : Fld) (b : Fld) (typed : Bool) (m : BitVec 3) (imm : BitVec 16) : Statement (.vsts h a b typed m imm) := intro rfl rfl fun _ => by
  simp [hv, rDA, fVSt, ok]
theorem ldd (h : Head) (d : Fld) (a : Fld) (typed : Bool) (o : MOrd) (z : Sz) (imm : BitVec 16) : Statement (.ldd h d a typed o z imm) := intro rfl rfl fun hw => by
  cases typed <;> cases z <;> simp_all [WellFormed.instr, typedOk, hv, rDA, fLd, badDev, bitOf_false, bitOf_true, szCode, szOf]
theorem std (h : Head) (a : Fld) (b : Fld) (typed : Bool) (o : MOrd) (z : Sz) (imm : BitVec 16) : Statement (.std h a b typed o z imm) := intro rfl rfl fun hw => by
  cases typed <;> cases z <;> simp_all [WellFormed.instr, typedOk, hv, rDA, fSt, badDev, bitOf_false, bitOf_true, szCode, szOf]
theorem vldd (h : Head) (d : Fld) (a : Fld) (typed : Bool) (m : BitVec 3) (imm : BitVec 16) : Statement (.vldd h d a typed m imm) := intro rfl rfl fun _ => by
  simp [hv, rDA, fVLd, ok]
theorem vstd (h : Head) (a : Fld) (b : Fld) (typed : Bool) (m : BitVec 3) (imm : BitVec 16) : Statement (.vstd h a b typed m imm) := intro rfl rfl fun _ => by
  simp [hv, rDA, fVSt, ok]
theorem ldh (h : Head) (d : Fld) (a : Fld) (z : Sz) (imm : BitVec 16) : Statement (.ldh h d a z imm) := intro rfl rfl fun hw => by
  simp [hv, rDA, fLd, badHost]
theorem sth (h : Head) (a : Fld) (b : Fld) (z : Sz) (imm : BitVec 16) : Statement (.sth h a b z imm) := intro rfl rfl fun hw => by
  simp [hv, rDA, fSt, badHost]
theorem amod (h : Head) (d : Fld) (a : Fld) (b : Fld) (o : MOrd) (dw : Bool) (op : AtOp) : Statement (.amod h d a b o dw op) := intro rfl rfl fun hw => by
  cases dw <;> simp [hv, rDAB, bitOf_false, bitOf_true, atCode_lt]
theorem casd (h : Head) (d : Fld) (a : Fld) (b : Fld) (c : Fld) (o : MOrd) (dw : Bool) : Statement (.casd h d a b c o dw) := intro rfl rfl fun hw => by
  cases dw <;> simp [hv, rDAB, rcf, bitOf_false, bitOf_true]
theorem amos (h : Head) (d : Fld) (a : Fld) (b : Fld) (dw : Bool) (op : AtOp) : Statement (.amos h d a b dw op) := intro rfl rfl fun hw => by
  cases dw <;> simp [hv, rDAB, bitOf_false, bitOf_true, atCode_lt]
theorem cass (h : Head) (d : Fld) (a : Fld) (b : Fld) (c : Fld) (dw : Bool) : Statement (.cass h d a b c dw) := intro rfl rfl fun hw => by
  cases dw <;> simp [hv, rDAB, rcf, bitOf_false, bitOf_true]
theorem fence (h : Head) (sc : Scope) : Statement (.fence h sc) := intro rfl rfl fun _ => by
  simp [hv, ok]
theorem publish (h : Head) (d : Fld) : Statement (.publish h d) := intro rfl rfl fun _ => by
  simp [hv, rD, fD, ok]
theorem ldsb (h : Head) (d : Fld) (a : Fld) (tg : SbTgt) (imm : BitVec 16) : Statement (.ldsb h d a tg imm) := intro rfl rfl fun hw => by
  simp [hv, rDA, sbCode_ne]
theorem stsb (h : Head) (a : Fld) (b : Fld) (tg : SbTgt) (imm : BitVec 16) : Statement (.stsb h a b tg imm) := intro rfl rfl fun hw => by
  simp [hv, rDA, sbCode_ne]
theorem vgas (h : Head) (d : Fld) (a : Fld) (b : Fld) (m : BitVec 3) (t : Fmt) (sc : BitVec 3) : Statement (.vgas h d a b m t sc) := intro rfl rfl fun hw => by
  simp [WellFormed.instr] at hw; simp [hv, rDAB, ok, hw]
theorem vscs (h : Head) (a : Fld) (b : Fld) (c : Fld) (m : BitVec 3) (t : Fmt) (sc : BitVec 3) : Statement (.vscs h a b c m t sc) := intro rfl rfl fun hw => by
  simp [WellFormed.instr] at hw; simp [hv, rcf, ok, hw]
theorem pgmigNear (h : Head) (d : Fld) (a : Fld) : Statement (.pgmigNear h d a) := intro rfl rfl fun _ => by
  simp [hv, rDA, fDAsub, ok]
theorem pgmigFar (h : Head) (d : Fld) (a : Fld) : Statement (.pgmigFar h d a) := intro rfl rfl fun _ => by
  simp [hv, rDA, fDAsub, ok]
theorem cbset (h : Head) (d : Fld) (a : Fld) (size : BitVec 11) (lgn : BitVec 4) : Statement (.cbset h d a size lgn) := intro rfl rfl fun _ => by
  simp [hv, rDA, ok]
theorem cbpop (h : Head) (d : Fld) (b : Fld) : Statement (.cbpop h d b) := intro rfl rfl fun _ => by
  simp [hv, rDA, ok]
theorem cbpush (h : Head) (d : Fld) (b : Fld) : Statement (.cbpush h d b) := intro rfl rfl fun _ => by
  simp [hv, rDA, ok]
theorem tenq (h : Head) (a : Fld) : Statement (.tenq h a) := intro rfl rfl fun _ => by
  simp [hv, rD, fA, ok]
theorem tdec (h : Head) (a : Fld) : Statement (.tdec h a) := intro rfl rfl fun _ => by
  simp [hv, rD, fA, ok]
theorem tset (h : Head) (a : Fld) (b : Fld) : Statement (.tset h a b) := intro rfl rfl fun _ => by
  simp [hv, rDA, ok]
theorem barAw (h : Head) (d : Fld) (k : BitVec 4) : Statement (.barAw h d k) := intro rfl rfl fun hw => by
  simp [hv, rD, fBar, ok]
theorem barArr (h : Head) (d : Fld) (k : BitVec 4) : Statement (.barArr h d k) := intro rfl rfl fun hw => by
  simp [hv, rD, fBar, ok]
theorem barWait (h : Head) (d : Fld) (a : Fld) (k : BitVec 4) : Statement (.barWait h d a k) := intro rfl rfl fun hw => by
  simp [hv, rDA, fBar, ok]
theorem qput (h : Head) (d : Fld) (a : Fld) (b : Fld) : Statement (.qput h d a b) := intro rfl rfl fun _ => by
  simp [hv, rDAB, fDAB, ok]
theorem hire (h : Head) (d : Fld) (a : Fld) (b : Fld) (c : Fld) (e : HireEng) : Statement (.hire h d a b c e) := intro rfl rfl fun hw => by
  obtain ⟨sta, cofs, hc, dfmt, dsp, ent, cls, rc, lnum, kind, arr⟩ := e
  obtain ⟨spec, sync⟩ := d
  have hd : fldOf spec.toNat (bitOf sync) = ⟨spec, sync⟩ := fldOf_row ⟨spec, sync⟩
  simp only [WellFormed.instr, WellFormed.hire, Bool.and_eq_true, Bool.or_eq_true, beq_iff_eq] at hw
  obtain ⟨⟨h1, h3⟩, h4⟩ := hw
  cases dsp <;> cases hc <;> cases kind <;>
    simp only [reduceCtorEq, false_or, true_or, Bool.false_eq_true, if_false, if_true, beq_iff_eq, bne_iff_ne, ne_eq] at h1 h3 h4 <;>
    (try obtain ⟨rfl, rfl⟩ := h1) <;> (try subst h3) <;> (try subst h4) <;>
    simp [hv, rcf, fHire, hkCode, hkOf, bitOf_false, bitOf_true, hd, six4] <;> try assumption
theorem batld (h : Head) (d : Fld) (a : Fld) (b : Fld) (e : BatEng) : Statement (.batld h d a b e) := intro rfl rfl fun hw => by
  simp [WellFormed.instr] at hw; simp [hv, rDAB, ok, hw]
theorem batfree (h : Head) (a : Fld) : Statement (.batfree h a) := intro rfl rfl fun _ => by
  simp [hv, rD, fA, ok]
theorem copy (h : Head) (d : Fld) (a : Fld) (b : Fld) (c : Fld) (e : CopyEng) : Statement (.copy h d a b c e) := intro rfl rfl fun hw => by
  obtain ⟨ssp, dsp, sfmt, dfmt, rc, lnum, cbn, port, bk, ent, op⟩ := e
  simp only [WellFormed.instr, WellFormed.copy] at hw
  have h4 (x : BitVec 3) : (x.toNat == 4) = (x == 4#3) := by rw [Bool.eq_iff_iff]; simp [← BitVec.toNat_inj]
  have h5 (x : BitVec 3) : (x.toNat == 5) = (x == 5#3) := by rw [Bool.eq_iff_iff]; simp [← BitVec.toNat_inj]
  simp only [rowOf.rCopy, hv, rDAB, rcf, fCopy, h4, h5, bitOf_beq] at hw ⊢
  cases bk <;> cases e1 : (ssp == 4#3 || dsp == 4#3) <;> cases e2 : (dsp == 5#3) <;> simp_all [six4, below2, show bv 3 5 = 5#3 from rfl] <;> grind
theorem copyr (h : Head) (d : Fld) (a : Fld) (b : Fld) (c : Fld) (e : CopyEng) : Statement (.copyr h d a b c e) := intro rfl rfl fun hw => by
  obtain ⟨ssp, dsp, sfmt, dfmt, rc, lnum, cbn, port, bk, ent, op⟩ := e
  simp only [WellFormed.instr, WellFormed.copy] at hw
  have h4 (x : BitVec 3) : (x.toNat == 4) = (x == 4#3) := by rw [Bool.eq_iff_iff]; simp [← BitVec.toNat_inj]
  have h5 (x : BitVec 3) : (x.toNat == 5) = (x == 5#3) := by rw [Bool.eq_iff_iff]; simp [← BitVec.toNat_inj]
  simp only [rowOf.rCopy, hv, rDAB, rcf, fCopy, h4, h5, bitOf_beq] at hw ⊢
  cases bk <;> cases e1 : (ssp == 4#3 || dsp == 4#3) <;> cases e2 : (dsp == 5#3) <;> simp_all [six4, below2, show bv 3 5 = 5#3 from rfl] <;> grind
theorem book (h : Head) (d : Fld) (a : Fld) : Statement (.book h d a) := intro rfl rfl fun _ => by
  simp [hv, rDA, fDAsub, ok]
theorem bookH (h : Head) (d : Fld) (a : Fld) : Statement (.bookH h d a) := intro rfl rfl fun _ => by
  simp [hv, rDA, fDAsub, ok]
theorem unbook (h : Head) (d : Fld) (a : Fld) : Statement (.unbook h d a) := intro rfl rfl fun _ => by
  simp [hv, rDA, fDA, ok]
theorem hstatCp (h : Head) (d : Fld) (a : Fld) : Statement (.hstatCp h d a) := intro rfl rfl fun _ => by
  simp [hv, rDA, fDAsub, ok]
theorem hstatBk (h : Head) (d : Fld) (a : Fld) : Statement (.hstatBk h d a) := intro rfl rfl fun _ => by
  simp [hv, rDA, fDAsub, ok]
theorem hstatBt (h : Head) (d : Fld) (a : Fld) : Statement (.hstatBt h d a) := intro rfl rfl fun _ => by
  simp [hv, rDA, fDAsub, ok]
theorem dual (mask : BitVec 4) : Statement (.dual mask) := intro rfl rfl fun _ => by
  simp [hv, ok]
theorem bndr (h : Head) (d : Fld) (a : Fld) (j : BitVec 3) : Statement (.bndr h d a j) := intro rfl rfl fun hw => by
  simp [WellFormed.instr] at hw; simp [hv, rDA]; exact BitVec.le_def.mp hw
theorem bndw (h : Head) (d : Fld) (a : Fld) (j : BitVec 3) (mx : Bool) : Statement (.bndw h d a j mx) := intro rfl rfl fun hw => by
  simp [WellFormed.instr] at hw; simp [hv, rDA]; exact BitVec.le_def.mp hw
theorem tanr (h : Head) (d : Fld) (a : Fld) (j : BitVec 3) (vec : Bool) : Statement (.tanr h d a j vec) := intro rfl rfl fun hw => by
  simp [WellFormed.instr] at hw; simp [hv, rDA, fTan, hw]; exact BitVec.le_def.mp hw.2
theorem tanw (h : Head) (d : Fld) (a : Fld) (j : BitVec 3) (vec : Bool) : Statement (.tanw h d a j vec) := intro rfl rfl fun hw => by
  simp [WellFormed.instr] at hw; simp [hv, rDA, fTan, hw]; exact BitVec.le_def.mp hw.2
theorem csrr (h : Head) (d : Fld) (n : BitVec 12) : Statement (.csrr h d n) := intro rfl rfl fun hw => by
  simp [WellFormed.instr] at hw; simp [hv, rD, csrBad, hw]
theorem csrw (h : Head) (d : Fld) (a : Fld) (n : BitVec 12) : Statement (.csrw h d a n) := intro rfl rfl fun hw => by
  simp [WellFormed.instr] at hw; simp [hv, rDA, fCsr, csrBad, ok, hw]
theorem csrs (h : Head) (d : Fld) (a : Fld) (n : BitVec 12) : Statement (.csrs h d a n) := intro rfl rfl fun hw => by
  simp [WellFormed.instr] at hw; simp [hv, rDA, fCsr, csrBad, ok, hw]
theorem csrc (h : Head) (d : Fld) (a : Fld) (n : BitVec 12) : Statement (.csrc h d a n) := intro rfl rfl fun hw => by
  simp [WellFormed.instr] at hw; simp [hv, rDA, fCsr, csrBad, ok, hw]
theorem tlbiVa (h : Head) (d : Fld) (a : Fld) : Statement (.tlbiVa h d a) := intro rfl rfl fun _ => by
  simp [hv, rDA, fDAsub, ok]
theorem tlbiAll (h : Head) (d : Fld) (a : Fld) : Statement (.tlbiAll h d a) := intro rfl rfl fun _ => by
  simp [hv, rDA, fDAsub, ok]
theorem tlbiLva (h : Head) (d : Fld) (a : Fld) : Statement (.tlbiLva h d a) := intro rfl rfl fun _ => by
  simp [hv, rDA, fDAsub, ok]
theorem tlbiLall (h : Head) (d : Fld) (a : Fld) : Statement (.tlbiLall h d a) := intro rfl rfl fun _ => by
  simp [hv, rDA, fDAsub, ok]
theorem hold (h : Head) (d : Fld) (a : Fld) : Statement (.hold h d a) := intro rfl rfl fun _ => by
  simp [hv, rDA, fDA, ok]
theorem halt (h : Head) : Statement (.halt h) := intro rfl rfl fun _ => by
  simp [hv, fNone, ok]
theorem ebreak (h : Head) (n : BitVec 16) : Statement (.ebreak h n) := intro rfl rfl fun _ => by
  simp [hv, ok]
theorem mcast (h : Head) (d : Fld) (a : Fld) (b : Fld) (c : Fld) (e : McastEng) : Statement (.mcast h d a b c e) := intro rfl rfl fun _ => by
  simp [hv, rDAB, rcf, ok]
theorem discovery (sx : BitVec 5) (sy : BitVec 5) (west : Bool) (fuse : BitVec 32) : Statement (.discovery sx sy west fuse) := fun h => nomatch h
theorem report (sx : BitVec 5) (sy : BitVec 5) (fuse : BitVec 32) : Statement (.report sx sy fuse) := fun h => nomatch h
theorem map (x : BitVec 5) (y : BitVec 5) (flit : MapFlit) : Statement (.map x y flit) := fun h => nomatch h
theorem linePacket (core : Nat) (data : BitVec 1024) : Statement (.linePacket core data) := fun h => nomatch h
theorem endFlit (core : Nat) (lines : Nat) : Statement (.endFlit core lines) := fun h => nomatch h
theorem bootAck (parent : Option Nat) : Statement (.bootAck parent) := fun h => nomatch h
theorem startFlit (core : Nat) (ts : Word) : Statement (.startFlit core ts) := fun h => nomatch h
theorem attestationRequest (nonce : BitVec 256) : Statement (.attestationRequest nonce) := fun h => nomatch h
theorem synchronisedStop (part : Option Nat) : Statement (.synchronisedStop part) := fun h => nomatch h
theorem sweepToken (core : Nat) (dir : Dir) : Statement (.sweepToken core dir) := fun h => nomatch h
theorem tenantRestore (part : Nat) : Statement (.tenantRestore part) := fun h => nomatch h
theorem threadSeating (core : Nat) : Statement (.threadSeating core) := fun h => nomatch h
theorem contextSaveDone (seat : Nat) : Statement (.contextSaveDone seat) := fun h => nomatch h
theorem contextFetchDone (seat : Nat) : Statement (.contextFetchDone seat) := fun h => nomatch h
theorem sliceExpiry (thid : Word32) : Statement (.sliceExpiry thid) := fun h => nomatch h
theorem seatedWaitTimeout (thid : Word32) : Statement (.seatedWaitTimeout thid) := fun h => nomatch h
theorem fullBitChange (thid : Word32) : Statement (.fullBitChange thid) := fun h => nomatch h
theorem waitEvent (thid : Word32) : Statement (.waitEvent thid) := fun h => nomatch h
theorem migrationArrival (thid : Word32) (core : Nat) : Statement (.migrationArrival thid core) := fun h => nomatch h
theorem postedCauseTaken (thid : Word32) : Statement (.postedCauseTaken thid) := fun h => nomatch h
theorem threadFreed (thid : Word32) : Statement (.threadFreed thid) := fun h => nomatch h
theorem homePortAccess (thid : Word32) (id : Nat) : Statement (.homePortAccess thid id) := fun h => nomatch h
theorem accessAnswer (thid : Word32) : Statement (.accessAnswer thid) := fun h => nomatch h
theorem statusAnswer (thid : Word32) (dst : Fld) (value : Word) : Statement (.statusAnswer thid dst value) := fun h => nomatch h
theorem rowThrottle (core : Nat) (row : Nat) : Statement (.rowThrottle core row) := fun h => nomatch h
theorem refreshSplit (op : Nat) : Statement (.refreshSplit op) := fun h => nomatch h
theorem registrationRequest (op : Nat) (core : Nat) : Statement (.registrationRequest op core) := fun h => nomatch h
theorem stencilRegister (core : Nat) : Statement (.stencilRegister core) := fun h => nomatch h
theorem registrationGrant (op : Nat) (core : Nat) : Statement (.registrationGrant op core) := fun h => nomatch h
theorem copyRunning (op : Nat) : Statement (.copyRunning op) := fun h => nomatch h
theorem slotHandover (core : Nat) (slot : Nat) : Statement (.slotHandover core slot) := fun h => nomatch h
theorem startMessage (op : Nat) : Statement (.startMessage op) := fun h => nomatch h
theorem tracerLine (core : Nat) : Statement (.tracerLine core) := fun h => nomatch h
theorem copyData (op : Nat) (line : Nat) : Statement (.copyData op line) := fun h => nomatch h
theorem copyReport (op : Nat) : Statement (.copyReport op) := fun h => nomatch h
theorem hirePlacement (ridge : Nat) : Statement (.hirePlacement ridge) := fun h => nomatch h
theorem hireStart (op : Nat) : Statement (.hireStart op) := fun h => nomatch h
theorem arrayWindowEnd (op : Nat) (mismatch : Bool) : Statement (.arrayWindowEnd op mismatch) := fun h => nomatch h
theorem landingLine (op : Nat) : Statement (.landingLine op) := fun h => nomatch h
theorem hireLanded (op : Nat) : Statement (.hireLanded op) := fun h => nomatch h
theorem bookAttempt (ridge : Nat) (idx : Nat) : Statement (.bookAttempt ridge idx) := fun h => nomatch h
theorem pendingBookAttempt (ridge : Nat) (idx : Nat) : Statement (.pendingBookAttempt ridge idx) := fun h => nomatch h
theorem bookingStart (ridge : Nat) (idx : Nat) : Statement (.bookingStart ridge idx) := fun h => nomatch h
theorem bookingEnd (ridge : Nat) (idx : Nat) : Statement (.bookingEnd ridge idx) := fun h => nomatch h
theorem taskMessage (src : Word32) (name : Word) (op : TaskOp) : Statement (.taskMessage src name op) := fun h => nomatch h
theorem spawnRequest (req : SpawnReq) : Statement (.spawnRequest req) := fun h => nomatch h
theorem killRequest (src : Word32) (dst : Fld) (target : Word) : Statement (.killRequest src dst target) := fun h => nomatch h
theorem launchPacket (slot : Nat) : Statement (.launchPacket slot) := fun h => nomatch h
theorem dispatchAck (kernel : Nat) (rank : Nat) : Statement (.dispatchAck kernel rank) := fun h => nomatch h
theorem kernelRelease (kernel : Nat) : Statement (.kernelRelease kernel) := fun h => nomatch h
theorem kernelRetirement (kernel : Nat) : Statement (.kernelRetirement kernel) := fun h => nomatch h
theorem queueCreate (req : QueueReq) : Statement (.queueCreate req) := fun h => nomatch h
theorem wakeWrite (part : Nat) (data : BitVec 512) : Statement (.wakeWrite part data) := fun h => nomatch h
theorem queueDestroy (qid : Nat) : Statement (.queueDestroy qid) := fun h => nomatch h
theorem queueDestroyed (qid : Nat) : Statement (.queueDestroyed qid) := fun h => nomatch h
theorem unmappingEnd (slot : Nat) : Statement (.unmappingEnd slot) := fun h => nomatch h
theorem idleUnmap (slot : Nat) : Statement (.idleUnmap slot) := fun h => nomatch h
theorem qputRequest (src : Word32) (dst : Fld) (capAddr : Word) (cap : BitVec 256) (packet : BitVec 512) : Statement (.qputRequest src dst capAddr cap packet) := fun h => nomatch h
theorem barrierArrival (src : Word32) (k : BitVec 4) (dst : Fld) (wait : Bool) : Statement (.barrierArrival src k dst wait) := fun h => nomatch h
theorem barrierRelease (part : Nat) (k : BitVec 4) (core : Nat) : Statement (.barrierRelease part k core) := fun h => nomatch h
theorem barrierWithdrawal (src : Word32) (k : BitVec 4) : Statement (.barrierWithdrawal src k) := fun h => nomatch h
theorem queueEntry (core : Nat) (dir : Dir) (value : Word) : Statement (.queueEntry core dir value) := fun h => nomatch h
theorem creditReturn (core : Nat) (dir : Dir) : Statement (.creditReturn core dir) := fun h => nomatch h
theorem probeTokenSend (core : Nat) : Statement (.probeTokenSend core) := fun h => nomatch h
theorem probeToken (origin : Nat) (core : Nat) (dir : Dir) (hops : Nat) : Statement (.probeToken origin core dir hops) := fun h => nomatch h
theorem mailboxDelivery (src : Word32) (dst : Fld) (target : Word) (value : Word) : Statement (.mailboxDelivery src dst target value) := fun h => nomatch h
theorem sendRetry (src : Word32) : Statement (.sendRetry src) := fun h => nomatch h
theorem signalDelivery (src : Word32) (dst : Fld) (target : Word) (mask : Word) : Statement (.signalDelivery src dst target mask) := fun h => nomatch h
theorem publishApply (src : Word32) (dst : Fld) : Statement (.publishApply src dst) := fun h => nomatch h
theorem peerWrite (port : Nat) (offset : Nat) (line : Vec) : Statement (.peerWrite port offset line) := fun h => nomatch h
theorem frameAvailable (core : Nat) (frame : Option Nat) : Statement (.frameAvailable core frame) := fun h => nomatch h
theorem shootdown (core : Nat) (va : Option Word) (op : Nat) : Statement (.shootdown core va op) := fun h => nomatch h
theorem migrationComplete (op : Nat) : Statement (.migrationComplete op) := fun h => nomatch h
theorem pageEviction (part : Nat) (va : Word) (frame : Option Nat) : Statement (.pageEviction part va frame) := fun h => nomatch h
theorem pageRetire (part : Nat) (va : Word) : Statement (.pageRetire part va) := fun h => nomatch h
theorem peerPortFailure (port : Nat) : Statement (.peerPortFailure port) := fun h => nomatch h
theorem thermalExcursion (die : Nat) (peak : Nat) : Statement (.thermalExcursion die peak) := fun h => nomatch h
theorem supplyDroop (die : Nat) (depth : Nat) : Statement (.supplyDroop die depth) := fun h => nomatch h
theorem tenantSwitch (part : Nat) (ts : Word) : Statement (.tenantSwitch part ts) := fun h => nomatch h
theorem partitionCreate (desc : PartDesc) : Statement (.partitionCreate desc) := fun h => nomatch h
theorem partitionDestroy (part : Nat) : Statement (.partitionDestroy part) := fun h => nomatch h
theorem dispatchMulticast (kernel : Nat) (rank : Nat) : Statement (.dispatchMulticast kernel rank) := fun h => nomatch h
theorem evictionComplete (op : Nat) : Statement (.evictionComplete op) := fun h => nomatch h
theorem hostWritePerformed (id : Nat) : Statement (.hostWritePerformed id) := fun h => nomatch h
theorem tickBoundary : Statement .tickBoundary := fun h => nomatch h
theorem reset : Statement .reset := fun h => nomatch h
theorem reportTimeout : Statement .reportTimeout := fun h => nomatch h
theorem imageSend : Statement .imageSend := fun h => nomatch h
theorem firmwareStart : Statement .firmwareStart := fun h => nomatch h
theorem holdRequest : Statement .holdRequest := fun h => nomatch h
theorem resumeRequest : Statement .resumeRequest := fun h => nomatch h
theorem holdReached : Statement .holdReached := fun h => nomatch h
theorem resumptionComplete : Statement .resumptionComplete := fun h => nomatch h
theorem retentionPowerLoss : Statement .retentionPowerLoss := fun h => nomatch h
theorem lifeLogWrite : Statement .lifeLogWrite := fun h => nomatch h
theorem compaction : Statement .compaction := fun h => nomatch h
theorem slotGrant : Statement .slotGrant := fun h => nomatch h
theorem linkDownTimeout : Statement .linkDownTimeout := fun h => nomatch h
theorem linkRetrain : Statement .linkRetrain := fun h => nomatch h
theorem prietLinkDown : Statement .prietLinkDown := fun h => nomatch h
theorem refreshWindowEnd : Statement .refreshWindowEnd := fun h => nomatch h
theorem hang : Statement .hang := fun h => nomatch h

end Laws.Row
end Sys2Proof
end

