-- ==== Sys2Proof/Tests/Slice0.lean ====
section
/-!
SUPPORT. The model's own tests: a state that meets the hypotheses of each statement, one step of each instruction and event, and
words written out from the manual's encodings. Expected values come from the manual's rules and its worked listings.
-/
namespace Sys2Proof.Tests
set_option Elab.async false
open Sys2Proof.Machine Sys2Proof.Claims

def h0 : Head := ⟨0#4, false⟩
def g (n : Nat) : Fld := ⟨BitVec.ofNat 8 n, false⟩
def gq (n : Nat) : Fld := ⟨BitVec.ofNat 8 n, true⟩
def id0 : Word32 := 0x10000#32
/-- A user thread with the largest shape and no tangents, and registers of its own choosing. -/
def thread (regs : List (Nat × Word)) : Thread :=
  { Thread.blank with thid := id0, life := .seated, W := 128, V := 32, g := regs }
def part0 : Part :=
  ⟨⟨0#5, 0, 2, 0#64, 0#64, 0#64, 0#64, 0x2000#64, 0#64, 0x2000#64, 0#64, []⟩, 0#64, 0#64, 0#64, none, [], [], none, [], 0⟩
def core0 : Core := { Core.reset with pcore := some 0, lcore := some 0, resv := [(0, id0)] }
def core1 : Core := { Core.reset with pcore := some 1, lcore := some 1 }
def world (t : Thread) (c : Core) : State :=
  { State.reset with
    pstate := .running, agenda := [], enabled := [0, 1], cores := [(0, c), (1, core1)], parts := [(0, part0)], cur := id0,
    threads := [(0x10000, t)], seats := [(0, ⟨id0, false, false⟩)], nextOp := 8 }
def st (regs : List (Nat × Word)) : State := world (thread regs) core0
def out (i : Instr) (s : State) : State := match exec i s with | .next t => t | _ => State.reset
/-- The instruction a word decodes to. -/
def dec (w : Nat) : Option Instr := match decodeWord w with | .ok i => some i | .error _ => none
/-- The value or the first failure of an operand read. -/
def val {α : Type} (m : M α) (s : State) : Option α := match m s with | .ok (x, _) => some x | .error _ => none
def after {α : Type} (m : M α) (s : State) : State := match m s with | .ok (_, u) => u | .error _ => State.reset
/-- The cause a thread has entered its handler with. -/
def causeOf (s : State) : Nat := s.th.cCode.toNat
def isNext (o : Host.Outcome State Fault Refusal) : Bool := match o with | .next _ => true | _ => false
theorem goes {o : Host.Outcome State Fault Refusal} (h : isNext o = true) : ∃ t, o = .next t := by
  cases o with
  | next t => exact ⟨t, rfl⟩
  | fault => simp [isNext] at h
  | refused => simp [isNext] at h

theorem ok_of {α : Type} {m : M α} {s : State} {x : α} (h : val m s = some x) : m s = .ok (x, after m s) := by
  unfold val at h
  unfold after
  split at h
  · next heq => simp only [Option.some.injEq] at h; rw [heq, h]
  · simp at h

/-- The planes of an access translated and checked at the port of their own core, computed. -/
def checkAll (n : Nat) (acc : Acc) : State → List Word → Option (List Nat × State)
  | s, [] => some ([], s)
  | s, va :: r =>
    match s.translate s.th.core s.th.part s.th.user va acc with
    | (.ok pa, s') =>
      if va.toNat % n = 0 ∧ homeCore pa = s.th.core ∧ stencilCause (s'.core s.th.core).stencil pa n acc.writes = none then
        (checkAll n acc s' r).map fun x => (pa :: x.1, x.2)
      else none
    | _ => none
/-- The lines of those planes read, computed. -/
def linesAll (acc : Acc) : State → List Nat → Option State
  | s, [] => some s
  | s, pa :: r =>
    if acc ≠ .side → sbPoison ((s.lineRead pa).dmSb s.th.core pa) = false then linesAll acc (s.lineRead pa) r else none
theorem checked_of {n : Nat} {acc : Acc} {s t : State} {vas : List Word} {pas : List Nat}
    (h : checkAll n acc s vas = some (pas, t)) : Checked n acc s vas pas t := by
  induction vas generalizing s pas with
  | nil => simp only [checkAll, Option.some.injEq, Prod.mk.injEq] at h; exact ⟨h.1.symm, h.2.symm⟩
  | cons va r ih =>
    unfold checkAll at h
    split at h
    · next pa s' heq =>
      split at h
      · next hc =>
        simp only [Option.map_eq_some_iff, Prod.mk.injEq] at h
        obtain ⟨⟨p, u⟩, h1, h2, rfl⟩ := h
        exact ⟨hc.1, pa, p, s', h2.symm, heq, hc.2.1, hc.2.2, ih h1⟩
      · simp at h
    · simp at h
theorem lines_of {acc : Acc} {s t : State} {pas : List Nat} (h : linesAll acc s pas = some t) : LinesRead acc s pas t := by
  induction pas generalizing s with
  | nil => simp only [linesAll, Option.some.injEq] at h; exact h.symm
  | cons pa r ih =>
    unfold linesAll at h
    split at h
    · next hc => exact ⟨hc, ih h⟩
    · simp at h
/-- The planes of an access brought to the home port of their own core, computed. -/
def reachAll (n : Nat) (acc : Acc) (s : State) (vas : List Word) : Option (List Nat × State) :=
  (checkAll n acc s vas).bind fun x => if acc.reads then (linesAll acc x.2 x.1).map fun t => (x.1, t) else some x
theorem reach_of' {n : Nat} {acc : Acc} {s t : State} {vas : List Word} {pas : List Nat}
    (h : reachAll n acc s vas = some (pas, t)) : Reaches n acc s vas pas t := by
  obtain ⟨⟨p, u⟩, h1, h2⟩ := Option.bind_eq_some_iff.mp h
  split at h2
  · next hr =>
    simp only [Option.map_eq_some_iff, Prod.mk.injEq] at h2
    obtain ⟨w, h3, rfl, rfl⟩ := h2
    exact ⟨u, checked_of h1, by rw [if_pos hr]; exact lines_of h3⟩
  · next hr =>
    simp only [Option.some.injEq, Prod.mk.injEq] at h2
    obtain ⟨rfl, rfl⟩ := h2
    exact ⟨u, checked_of h1, by rw [if_neg hr]⟩
/-- The machine an access reaches its ports in. -/
def reached (n : Nat) (acc : Acc) (s : State) (vas : List Word) : State := ((reachAll n acc s vas).map (·.2)).getD s
theorem reach_of {n : Nat} {acc : Acc} {s : State} {vas : List Word} {pas : List Nat}
    (h : (reachAll n acc s vas).map (·.1) = some pas) : Reaches n acc s vas pas (reached n acc s vas) := by
  obtain ⟨⟨p, t⟩, h1, h2⟩ := Option.map_eq_some_iff.mp h
  have h3 : p = pas := h2
  subst h3
  have : reached n acc s vas = t := by simp [reached, h1]
  rw [this]; exact reach_of' h1

def okAnd {α : Type} (m : M α) (s : State) (p : α → State → Bool) : Bool := match m s with | .ok (x, u) => p x u | .error _ => false
theorem okP {α : Type} {m : M α} {s : State} {p : α → State → Bool} (h : okAnd m s p = true) : ∃ x u, m s = .ok (x, u) ∧ p x u = true := by
  unfold okAnd at h
  split at h
  · next x u heq => exact ⟨x, u, heq, h⟩
  · simp at h

/-! ### Decoding and steps -/

theorem witness_DecodeEncode : WellFormed.instr (.add h0 (g 3) (g 1) (gq 2)) = true := by decide
theorem witness_EncodeDecode : decodeWord 0b0_00000_100_00000010_00000001_00000011_0_0_0000_00100000_01 =
    .ok (.add h0 (g 3) (g 1) (gq 2)) := by rfl
/-- Length code 0; an opcode left out, and a length that is not the format's; bit 15 set. -/
theorem witness_DecodeRefuses :
    (0 % 4 = 0 ∧ decodeWord 0 = .error .length) ∧
    (lengthCode 0x16 ≠ some 1 ∧ decodeWord (4 * 0x16 + 1) = .error (.opcode 0x16)) ∧
    (lengthCode 0x20 ≠ some 2 ∧ decodeWord (4 * 0x20 + 2) = .error (.opcode 0x20)) ∧
    (lengthCode 0x20 = some 1 ∧ (4 * 0x20 + 1 + 2 ^ 15).testBit 15 = true ∧
      decodeWord (4 * 0x20 + 1 + 2 ^ 15) = .error (.field 15)) := by
  refine ⟨⟨by decide, rfl⟩, ⟨by decide, rfl⟩, ⟨by decide, rfl⟩, ⟨by decide, by decide, rfl⟩⟩

/-- addi g3, g1, 1 in slot 2 of the line a thread enters. -/
def addiWord : Nat := 0x22 * 4 + 1 + 3 * 2 ^ 16 + 1 * 2 ^ 24 + 1 * 2 ^ 48
theorem test_addi_word : dec addiWord = some (.addi h0 (g 3) (g 1) 1#16) := by decide +kernel
def placed : State := State.reset.withFetchWord 64 addiWord

set_option maxRecDepth 20000 in
theorem witness_StepRunsInstruction :
    ∃ (s₁ s₃ : State) (l : Nat) (x : Seat) (tr : Tr) (t t' : Thread) (i : Instr),
      placed.pstate ≠ .off ∧ placed.choose = (none, s₁) ∧ s₁.nextMoment = .seat 0 ∧ s₁.seats.look 0 = some x ∧
      x.loading = false ∧ x.saving = false ∧ t = { s₁.thr x.thid with sliceCnt := (s₁.thr x.thid).sliceCnt + 1 } ∧
      t.life = .seated ∧ (t.between = true → s₁.halted t = false ∧ (t.ie = false ∨ t.posted = []) ∧
        t.slicePend = false ∧ (t.slice = 0 ∨ t.sliceCnt < t.slice)) ∧
      State.fetchLine { { s₁ with cursor := 0 }.setThr x.thid t with cur := x.thid } t (lineOf t.pc) = (.ok l, tr, s₃) ∧
      lineCause l (lineOf t.pc) = none ∧ t.enterLine l = some t' ∧ decodeWord (insBits l t'.pc) = .ok i ∧ t'.dualPfx = none :=
  ⟨_, _, _, _, _, _, _, _, by decide, rfl, rfl, rfl, rfl, rfl, rfl, rfl, by decide +kernel, rfl, rfl, rfl, rfl, rfl⟩
theorem test_step_addi : (match step placed with | .next t => (t.thr id0).gR 3 | _ => 0#64) = 1#64 := by decide +kernel
/-- An instruction placed for a thread with a prefix in force or without tangents. -/
def placedW (i : Instr) (f : Thread → Thread) : State :=
  { State.reset.withFetchWord 64 (encode i) with threads := [(0x10000, f fetchThread)] }
def stepTrap (s : State) : Nat × Nat := match step s with | .next t => ((t.thr id0).cCode.toNat, (t.thr id0).tval.toNat) | _ => (0, 0)
theorem witness_StepRunsInstruction_traps :
    ({ fetchThread with k := 0 } : Thread).planeBad (.bndr h0 (g 3) (g 1) 1#3) = true ∧ fetchThread.planeBad (.bndr h0 (g 3) (g 1) 1#3) = false ∧
    eligible (.nop h0) = false ∧ eligible (.fadd h0 (g 3) (g 1) (g 2) .s .rn) = true := by decide
theorem test_step_plane : stepTrap (placedW (.bndr h0 (g 3) (g 1) 1#3) fun t => { t with k := 0 }) = (0x02, 43) ∧
    stepTrap (placedW (.nop h0) fun t => { t with dualPfx := some (1#4, 0#64) }) = (0x06, 0) := by decide +kernel
set_option maxRecDepth 20000 in
/-- The event that is due; an event due in a later cycle of the rotation; the end of a rotation; no power. -/
theorem witness_EventSteps :
    (State.reset.pstate ≠ .off ∧ ∃ s₁, State.reset.choose = (some .reset, s₁)) ∧
    (∃ s₁, ({ placed with seats := [], agenda := [⟨9, 5, 1, true, .hang, 0⟩] } : State).choose = (none, s₁) ∧ s₁.nextMoment = .cycle 5120) ∧
    (∃ s₁, ({ placed with seats := [] } : State).choose = (none, s₁) ∧ s₁.nextMoment = .over) ∧
    ({ State.reset with pstate := .off } : State).pstate = .off := by
  refine ⟨⟨by decide, _, rfl⟩, ⟨_, rfl, rfl⟩, ⟨_, rfl, rfl⟩, rfl⟩
set_option maxRecDepth 20000 in
theorem test_power_returns : isNext (step { State.reset with pstate := .off }) = true := by decide +kernel

/-! ### Operands -/

/-- A core with a full and an empty shared register, one in its window, and an entry in its queue from the north. -/
def coreQ : Core := { core0 with
  shared := [(0, ⟨7#64, true, [(3#64, 0, true)]⟩), (1, ⟨8#64, false, []⟩)], inq := [(4, ⟨[5#64, 6#64], 0, 0⟩)], credUsed := [(3, 7)] }
def thrQ : Thread := { thread [(1, 9#64)] with gEmpty := [2], qlink := 0x43#64, mailbox := [11#64], regErr := [(false, 4#8), (true, 5#8)] }
def stQ : State := world thrQ coreQ
def stFull : State := world { thrQ with qlink := 0x11#64, mailbox := [] } { coreQ with credUsed := [(1, 8)] }
def stAway : State := world { thrQ with roaming := true, core := 1 } core0

/-- Every clause of OperandReads: its premises, and the states the other clauses read. -/
theorem witness_OperandReads :
    stQ.regBad false 4#8 = true ∧ stQ.regBad true 5#8 = true ∧ stQ.regBad false 5#8 = false ∧ stQ.regBad false 0x7F#8 = false ∧ stQ.th = thrQ ∧
    thrQ.gFull 2 = false ∧ thrQ.gFull 0x7F = true ∧
    ((stFull.core 0).queue stFull.th.up).items = [] ∧
    ((stQ.core 0).queue thrQ.up).items = 5#64 :: [6#64] ∧
    (stAway.th.roaming = true ∧ stAway.th.core ≠ homeOf stAway.cur ∧ stAway.th.atAnchor = false) ∧
    (stFull.th.roaming = false ∧ stFull.th.mailbox = []) ∧ thrQ.mailbox = 11#64 :: [] ∧
    ((stQ.core 0).sreg 1).full = false ∧ ((stQ.core 0).sreg 0).full = true := by decide +kernel
theorem test_read_q : val (readS (g 0x81)) stQ = some 5#64 ∧ val (readS (g 0x83)) stQ = some 11#64 ∧
    (after (readS (g 0x83)) stQ).th.mailbox = [] := by decide +kernel
theorem test_read_sync : val (readS (gq 1)) stQ = some 9#64 ∧ (after (readS (gq 1)) stQ).th.gFull 1 = false ∧
    val (readS (gq 2)) stQ = none ∧ ((after (readS (gq 0x90)) stQ).core 0).sreg 0 = ⟨7#64, false, [(3#64, 0, true)]⟩ := by decide +kernel

theorem witness_OperandWrites :
    thrQ.gFull 1 = true ∧ thrQ.gFull 2 = false ∧ ((stQ.core 0).sreg 0).full = true ∧ ((stQ.core 0).sreg 1).full = false ∧
    (8 ≤ (stFull.core 0).credUsed.lookD stFull.th.down 0) ∧ ((stQ.core 0).credUsed.lookD thrQ.down 0 < 8) := by decide +kernel
theorem test_write_qout : ((after (writeS (g 0x82) 1#64) stQ).core 0).credUsed.lookD 3 0 = 8 ∧
    (after (writeS (g 0x82) 1#64) stQ).agenda.map (·.ev) = [.queueEntry 32 .north 1#64] := by decide +kernel

theorem witness_FieldTests :
    (operands (.add h0 (g 3) (g 0xD0) (g 0x82)) = some (h0, [(.ws, g 3)] ++ (.rs, g 0xD0) :: [(.rs, g 0x82)]) ∧ Issues stQ h0 ∧
      privOf stQ (.add h0 (g 3) (g 0xD0) (g 0x82)) = none ∧ planeBad stQ.th (.add h0 (g 3) (g 0xD0) (g 0x82)) = false ∧ FieldsOk stQ [(.ws, g 3)]) ∧
    stQ.fieldCause stQ.th .swp (g 0x8F) = some 0x23#8 ∧ stQ.fieldCause stQ.th .swp (g 0x90) = none ∧ stQ.fieldCause stQ.th .swp (g 0xCF) = none ∧
    stQ.fieldCause stQ.th .swp (g 0xD0) = some 0x23#8 ∧ stQ.fieldCause stQ.th .gOnly (g 0x80) = some 0x23#8 ∧
    stQ.fieldCause stQ.th .gOnly (g 0x7F) = none ∧ FieldsOk stQ [(.ws, g 1)] ∧ stQ.fieldCause stQ.th .rs (g 0xD0) = some 0x22#8 ∧
    stQ.fieldCause stQ.th .rs (g 0x8F) = some 0x22#8 ∧ stQ.fieldCause stQ.th .rs (g 0x90) = none ∧
    stQ.fieldCause stQ.th .rs (g 0xCF) = none ∧ stQ.fieldCause stQ.th .rs (g 0x82) = some 0x23#8 ∧
    stQ.fieldCause stQ.th .ws (g 0x84) = some 0x23#8 ∧ stQ.fieldCause stQ.th .vec (g 0x20) = some 0x23#8 ∧
    stQ.fieldCause stQ.th .vec (g 0x1F) = none ∧ stQ.fieldCause stQ.th .pred (g 0x10) = some 0x23#8 ∧
    stQ.fieldCause stQ.th .pred (g 0x0F) = none := by
  refine ⟨⟨rfl, ⟨rfl, rfl⟩, rfl, rfl, by unfold FieldsOk; decide +kernel⟩, ?_⟩
  unfold FieldsOk; decide +kernel
theorem test_field_order : causeOf (out (.add h0 (g 3) (g 0xD0) (g 0x82)) stQ) = 0x22 ∧ (out (.add h0 (g 3) (g 0xD0) (g 0x82)) stQ).th.tval = 0xD0#64 := by
  decide +kernel

/-! ### The place in the program -/

/-- A line with starts at slots 2, 4 and 30, the thread at each of them. -/
def line3 : Nat := 2 ^ 60 + 1 + 4 + 2 ^ 28 + addiWord * 2 ^ 64 + addiWord * 2 ^ 128 + addiWord * 2 ^ 960
def coreC : Core := { core0 with codeRuns := [⟨0, 0, 256, 0#64⟩], code := Tbl.putRun [] 0#8 0 (leBytes 128 line3 ++ leBytes 128 line3) }
def stAt (pc : Word) (ls : List LoopLvl) : State := world { thread [] with kernel := some 0, pc := pc, pcMode := .start, loops := ls } coreC

theorem witness_SequentialFlow :
    ((stAt 8#64 []).peekLine (stAt 8#64 []).th 0#64).isSome = true ∧ hdrStart line3 4 = true ∧ hdrStart line3 3 = false ∧
    (stAt 8#64 []).nextPC (stAt 8#64 []).th 8#64 = 16#64 ∧ (stAt 8#64 []).nextPC (stAt 8#64 []).th 120#64 = 136#64 := by decide +kernel
/-- The innermost loop goes back at a count of 2; at 1 it closes and the one around it is stepped. -/
theorem witness_Completion :
    ((stAt 16#64 []).th.isTail 16#64 = false ∧ (out (.nop h0) (stAt 16#64 [])).th.pc = 120#64) ∧
    (out (.nop h0) (stAt 16#64 [⟨8#64, 16#64, 2#64, false⟩])).th.pc = 8#64 ∧
    (out (.nop h0) (stAt 16#64 [⟨8#64, 16#64, 2#64, false⟩])).th.loops = [⟨8#64, 16#64, 1#64, false⟩] ∧
    (out (.nop h0) (stAt 16#64 [⟨8#64, 16#64, 1#64, false⟩])).th.loops = [] ∧
    (out (.nop h0) (stAt 16#64 [⟨8#64, 16#64, 3#64, false⟩, ⟨16#64, 16#64, 1#64, false⟩])).th.loops =
      [⟨8#64, 16#64, 2#64, false⟩] := by decide +kernel
theorem test_transfer_place :
    (out (.br h0 0#24) (stAt 8#64 [⟨8#64, 16#64, 3#64, false⟩])).th.loops = [⟨8#64, 16#64, 3#64, false⟩] ∧
    (out (.br h0 28#24) (stAt 8#64 [⟨8#64, 16#64, 3#64, false⟩])).th.loops = [] ∧
    (out (.br h0 28#24) (stAt 8#64 [⟨8#64, 16#64, 3#64, false⟩])).th.pc = 120#64 := by decide +kernel

/-! ### Traps -/

def stIe (ie : Bool) : State := world { thread [(1, 9#64)] with status := if ie then 4#12 else 0#12, tvec := 0x1000#64, pc := 8#64, pcMode := .start } core0
theorem witness_TrapEntry : ((stIe true).thr id0).ie = true ∧ ((stIe false).thr id0).ie = false := by decide
theorem test_trap_entry :
    (out (.trap h0 2#4 0x77#16) (stIe true)).th.pc = 0x1000#64 + 128 * 7 ∧ causeOf (out (.trap h0 2#4 0x77#16) (stIe true)) = 0xF2 ∧
    (out (.trap h0 2#4 0x77#16) (stIe true)).th.tval = 0x77#64 ∧ (out (.trap h0 2#4 0x77#16) (stIe true)).th.epc = 8#64 ∧
    (out (.trap h0 2#4 0x77#16) (stIe true)).th.status = 0b001000000001#12 := by decide +kernel
/-- Two ranks: the one left learns of the double trap. -/
def stRanks : State := { stIe false with
  threads := [(0x10000, { (stIe false).th with kernel := some 1 }), (0x20001, { Thread.blank with life := .ready, kernel := some 1, thid := 0x20001#32 })],
  kernels := [(1, ⟨0, 0, 0#2, [], .running, 0, 1, [], [], [(0, id0), (1, 0x20001#32)], [], [], [], 0, 0, 0, 0, false⟩)] }
theorem witness_TrapRules : (stRanks.thr id0).kernel = some 1 ∧ stRanks.lowestRank 1 (some id0) = some 0x20001#32 ∧
    (stRanks.thr 0x20001#32).posted.length < 4 ∧ (stRanks.threads.look 0x20001).isSome = true ∧ stRanks.th.atPort = false ∧
    ({ stRanks.th with atPort := true } : Thread).atPort = true := by decide +kernel
theorem test_double_trap : ((out (.ebreak h0 0#16) stRanks).thr id0).life = .exited ∧
    ((out (.ebreak h0 0#16) stRanks).thr 0x20001#32).posted = [⟨0xE3#8, 0x10000#64⟩] := by decide +kernel

/-! ### Modes, planes, guards -/

theorem witness_PrivilegeRules :
    (privOf (st []) (.eret h0) = some 0x0C#64 ∧ privOf (st []) (.csrw h0 (g 0) (g 0) 0x014#12) = some 0xC1#64 ∧
      privOf (st []) (.csrw h0 (g 0) (g 0) 0x016#12) = none) ∧
    planeBad (st []).th (.bndr h0 (g 0) (g 0) 1#3) = true ∧ planeBad (st []).th (.bndr h0 (g 0) (g 0) 0#3) = false := by decide +kernel
theorem test_eret_user : causeOf (out (.eret h0) (st [])) = 0x07 ∧ (out (.eret h0) (st [])).th.tval = 0x0C#64 := by decide +kernel
theorem witness_GuardFails : guardOf (.add ⟨0#4, true⟩ (g 3) (g 1) (g 2)) = some ⟨0#4, true⟩ ∧ (st []).th.passes ⟨0#4, true⟩ = false ∧
    privOf (st []) (.add ⟨0#4, true⟩ (g 3) (g 1) (g 2)) = none ∧ planeBad (st []).th (.add ⟨0#4, true⟩ (g 3) (g 1) (g 2)) = false ∧
    (st []).th.atPort = false := by decide +kernel

/-! ### Integers, predicates -/

/-- g3 after an instruction with g1 = x and g2 = y. -/
def g3 (i : Instr) (x y : Word) : Word := (out i (st [(1, x), (2, y)])).th.gR 3
def m1 : Word := 0xFFFFFFFFFFFFFFFF#64
def lo63 : Word := 0x8000000000000000#64
def pAfter (i : Instr) (x y : Word) (n : Nat) : Bool := (out i (st [(1, x), (2, y)])).th.p n

theorem witness_IntegerResults :
    ∃ (s s₁ s₂ : State) (i : Instr) (h : Head) (d : Fld) (srcs : List Fld) (f : List Word → Word) (xs : List Word),
      intResult s i = some (h, d, srcs, f) ∧ Issues s h ∧ FieldsOk s ((.ws, d) :: fieldsAs .rs srcs) ∧
      readAll srcs s = .ok (xs, s₁) ∧ ((divides i).isSome = true → xs.getD 1 0#64 ≠ 0#64) ∧ writeS d (f xs) s₁ = .ok ((), s₂) :=
  ⟨st [(1, 5#64)], _, _, .div h0 (g 3) (g 1) (g 1), _, _, _, _, _, rfl, ⟨rfl, rfl⟩, by unfold FieldsOk; decide, rfl, by decide, rfl⟩
theorem test_add : g3 (.add h0 (g 3) (g 1) (g 2)) m1 2#64 = 1#64 := by decide
theorem test_sub : g3 (.sub h0 (g 3) (g 1) (g 2)) 1#64 2#64 = m1 := by decide
theorem test_addi : g3 (.addi h0 (g 3) (g 1) 0xFFFF#16) 5#64 0#64 = 4#64 := by decide
theorem test_mul : g3 (.mul h0 (g 3) (g 1) (g 2)) m1 3#64 = 0xFFFFFFFFFFFFFFFD#64 := by decide +kernel
theorem test_mulh : g3 (.mulh h0 (g 3) (g 1) (g 2)) m1 3#64 = m1 := by decide +kernel
theorem test_mulhu : g3 (.mulhu h0 (g 3) (g 1) (g 2)) m1 3#64 = 2#64 := by decide +kernel
theorem test_div : g3 (.div h0 (g 3) (g 1) (g 2)) 0xFFFFFFFFFFFFFFF9#64 2#64 = 0xFFFFFFFFFFFFFFFD#64 ∧
    g3 (.div h0 (g 3) (g 1) (g 2)) lo63 m1 = lo63 := by decide +kernel
theorem test_divu : g3 (.divu h0 (g 3) (g 1) (g 2)) m1 16#64 = 0x0FFFFFFFFFFFFFFF#64 := by decide +kernel
theorem test_rem : g3 (.rem h0 (g 3) (g 1) (g 2)) 0xFFFFFFFFFFFFFFF9#64 2#64 = m1 := by decide +kernel
theorem test_remu : g3 (.remu h0 (g 3) (g 1) (g 2)) m1 16#64 = 15#64 := by decide +kernel
theorem test_div_zero : causeOf (out (.remu h0 (g 3) (g 1) (g 2)) (st [(1, 5#64)])) = 0xC5 := by decide +kernel
theorem test_and : g3 (.and h0 (g 3) (g 1) (g 2)) 12#64 10#64 = 8#64 := by decide
theorem test_or : g3 (.or h0 (g 3) (g 1) (g 2)) 12#64 10#64 = 14#64 := by decide
theorem test_xor : g3 (.xor h0 (g 3) (g 1) (g 2)) 12#64 10#64 = 6#64 := by decide
theorem test_andi : g3 (.andi h0 (g 3) (g 1) 0x8001#16) m1 0#64 = 0x8001#64 := by decide
theorem test_ori : g3 (.ori h0 (g 3) (g 1) 0x8000#16) 1#64 0#64 = 0x8001#64 := by decide
theorem test_xori : g3 (.xori h0 (g 3) (g 1) 0xFFFF#16) 1#64 0#64 = 0xFFFE#64 := by decide
theorem test_shl : g3 (.shl h0 (g 3) (g 1) (g 2)) 1#64 65#64 = 2#64 := by decide
theorem test_shr : g3 (.shr h0 (g 3) (g 1) (g 2)) lo63 63#64 = 1#64 := by decide +kernel
theorem test_sra : g3 (.sra h0 (g 3) (g 1) (g 2)) lo63 63#64 = m1 := by decide +kernel
theorem test_shi : g3 (.shi h0 (g 3) (g 1) .rot 4#6) 0xF#64 0#64 = 0xF000000000000000#64 := by decide +kernel
theorem test_min : g3 (.min h0 (g 3) (g 1) (g 2) false) m1 1#64 = m1 ∧ g3 (.min h0 (g 3) (g 1) (g 2) true) m1 1#64 = 1#64 := by decide +kernel
theorem test_max : g3 (.max h0 (g 3) (g 1) (g 2) false) m1 1#64 = 1#64 ∧ g3 (.max h0 (g 3) (g 1) (g 2) true) m1 1#64 = m1 := by decide +kernel
theorem test_movi : g3 (.movi h0 (g 3) false 0xFFFFFFFE#32) 0#64 0#64 = 0xFFFFFFFFFFFFFFFE#64 ∧
    g3 (.movi h0 (g 3) true 0xFFFFFFFE#32) 0#64 0#64 = 0xFFFFFFFE#64 := by decide +kernel
theorem test_movh : g3 (.movh h0 (g 3) (g 1) 0x12345678#32) m1 0#64 = 0x12345678FFFFFFFF#64 := by decide +kernel
theorem test_lea : (out (.lea h0 (g 3) 0xFFFFFFFC#32) (stAt 16#64 [])).th.gR 3 = 12#64 := by decide +kernel
theorem test_bits : g3 (.bits h0 (g 3) (g 1) .pop) 0xF0F0#64 0#64 = 8#64 ∧ g3 (.bits h0 (g 3) (g 1) .clz) 0#64 0#64 = 64#64 ∧
    g3 (.bits h0 (g 3) (g 1) .ctz) 8#64 0#64 = 3#64 ∧ g3 (.bits h0 (g 3) (g 1) .rev) 1#64 0#64 = lo63 := by decide +kernel
theorem test_ext : g3 (.ext h0 (g 3) (g 1) false 4#6 7#6) 0x1F80#64 0#64 = 0xF8#64 ∧
    g3 (.ext h0 (g 3) (g 1) true 4#6 7#6) 0x1F80#64 0#64 = 0xFFFFFFFFFFFFFFF8#64 := by decide +kernel
theorem test_ins : g3 (.ins h0 (g 3) (g 1) (g 2) 8#6 7#6) 0x1AB#64 m1 = 0xFFFFFFFFFFFFABFF#64 := by decide +kernel
theorem test_plog_get : (out (.plogGet h0 (g 3)) (world { thread [] with pred := 0x8004#16 } core0)).th.gR 3 = 0x8005#64 := by decide +kernel

theorem witness_ArithmeticTraps_division :
    ∃ (s s₁ : State) (h : Head) (d a b : Fld) (x : Word), divides (.div h d a b) = some (h, d, a, b) ∧ Issues s h ∧
      FieldsOk s [(.ws, d), (.rs, a), (.rs, b)] ∧ readAll [a, b] s = .ok ([x, 0#64], s₁) :=
  ⟨st [(1, 5#64)], _, h0, g 3, g 1, g 2, _, rfl, ⟨rfl, rfl⟩, by unfold FieldsOk; decide, rfl⟩
theorem witness_Predicates :
    (∃ s₁, Issues (st [(1, 5#64)]) h0 ∧ FieldsOk (st [(1, 5#64)]) [(.pred, g 15), (.rs, g 1), (.rs, g 2)] ∧
      readAll [g 1, g 2] (st [(1, 5#64)]) = .ok ([5#64, 0#64], s₁) ∧ (true = true ↔ condHolds .ge 5#64 0#64)) ∧
    (∃ s₁, FieldsOk (st []) [(.pred, g 0), (.rs, g 1)] ∧ readS (g 1) (st []) = .ok (0#64, s₁) ∧
      (false = true ↔ condHolds .tst 0#64 1#64)) ∧
    FieldsOk (st []) (fieldsAs .pred [g 0, g 1, g 15]) ∧
    (∃ s₁, readAll [g 1, g 2] (st []) = .ok ([0#64, 0#64], s₁)) := by
  refine ⟨⟨_, ⟨rfl, rfl⟩, by unfold FieldsOk; decide, rfl, by simp only [condHolds]; decide⟩,
    ⟨_, by unfold FieldsOk; decide, rfl, ?_⟩, by unfold FieldsOk; decide, ⟨_, rfl⟩⟩
  simp [condHolds]
theorem test_cmp : pAfter (.cmp h0 (g 2) (g 1) (g 2) .lt) m1 1#64 2 = true ∧ pAfter (.cmp h0 (g 2) (g 1) (g 2) .ltu) m1 1#64 2 = false ∧
    pAfter (.cmp h0 (g 0) (g 1) (g 2) .ltu) m1 1#64 0 = true := by decide +kernel
theorem test_cmpi : pAfter (.cmpi h0 (g 2) (g 1) .eq 0xFFFF#16) m1 0#64 2 = true ∧
    pAfter (.cmpi h0 (g 2) (g 1) .tst 0xFFFF#16) 0x10000#64 0#64 2 = false := by decide +kernel
theorem test_plog : pAfter (.plog h0 (g 2) (g 0) (g 1) 0b0100#4) 0#64 0#64 2 = true := by decide +kernel
theorem test_plog_set : pAfter (.plogSet h0 (g 1)) 0x8000#64 0#64 15 = true ∧ pAfter (.plogSet h0 (g 1)) 0#64 0#64 0 = true := by decide +kernel
theorem test_sel : g3 (.sel h0 (g 3) (g 1) (g 2) 0#4 false) 1#64 2#64 = 1#64 ∧ g3 (.sel h0 (g 3) (g 1) (g 2) 0#4 true) 1#64 2#64 = 2#64 := by
  decide +kernel

/-! ### Scalar floating point -/

def thrF (fpctl : BitVec 13) (k : Nat) (gt : Tbl Word) (regs : List (Nat × Word)) : Thread :=
  { thread regs with fpctl := fpctl, k := k, gt := gt, status := if k = 0 then 4#12 else 12#12, pc := 16#64, pcMode := .start }
/-- 1.0, 3.0 and the largest finite number of FP32; 0. -/
def one32 : Word := 0x3F800000#64
def three32 : Word := 0x40400000#64
def max32 : Word := 0x7F7FFFFF#64

theorem witness_RoundingRules : arith fp32 ∧ (∃ q fl, roundFin fp32 .rtz false 1 128 = (q, fl) ∧ fl &&& fOF ≠ 0#5) ∧
    (∃ q fl, roundFin fp32 .rup true 3 (-150) = (q, fl) ∧ fl &&& fOF = 0#5) ∧ towardZero .rup true ∧ awayFromZero .rdn true ∧
    (decodeF fp32 0x7FC00000).isNaN = true ∧ (decodeF fp32 0x3F800000).isNaN = false ∧
    decodeF fp32 0x7F800000 = .inf false ∧ decodeF fp32 0xFF800000 = .inf true ∧ (decodeF fp32 0x80000000).isZero = true ∧
    decodeF fp32 0xBF800000 = .fin true 8388608 (-23) ∧ (decodeF fp32 0x7F800001).isSig = true ∧
    (decodeF fp32 0x3F800000).isZero = false := by
  refine ⟨.inr (.inl rfl), ⟨_, _, rfl, by decide +kernel⟩, ⟨_, _, rfl, by decide +kernel⟩, .inr (.inl ⟨rfl, rfl⟩), .inr ⟨rfl, rfl⟩, ?_⟩
  decide +kernel
/-- A tie of roundFin goes to the even one, and the least number rounded down is zero with underflow. -/
theorem test_round_ties : roundFin fp32 .rne false (2 ^ 25 + 2) (-25) = (0x3F800000, fNX) ∧
    roundFin fp32 .rne false (2 ^ 25 + 6) (-25) = (0x3F800002, fNX) ∧
    roundFin fp32 .rtz false 1 (-150) = (0, fNX ||| fUF) ∧ roundFin fp32 .rne false (2 ^ 25 - 1) 103 = (0x7F800000, fOF ||| fNX) ∧
    fop fp32 .rne .fma 0x7F800000 0 0x7FC00001 = (0x7FC00001, fNV) ∧ fop fp32 .rne .sqrt 0x80000000 0 0 = (0x80000000, 0#5) := by
  decide +kernel
theorem witness_ScalarFloat :
    ∃ (s s₁ s₂ : State) (i : Instr) (o : FpIns) (xs ts : List Word), fpIns s i = some o ∧ Issues s o.h ∧
      FieldsOk s ((.ws, o.d) :: fieldsAs .rs o.srcs) ∧ readAll o.srcs s = .ok (xs, s₁) ∧
      fpCause ((o.val fun n => xs.getD n 0#64).2 &&& s.th.enables) = none ∧ ts.length = s.th.k ∧
      writeST o.d (o.val fun n => xs.getD n 0#64).1 ts (withFlags s₁ (o.val fun n => xs.getD n 0#64).2) = .ok ((), s₂) :=
  ⟨world (thrF 0#13 1 [(1, one32)] [(1, one32), (2, three32)]) core0, _, _, .fdiv h0 (g 3) (g 1) (g 2) .s .rn, _, _, [0#64], rfl,
    ⟨rfl, rfl⟩, by unfold FieldsOk; decide, rfl, by decide +kernel, rfl, rfl⟩
/-- Overflow and inexact are enabled: the lower cause, overflow, traps. -/
theorem witness_ArithmeticTraps_scalar :
    ∃ (s s₁ : State) (i : Instr) (o : FpIns) (xs : List Word), fpIns s i = some o ∧ Issues s o.h ∧
      FieldsOk s ((.ws, o.d) :: fieldsAs .rs o.srcs) ∧ readAll o.srcs s = .ok (xs, s₁) ∧
      fpCause ((o.val fun n => xs.getD n 0#64).2 &&& s.th.enables) = some 0xC2#8 :=
  ⟨world (thrF 0x500#13 0 [] [(1, max32)]) core0, _, .fadd h0 (g 3) (g 1) (g 1) .s .rn, _, _, rfl, ⟨rfl, rfl⟩,
    by unfold FieldsOk; decide, rfl, by decide +kernel⟩
def f3 (i : Instr) (x y : Word) : Word := (out i (world (thrF 0#13 0 [] [(1, x), (2, y)]) core0)).th.gR 3
def fFl (i : Instr) (x y : Word) : BitVec 5 := (out i (world (thrF 0#13 0 [] [(1, x), (2, y)]) core0)).th.fpflags
theorem test_fadd : f3 (.fadd h0 (g 3) (g 1) (g 2) .s .dyn) one32 three32 = 0x40800000#64 ∧
    f3 (.fadd h0 (g 3) (g 1) (g 2) .s .rz) max32 max32 = max32 := by decide +kernel
theorem test_fsub : f3 (.fsub h0 (g 3) (g 1) (g 2) .s .rd) one32 one32 = 0x80000000#64 := by decide +kernel
theorem test_fmul : f3 (.fmul h0 (g 3) (g 1) (g 2) .s .dyn) three32 three32 = 0x41100000#64 := by decide +kernel
theorem test_fma : f3 (.fma h0 (g 3) (g 1) (g 2) (g 2) .s .dyn) three32 one32 = 0x40800000#64 := by decide +kernel
theorem test_fdiv : f3 (.fdiv h0 (g 3) (g 1) (g 2) .s .dyn) one32 three32 = 0x3EAAAAAB#64 ∧
    fFl (.fdiv h0 (g 3) (g 1) (g 2) .s .dyn) one32 0#64 = 0b01000#5 := by decide +kernel
theorem test_fsqrt : f3 (.fsqrt h0 (g 3) (g 1) .s .dyn) 0x41100000#64 0#64 = three32 ∧
    fFl (.fsqrt h0 (g 3) (g 1) .s .dyn) 0xBF800000#64 0#64 = 0b10000#5 := by decide +kernel
theorem test_fmin : f3 (.fmin h0 (g 3) (g 1) (g 2) .s) one32 three32 = one32 := by decide +kernel
theorem test_fmax : f3 (.fmax h0 (g 3) (g 1) (g 2) .s) one32 three32 = three32 := by decide +kernel
theorem test_fcmp : (out (.fcmp h0 (g 2) (g 1) (g 2) .s .lt) (world (thrF 0#13 0 [] [(1, one32), (2, three32)]) core0)).th.p 2 = true ∧
    (out (.fcmp h0 (g 2) (g 1) (g 2) .s .un) (world (thrF 0#13 0 [] [(1, 0x7FC00000#64)]) core0)).th.p 2 = true := by decide +kernel
theorem test_fcvt : f3 (.fcvt h0 (g 3) (g 1) .i32 .s .rz) 0xC0200000#64 0#64 = 0xFFFFFFFFFFFFFFFE#64 ∧
    f3 (.fcvt h0 (g 3) (g 1) .d .s .dyn) one32 0#64 = 0x3FF0000000000000#64 := by decide +kernel
theorem test_fcvti : f3 (.fcvti h0 (g 3) (g 1) .s .s .ru) 0x40200000#64 0#64 = three32 := by decide +kernel
theorem test_fsgn : f3 (.fsgn h0 (g 3) (g 1) (g 0) .s .neg) one32 0#64 = 0xBF800000#64 ∧
    f3 (.fsgn h0 (g 3) (g 1) (g 2) .s .xsgn) 0xBF800000#64 0xBF800000#64 = one32 := by decide +kernel

/-! ### Vectors -/

/-- A register of n equal lanes of w bits. -/
def lanes (w n x : Nat) : Vec := BitVec.ofNat 512 ((List.range n).foldl (fun a i => a + x * 2 ^ (w * i)) 0)
/-- v0 of 1.0 and 3.0 in lanes 0 and 1, v1 of mask bits 0 and 2, v2 of ones in every lane. -/
def thrV (fpctl : BitVec 13) (vb : Tbl Word32) : Thread :=
  { thread [(1, 0x40400000#64)] with
    fpctl := fpctl, vb := vb, v := [(1, 5#512), (2, lanes 32 16 0x3F800000), (3, BitVec.ofNat 512 (0x3F800000 + 0x40400000 * 2 ^ 32))] }
def stV : State := world (thrV 0#13 []) core0
/-- Lane i of v4 after an instruction. -/
def v4 (i : Instr) (w k : Nat) : Nat := ((out i stV).th.vR 4).toNat / 2 ^ (w * k) % 2 ^ w

theorem ready (t : Thread) (h : t.regErr = [] ∧ t.V = 32) (d a b : Nat) (hd : FieldsOk (world t core0) ((.vec, g d) :: fieldsAs .vec [g a, g b])) :
    VecReady (world t core0) (g d) [g a, g b] 1#3 :=
  ⟨hd, fun _ => by have : (world t core0).th = t := rfl
                   rw [this, h.2]; decide, h.1⟩
theorem witness_VectorLanes : ∃ o, laneIns stV (.vadd h0 (g 4) (g 2) (g 3) 1#3 .s .dyn) = some o ∧
    WellFormed.instr (.vadd h0 (g 4) (g 2) (g 3) 1#3 .s .dyn) = true ∧ Issues stV o.h ∧ VecReady stV o.d o.srcs o.m ∧
    fpCause (allFlags 16 (o.writes (active stV o.m)) (fun j => (o.val (lane stV o.srcs o.ws) j).2) &&& stV.th.enables) = none :=
  ⟨_, rfl, rfl, ⟨rfl, rfl⟩, ready _ ⟨rfl, rfl⟩ 4 2 3 (by unfold FieldsOk; decide), by decide +kernel⟩
/-- 1 / 0 in the lanes of v3 above 1, division by zero enabled. -/
theorem witness_ArithmeticTraps_vector : ∃ (s : State) (o : LaneIns),
    laneIns s (.vdiv h0 (g 4) (g 2) (g 3) 0#3 .s .dyn) = some o ∧ Issues s o.h ∧ VecReady s o.d o.srcs o.m ∧
    fpCause (allFlags 16 (o.writes (active s o.m)) (fun j => (o.val (lane s o.srcs o.ws) j).2) &&& s.th.enables) = some 0xC1#8 :=
  ⟨world (thrV 0x800#13 []) core0, _, rfl, ⟨rfl, rfl⟩, ⟨by unfold FieldsOk; decide, fun h => absurd rfl h, rfl⟩, by decide +kernel⟩
theorem test_vdiv_trap : causeOf (out (.vdiv h0 (g 4) (g 2) (g 3) 0#3 .s .dyn) (world (thrV 0x800#13 []) core0)) = 0xC1 ∧
    (out (.vdiv h0 (g 4) (g 2) (g 3) 0#3 .s .dyn) (world (thrV 0x800#13 []) core0)).th.tval = 0xFFFC#64 := by decide +kernel
theorem witness_VectorSidecars : ∃ o, laneIns stV (.vmul h0 (g 4) (g 2) (g 3) 1#3 .s .dyn) = some o ∧ Issues stV o.h ∧
    VecReady stV o.d o.srcs o.m ∧ stV.th.enables = 0#5 ∧ ∃ t, exec (.vmul h0 (g 4) (g 2) (g 3) 1#3 .s .dyn) stV = .next t :=
  ⟨_, rfl, ⟨rfl, rfl⟩, ready _ ⟨rfl, rfl⟩ 4 2 3 (by unfold FieldsOk; decide), rfl, goes (by decide +kernel)⟩
theorem witness_VectorReductions : Issues stV h0 ∧ VecReady stV (g 4) [g 2, g 3] 1#3 ∧ stV.th.enables = 0#5 :=
  ⟨⟨rfl, rfl⟩, ready _ ⟨rfl, rfl⟩ 4 2 3 (by unfold FieldsOk; decide), rfl⟩
/-- 1 + 2^-30 in lanes 0 and 1 is inexact, which is enabled: the addition belongs to both lanes (R24). -/
def stVX : State := world { thrV 0x100#13 [] with
  v := [(1, 5#512), (2, BitVec.ofNat 512 (0x3F800000 + 0x30800000 * 2 ^ 32)), (3, lanes 32 16 0x3F800000)] } core0
theorem witness_VectorReductions_trap :
    fpCause ((redIns stVX h0 (g 4) (g 2) (g 3) 0#3 .s .dyn).1.all &&& stVX.th.enables) = some 0xC4#8 ∧
    fpCause ((redIns stVX h0 (g 4) (g 2) (g 3) 0#3 .s .dyn).2.1.all &&& stVX.th.enables) = some 0xC4#8 ∧
    fpCause ((redIns stVX h0 (g 4) (g 2) (g 3) 0#3 .s .dyn).2.2.all &&& stVX.th.enables) = some 0xC4#8 ∧
    (cmpIns stVX h0 (g 4) (g 2) (g 3) 0#3 .s .lt).quiet stVX := by
  unfold RedIns.quiet
  decide +kernel
theorem test_vred_trap : causeOf (out (.vred h0 (g 4) (g 2) 0#3 .s .dyn) stVX) = 0xC4 ∧
    (out (.vred h0 (g 4) (g 2) 0#3 .s .dyn) stVX).th.tval = 3#64 ∧
    (out (.vscan h0 (g 4) (g 2) 0#3 .s .dyn) stVX).th.tval = 2#64 := by decide +kernel
theorem witness_VectorMoves : VecReady stV (g 4) [g 2, g 3] 1#3 ∧ WellFormed.instr (.vcmp h0 (g 4) (g 2) (g 3) 1#3 .s .lt) = true ∧
    WellFormed.instr (.vsel h0 (g 4) (g 2) (g 3) 1#3 .u8) = true ∧ WellFormed.instr (.vins h0 (g 4) (g 1) .u8 63#6) = true ∧
    FieldsOk stV [(.ws, g 3), (.vec, g 31)] ∧ (∃ u, writeST (g 3) 0x3F800000#64 [] stV = .ok ((), u)) ∧
    FieldsOk stV [(.vec, g 4), (.rs, g 1)] ∧ ∃ u, readS (g 1) stV = .ok (0x40400000#64, u) :=
  ⟨ready _ ⟨rfl, rfl⟩ 4 2 3 (by unfold FieldsOk; decide), rfl, rfl, rfl, by unfold FieldsOk; decide, ⟨_, rfl⟩,
    by unfold FieldsOk; decide, _, rfl⟩

/-- The same in a thread that carries one tangent, which the instruction is dual for. -/
def stVD : State := world { thrV 0#13 [(2, 0x33800000#32)] with
  k := 1, dualPfx := some (1#4, 0#64), vt := [(2, lanes 32 16 0x40000000)] } core0
theorem witness_VectorSidecars_dual : stVD.th.sel = [0] ∧ 0 < stVD.th.k ∧ VecReady stVD (g 4) [g 2, g 3] 1#3 ∧ Issues stVD h0 ∧
    (∃ t, exec (.vmul h0 (g 4) (g 2) (g 3) 1#3 .s .dyn) stVD = .next t) ∧
    (∃ t, exec (.vcvt h0 (g 4) (g 2) 0#3 .bf .s 0#3 .dyn) stVD = .next t) ∧
    (∃ t, exec (.vperm h0 (g 4) (g 2) (g 3) 1#3 .s) stVD = .next t) ∧
    (∃ t, exec (.vred h0 (g 4) (g 2) 0#3 .s .dyn) stVD = .next t) ∧
    (∃ t, exec (.vdot h0 (g 4) (g 2) (g 3) 1#3 .s .dyn) stVD = .next t) ∧
    (∃ t, exec (.vscan h0 (g 4) (g 2) 1#3 .s .dyn) stVD = .next t) := by
  refine ⟨by decide +kernel, by decide +kernel, ?_, ⟨rfl, rfl⟩, goes (by decide +kernel), goes (by decide +kernel),
    goes (by decide +kernel), goes (by decide +kernel), goes (by decide +kernel), goes (by decide +kernel)⟩
  exact ready _ ⟨rfl, rfl⟩ 4 2 3 (by unfold FieldsOk; decide +kernel)
/-- a′·b + a·b′ with a′ = 2 and b′ = 0, by lane (R132), and the tree of sixteen 2s (R31). -/
theorem test_dual_lanes :
    let t := (out (.vmul h0 (g 4) (g 2) (g 3) 0#3 .s .dyn) stVD).th
    laneN 32 (t.vT 0 4) 0 = 0x40000000 ∧ laneN 32 (t.vT 0 4) 1 = 0x40C00000 ∧
    laneN 32 ((out (.vred h0 (g 4) (g 2) 0#3 .s .dyn) stVD).th.vT 0 4) 0 = 0x42000000 := by decide +kernel

theorem test_vadd : v4 (.vadd h0 (g 4) (g 2) (g 3) 0#3 .s .dyn) 32 1 = 0x40800000 ∧ v4 (.vadd h0 (g 4) (g 2) (g 3) 1#3 .s .dyn) 32 1 = 0 := by
  decide +kernel
theorem test_vsub : v4 (.vsub h0 (g 4) (g 3) (g 2) 0#3 .s .dyn) 32 1 = 0x40000000 := by decide +kernel
theorem test_vmul : v4 (.vmul h0 (g 4) (g 3) (g 3) 0#3 .s .dyn) 32 1 = 0x41100000 := by decide +kernel
theorem test_vfma : v4 (.vfma h0 (g 4) (g 3) (g 3) 2#8 0#3 .s .dyn) 32 1 = 0x41200000 := by decide +kernel
theorem test_vdiv : v4 (.vdiv h0 (g 4) (g 2) (g 3) 0#3 .s .dyn) 32 1 = 0x3EAAAAAB := by decide +kernel
theorem test_vsqrt : v4 (.vsqrt h0 (g 4) (g 2) 0#3 .s .dyn) 32 15 = 0x3F800000 := by decide +kernel
theorem test_vmin : v4 (.vmin h0 (g 4) (g 2) (g 3) 0#3 .s) 32 1 = 0x3F800000 := by decide +kernel
theorem test_vmax : v4 (.vmax h0 (g 4) (g 2) (g 3) 0#3 .s) 32 1 = 0x40400000 := by decide +kernel
theorem test_vcmp : ((out (.vcmp h0 (g 4) (g 2) (g 3) 0#3 .s .lt) stV).th.vR 4) = 2#512 := by decide +kernel
theorem test_vsel : v4 (.vsel h0 (g 4) (g 2) (g 3) 1#3 .s) 32 1 = 0x40400000 ∧ v4 (.vsel h0 (g 4) (g 2) (g 3) 1#3 .s) 32 2 = 0x3F800000 := by
  decide +kernel
theorem test_vcvt : v4 (.vcvt h0 (g 4) (g 3) 0#3 .d .s 0#3 .dyn) 64 1 = 0x4008000000000000 ∧
    v4 (.vcvt h0 (g 4) (g 3) 0#3 .bf .s 1#3 .dyn) 16 17 = 0x4040 := by decide +kernel
theorem test_vred : v4 (.vred h0 (g 4) (g 2) 0#3 .s .dyn) 32 0 = 0x41800000 ∧ v4 (.vred h0 (g 4) (g 2) 1#3 .s .dyn) 32 0 = 0x40000000 := by
  decide +kernel
theorem test_vdot : v4 (.vdot h0 (g 4) (g 3) (g 3) 0#3 .s .dyn) 32 0 = 0x41200000 ∧ v4 (.vdot h0 (g 4) (g 3) (g 3) 0#3 .s .dyn) 32 1 = 0 := by
  decide +kernel
theorem test_vscan : v4 (.vscan h0 (g 4) (g 2) 0#3 .s .dyn) 32 15 = 0x41800000 := by decide +kernel
theorem test_vperm : v4 (.vperm h0 (g 4) (g 3) (g 1) 0#3 .u8) 8 0 = 0 ∧ v4 (.vperm h0 (g 4) (g 3) (g 1) 0#3 .s) 32 0 = 0 := by decide +kernel
theorem test_vbcast : v4 (.vbcast h0 (g 4) (g 3) 0#3 .s 1#6) 32 15 = 0x40400000 := by decide +kernel
theorem test_vext : (out (.vext h0 (g 3) (g 3) .s 1#6) stV).th.gR 3 = 0x40400000#64 ∧
    (out (.vext h0 (g 3) (g 3) .i8 2#6) stV).th.gR 3 = 0xFFFFFFFFFFFFFF80#64 := by decide +kernel
theorem test_vins : v4 (.vins h0 (g 4) (g 1) .s 15#6) 32 15 = 0x40400000 := by decide +kernel
theorem test_viadd : v4 (.viadd h0 (g 4) (g 3) (g 3) 0#3 .i8 true) 8 2 = 0x80 ∧ v4 (.viadd h0 (g 4) (g 3) (g 3) 0#3 .u8 false) 8 2 = 0 := by
  decide +kernel
theorem test_visub : v4 (.visub h0 (g 4) (g 1) (g 3) 0#3 .u8 true) 8 2 = 0 := by decide +kernel
theorem test_vimul : v4 (.vimul h0 (g 4) (g 1) (g 1) 0#3 .u32) 32 0 = 25 := by decide +kernel
theorem test_vlog : v4 (.vlog h0 (g 4) (g 3) (g 1) 0#3 .u8 .andn) 8 3 = 0x3F := by decide +kernel
theorem test_vsh : v4 (.vsh h0 (g 4) (g 3) (g 1) 0#3 .i32 .ra) 32 0 = 0x01FC0000 := by decide +kernel
theorem test_vmov : v4 (.vmov h0 (g 4) (g 3) 1#3 .s) 32 0 = 0x3F800000 ∧ v4 (.vmov h0 (g 4) (g 3) 1#3 .s) 32 1 = 0 := by decide +kernel
theorem test_vmask : (out (.vmask h0 (g 4) (g 1) (g 0) .not) stV).th.vR 4 = 0xFFFFFFFFFFFFFFFA#512 := by decide +kernel
theorem test_vfsgn : v4 (.vfsgn h0 (g 4) (g 3) (g 0) 0#3 .s .neg) 32 1 = 0xC0400000 := by decide +kernel
theorem test_viota : v4 (.viota h0 (g 4) 0#3 .u8) 8 63 = 63 := by decide +kernel
/-- R36: the bound of a sum is the sum of the bounds and half an ulp of 4.0, 2^−22 in the coding of R34. -/
theorem test_bound_move : (out (.vmov h0 (g 4) (g 3) 0#3 .s) (world (thrV 0#13 [(3, 0x100#32)]) core0)).th.vB 4 = 0x100#32 := by decide +kernel

/-! ### Memory -/

/-- A page table for the pages at 0x10000 (on core 0) and 0x11000 (on core 1), and bytes 1 to 8 at 0x10040. -/
def bytesAt (t : Tbl Byte) (a : Nat) (bs : List Byte) : Tbl Byte := Tbl.putRun t 0#8 a bs
def eight : List Byte := [1#8, 2#8, 3#8, 4#8, 5#8, 6#8, 7#8, 8#8]
def pages0 : Tbl Byte :=
  bytesAt (bytesAt (bytesAt (bytesAt (bytesAt (bytesAt [] 0x2000 (leBytes 8 0x3001)) 0x3000 (leBytes 8 0x4001)) 0x4000 (leBytes 8 0x5001))
    0x5080 (leBytes 8 0x10C3F)) 0x5088 (leBytes 8 0x20000C3F)) 0x10040 eight
/-- The same bytes in the scratchpad at 0x40, a vector mask and index in v1, a vector in v2. -/
def coreM : Core := { core0 with sp := bytesAt [] 0x40 eight, spBound := [(1, 0x100#32)] }
def thrM (k : Nat) (regs : List (Nat × Word)) : Thread :=
  { thread ([(1, 0x40#64), (2, 0xAABBCCDD#64), (4, 0x10040#64), (5, 0x11000#64), (6, 0x807060504030201#64)] ++ regs) with
    k := k, tstride := 0x40#64, status := if k = 0 then 4#12 else 0x2C#12, v := [(1, 5#512), (2, lanes 64 8 0x1122334455667788)],
    gt := if k = 0 then [] else [(2, 0x11#64)] }
def stM (k : Nat) : State := { world (thrM k []) coreM with mem := pages0 }

theorem spOk (s : State) (va : Word) (n align : Nat) (w : Bool)
    (h : va.toNat % align = 0 ∧ va.toNat + n ≤ 0x100000 ∧ (s.core s.th.core).stencil = [] ∧ (s.core s.th.core).softErr = []) : SpOk s va n align w := by
  obtain ⟨h1, h2, h3, h4⟩ := h
  exact ⟨h1, h2, by rw [h3]; simp [stencilCause], fun _ l hl => by rw [h4] at hl; simp at hl⟩

/-- A typed access of two planes, and the last aligned word of the scratchpad. -/
theorem witness_ScratchpadAccess :
    (Issues (stM 1) h0 ∧ FieldsOk (stM 1) [(.ws, g 3), (.rs, g 1)] ∧ StrideOk (stM 1) true ∧
      (∃ s₁ s₂, readS (g 1) (stM 1) = .ok (0x40#64, s₁) ∧ writeST (g 3) 0x04030201#64 [0#64] s₁ = .ok ((), s₂)) ∧
      (∀ v ∈ planeVAs (stM 1) true 0x40#64, SpOk (stM 1) v 4 4 false) ∧
      PlaneTans (stM 1) true (fun v => BitVec.ofNat 64 (valueAt (stM 1) (.sp (stM 1).th.core) v.toNat 4)) 0x40#64 [0#64]) ∧
    (FieldsOk (stM 1) [(.rs, g 1), (.rs, g 2)] ∧ (∃ s₁, readAll [g 1, g 2] (stM 1) = .ok ([0x40#64, 0xAABBCCDD#64], s₁)) ∧
      (∀ v ∈ planeVAs (stM 1) true 0x40#64, SpOk (stM 1) v 4 4 true) ∧ apart 4 ((planeVAs (stM 1) true 0x40#64).map (·.toNat))) ∧
    SpOk (stM 0) 0xFFFFC#64 4 4 true := by
  have hp : planeVAs (stM 1) true 0x40#64 = [0x40#64, 0x80#64] := by decide +kernel
  have hs : (stM 1).core (stM 1).th.core = coreM := rfl
  refine ⟨⟨⟨rfl, rfl⟩, by unfold FieldsOk; decide +kernel, fun _ _ => by decide +kernel, ⟨_, _, rfl, rfl⟩, ?_, rfl, ?_⟩,
    ⟨by unfold FieldsOk; decide +kernel, ⟨_, rfl⟩, ?_, ?_⟩, spOk _ _ _ _ _ (by decide +kernel)⟩
  · rw [hp]; intro v hv; simp at hv; rcases hv with rfl | rfl <;> exact spOk _ _ _ _ _ (by decide +kernel)
  · intro j hj; have : j = 0 := by have : (stM 1).th.k = 1 := rfl
                                   omega
    subst this; decide +kernel
  · rw [hp]; intro v hv; simp at hv; rcases hv with rfl | rfl <;> exact spOk _ _ _ _ _ (by decide +kernel)
  · rw [hp]; intro i j hij hj; simp at hj; have : i = 0 := by omega
    have : j = 1 := by omega
    subst i j; decide
theorem test_lds : (out (.lds h0 (g 3) (g 1) false .h 2#16) (stM 0)).th.gR 3 = 0x0403#64 ∧
    causeOf (out (.lds h0 (g 3) (g 1) false .h 1#16) (stM 0)) = 0x48 := by decide +kernel
theorem test_sts : ((out (.sts h0 (g 1) (g 2) false .h 0#16) (stM 0)).core 0).spNat 0x40 4 = 0x0403CCDD ∧
    ((out (.sts h0 (g 1) (g 2) true .w 0#16) (stM 1)).core 0).spNat 0x80 4 = 0x11 := by decide +kernel
/-- Misaligned; at the top; locked by an engine that writes and by one that reads; a soft error. -/
theorem witness_ScratchpadTraps :
    (0x41#64).toNat % 2 ≠ 0 ∧ 0x100000 < (0xFFFFE#64).toNat + 4 ∧ (0xFFFFC#64).toNat + 4 ≤ 0x100000 ∧
    stencilCause [⟨0x40, 0x80, true, 1⟩] 0x7F 1 false = some 0x81#8 ∧ stencilCause [⟨0x40, 0x80, true, 1⟩] 0x80 1 true = none ∧
    stencilCause [⟨0x40, 0x80, false, 1⟩] 0x3F 2 true = some 0x80#8 ∧ stencilCause [⟨0x40, 0x80, false, 1⟩] 0x40 1 false = none ∧
    (1 * 64 < (0x7F#64).toNat + 1 ∧ (0x7F#64).toNat < 1 * 64 + 64) := by decide
/-- Soft errors in the line of g1 and in the last line, which g7 names. -/
def stSoft : State := world (thrM 1 [(7, 0xFFFC0#64)]) { coreM with softErr := [1, 0x3FFF] }
/-- A plane past the end comes before a soft error of the plane below it; with both planes placed the soft error is met; misaligned. -/
theorem witness_ScratchpadStops :
    (Issues stSoft h0 ∧ FieldsOk stSoft [(.ws, g 3), (.rs, g 7)] ∧ StrideOk stSoft true ∧
      (∃ s₁, readAll [g 7] stSoft = .ok ([0xFFFC0#64], s₁) ∧ SpStops s₁ 4 4 false true (planeVAs stSoft true 0xFFFC0#64) 0x47#8 0x100000#64)) ∧
    (∃ s₁, readAll [g 1] stSoft = .ok ([0x40#64], s₁) ∧ SpStops s₁ 4 4 false true (planeVAs stSoft true 0x40#64) 0x61#8 0x40#64 ∧
      SpStops s₁ 64 64 false true (planeVAs stSoft true 0x40#64) 0x61#8 0x40#64) ∧
    (FieldsOk stSoft [(.rs, g 1), (.rs, g 2)] ∧ FieldsOk stSoft [(.ws, g 3), (.rs, g 1), (.rs, g 2)] ∧
      FieldsOk stSoft [(.ws, g 3), (.rs, g 1), (.rs, g 2), (.rs, g 6)] ∧ FieldsOk stSoft [(.vec, g 4), (.rs, g 1)] ∧
      FieldsOk stSoft [(.rs, g 1), (.vec, g 2)] ∧ (1#3).toNat < stSoft.th.V ∧ stSoft.th.regErr = []) ∧
    (∃ s₁, readAll [g 1, g 2] stSoft = .ok ([0x40#64, 0xAABBCCDD#64], s₁) ∧ SpStops s₁ 4 4 true true [0x40#64] 0x61#8 0x40#64 ∧
      SpStops s₁ 4 4 true false [0x41#64] 0x48#8 0x41#64 ∧ SpStops s₁ 64 64 true false [0xFFFC0#64, 0x100000#64] 0x47#8 0x100000#64) ∧
    (∃ s₁, readAll [g 1, g 2, g 6] stSoft = .ok ([0x40#64, 0xAABBCCDD#64, 0x807060504030201#64], s₁) ∧
      SpStops s₁ 8 8 true true [0x40#64] 0x61#8 0x40#64) := by
  have h7 : planeVAs stSoft true 0xFFFC0#64 = [0xFFFC0#64, 0x100000#64] := by decide +kernel
  have h1 : planeVAs stSoft true 0x40#64 = [0x40#64, 0x80#64] := by decide +kernel
  rw [h7, h1]
  refine ⟨⟨⟨rfl, rfl⟩, by unfold FieldsOk; decide +kernel, fun _ _ => by decide +kernel, _, rfl, .inl ⟨[0xFFFC0#64], 0x100000#64, [], rfl,
      fun u hu => ?_, rfl, .inr (.inl ⟨by decide, by decide, rfl⟩)⟩⟩,
    ⟨_, rfl, .inr ⟨fun u hu => ?_, rfl, [], 0x40#64, [0x80#64], 1, rfl, by simp, by decide +kernel, rfl, rfl⟩,
      .inr ⟨fun u hu => ?_, rfl, [], 0x40#64, [0x80#64], 1, rfl, by simp, by decide +kernel, rfl, rfl⟩⟩,
    by unfold FieldsOk; decide +kernel,
    ⟨_, rfl, .inr ⟨fun u hu => ?_, rfl, [], 0x40#64, [], 1, rfl, by simp, by decide +kernel, rfl, rfl⟩,
      .inl ⟨[], 0x41#64, [], rfl, by simp, rfl, .inl ⟨by decide, rfl⟩⟩,
      .inl ⟨[0xFFFC0#64], 0x100000#64, [], rfl, fun u hu => ?_, rfl, .inr (.inl ⟨by decide, by decide, rfl⟩)⟩⟩,
    ⟨_, rfl, .inr ⟨fun u hu => ?_, rfl, [], 0x40#64, [], 1, rfl, by simp, by decide +kernel, rfl, rfl⟩⟩⟩
  all_goals (simp at hu; rcases hu with rfl | rfl <;> exact ⟨by decide, by decide, by decide +kernel⟩)
theorem test_stop_planes : causeOf (out (.lds h0 (g 3) (g 7) true .w 0#16) stSoft) = 0x47 ∧
    causeOf (out (.vlds h0 (g 4) (g 1) true 0#3 0#16) stSoft) = 0x61 := by decide +kernel
/-- The address of g4, read, and the machine afterwards. -/
def r4 (k : Nat) (fs : List Fld) : State := after (readOps fs) (stM k)
theorem witness_VectorAccess :
    Issues (stM 0) h0 ∧ (stM 0).th.regErr = [] ∧ (1#3 ≠ 0#3 → (1#3).toNat < (stM 0).th.V) ∧
    (∃ s₁, readS (g 1) (stM 0) = .ok (0x40#64, s₁)) ∧ FieldsOk (stM 0) [(.vec, g 4), (.rs, g 1)] ∧ SpOk (stM 0) 0x40#64 64 64 false ∧
    FieldsOk (stM 0) [(.rs, g 1), (.vec, g 2)] ∧ SpOk (stM 0) 0xFFFC0#64 64 64 true ∧ (stM 1).th.sel ≠ [] ∧ (stM 1).th.tstride ≠ 0#64 ∧
    (∃ s₁ s₂, readOps [g 4] (stM 0) = .ok ([0x10040#64], s₁) ∧ Reaches 64 .read s₁ [0x10040#64] [0x10040] s₂) ∧
    (∃ s₁ s₂, readOps [g 4] (stM 0) = .ok ([0x10040#64], s₁) ∧ Reaches 64 .write s₁ [0x10040#64] [0x10040] s₂) ∧
    (∃ s₁ s₂, readOps [g 4] (stM 1) = .ok ([0x10040#64], s₁) ∧ Reaches 64 .read s₁ [0x10040#64, 0x10080#64] [0x10040, 0x10080] s₂) :=
  ⟨⟨rfl, rfl⟩, rfl, fun _ => by decide +kernel, ⟨_, rfl⟩, by unfold FieldsOk; decide +kernel, spOk _ _ _ _ _ (by decide +kernel),
    by unfold FieldsOk; decide +kernel, spOk _ _ _ _ _ (by decide +kernel), by decide +kernel, by decide +kernel,
    ⟨_, _, ok_of (by decide +kernel), reach_of (by decide +kernel)⟩, ⟨_, _, ok_of (by decide +kernel), reach_of (by decide +kernel)⟩,
    ⟨_, _, ok_of (by decide +kernel), reach_of (by decide +kernel)⟩⟩
/-- Typed and masked: both planes, a mask register. -/
theorem witness_VectorAccess_masked :
    StrideOk (stM 1) true ∧ (∃ s₁, readS (g 1) (stM 1) = .ok (0x40#64, s₁)) ∧ planeVAs (stM 1) true 0x40#64 = [0x40#64, 0x80#64] ∧
    SpOk (stM 1) 0x40#64 64 64 true ∧ SpOk (stM 1) 0x80#64 64 64 true ∧ FieldsOk (stM 1) [(.vec, g 4), (.rs, g 1)] ∧
    FieldsOk (stM 1) [(.rs, g 1), (.vec, g 2)] ∧ ((stM 1).th.regErr = [] ∧ (1#3).toNat < (stM 1).th.V ∧ active (stM 1) 1#3 1 = false) ∧
    apart 64 [0x40, 0x80] :=
  ⟨fun _ _ => by decide +kernel, ⟨_, rfl⟩, by decide +kernel, spOk _ _ _ _ _ (by decide +kernel), spOk _ _ _ _ _ (by decide +kernel),
    by unfold FieldsOk; decide +kernel, by unfold FieldsOk; decide +kernel, by decide +kernel, fun i j hij hj => by
      have hj' : j < 2 := hj
      have h1 : i = 0 := by omega
      have h2 : j = 1 := by omega
      subst h1 h2; decide⟩
theorem test_vlds : ((out (.vlds h0 (g 4) (g 1) false 0#3 0#16) (stM 0)).th.vR 4) = 0x0807060504030201#512 ∧
    (out (.vlds h0 (g 4) (g 1) false 0#3 0#16) (stM 0)).th.vB 4 = 0x100#32 := by decide +kernel
theorem test_vsts : ((out (.vsts h0 (g 1) (g 2) false 1#3 0#16) (stM 0)).core 0).spNat 0x40 16 = 0x1122334455667788 ∧
    ((out (.vsts h0 (g 1) (g 2) false 1#3 0#16) (stM 0)).core 0).spNat 0x50 8 = 0x1122334455667788 := by decide +kernel
theorem test_vldd : (out (.vldd h0 (g 5) (g 4) false 0#3 0#16) (stM 0)).th.vR 5 = 0x0807060504030201#512 := by decide +kernel
theorem test_vstd : (out (.vstd h0 (g 4) (g 2) false 0#3 0#16) (stM 0)).dmNat 0 0x10040 8 = 0x1122334455667788 ∧
    (out (.vstd h0 (g 4) (g 2) false 0#3 0#16) (stM 0)).th.outSt = 1 := by decide +kernel

/-- A contig run of sixteen pages, and the same with one entry that breaks the rule (R72). -/
def stPages (broken : Bool) : State :=
  { stM 0 with mem := (List.range 16).foldl (fun m i =>
      m.putRun 0#8 (0x5080 + 8 * i) (leBytes 8 (0x1023F + 4096 * (if broken && i == 3 then 9 else i)))) (stM 0).mem }
theorem witness_Translation_run :
    (((stPages false).walkRead 0 0 0x13040).walk 0 0 0x13040).1.toOption = some ⟨1, 0x5098, 0x1323F⟩ ∧
    (∀ j, j < 16 → pteBit ((stPages false).dmNat 0 (0x5080 + 8 * j) 8) 9 = true ∧
      (stPages false).dmNat 0 (0x5080 + 8 * j) 8 % 4096 = (stPages false).dmNat 0 0x5080 8 % 4096 ∧
      pteAddr ((stPages false).dmNat 0 (0x5080 + 8 * j) 8) = pteAddr ((stPages false).dmNat 0 0x5080 8) + 4096 * j ∧
      (stPages false).rewrites.look (0x5080 + 8 * j) = none) ∧
    (((stPages true).walkRead 0 0 0x13040).walk 0 0 0x13040).1.toOption = some ⟨1, 0x5098, 0x1923F⟩ ∧
    (stPages true).runKept 0 0x5080 = false := by decide +kernel
/-- The accessed and dirty bits of a leaf, the TLB's entry, and a later access that needs no walk. -/
theorem test_translate_notes :
    let s : State := { stM 0 with mem := (stM 0).mem.putRun 0#8 0x5080 (leBytes 8 0x1003F) }
    let r := s.translate 0 0 true 0x10040#64 .write
    let t := { r.2 with mem := [] }
    r.1 = .ok 0x10040 ∧ r.2.dmNat 0 0x5080 8 = 0x10C3F ∧
    (r.2.core 0).tlb = [⟨0, 16, 1, 16, true, true, true, true, true⟩] ∧
    (t.core 0).tlb.find? (fun x => x.has 0 16 && (x.dirty || !false)) = some ⟨0, 16, 1, 16, true, true, true, true, true⟩ ∧
    (t.translate 0 0 true 0x10048#64 .read).1 = .ok 0x10048 := by decide +kernel
theorem witness_DeviceAccess :
    Issues (stM 1) h0 ∧ FieldsOk (stM 1) [(.ws, g 3), (.rs, g 4)] ∧ FieldsOk (stM 1) [(.rs, g 4), (.rs, g 2)] ∧ StrideOk (stM 1) true ∧
    (∃ s₁ s₂ s₃, readOps [g 4] (stM 1) = .ok ([0x10040#64], s₁) ∧ ReleaseOk s₁ .rel ∧
      Reaches 4 .read s₁ [0x10040#64, 0x10080#64] [0x10040, 0x10080] s₂ ∧ NonePending s₂ 0x10040 4 ∧
      writeST (g 3) 0x04030201#64 [0#64] s₂ = .ok ((), s₃)) ∧
    (∃ s₁ s₂, readOps [g 4, g 2] (stM 1) = .ok ([0x10040#64, 0xAABBCCDD#64], s₁) ∧
      Reaches 4 .write s₁ [0x10040#64, 0x10080#64] [0x10040, 0x10080] s₂ ∧ s₂.pendOf (stM 1).cur = []) :=
  ⟨⟨rfl, rfl⟩, by unfold FieldsOk; decide +kernel, by unfold FieldsOk; decide +kernel, fun _ _ => by decide +kernel,
    ⟨_, _, _, ok_of (by decide +kernel), fun _ => by decide +kernel, reach_of (by decide +kernel),
      by unfold NonePending; decide +kernel, ok_of (by decide +kernel)⟩,
    ⟨_, _, ok_of (by decide +kernel), reach_of (by decide +kernel), by decide +kernel⟩⟩
theorem test_ldd : (out (.ldd h0 (g 3) (g 4) false .acq .w 4#16) (stM 0)).th.gR 3 = 0x08070605#64 ∧
    causeOf (out (.ldd h0 (g 3) (g 1) false .plain .w 0#16) (stM 0)) = 0x40 := by decide +kernel
theorem test_std : ((out (.std h0 (g 4) (g 2) false .plain .w 0#16) (stM 0)).core 0).pend.length = 1 ∧
    (out (.std h0 (g 4) (g 2) false .plain .w 0#16) (stM 0)).dmNat 0 0x10040 8 = 0x08070605AABBCCDD := by decide +kernel
theorem witness_Atomics :
    SpOk (stM 0) 0x40#64 8 8 true ∧ SpOk (stM 0) 0x40#64 8 8 false ∧ FieldsOk (stM 0) [(.ws, g 3), (.rs, g 1), (.rs, g 6), (.rs, g 2)] ∧
    (∃ s₁ s₂, readAll [g 1, g 6, g 2] (stM 0) = .ok ([0x40#64, 0x807060504030201#64, 0xAABBCCDD#64], s₁) ∧
      writeS (g 3) 0x807060504030201#64 s₁ = .ok ((), s₂)) ∧ valueAt (stM 0) (.sp (stM 0).th.core) 0x40 8 = 0x807060504030201 ∧
    (∃ s₁ s₂ s₃, readOps [g 4, g 2] (stM 0) = .ok ([0x10040#64, 0xAABBCCDD#64], s₁) ∧ ReleaseOk s₁ .ar ∧
      Reaches 8 .atomic s₁ [0x10040#64] [0x10040] s₂ ∧ s₂.pendOf (stM 0).cur = [] ∧ (s₂.core (stM 0).th.core).pend = [] ∧
      writeS (g 3) 0x807060504030201#64 s₂ = .ok ((), s₃) ∧
      ∃ s₄, writeS (g 3) 0x807060504030201#64 (s₂.dmWrite 0x10040 (leBytes 8 0xAABBCCDD)) = .ok ((), s₄)) :=
  ⟨spOk _ _ _ _ _ (by decide +kernel), spOk _ _ _ _ _ (by decide +kernel), by unfold FieldsOk; decide +kernel, ⟨_, _, rfl, rfl⟩,
    by decide +kernel, ⟨_, _, _, ok_of (by decide +kernel), fun _ => by decide +kernel, reach_of (by decide +kernel), by decide +kernel,
      by decide +kernel, ok_of (by decide +kernel), _, ok_of (by decide +kernel)⟩⟩
theorem test_amos : (out (.amos h0 (g 3) (g 1) (g 2) false .add) (stM 0)).th.gR 3 = 0x04030201#64 ∧
    ((out (.amos h0 (g 3) (g 1) (g 2) false .add) (stM 0)).core 0).spNat 0x40 4 = 0xAEBECEDE := by decide +kernel
theorem test_cass : ((out (.cass h0 (g 3) (g 1) (g 6) (g 2) true) (stM 0)).core 0).spNat 0x40 8 = 0xAABBCCDD ∧
    ((out (.cass h0 (g 3) (g 1) (g 2) (g 2) true) (stM 0)).core 0).spNat 0x40 8 = 0x0807060504030201 := by decide +kernel
theorem test_amod : (out (.amod h0 (g 3) (g 4) (g 2) .ar false .minu) (stM 0)).dmNat 0 0x10040 4 = 0x04030201 ∧
    (out (.amod h0 (g 3) (g 4) (g 2) .ar false .min) (stM 0)).dmNat 0 0x10040 4 = 0xAABBCCDD := by decide +kernel
theorem test_casd : (out (.casd h0 (g 3) (g 4) (g 6) (g 2) .plain true) (stM 0)).dmNat 0 0x10040 8 = 0xAABBCCDD := by decide +kernel
/-- Gather of two bytes by the indices of v6, scatter of the same. -/
def stG : State := world { thrM 0 [] with v := [(1, 3#512), (2, 0xFFEE#512), (6, 0x0301#512)] } coreM
theorem witness_GatherScatter :
    Issues stG h0 ∧ (∃ s₁, readS (g 1) stG = .ok (0x40#64, s₁)) ∧ WellFormed.instr (.vgas h0 (g 4) (g 1) (g 6) 1#3 .u8 0#3) = true ∧
    FieldsOk stG [(.vec, g 4), (.rs, g 1), (.vec, g 6)] ∧ FieldsOk stG [(.rs, g 1), (.vec, g 6), (.vec, g 2)] ∧
    active stG 1#3 0 = true ∧ active stG 1#3 2 = false ∧ SpOk stG 0x41#64 1 1 false ∧ SpOk stG 0x43#64 1 1 true := by
  refine ⟨⟨rfl, rfl⟩, ⟨_, rfl⟩, rfl, by unfold FieldsOk; decide +kernel, by unfold FieldsOk; decide +kernel, by decide +kernel,
    by decide +kernel, spOk _ _ _ _ _ (by decide +kernel), spOk _ _ _ _ _ (by decide +kernel)⟩
theorem test_vgas : (out (.vgas h0 (g 4) (g 1) (g 6) 1#3 .u8 0#3) stG).th.vR 4 = 0x0402#512 := by decide +kernel
theorem test_vscs : ((out (.vscs h0 (g 1) (g 6) (g 2) 1#3 .u8 0#3) stG).core 0).spNat 0x40 4 = 0xFF03EE01 := by decide +kernel
theorem witness_SidebandAccess :
    FieldsOk (stM 0) [(.ws, g 3), (.rs, g 4)] ∧ FieldsOk (stM 0) [(.rs, g 4), (.rs, g 2)] ∧
    (∃ s₁ s₂ s₃, readOps [g 4] (stM 0) = .ok ([0x10040#64], s₁) ∧ Reaches 64 .side s₁ [0x10040#64] [0x10040] s₂ ∧
      writeS (g 3) 0#64 s₂ = .ok ((), s₃)) ∧ SpOk (stM 0) 0x40#64 64 64 false ∧ SpOk (stM 0) 0xF0000#64 64 65536 false ∧
    (∃ s₁ s₂, readOps [g 4, g 2] (stM 0) = .ok ([0x10040#64, 0xAABBCCDD#64], s₁) ∧ Reaches 64 .write s₁ [0x10040#64] [0x10040] s₂) := by
  exact ⟨by unfold FieldsOk; decide +kernel, by unfold FieldsOk; decide +kernel,
    ⟨_, _, _, ok_of (by decide +kernel), reach_of (by decide +kernel), ok_of (by decide +kernel)⟩, spOk _ _ _ _ _ (by decide +kernel),
    spOk _ _ _ _ _ (by decide +kernel), ⟨_, _, ok_of (by decide +kernel), reach_of (by decide +kernel)⟩⟩
theorem test_ldsb : (out (.ldsb h0 (g 3) (g 1) .spb 0#16) (stM 0)).th.gR 3 = 0x100#64 ∧
    (out (.ldsb h0 (g 3) (g 0) .fmt 0#16) (stM 0)).th.gR 3 = 7#64 := by decide +kernel
theorem test_stsb : ((out (.stsb h0 (g 1) (g 4) .spb 0#16) (stM 0)).core 0).spB 0x40 = 0x10040#32 ∧
    ((out (.stsb h0 (g 0) (g 1) .fmt 0#16) (stM 0)).core 0).fmtReg 0 = 0#64 := by decide +kernel
/-- A store of the core on its way to a line of core 0, and one to core 1, counted. -/
def stPend (id : Word32) : State := world { thrM 0 [] with outSt := 1 } { coreM with pend := [⟨1, id, 0x10040, [(0x10040, 1#8)], 0#32, false, none⟩] }
theorem witness_FencesAndHost :
    (Issues (stPend id0) h0 ∧ (stPend id0).pendOf id0 ≠ [] ∧ homeCore 0x10040 = (stPend id0).th.core ∧ ¬(stPend id0).th.outSt = 0 ∧
      (stM 0).pendOf id0 = [] ∧ (stM 0).th.outSt = 0) ∧
    (∃ q, (stM 0).part (stM 0).th.part = some q ∧ q.desc.hostLen.toNat = 0x2000) ∧
    (∃ s₁, FieldsOk (stM 0) [(.ws, g 3), (.rs, g 1)] ∧ readOps [g 1] (stM 0) = .ok ([0x40#64], s₁)) ∧
    (0x1040 ≤ (0x40#64 + (0x1000#16).signExtend 64).toNat ∧ (0x40#64 + (0x1FB8#16).signExtend 64).toNat + 8 ≤ 0x2000 ∧
      ¬0x1040 ≤ (0x40#64 + (0xFFF#16).signExtend 64).toNat ∧ ¬(0x40#64 + (0x1FB9#16).signExtend 64).toNat + 8 ≤ 0x2000) ∧
    (∃ s₁, FieldsOk (stM 0) [(.rs, g 1), (.rs, g 2)] ∧ readOps [g 1, g 2] (stM 0) = .ok ([0x40#64, 0xAABBCCDD#64], s₁)) := by
  refine ⟨⟨⟨rfl, rfl⟩, by decide +kernel⟩, ⟨_, rfl, rfl⟩, ⟨_, by unfold FieldsOk; decide +kernel, rfl⟩, by decide +kernel,
    ⟨_, by unfold FieldsOk; decide +kernel, rfl⟩⟩
theorem test_fence : (out (.fence h0 .core) (stPend id0)).th.wait = .fence .core ∧ (out (.fence h0 .core) (stPend 5#32)).th.wait = .none ∧
    (out (.fence h0 .host) (stPend 5#32)).th.wait = .fence .host := by decide +kernel
theorem test_ldh : (out (.ldh h0 (g 3) (g 1) .dw 0x1000#16) (stM 0)).th.wait = .hostAccess 0x1040 false ∧
    causeOf (out (.ldh h0 (g 3) (g 1) .dw 0x1FC0#16) (stM 0)) = 0x49 := by decide +kernel
theorem test_sth_traps : causeOf (out (.sth h0 (g 1) (g 2) .dw 0xFFF#16) (stM 0)) = 0x49 ∧
    causeOf (out (.sth h0 (g 1) (g 2) .dw 0x1004#16) (stM 0)) = 0x48 := by decide +kernel
theorem test_sth : (out (.sth h0 (g 1) (g 2) .h 0x1000#16) { stM 0 with threads := [(0x10000, { thrM 0 [] with atPort := true, vals := [0x40#64, 0xAABBCCDD#64] })] }).hostPend =
    [(8, ⟨id0, 0, [(0x1040, 0xDD#8), (0x1041, 0xCC#8)], none⟩)] := by decide +kernel
/-- The page of g5 lies on core 1. A roaming thread, without and with an open loop. -/
def stAway2 (ls : List LoopLvl) : State := { stM 0 with threads := [(0x10000, { thrM 0 [] with roaming := true, loops := ls })] }
theorem witness_RemoteAccess :
    (oneAccess (.ldd h0 (g 3) (g 5) false .rel .w 0#16)).isSome = true ∧ (oneAccess (.casd h0 (g 3) (g 5) (g 1) (g 2) .ar true)).isSome = true ∧
    (∃ s₁ s₂, Issues (stM 0) h0 ∧ FieldsOk (stM 0) [(.ws, g 3), (.rs, g 5)] ∧ readOps [g 5] (stM 0) = .ok ([0x11000#64], s₁) ∧
      s₁.pendOf (stM 0).cur = [] ∧ s₁.translate 0 0 true 0x11000#64 .read = (.ok 0x20000000, s₂) ∧ homeCore 0x20000000 ≠ 0) ∧
    (∃ s₁ s₂, FieldsOk (stM 0) [(.rs, g 5), (.rs, g 1)] ∧ readOps [g 5, g 1] (stM 0) = .ok ([0x11000#64, 0x40#64], s₁) ∧
      s₁.translate 0 0 true 0x11000#64 .write = (.ok 0x20000000, s₂)) ∧ (stM 0).th.roaming = false ∧ (stM 0).th.regErr = [] ∧
    ((stAway2 []).th.roaming = true ∧ (stAway2 []).th.loops = [] ∧ (stAway2 []).th.outLd = 0 ∧ (stAway2 []).th.outSt = 0 ∧
      (stAway2 [⟨8#64, 120#64, 2#64, false⟩]).th.loops ≠ []) :=
  ⟨rfl, rfl, ⟨r4 0 [g 5], ((r4 0 [g 5]).translate 0 0 true 0x11000#64 .read).2, ⟨rfl, rfl⟩, by unfold FieldsOk; decide +kernel,
    ok_of (by decide +kernel), by decide +kernel, Prod.ext (by decide +kernel) rfl, by decide⟩,
    ⟨r4 0 [g 5, g 1], ((r4 0 [g 5, g 1]).translate 0 0 true 0x11000#64 .write).2, by unfold FieldsOk; decide +kernel,
      ok_of (by decide +kernel), Prod.ext (by decide +kernel) rfl⟩, rfl, rfl, by decide +kernel⟩
theorem test_remote : (out (.ldd h0 (g 3) (g 5) false .plain .w 0#16) (stM 0)).th.wait = .access ∧
    (out (.ldd h0 (g 3) (g 5) false .plain .w 0#16) (stAway2 [])).th.life = .migrating := by
  decide +kernel
/-- Not canonical; not present; a leaf that gives the access, at its first and last byte; one that does not. -/
theorem witness_Translation :
    canonical 0x800000000000#64 = false ∧ canonical 0x7FFFFFFFFFFF#64 = true ∧ canonical 0xFFFF800000000000#64 = true ∧
    ((stM 0).core 0).tlb = [] ∧ (stM 0).errs = [] ∧ (((stM 0).walkRead 0 0 0x12000).walk 0 0 0x12000).1.toOption = none ∧
    (((stM 0).walkRead 0 0 0x10FFF).walk 0 0 0x10FFF).1.toOption = some ⟨1, 0x5080, 0x10C3F⟩ ∧ pteBit 0x10C3F 9 = false ∧ ((stM 0).walkRead 0 0 0x10FFF).absent 0x10FFF = false ∧
    (stM 0).absent 0x1E000000 = true := by decide +kernel
/-- The page of g4 in the far tier at the address a leaf gives, with near frames to take. -/
def stFar (e : Nat) (frames : List Nat) : State :=
  { world (thrM 0 []) { coreM with frames := frames } with mem := bytesAt pages0 0x5080 (leBytes 8 e) }
def farLeaf : Nat := 0x400000010C7F
theorem witness_Translation_far :
    (((stFar farLeaf []).walkRead 0 0 0x10040).walk 0 0 0x10040).1.toOption = some ⟨1, 0x5080, farLeaf⟩ ∧ pteBit farLeaf 6 = true ∧
    (stFar farLeaf []).absent (pteAddr farLeaf + 0x40) = false ∧ (stM 0).absent (pteAddr (farLeaf + 0x1E000000000) + 0x40) = true := by
  decide +kernel
theorem test_translate_far : ((stFar farLeaf []).translate 0 0 true 0x10040#64 .read).1 = .touch 0x5080 farLeaf ∧
    ((stFar (farLeaf + 0x1E000000000) []).translate 0 0 true 0x10040#64 .read).1 = .fault 0x46#8 := by decide +kernel
theorem test_translate : ((stM 0).translate 0 0 true 0x10FFF#64 .write).1 = .ok 0x10FFF ∧
    ((stM 0).translate 0 0 true 0x12000#64 .write).1 = .fault 0x40#8 := by decide +kernel

/-! ### Control, waits and messages -/

/-- A thread at slot 2 of a line with starts at 2, 4 and 30, all of them targets. -/
def lineT : Nat := line3 + (1 + 4 + 2 ^ 28) * 2 ^ 30
def coreT : Core := { coreC with code := bytesAt [] 0 (leBytes 128 lineT ++ leBytes 128 lineT) }
def thrT (t : Thread) : Thread := { t with kernel := some 0, pc := 8#64, pcMode := .start }
def stT : State := world (thrT (thread [(1, 16#64), (2, 3#64)])) coreT
/-- The same in a handler: kernel mode, ie = 0, the saved mode user and its ie 1, a suspended loop. -/
def stH : State := world { thrT (thread [(1, 16#64)]) with status := 0x201#12, epc := 16#64, loops := [⟨8#64, 120#64, 2#64, true⟩] } coreT
def stLoop (e n : Word) : State := stT.modTh fun t => { t with loops := [⟨8#64, e, n, false⟩] }
theorem witness_ControlFlow :
    Issues stT h0 ∧ NotTail stT ∧ ¬NotTail (stAt 8#64 [⟨8#64, 8#64, 2#64, false⟩]) ∧
    (∃ u, FieldsOk stT [(.ws, g 3)] ∧ writeS (g 3) 16#64 stT = .ok ((), u)) ∧
    (∃ u, FieldsOk stT [(.ws, g 3), (.rs, g 1)] ∧ readS (g 1) stT = .ok (16#64, u)) ∧
    (stT.th.loops = [] ∧ stT.th.pc.toNat < 16 ∧ stT.isStart stT.th 16#64 = true ∧ stT.isStart stT.th 12#64 = false) ∧
    2 ≤ (stAt 8#64 [⟨8#64, 16#64, 3#64, false⟩, ⟨8#64, 16#64, 3#64, false⟩]).th.loops.length ∧
    (expandLine stT.th 120#64 stT = .ok ((), stT) ∧ (16#64).toNat < (120#64).toNat) := by
  refine ⟨⟨rfl, rfl⟩, by unfold NotTail; decide +kernel, by unfold NotTail; decide +kernel, ⟨_, by unfold FieldsOk; decide +kernel, rfl⟩,
    ⟨_, by unfold FieldsOk; decide +kernel, rfl⟩, by decide +kernel, by decide +kernel, rfl, by decide⟩
/-- An inner loop beyond the end of the outer one; a count of zero on the outer one's last instruction. -/
theorem test_loop_inner : causeOf (out (.loopi h0 3#16 28#24) (stLoop 16#64 2#64)) = 0x04 ∧
    (out (.loopi h0 0#16 2#24) (stLoop 16#64 2#64)).th.pc = 8#64 ∧ (out (.loopi h0 0#16 2#24) (stLoop 16#64 1#64)).th.loops = [] ∧
    (out (.loopi h0 3#16 2#24) (stLoop 16#64 2#64)).th.loops.length = 2 := by decide +kernel
theorem test_nop : (out (.nop h0) stT).th.pc = 16#64 := by decide +kernel
theorem test_br : (out (.br h0 2#24) stT).th.pc = 16#64 ∧ causeOf (out (.br h0 2#24) (stAt 8#64 [⟨8#64, 8#64, 2#64, false⟩])) = 0x05 := by
  decide +kernel
theorem test_brl : (out (.brl h0 3#8 0xFFFFFE#24) stT).th.pc = 0#64 ∧ (out (.brl h0 3#8 0xFFFFFE#24) stT).th.gR 3 = 16#64 := by decide +kernel
theorem test_jr : (out (.jr h0 (g 1)) stT).th.pc = 16#64 := by decide +kernel
theorem test_jrl : (out (.jrl h0 (g 1) (g 1)) stT).th.pc = 16#64 ∧ (out (.jrl h0 (g 1) (g 1)) stT).th.gR 1 = 16#64 := by decide +kernel
theorem test_ebreak : causeOf (out (.ebreak h0 5#16) stT) = 0x0A ∧ (out (.ebreak h0 5#16) stT).th.tval = 5#64 := by decide +kernel
theorem test_loop : (out (.loop h0 2#8 28#24) stT).th.loops = [⟨16#64, 120#64, 3#64, false⟩] ∧
    causeOf (out (.loop h0 2#8 0#24) stT) = 0x04 := by decide +kernel
theorem test_loopi : (out (.loopi h0 0#16 2#24) stT).th.pc = 120#64 ∧ (out (.loopi h0 2#16 2#24) stT).th.pc = 16#64 := by decide +kernel

/-- Counters, events, a landing counter, a buffer and a booking to wait on; a message. -/
def book0 : Booking := ⟨1#16, id0, 0, 0, .committed, ⟨0, 0, 0#2, 0, 0, false, 0#2, [], false⟩, 40, [], false, 0#8, false, none, none⟩
def hBook : Word := 0x1000000010000#64
def stW (k : BookState) : State :=
  { world { thrT (thread [(1, 6#64), (2, hBook), (4, 1#64)]) with outSt := 1, ev := 5#64, l := [(3, 2#32)] } { coreT with
      cb := [(2, ⟨0x100, 64, 4, 1, 2, 2, 1, 1⟩)] } with books0 := [(0, { book0 with state := k })] }
def stMail : State := world { thrT (thread []) with mailbox := [7#64, 8#64] } coreT
theorem witness_EndingAndWaiting :
    Issues (stW .committed) h0 ∧ NotTail (stW .committed) ∧ AtAnchor (stW .committed) ∧
    (¬((stW .committed).th.outSt ≤ 0) ∧ (stW .committed).th.outSt ≤ 1) ∧ FieldsOk (stW .committed) [(.ws, g 3), (.rs, g 1)] ∧
    (∃ u v, readS (g 1) (stW .committed) = .ok (6#64, u) ∧ u.th.event &&& 6#64 ≠ 0#64 ∧ writeS (g 3) 4#64 u = .ok ((), v)) ∧
    (stMail.th.event &&& 6#64 = 0#64) ∧ FieldsOk (stW .committed) [(.ws, g 3), (.ctr, g 7)] ∧
    ((stW .committed).th.lR 3).toNat = 2 ∧ FieldsOk (stW .committed) [(.ws, g 3), (.buf, g 15)] ∧
    (((stW .committed).core 0).cbuf 2).filled = 2 ∧ (stW .committed).bookOf 5#64 = none ∧
    (∃ r i k, (stW .started).bookOf hBook = some (r, i, k) ∧ k.state = .started) ∧
    (∃ r i k, (stW .cancelled).bookOf hBook = some (r, i, k) ∧ k.state = .cancelled) ∧
    (∃ r i k, (stW .saved).bookOf hBook = some (r, i, k) ∧ k.state = .saved) := by
  refine ⟨⟨rfl, rfl⟩, by unfold NotTail; decide +kernel, .inl rfl, by decide +kernel, by unfold FieldsOk; decide +kernel,
    ⟨_, _, rfl, by decide +kernel, rfl⟩, by decide +kernel, by unfold FieldsOk; decide +kernel, by decide +kernel,
    by unfold FieldsOk; decide +kernel, by decide +kernel, by decide +kernel, ⟨_, _, _, rfl, rfl⟩, ⟨_, _, _, rfl, rfl⟩, ⟨_, _, _, rfl, rfl⟩⟩
theorem test_exit : (out (.exit h0) stT).th.life = .exited ∧ (out (.exit h0) stT).agenda.map (·.ev) = [.threadSeating 0, .threadFreed id0] := by
  decide +kernel
theorem test_yield : (out (.yield h0) stT).th.life = .ready ∧ ((out (.yield h0) stT).core 0).run = [id0] := by decide +kernel
theorem test_waitc : (out (.waitc h0 2#4 0#16) (stW .started)).th.wait = .counters 2#4 0 ∧
    (out (.waitc h0 2#4 1#16) (stW .started)).th.wait = .none := by decide +kernel
theorem test_waite_ev : (out (.waiteEv h0 (g 3) (g 1)) (stW .started)).th.gR 3 = 4#64 ∧
    (out (.waiteEv h0 (g 3) (g 1)) (stW .started)).th.ev = 1#64 := by decide +kernel
theorem test_waite_l : (out (.waiteL h0 (g 3) (g 3) 2#16) (stW .started)).th.lR 3 = 0#32 ∧
    (out (.waiteL h0 (g 3) (g 3) 3#16) (stW .started)).th.wait = .landing 3 3 := by decide +kernel
theorem test_waite_cb : (out (.waiteCb h0 (g 3) (g 2) 2#16) (stW .started)).th.gR 3 = 2#64 ∧
    (out (.waiteCb h0 (g 3) (g 2) 3#16) (stW .started)).th.life = .waitUnseated := by decide +kernel
theorem test_waite_bk : (out (.waiteBk h0 (g 3) (g 2)) (stW .started)).th.gR 3 = 40#64 ∧
    (out (.waiteBk h0 (g 3) (g 2)) (stW .committed)).th.life = .waitUnseated := by decide +kernel
theorem witness_TrapAndReturn :
    Issues stH h0 ∧ stH.th.mode ≠ 0#2 ∧ NotTail stH ∧ AtAnchor stH ∧ stH.peekLine stH.th.leave (lineOf stH.th.epc) = some lineT ∧
    lineCause lineT (lineOf stH.th.epc) = none ∧ hdrStart lineT (slotOf stH.th.epc) = true ∧ hdrStart lineT (slotOf 12#64) = false ∧
    lineT >>> (32 * slotOf stH.th.epc) % 2 ^ 10 / 4 ≠ 0xB0 ∧ (∀ x ∈ stH.th.loops, x.sus = true → x.stop ≠ stH.th.epc) :=
  ⟨⟨rfl, rfl⟩, by decide +kernel, by unfold NotTail; decide +kernel, .inl rfl, by decide +kernel, by decide +kernel, by decide +kernel,
    by decide +kernel, by decide +kernel, by decide +kernel⟩
theorem witness_Waits_booking : (stW .committed).bookHere hBook = some (0, 0, book0) ∧ (stW .committed).bookHere 5#64 = none ∧
    Vacant (stW .committed) (g 3) ∧ ¬Vacant (stW .committed) (gq 1) ∧ Vacant (stW .committed) (gq 0x90) ∧
    expandLine stT.th 120#64 stT = .ok ((), stT) := by
  refine ⟨by decide +kernel, by decide +kernel, fun h => absurd h (by decide), fun h => ?_,
    fun _ => ⟨fun h => absurd h (by decide), fun _ _ => by decide +kernel⟩, rfl⟩
  exact absurd ((h rfl).1 (by decide)) (by decide +kernel)
theorem test_trap : causeOf (out (.trap h0 15#4 0xFFFF#16) stT) = 0xFF ∧ (out (.trap h0 15#4 0xFFFF#16) stT).th.tval = 0xFFFF#64 := by
  decide +kernel
theorem test_eret : (out (.eret h0) stH).th.pc = 16#64 ∧ (out (.eret h0) stH).th.status = 0x204#12 ∧
    (out (.eret h0) stH).th.loops = [⟨8#64, 120#64, 2#64, false⟩] := by decide +kernel
theorem test_eret_next : (out (.eretNext h0) stH).th.pc = 120#64 ∧ (out (.eretNext h0) stH).th.ie = true := by decide +kernel
theorem witness_HandedOff : stQ.th.gFull 1 = true ∧ stQ.th.gFull 2 = false ∧ (stQ.thr id0).life ≠ .exited ∧
    (stQ.thr id0).life ≠ .swappedOut ∧ (stQ.threads.look id0.toNat).isSome = true := by decide +kernel
theorem test_status_answer : ((out (.statusAnswer id0 (g 2) 5#64) { stQ with threads := [(0x10000, { thrQ with outSt := 1 })] }).thr id0).gR 2 = 5#64 ∧
    ((out (.statusAnswer id0 (g 2) 5#64) { stQ with threads := [(0x10000, { thrQ with outSt := 1 })] }).thr id0).outSt = 0 := by decide +kernel

def stR (loops : List LoopLvl) : State :=
  world { thrT (thread [(1, 1#64), (2, 0x10000#64), (4, 9#64)]) with roaming := true, loops := loops } coreT
theorem witness_Messaging :
    (∃ u, Issues stT h0 ∧ FieldsOk stT [(.ws, g 3), (.rs, g 1), (.rs, g 2)] ∧ readAll [g 1, g 2] stT = .ok ([16#64, 3#64], u)) ∧
    (16#64 ≠ stT.cur.zeroExtend 64 ∧ 0x10000#64 = stT.cur.zeroExtend 64) ∧ (∃ u, handOut (g 3) stT = .ok ((), u)) ∧
    AtAnchor stMail ∧ FieldsOk stMail [(.ws, g 3), (.pred, g 15)] ∧ stT.th.mailbox = [] ∧ stMail.th.mailbox = 7#64 :: [8#64] ∧
    (∃ u, writeS (g 3) 7#64 stMail = .ok ((), u)) ∧ FieldsOk stT [(.ws, g 3), (.swp, g 0x90), (.rs, g 1)] ∧
    FieldsOk stT [(.ws, g 3), (.swp, g 0xCF), (.rs, g 1)] ∧
    ((stR []).th.roaming = true ∧ (stR []).inPart 0 1 = some 1 ∧ (stR []).inPart 0 0 = some 0 ∧ (stR []).inPart 0 2 = none) ∧
    (stR [⟨8#64, 16#64, 3#64, false⟩]).th.loops ≠ [] ∧ (∃ u, handOff (g 3) (stR []) = .ok ((), u)) := by
  refine ⟨⟨_, ⟨rfl, rfl⟩, by unfold FieldsOk; decide +kernel, rfl⟩, by decide +kernel, ⟨_, rfl⟩, .inl rfl, by unfold FieldsOk; decide +kernel,
    rfl, rfl, ⟨_, rfl⟩, by unfold FieldsOk; decide +kernel, by unfold FieldsOk; decide +kernel, by decide +kernel, by decide +kernel, ⟨_, rfl⟩⟩
theorem test_send : (out (.send h0 (g 3) (g 1) (g 2)) stT).agenda.map (·.ev) = [.mailboxDelivery id0 (g 3) 16#64 3#64] ∧
    (out (.send h0 (g 3) (g 1) (g 2)) stT).th.gFull 3 = false := by decide +kernel
theorem test_signal : (out (.signal h0 (g 3) (g 1) (g 2)) stT).agenda.map (·.ev) = [.signalDelivery id0 (g 3) 16#64 3#64] := by decide +kernel
theorem test_kill : (out (.kill h0 (g 3) (g 2)) (stR [])).th.life = .exited ∧
    (out (.kill h0 (g 3) (g 1)) (stR [])).agenda.map (·.ev) = [.killRequest id0 (g 3) 1#64] := by decide +kernel
theorem test_publish : (out (.publish h0 (g 3)) stT).agenda.map (·.ev) = [.publishApply id0 (g 3)] := by decide +kernel
theorem test_bar_a : (out (.barArr h0 (g 3) 15#4) stT).agenda.map (·.ev) = [.barrierArrival id0 15#4 (g 3) false] := by decide +kernel
theorem test_recv : (out (.recv h0 (g 3)) stMail).th.gR 3 = 7#64 ∧ (out (.recv h0 (g 3)) stMail).th.mailbox = [8#64] := by decide +kernel
theorem test_recv_try : (out (.recvTry h0 (g 3) (g 2)) stMail).th.p 2 = true ∧ (out (.recvTry h0 (g 3) (g 2)) stT).th.p 2 = false := by decide +kernel
theorem test_swap : (out (.swap h0 (g 3) (g 0x90) (g 1)) stQ).th.gR 3 = 7#64 ∧
    (((out (.swap h0 (g 3) (g 0x90) (g 1)) stQ).core 0).sreg 0).value = 9#64 := by decide +kernel
/-- R260: with d the shared register itself the value of b ends in it. -/
theorem test_swap_self : (((out (.swap h0 (g 0x90) (g 0x90) (g 1)) stQ).core 0).sreg 0).value = 9#64 := by decide +kernel
theorem test_migr : (out (.migr h0 (g 3) (g 1)) (stR [])).th.life = .migrating ∧ (out (.migr h0 (g 3) (g 4)) (stR [])).th.gR 3 = 2#64 := by
  decide +kernel

/-! ### Pages, buffers, tasks, barriers, queues -/

/-- The near page of g4 and an address without a page; a far pool of one frame. -/
def stP : State := { stM 0 with farPool := [7] }
theorem witness_PageRequests :
    FieldsOk stP [(.ws, g 3), (.rs, g 4)] ∧ (∃ u v, readS (g 4) stP = .ok (0x10040#64, u) ∧ handOut (g 3) u = .ok ((), v)) ∧
    canonical 0x10040#64 = true ∧ canonical 0x800000000000#64 = false ∧ ((stP.walkRead 0 0 0x12040).walk 0 0 0x12040).1.toOption = none ∧
    ((stP.walkRead 0 0 0x10040).walk 0 0 0x10040).1.toOption = some ⟨1, 0x5080, 0x10C3F⟩ ∧ pteBit 0x10C3F 63 = false ∧ (stP.th.user && !pteBit 0x10C3F 4) = false ∧
    pteBit 0x10C3F 1 = true ∧ pteBit 0x10C3F 6 = false ∧ pteBit 0x10C3F 7 = false ∧ stP.farPool = 7 :: [] := by
  refine ⟨by unfold FieldsOk; decide +kernel, ⟨_, _, rfl, rfl⟩, by decide +kernel⟩
/-- A far page with a near frame to take, with none, with a move in progress. -/
def pgFar : PageOp := ⟨0, 0x10000#64, 0x5080, 0, false, 0x400000010, some 0x30, [], [], false, []⟩
def stJoin : State := { stFar (farLeaf + 128) [] with pages := [(9, pgFar)] }
theorem witness_PageRequests_far :
    ((stFar farLeaf [0x30]).th.user && !pteBit farLeaf 4) = false ∧ pteBit farLeaf 63 = false ∧ pteBit farLeaf 1 = true ∧
    ((stFar farLeaf [0x30]).core 0).frames = 0x30 :: [] ∧ ((stFar farLeaf []).core 0).frames = [] ∧ (stFar farLeaf []).pages = [] ∧
    (∃ u v, readS (g 4) (stFar farLeaf [0x30]) = .ok (0x10040#64, u) ∧ handOut (g 3) u = .ok ((), v)) ∧
    pteBit (farLeaf + 128) 7 = true ∧ stJoin.pageOf 0x5080 = some (9, pgFar) := by
  refine ⟨by decide +kernel, by decide +kernel, by decide +kernel, by decide +kernel, by decide +kernel, by decide +kernel, ⟨_, _, rfl, rfl⟩,
    by decide +kernel⟩
theorem test_pgmig_near_far : (out (.pgmigNear h0 (g 3) (g 4)) (stFar farLeaf [0x30])).agenda.map (·.ev) = [.migrationComplete 8] ∧
    (out (.pgmigNear h0 (g 3) (g 4)) stJoin).pages.map (·.2.askers) = [[(id0, g 3, false)]] := by decide +kernel
def kernelMode (s : State) : State := s.modTh fun t => { t with status := 5#12 }
theorem test_pgmig_near : (out (.pgmigNear h0 (g 3) (g 4)) stP).agenda.map (·.ev) = [.statusAnswer id0 (g 3) 0#64] := by decide +kernel
theorem test_pgmig_far : (out (.pgmigFar h0 (g 3) (g 4)) (kernelMode stP)).pages.map (fun e => (e.2.evict, e.2.frame)) = [(true, some 7)] ∧
    causeOf (out (.pgmigFar h0 (g 3) (g 4)) stP) = 0x07 := by decide +kernel
/-- A buffer of four entries of a line at 0x100, two of them filled, the head at 1. -/
def stB : State := world (thread [(1, 0x200#64)]) { core0 with cb := [(2, ⟨0x100, 64, 4, 1, 3, 2, 1, 1⟩)] }
theorem witness_CircularBuffers :
    (∃ u, Issues stB h0 ∧ FieldsOk stB [(.buf, g 15), (.rs, g 1)] ∧ readS (g 1) stB = .ok (0x200#64, u)) ∧
    (0x200#64).toNat + 64 * (1#11).toNat * 2 ^ (8#4).toNat ≤ 0x100000 ∧ stB.copies = [] ∧ FieldsOk stB [(.ws, g 3), (.buf, g 2)] ∧
    0 < ((stB.core 0).cbuf 2).filled ∧ ((stB.core 0).cbuf 3).filled = 0 ∧ 0 < ((stB.core 0).cbuf 2).out ∧ ((stB.core 0).cbuf 3).out = 0 ∧
    (∃ u, writeS (g 3) 0x140#64 stB = .ok ((), u)) ∧ (∃ u, writeS (g 3) 0x100#64 stB = .ok ((), u)) := by
  refine ⟨⟨_, ⟨rfl, rfl⟩, by unfold FieldsOk; decide +kernel, rfl⟩, by decide +kernel, rfl, by unfold FieldsOk; decide +kernel,
    by decide +kernel, by decide +kernel, by decide +kernel, by decide +kernel, ⟨_, rfl⟩, ⟨_, rfl⟩⟩
theorem test_cbset : ((out (.cbset h0 (g 15) (g 1) 1#11 8#4) stB).core 0).cbuf 15 = ⟨0x200, 64, 256, 0, 0, 0, 256, 0⟩ := by decide +kernel
theorem test_cbpop : (out (.cbpop h0 (g 3) (g 2)) stB).th.gR 3 = 0x140#64 ∧
    ((out (.cbpop h0 (g 3) (g 2)) stB).core 0).cbuf 2 = ⟨0x100, 64, 4, 2, 3, 1, 1, 2⟩ := by decide +kernel
theorem test_cbpush : (out (.cbpush h0 (g 3) (g 2)) stB).th.gR 3 = 0x100#64 ∧ causeOf (out (.cbpush h0 (g 3) (g 4)) stB) = 0x87 := by decide +kernel
/-- g1 names the record at 0x80 of logical core 1, g2 none. -/
def stK : State := world (thread [(1, 0x100000080#64), (2, 0x100000081#64), (4, 0#64), (5, 0x20#64), (6, 0x40#64)]) coreM
theorem witness_TasksBarriersQueues :
    (∃ u, Issues stK h0 ∧ FieldsOk stK [(.rs, g 1), (.rs, g 2)] ∧ readAll [g 1, g 2] stK = .ok ([0x100000080#64, 0x100000081#64], u)) ∧
    ((0x100000080#64).toNat = 1 * 2 ^ 32 + 0x80 ∧ 0x80 % 128 = 0 ∧ (stK.inPart 0 1).isSome = true) ∧
    (∃ u, readS (g 2) stK = .ok (0x100000081#64, u)) ∧ ¬0x81 % 128 = 0 ∧
    (∃ u v, FieldsOk stK [(.ws, g 3), (.rs, g 4)] ∧ readS (g 4) stK = .ok (0#64, u) ∧ writeS (g 3) 5#64 u = .ok ((), v)) ∧
    (∃ u, FieldsOk stK [(.ws, g 3), (.rs, g 5), (.rs, g 6)] ∧ readAll [g 5, g 6] stK = .ok ([0x20#64, 0x40#64], u)) ∧
    SpOk stK 0x20#64 32 32 false ∧ SpOk stK 0x40#64 64 64 false := by
  refine ⟨⟨_, ⟨rfl, rfl⟩, by unfold FieldsOk; decide +kernel, rfl⟩, by decide +kernel, ⟨_, rfl⟩, by decide,
    ⟨_, _, by unfold FieldsOk; decide +kernel, rfl, rfl⟩, ⟨_, by unfold FieldsOk; decide +kernel, rfl⟩, spOk _ _ _ _ _ (by decide +kernel),
    spOk _ _ _ _ _ (by decide +kernel)⟩
theorem test_tenq : (out (.tenq h0 (g 1)) stK).agenda.map (·.ev) = [.taskMessage id0 0x100000080#64 .tenq] ∧
    causeOf (out (.tenq h0 (g 2)) stK) = 0xA1 := by decide +kernel
theorem test_tdec : (out (.tdec h0 (g 1)) stK).agenda.map (·.ev) = [.taskMessage id0 0x100000080#64 .tdec] := by decide +kernel
theorem test_tset : (out (.tset h0 (g 1) (g 5)) stK).agenda.map (·.ev) = [.taskMessage id0 0x100000080#64 (.tset 0x20#32)] ∧
    (out (.tset h0 (g 1) (g 5)) stK).th.outSt = 1 := by decide +kernel
theorem test_bar_aw : (out (.barAw h0 (g 3) 2#4) stK).agenda.map (·.ev) = [.contextSaveDone 0, .barrierArrival id0 2#4 (g 3) true] ∧
    (out (.barAw h0 (g 3) 2#4) stK).th.wait = .arrival 2#4 := by decide +kernel
theorem test_bar_wait : (out (.barWait h0 (g 3) (g 4) 2#4) { stK with barriers := [(2, ⟨none, [], [], 5#32, []⟩)] }).th.gR 3 = 5#64 ∧
    (out (.barWait h0 (g 3) (g 4) 2#4) stK).th.wait = .barrier 2#4 0#32 false (g 3) := by decide +kernel
theorem test_qput : (out (.qput h0 (g 3) (g 5) (g 6)) stK).th.wait = .qput (g 3) ∧
    (out (.qput h0 (g 3) (g 5) (g 6)) stK).agenda.map (·.ev) = [.contextSaveDone 0, .qputRequest id0 (g 3) 0x20#64 0#256 0x0807060504030201#512] := by
  decide +kernel

/-! ### Dual, bounds, tangents, control registers -/

def stD : State := world { thrT (thread [(1, 0x500#64)]) with
  k := 2, status := 0x4C#12, gt := [(1, 3#64), (129, 4#64)], vb := [(1, 0x10#32)], vt := [(1, 5#512)], vtb := [(1, 0x20#32)], v := [(1, 9#512)] } coreT
theorem witness_DualBoundsTangents :
    (stT.th.k = 0 ∧ stD.th.k ≠ 0) ∧ (2 ^ stD.th.k ≤ (4#4).toNat ∧ (3#4).toNat < 2 ^ stD.th.k) ∧ NotTail stD ∧
    ¬NotTail (world { thrT (thread []) with k := 1, loops := [⟨8#64, 8#64, 1#64, false⟩] } coreT) ∧
    (Issues stD h0 ∧ stD.th.regErr = [] ∧ (2#3).toNat ≤ stD.th.k ∧ FieldsOk stD [(.ws, g 3), (.vec, g 31)] ∧
      FieldsOk stD [(.vec, g 31), (.rs, g 1)] ∧ FieldsOk stD [(.ws, g 3), (.gOnly, g 127)] ∧ FieldsOk stD [(.vec, g 31), (.vec, g 0)] ∧
      FieldsOk stD [(.gOnly, g 127), (.rs, g 1)] ∧ stD.th.gFull 127 = true) ∧
    (∃ u, readS (g 1) stD = .ok (0x500#64, u)) ∧ (∃ u, writeS (g 3) 0x20#64 stD = .ok ((), u)) := by
  refine ⟨by decide +kernel, by decide +kernel, by unfold NotTail; decide +kernel, by unfold NotTail; decide +kernel,
    ⟨⟨rfl, rfl⟩, rfl, by decide +kernel, by unfold FieldsOk; decide +kernel, by unfold FieldsOk; decide +kernel, by unfold FieldsOk; decide +kernel,
      by unfold FieldsOk; decide +kernel, by unfold FieldsOk; decide +kernel, by decide +kernel⟩, ⟨_, rfl⟩, ⟨_, rfl⟩⟩
theorem test_dual : (out (.dual 2#4) stD).th.sel = [1] ∧ causeOf (out (.dual 4#4) stD) = 0x06 := by decide +kernel
theorem test_bndr : (out (.bndr h0 (g 3) (g 1) 0#3) stD).th.gR 3 = 0x10#64 ∧ (out (.bndr h0 (g 3) (g 1) 1#3) stD).th.gR 3 = 0x20#64 := by decide +kernel
theorem test_bndw : (out (.bndw h0 (g 1) (g 1) 0#3 true) stD).th.vB 1 = 0x500#32 ∧ (out (.bndw h0 (g 1) (g 0) 0#3 true) stD).th.vB 1 = 0x10#32 := by
  decide +kernel
theorem test_tanr : (out (.tanr h0 (g 3) (g 1) 2#3 false) stD).th.gR 3 = 4#64 ∧ (out (.tanr h0 (g 3) (g 1) 1#3 true) stD).th.vR 3 = 5#512 := by
  decide +kernel
theorem test_tanw : (out (.tanw h0 (g 1) (g 1) 1#3 false) stD).th.gT 0 1 = 0x500#64 ∧ (out (.tanw h0 (g 1) (g 1) 2#3 true) stD).th.vT 1 1 = 9#512 := by
  decide +kernel
/-- A roaming thread on its own core and away from it. -/
def stRoam (c : Nat) : State := world { thrT (thread [(1, 16#64)]) with roaming := true, core := c } coreT
theorem witness_ControlRegisters :
    csrAssigned 0x000#12 = true ∧ csrAssigned 0x032#12 = true ∧ csrClosed stT 0x016#12 = false ∧ csrClosed stH 0x000#12 = false ∧
    csrClosed stH 0x014#12 = false ∧ Issues stH h0 ∧ AtAnchor stH ∧ ¬AtAnchor (stRoam 1) ∧
    (∃ u, FieldsOk stH [(.ws, g 3)] ∧ writeS (g 3) (csrValue stH 3) stH = .ok ((), u)) ∧
    (∃ u v, FieldsOk stH [(.ws, g 0x80), (.rs, g 1)] ∧ readS (g 1) stH = .ok (16#64, u) ∧ writeS (g 0x80) (csrValue u 0) u = .ok ((), v)) ∧
    (csrNew (.csrw h0 (g 3) (g 1) 0x000#12) 0x201#64 6#64).toNat % 4 = 2 ∧ (csrNew (.csrw h0 (g 3) (g 1) 0x000#12) 0x201#64 0x305#64).toNat % 4 ≠ 2 ∧
    ¬(stH.th.mode = 2#2 ∧ stH.isGable stH.th.core = true) := by
  refine ⟨by decide, by decide, by decide +kernel, by decide +kernel, by decide +kernel, ⟨rfl, rfl⟩, .inl rfl, by unfold AtAnchor; decide +kernel,
    ⟨_, by unfold FieldsOk; decide +kernel, rfl⟩, ⟨_, _, by unfold FieldsOk; decide +kernel, rfl, rfl⟩, by decide +kernel, by decide +kernel, by decide +kernel⟩
/-- What is kept of a write: status without its read-only bits, with a mode of 0b11 discarded; a malformed qlink; a reserved bit. -/
theorem test_csr_kept : csrKept 0 0x201#64 0xFFF#64 = 0x305#64 ∧ csrKept 0x016 0#64 0x44#64 = 0x44#64 ∧ csrKept 0x016 5#64 0x55#64 = 0#64 ∧
    csrKept 0x015 0#64 7#64 = 3#64 := by decide +kernel
theorem test_csr_status : (out (.csrw h0 (g 3) (g 1) 0x000#12) stH).th.status = 0#12 ∧ (out (.csrw h0 (g 3) (g 1) 0x000#12) stH).th.gR 3 = 0x201#64 := by
  decide +kernel
theorem test_csrr : (out (.csrr h0 (g 3) 0x020#12) stT).th.gR 3 = 0x10000#64 ∧ (out (.csrr h0 (g 3) 0x003#12) stH).th.gR 3 = 16#64 := by decide +kernel
theorem test_csrw : (out (.csrw h0 (g 3) (g 1) 0x012#12) stD).th.tstride = 0x500#64 ∧ causeOf (out (.csrw h0 (g 3) (g 1) 0x003#12) stT) = 0x07 := by
  decide +kernel
theorem test_csrs : (out (.csrs h0 (g 3) (g 1) 0x010#12) stD).th.fpctl = 0x500#13 := by decide +kernel
theorem test_csrc : (out (.csrc h0 (g 3) (g 1) 0x003#12) stH).th.epc = 0#64 ∧ (out (.csrc h0 (g 3) (g 1) 0x003#12) stH).th.gR 3 = 16#64 := by decide +kernel
/-- Kernel mode, with a translation of the page and one of the next kept by the core. -/
def stTlb : State := world { thread [(1, 0x10040#64)] with status := 5#12 } { core0 with
  tlb := [⟨0, 0x10, 1, 0x10, true, true, true, true, true⟩, ⟨0, 0x11, 1, 0x11, true, true, true, true, true⟩]
  walk := [⟨0, 2, 0x10040 / 2 ^ levelBits 2, 0x5000⟩, ⟨0, 2, 1 + 0x10040 / 2 ^ levelBits 2, 0x6000⟩] }
def stGable (t : Thread) : State := { world { t with status := 6#12 } core0 with gable := [0] }
theorem witness_ManagerInstructions :
    (∃ u, Issues stTlb h0 ∧ stTlb.th.mode ≠ 0#2 ∧ FieldsOk stTlb [(.ws, g 3), (.rs, g 1)] ∧ readS (g 1) stTlb = .ok (0x10040#64, u) ∧
      u.pendOf stTlb.cur = [] ∧ stTlb.partCores stTlb.th.part ≠ []) ∧
    (∃ u v, (stGable (thread [])).th.mode = 2#2 ∧ (stGable (thread [])).isGable 0 = true ∧ FieldsOk (stGable (thread [])) [(.ws, g 3), (.rs, g 1)] ∧
      readS (g 1) (stGable (thread [])) = .ok (0#64, u) ∧ handOut (g 3) u = .ok ((), v)) ∧
    ((stGable (thread [])).holdAt = none ∧ (stGable (thread [])).holdAsk = none ∧ (stGable (thread [])).switching = false) ∧
    ({ stGable (thread []) with holdAt := some 20 } : State).holdAt = some 20 ∧
    (stTlb.th.ie = true ∧ stTlb.th.mailbox = [] ∧ stTlb.th.ev &&& 0x7FFFFFFFFFFFFFFF#64 = 0#64 ∧ stH.th.ie = false) := by
  refine ⟨⟨_, ⟨rfl, rfl⟩, by decide +kernel, by unfold FieldsOk; decide +kernel, rfl, rfl, by decide +kernel⟩,
    ⟨_, _, rfl, rfl, by unfold FieldsOk; decide +kernel, rfl, rfl⟩, by decide +kernel, rfl, by decide +kernel⟩
theorem test_tlbi_walk : ((out (.tlbiLva h0 (g 3) (g 1)) stTlb).core 0).walk.map (·.table) = [0x6000] ∧
    ((out (.tlbiLall h0 (g 3) (g 0)) stTlb).core 0).walk.map (·.table) = [] ∧ (out (.tlbiLva h0 (g 3) (g 1)) stTlb).th.gR 3 = 0#64 := by decide +kernel
theorem test_tlbi_lall : ((out (.tlbiLall h0 (g 3) (g 0)) stTlb).core 0).tlb.map (·.vpn) = [] := by decide +kernel
theorem test_tlbi_lva : ((out (.tlbiLva h0 (g 3) (g 1)) stTlb).core 0).tlb.map (·.vpn) = [0x11] ∧
    ((out (.tlbiLva h0 (g 3) (g 0)) stTlb).core 0).tlb.map (·.vpn) = [0x10, 0x11] := by decide +kernel
theorem test_tlbi_va : (out (.tlbiVa h0 (g 3) (g 1)) stTlb).invals.map (·.2.waiting) = [[0, 1]] := by decide +kernel
theorem test_tlbi_all : (out (.tlbiAll h0 (g 3) (g 0)) stTlb).th.gFull 3 = false ∧ causeOf (out (.tlbiAll h0 (g 3) (g 0)) stT) = 0x07 := by decide +kernel
theorem test_hold : (out (.hold h0 (g 3) (g 1)) (stGable (thread []))).holdAt = some 16 ∧ causeOf (out (.hold h0 (g 3) (g 1)) stTlb) = 0x07 := by
  decide +kernel
theorem test_halt : (out (.halt h0) stTlb).th.wait = .halt ∧ (out (.halt h0) stH).th.pc = 16#64 := by decide +kernel

/-! ### Threads created, saved and restored; engines -/

/-- A creation record at 0x80: 8 registers, entry 120 above the instruction; the image at 0. -/
def stS : State := world (thrT (thread [(1, m1), (2, 0x80#64), (4, 9#64)])) { coreT with
  sp := bytesAt (bytesAt [] 0 eight) 0x80 (leBytes 8 (8 * 2 ^ 40)) }
theorem witness_SpawnIssue :
    (∃ u, Issues stS h0 ∧ FieldsOk stS [(.ws, g 3), (.rs, g 1), (.rs, g 2)] ∧ readAll [g 1, g 2] stS = .ok ([m1, 0x80#64], u) ∧
      u.pendOf stS.cur = []) ∧ SpOk stS 0x80#64 128 128 false ∧
    (valueAt stS (.sp 0) 0x80 8 = 8 * 2 ^ 40 ∧ (8 * 2 ^ 40).testBit 48 = false ∧ shapeOk false 8 0 0 false = true ∧ shapeOk false 12 0 0 false = false) ∧
    (stS.inPart 0 1 = some 1 ∧ stS.inPart 0 9 = none) ∧ (∃ u, writeS (g 3) 3#64 stS = .ok ((), u)) ∧ (∃ u, handOut (g 3) stS = .ok ((), u)) := by
  refine ⟨⟨_, ⟨rfl, rfl⟩, by unfold FieldsOk; decide +kernel, rfl, rfl⟩, spOk _ _ _ _ _ (by decide +kernel), by decide +kernel,
    by decide +kernel, ⟨_, rfl⟩, ⟨_, rfl⟩⟩
/-- The same with a sheet of one entry at 0x1000. -/
def stSv : State := { stS with cores := [(0, { coreT with
  sp := bytesAt (bytesAt (bytesAt [] 0 eight) 0x80 (leBytes 8 (8 * 2 ^ 40 + 2 ^ 48) ++ leBytes 24 0 ++ leBytes 8 0x1000)) 0x1010 (leBytes 8 1) }), (1, core1)] }
theorem witness_SpawnIssue_sheet :
    (valueAt stSv (.sp 0) 0x80 8).testBit 48 = true ∧ valueAt stSv (.sp 0) 0xA0 8 = 0x1000 ∧ valueAt stSv (.sp 0) 0x1010 8 % 32 = 1 ∧
    SpOk stSv 0x80#64 128 128 false ∧ ∃ u, readAll [g 1, g 2] stSv = .ok ([m1, 0x80#64], u) :=
  ⟨by decide +kernel, by decide +kernel, by decide +kernel, spOk _ _ _ _ _ (by decide +kernel), _, rfl⟩
theorem test_spawn_sheet : (out (.spawn h0 (g 3) (g 1) (g 2) 120#32) stSv).agenda.map (fun p => match p.ev with
    | .spawnRequest r => r.sheet | _ => none) = [some [0#64, 0#64, 1#64, 0#64, 0#64]] := by decide +kernel
theorem test_spawn : (out (.spawn h0 (g 3) (g 1) (g 2) 120#32) stS).agenda.map (·.ev) =
      [.spawnRequest ⟨0, id0, g 3, 0x80000000000#64, 128#64, 0x80000000000#64 :: List.replicate 8 0#64,
        0x0807060504030201#64 :: List.replicate 7 0#64, none⟩] ∧
    (out (.spawn h0 (g 3) (g 4) (g 2) 120#32) stS).th.gR 3 = 3#64 := by decide +kernel

/-- A second thread of core 0, ready, with 8 registers. -/
def id1 : Word32 := 0x20001#32
def thr1 : Thread := { Thread.blank with thid := id1, life := .ready, g := [(5, 0x55#64)], pc := 0x80#64, pcMode := .start }
def stC : State := { world { thread [(1, 0x20001#64), (2, 0x4000#64)] with status := 5#12 } { core0 with resv := [(0, id0), (1, id1)], run := [id1] } with
  threads := [(0x10000, { thread [(1, 0x20001#64), (2, 0x4000#64)] with status := 5#12 }), (0x20001, thr1)] }
def stSaved : State := out (.ctxsv h0 (g 3) (g 1) (g 2) false 64#16) stC
def imgOf (s : State) : List Byte := (s.thr id1).image 1 0 (((s.squashAll id1).saveBooks id1 s.tick.toNat).records id1)
/-- The image at va is whole, its thread is out, and the core has room for it. -/
def loads (va : Word) (s : State) : Bool :=
  okAnd (getLines false 1 va) s fun first v => okAnd (getLines false ((natAt first 12 4 + 63) / 64) va) v fun bs w =>
    (imageFault bs).isNone && decide (w.residents 0 < 64) && decide ((w.core 0).resv.look 1 = some id1) && (w.threads.look id1.toNat).isSome &&
      decide ((w.thr id1).life = .swappedOut)
/-- An image of purpose p of a thread whose number no thread holds, on the core of the one that restores it. -/
def stImg (p : Nat) : State := { stC with
  threads := [(0x10000, stC.th)], cores := [(0, { stC.core 0 with resv := [(0, id0)], run := [], sp := bytesAt [] 0x4000 (thr1.image p 0 []) }), (1, core1)] }
def foreign (p : Nat) : Bool :=
  okAnd (getLines false 1 0x4000#64) (stImg p) fun first v => okAnd (getLines false ((natAt first 12 4 + 63) / 64) 0x4000#64) v fun bs w =>
    (imageFault bs).isNone && decide (w.residents 0 < 64) && decide ((w.core 0).resv.look 1 = none) && decide (natAt bs 9 1 = p)
theorem witness_ContextImages :
    (∃ u, Issues stC h0 ∧ stC.th.mode ≠ 0#2 ∧ FieldsOk stC [(.ws, g 3), (.rs, g 1), (.rs, g 2)] ∧
      readOps [g 1, g 2] stC = .ok ([0x20001#64, 0x4000#64], u)) ∧
    ((stC.threads.look id1.toNat).isSome = true ∧ (stC.thr id1).core = stC.th.core ∧ id1 ≠ stC.cur ∧ (stC.thr id1).life = .ready ∧
      (stC.thr id1).wait.inFlight = false ∧ stC.drained id1 = true ∧ (imgOf stC).length ≤ 64 * 64 ∧ ¬(imgOf stC).length ≤ 64 * 0) ∧
    (∃ u v, putLines false 0x4000#64 (linesOf ((imgOf stC).length / 64 + 1) (imgOf stC)) (stC.modTh fun u => { u with saveFor := some id1 }) =
        .ok ((), u) ∧
      writeS (g 3) 5#64 (u.swapOut id1 1 0) = .ok ((), v) ∧ (u.core (u.thr id1).core).pending = [] ∧ (u.thr id1).life ≠ .exited) ∧
    (∃ u, readOps [g 2] stSaved = .ok ([0x4000#64], u) ∧ loads 0x4000#64 u = true) ∧ imageFault [] = some 0 :=
  ⟨⟨_, ⟨rfl, rfl⟩, by decide +kernel, by unfold FieldsOk; decide +kernel, ok_of (by decide +kernel)⟩, by decide +kernel,
    ⟨_, _, ok_of (by decide +kernel), ok_of (by decide +kernel), by decide +kernel, by decide +kernel⟩,
    ⟨_, ok_of (by decide +kernel), by decide +kernel⟩, by decide +kernel⟩
/-- The image of a thread that core 1 created. -/
def stImgFar : State := { stC with
  cores := [(0, { stC.core 0 with sp := bytesAt [] 0x4000 ({ thr1 with thid := 0x20041#32 }.image 1 0 []) }), (1, core1)] }
/-- A question of that thread's number on its way to core 1. -/
def stAsk : State := { stC with asks := [(planesMax, ⟨id0, g 3, 0, 0, []⟩)] }
theorem witness_ContextImages_far : okAnd (getLines false 1 0x4000#64) stImgFar (fun first v =>
      okAnd (getLines false ((natAt first 12 4 + 63) / 64) 0x4000#64) v fun bs w => (imageFault bs).isNone && decide (w.residents 0 < 64) &&
        decide (homeOf (imageThid bs) = 1) && decide (w.th.core = 0) && okAnd (handOut (g 3)) w fun _ _ => true) = true ∧
    stAsk.asks.look planesMax = some ⟨id0, g 3, 0, 0, []⟩ := by decide +kernel
theorem test_ctxld_far : (out (.ctxld h0 (g 3) (g 2) false) stImgFar).asks.map (·.2.src) = [id0] ∧
    (out (.homePortAccess id0 planesMax) stAsk).asks = [] := by decide +kernel
theorem witness_ContextImages_other : foreign 2 = true ∧
    ({ stC with threads := [(0x10000, stC.th), (0x20001, { thr1 with outHr := 1 })] } : State).drained id1 = false := by decide +kernel
theorem test_ctxsv : (stSaved.thr id1).life = .swappedOut ∧ stSaved.th.gR 3 = BitVec.ofNat 64 (imgOf stC).length := by decide +kernel
theorem test_ctxld : causeOf (out (.ctxld h0 (g 3) (g 2) false) stC) = 0xAC ∧ (out (.ctxld h0 (g 3) (g 2) false) (stImg 1)).th.gR 3 = 3#64 := by decide +kernel

/-- Slate 0 for the partition, a loaded batten of one row of E4M3, bank 0 of that format. -/
def bat0 : Batten := ⟨1#16, id0, 0, 1, .e4, 1, 0#2, 0, 0#32, [], [], 0, 0, 0#8⟩
def hBat : Word := batHandle 0 bat0
def stE (regs : List (Nat × Word)) (bats : Tbl Batten) : State :=
  { world (thread ([(1, 0x40#64), (2, 0x1000#64), (4, 0x40#64), (5, hBat), (6, 0x10000#64), (7, 0x41#64)] ++ regs)) { coreM with fmt := [(0, 3#64)] } with
    parts := [(0, { part0 with desc := { part0.desc with slates := 1#64 } })], battens := bats }
def cp0 : CopyEng := ⟨0#3, 0#3, 0#4, 0#4, .dyn, 1#3, 0#4, 0#3, false, 0#4, 0#2⟩
def hr0 : HireEng := ⟨0x4000#17, 0#14, false, 0#4, false, 0#4, 0#2, .dyn, 2#3, .sl, 0#7⟩
def mc0 : McastEng := ⟨0#11, 2#11, 1#3⟩
def bt0 : BatEng := ⟨0#15, 3#4, 0#2, 0#3, false, 1#3⟩
theorem witness_Copies :
    (∃ hd u, (stE [] []).beginCopy { CopyOp.blank (stE [] []).th .copy with count := 64 } 0 (some 0) = (hd, u)) ∧ (stE [] []).copies.look (stE [] []).nextOp = none ∧
    (∃ u, Issues (stE [] []) h0 ∧ FieldsOk (stE [] []) [(.ws, g 3), (.rs, g 1), (.rs, g 2), (.rs, g 4)] ∧
      readAll [g 1, g 2, g 4] (stE [] []) = .ok ([0x40#64, 0x1000#64, 0x40#64], u) ∧ u.copyIndex u.cur = some 0 ∧ u.freeSlot 0 = some 0 ∧
      u.pendOf u.cur = []) ∧
    pairBad false cp0 (some .e4) (some .e4) = none ∧ (0x41#64).toNat % 64 ≠ 0 ∧ 64 * 8 % 512 = 0 ∧ 63 * 8 % 512 ≠ 0 ∧
    (0x40 < 0x40 + 64 ∧ 0x40 < 0x40 + 64) ∧ ({ thread [] with pre := true } : Thread).pre = true := by
  refine ⟨⟨_, _, rfl⟩, rfl, ⟨_, ⟨rfl, rfl⟩, by unfold FieldsOk; decide +kernel, rfl, by decide +kernel, by decide +kernel, by decide +kernel⟩,
    by decide +kernel⟩
/-- A copy under the slot entry of a booking; from the host window; into a circular buffer. -/
def bkC : Booking := { book0 with state := .committed, sheet := ⟨0, 0, 0#2, 0, 0, false, 0#2, [⟨5#4, 0, 0, 4, 0⟩], false⟩, ivals := [⟨.slot 0 3, 40, 43, 0⟩] }
def stCb : State := { stE [(3, hBook)] [] with books0 := [(0, bkC)] }
def stHost : State := stE [(8, 0x1040#64)] []
def stCbuf : State := { stE [] [] with cores := [(0, { coreM with fmt := [(0, 3#64)], cb := [(2, ⟨0x1000, 64, 4, 0, 0, 0, 4, 0⟩)] }), (1, core1)] }
theorem witness_CopyRuns :
    (∃ u, readAll [g 3, g 1, g 2, g 4] stCb = .ok ([hBook, 0x40#64, 0x1000#64, 0x40#64], u)) ∧ stCb.bookOf hBook = some (0, 0, bkC) ∧
    (bkC.state ≠ .pending ∧ bkC.state ≠ .saved ∧ stCb.tick.toNat ≤ 43 ∧ 40 + (1 + 15) / 16 - 1 ≤ 43) ∧ stCb.copyIndex id0 = some 0 ∧
    stCb.endpoint 0#3 0x40#64 0 = some ⟨0#3, 0, 0x40, 0⟩ ∧ stCb.endpoint 0#3 0x1000#64 0 = some ⟨0#3, 0, 0x1000, 0⟩ ∧
    pairBad false { cp0 with bk := true } (some .e4) (some .e4) = none ∧ nameOverlap ⟨0#3, 0, 0x40, 0⟩ ⟨0#3, 0, 0x1000, 0⟩ 64 64 = none ∧
    ((stHost.endpoint 3#3 0x1040#64 0).isSome = true ∧ stHost.part stHost.th.part = some { part0 with desc := { part0.desc with slates := 1#64 } } ∧
      0x1040 + 64 ≤ part0.desc.hostLen.toNat) ∧
    ((stCbuf.endpoint 5#3 0#64 0).isSome = true ∧ 64 ≤ ((stCbuf.core 0).cbuf 2).size) :=
  ⟨⟨_, rfl⟩, by decide +kernel⟩
theorem test_copy_kinds : (out (.copy h0 (g 3) (g 1) (g 2) (g 4) { cp0 with bk := true }) stCb).copies.map (fun e => (e.2.booked, e.2.slot)) = [(some (hBook, 0), none)] ∧
    (out (.copy h0 (g 3) (g 8) (g 2) (g 4) { cp0 with ssp := 3#3, sfmt := 3#4 }) stHost).copies.map (fun e => (e.2.src.addr, e.2.viaHost)) = [(0x1040, true)] ∧
    (out (.copy h0 (g 3) (g 1) (g 2) (g 4) { cp0 with dsp := 5#3, cbn := 2#4 }) stCbuf).copies.map (·.2.cb) = [some 2] := by decide +kernel
theorem test_copy : (out (.copy h0 (g 3) (g 1) (g 2) (g 4) cp0) (stE [] [])).th.gR 3 = 0x1000000010000#64 ∧
    causeOf (out (.copy h0 (g 3) (g 7) (g 2) (g 4) cp0) (stE [] [])) = 0x48 := by decide +kernel
/-- Banks of FP32: 16 elements to the line. -/
def stF32 : State := { stE [(4, 16#64)] [] with cores := [(0, { coreM with fmt := [(0, 1#64)] }), (1, core1)], threads :=
  [(0x10000, thread [(1, 0x40#64), (2, 0x1000#64), (4, 16#64)])] }
theorem test_copyr : (out (.copyr h0 (g 3) (g 1) (g 2) (g 4) cp0) stF32).copies.map (·.2.kind) = [.copyr] ∧
    causeOf (out (.copyr h0 (g 3) (g 1) (g 1) (g 4) cp0) stF32) = 0x83 := by decide +kernel
theorem witness_BattensAndMulticast :
    (stE [] []).interval 0 0 2 = some [0, 1] ∧ (spLines 0x40 0x40 ∧ spLines 0xFFFC0 0x40) ∧ arrRidge 0 = ridgeOf 0 ∧
    (stE [] []).arrHalf 0 0 = some 0 ∧ (stE [] []).battens.look 0 = none ∧ ((stE [] []).core 0).banksHold .e4 0x40 128 = true ∧
    batSize .e4 1 128 0 0#2 ≤ 0x400000 ∧ (stE [] [(0, bat0)]).battenLive 0 hBat = some (0, bat0) ∧ (stE [] []).battenLive 0 hBat = none := by
  unfold spLines; decide +kernel
theorem test_mcast : (out (.mcast h0 (g 3) (g 1) (g 2) (g 4) mc0) (stE [] [])).copies.map (·.2.members) = [[0, 1]] ∧
    causeOf (out (.mcast h0 (g 3) (g 1) (g 1) (g 4) mc0) (stE [] [])) = 0x83 := by decide +kernel
theorem test_batld : (out (.batld h0 (g 3) (g 1) (g 8) bt0) (stE [] [])).th.gR 3 = hBat ∧
    causeOf (out (.batld h0 (g 3) (g 1) (g 8) bt0) (stE [] [(0, bat0)])) = 0x84 := by decide +kernel
theorem test_batfree : (out (.batfree h0 (g 5)) (stE [] [(0, bat0)])).battens.map (fun e => (e.2.gen, e.2.state)) = [(2#16, 3)] ∧
    causeOf (out (.batfree h0 (g 5)) (stE [] [])) = 0x84 := by decide +kernel
/-- A at 0x40, the tile in bank 1, the status word above it. -/
theorem witness_HireIssue :
    (∃ u, Issues (stE [] [(0, bat0)]) h0 ∧ FieldsOk (stE [] [(0, bat0)]) [(.rs, g 1), (.rs, g 5), (.rs, g 6)] ∧
      readAll [g 1, g 5, g 6] (stE [] [(0, bat0)]) = .ok ([0x40#64, hBat, 0x10000#64], u) ∧ u.pendOf id0 = []) ∧
    (stE [] [(0, bat0)]).battenLive 0 hBat = some (0, bat0) ∧ (hr0.kind ≠ .bk ∧ hr0.kind ≠ .at) ∧ bat0.state = 1 ∧ bat0.fmt ≠ .f4 ∧
    (spLines 0x40 128 ∧ ((stE [] []).core 0).banksHold .e4 0x40 128 = true) ∧
    (spLines 0x10000 0x10000 ∧ ((stE [] []).core 0).banksHold .raw 0x10000 0x10000 = true) ∧ (stE [] []).th.sel = [] ∧ (stE [] []).th.outHr < 16 ∧
    firstOverlap [(0x40, 128), (0x10000, 0x10000), (8 * hr0.sta.toNat, 8)] = none ∧ (stE [] []).copies.look (stE [] []).nextOp = none := by
  refine ⟨⟨_, ⟨rfl, rfl⟩, by unfold FieldsOk; decide +kernel, rfl, by decide +kernel⟩, ?_⟩
  unfold spLines; decide +kernel
theorem test_hire_fields : causeOf (out (.hire h0 (gq 0xD0) (g 1) (g 5) (g 6) { hr0 with kind := .bk }) (stE [] [(0, bat0)])) = 0x22 ∧
    causeOf (out (.hire h0 (gq 0xD0) (g 1) (g 5) (g 6) hr0) (stE [] [(0, bat0)])) = 0x23 := by decide +kernel
/-- A hire under the array entry of a booking, one of a named array, and one whose array is none of the partition's. -/
def bkE : Booking := { book0 with state := .committed, sheet := ⟨0, 0, 0#2, 0, 0, false, 0#2, [⟨1#4, 0, 0, 20, 17⟩], false⟩, ivals := [⟨.array 0 0, 40, 59, 0⟩] }
def stHb : State := { stE [(0, hBook)] [(0, bat0)] with books0 := [(0, bkE)] }
theorem witness_HireRuns :
    (∃ u, FieldsOk stHb [(.rs, g 0), (.rs, g 1), (.rs, g 5), (.rs, g 6)] ∧ readAll [g 0, g 1, g 5, g 6] stHb = .ok ([hBook, 0x40#64, hBat, 0x10000#64], u)) ∧
    stHb.bookOf hBook = some (0, 0, bkE) ∧ bookedArray bkE 0 = some 0 ∧
    (40 + windowTicks (halfCycles .e4) 1 0#2 0 (aBytes .e4 128 1) 256 - 1 ≤ 59 ∧ landTicks 0 (128 * 128 * 4) ≤ 17) ∧
    (tileShape 0 .e4).m = 128 ∧ (tileShape 0 .e4).n = 128 ∧ (tileShape 0 .e4).acc = .s ∧
    (arrRidge 0 = 0 ∧ stHb.arrHalf 0 0 = some 0 ∧ stHb.splitOff 0 0 = false ∧ shapeOf 0 0 = shapeOf (0 / 4) (0 % 4)) ∧
    stHb.arrHalf 0 5 = none := by
  refine ⟨⟨_, by unfold FieldsOk; decide +kernel, rfl⟩, by decide +kernel⟩
theorem test_hire_booked : (out (.hire h0 (g 0) (g 1) (g 5) (g 6) { hr0 with kind := .bk }) stHb).hires.map (fun e =>
      (e.2.state, e.2.start, e.2.wend, e.2.land)) = [(.placed, 40, 44, 60)] ∧
    causeOf (out (.hire h0 (gq 0) (g 1) (g 5) (g 6) { hr0 with kind := .bk }) stHb) = 0x23 := by decide +kernel
theorem test_hire_array : (out (.hire h0 (g 0) (g 1) (g 5) (g 6) { hr0 with kind := .at }) (stE [] [(0, bat0)])).hires.map (·.2.arr) = [0] ∧
    causeOf (out (.hire h0 (g 0) (g 1) (g 5) (g 6) { hr0 with kind := .at, arr := 5#7 }) (stE [] [(0, bat0)])) = 0x8A := by decide +kernel
theorem test_hire : (out (.hire h0 (g 0) (g 1) (g 5) (g 6) hr0) (stE [] [(0, bat0)])).hires.map (fun e => (e.2.rows, e.2.cols, e.2.K, e.2.state)) =
      [(128, 128, 1, .issued)] ∧ (out (.hire h0 (g 0) (g 1) (g 5) (g 6) hr0) (stE [] [(0, bat0)])).th.outHr = 1 ∧
    causeOf (out (.hire h0 (g 0) (g 1) (g 5) (g 6) hr0) (stE [] [])) = 0x84 := by decide +kernel
/-- A sheet of one slate for two ticks at 0x1000. -/
def stBk : State := { stE [] [] with
  cores := [(0, { coreM with sp := bytesAt [] 0x1000 (leBytes 64 (1 * 2 ^ 128 + (2 * 2 ^ 50 + 1 * 2 ^ 16) * 2 ^ 256)) }), (1, core1)] }
theorem witness_BookingsAndStatus :
    (∃ u sh, Issues stBk h0 ∧ FieldsOk stBk [(.ws, g 3), (.rs, g 2)] ∧ readS (g 2) stBk = .ok (0x1000#64, u) ∧ (∃ v, handOut (g 3) u = .ok ((), v)) ∧
      sheetAt 0x1000#64 u = .ok (sh, u)) ∧
    stBk.liveBooks id0 < 16 ∧ stBk.freeIndex 0 = some (0, 1#16) ∧
    (∃ k, (stW .committed).bookOf hBook = some (0, 0, k) ∧ k.live = true ∧ k.part = 0) ∧ (stW .committed).bookOf 5#64 = none ∧
    stBk.copies = [] ∧ (out (.copy h0 (g 3) (g 1) (g 2) (g 4) cp0) (stE [] [])).copies.map (·.2.handle) = [0x1000000010000#64] := by
  refine ⟨⟨_, sheetOf ((List.range 5).map fun i => BitVec.ofNat 64 ((stBk.core 0).spNat (0x1000 + 8 * i) 8)), ⟨rfl, rfl⟩,
    by unfold FieldsOk; decide +kernel, rfl, ⟨_, rfl⟩, rfl⟩, by decide +kernel, by decide +kernel, ⟨_, rfl, rfl, rfl⟩, by decide +kernel⟩
theorem test_book : (out (.book h0 (g 3) (g 2)) stBk).books0.map (fun e => (e.2.state, e.2.dst)) = [(.submitted, some (g 3))] ∧
    (out (.book h0 (g 3) (g 2)) stBk).agenda.map (·.ev) = [.bookAttempt 0 (transit 8)] := by decide +kernel
theorem test_book_h : (out (.bookH h0 (g 3) (g 2)) stBk).books0.map (fun e => (e.1, e.2.state)) = [(transit 8, .submitted)] := by
  decide +kernel
theorem test_unbook : (out (.unbook h0 (g 3) (g 2)) (stW .committed)).books0.map (fun e => (e.2.state, e.2.gen)) = [(.cancelled, 2#16)] ∧
    causeOf (out (.unbook h0 (g 3) (g 1)) (stW .committed)) = 0x84 := by decide +kernel
theorem test_hstat_cp : (out (.hstatCp h0 (g 9) (g 3)) (out (.copy h0 (g 3) (g 1) (g 2) (g 4) cp0) (stE [] []))).th.gR 9 = 0#64 ∧
    (out (.hstatCp h0 (g 9) (g 1)) (stE [] [])).th.gR 9 = 0xF00#64 := by decide +kernel
theorem test_hstat_bk : (out (.hstatBk h0 (g 3) (g 2)) (stW .committed)).agenda.map (·.ev) = [.statusAnswer id0 (g 3) 0x2800000100#64] := by decide +kernel
theorem test_hstat_bt : (out (.hstatBt h0 (g 3) (g 5)) (stE [] [(0, bat0)])).agenda.map (·.ev) = [.statusAnswer id0 (g 3) 0x30000100#64] := by
  decide +kernel

/-! ### Boot and hold -/

/-- A module being booted: column 1 is known, core 0 alone is a gable core. -/
def boot0 : State := { State.reset with
  agenda := [], gable := [0], enabled := [0, 1],
  flash := { Flash.blank with present := true, image := [1#8, 2#8, 3#8] } }
def bootMapped : State := { boot0 with boot := { boot0.boot with mapAt := some 48 } }
def bootSent : State := { boot0 with boot := { boot0.boot with sentImage := true } }
/-- 31 columns reported, none with a fused-off core. -/
def boot31 : State := { boot0 with boot := { boot0.boot with reports := (List.range 31).map fun x => (x, 0#32) } }
/-- The start tick has come. -/
def bootTs : State := { boot0 with tick := 4#64, boot := { boot0.boot with ts := some 4 }, cores := [(0, { Core.reset with
  pcore := some 0, lcore := some 0, boot := { Core.reset.boot with acked := true, ts := some 4#64 } })] }
def bootAcked : State := { boot0 with cores := [(0, { Core.reset with boot := { Core.reset.boot with acked := true } })] }
def running0 : State := { State.reset with agenda := [], pstate := .running }
/-- An unreadable, an image of a wrong length, and one whose signatures verify. -/
theorem witness_BootEvents :
    bootCode State.reset.flash = some 6#8 ∧
    (Config.sm2Verify (digestNat boot0.flash.image) boot0.flash.sig = true →
      Config.sm2Verify (digestNat (leBytes 8 31 ++ leBytes 8 0)) boot0.flash.tableSig = true → bootCode boot0.flash = none) ∧
    (boot0.pstate = .booting ∧ (boot0.core 1).boot.coords = none ∧ boot0.boot.mapAt = none ∧ boot0.boot.reports.look 1 = none ∧
      boot0.boot.reports.length < 31 ∧ (boot31.boot.reports.look 1).isSome = true) ∧
    (boot31.boot.reports.length = 31 ∧ boot31.boot.reports.look 31 = none ∧ 1000 ≤ (mapOf boot31.fused).length ∧
      (∀ x, x < 32 → ((boot31.boot.reports.ins 31 0#32).lookD x 0#32).toNat = columnWord boot31.fused x) ∧
      ∀ e ∈ boot31.cores, e.2.boot.errors = 0) ∧
    (bootMapped.boot.mapAt.isSome = true ∧ (bootMapped.core 0).boot.mapped = none) ∧
    (boot0.boot.sentImage = false ∧ boot0.gable = 0 :: [] ∧ boot0.boot.ts = none) ∧
    (bootSent.pstate = .booting ∧ 0 ∈ bootSent.gable ∧ bootSent.boot.sentImage = true ∧ (bootSent.core 0).boot.acked = false ∧
      (bootSent.core 0).boot.endAt = none) ∧
    (0 ∈ bootAcked.gable ∧ (bootAcked.core 0).boot.acked = true ∧ (bootAcked.core 0).boot.ts = none) ∧
    (bootTs.boot.ts = some 4 ∧ 4 ≤ bootTs.tick.toNat ∧ bootTs.boot.waitingHold = false ∧ bootTs.gable = [0] ∧
      (bootTs.core 0).boot.ts = some 4#64 ∧ (bootTs.core 0).boot.entered = false ∧ bootTs.residents 0 < 64 ∧ (bootTs.core 0).resv.look 0 = none) ∧
    (running0.pstate = .running ∧ (running0.roleCore roleLife).isSome = true ∧ running0.lifelog.lookD lgHold 0 < 2 ^ 64) := by
  refine ⟨by decide +kernel, ?_, by decide +kernel, by decide +kernel, by decide +kernel, by decide +kernel, by decide +kernel, by decide +kernel,
    by decide +kernel, by decide +kernel⟩
  intro h1 h2
  have h3 : cfgBad boot0.flash.table = false := by decide +kernel
  simp only [bootCode, h1, h3, show boot0.flash.table.dw0.toNat = 31 from rfl, show boot0.flash.table.dw1.toNat = 0 from rfl, h2]
  decide +kernel
theorem test_reset_event : (out .reset State.reset).pstate = .failed ∧ (out .reset State.reset).bcode = 6#8 := by decide +kernel
theorem test_discovery : ((out (.discovery 0#5 0#5 true 0#32) { boot0 with fused := [1] }).core 1).boot.coords = some (1, 0) ∧
    (out (.discovery 0#5 0#5 true 0#32) { boot0 with fused := [1] }).agenda.map (·.ev) =
      [.discovery 1#5 0#5 true 0#32, .discovery 1#5 0#5 false 1#32] := by decide +kernel
theorem test_report : (out (.report 31#5 31#5 0#32) boot31).agenda.map (·.ev) =
      [.map 0#5 0#5 ⟨0#5, 31#5, 0#2, 0#240⟩, .imageSend] ∧ (out (.report 1#5 31#5 0#32) boot31).bcode = 5#8 := by decide +kernel
theorem test_report_timeout : (out .reportTimeout boot0).bcode = 5#8 ∧ (out .reportTimeout bootMapped).bcode = 0#8 := by decide +kernel
/-- Core 33 is physical (1, 1), the third of the Hilbert order 0, 32, 33, 1; core 1 is fused off. -/
theorem test_map : ((out (.map 1#5 1#5 ⟨1#5, 0#5, 0#2, 1#240⟩) bootMapped).core 33).lcore = some 2 ∧
    ((out (.map 1#5 0#5 ⟨1#5, 0#5, 0#2, 1#240⟩) bootMapped).core 1).lcore = none := by decide +kernel
theorem test_image_send : (out .imageSend boot0).agenda.map (·.ev) = [.linePacket 0 0x30201#1024, .endFlit 0 1] := by decide +kernel
theorem test_line_packet : ((out (.linePacket 0 0x30201#1024) bootSent).core 0).code = [(0, 1#8), (1, 2#8), (2, 3#8)] ∧
    ((out (.linePacket 1 0#1024) bootSent).core 1).boot.errors = 1 := by decide +kernel
theorem test_end_flit : (out (.endFlit 0 0) bootSent).agenda.map (·.ev) = [.bootAck none] := by decide +kernel
theorem test_boot_ack : (out (.bootAck none) boot0).boot.ts = some 4 := by decide +kernel
theorem test_start_flit : ((out (.startFlit 0 9#64) bootAcked).core 0).boot.ts = some 9#64 := by decide +kernel
theorem test_firmware_start : (out .firmwareStart bootTs).pstate = .running ∧
    (out .firmwareStart bootTs).threads.map (fun e => (e.2.mode, e.2.pc)) = [(2#2, 0#64)] := by decide +kernel
theorem test_attestation : (out (.attestationRequest 7#256) running0).reports.length = 1 ∧
    (out (.attestationRequest 7#256) boot0).reports = [] := by decide +kernel

/-- A running machine of one user thread of eight registers whose partition stops at tick 20. -/
def small : Thread := { thread [(1, 5#64)] with W := 8, V := 0 }
def swept4 (c : Core) : Core := { c with swept := [.east, .west, .south, .north] }
def stopping (tick : Nat) : State := { world small core0 with
  tick := BitVec.ofNat 64 tick, parts := [(0, { part0 with stop := some 20 })], cores := [(0, swept4 core0), (1, swept4 core1)] }
/-- The thread of the switch is out; then the saves are done. -/
def stopped0 : State := { stopping 30 with
  threads := [(0x10000, { small with life := .swappedOut })], images := [(0x10000, small.image 3 0 [])] }
def tenant1 : Tenant := ⟨[id0], [], [], [], []⟩
def saved0 : State := { stopped0 with tick := 84#64, parts := [(0, { part0 with stop := some 20, saveAt := some 30, out := [tenant1, ⟨[], [], [], [], []⟩] })] }
def entering0 : State := { State.reset with agenda := [], pstate := .entering, holdAt := some 16, tick := 17#64 }
def held0 : State := { State.reset with agenda := [], pstate := .hold }
def resuming0 : State := { State.reset with agenda := [], pstate := .resuming, holdAt := some 16, tick := 17#64 }
theorem witness_HoldEvents :
    ((st []).pstate ≠ .hold ∧ (st []).pstate ≠ .resuming ∧ (st []).pstate ≠ .off ∧ held0.pstate = .hold) ∧
    ((st []).part 0 = some part0 ∧ (st []).pstate = .running ∧ (st []).holdAt = none ∧ (st []).holdAsk = none ∧ part0.stop = none ∧
      ∀ e ∈ (st []).kernels, e.2.part ≠ 0) ∧
    ((stopping 10).part 0 = some { part0 with stop := some 20 } ∧ (stopping 10).tick.toNat < 20 ∧ 20 < (stopping 30).tick.toNat) ∧
    ((stopping 30).stopSet (some 0) = [small] ∧ (stopping 30).threads.look 0x10000 = some small ∧
      (stopping 30).midIssue (some 0) small = false ∧ ((stopping 30).core 0).pending = [] ∧ (stopping 30).swept' ((stopping 30).setCores (some 0)) 0 = true) ∧
    (stopped0.part 0 = some { part0 with stop := some 20 } ∧ stopped0.stopSet (some 0) = [] ∧ stopped0.stopDone (some 0) = true) ∧
    (saved0.part 0 = some { part0 with stop := some 20, saveAt := some 30, out := [tenant1, ⟨[], [], [], [], []⟩] } ∧ saved0.holdAsk = none ∧
      (30 ≤ 20 + 64 ∧ 20 + 64 ≤ saved0.tick.toNat) ∧ tenant1.threads = [id0] ∧ (saved0.threads.look 0x10000).isSome = true ∧
      (saved0.thr id0).life = .swappedOut ∧ imageFault (saved0.images.lookD 0x10000 []) = none) ∧
    (running0.pstate = .running ∧ running0.holdAt = none ∧ running0.holdAsk = none ∧ ∀ e ∈ running0.parts, e.2.stop = none) ∧
    (entering0.holdReady = true ∧ entering0.resumeAsked = false ∧ { entering0 with resumeAsked := true }.resumeAsked = true) ∧
    boot0.pstate = .booting ∧ entering0.pstate = .entering ∧ resuming0.pstate = .resuming := by decide +kernel
theorem test_tick_boundary : (out .tickBoundary held0).tick = 0#64 ∧ out .tickBoundary resuming0 = resuming0 := by decide +kernel
theorem test_tenant_switch : ((out (.tenantSwitch 0 3#64) (st [])).part 0).bind (·.stop) = some 16 ∧
    ((out (.tenantSwitch 0 99#64) (st [])).part 0).bind (·.stop) = some 99 := by decide +kernel
theorem test_synchronised_stop : (((stopping 30).savePass (some 0) 20).thr id0).life = .swappedOut ∧
    ((out (.synchronisedStop (some 0)) stopped0).part 0).bind (·.saveAt) = some 30 := by decide +kernel
theorem test_tenant_restore : ((out (.tenantRestore 0) saved0).thr id0).life = .ready ∧
    ((out (.tenantRestore 0) { saved0 with tick := 83#64 }).thr id0).life = .swappedOut := by decide +kernel
theorem test_sweep_token : ((out (.sweepToken 3 .west) (st [])).core 3).swept = [.west] := by decide +kernel
theorem test_hold_request : (out .holdRequest running0).holdAt = some 16 ∧ (out .holdRequest boot0).boot.waitingHold = true := by decide +kernel
theorem test_hold_reached : (out .holdReached entering0).pstate = .hold ∧ (out .holdReached { entering0 with tick := 15#64 }).pstate = .entering := by
  decide +kernel
/-- The save area is written on the way in, the entry counted, and the area read back on the way out. -/
theorem test_hold_area : (out .holdReached { entering0 with battens := [(0, bat0)] }).saveArea.map (·.battens) = some [(0, bat0)] ∧
    (out .holdReached { entering0 with battens := [(0, bat0)] }).battens = [] ∧ (out .holdReached entering0).lifelog.lookD lgHold 0 = 1 ∧
    (out .resumptionComplete { resuming0 with saveArea := some ⟨[], [], [(0, bat0)], [], [], [], []⟩ }).battens = [(0, bat0)] := by decide +kernel
theorem test_resume_request : (out .resumeRequest held0).pstate = .resuming ∧ (out .resumeRequest entering0).resumeAsked = true := by decide +kernel
theorem test_resumption_complete : (out .resumptionComplete resuming0).pstate = .running ∧ (out .resumptionComplete resuming0).holds = 1#32 := by
  decide +kernel
theorem test_retention_power_loss : (out .retentionPowerLoss held0).pstate = .off ∧
    isNext (step (out .retentionPowerLoss held0)) = true := by decide +kernel
theorem test_life_log_write : (out .lifeLogWrite { running0 with lifelog := [(7, 3)] }).flash.lifelog = [(7, 3)] := by decide +kernel
theorem test_thermal_excursion : (out (.thermalExcursion 2 5) running0).lifelog = [(4010, 1)] := by decide +kernel
theorem test_supply_droop : (out (.supplyDroop 2 3) running0).lifelog = [(5009, 1)] := by decide +kernel
theorem test_refresh_window_end : ((out .refreshWindowEnd { st [] with cores := [(0, { core0 with rows := [(1, 5)], throttled := [1] })] }).core 0).rows = [] := by
  decide +kernel

/-! ### Threads and ports -/

/-- Core 0 of a world with threads of its own, their ready ones in the run list. -/
def worldOf (ts : List Thread) (run : List Word32) (c : Core) (cur : Word32) : State :=
  { world (thread []) { c with run := run } with
    cur := cur, threads := ts.map fun t => (t.thid.toNat, t), seats := [] }
def seated0 (s : State) : State := { s with seats := [(0, ⟨id0, false, false⟩)] }
def thr2 : Thread := { thr1 with thid := 0x30002#32, prio := 1#2 }
/-- Two ready threads in the run list, the second of higher priority. -/
def stRun : State := worldOf [{ thr1 with prio := 2#2 }, thr2] [id1, 0x30002#32] core0 0#32
/-- The thread of the world with its slice run out, and a rival or none. -/
def stSl (t : Thread) (run : List Word32) : State := seated0 (worldOf [{ t with slice := 3, sliceCnt := 3, pcMode := .start, tvec := 0x4000#64 }, thr1] run core0 id0)
def ie1 (t : Thread) : Thread := { t with status := t.status ||| 4#12 }
def tIe : Thread := ie1 (thread [(1, 5#64)])
def waiter (w : Wait) (u : Bool) : State :=
  let s := worldOf [{ thr1 with life := if u then .waitUnseated else .waitSeated, wait := w, waitTurns := 4, ev := 4#64, l := [(2, 3#32)] }] [] core0 id1
  { s with seats := if u then [] else [(0, ⟨id1, false, false⟩)], barriers := [(3, ⟨none, [], [], 5#32, []⟩)] }
def migr : State := worldOf [{ thr1 with life := .migrating, core := 0, arrive := some (g 7) }] [] core0 0#32
/-- Core 1 is full. -/
def migrFull : State := { migr with threads := migr.threads ++ (List.range 64).map fun n => (n + 0x500000, { thr1 with thid := BitVec.ofNat 32 (n + 0x500000), core := 1 }) }
def postedS : State := seated0 (worldOf [{ tIe with pcMode := .start, tvec := 0x4000#64, pc := 0x80#64, posted := [⟨0xA2#8, 9#64⟩] }] [] core0 id0)
def ended0 : State := worldOf [{ thread [] with life := .exited }] [] core0 id0
theorem witness_SeatEvents :
    -- seating: the second of the run list, of higher priority, with seat 0 free
    ((stRun.core 0).run = [id1] ++ 0x30002#32 :: [] ∧ (stRun.thr 0x30002#32).prio.toNat < (stRun.thr id1).prio.toNat ∧
      stRun.seats.look 0 = none ∧ (stRun.thr 0x30002#32).life = .ready ∧ (stRun.thr 0x30002#32).saving = false ∧
      stRun.shadowFits 0 (stRun.thr 0x30002#32) = true) ∧
    ({ stRun with seats := [(0, ⟨id1, false, true⟩)] }.seats.look 0 = some ⟨id1, false, true⟩ ∧ (stRun.threads.look id1.toNat).isSome = true) ∧
    (seated0 stRun).seats.look 0 = some ⟨id0, false, false⟩ ∧
    -- the slice
    (Claims.Fresh ((stSl (thread []) []).thr id0) ∧ 0 < ((stSl (thread []) []).thr id0).slice ∧
      ((stSl (thread []) []).thr id0).slice ≤ ((stSl (thread []) []).thr id0).sliceCnt) ∧
    (((stSl { thread [] with status := 0#12 } []).thr id0).ie = false ∧ ((stSl tIe []).thr id0).ie = true ∧ ((stSl tIe []).core 0).run = []) ∧
    (((stSl tIe [id1]).core 0).run = [id1] ∧ ((stSl tIe [id1]).thr id1).prio.toNat ≤ ((stSl tIe [id1]).thr id0).prio.toNat) ∧
    (((stSl tIe [id1]).thr id0).sltrap = false ∧ ((stSl { tIe with status := tIe.status ||| 0x100#12 } [id1]).thr id0).sltrap = true ∧
      ((stSl tIe [id1]).thr id0).pcMode ≠ .line) ∧
    -- waits
    (((waiter .mailbox false).thr id1).life = .waitSeated ∧ 4 ≤ ((waiter .mailbox false).thr id1).waitTurns ∧
      ((waiter .mailbox false).thr id1).wait = .mailbox ∧ ((waiter .mailbox true).thr id1).life = .waitUnseated) ∧
    (((waiter (.fullBit 5#8 true) true).thr id1).gFull 5 = true ∧ ((waiter (.fullBit 5#8 false) true).thr id1).gFull 5 ≠ false ∧
      ((waiter (.event 4#64) true).thr id1).event &&& 4#64 ≠ 0#64 ∧ ((waiter (.event 4#64) true).thr id1).event &&& 8#64 = 0#64 ∧
      (3 ≤ (((waiter (.landing 2 3) true).thr id1).lR 2).toNat ∧ (((waiter (.landing 2 3) true).thr id1).lR 2).toNat < 4)) ∧
    ((((waiter .none true).barriers.lookD (16 * 0 + 3) ⟨none, [], [], 0#32, []⟩).gen ≠ 4#32 ∧
      ((waiter .none true).barriers.lookD (16 * 0 + 3) ⟨none, [], [], 0#32, []⟩).releasing = [] ∧
      ((waiter .none true).barriers.lookD (16 * 0 + 3) ⟨none, [], [], 0#32, []⟩).gen = 5#32)) ∧
    -- migration
    ((migr.thr id1).life = .migrating ∧ migr.residents 1 < 64 ∧ (migr.core (migr.thr id1).core).pending = [] ∧
      (migr.thr id1).arrive = some (g 7) ∧ 64 ≤ migrFull.residents 1 ∧ (migrFull.thr id1).life = .migrating) ∧
    -- posted causes, the end
    (Claims.Fresh (postedS.thr id0) ∧ (postedS.thr id0).ie = true ∧ (postedS.thr id0).posted = ⟨0xA2#8, 9#64⟩ :: [] ∧ (postedS.thr id0).pcMode ≠ .line) ∧
    ((ended0.thr id0).life = .exited ∧ (ended0.thr id0).outLd = 0 ∧ (ended0.threads.look id0.toNat).isSome = true ∧ (ended0.core 0).pending = [] ∧
      (ended0.core (homeOf id0)).resv.look (id0.toNat % 64) = some id0) := by
  refine ⟨by decide +kernel, by decide +kernel, by decide +kernel, by unfold Claims.Fresh; decide +kernel, by decide +kernel, by decide +kernel,
    by decide +kernel, by decide +kernel, by decide +kernel, by decide +kernel, by decide +kernel, by unfold Claims.Fresh; decide +kernel, by decide +kernel⟩
theorem test_thread_seating : (out (.threadSeating 0) stRun).seats = [(0, ⟨0x30002#32, true, false⟩)] ∧
    (out (.threadSeating 0) stRun).agenda.map (·.ev) = [.contextFetchDone 0, .threadSeating 0] := by decide +kernel
theorem test_context_save_done : (out (.contextSaveDone 0) { stRun with seats := [(0, ⟨id1, false, true⟩)] }).seats = [] := by decide +kernel
theorem test_context_fetch_done : (out (.contextFetchDone 0) { stRun with seats := [(0, ⟨id1, true, false⟩)] }).seats = [(0, ⟨id1, false, false⟩)] := by
  decide +kernel
theorem test_slice_expiry : ((out (.sliceExpiry id0) (stSl tIe [id1])).thr id0).life = .ready ∧
    ((out (.sliceExpiry id0) (stSl { tIe with status := tIe.status ||| 0x100#12 } [id1])).thr id0).cCode = 0xE0#8 := by decide +kernel
theorem test_seated_wait_timeout : ((out (.seatedWaitTimeout id1) (waiter .mailbox false)).thr id1).life = .waitUnseated := by decide +kernel
theorem test_full_bit_change : ((out (.fullBitChange id1) (waiter (.fullBit 5#8 true) true)).thr id1).life = .ready ∧
    ((out (.fullBitChange id1) (waiter (.fullBit 5#8 false) true)).thr id1).life = .waitUnseated := by decide +kernel
theorem test_wait_event : ((out (.waitEvent id1) (waiter (.event 4#64) false)).thr id1).life = .seated ∧
    ((out (.waitEvent id1) (waiter (.barrier 3#4 4#32 true (g 9)) true)).thr id1).gR 9 = 5#64 := by decide +kernel
theorem test_migration_arrival : ((out (.migrationArrival id1 1) migr).thr id1).core = 1 ∧
    ((out (.migrationArrival id1 1) migrFull).core 1).arrivals = [id1] := by decide +kernel
theorem test_posted_cause_taken : ((out (.postedCauseTaken id0) postedS).thr id0).epc = 0x80#64 ∧
    ((out (.postedCauseTaken id0) postedS).thr id0).pc = 0x4280#64 := by decide +kernel
theorem test_thread_freed : (out (.threadFreed id0) ended0).threads = [] := by decide +kernel

/-- A pending store of two bytes at 0x100 of the thread of the world. -/
def pend0 : PendStore := ⟨planesMax, id0, 0x100, [(0x100, 7#8), (0x101, 8#8)], 0#32, true, none⟩
def stSt : State := worldOf [{ thread [] with outSt := 2 }] [] { core0 with pend := [pend0] } id0
def waitS (w : Wait) : State := worldOf [{ thread [] with wait := w, life := .waitUnseated, atAnchor := true }] [] core0 id0
def hostS : State := { stSt with hostPend := [(3, ⟨id0, 0, [(0x2000, 5#8)], none⟩)] }
theorem witness_PortEvents :
    (planesMax ≤ planesMax ∧ stSt.asks.look planesMax = none ∧ pend0.id = planesMax ∧ pend0.thid = id0 ∧ (∃ e ∈ stSt.cores, e.1 = 0 ∧ pend0 ∈ e.2.pend) ∧
      (∀ e ∈ stSt.cores, ∀ q ∈ e.2.pend, q.id = planesMax → q.thid = id0 → e.1 = 0 ∧ q = pend0) ∧ (pend0.bytes.map (·.1)).Nodup ∧
      (stSt.threads.look id0.toNat).isSome = true) ∧
    ((waitS .anchor).thr id0).wait = .anchor ∧
    (((waitS (.hostAccess 8 true)).thr id0).wait = .hostAccess 8 true ∧ { waitS (.hostAccess 8 true) with linkUp := false }.linkUp = false) ∧
    (((waitS .answer).thr id0).wait = .answer ∧ ((waitS .answer).thr id0).life = .waitUnseated) ∧
    (hostS.hostPend.look 3 = some ⟨id0, 0, [(0x2000, 5#8)], none⟩ ∧ ([(0x2000, 5#8)].map (fun (x : Nat × Byte) => x.1)).Nodup) ∧
    ((stSt.thr id0).life ≠ .exited ∧ (stSt.thr id0).life ≠ .swappedOut ∧ stSt.part (stSt.thr id0).part = some part0 ∧ stSt.linkUp = true) := by
  decide +kernel
theorem test_home_port_access : (out (.homePortAccess id0 planesMax) stSt).mem = [(0x100, 7#8), (0x101, 8#8)] ∧
    ((out (.homePortAccess id0 planesMax) stSt).thr id0).outSt = 1 := by decide +kernel
theorem test_access_answer : ((out (.accessAnswer id0) (waitS .answer)).thr id0).life = .ready := by decide +kernel
theorem test_host_write_performed : (out (.hostWritePerformed 3) hostS).hostMem = [(0x2000, 5#8)] := by decide +kernel
theorem test_publish_apply : ((out (.publishApply id0 (g 6)) stSt).thr id0).gR 6 = 1#64 ∧
    (out (.publishApply id0 (g 6)) stSt).hostPend.map (fun e => e.2.bytes.head?) = [some (0x1000, 1#8)] := by decide +kernel
theorem test_status_arrives : ((out (.statusAnswer id0 (g 6) 5#64) stSt).thr id0).gR 6 = 5#64 ∧
    ((out (.statusAnswer id0 (g 6) 5#64) stSt).thr id0).outSt = 1 := by decide +kernel
theorem test_row_throttle : ((out (.rowThrottle 0 9) stSt).core 0).throttled = [9] := by decide +kernel

/-! ### Events of the engines -/

/-- A copy of a line issued, running, its line sent, and performed. -/
def c1 : State := out (.copy h0 (g 3) (g 1) (g 2) (g 4) cp0) (stE [] [])
def c2 : State := out (.copyRunning 8) c1
def c3 : State := out (.tracerLine 0) c2
def c4 : State := out (.copyData 8 0) c3
def cpOf (s : State) : CopyOp := (s.copies.map (·.2)).headD (CopyOp.blank Thread.blank .copy)
def pc1 : Piece := ⟨0x2000, 0x2040, true, 8⟩
/-- The copy has a piece of core 1 to register; there it waits, or is registered. -/
def cReg (st wt : List Piece) : State := { c1 with
  copies := [(8, { cpOf c1 with todo := [(1, pc1)], ready := false })], cores := [(0, c1.core 0), (1, { core1 with stencil := st, stWait := wt })] }
/-- Slot 0 of core 0 is booked by the sheet at index 5 for ticks 0 to 9; every other slot is, too. -/
def cHeld (all : Bool) (s : State) : State := { s with
  books0 := [(5, { book0 with state := .started, ivals := (List.range (if all then 32 else 1)).map fun n => ⟨.slot 0 n, 0, 9, n⟩ })] }
def fits (st ws : List Piece) (p : Piece) : Bool :=
  decide (st.length < 64) && st.all (fun q => !decide (p.lo < q.hi ∧ q.lo < p.hi ∧ q.op ≠ p.op) || (!p.write && !q.write)) &&
    ws.all fun q => !decide (p.lo < q.hi ∧ q.lo < p.hi ∧ q.op ≠ p.op)
theorem fits_iff (st ws : List Piece) (p : Piece) : Fits st ws p ↔ fits st ws p = true := by
  simp [Fits, fits, List.all_eq_true, and_assoc, Decidable.imp_iff_not_or]
theorem witness_CopyEvents :
    (cReg [] []).copies.look 8 = some { cpOf c1 with todo := [(1, pc1)], ready := false } ∧ (cpOf (cReg [] [])).live = true ∧
    (Fits [] [] pc1 ∧ ¬Fits [⟨0x2000, 0x2080, false, 2⟩] [] pc1 ∧ pc1 ∉ ((cReg [⟨0x2000, 0x2080, false, 2⟩] []).core 1).stencil ∧
      pc1 ∉ ((cReg [] []).core 1).stWait) ∧
    (((cReg [] [pc1]).core 1).stWait = [pc1] ∧ pc1 ∈ ((cReg [pc1] []).core 1).stencil ∧ (cpOf (cReg [pc1] [])).core ≠ 1) ∧
    (c1.copies.look 8 = some (cpOf c1) ∧ (cpOf c1).state = .queued ∧ (cpOf c1).stop = none ∧ (cpOf c1).secLo ≠ (cpOf c1).secHi ∧ (cpOf c1).ready = true ∧
      (cpOf c1).started = false ∧ (cpOf c1).booked = none ∧ (cpOf c1).cb = none ∧ (cpOf c1).slot = some 0 ∧
      (cHeld true { c1 with copies := [(8, { cpOf c1 with slot := none })] }).freeSlot 0 = none) ∧
    ((cHeld false c1).slotHeld 0 0 (cHeld false c1).tick.toNat = true ∧ (cHeld false c1).freeSlot 0 = some 1 ∧ (cHeld true c1).freeSlot 0 = none ∧
      (cHeld true c1).slotHeld 0 0 0 = true ∧ OnlyOne (cHeld false c1).copies 8 (cpOf c1) (fun x => x.core = 0 ∧ x.slot = some 0 ∧ x.live = true ∧ x.booked = none)) ∧
    (c2.copies.look 8 = some (cpOf c2) ∧ (cpOf c2).state = .running ∧ (cpOf c2).started = true ∧ (cpOf c2).stop = none ∧ (cpOf c2).ready = true ∧
      (cpOf c2).sent < (cpOf c2).secHi ∧ c2.copyStale (cpOf c2) = false ∧ (c2.readRun (cpOf c2).srcSeg 0 (cpOf c2).perLine).2.2 = false ∧
      OnlyOne c2.copies 8 (cpOf c2) (fun x => x.core = (cpOf c2).core ∧ x.live = true)) ∧
    (c3.copies.look 8 = some (cpOf c3) ∧ (cpOf c3).state = .running ∧ (cpOf c3).lines < (cpOf c3).sent ∧ (cpOf c3).viaHost = false ∧
      (cpOf c3).plain = true ∧ 0 < (cpOf c3).total ∧ (segAt (cpOf c3).dstSeg 0).isSome = true ∧ (cpOf c3).lines + 1 = (cpOf c3).secHi) ∧
    (c4.copies.look 8 = some (cpOf c4) ∧ (cpOf c4).lines = (cpOf c4).secHi ∧ (cpOf c4).total ≤ (cpOf c4).secHi ∧ (cpOf c4).state = .running ∧
      (∀ e ∈ c4.copies, e.1 = 8 → e.2 = cpOf c4)) := by
  simp only [fits_iff, OnlyOne]
  refine ⟨by decide +kernel, by decide +kernel, by decide +kernel, by decide +kernel, by decide +kernel,
    ⟨by decide +kernel, by decide +kernel, by decide +kernel, by decide +kernel, [], [], by decide +kernel, fun e he => by simp at he⟩,
    ⟨by decide +kernel, by decide +kernel, by decide +kernel, by decide +kernel, by decide +kernel, by decide +kernel, by decide +kernel,
      by decide +kernel, [], [], by decide +kernel, fun e he => by simp at he⟩, by decide +kernel, by decide +kernel⟩
theorem test_registration_request : ((out (.registrationRequest 8 1) (cReg [] [])).core 1).stencil = [pc1] ∧
    ((out (.registrationRequest 8 1) (cReg [⟨0x2000, 0x2080, false, 2⟩] [])).core 1).stWait = [pc1] := by decide +kernel
theorem test_stencil_register : ((out (.stencilRegister 1) (cReg [] [pc1])).core 1).stencil = [pc1] := by decide +kernel
theorem test_registration_grant : (cpOf (out (.registrationGrant 8 1) (cReg [pc1] []))).ready = true := by decide +kernel
theorem test_copy_running : (cpOf c2).state = .running ∧ (Instr.tracerLine 0) ∈ c2.agenda.map (·.ev) := by decide +kernel
theorem test_slot_handover : (cpOf (out (.slotHandover 0 0) (cHeld false c1))).slot = some 1 ∧
    (cpOf (out (.slotHandover 0 0) (cHeld true c2))).state = .queued := by decide +kernel
theorem test_start_message : (cpOf (out (.startMessage 8) { c2 with copies := [(8, { cpOf c2 with started := false })] })).started = true := by decide +kernel
theorem test_tracer_line : (cpOf c3).sent = 1 ∧ (Instr.copyData 8 0) ∈ c3.agenda.map (·.ev) := by decide +kernel
theorem test_copy_data : (c4.core 0).spNat 0x1000 8 = 0x0807060504030201 ∧ (c4.core 0).spB 0x40 = 0x100#32 := by decide +kernel
theorem test_copy_report : (cpOf (out (.copyReport 8) c4)).state = .done ∧ (out (.copyReport 8) c4).th.lR 1 = 1#32 := by decide +kernel
/-- The same copy with a source in device memory. -/
def cRow : State := { c2 with copies := [(8, { cpOf c2 with srcSeg := [(0, 0x10040, 64)] })] }
theorem test_refresh_split : (cpOf (out (.refreshSplit 8) cRow)).splits = 1 ∧ ((out (.refreshSplit 8) cRow).core 0).splits = 1 ∧
    (cpOf (out (.refreshSplit 8) c2)).splits = 0 := by decide +kernel

/-- A hire issued and placed for the ticks from 2 on; then running, landing its first line, and landed. -/
def hi1 : State := out (.hire h0 (g 0) (g 1) (g 5) (g 6) hr0) (stE [] [(0, bat0)])
def hi2 : State := out (.hirePlacement 0) { hi1 with cycle := 32 }
def hBlank : Hire :=
  { thid := 0#32, core := 0, part := 0, kind := .sl, arr := 0, half := 0, bat := 0#64, a := 0, c := none, dst := 0, dev := false, dfmt := .raw,
    sta := 0, lnum := 0, rm := .rne, sat8 := false, bthr := 0#64, cls := 0#2, k := 0, sel := [], tstride := 0, afmt := .e4, K := 0, rows := 0,
    cols := 0, booked := none, bidx := none, start := 0, wend := 0, land := 0, lane := 0, state := .issued, rerun := false, moved := false,
    miss := 0, wide := false, tripped := false, ntrip := 0#5, flags := 0#5, planes := [], lines := 0, ltick := none, pcause := 0#8,
    ready := false, arrives := 0, quads := [], todo := [], doomed := false, fmt := .e4, regs := [], dstSeg := [], user := false, since := none,
    lost := false, ending := none }
def hOf (s : State) : Hire := (s.hires.map (·.2)).headD hBlank
def hiAt (st : HireState) (lines : Nat) (planes : List Plane) : State := { hi2 with
  tick := 100#64, hires := [(8, { hOf hi2 with state := st, lines := lines, planes := planes })] }
/-- A booking claims the bank of the status word. -/
def hiShut : State := { hiAt .landing 1024 [] with
  books0 := [(3, { book0 with state := .started, ivals := [⟨.bank 0 ((hOf hi2).sta / 65536), 0, 200, 0⟩] })] }
theorem witness_HireEvents :
    (hi1.hires = [(8, hOf hi1)] ∧ (hOf hi1).state = .issued ∧ (hOf hi1).ready = true ∧ (hOf hi1).booked = none ∧ (hOf hi1).bidx = none ∧
      hi1.hallWait = [] ∧ hi1.hireStale (hOf hi1) = false ∧ hi1.hireArrays (hOf hi1) ≠ [] ∧
      hi1.battenLive (hOf hi1).part (hOf hi1).bat = some (0, bat0) ∧
      (State.placeHire { hi1 with hires := [(8, { hOf hi1 with state := .placed })], hallWait := [8] } 8 { hOf hi1 with state := .placed } bat0.sp).isSome = true) ∧
    ((hiAt .placed 0 []).hires.look 8 = some (hOf (hiAt .placed 0 [])) ∧ (hOf (hiAt .placed 0 [])).bidx = some 4104 ∧
      (hOf (hiAt .placed 0 [])).start ≤ (hiAt .placed 0 []).tick.toNat ∧ (hiAt .placed 0 []).failedArr = [] ∧
      (hiAt .placed 0 []).hireShut 8 (hOf (hiAt .placed 0 [])) = false) ∧
    ((hOf (hiAt .running 0 [])).wide = false ∧ (hOf (hiAt .running 0 [])).bthr.getLsbD 9 = false ∧ (hOf (hiAt .running 0 [])).miss = 0 ∧
      ({ hOf (hiAt .running 0 []) with miss := 1 } : Hire).miss ≠ 0 ∧ (hiAt .running 0 []).hireStale (hOf (hiAt .running 0 [])) = false) ∧
    ((hOf (hiAt .landing 0 [])).lines < (hOf (hiAt .landing 0 [])).total ∧ (hOf (hiAt .landing 0 [])).dueTick 0 ≤ (hiAt .landing 0 []).tick.toNat ∧
      (hOf (hiAt .landing 0 [])).dev = false ∧ (hOf (hiAt .landing 0 [])).ending = none ∧ ((segAt (hOf (hiAt .landing 0 [])).dstSeg 0).map ((hiAt .landing 0 []).bankShut none)) = some false) ∧
    ((hOf (hiAt .landing 1024 [])).total = 1024 ∧ (hOf (hiAt .landing 1024 [])).tripped = false ∧
      (hiAt .landing 1024 []).bankShut none (spKey 0 (hOf (hiAt .landing 1024 [])).sta) = false ∧ (hiShut).bankShut none (spKey 0 (hOf hiShut).sta) = true ∧
      (hOf hiShut).state = .landing ∧ (hOf hiShut).lines = (hOf hiShut).total) ∧
    (hOf hi1).cls = 0#2 := by decide +kernel
theorem test_hire_end_waits : (hOf (out (.hireLanded 8) hiShut)).ending = some 0 ∧ (out (.hireLanded 8) hiShut).th.lR 2 = 0#32 := by decide +kernel
theorem test_hire_placement : (hOf hi2).state = .placed ∧ (hOf hi2).start = 2 ∧ (hi2.books0.map fun e => (e.1, e.2.start)) = [(4104, 2)] := by decide +kernel
theorem test_hire_start : (hOf (out (.hireStart 8) { hiAt .placed 0 [] with failedArr := [(0, 0)] })).state = .placed := by decide +kernel
theorem test_array_window_end : (hOf (out (.arrayWindowEnd 8 false) (hiAt .running 0 []))).state = .landing ∧
    (hOf (out (.arrayWindowEnd 8 true) (hiAt .running 0 []))).rerun = true := by decide +kernel
theorem test_landing_line : (hOf (out (.landingLine 8) (hiAt .landing 0 []))).lines = 1 := by decide +kernel
theorem test_hire_landed : (out (.hireLanded 8) (hiAt .landing 1024 [])).hires = [] ∧ (out (.hireLanded 8) (hiAt .landing 1024 [])).th.lR 2 = 1#32 := by
  decide +kernel

/-- A booking of slate 0 for two ticks from tick 40, in each of its states. -/
def sheet0 : Sheet := ⟨0, 0, 0#2, 0, 0, true, 0#2, [⟨1#4, 0, 0, 2, 0⟩], false⟩
def stBe (k : BookState) (sh : Sheet) (ivals : List Ival) (tick : Nat) : State := { stE [] [] with
  tick := BitVec.ofNat 64 tick, books0 := [(0, { book0 with state := k, sheet := sh, ivals := ivals, dst := some (g 3) })] }
def iv : Ival := ⟨.array 0 0, 40, 41, 0⟩
/-- A sheet on its way to the hall. -/
def stSub (sh : Sheet) : State := { stE [] [] with
  books0 := [(transit 8, { book0 with state := .submitted, sheet := sh, dst := some (g 3) })] }
theorem witness_BookingEvents :
    (∃ b, ((stSub sheet0).books 0).look (transit 8) = some b ∧ b.state = .submitted ∧ b.early = false ∧ (stSub sheet0).live b.thid = true ∧
      (((stSub sheet0).delBook 0 (transit 8)).served 0).liveBooks b.thid < 16 ∧
      (((stSub sheet0).delBook 0 (transit 8)).served 0).freeIndex 0 = some (0, 1#16)) ∧
    ((stSub sheet0).live 5#32 = false ∧ ((stBe .pending sheet0 [] 0).books 0).look 0 = some { book0 with state := .pending, sheet := sheet0, dst := some (g 3) }) ∧
    ({ sheet0 with bad := true }.bad = true ∧ (stBe .pending sheet0 [] 0).sheetOutside 0 0 { sheet0 with ents := [⟨4#4, 16, 0, 2, 0⟩] } = true ∧
      (stBe .pending sheet0 [] 0).sheetOutside 0 0 sheet0 = false ∧ ({ sheet0 with cls := 1#2, ents := [⟨1#4, 0, 0, 113, 0⟩] } : Sheet).tooLong = true) ∧
    ((stBe .pending sheet0 [] 0).condHolds { book0 with sheet := sheet0 } = true ∧
      (stBe .pending sheet0 [] 0).condHolds { book0 with sheet := { sheet0 with lkind := 1#2, lval := 1 } } = false) ∧
    (((stBe .pending sheet0 [] 0).attempt 0 { book0 with sheet := sheet0 }).toOption.isSome = true ∧
      ((stBe .pending sheet0 [] 0).attempt 0 { book0 with sheet := { sheet0 with latest := 1 } }).toOption = none) ∧
    (40 ≤ (stBe .committed sheet0 [iv] 40).tick.toNat ∧ (book0.start = 40 ∧ ({ book0 with ivals := [iv] } : Booking).last < 42)) ∧
    ((stBe .committed sheet0 [iv] 0).books0 = [(0, { book0 with sheet := sheet0, ivals := [iv], dst := some (g 3) })] ∧ (stBe .committed sheet0 [iv] 0).books1 = [] ∧
      sheet0.slide = true ∧ (stBe .committed sheet0 [iv] 0).movesTo 0 0 { book0 with sheet := sheet0, ivals := [iv], dst := some (g 3) } = some 2) := by
  refine ⟨⟨{ book0 with state := .submitted, sheet := sheet0, dst := some (g 3) }, by decide +kernel⟩, ?_⟩
  decide +kernel
theorem test_book_attempt : (out (.bookAttempt 0 (transit 8)) (stSub sheet0)).books0.map (fun e => (e.1, e.2.state, e.2.start)) = [(0, .committed, 2)] ∧
    (Instr.statusAnswer id0 (g 3) 4#64) ∈ (out (.bookAttempt 0 (transit 8)) (stSub { sheet0 with bad := true })).agenda.map (·.ev) := by decide +kernel
theorem test_pending_book_attempt : (out (.pendingBookAttempt 0 0) (stBe .pending sheet0 [] 7)).books0.map (fun e => (e.2.state, e.2.start)) =
    [(.committed, 9)] := by decide +kernel
theorem test_booking_start : (out (.bookingStart 0 0) (stBe .committed sheet0 [iv] 40)).books0.map (·.2.state) = [.started] ∧
    (out (.bookingStart 0 0) (stBe .committed sheet0 [iv] 39)).books0.map (·.2.state) = [.committed] := by decide +kernel
theorem test_booking_end : (out (.bookingEnd 0 0) (stBe .started sheet0 [iv] 42)).books0.map (·.2.state) = [.ended] ∧
    (out (.bookingEnd 0 0) (stBe .started sheet0 [iv] 41)).books0.map (·.2.state) = [.started] := by decide +kernel
theorem test_compaction : (out .compaction (stBe .committed sheet0 [iv] 0)).books0.map (fun e => (e.2.start, e.2.ivals)) = [(2, [⟨.array 0 0, 2, 3, 0⟩])] := by
  decide +kernel

/-! ### Events of tasks, kernels and queues -/

/-- The record at 0x80 of core 1: state st, counter n, entry e, 8 registers. -/
def taskRec (st n e : Nat) : Tbl Byte := bytesAt [] 0x80 (leBytes 8 (st * 2 ^ 56 + 8 * 2 ^ 40) ++ leBytes 8 n ++ leBytes 8 e)
def stTask (st n e : Nat) : State := { stK with cores := [(0, coreM), (1, { core1 with sp := taskRec st n e, resv := [] })] }
def taskCore (s : State) : Core := s.core 1
def name0 : Word := 0x100000080#64
def req0 : SpawnReq := ⟨1, id0, g 3, 0x80000000000#64, 128#64, [0x80000000000#64], [7#64], none⟩
/-- A second live thread of the partition on core 0, with a full mailbox, or one of another partition. -/
def stTwo (t : Thread) : State := { stK with threads := [(0x10000, stK.th), (0x20001, t)], cores := [(0, { coreM with resv := [(0, id0), (1, id1)], run := [id1] }), (1, core1)] }
def full16 : Thread := { thr1 with mailbox := List.replicate 16 1#64 }
theorem witness_TaskEvents :
    (stK.taskHome 0 name0 = some (1, 0x80) ∧
      ((taskCore (stTask 1 2 0)).spNat 0x80 8 / 2 ^ 56 % 16 = 1 ∧ (taskCore (stTask 1 2 0)).spNat 0x88 4 = 2) ∧
      ((taskCore (stTask 0 0 0)).spNat 0x80 8 / 2 ^ 56 % 16 = 0 ∧ (taskCore (stTask 0 0 0)).taskBad 0x80 = false ∧ (taskCore (stTask 0 0 1)).taskBad 0x80 = true) ∧
      ((stTask 0 0 0).partOf 1 = some 0 ∧ (stTask 0 0 0).residents 1 < 64 ∧ ((stTask 0 0 0).core 1).resv.look 0 = none ∧ (stTask 0 0 0).stopTicks 0 = false ∧
        ((taskCore (stTask 0 0 0)).spNat 0x80 8).testBit 48 = false ∧ (taskCore (stTask 0 0 0)).pending = []) ∧
      ((taskCore (stTask 6 0 0)).spNat 0x80 8 / 2 ^ 56 % 16 = 6 ∧ (taskCore (stTask 2 0 0)).spNat 0x80 8 / 2 ^ 56 % 16 = 2)) ∧
    CanPost (stTask 0 0 0) id0 ∧ (stTask 0 0 0).live 0x99#32 = false ∧
    (((stTask 0 0 0).newThread 1 0 (birthOf req0.ctl.toNat (fun i => req0.init.getD i 0#64) req0.entry req0.image)).isSome = true ∧ req0.sheet = none ∧
      ({ stTask 0 0 0 with cores := [(0, coreM), (1, { core1 with resv := (List.range 64).map fun n => (n, 5#32) })] }.newThread 1 0
        (birthOf req0.ctl.toNat (fun i => req0.init.getD i 0#64) req0.entry req0.image)).isNone = true) ∧
    (((stTwo thr1).thr id0).sends = [] ∧ (stTwo thr1).live id1 = true ∧ ((stTwo { thr1 with part := 1 }).thr id1).part ≠ ((stTwo thr1).thr id0).part) ∧
    (ReachesThread (stTwo thr1) id0 id1 ∧ ((stTwo { thr1 with life := .migrating }).thr id1).life = .migrating ∧ ((stTwo thr1).thr id1).life ≠ .migrating ∧
      ((stTwo thr1).thr id1).life ≠ .swappedOut ∧ ((stTwo thr1).thr id1).mailbox.length < 16 ∧ 16 ≤ ((stTwo full16).thr id1).mailbox.length) ∧
    (({ stTwo thr1 with threads := [(0x10000, { stK.th with sends := [(0x20001#64, 4#64, g 3)] }), (0x20001, thr1)] } : State).thr id0).sends =
      [((id1.zeroExtend 64 : Word), 4#64, g 3)] := by
  unfold CanPost ReachesThread; decide +kernel
theorem test_task_message : (taskCore (out (.taskMessage id0 name0 .tdec) (stTask 1 2 0))).spNat 0x88 4 = 1 ∧
    ((out (.taskMessage id0 name0 .tenq) (stTask 2 0 0)).thr id0).posted = [⟨0xA2#8, name0⟩] := by decide +kernel
theorem test_task_release : (taskCore (out (.taskMessage id0 name0 .tenq) (stTask 0 0 0))).run = [0x10040#32] ∧
    ((out (.taskMessage id0 name0 .tenq) (stTask 0 0 1)).thr id0).posted = [⟨0xA3#8, name0⟩] := by decide +kernel
theorem test_spawn_request : ((out (.spawnRequest req0) (stTask 0 0 0)).thr 0x10040#32).pc = 128#64 ∧
    (Instr.statusAnswer id0 (g 3) 0x10040#64) ∈ (out (.spawnRequest req0) (stTask 0 0 0)).agenda.map (·.ev) := by decide +kernel
/-- Kills that wait for the arrival of a migrating thread. -/
def stKilled : State := stTwo { thr1 with life := .migrating, killers := [(id0, g 3)] }
theorem witness_TaskEvents_killers : ReachesThread stKilled id0 id1 ∧ (stKilled.thr id1).life = .migrating ∧
    (stKilled.thr id1).killers = [(id0, g 3)] := by unfold ReachesThread; decide +kernel
theorem test_kill_migrating : ((out (.killRequest id0 (g 3) 0x20001#64) (stTwo { thr1 with life := .migrating })).thr id1).killers = [(id0, g 3)] ∧
    ((out (.migrationArrival id1 0) stKilled).thr id1).life = .exited := by decide +kernel
theorem test_kill_request : ((out (.killRequest id0 (g 3) 0x20001#64) (stTwo thr1)).thr id1).life = .exited ∧
    (out (.killRequest id0 (g 3) 9#64) (stTwo thr1)).agenda.map (·.ev) = [.statusAnswer id0 (g 3) 1#64] := by decide +kernel
theorem test_mailbox_delivery : ((out (.mailboxDelivery id0 (g 3) 0x20001#64 8#64) (stTwo thr1)).thr id1).mailbox = [8#64] ∧
    ((out (.mailboxDelivery id0 (g 3) 0x20001#64 8#64) (stTwo full16)).thr id0).sends = [(0x20001#64, 8#64, g 3)] := by decide +kernel
theorem test_send_retry : ((out (.sendRetry id0) { stTwo thr1 with threads := [(0x10000, { stK.th with sends := [(0x20001#64, 4#64, g 3)] }), (0x20001, thr1)] }).thr
    id1).mailbox = [4#64] := by decide +kernel
theorem test_signal_delivery : ((out (.signalDelivery id0 (g 3) 0x20001#64 0x8000000000000001#64) (stTwo thr1)).thr id1).ev = 1#64 := by decide +kernel

/-- A queue of two entries at 0x10100, its first packet a kernel of one rank; the image at 0x10000, the registers at 0x10080. -/
def q0 : Queue := ⟨true, 1#16, 0, 0#2, 1, false, 0x10100, 0x10200, true, true, true, 0#32, 1#32, .mapped, 0#16, false, 0, none, none, []⟩
def pk0 : List Word := [BitVec.ofNat 64 (1 + 8 * 2 ^ 40), 0x10000#64, 0x10000#64, 128#64, 0x10080#64, 0#64, 0#64, 0x10208#64]
def memQ (pk : List Word) : Tbl Byte := bytesAt pages0 0x10100 (pk.flatMap fun w => leBytes 8 w.toNat)
def stQu (q : Queue) (pk : List Word) : State := { stM 0 with mem := memQ pk, queues := [(0, q)], slots := [(4, ⟨0, 0#2, 0, none⟩)] }
def krn (st : KernelState) : Kernel := ⟨0, 0, 0#2, pk0, st, 1, 1, [], List.replicate 8 5#64, [], [], [], [], 0, 0, 0, 65536, false⟩
def stKr (x : Kernel) (t : Thread) : State := { stQu { q0 with busy := some 7 } pk0 with
  kernels := [(7, x)], cores := [(0, coreM), (1, core1)], threads := [(0x10000, t)], cycle := 65536 }
def rankT : Thread := { thread [] with kernel := some 7, life := .ready }
def krnR : Kernel := { krn .running with ranks := [(0, id0)] }
theorem witness_KernelEvents :
    ((stQu q0 pk0).slots.look 4 = some ⟨0, 0#2, 0, none⟩ ∧ (stQu q0 pk0).queues.look 0 = some q0 ∧ q0.head ≠ q0.tail ∧
      ((stQu q0 pk0).ctlLine 0 false 0x10100).isSome = true ∧ ((stQu q0 pk0).checkPacket 0 pk0).toOption.isSome = true ∧
      ((stQu q0 pk0).checkPacket 0 (3#64 :: pk0.tail)).toOption = none) ∧
    ((stKr (krn .dispatching) rankT).kernels.look 7 = some (krn .dispatching) ∧ (krn .dispatching).ranks.look 0 = none ∧
      (stKr (krn .dispatching) rankT).physOf 1 = some 1 ∧ (((stKr (krn .dispatching) rankT).core 1).freeRun (pkImage pk0)).isSome = true ∧
      (stKr (krn .dispatching) rankT).residents 1 < 64 ∧ ((stKr (krn .dispatching) rankT).core 1).resv.look 0 = none ∧ (stKr (krn .dispatching) rankT).stopTicks 0 = false) ∧
    ((fanParent 4 1).isSome = true ∧ fanParent 1 0 = none ∧ pkBar ((BitVec.ofNat 64 (1 + 8 * 2 ^ 40 + 0x2800)) :: pk0.tail) = some 2#4) ∧
    ((krn .released).T ≤ (stKr (krn .released) rankT).tick.toNat ∧ ({ krnR with freed := [0] } : Kernel).freed.length = krnR.len ∧
      ((stKr krnR rankT).ctlAddr 0 0x10208#64 .write).isSome = true) ∧
    ((stKr krnR { rankT with life := .waitUnseated, wait := .mailbox }).hangs krnR = true ∧
      (stKr krnR { rankT with life := .waitUnseated, wait := .mailbox }).lowestRank 7 none = some id0) := by decide +kernel
theorem test_launch_packet : (out (.launchPacket 4) (stQu q0 pk0)).kernels.map (fun e => (e.2.state, e.2.regs.length)) = [(.dispatching, 8)] ∧
    (out (.launchPacket 4) (stQu q0 (3#64 :: pk0.tail))).mem.run 0#8 0x10208 8 = leBytes 8 (2 ^ 63 + 1) := by decide +kernel
theorem test_dispatch_multicast : ((out (.dispatchMulticast 7 0) (stKr (krn .dispatching) rankT)).thr 0x10040#32).gR 7 = 5#64 ∧
    ((out (.dispatchMulticast 7 0) (stKr (krn .dispatching) rankT)).thr 0x10040#32).pc = 0x10000#64 := by decide +kernel
theorem test_dispatch_ack : (out (.dispatchAck 7 0) (stKr (krn .dispatching) rankT)).kernels.map (fun e => (e.2.state, e.2.T)) = [(.released, 2)] := by
  decide +kernel
theorem test_kernel_release : ((out (.kernelRelease 7) (stKr { krnR with state := .released } rankT)).core 0).run = [id0] := by decide +kernel
theorem test_kernel_retirement : (out (.kernelRetirement 7) (stKr { krnR with freed := [0] } rankT)).kernels = [] ∧
    (out (.kernelRetirement 7) { stKr { krnR with freed := [0] } rankT with tick := 9#64 }).mem.run 0#8 0x10208 8 = leBytes 8 9 := by decide +kernel
theorem test_hang : ((out .hang (stKr krnR { rankT with life := .waitUnseated, wait := .mailbox })).thr id0).posted = [⟨0xE1#8, 0#64⟩] := by decide +kernel

/-- The capability firmware hands out for queue 0 opens. -/
theorem unseal_capability (s : State) (hq : s.queues.look 0 = some q0) (right : Nat) (hr : right = 168 ∨ right = 169 ∨ right = 170) :
    s.unseal (s.capability 0 q0) 0 right = some (0, q0) := by
  have hlen : ∀ bs : List Byte, leNat bs < 256 ^ bs.length := by
    intro bs
    induction bs with
    | nil => simp [leNat]
    | cons b r ih => simp only [leNat, List.length_cons, Nat.pow_succ]; have := b.isLt; omega
  have hb : ∀ c, s.seal c < 2 ^ 64 := fun c =>
    Nat.lt_of_lt_of_le (hlen _) (Nat.le_trans (Nat.pow_le_pow_right (by decide) (List.length_take_le 8 _)) (by decide))
  let low : Nat := 98401443739852362579735896103172989982994650651230464
  have hlow : low = 98401443739852362579735896103172989982994650651230464 := rfl
  have hcap : s.capability 0 q0 = BitVec.ofNat 256 (s.seal (BitVec.ofNat 256 low) * 2 ^ 192 + low) := rfl
  have hn := hb (BitVec.ofNat 256 low)
  generalize hk : s.seal (BitVec.ofNat 256 low) = n at hcap hn
  have ht : (s.capability 0 q0).toNat = n * 2 ^ 192 + low := by rw [hcap, BitVec.toNat_ofNat]; omega
  have hs : s.seal (s.capability 0 q0) = n := by
    rw [← hk]; unfold State.seal
    rw [ht, show (n * 2 ^ 192 + low) % 2 ^ 192 = (BitVec.ofNat 256 low).toNat % 2 ^ 192 by rw [BitVec.toNat_ofNat]; omega]
  have h0 : capBits (s.capability 0 q0) 128 12 = 0 := by unfold capBits; rw [ht]; omega
  have hbit : (s.capability 0 q0).getLsbD right = true := by
    rw [BitVec.getLsbD, ht, Nat.testBit_eq_decide_div_mod_eq]; rcases hr with rfl | rfl | rfl <;> (simp only [decide_eq_true_eq]; omega)
  unfold State.unseal
  simp only [h0, hq]
  rw [if_neg]
  rw [hs, hbit]
  unfold capBits
  rw [ht]
  rintro (h | h | h | h | h | h | h | h)
  · omega
  · omega
  · omega
  · omega
  · rw [show q0.gen.toNat = 1 from rfl] at h; omega
  · omega
/-- A wake line: a capability, a tail, and zeros. -/
def wakeData (cap : BitVec 256) (tail : Nat) : BitVec 512 := BitVec.ofNat 512 (tail * 2 ^ 256 + cap.toNat)
theorem wakeData_toNat (cap : BitVec 256) (tail : Nat) (h : tail < 2 ^ 64) : (wakeData cap tail).toNat = tail * 2 ^ 256 + cap.toNat := by
  unfold wakeData; rw [BitVec.toNat_ofNat]; have := cap.isLt; omega
def stWake : State := stQu q0 pk0
def capQ : BitVec 256 := stWake.capability 0 q0
/-- A thread that waits for its device enqueue. -/
def stPut (t : Thread) : State := { stQu q0 pk0 with cur := 0#32, seats := [], threads := [(0x10000, { t with life := .waitUnseated, wait := .qput (g 3) })] }
theorem witness_QueueEvents :
    (stWake.pstate = .running ∧ (stWake.part 0).isSome = true ∧ ∃ q, stWake.queues.look 0 = some q ∧ q.live = true) ∧
    (stWake.queues.look 1 = none ∧ stWake.linkUp = true) ∧
    (stWake.unseal (BitVec.ofNat 256 (wakeData capQ 2).toNat) 0 168 = some (0, q0) ∧ (wakeData capQ 2).toNat / 2 ^ 320 = 0 ∧
      (wakeData capQ 2).toNat / 2 ^ 256 % 2 ^ 64 = 2 ∧ (BitVec.ofNat 32 2 - q0.head).toNat ≤ 2 ^ q0.lgn) ∧
    (stWake.unseal (BitVec.ofNat 256 (wakeData capQ (2 ^ 64 - 1)).toNat) 0 170 = some (0, q0) ∧
      (wakeData capQ (2 ^ 64 - 1)).toNat / 2 ^ 256 % 2 ^ 64 = 2 ^ 64 - 1 ∧ (wakeData capQ (2 ^ 64 - 1)).toNat / 2 ^ 320 = 0) ∧
    (stWake.unseal 2#256 0 168 = none ∧ q0.busy = none ∧ q0.waiting = false) ∧
    ({ q0 with state := .destroying }.state = .destroying ∧ { q0 with state := .unmapping }.state = .unmapping) ∧
    ((stPut (thread [])).thr id0).wait = .qput (g 3) ∧ ((stPut (thread [])).thr id0).life = .waitUnseated ∧
      ((stPut (thread [])).thr id0).part = 0 ∧ ((stPut (thread [])).thr id0).ie = true ∧
      (stPut (thread [])).unseal ((stPut (thread [])).capability 0 q0) ((stPut (thread [])).thr id0).part 169 = some (0, q0) ∧
      (stPut (thread [])).unseal 2#256 ((stPut (thread [])).thr id0).part 169 = none ∧
      ({ q0 with tail := 2#32 }.tail - q0.head).toNat = 2 ^ q0.lgn ∧ (q0.tail - q0.head).toNat ≠ 2 ^ q0.lgn := by
  have hc : ∀ t, t < 2 ^ 64 → BitVec.ofNat 256 (wakeData capQ t).toNat = capQ := by
    intro t h
    apply BitVec.eq_of_toNat_eq
    rw [BitVec.toNat_ofNat, wakeData_toNat _ _ h]
    have := capQ.isLt; omega
  have h2 := wakeData_toNat capQ 2 (by decide)
  have h3 := wakeData_toNat capQ (2 ^ 64 - 1) (by decide)
  have hl := capQ.isLt
  refine ⟨⟨by decide +kernel, by decide +kernel, q0, by decide +kernel⟩, by decide +kernel,
    ⟨by rw [hc 2 (by decide)]; exact unseal_capability _ rfl _ (.inl rfl), by omega, by omega, by decide⟩,
    ⟨by rw [hc _ (by decide)]; exact unseal_capability _ rfl _ (.inr (.inr rfl)), by omega, by omega⟩,
    ⟨by decide +kernel, rfl, rfl⟩, ⟨rfl, rfl⟩, rfl, rfl, rfl, rfl, unseal_capability _ rfl _ (.inr (.inl rfl)), by decide +kernel, by decide, by decide⟩
theorem test_queue_create : (out (.queueCreate ⟨0#5, 1#2, 3#4, false, 0x40#64, 0x80#64, true, true, true⟩) stWake).queues.map (fun e => (e.1, e.2.gen, e.2.live)) =
    [(0, 1#16, true), (1, 1#16, true)] := by decide +kernel
theorem test_wake_write : (out (.wakeWrite 0 2#512) stWake).queues.map (·.2.wfail) = [1#16] := by decide +kernel
theorem test_queue_destroy : (out (.queueDestroy 0) stWake).queues.map (·.2.state) = [.destroying] := by decide +kernel
theorem test_queue_destroyed : (out (.queueDestroyed 0) (stQu { q0 with state := .destroying } pk0)).queues.map (fun e => (e.2.gen, e.2.live, e.2.head)) =
    [(2#16, false, 1#32)] := by decide +kernel
theorem test_slot_grant : (out .slotGrant { stQu { q0 with state := .unmapped, waiting := true } pk0 with slots := [], slotWait := [0] }).slots =
    [(0, ⟨0, 0#2, 0, none⟩)] := by decide +kernel
theorem test_unmapping_end : (out (.unmappingEnd 4) (stQu { q0 with state := .unmapping, head := 1#32 } pk0)).slots = [] := by decide +kernel
theorem test_idle_unmap : (out (.idleUnmap 4) { stQu { q0 with head := 1#32 } pk0 with tick := 1024#64 }).slots = [] ∧
    (out (.idleUnmap 4) { stQu { q0 with head := 1#32 } pk0 with tick := 1023#64 }).slots.length = 1 := by decide +kernel
theorem test_qput_request : ((out (.qputRequest id0 (g 3) 0x20#64 2#256 7#512) (stPut (thread []))).thr id0).cCode = 0xA4#8 ∧
    ((out (.qputRequest id0 (g 3) 0x20#64 2#256 7#512) (stPut (thread []))).thr id0).tval = 0x20#64 := by decide +kernel

/-! ### Events of barriers, links and pages -/

/-- Barrier 3 of partition 0 with two ranks, the thread of the world and id1; the first has arrived or not. -/
def bar0 (arrived : List Nat) : Barrier := ⟨some 1, [(0, id0), (1, id1)], arrived, 4#32, []⟩
def stBar (w : Wait) (arrived : List Nat) : State := { worldOf [{ thread [] with life := .waitUnseated, wait := w }, thr1] [] core0 0#32 with
  barriers := [(3, bar0 arrived)] }
theorem witness_BarrierEvents :
    (((stBar (.arrival 3#4) []).thr id0).life ≠ .swappedOut ∧ MemberAt (bar0 []) id0 0 ∧ 0 ∉ (bar0 []).arrived ∧ 0 ∈ (bar0 [0]).arrived ∧
      ((stBar (.arrival 3#4) []).thr id0).posted = []) ∧
    ((∃ m ∈ (bar0 []).members, m.1 ≠ 0 ∧ m.1 ∉ (bar0 []).arrived) ∧ ∀ m ∈ (bar0 [1]).members, m.1 = 0 ∨ m.1 ∈ (bar0 [1]).arrived) ∧
    ((∀ m ∈ (bar0 []).members, m.2 ≠ 9#32) ∧ CanPost (stBar (.arrival 3#4) []) id0) ∧
    ((stBar (.arrival 3#4) []).barriers.look 3 = some (bar0 []) ∧ ((stBar (.withdrawal 3#4 4#32 (g 3)) [0]).thr id0).wait = .withdrawal 3#4 4#32 (g 3) ∧
      ((stBar (.withdrawal 3#4 4#32 (g 3)) [0]).thr id0).life = .waitUnseated ∧ (bar0 [0]).gen = 4#32 ∧ (bar0 [0]).gen ≠ 3#32) := by
  refine ⟨⟨by decide +kernel, ⟨[], [(1, id1)], rfl, fun x hx => by simp at hx⟩, by decide +kernel, by decide +kernel, by decide +kernel⟩, by decide +kernel,
    ⟨by decide +kernel, by unfold CanPost; decide +kernel⟩, by decide +kernel⟩
theorem test_barrier_arrival : (out (.barrierArrival id0 3#4 (g 3) true) (stBar (.arrival 3#4) [1])).barriers.map (fun e => (e.2.arrived, e.2.gen)) = [([], 5#32)] ∧
    ((out (.barrierArrival id0 3#4 (g 3) false) (stBar (.arrival 3#4) [0])).thr id0).posted = [⟨0xB1#8, 3#64⟩] := by decide +kernel
theorem test_barrier_release : (out (.barrierRelease 0 3#4 0) { stBar (.barrier 3#4 4#32 true (g 3)) [] with
      barriers := [(3, { bar0 [] with gen := 5#32, releasing := [0] })] }).agenda.map (·.ev) = [.waitEvent id0] := by decide +kernel
theorem test_barrier_withdrawal : (out (.barrierWithdrawal id0 3#4) (stBar (.withdrawal 3#4 4#32 (g 3)) [0])).barriers.map (·.2.arrived) = [[]] ∧
    ((out (.barrierWithdrawal id0 3#4) (stBar (.withdrawal 3#4 3#32 (g 3)) [0])).thr id0).gR 3 = 4#64 := by decide +kernel

/-- A thread of core 0 that waits on qout since cycle 0; the cycle is 256. -/
def stProbe (reserve : Nat) : State := { worldOf [{ thread [] with life := .waitUnseated, wait := .qout 1#3, qlink := 0x11#64 }] [] { core0 with
  reserve := reserve, inq := [(2, ⟨[5#64], 0, 0⟩)], credUsed := [(1, 8)] } 0#32 with cycle := 256 }
/-- The link has been down long enough for an access that waits. -/
def stDown (st : Bool) : State := { worldOf [{ thread [] with life := .waitUnseated, wait := .hostAccess 0x2000 st, outLd := if st then 0 else 1 }] [] core0 0#32 with
  linkUp := false, cycle := 1048576 }
def cpTo (sp : BitVec 3) : State := { c2 with linkUp := false, cycle := 1048576, copies := [(1, { cpOf c2 with dst := ⟨sp, 0, 0x2000, 2⟩ })] }
def stPeer : State := { st [] with peers := [(2, ⟨0, 0, 0x8000, 0x1000⟩)] }
theorem witness_LinkEvents :
    ((stProbe 0).oldestQout 0 = some ((stProbe 0).thr id0) ∧ ((stProbe 0).thr id0).waitSince + 256 ≤ (stProbe 0).now ∧ ((stProbe 0).core 0).lastProbe = none ∧
      ((stProbe 0).core 0).reserve = 0 ∧ CanPost (stProbe 0) id0 ∧ 0 < ((stProbe 1).core 0).reserve ∧ (stProbe 0).oldestQout 1 = none) ∧
    ((st []).linkUp = true ∧ (stDown true).linkUp = false ∧ (stDown true).linkDownAt + 1048576 ≤ (stDown true).now ∧ (stDown true).hostPend = []) ∧
    ((∀ st, (stDown st).threads.look id0.toNat = some ((stDown st).thr id0) ∧ ((stDown st).thr id0).life = .waitUnseated ∧ (stDown st).copies = [] ∧
      ((stDown st).thr id0).ie = true ∧ ((stDown st).thr id0).wait = .hostAccess 0x2000 st ∧
      OnlyOne (stDown st).threads id0.toNat ((stDown st).thr id0) (fun x => ∃ o st, x.wait = .hostAccess o st))) ∧
    ((cpTo 3#3).copies = [(1, cpOf (cpTo 3#3))] ∧ (cpOf (cpTo 3#3)).live = true ∧ (cpOf (cpTo 3#3)).dst.space = 3#3 ∧
      (cpOf (cpTo 4#3)).dst.space = 4#3 ∧ (cpOf (cpTo 4#3)).dst.port = 2) ∧
    (stPeer.peers.look 2 = some ⟨0, 0, 0x8000, 0x1000⟩ ∧ isDevKey (0x8000 + 64) = true ∧ 64 % 64 = 0 ∧ 64 + 64 ≤ 0x1000 ∧ 2 ∉ stPeer.peerFail) := by
  refine ⟨by unfold CanPost; decide +kernel, by decide +kernel, fun st => ?_, by decide +kernel, by decide +kernel⟩
  cases st
  · exact ⟨rfl, rfl, rfl, rfl, rfl, [], [], rfl, fun e he => by simp at he⟩
  · exact ⟨rfl, rfl, rfl, rfl, rfl, [], [], rfl, fun e he => by simp at he⟩
theorem test_queue_entry : ((out (.queueEntry 0 .west 7#64) (stProbe 0)).core 0).inq = [(2, ⟨[5#64, 7#64], 0, 0⟩)] := by decide +kernel
/-- Core 1 pops what came from its west: its neighbour there is core 0, which sent it east. -/
theorem test_credit_return : ((out (.creditReturn 1 .west) (stProbe 0)).core 0).credUsed = [(1, 7)] ∧
    (out (.creditReturn 1 .west) (stProbe 0)).agenda.map (·.ev) = [.waitEvent id0] := by decide +kernel
theorem test_probe_token_send : (Instr.probeToken 0 1 .west 1) ∈ (out (.probeTokenSend 0) (stProbe 0)).agenda.map (·.ev) := by decide +kernel
theorem test_probe_token : ((out (.probeToken 0 0 .west 5) (stProbe 0)).thr id0).posted = [⟨0xB4#8, 0#64⟩] ∧
    ((out (.probeToken 0 0 .west 5) (stProbe 1)).core 0).inq = [(2, ⟨[5#64], 1, 0⟩)] := by decide +kernel
theorem test_priet_link_down : (out .prietLinkDown (st [])).linkUp = false := by decide +kernel
theorem test_link_retrain : (out .linkRetrain (stDown true)).agenda.map (·.ev) = [.homePortAccess id0 0] := by decide +kernel
theorem test_link_down_timeout : ((out .linkDownTimeout (stDown false)).thr id0).posted = [⟨0xE4#8, 0x2000#64⟩] ∧
    ((out .linkDownTimeout (cpTo 3#3)).copies.map fun e => (e.2.state, e.2.why)) = [(.faulted, 0xF4#8)] := by decide +kernel
theorem test_peer_write : (out (.peerWrite 2 64 3#512) stPeer).mem = [(0x8040, 3#8)] := by decide +kernel
theorem test_peer_port_failure : ((out (.peerPortFailure 2) (cpTo 4#3)).copies.map fun e => (e.2.state, e.2.why)) = [(.faulted, 0xF3#8)] := by decide +kernel

/-- A page of frame 0x10 that moves to frame 0x30, its leaf at 0x5080; a shootdown of core 1 is awaited or not. -/
def pg (evict rewritten : Bool) (replies : List Nat) (frame : Option Nat) : PageOp :=
  ⟨0, 0x10000#64, 0x5080, 0, evict, 0x10, frame, [], replies, rewritten, [(id0, g 3, false)]⟩
def stPg (p : PageOp) : State := { stM 0 with pages := [(9, p)] }
def stInv (waiting : List Nat) : State := { stM 0 with invals := [(9, ⟨0, waiting, id0, g 3⟩)],
                                                       cores := [(0, coreM), (1, { core1 with tlb := [⟨0, 0x10, 1, 0x10, true, true, true, true, true⟩] })] }
def desc1 : PartDesc := { part0.desc with pnum := 1#5, base := 2, len := 1 }
def stPart : State := { st [] with enabled := [0, 1, 2] }
theorem witness_PagePartitionEvents :
    (((stM 0).pages = [] ∧ (stPg (pg false false [] none)).pages = [(9, pg false false [] none)] ∧ ((stM 0).core 0).frames = [])) ∧
    ((stInv [1]).pages.look 9 = none ∧ (stInv [1]).invals.look 9 = some ⟨0, [1], id0, g 3⟩ ∧ [1].filter (· != 1) = [] ∧
      [0, 1].filter (· != 1) = 0 :: []) ∧
    ((stPg (pg false true [1] (some 0x30))).pages.look 9 = some (pg false true [1] (some 0x30)) ∧ (0x5080 + 8 ≤ 0x30 * 4096) ∧
      (leNat ((stM 0).mem.run 0#8 0x5080 8)).testBit 8 = false) ∧
    ((stM 0).leafOf 0 0x10000#64 = some (0, ⟨1, 0x5080, 0x10C3F⟩) ∧ (0x10C3F).testBit 63 = false ∧ (0x10C3F).testBit 6 = false ∧
      (0x10C3F).testBit 7 = false ∧ (0x10C3F).testBit 8 = false ∧ (stM 0).farPool = [] ∧
      ({ stM 0 with mem := bytesAt pages0 0x5080 (leBytes 8 0x10CBF) }.leafOf 0 0x10000#64) = some (0, ⟨1, 0x5080, 0x10CBF⟩) ∧ (0x10CBF).testBit 7 = true) ∧
    (stPart.pstate = .running ∧ stPart.descOk desc1 = true ∧ (stPart.part 0).isSome = true) ∧
    ((∀ e ∈ ({ st [] with threads := [] } : State).threads, e.2.part = 0 → e.2.life = .swappedOut) ∧ ∀ e ∈ (st []).kernels, e.2.part ≠ 0) := by
  decide +kernel
theorem test_frame_available : (out (.frameAvailable 0 (some 0x30)) (stPg (pg false false [] none))).pages.map (·.2.frame) = [some 0x30] ∧
    ((out (.frameAvailable 0 (some 0x30)) (stM 0)).core 0).frames = [0x30] := by decide +kernel
theorem test_shootdown : ((out (.shootdown 1 (some 0x10000#64) 9) (stInv [1])).core 1).tlb = [] ∧
    (out (.shootdown 1 (some 0x10000#64) 9) (stInv [1])).agenda.map (·.ev) = [.statusAnswer id0 (g 3) 0#64] := by decide +kernel
theorem test_migration_complete : (out (.migrationComplete 9) (stPg (pg false true [] (some 0x30)))).pages = [] ∧
    (out (.migrationComplete 9) (stPg (pg false true [] (some 0x30)))).agenda.map (·.ev) = [.statusAnswer id0 (g 3) 0#64] := by decide +kernel
theorem test_eviction_waits : (out (.evictionComplete 9) (stPg (pg true false [1] (some 0x30)))).pages.length = 1 := by decide +kernel
theorem test_leaf_at : leafAt 0x10CBF 0x30 = 0x30C3F ∧ leafAt 0x10C3F 0x400000000 = 0x400000000C7F := by decide
theorem test_page_eviction : (out (.pageEviction 0 0x10000#64 (some 0x400000000)) (stM 0)).pages.map (fun e => (e.2.evict, e.2.frame)) =
    [(true, some 0x400000000)] := by decide +kernel
theorem test_page_retire : (out (.pageRetire 0 0x10000#64) (stM 0)).mem.run 0#8 0x5080 8 = leBytes 8 (0x10C3F + 2 ^ 63) := by decide +kernel
theorem test_partition_create : ((out (.partitionCreate desc1) stPart).part 1).isSome = true ∧
    ((out (.partitionCreate { desc1 with base := 1 }) stPart).part 1).isNone = true := by decide +kernel
theorem test_partition_destroy : ((out (.partitionDestroy 0) { st [] with threads := [] }).part 0).isNone = true ∧
    ((out (.partitionDestroy 0) (st [])).part 0).isSome = true := by decide +kernel

/-! ### The whole machine -/

theorem witness_StepKeepsInvariants : Sound State.reset ∧ Numbered State.reset ∧ isNext (step State.reset) = true ∧ Sound (stM 0) ∧
    Numbered c2 ∧ c2.copies ≠ [] := by
  unfold Sound Numbered; decide +kernel
theorem witness_ComputesOnly : computes (st [(1, 5#64), (2, 7#64)]) (.add h0 (g 3) (g 1) (g 2)) = some (wG false (g 3) [g 1, g 2]) ∧
    (st [(1, 5#64), (2, 7#64)]).th.atPort = false ∧ isNext (exec (.add h0 (g 3) (g 1) (g 2)) (st [(1, 5#64), (2, 7#64)])) = true ∧
    (computes stV (.vfma h0 (g 4) (g 1) (g 2) 3#8 0#3 .s .dyn)).isSome = true := ⟨rfl, rfl, rfl, rfl⟩

/-! ### Terms no encoding holds, and words of the manual -/

/-- One ill-formed term for each check of WellFormed.instr. -/
theorem test_ill_formed : [Instr.waitc h0 0#4 1#16, .ext h0 (g 1) (g 2) false 60#6 4#6, .ins h0 (g 1) (g 2) (g 3) 60#6 4#6,
    .fcvt h0 (g 1) (g 2) .f4 .s .dyn, .fcvt h0 (g 1) (g 2) .s .raw .dyn, .fcvt h0 (g 1) (g 2) .i64 .u8 .dyn, .fsgn h0 (g 1) (g 2) (g 3) .s .neg,
    .vcmp h0 (g 1) (g 2) (g 3) 0#3 .e4 .eq, .vcmp h0 (g 1) (g 2) (g 3) 0#3 .i8 .ord, .vsel h0 (g 1) (g 2) (g 3) 0#3 .f4,
    .vcvt h0 (g 1) (g 2) 0#3 .f4 .s 0#3 .dyn, .vcvt h0 (g 1) (g 2) 0#3 .i8 .i16 0#3 .dyn, .vcvt h0 (g 1) (g 2) 0#3 .s .d 2#3 .dyn,
    .vperm h0 (g 1) (g 2) (g 3) 0#3 .f4, .vbcast h0 (g 1) (g 2) 0#3 .d 8#6, .vext h0 (g 1) (g 2) .s 16#6, .vins h0 (g 1) (g 2) .bf 32#6,
    .viadd h0 (g 1) (g 2) (g 3) 0#3 .s false, .visub h0 (g 1) (g 2) (g 3) 0#3 .raw true, .vimul h0 (g 1) (g 2) (g 3) 0#3 .d,
    .vlog h0 (g 1) (g 2) (g 3) 0#3 .e5 .and, .vsh h0 (g 1) (g 2) (g 3) 0#3 .bf .ll, .vmov h0 (g 1) (g 2) 0#3 .f4,
    .vmask h0 (g 1) (g 2) (g 3) .not, .vfsgn h0 (g 1) (g 2) (g 3) 0#3 .s .abs, .viota h0 (g 1) 0#3 .s, .lds h0 (g 1) (g 2) true .b 0#16,
    .sts h0 (g 1) (g 2) true .b 0#16, .ldd h0 (g 1) (g 2) true .plain .b 0#16, .ldd h0 (g 1) (g 2) false .ar .dw 0#16, .std h0 (g 1) (g 2) false .ar .dw 0#16,
    .vgas h0 (g 1) (g 2) (g 3) 0#3 .f4 0#3, .vscs h0 (g 1) (g 2) (g 3) 0#3 .f4 0#3, .hire h0 (g 3) (g 1) (g 5) (g 6) hr0,
    .hire h0 (g 0) (g 1) (g 5) (g 6) { hr0 with ent := 1#4 }, .hire h0 (g 0) (g 1) (g 5) (g 6) { hr0 with arr := 1#7 },
    .hire h0 (g 0) (g 1) (g 5) (g 6) { hr0 with dfmt := 1#4 }, .hire h0 (g 0) (g 1) (g 5) (g 6) { hr0 with dsp := true, dfmt := 6#4 },
    .batld h0 (g 3) (g 1) (g 8) { bt0 with fmt := 6#4 }, .copy h0 (g 3) (g 1) (g 2) (g 4) { cp0 with ssp := 2#3, sfmt := 6#4 },
    .copyr h0 (g 3) (g 1) (g 2) (g 4) { cp0 with dsp := 3#3, dfmt := 6#4 },
    .copy h0 (g 3) (g 1) (g 2) (g 4) { cp0 with cbn := 1#4 }, .copyr h0 (g 3) (g 1) (g 2) (g 4) { cp0 with port := 1#3 },
    .copy h0 (g 3) (g 1) (g 2) (g 4) { cp0 with ent := 1#4 }, .bndr h0 (g 1) (g 2) 5#3, .bndw h0 (g 1) (g 2) 5#3 false, .tanr h0 (g 1) (g 2) 0#3 false,
    .tanw h0 (g 1) (g 2) 5#3 false, .csrr h0 (g 1) 5#12, .csrw h0 (g 1) (g 2) 5#12, .csrs h0 (g 1) (g 2) 5#12, .csrc h0 (g 1) (g 2) 5#12, .reset,
    .waitEvent 0#32].all (fun i => !WellFormed.instr i) = true := by decide +kernel

/-- The 4-byte slots of an instruction, in order. -/
def slots (xs : List Nat) : Nat := xs.foldr (fun x n => x + 2 ^ 32 * n) 0
/-- Words of the encoding example (15) and of the programs' listings (16, 24). -/
theorem test_words_control : dec (slots [0x02010081, 0x00000003]) = some (.add h0 (g 1) (g 2) (g 3)) ∧
    dec (slots [0x000400E6, 0, 0x12345678]) = some (.movi h0 (g 4) false 0x12345678#32) ∧
    dec (slots [0x00050005, 0]) = some (.br h0 5#24) ∧ dec (slots [0x0000001D, 0]) = some (.exit h0) ∧
    dec (slots [0x00080019, 0x000A0000]) = some (.loopi h0 10#16 8#24) ∧ dec (slots [0x010100DD, 0x00142800]) = some (.cmpi h0 (g 1) (g 1) .geu 20#16) ∧
    dec (slots [0x00040405, 0]) = some (.br ⟨1#4, false⟩ 4#24) ∧ dec (slots [0x010300E1, 0x00000802]) = some (.sel h0 (g 3) (g 1) (g 2) 1#4 false) ∧
    dec (slots [0x010400F5, 0x00810000]) = some (.ext h0 (g 4) (g 1) false 1#6 2#6) ∧ dec (slots [0x0780_0041, 0xD]) = some (.send h0 (g 0x80) (g 7) (g 13)) ∧
    dec (slots [0x0507_0036, 0x80, 0x16C]) = some (.spawn h0 (g 7) (g 5) (g 0x80) 0x16C#32) ∧ dec (slots [0x0000_0031, 0x800]) = some (.eretNext h0) ∧
    dec (slots [0x0101_00F5, 0x0100_0000 + 0x800]) = some (.ext h0 (g 1) (g 1) true 0#6 4#6) := by decide +kernel
/-- Words of the programs of 17, 18 and 25. -/
theorem test_words_vector : dec (slots [0x0001_00EE, 0, 0x78]) = some (.lea h0 (g 1) 0x78#32) ∧
    dec (slots [0x0102_01D9, 0x0040_0000]) = some (.vldd h0 (g 2) (g 1) false 0#3 64#16) ∧
    dec (slots [0x0101_01D9, 0x0000_8000]) = some (.vldd h0 (g 1) (g 1) true 0#3 0#16) ∧
    dec (slots [0x0103_014E, 1, 2]) = some (.vfma h0 (g 3) (g 1) (g 1) 2#8 0#3 .d .dyn) ∧
    dec (slots [0x0304_016D, 0]) = some (.vred h0 (g 4) (g 3) 0#3 .d .dyn) ∧ dec (slots [0x0405_0169, 0x0001_0000]) = some (.vcvt h0 (g 5) (g 4) 0#3 .s .d 0#3 .dyn) ∧
    dec (slots [0x0502_017D, 0x0001_0000]) = some (.vext h0 (g 2) (g 5) .s 0#6) ∧ dec (slots [0x0304_0145, 1]) = some (.vsub h0 (g 4) (g 3) (g 1) 0#3 .d .dyn) ∧
    dec (slots [0x0203_0209, 0x018C_0002]) = some (.vgas h0 (g 3) (g 2) (g 2) 0#3 .u64 3#3) ∧
    dec (slots [0x053C_020D, 0x0003_0004]) = some (.vscs h0 (g 5) (g 4) (g 3) 0#3 .u64 3#3) ∧
    dec (slots [0x0503_01F1, 0x0001_1806]) = some (.amos h0 (g 3) (g 5) (g 6) true .add) ∧
    dec (slots [0x0504_01F5, 0x0080_1803]) = some (.cass h0 (g 4) (g 5) (g 3) (g 0x80) true) := by decide +kernel
/-- Words of the programs of 22 to 24 and 27. -/
theorem test_words_engines :
    dec (slots [0x0400_0283, 0x0006_0005, 0x0030_0040, 0x2000_0000]) = some (.hire h0 (g 0) (g 4) (g 5) (g 6) ⟨0x4000#17, 0#14, false, 0#4, false, 0#4, 1#2, .rn, 0#3, .at, 1#7⟩) ∧
    dec (slots [0x0300_0A83, 0x0004_0007, 0x2810_6000, 0x6000_0000]) = some (.hire ⟨2#4, false⟩ (g 0) (g 3) (g 7) (g 4) ⟨0xC000#17, 0#14, false, 2#4, true, 0#4, 0#2, .rn, 0#3, .bk, 0#7⟩) ∧
    dec (slots [0x0805_0287, 9, 0, 0x007E_6010]) = some (.batld h0 (g 5) (g 8) (g 9) ⟨63#15, 3#4, 0#2, 0#3, false, 1#3⟩) ∧
    dec (slots [0x0009_028F, 0x0005_0001, 0, 0x0400_0000]) = some (.copy h0 (g 9) (g 0) (g 1) (g 5) ⟨0#3, 1#3, 0#4, 0#4, .dyn, 0#3, 0#4, 0#3, false, 0#4, 0#2⟩) ∧
    dec (slots [0x0609_0295, 0]) = some (.book h0 (g 9) (g 6)) ∧ dec (slots [0x0080_0299, 0]) = some (.unbook h0 (g 0x80) (g 0)) ∧
    dec (slots [0x0980_0029, 0x1800]) = some (.waiteBk h0 (g 0x80) (g 9)) ∧ dec (slots [0x000B_0029, 0x0001_0801]) = some (.waiteL h0 (g 11) (g 1) 1#16) ∧
    dec (slots [0x0780_0305, 0x0013_0000]) = some (.csrw h0 (g 0x80) (g 7) 0x013#12) ∧ dec (slots [0x0C00_0249, 0xA]) = some (.tset h0 (g 12) (g 10)) ∧
    dec (slots [0x0500_0645, 0]) = some (.tdec ⟨1#4, false⟩ (g 5)) ∧ dec (slots [0x8000_01C5, 0x1008_1801]) = some (.sts h0 (g 0x80) (g 1) false .dw 0x1008#16) ∧
    dec (slots [0x0000_0025, 0x1000]) = some (.waitc h0 2#4 0#16) ∧ dec (slots [0x8092_00B9, 0x0001_0000]) = some (.ori h0 (g 0x92) (g 0x80) 1#16) := by decide +kernel
/-- mcast g7, g2, g2, g3, l1, #0, #16: op 0xC8, len 128 bits, len 16 in bits 116:106, lnum 1 in 105:103 (R327). -/
theorem test_word_mcast : dec (0b11 + 0xC8 * 4 + 7 * 2 ^ 16 + 2 * 2 ^ 24 + 2 * 2 ^ 32 + 3 * 2 ^ 48 + 16 * 2 ^ 106 + 1 * 2 ^ 103) =
    some (.mcast h0 (g 7) (g 2) (g 2) (g 3) ⟨0#11, 16#11, 1#3⟩) := by decide +kernel

end Sys2Proof.Tests
end

section
/-!
What reading operands and writing a result leave as it was: one relation for reads, one for both, and the lemmas
that read the fields of a state through them.
-/
namespace Sys2Proof.Machine

/-! ### What operands touch -/

/-- A machine with everything that reading operands or writing a result may change erased, the cores and threads among it. -/
def State.bare (s : State) : State := { s with agenda := [], free := 0, threads := [], cores := [], kernels := [] }
/-- A core with what operands may change erased: shared registers, queues, credits. -/
def Core.bare (c : Core) : Core := { c with shared := [], sregErr := [], inq := [], credUsed := [], reserve := 0 }
/-- A thread with what reading operands may change erased: full bits, the mailbox and the books of the instruction in hand. -/
def Thread.unread (t : Thread) : Thread := { t with gEmpty := [], taken := [], mailbox := [], vals := [] }
/-- A thread with what reading operands or writing a scalar result may change erased. -/
def Thread.bare (t : Thread) : Thread := { t.unread with g := [], gt := [], regErr := [] }

/-- Operands are read and a scalar result is written from s to t: all but what these touch is as it was. -/
structure Operated (s t : State) : Prop where
  state : t.bare = s.bare
  thread : t.th.bare = s.th.bare
  core : ∀ c, (t.core c).bare = (s.core c).bare

/-- Operands are read from s to t. -/
structure OperandsRead (s t : State) : Prop where
  state : t.bare = s.bare
  thread : t.th.unread = s.th.unread
  core : ∀ c, (t.core c).bare = (s.core c).bare

theorem OperandsRead.refl (s : State) : OperandsRead s s := ⟨rfl, rfl, fun _ => rfl⟩
theorem OperandsRead.trans {s t u : State} (h : OperandsRead s t) (g : OperandsRead t u) : OperandsRead s u :=
  ⟨g.state.trans h.state, g.thread.trans h.thread, fun c => (g.core c).trans (h.core c)⟩
theorem Operated.refl (s : State) : Operated s s := ⟨rfl, rfl, fun _ => rfl⟩
theorem Operated.trans {s t u : State} (h : Operated s t) (g : Operated t u) : Operated s u :=
  ⟨g.state.trans h.state, g.thread.trans h.thread, fun c => (g.core c).trans (h.core c)⟩
theorem OperandsRead.operated {s t : State} (h : OperandsRead s t) : Operated s t :=
  ⟨h.state, congrArg (fun t : Thread => { t with g := [], gt := [], regErr := [] }) h.thread, h.core⟩

/-! ### The fields of a machine whose operands have been read and written -/

section
variable {s t : State} (h : Operated s t)
include h
theorem Operated.cur : t.cur = s.cur := (congrArg (fun u : State => u.cur) h.state :)
theorem Operated.tick : t.tick = s.tick := (congrArg (fun u : State => u.tick) h.state :)
theorem Operated.mem : t.mem = s.mem := (congrArg (fun u : State => u.mem) h.state :)
theorem Operated.hostMem : t.hostMem = s.hostMem := (congrArg (fun u : State => u.hostMem) h.state :)
theorem Operated.peerMem : t.peerMem = s.peerMem := (congrArg (fun u : State => u.peerMem) h.state :)
theorem Operated.isGable (c : Nat) : t.isGable c = s.isGable c := (congrArg (fun u : State => u.isGable c) h.state :)
theorem Operated.atPort : t.th.atPort = s.th.atPort := (congrArg (fun t : Thread => t.atPort) h.thread :)
theorem Operated.thCore : t.th.core = s.th.core := (congrArg (fun t : Thread => t.core) h.thread :)
theorem Operated.mode : t.th.mode = s.th.mode := (congrArg (fun t : Thread => t.mode) h.thread :)
theorem Operated.k : t.th.k = s.th.k := (congrArg (fun t : Thread => t.k) h.thread :)
theorem Operated.sel : t.th.sel = s.th.sel := (congrArg (fun t : Thread => t.sel) h.thread :)
theorem Operated.tstride : t.th.tstride = s.th.tstride := (congrArg (fun t : Thread => t.tstride) h.thread :)
theorem Operated.outSt : t.th.outSt = s.th.outSt := (congrArg (fun t : Thread => t.outSt) h.thread :)
theorem Operated.sp (c : Nat) : (t.core c).sp = (s.core c).sp := (congrArg (fun c : Core => c.sp) (h.core c) :)
theorem Operated.code (c : Nat) : (t.core c).code = (s.core c).code := (congrArg (fun c : Core => c.code) (h.core c) :)
theorem Operated.spB (c o : Nat) : (t.core c).spB o = (s.core c).spB o := (congrArg (fun c : Core => c.spB o) (h.core c) :)
theorem Operated.stencil (c : Nat) : (t.core c).stencil = (s.core c).stencil := (congrArg (fun c : Core => c.stencil) (h.core c) :)
theorem Operated.softErr (c : Nat) : (t.core c).softErr = (s.core c).softErr := (congrArg (fun c : Core => c.softErr) (h.core c) :)
theorem Operated.logOf (c : Nat) : t.logOf c = s.logOf c := (congrArg (fun c : Core => c.lcore) (h.core c) :)

theorem Operated.byteAt (m : Space) (a : Nat) : t.byteAt m a = s.byteAt m a := by
  cases m <;> simp only [State.byteAt, h.mem, h.hostMem, h.peerMem, h.sp, h.code]
end

/-- The tangents of the registers stay where operands are read. -/
theorem OperandsRead.gT {s t : State} (h : OperandsRead s t) (j i : Nat) : t.th.gT j i = s.th.gT j i :=
  (congrArg (fun t : Thread => t.gT j i) h.thread :)

/-! ### The steps operands are read and written with -/

/-- Only the agenda, the free values and the traffic of the kernels change. -/
theorem OperandsRead.of_threads {s t : State} (h : t.bare = s.bare) (ht : t.threads = s.threads) (hc : t.cores = s.cores) :
    OperandsRead s t := by
  have hcur : t.cur = s.cur := (congrArg (fun u : State => u.cur) h :)
  exact ⟨h, by simp only [State.th, State.thr, hcur, ht], fun c => by simp only [State.core, hc]⟩

section
variable {s u : State} (h : OperandsRead s u)
include h
/-- The thread in hand changes in what reading may change. -/
theorem OperandsRead.modTh {f : Thread → Thread} (hf : ∀ t, (f t).unread = t.unread := by intro; rfl) : OperandsRead s (u.modTh f) :=
  h.trans ⟨rfl, by rw [State.th_modTh, hf], fun _ => rfl⟩
/-- A core changes in what operands may change. -/
theorem OperandsRead.modCore {c : Nat} {f : Core → Core} (hf : ∀ x, (f x).bare = x.bare := by intro; rfl) :
    OperandsRead s (u.modCore c f) := by
  refine h.trans ⟨rfl, rfl, fun d => ?_⟩
  rw [State.modCore_eq, State.core_setCore]
  split
  · next hd => rw [hd, hf]
  · rfl
theorem OperandsRead.post (e : Instr) (ch d : Nat) : OperandsRead s (u.post e ch d) := h.trans (.of_threads rfl rfl rfl)
theorem OperandsRead.postOnce (e : Instr) : OperandsRead s (u.postOnce e) := by
  unfold State.postOnce
  split
  · exact h
  · exact h.post ..
theorem OperandsRead.traffic (id : Word32) : OperandsRead s (u.traffic id) := by
  unfold State.traffic
  split
  · exact h
  · split
    · exact h
    · exact h.trans (.of_threads rfl rfl rfl)
theorem OperandsRead.pokeFull (c : Nat) (f : BitVec 8) : OperandsRead s (u.pokeFull c f) :=
  foldl_keeps (P := OperandsRead s) (fun _ _ h => h.postOnce _) _ h
end

/-- The thread in hand changes in what reading and writing may change. -/
theorem Operated.of_modTh (s : State) {f : Thread → Thread} (hf : ∀ t, (f t).bare = t.bare) : Operated s (s.modTh f) :=
  ⟨rfl, by rw [State.th_modTh, hf], fun _ => rfl⟩

/-! ### Queues, and registers written with their tangents -/

theorem Core.settle_bare (c : Core) (d : Nat) : (c.settle d).bare = c.bare := by
  unfold Core.settle
  dsimp only
  split <;> rfl

theorem putGT_eq (t : Thread) (i : Nat) (ts : List Word) : ∃ gt, putGT t i ts = { t with gt := gt } := by
  unfold putGT
  generalize List.range t.k = js
  induction js generalizing t with
  | nil => exact ⟨_, rfl⟩
  | cons j js ih => exact (ih _).imp fun _ h => h

/-! ### Reading -/

theorem regCheck_ok {vec : Bool} {f : BitVec 8} {s t : State} (h : regCheck vec f s = .ok ((), t)) : t = s := by
  simp only [regCheck, M.bind_run, M.get_run] at h
  split at h <;> cases h
  rfl

theorem anchor_ok {s t : State} (h : anchor s = .ok ((), t)) : t = s := by
  simp only [anchor, M.bind_run, M.get_run] at h
  split at h <;> cases h
  rfl

theorem plainShared_read {x : Shared} {v : Word} {s t : State} (h : plainShared x s = .ok (v, t)) : OperandsRead s t := by
  simp only [plainShared, recentOr, M.bind_run, M.get_run, M.ite_run, M.pure_run, M.set_run, State.draw] at h
  split at h <;> cases h
  · exact .refl s
  · exact .of_threads rfl rfl rfl

/-- Reading a scalar operand. -/
theorem readS_read {f : Fld} {x : Word} {s t : State} (h : readS f s = .ok (x, t)) : OperandsRead s t := by
  unfold readS at h
  simp only [M.bind_run] at h
  split at h
  case h_2 => cases h
  next s' hr =>
  cases regCheck_ok hr
  simp only [M.get_run, M.ite_run] at h
  split at h
  · -- a g-register
    split at h
    · cases h
    · simp only [M.bind_run, modTh_run, take, M.pure_run] at h
      split at h <;> cases h
      · exact ((OperandsRead.refl s).modTh).modTh
      · exact .refl s
  · split at h
    · cases h; exact .refl s
    · split at h
      · -- the inbound queue
        cases hq : ((s.core s.th.core).queue s.th.up).items with
        | nil => rw [hq] at h; cases h
        | cons y ys =>
          rw [hq] at h
          simp only [M.bind_run, modCoreM_run, take, modTh_run, M.pure_run] at h
          cases h
          exact ((OperandsRead.refl s).modCore (by exact fun _ => Core.settle_bare _ _)).modTh
      · split at h
        · -- the mailbox
          simp only [M.bind_run] at h
          split at h
          case h_2 => cases h
          next s' ha =>
          cases anchor_ok ha
          cases hm : s.th.mailbox with
          | nil => rw [hm] at h; cases h
          | cons y ys =>
            rw [hm] at h
            simp only [M.bind_run, take, modTh_run, M.pure_run] at h
            cases h
            exact ((OperandsRead.refl s).modTh).modTh
        · split at h
          · cases h; exact .refl s
          · -- a shared register
            split at h
            · split at h
              · cases h
              · simp only [M.bind_run, modCoreM_run, M.modify_run, take, modTh_run, M.pure_run] at h
                cases h
                exact (((OperandsRead.refl s).modCore).pokeFull ..).modTh
            · exact plainShared_read h

/-- Reading scalar operands in order. -/
theorem readAll_read {fs : List Fld} {xs : List Word} {s t : State} (h : readAll fs s = .ok (xs, t)) : OperandsRead s t := by
  induction fs generalizing s xs with
  | nil => cases h; exact .refl _
  | cons f r ih =>
    simp only [readAll, M.bind_run] at h
    split at h
    case h_2 => cases h
    next x u hx =>
    split at h
    case h_2 => cases h
    next ys v hy =>
    cases h
    exact (readS_read hx).trans (ih hy)

/-- Reading operands that are captured for a proxy access. -/
theorem readOps_read {fs : List Fld} {xs : List Word} {s t : State} (h : readOps fs s = .ok (xs, t)) : OperandsRead s t := by
  simp only [readOps, M.bind_run, getTh_run, M.ite_run, M.pure_run, modTh_run] at h
  split at h
  · cases h; exact .refl s
  · split at h
    case h_2 => cases h
    next ys u hy =>
    cases h
    exact (readAll_read hy).modTh

/-! ### Writing -/

/-- Writing a scalar result with its tangents. -/
theorem writeST_operated {f : Fld} {x : Word} {ts : List Word} {s t : State} (h : writeST f x ts s = .ok ((), t)) :
    Operated s t := by
  unfold writeST at h
  simp only [M.bind_run, M.get_run, M.ite_run] at h
  split at h
  · -- a g-register
    split at h
    · cases h
    · simp only [modTh_run] at h
      cases h
      refine .of_modTh s fun t => ?_
      obtain ⟨gt, hgt⟩ := putGT_eq ((t.setG f.spec.toNat x).setFull f.spec.toNat true) f.spec.toNat ts
      rw [hgt]
      rfl
  · split at h
    · cases h; exact .refl s
    · split at h
      · -- qout
        split at h
        · cases h
        · simp only [modCoreM_run, M.modify_run] at h
          cases h
          exact ((((OperandsRead.refl s).modCore).post ..).traffic _).operated
      · -- a shared register
        split at h
        · cases h
        · simp only [modCoreM_run, M.modify_run] at h
          cases h
          exact (((OperandsRead.refl s).modCore).pokeFull ..).operated

theorem writeS_operated {f : Fld} {x : Word} {s t : State} (h : writeS f x s = .ok ((), t)) : Operated s t :=
  writeST_operated h

end Sys2Proof.Machine
end

section
/-!
Scalar loads and stores of the own scratchpad (R12, R41, R133, R296).
-/
namespace Sys2Proof.Machine
open Sys2Proof.Claims

/-! ### Lists of accesses -/

/-- Checks of a list that leave the machine as it was answer what each of them answers. -/
theorem forAll_pure {α β : Type} {f : α → M β} {g : α → β} {xs : List α} {s : State}
    (h : ∀ x ∈ xs, f x s = .ok (g x, s)) : forAll f xs s = .ok (xs.map g, s) := by
  induction xs with
  | nil => rfl
  | cons x xs ih =>
    have hr : forAll f xs s = .ok (xs.map g, s) := ih fun y hy => h y (List.mem_cons_of_mem _ hy)
    simp only [forAll, M.bind_run, h x (List.mem_cons_self ..), hr, M.pure_run, List.map_cons]

/-- Updates of a list happen one after another. -/
theorem forAll_update {α : Type} {f : α → M Unit} {g : α → State → State} (h : ∀ x s, f x s = .ok ((), g x s)) (xs : List α)
    (s : State) : ∃ ys, forAll f xs s = .ok (ys, xs.foldl (fun s x => g x s) s) := by
  induction xs generalizing s with
  | nil => exact ⟨_, rfl⟩
  | cons x xs ih =>
    obtain ⟨ys, hy⟩ := ih (g x s)
    exact ⟨() :: ys, by simp only [forAll, M.bind_run, h, hy, M.pure_run, List.foldl_cons]⟩

/-- Accesses that do not overlap, as a relation between the pairs of a list. -/
theorem pairwise_of_apart {n : Nat} {as : List Nat} (h : apart n as) :
    as.Pairwise fun a b => a + n ≤ b ∨ b + n ≤ a := by
  refine List.pairwise_iff_getElem.mpr fun i j hi hj hij => ?_
  have := h i j hij hj
  rwa [List.getD_eq_getElem _ _ hi, List.getD_eq_getElem _ _ hj] at this

section
/- A store of bytes that is written n bytes at a time: read gives the byte at an address, step writes those of one access, and I
is what every step keeps. -/
variable {σ α : Type} {n : Nat} {I : σ → Prop} {read : σ → Nat → Byte} {step : σ → α → σ} {addr : α → Nat} {byte : α → Nat → Byte}
  (hI : ∀ s x, I s → I (step s x))
  (hs : ∀ s x q, I s → read (step s x) q = if addr x ≤ q ∧ q < addr x + n then byte x (q - addr x) else read s q)
include hI hs

/-- A byte that no access covers is as it was. -/
theorem read_foldl_uncovered {xs : List α} {q : Nat} (hq : ¬covers n (xs.map addr) q) {s : σ} (h : I s) :
    read (xs.foldl step s) q = read s q := by
  induction xs generalizing s with
  | nil => rfl
  | cons x xs ih =>
    have hx : ¬(addr x ≤ q ∧ q < addr x + n) := fun h => hq ⟨_, List.mem_cons_self .., h⟩
    have hr : ¬covers n (xs.map addr) q := fun ⟨b, hb, h⟩ => hq ⟨b, List.mem_cons_of_mem _ hb, h⟩
    rw [List.foldl_cons, ih hr (hI s x h), hs s x q h, if_neg hx]

/-- Where no access overlaps a later one each byte is the one its access wrote. -/
theorem read_foldl_apart {xs : List α} (hp : (xs.map addr).Pairwise fun a b => a + n ≤ b ∨ b + n ≤ a) {x : α} (hx : x ∈ xs)
    {i : Nat} (hi : i < n) {s : σ} (h : I s) : read (xs.foldl step s) (addr x + i) = byte x i := by
  induction xs generalizing s with
  | nil => cases hx
  | cons y ys ih =>
    obtain ⟨hy, hr⟩ := List.pairwise_cons.mp hp
    rcases List.mem_cons.mp hx with rfl | hx
    · have hc : ¬covers n (ys.map addr) (addr x + i) := by
        rintro ⟨b, hb, h1, h2⟩
        rcases hy b hb with h | h <;> omega
      rw [List.foldl_cons, read_foldl_uncovered hI hs hc (hI s x h), hs s x _ h, if_pos ⟨by omega, by omega⟩,
        Nat.add_sub_cancel_left]
    · exact ih hr hx (hI s y h)
end

/-- Bytes that are those of a number have its value. -/
theorem leNat_of_bytes {n w : Nat} {f : Nat → Byte} (h : ∀ i, i < n → f i = (leBytes n w).getD i 0#8) :
    leNat ((List.range n).map f) = w % 2 ^ (8 * n) := by
  rw [← leNat_leBytes]
  congr 1
  refine List.ext_getElem (by simp [leBytes_length]) fun i h1 h2 => ?_
  have hi : i < n := by simpa using h1
  rw [List.getElem_map, List.getElem_range, h i hi, List.getD_eq_getElem]

end Sys2Proof.Machine

namespace Sys2Proof.Tbl
/-- A run, byte by byte. -/
theorem run_eq_map {α : Type} (t : Tbl α) (d : α) (k n : Nat) : t.run d k n = (List.range n).map fun i => t.lookD (k + i) d := by
  refine List.ext_getElem (by simp) fun i h1 h2 => ?_
  have hi : i < n := by simpa using h2
  rw [List.getElem_map, List.getElem_range, ← getD_run t d k n i hi, List.getD_eq_getElem]
end Sys2Proof.Tbl

namespace Sys2Proof.Machine
open Sys2Proof.Claims

/-! ### Planes of a typed access (R133) -/

/-- The tangents whose planes an access moves. -/
def State.carried (s : State) (typed : Bool) : List Nat := if typed then s.th.sel else []

theorem Operated.carried {s t : State} (h : Operated s t) (typed : Bool) : t.carried typed = s.carried typed := by
  simp only [State.carried, h.sel]
theorem Operated.planeVAs {s t : State} (h : Operated s t) (typed : Bool) (va : Word) :
    planeVAs t typed va = planeVAs s typed va := by
  simp only [Claims.planeVAs, h.sel, h.tstride]

/-- The carried planes with their displacements. -/
def State.offsets (s : State) (typed : Bool) : List (Nat × Word) :=
  (s.carried typed).map fun j => (j, BitVec.ofNat 64 (j + 1) * s.th.tstride)

theorem planesOf_ok {s : State} {typed : Bool} (h : StrideOk s typed) : planesOf typed s = .ok (s.offsets typed, s) := by
  have hc : ¬(!(s.carried typed).isEmpty && decide (s.th.tstride = 0#64)) = true := by
    cases typed with
    | false => simp [State.carried]
    | true =>
      by_cases he : s.th.sel = []
      · simp [State.carried, he]
      · simp [h rfl he]
  simp only [planesOf, M.bind_run, getTh_run, M.ite_run, M.pure_run]
  exact if_neg hc

theorem offsets_planes (s : State) (typed : Bool) : (s.offsets typed).map (·.1) = s.carried typed := by
  simp [State.offsets, Function.comp_def]
/-- The addresses of the planes of an access. -/
theorem offsets_vas (s : State) (typed : Bool) (va : Word) :
    va :: (s.offsets typed).map (fun p => va + p.2) = planeVAs s typed va := by
  simp [State.offsets, planeVAs, State.carried]
/-- What a store writes at its planes: the register and its tangents. -/
theorem offsets_vals (s : State) (typed : Bool) (b : Fld) (y : Word) :
    y :: (s.offsets typed).map (fun p => s.th.tanS b p.1) = storeVals s typed b y := by
  simp [State.offsets, storeVals, State.carried, Thread.tanS, isG]

theorem OperandsRead.tanS {s t : State} (h : OperandsRead s t) (b : Fld) (j : Nat) : t.th.tanS b j = s.th.tanS b j := by
  simp only [Thread.tanS, h.gT]

/-- The tangents a load writes: those of the planes it read, the others +0. -/
theorem eq_planeTans {s : State} {typed : Bool} {ts xs : List Word} (hl : ts.length = s.th.k)
    (ht : ∀ j, j < s.th.k → ts.getD j 0#64 = ((s.carried typed).idxOf? j).elim 0#64 fun i => xs.getD i 0#64) :
    planeTans (s.offsets typed) s.th.k xs = ts := by
  refine List.ext_getElem (by simp [planeTans, hl]) fun j h1 h2 => ?_
  have h := ht j (hl ▸ h2)
  rw [List.getD_eq_getElem _ _ h2] at h
  simp only [planeTans, List.getElem_map, List.getElem_range, offsets_planes, h]
  cases (s.carried typed).idxOf? j <;> rfl

theorem mem_carried {s : State} {typed : Bool} {j : Nat} : j ∈ s.carried typed ↔ typed = true ∧ j ∈ s.th.sel := by
  cases typed <;> simp [State.carried]

theorem planeTans_of_claim {s : State} {typed : Bool} {val : Word → Word} {va : Word} {ts : List Word}
    (h : PlaneTans s typed val va ts) :
    planeTans (s.offsets typed) s.th.k ((planeVAs s typed va).map val).tail = ts := by
  refine eq_planeTans h.1 fun j hj => ?_
  rw [h.2 j hj]
  cases hi : (s.carried typed).idxOf? j with
  | none => exact if_neg (mt mem_carried.mpr (List.idxOf?_eq_none_iff.mp hi))
  | some i =>
    obtain ⟨hlt, hj, -⟩ := List.idxOf?_eq_some_iff.mp hi
    rw [if_pos (mem_carried.mp (hj ▸ List.getElem_mem hlt)), ← offsets_vas]
    simp [State.offsets, hlt, hj]

/-! ### The checks of an access to the scratchpad (R202, R295) -/

theorem Operated.spOk {s t : State} (h : Operated s t) {v : Word} {n align : Nat} {w : Bool} (hs : SpOk s v n align w) :
    SpOk t v n align w where
  aligned := hs.aligned
  inside := hs.inside
  free := by rw [h.thCore, h.stencil]; exact hs.free
  sound := by rw [h.thCore, h.softErr]; exact hs.sound

theorem spPlace_ok {s : State} {v : Word} {n align : Nat} {w : Bool} (h : SpOk s v n align w) :
    spPlace v n align w s = .ok (v.toNat, s) := by
  have hin : ¬Config.spBytes < v.toNat + n := Nat.not_lt.mpr h.inside
  simp only [spPlace, M.ite_run, M.bind_run, M.get_run, h.aligned, h.free, ne_eq, not_true, if_false, if_neg hin, M.pure_run]

theorem softCheck_ok {s : State} {v : Word} {n align : Nat} (h : SpOk s v n align false) :
    softCheck v.toNat n s = .ok ((), s) := by
  have hn : (s.core s.th.core).softErr.find? (fun l => decide (l * 64 < v.toNat + n) && decide (v.toNat < l * 64 + 64)) = none :=
    List.find?_eq_none.mpr fun l hl => by simpa using h.sound rfl l hl
  simp only [softCheck, M.bind_run, M.get_run, hn, M.pure_run]

theorem spPlanes_ok {s : State} {vas : List Word} {n align : Nat} {w : Bool} (h : ∀ v ∈ vas, SpOk s v n align w) :
    spPlanes n align w vas s = .ok (vas.map (·.toNat), s) := by
  have hp := forAll_pure (f := fun x => spPlace x n align w) fun v hv => spPlace_ok (h v hv)
  cases w with
  | true => simp only [spPlanes, M.bind_run, hp, Bool.not_true, Bool.false_eq_true, if_false, M.pure_run]
  | false =>
    have hc : forAll (fun o => softCheck o n) (vas.map (·.toNat)) s = .ok ((vas.map (·.toNat)).map fun _ => (), s) :=
      forAll_pure fun o ho => by
        obtain ⟨v, hv, rfl⟩ := List.mem_map.mp ho
        exact softCheck_ok (h v hv)
    simp only [spPlanes, M.bind_run, hp, hc, Bool.not_false, if_true, M.pure_run]

theorem bytesOf_eq (z : Sz) : szBytes z = bytesOf z := by cases z <;> rfl

/-! ### Loads -/

theorem valueAt_sp (s : State) (c o n : Nat) : (s.core c).spNat o n = valueAt s (.sp c) o n := by
  simp only [Core.spNat, Core.spRead, Tbl.run_eq_map, valueAt, State.byteAt]

theorem Operated.valueAt {s t : State} (h : Operated s t) (m : Space) (a n : Nat) : valueAt t m a n = valueAt s m a n := by
  simp only [Claims.valueAt, h.byteAt]


/-- Each plane of a load is the number its bytes make up. -/
theorem spGets_ok (s : State) (n : Nat) (vas : List Word) :
    forAll (fun o => do return BitVec.ofNat 64 (← spGet o n).1) (vas.map (·.toNat)) s =
      .ok (vas.map fun v => BitVec.ofNat 64 (valueAt s (.sp s.th.core) v.toNat n), s) := by
  rw [forAll_pure (g := fun o => BitVec.ofNat 64 (valueAt s (.sp s.th.core) o n))]
  · simp only [List.map_map, Function.comp_def]
  · intro o _
    simp only [spGet, M.bind_run, M.get_run, M.pure_run, valueAt_sp]

theorem scratchpadLoads : ScratchpadLoads := by
  intro s s₁ s₂ h d a typed z imm x ts hi hf hst hr va val hok hts hw
  have hrd := readS_read hr
  have ho := hrd.operated
  have hpl : spPlanes (szBytes z) (szBytes z) false (planeVAs s typed va) s₁ = .ok ((planeVAs s typed va).map (·.toNat), s₁) :=
    spPlanes_ok fun v hv => bytesOf_eq z ▸ ho.spOk (hok v hv)
  have hg : forAll (fun o => do return BitVec.ofNat 64 (← spGet o (szBytes z)).1) ((planeVAs s typed va).map (·.toNat)) s₁ =
      .ok ((planeVAs s typed va).map val, s₁) := by
    rw [spGets_ok]
    simp only [ho.thCore, ho.valueAt, bytesOf_eq]
    rfl
  have h0 : ((planeVAs s typed va).map val).getD 0 0#64 = val va := rfl
  refine runU_done hi ?_ (by decide)
  simp only [M.bind_run, check1_ok hf, planesOf_ok hst, hr, addrOf, sext]
  simp only [show x + imm.signExtend 64 = va from rfl, offsets_vas, hpl, hg, getTh_run, h0, ho.k, planeTans_of_claim hts, hw, M.pure_run]

/-! ### Stores -/

/-- A part of a line is written with bound 0. -/
abbrev Core.spPart (n : Nat) (c : Core) (p : Nat × Word) : Core := c.spPut p.1 n (p.2.toNat % 2 ^ (8 * n)) 0#32 false

/-- A byte of a part. -/
def partByte (n : Nat) (p : Nat × Word) (i : Nat) : Byte := (leBytes n (p.2.toNat % 2 ^ (8 * n))).getD i 0#8

theorem Core.spPart_byte (n : Nat) (c : Core) (p : Nat × Word) (q : Nat) : (c.spPart n p).sp.lookD q 0#8 =
    if p.1 ≤ q ∧ q < p.1 + n then partByte n p (q - p.1) else c.sp.lookD q 0#8 := by
  have := spWrite_byte c p.1 (leBytes n (p.2.toNat % 2 ^ (8 * n))) q
  rwa [leBytes_length] at this

/-- The larger of a line's bound and 0 is the line's. -/
theorem Core.spPart_spB (n : Nat) (c : Core) (p : Nat × Word) (o : Nat) : (c.spPart n p).spB o = c.spB o := by
  have hm : bMax (c.spB p.1) 0#32 = c.spB p.1 := by
    unfold bMax
    split
    · next h => exact (BitVec.eq_of_toNat_eq (Nat.le_zero.mp h)).symm
    · rfl
  have := Core.spB_setSpB (c.spWrite p.1 (leBytes n (p.2.toNat % 2 ^ (8 * n)))) p.1 o (c.spB p.1)
  have hp : (c.spPart n p) = (c.spWrite p.1 (leBytes n (p.2.toNat % 2 ^ (8 * n)))).setSpB p.1 (bMax (c.spB p.1) 0#32) := rfl
  rw [hp, hm, this]
  split
  · next h => simp only [Core.spB, h]
  · rfl

/-- The parts a store writes, on the core of the thread in hand. -/
def State.spParts (s : State) (n : Nat) (ps : List (Nat × Word)) : State :=
  ps.foldl (fun s p => s.modCore s.th.core fun c => c.spPart n p) s

/-- Parts change bytes and bounds of a core. -/
theorem Core.spParts_eq (n : Nat) (c : Core) (ps : List (Nat × Word)) :
    ∃ sp b, ps.foldl (Core.spPart n) c = { c with sp := sp, spBound := b } := by
  induction ps generalizing c with
  | nil => exact ⟨_, _, rfl⟩
  | cons p ps ih =>
    obtain ⟨sp, b, h⟩ := ih (c.spPart n p)
    exact ⟨sp, b, h⟩

theorem Core.spParts_spB (n : Nat) (c : Core) (ps : List (Nat × Word)) (o : Nat) :
    (ps.foldl (Core.spPart n) c).spB o = c.spB o := by
  induction ps generalizing c with
  | nil => rfl
  | cons p ps ih => rw [List.foldl_cons, ih, Core.spPart_spB]

section
variable (s : State) (n : Nat) (ps : List (Nat × Word))

theorem State.spParts_eq : ∃ cs, s.spParts n ps = { s with cores := cs } := by
  induction ps generalizing s with
  | nil => exact ⟨_, rfl⟩
  | cons p ps ih =>
    obtain ⟨cs, h⟩ := ih (s.modCore s.th.core fun c => c.spPart n p)
    exact ⟨cs, h⟩

theorem State.spParts_th : (s.spParts n ps).th = s.th := by
  obtain ⟨cs, h⟩ := s.spParts_eq n ps
  rw [h]
  rfl

/-- Of all cores the own one takes the parts. -/
theorem State.spParts_core (c : Nat) :
    (s.spParts n ps).core c = if c = s.th.core then ps.foldl (Core.spPart n) (s.core c) else s.core c := by
  induction ps generalizing s with
  | nil => exact (ite_self _).symm
  | cons p ps ih =>
    have hp : s.spParts n (p :: ps) = (s.setCore s.th.core ((s.core s.th.core).spPart n p)).spParts n ps := rfl
    rw [hp, ih, State.th_setCore, State.core_setCore]
    split
    · next h => rw [h, List.foldl_cons]
    · rfl

/-- No byte beside those of the own scratchpad that the parts cover changes. -/
theorem State.spParts_byteAt {m : Space} {q : Nat} (hq : ¬(m = .sp s.th.core ∧ covers n (ps.map (·.1)) q)) :
    (s.spParts n ps).byteAt m q = s.byteAt m q := by
  cases m with
  | device | host | peer =>
    obtain ⟨cs, h⟩ := s.spParts_eq n ps
    rw [h]
    rfl
  | code c =>
    simp only [State.byteAt, State.spParts_core]
    split
    · obtain ⟨sp, b, h⟩ := Core.spParts_eq n (s.core c) ps
      rw [h]
    · rfl
  | sp c =>
    simp only [State.byteAt, State.spParts_core]
    split
    · next h =>
      exact read_foldl_uncovered (I := fun _ => True) (read := fun (c : Core) q => c.sp.lookD q 0#8) (byte := partByte n)
        (fun _ _ h => h) (fun c p q _ => Core.spPart_byte n c p q) (fun hc => hq ⟨by rw [h], hc⟩) trivial
    · rfl

/-- Each part holds what was written where none overlaps a later one. -/
theorem State.spParts_value (hp : apart n (ps.map (·.1))) {p : Nat × Word} (hm : p ∈ ps) :
    valueAt (s.spParts n ps) (.sp s.th.core) p.1 n = p.2.toNat % 2 ^ (8 * n) := by
  have hv := leNat_of_bytes (n := n) (w := p.2.toNat % 2 ^ (8 * n))
    (f := fun i => (s.spParts n ps).byteAt (.sp s.th.core) (p.1 + i)) fun i hi => by
      simp only [State.byteAt, State.spParts_core, if_true]
      exact read_foldl_apart (I := fun _ => True) (read := fun (c : Core) q => c.sp.lookD q 0#8) (byte := partByte n)
        (fun _ _ h => h) (fun c p q _ => Core.spPart_byte n c p q) (pairwise_of_apart hp) hm hi trivial
  rw [valueAt, hv, Nat.mod_mod]
end

/-- What the completion of an instruction leaves of memory. -/
theorem State.finish_fall_byteAt {s : State} (hp : s.th.atPort = false) (m : Space) (q : Nat) :
    (s.finish .fall).byteAt m q = s.byteAt m q := (s.finish_fall_rest hp).byteAt m q

theorem State.finish_fall_th_rest {s : State} (hp : s.th.atPort = false) : (s.finish .fall).th.rest = s.th.rest := by
  obtain ⟨pc, m, ls, h⟩ := s.finish_fall_th hp
  rw [h]
  rfl

theorem readAll_pair {a b : Fld} {x y : Word} {s t : State} (h : readAll [a, b] s = .ok ([x, y], t)) :
    ∃ u, readS a s = .ok (x, u) ∧ readS b u = .ok (y, t) := by
  simp only [readAll, M.bind_run, M.pure_run] at h
  split at h
  case h_2 => cases h
  next x' u hx =>
  cases hy : readS b u with
  | error e => rw [hy] at h; cases h
  | ok r =>
    rw [hy] at h
    cases h
    exact ⟨u, hx, hy⟩

/-- A store of the own scratchpad completes with its parts written. -/
theorem exec_sts {s s₁ : State} {h : Head} {a b : Fld} {typed : Bool} {z : Sz} {imm : BitVec 16} {x y : Word}
    (hi : Issues s h) (hf : FieldsOk s [(.rs, a), (.rs, b)]) (hst : StrideOk s typed) (hr : readAll [a, b] s = .ok ([x, y], s₁))
    (hok : ∀ v ∈ planeVAs s typed (x + imm.signExtend 64), SpOk s v (bytesOf z) (bytesOf z) true) :
    exec (.sts h a b typed z imm) s = .next ((s₁.spParts (bytesOf z)
      (((planeVAs s typed (x + imm.signExtend 64)).map (·.toNat)).zip (storeVals s typed b y))).finish .fall) := by
  have hrd := readAll_read hr
  obtain ⟨u, hx, hy⟩ := readAll_pair hr
  rw [← bytesOf_eq] at hok ⊢
  generalize hva : x + imm.signExtend 64 = va at hok
  have hpl : spPlanes (szBytes z) (szBytes z) true (planeVAs s typed va) s₁ = .ok ((planeVAs s typed va).map (·.toNat), s₁) :=
    spPlanes_ok fun v hv => hrd.operated.spOk (hok v hv)
  obtain ⟨ys, hys⟩ := forAll_update (f := fun (p : Nat × Word) => spSet p.1 (szBytes z) (p.2.toNat % 2 ^ (8 * szBytes z)) 0#32 false)
    (fun _ _ => rfl) (((planeVAs s typed va).map (·.toNat)).zip (storeVals s typed b y)) s₁
  refine runU_done hi ?_ (by decide)
  simp only [M.bind_run, check1_ok hf, planesOf_ok hst, hx, hy, getTh_run, addrOf, sext, hva, offsets_vas, hpl, hrd.tanS, offsets_vals,
    hys, M.pure_run]
  rfl

/-- What the completed store leaves: the values at its planes, and everything else as the operands left it. -/
theorem spParts_finished {s s₁ : State} (ho : Operated s s₁) (hport : s.th.atPort = false) (n : Nat) {vas ys : List Word}
    (hlen : ys.length = vas.length) {t : State} (ht : t = (s₁.spParts n ((vas.map (·.toNat)).zip ys)).finish .fall) :
    SameBytesBut s t (fun m q => m = .sp s.th.core ∧ covers n (vas.map (·.toNat)) q) ∧
      (apart n (vas.map (·.toNat)) → ∀ i, i < vas.length →
        valueAt t (.sp s.th.core) (vas.getD i 0#64).toNat n = (ys.getD i 0#64).toNat % 2 ^ (8 * n)) ∧
      (∀ o, (t.core s.th.core).spB o = (s.core s.th.core).spB o) ∧ t.th.rest = s₁.th.rest := by
  have haddr : ((vas.map (·.toNat)).zip ys).map (·.1) = vas.map (·.toNat) := List.map_fst_zip (by simp [hlen])
  have hget : ∀ i, i < vas.length → ((vas.getD i 0#64).toNat, ys.getD i 0#64) ∈ (vas.map (·.toNat)).zip ys := fun i hv =>
    List.mem_iff_getElem.mpr ⟨i, by simp [hlen, hv], by simp [hlen, hv]⟩
  generalize (vas.map (·.toNat)).zip ys = ps at haddr hget ht
  have hport : (s₁.spParts n ps).th.atPort = false := by rw [State.spParts_th, ho.atPort, hport]
  subst ht
  refine ⟨fun m q hq => ?_, fun hap i hv => ?_, fun o => ?_, ?_⟩
  · rw [State.finish_fall_byteAt hport, State.spParts_byteAt _ _ _ (by rwa [ho.thCore, haddr]), ho.byteAt]
  · have := s₁.spParts_value n ps (haddr ▸ hap) (hget i hv)
    rw [ho.thCore] at this
    simpa only [valueAt, State.finish_fall_byteAt hport] using this
  · rw [(State.finish_fall_rest _ hport).core, State.spParts_core, ho.thCore, if_pos rfl, Core.spParts_spB, ho.spB]
  · rw [State.finish_fall_th_rest hport, State.spParts_th]

theorem scratchpadStores : ScratchpadStores := by
  intro s s₁ h a b typed z imm x y hi hf hst hr n vas hok
  have hlen : (storeVals s typed b y).length = vas.length := by simp [vas, storeVals, planeVAs]
  exact ⟨_, exec_sts hi hf hst hr hok, spParts_finished (readAll_read hr).operated hi.own n hlen rfl⟩

/-- Settles O45, by running both instructions over their planes: what a load reads and where a store writes. -/
theorem scratchpadAccess : Obligations.ScratchpadAccess := ⟨scratchpadLoads, scratchpadStores⟩
end Sys2Proof.Machine
end

section
/-!
Accesses to device memory at home on the own core (R67 to R71, R133, R293, R340): what a translation and the reads of a
controller leave of the threads, and the planes of an access brought to their ports.
-/
namespace Sys2Proof.Machine
open Sys2Proof.Claims

/-! ### What memory operations leave of the threads -/

/-- The thread records and the thread in hand are as they were. -/
structure SameThreads (s t : State) : Prop where
  threads : t.threads = s.threads
  cur : t.cur = s.cur

theorem SameThreads.refl (s : State) : SameThreads s s := ⟨rfl, rfl⟩
theorem SameThreads.trans {s t u : State} (h : SameThreads s t) (g : SameThreads t u) : SameThreads s u :=
  ⟨g.threads.trans h.threads, g.cur.trans h.cur⟩
theorem SameThreads.th {s t : State} (h : SameThreads s t) : t.th = s.th := by
  simp only [State.th, State.thr, h.threads, h.cur]

theorem sameThreads_activate (s : State) (pa : Nat) : SameThreads s (s.activate pa) := by
  unfold State.activate
  dsimp only
  split
  · exact .refl s
  · split <;> exact ⟨rfl, rfl⟩

theorem sameThreads_eccRead (s : State) (pa : Nat) : SameThreads s (s.eccRead pa) := by
  unfold State.eccRead
  split
  · exact .refl s
  · dsimp only
    split
    · exact ⟨rfl, rfl⟩
    · split <;> exact ⟨rfl, rfl⟩

theorem sameThreads_lineRead (s : State) (pa : Nat) : SameThreads s (s.lineRead pa) :=
  (sameThreads_eccRead s pa).trans (sameThreads_activate _ pa)

theorem sameThreads_walkRead (s : State) (core part va : Nat) : SameThreads s (s.walkRead core part va) :=
  foldl_rel .refl .trans sameThreads_lineRead _ s

theorem sameThreads_pteOr (s : State) (core a : Nat) (m : Byte) : SameThreads s (s.pteOr core a m) := by
  unfold State.pteOr
  split
  · exact ⟨rfl, rfl⟩
  · have h : SameThreads s (s.dmWrite a [s.mem.lookD a 0#8 ||| m]) := ⟨rfl, rfl⟩
    exact h.trans (sameThreads_activate _ _)

theorem sameThreads_noteWalk (s : State) (core : Nat) (ws : List WalkEnt) : SameThreads s (s.noteWalk core ws) := by
  unfold State.noteWalk
  split
  · exact .refl s
  · exact ⟨rfl, rfl⟩

/-! ### Translation (R68 to R73) -/

/-- The frame of a leaf, and of a run's first entry continued to a page, is a whole number of pages. -/
theorem contigLeaf_frame (s : State) (core : Nat) (l : Leaf) (va : Nat) : (s.contigLeaf core l va).2 % 4096 = 0 := by
  unfold State.contigLeaf
  dsimp only
  split
  · split
    · simp only [pteAddr]; omega
    · simp only [pteAddr]; omega
  · simp only [pteAddr]; omega

/-- The displacement in a leaf agrees with the address in its page. -/
theorem mod_levelBits (v level : Nat) : v % 2 ^ levelBits level % 4096 = v % 4096 :=
  Nat.mod_mod_of_dvd v ⟨2 ^ (9 * (level - 1)), by rw [levelBits, Nat.pow_add]⟩

/-- A translation leaves the threads, and the address it answers has the offset in the page that was asked for. -/
theorem translate_spec (s : State) (core part : Nat) (u : Bool) (va : Word) (a : Acc) :
    SameThreads s (s.translate core part u va a).2 ∧
      ∀ pa, (s.translate core part u va a).1 = .ok pa → pa % 4096 = va.toNat % 4096 := by
  have hv : va.toNat % 2 ^ 48 % 4096 = va.toNat % 4096 := Nat.mod_mod_of_dvd _ ⟨2 ^ 36, by decide⟩
  unfold State.translate
  dsimp only
  split
  · exact ⟨.refl s, fun _ h => by cases h⟩
  · cases (s.core core).tlb.find? _ with
    | some e =>
      dsimp only
      repeat' split
      case isFalse => exact ⟨.refl s, fun pa h => by cases h; omega⟩
      all_goals exact ⟨.refl s, fun _ h => by cases h⟩
    | none =>
      dsimp only
      have hw := sameThreads_walkRead s core part (va.toNat % 2 ^ 48)
      generalize s.walkRead core part (va.toNat % 2 ^ 48) = s' at hw ⊢
      rcases s'.walk core part (va.toNat % 2 ^ 48) with ⟨r, ws⟩
      cases r with
      | error c => exact ⟨hw, fun _ h => by cases h⟩
      | ok l =>
        dsimp only
        have hf := contigLeaf_frame s' core l (va.toNat % 2 ^ 48)
        generalize s'.contigLeaf core l (va.toNat % 2 ^ 48) = r at hf ⊢
        obtain ⟨pte, frame⟩ := r
        dsimp only at hf ⊢
        cases leafCause pte u a with
        | some c => exact ⟨hw, fun _ h => by cases h⟩
        | none =>
          dsimp only
          split
          · split <;> exact ⟨hw, fun _ h => by cases h⟩
          · split
            · exact ⟨hw, fun _ h => by cases h⟩
            · refine ⟨?_, fun pa h => ?_⟩
              · refine SameThreads.trans ?_ (sameThreads_noteWalk _ _ _)
                have h2 (x : Nat) (m : Byte) : SameThreads s (if x = l.pte then s' else s'.pteOr core (l.addr + 1) m) := by
                  split
                  · exact hw
                  · exact hw.trans (sameThreads_pteOr _ _ _ _)
                split <;> exact ⟨(h2 _ _).threads, (h2 _ _).cur⟩
              · cases h
                have := mod_levelBits (va.toNat % 2 ^ 48) l.level
                omega

/-! ### The planes of an access at their ports (R133) -/

section
variable {n : Nat} {acc : Acc}

theorem checked_sameThreads {vas : List Word} {pas : List Nat} {s t : State} (h : Checked n acc s vas pas t) : SameThreads s t := by
  induction vas generalizing s pas with
  | nil => rw [h.2]; exact .refl s
  | cons va r ih =>
    obtain ⟨-, pa, pas', s', -, ht, -, -, hr⟩ := h
    have := (translate_spec s s.th.core s.th.part s.th.user va acc).1
    rw [ht] at this
    exact this.trans (ih hr)

theorem checked_length {vas : List Word} {pas : List Nat} {s t : State} (h : Checked n acc s vas pas t) :
    pas.length = vas.length := by
  induction vas generalizing s pas with
  | nil => rw [h.1]; rfl
  | cons va r ih =>
    obtain ⟨-, pa, pas', s', rfl, -, -, -, hr⟩ := h
    rw [List.length_cons, ih hr, List.length_cons]

/-- The planes lie as their addresses do: aligned. -/
theorem checked_aligned {vas : List Word} {pas : List Nat} {s t : State} (h : Checked n acc s vas pas t) (hn : n ∣ 4096) :
    ∀ pa ∈ pas, pa % n = 0 := by
  induction vas generalizing s pas with
  | nil => rw [h.1]; simp
  | cons va r ih =>
    obtain ⟨hva, pa, pas', s', rfl, ht, -, -, hr⟩ := h
    have hm := (translate_spec s s.th.core s.th.part s.th.user va acc).2 pa (by rw [ht])
    refine List.forall_mem_cons.mpr ⟨?_, ih hr⟩
    rw [← Nat.mod_mod_of_dvd pa hn, hm, Nat.mod_mod_of_dvd _ hn, hva]

theorem linesRead_sameThreads {pas : List Nat} {s t : State} (h : LinesRead acc s pas t) : SameThreads s t := by
  induction pas generalizing s with
  | nil => rw [h]; exact .refl s
  | cons pa r ih => exact (sameThreads_lineRead s pa).trans (ih h.2)

theorem stencilCheck_ok {s : State} {va : Word} {pa : Nat}
    (h : stencilCause (s.core (homeCore pa)).stencil pa n acc.writes = none) : stencilCheck va pa n acc s = .ok ((), s) := by
  simp only [stencilCheck, M.bind_run, M.get_run, h, M.pure_run]

/-- Planes that pass every check of R71, R89 and R293 at home on the own core. -/
theorem checkPlanes_ok {vas : List Word} {pas : List Nat} {s t : State} (h : Checked n acc s vas pas t)
    (hp : s.th.atPort = false) (ps : List (Word × Nat)) : checkPlanes n n acc vas ps none s = .ok (pas, t) := by
  induction vas generalizing s pas ps with
  | nil => rw [h.1, h.2]; rfl
  | cons va r ih =>
    obtain ⟨hva, pa, pas', s', rfl, ht, hh, hst, hr⟩ := h
    have hth : s'.th = s.th := by
      have := (translate_spec s s.th.core s.th.part s.th.user va acc).1.th
      rwa [ht] at this
    have hc : stencilCheck va pa n acc s' = .ok ((), s') := stencilCheck_ok (by rw [hh]; exact hst)
    simp only [checkPlanes, M.bind_run, M.get_run, hp, Bool.false_eq_true, if_false, hva, ne_eq, not_true, ht, M.set_run, hh,
      decide_false, Bool.false_and, Option.isNone_none, if_true, hc, ih hr (hth ▸ hp), M.pure_run]

theorem portRead_ok {s : State} {va : Word} {pa : Nat}
    (h : acc ≠ .side → sbPoison ((s.lineRead pa).dmSb s.th.core pa) = false) : portRead va pa acc s = .ok ((), s.lineRead pa) := by
  have hth : (s.lineRead pa).th = s.th := (sameThreads_lineRead s pa).th
  have hc : (acc != .side && sbPoison ((s.lineRead pa).dmSb s.th.core pa)) = false := by
    by_cases ha : acc = .side
    · simp [ha]
    · simp [h ha]
  simp only [portRead, M.bind_run, M.modify_run, M.get_run, hth, hc, Bool.false_eq_true, if_false, M.pure_run]

theorem readPlanes_ok {vas : List Word} {pas : List Nat} {s t : State} (h : LinesRead acc s pas t) (hp : s.th.atPort = false)
    (hl : pas.length = vas.length) (i : Nat) : readPlanes acc i (vas.zip pas) s = .ok ((), t) := by
  induction vas generalizing s pas i with
  | nil =>
    cases pas with
    | nil => rw [h]; rfl
    | cons _ _ => cases hl
  | cons va r ih =>
    cases pas with
    | nil => cases hl
    | cons pa pas =>
      have hp' : (s.lineRead pa).th.atPort = false := (sameThreads_lineRead s pa).th ▸ hp
      simp only [List.zip_cons_cons, readPlanes, M.bind_run, getTh_run, hp, Bool.false_eq_true, if_false, portRead_ok h.1,
        ih h.2 hp' (Nat.succ.inj hl)]

/-- Planes that reach their ports. -/
theorem reachPlanes_ok {vas : List Word} {pas : List Nat} {s t : State} (h : Reaches n acc s vas pas t)
    (hp : s.th.atPort = false) : reachPlanes n n acc vas s = .ok (pas, t) := by
  obtain ⟨u, hc, hr⟩ := h
  simp only [reachPlanes, M.bind_run, checkPlanes_ok hc hp, M.ite_run, M.pure_run]
  split
  · next ha =>
    rw [if_pos ha] at hr
    rw [readPlanes_ok hr ((checked_sameThreads hc).th ▸ hp) (checked_length hc)]
  · next ha => rw [if_neg ha] at hr; rw [hr]

theorem reaches_sameThreads {vas : List Word} {pas : List Nat} {s t : State} (h : Reaches n acc s vas pas t) : SameThreads s t := by
  obtain ⟨u, hc, hr⟩ := h
  split at hr
  · exact (checked_sameThreads hc).trans (linesRead_sameThreads hr)
  · rw [hr]; exact checked_sameThreads hc

theorem reaches_length {vas : List Word} {pas : List Nat} {s t : State} (h : Reaches n acc s vas pas t) :
    pas.length = vas.length := by
  obtain ⟨u, hc, -⟩ := h
  exact checked_length hc
theorem reaches_aligned {vas : List Word} {pas : List Nat} {s t : State} (h : Reaches n acc s vas pas t) (hn : n ∣ 4096) :
    ∀ pa ∈ pas, pa % n = 0 := by
  obtain ⟨u, hc, -⟩ := h
  exact checked_aligned hc hn
end

/-! ### Ordering bits (R294, R340) -/

/-- A check made under a condition, before the rest of an instruction, that leaves the machine as it was. -/
theorem checked_run {α β : Type} {c : Prop} [Decidable c] {m : M β} {b : β} {k : M α} {s : State}
    (h : c → m s = .ok (b, s)) : (if c then m >>= fun _ => k else k) s = k s := by
  split
  · next hc => simp only [M.bind_run, h hc]
  · rfl

theorem isRel_iff {o : MOrd} : isRel o = true ↔ o = .rel ∨ o = .ar := by cases o <;> decide
theorem isAcq_iff {o : MOrd} : isAcq o = true ↔ o = .acq ∨ o = .ar := by cases o <;> decide

/-- Earlier stores of a release are performed. -/
theorem releaseWait_ok {s : State} (h : s.pendOf s.cur = []) : releaseWait s = .ok ((), s) := by
  simp [releaseWait, h]

/-- No store of the core holds any of these bytes. -/
theorem holds_of_nonePending {s : State} {pa n : Nat} (h : NonePending s pa n) : (s.core s.th.core).holds pa n = false := by
  simpa [Core.holds, NonePending] using h

theorem acquireWait_ok {s : State} {pa n : Nat} (h : NonePending s pa n) : acquireWait pa n s = .ok ((), s) := by
  simp [acquireWait, holds_of_nonePending h]

/-! ### Loads -/

/-- The planes of a load are what the thread sees of them. -/
theorem devGets_ok {s : State} (hp : s.th.atPort = false) (n i : Nat) (pas : List Nat) :
    devGets n i pas s = .ok (pas.map fun pa => (s.dmNat s.th.core pa n, sbBound (s.dmSb s.th.core pa)), s) := by
  induction pas generalizing i with
  | nil => rfl
  | cons pa r ih =>
    simp only [devGets, M.bind_run, getTh_run, hp, Bool.false_eq_true, if_false, devGet, M.get_run, M.pure_run, ih, List.map_cons]

/-- The tangents a load of device memory writes: what it read at their planes, the others +0. -/
theorem planeTans_of_device {s t : State} {typed : Bool} {n c : Nat} {pas : List Nat} {ts : List Word}
    (hp : pas.length = (s.carried typed).length + 1) (hl : ts.length = s.th.k)
    (hts : ∀ j, j < s.th.k → ts.getD j 0#64 = ((s.carried typed).idxOf? j).elim 0#64 fun i =>
      BitVec.ofNat 64 (t.dmNat c (pas.getD (i + 1) 0) n)) :
    planeTans (s.offsets typed) s.th.k (pas.map fun pa => BitVec.ofNat 64 (t.dmNat c pa n)).tail = ts := by
  refine eq_planeTans hl fun j hj => ?_
  rw [hts j hj]
  cases hi : (s.carried typed).idxOf? j with
  | none => rfl
  | some i =>
    obtain ⟨hlt, -, -⟩ := List.idxOf?_eq_some_iff.mp hi
    have hlt' : i + 1 < pas.length := by omega
    simp [List.getElem?_eq_getElem hlt']

theorem deviceLoads : DeviceLoads := by
  intro s s₁ s₂ s₃ h d a typed o z imm x pas ts hi hf hst hr hrel hre hacq hl hts hw
  have ho := (readOps_read hr).operated
  have hp₁ : s₁.th.atPort = false := ho.atPort.trans hi.own
  have hth : s₂.th = s₁.th := (reaches_sameThreads hre).th
  have hp₂ : s₂.th.atPort = false := hth ▸ hp₁
  have hlen : pas.length = (s.carried typed).length + 1 := by
    rw [reaches_length hre, ho.planeVAs, ← offsets_vas]
    simp [State.offsets]
  have h0 : (pas.map fun pa => BitVec.ofNat 64 (s₂.dmNat s.th.core pa (bytesOf z))).getD 0 0#64 =
      BitVec.ofNat 64 (s₂.dmNat s.th.core (pas.getD 0 0) (bytesOf z)) := by
    cases pas with
    | nil => cases hlen
    | cons _ _ => rfl
  have htan := planeTans_of_device hlen hl fun j hj => (hts j hj).trans (by
    rw [State.carried]
    cases (if typed then s.th.sel else []).idxOf? j <;> rfl)
  have hrch := reachPlanes_ok hre hp₁
  rw [ho.planeVAs] at hrch
  refine runU_done hi ?_ (by decide)
  simp only [M.bind_run, check1_ok hf, planesOf_ok hst, hr, addrOf, sext, bytesOf_eq, List.getD_cons_zero]
  rw [checked_run fun hc => releaseWait_ok (hrel (isRel_iff.mp hc))]
  simp only [M.bind_run, offsets_vas, hrch]
  rw [checked_run fun hc => forAll_pure (g := fun _ => ()) fun pa hpa => acquireWait_ok (hacq (isAcq_iff.mp hc) pa hpa)]
  simp only [M.bind_run, devGets_ok hp₂, getTh_run, List.map_map, Function.comp_def, hth, ho.thCore, ho.k, h0, htan, hw, M.pure_run]

end Sys2Proof.Machine
end

section
/-!
Scalar stores to device memory at home on the own core (R12, R78, R79, R133, R294, R296, R340): pending, or under .acq performed
at once.
-/
namespace Sys2Proof.Machine
open Sys2Proof.Claims

/-! ### Cells of a store -/

theorem cellsOf_cons (pa : Nat) (b : Byte) (bs : List Byte) : cellsOf pa (b :: bs) = (pa, b) :: cellsOf (pa + 1) bs := by
  simp only [cellsOf, List.length_cons, List.range_succ_eq_map, List.map_cons, List.map_map, List.getD_cons_zero, Nat.add_zero]
  refine congrArg _ (List.map_congr_left fun i _ => ?_)
  simp only [Function.comp_apply, Nat.succ_eq_add_one, List.getD_cons_succ]
  rw [Nat.add_assoc, Nat.add_comm 1 i]

/-- The cells of a run of bytes hold them. -/
theorem find_cellsOf (pa q : Nat) (bs : List Byte) : (cellsOf pa bs).find? (fun e => e.1 == q) =
    if pa ≤ q ∧ q < pa + bs.length then some (q, bs.getD (q - pa) 0#8) else none := by
  induction bs generalizing pa with
  | nil => rw [if_neg (by simp)]; rfl
  | cons b bs ih =>
    rw [cellsOf_cons, List.find?_cons, ih, List.length_cons]
    by_cases h : pa = q
    · subst h
      simp
    · rw [beq_false_of_ne h]
      by_cases hq : pa + 1 ≤ q ∧ q < pa + 1 + bs.length
      · obtain ⟨m, rfl⟩ : ∃ m, q = pa + 1 + m := ⟨q - (pa + 1), by omega⟩
        rw [if_pos hq, if_pos (by omega), show pa + 1 + m - pa = m + 1 by omega, Nat.add_sub_cancel_left]
        rfl
      · rw [if_neg hq, if_neg (by omega)]

/-- Cells written one by one are the run written. -/
theorem put_cellsOf (m : Tbl Byte) (pa : Nat) (bs : List Byte) :
    (cellsOf pa bs).foldl (fun (m : Tbl Byte) (e : Host.Cell) => m.put 0#8 e.1 e.2) m = m.putRun 0#8 pa bs := by
  induction bs generalizing m pa with
  | nil => rfl
  | cons b bs ih => rw [cellsOf_cons, List.foldl_cons, ih]; rfl

/-- A byte of what a store writes at a plane. -/
def cellByte (n : Nat) (p : Nat × Word) (i : Nat) : Byte := (leBytes n p.2.toNat).getD i 0#8

/-- A list of places with what belongs to each. -/
theorem zip_map_zip {α β γ : Type} (f : α × β → γ) (as : List α) (bs : List β) :
    as.zip ((as.zip bs).map f) = (as.zip bs).map fun p => (p.1, f p) := by
  induction as generalizing bs with
  | nil => rfl
  | cons a as ih =>
    cases bs with
    | nil => rfl
    | cons b bs => simp only [List.zip_cons_cons, List.map_cons, ih]

/-! ### Pending stores (R340) -/

/-- The machine with a store of the thread in hand pending. -/
def State.pended (s : State) (pa : Nat) (bytes : List Host.Cell) (b : Word32) (full : Bool) (sb : Option Word32) : State :=
  State.post { (s.modCore s.th.core fun c => { c with pend := c.pend ++ [⟨s.nextOp, s.cur, pa, bytes, b, full, sb⟩] }).modTh
    (fun t => { t with outSt := t.outSt + 1 }) with nextOp := s.nextOp + 1 }
    (.homePortAccess s.cur s.nextOp) (chanPort s.th.core (homeCore pa)) 16

theorem devPend_run (pa : Nat) (bytes : List Host.Cell) (b : Word32) (full : Bool) (sb : Option Word32) (s : State) :
    devPend pa bytes b full sb s = .ok ((), s.pended pa bytes b full sb) := rfl

section
variable (s : State) (pa : Nat) (bytes : List Host.Cell) (b : Word32) (full : Bool) (sb : Option Word32)

theorem State.pended_mem : (s.pended pa bytes b full sb).mem = s.mem := rfl
theorem State.pended_th : (s.pended pa bytes b full sb).th = { s.th with outSt := s.th.outSt + 1 } :=
  State.th_setThr_cur _ _
theorem State.pended_pend : ((s.pended pa bytes b full sb).core s.th.core).pend =
    (s.core s.th.core).pend ++ [⟨s.nextOp, s.cur, pa, bytes, b, full, sb⟩] :=
  congrArg Core.pend (State.core_setCore_self s s.th.core _)
end

/-- The newest store holds the byte its core sees, where it has one. -/
theorem pendByte_append (ps : List PendStore) (p : PendStore) (q : Nat) :
    pendByte (ps ++ [p]) q = ((p.bytes.find? fun e => e.1 == q).map (·.2)).or (pendByte ps q) := by
  simp only [pendByte, List.foldl_append, List.foldl_cons, List.foldl_nil]
  cases p.bytes.find? fun e => e.1 == q <;> rfl

theorem State.dmByte_eq (s : State) (c q : Nat) : s.dmByte c q = (pendByte (s.core c).pend q).getD (s.mem.lookD q 0#8) := by
  unfold State.dmByte
  cases pendByte (s.core c).pend q <;> rfl

theorem State.dmByte_pended (s : State) (n : Nat) (p : Nat × Word) (q : Nat) :
    (s.pended p.1 (cellsOf p.1 (leBytes n p.2.toNat)) 0#32 false none).dmByte s.th.core q =
      if p.1 ≤ q ∧ q < p.1 + n then cellByte n p (q - p.1) else s.dmByte s.th.core q := by
  rw [State.dmByte_eq, State.dmByte_eq, State.pended_pend, pendByte_append, find_cellsOf, leBytes_length, State.pended_mem]
  split <;> rfl

/-- The planes of a store, pending. -/
def State.pendParts (s : State) (n : Nat) (ps : List (Nat × Word)) : State :=
  ps.foldl (fun s p => s.pended p.1 (cellsOf p.1 (leBytes n p.2.toNat)) 0#32 false none) s

section
variable (s : State) (n : Nat) (ps : List (Nat × Word))

theorem State.pendParts_mem : (s.pendParts n ps).mem = s.mem := by
  induction ps generalizing s with
  | nil => rfl
  | cons p ps ih => exact (ih _).trans (State.pended_mem ..)

theorem State.pendParts_th : (s.pendParts n ps).th = { s.th with outSt := s.th.outSt + ps.length } := by
  induction ps generalizing s with
  | nil => rfl
  | cons p ps ih =>
    refine (ih _).trans ?_
    rw [State.pended_th, List.length_cons, Nat.add_assoc, Nat.add_comm 1]

theorem State.pendParts_pend_length :
    ((s.pendParts n ps).core s.th.core).pend.length = (s.core s.th.core).pend.length + ps.length := by
  induction ps generalizing s with
  | nil => rfl
  | cons p ps ih =>
    have := ih (s.pended p.1 (cellsOf p.1 (leBytes n p.2.toNat)) 0#32 false none)
    rw [State.pended_th, State.pended_pend] at this
    refine this.trans ?_
    simp only [List.length_append, List.length_cons, List.length_nil]
    omega

/-- For its core the planes of a pending store hold what it writes, and no other byte changes. -/
theorem State.pendParts_uncovered {q : Nat} (hq : ¬covers n (ps.map (·.1)) q) :
    (s.pendParts n ps).dmByte s.th.core q = s.dmByte s.th.core q :=
  read_foldl_uncovered (I := fun (t : State) => t.th.core = s.th.core) (read := fun (t : State) q => t.dmByte s.th.core q) (byte := cellByte n)
    (fun t p h => by rw [State.pended_th]; exact h) (fun t p q h => by rw [← h]; exact t.dmByte_pended n p q) hq rfl

theorem State.pendParts_byte (hp : apart n (ps.map (·.1))) {p : Nat × Word} (hm : p ∈ ps) {i : Nat} (hi : i < n) :
    (s.pendParts n ps).dmByte s.th.core (p.1 + i) = cellByte n p i :=
  read_foldl_apart (I := fun (t : State) => t.th.core = s.th.core) (read := fun (t : State) q => t.dmByte s.th.core q) (byte := cellByte n)
    (fun t p h => by rw [State.pended_th]; exact h) (fun t p q h => by rw [← h]; exact t.dmByte_pended n p q)
    (pairwise_of_apart hp) hm hi rfl
end

/-! ### Reads of the error correction (R78) -/

/-- The decoder takes the line of an address for another one. -/
def State.misread (s : State) (pa : Nat) : Bool := (s.errs.look (pa / 64)).any fun k => decide (4 < k)
/-- What such a line then holds. -/
def freeLine (n : Nat) : List Byte := (List.range 8).flatMap fun i => leBytes 8 (Config.freeWord (n + i)).toNat

theorem freeLine_length (n : Nat) : (freeLine n).length = 64 := by
  simp [freeLine, leBytes_length]

theorem State.eccRead_none {s : State} {pa : Nat} (h : s.errs.look (pa / 64) = none) : s.eccRead pa = s := by
  simp [State.eccRead, h]

section
variable (s : State) (pa : Nat)

/-- An error that is met is gone; the lines, the free values and the cores. -/
theorem State.eccRead_fields :
    (∀ j, (s.eccRead pa).errs.look j = if j = pa / 64 then none else s.errs.look j) ∧
      (s.eccRead pa).free = (if s.misread pa then s.free + 9 else s.free) ∧ (s.eccRead pa).cores = s.cores ∧
      (s.eccRead pa).mem = if s.misread pa then s.mem.putRun 0#8 (pa / 64 * 64) (freeLine s.free) else s.mem := by
  cases h : s.errs.look (pa / 64) with
  | none =>
    simp only [State.eccRead_none h, State.misread, h, Option.any_none, Bool.false_eq_true, if_false, and_true]
    intro j
    split
    · next hj => rw [hj, h]
    · rfl
  | some k =>
    have hd : ∀ j, (s.errs.del (pa / 64)).look j = if j = pa / 64 then none else s.errs.look j := Tbl.look_del _ _
    simp only [State.eccRead, State.misread, h, Option.any_some, decide_eq_true_eq]
    by_cases h4 : k = 4
    · subst h4
      exact ⟨hd, rfl, rfl, rfl⟩
    · by_cases hk : 4 < k
      · simp only [h4, hk, if_true, if_false]
        exact ⟨hd, rfl, rfl, rfl⟩
      · simp only [h4, hk, if_false]
        exact ⟨hd, rfl, rfl, rfl⟩

theorem State.eccRead_errs (j : Nat) : (s.eccRead pa).errs.look j = if j = pa / 64 then none else s.errs.look j :=
  (s.eccRead_fields pa).1 j
theorem State.eccRead_free : (s.eccRead pa).free = if s.misread pa then s.free + 9 else s.free := (s.eccRead_fields pa).2.1
theorem State.eccRead_cores : (s.eccRead pa).cores = s.cores := (s.eccRead_fields pa).2.2.1
theorem State.eccRead_byte (q : Nat) : (s.eccRead pa).mem.lookD q 0#8 =
    if s.misread pa = true ∧ q / 64 = pa / 64 then (freeLine s.free).getD (q - pa / 64 * 64) 0#8 else s.mem.lookD q 0#8 := by
  rw [(s.eccRead_fields pa).2.2.2]
  by_cases hm : s.misread pa = true
  · rw [if_pos hm, Tbl.lookD_putRun, freeLine_length]
    by_cases hq : q / 64 = pa / 64
    · rw [if_pos (by omega), if_pos ⟨hm, hq⟩]
    · rw [if_neg (by omega), if_neg fun h => hq h.2]
  · rw [if_neg hm, if_neg fun h => hm h.1]
end

/-! ### Stores performed at once (R79, R340) -/

theorem State.activate_fields (s : State) (pa : Nat) :
    (s.activate pa).mem = s.mem ∧ (s.activate pa).errs = s.errs ∧ (s.activate pa).free = s.free ∧
      ∀ c, ((s.activate pa).core c).pend = (s.core c).pend := by
  have hc (n c : Nat) : ((s.modCore (homeCore pa) fun x => { x with rows := x.rows.ins (rowKey (dramRow pa)) n }).core c).pend =
      (s.core c).pend := by
    rw [State.modCore_eq, State.core_setCore]
    split
    · next h => rw [h]
    · rfl
  unfold State.activate
  dsimp only
  split
  · exact ⟨rfl, rfl, rfl, fun _ => rfl⟩
  · split
    · exact ⟨rfl, rfl, rfl, hc _⟩
    · exact ⟨rfl, rfl, rfl, hc _⟩

/-- One plane of a store performed: its line is read and rewritten. -/
def State.performPart (n : Nat) (s : State) (p : Nat × Word) : State :=
  s.performNow ⟨0, s.cur, p.1, cellsOf p.1 (leBytes n p.2.toNat), 0#32, false, none⟩

section
variable (n : Nat) (s : State) (p : Nat × Word)

theorem State.performPart_sameThreads : SameThreads s (s.performPart n p) := by
  have h : SameThreads s ((s.eccRead p.1).perform ⟨0, s.cur, p.1, cellsOf p.1 (leBytes n p.2.toNat), 0#32, false, none⟩) :=
    (sameThreads_eccRead s p.1).trans ⟨rfl, rfl⟩
  exact h.trans (sameThreads_activate _ p.1)
theorem State.performPart_errs (j : Nat) :
    (s.performPart n p).errs.look j = if j = p.1 / 64 then none else s.errs.look j := by
  rw [← s.eccRead_errs p.1 j]
  exact congrArg (Tbl.look · j) (State.activate_fields _ p.1).2.1
theorem State.performPart_free : (s.performPart n p).free = (s.eccRead p.1).free := (State.activate_fields _ p.1).2.2.1
theorem State.performPart_pend (c : Nat) : ((s.performPart n p).core c).pend = (s.core c).pend :=
  ((State.activate_fields _ p.1).2.2.2 c).trans (congrArg (fun t : Tbl Core => (t.lookD c Core.reset).pend) (s.eccRead_cores p.1))
theorem State.performPart_byte (q : Nat) : (s.performPart n p).mem.lookD q 0#8 =
    if p.1 ≤ q ∧ q < p.1 + n then cellByte n p (q - p.1) else (s.eccRead p.1).mem.lookD q 0#8 := by
  have hm : (s.performPart n p).mem = (s.eccRead p.1).mem.putRun 0#8 p.1 (leBytes n p.2.toNat) :=
    ((State.activate_fields _ p.1).1).trans (put_cellsOf _ _ _)
  rw [hm, Tbl.lookD_putRun, leBytes_length]
  rfl
end

/-- The planes of a store performed, in order. -/
def State.performParts (s : State) (n : Nat) (ps : List (Nat × Word)) : State := ps.foldl (State.performPart n) s

theorem State.performParts_sameThreads (s : State) (n : Nat) (ps : List (Nat × Word)) : SameThreads s (s.performParts n ps) :=
  foldl_rel .refl .trans (State.performPart_sameThreads n) ps s

theorem State.performParts_pend (s : State) (n : Nat) (ps : List (Nat × Word)) (c : Nat) :
    ((s.performParts n ps).core c).pend = (s.core c).pend :=
  foldl_keeps (P := fun t => (t.core c).pend = (s.core c).pend) (fun t p h => (t.performPart_pend n p c).trans h) ps rfl

/-- Two machines that have met the same errors and hold the same bytes but for some. -/
structure AgreeBut (C : Nat → Prop) (u w : State) : Prop where
  errs : ∀ j, u.errs.look j = w.errs.look j
  free : u.free = w.free
  bytes : ∀ q, ¬C q → u.mem.lookD q 0#8 = w.mem.lookD q 0#8

/-- A plane performed and its line read agree but for the bytes it covers. -/
theorem AgreeBut.performPart {C : Nat → Prop} {u w : State} (h : AgreeBut C u w) {n : Nat} {p : Nat × Word}
    (hC : ∀ q, p.1 ≤ q → q < p.1 + n → C q) : AgreeBut C (u.performPart n p) (w.eccRead p.1) := by
  have hm : u.misread p.1 = w.misread p.1 := by simp only [State.misread, h.errs]
  refine ⟨fun j => ?_, ?_, fun q hq => ?_⟩
  · rw [State.performPart_errs, State.eccRead_errs, h.errs]
  · rw [State.performPart_free, State.eccRead_free, State.eccRead_free, hm, h.free]
  · rw [State.performPart_byte, if_neg fun hc => hq (hC q hc.1 hc.2), State.eccRead_byte, State.eccRead_byte, hm, h.free, h.bytes q hq]

theorem AgreeBut.performParts {C : Nat → Prop} {n : Nat} {ps : List (Nat × Word)}
    (hC : ∀ p ∈ ps, ∀ q, p.1 ≤ q → q < p.1 + n → C q) {u w : State} (h : AgreeBut C u w) :
    AgreeBut C (u.performParts n ps) ((ps.map (·.1)).foldl State.eccRead w) := by
  induction ps generalizing u w with
  | nil => exact h
  | cons p ps ih =>
    exact ih (fun x hx => hC x (List.mem_cons_of_mem _ hx)) (h.performPart (hC p (List.mem_cons_self ..)))

/-- A byte of a line without an error stays as it is where no plane covers it. -/
theorem State.performParts_kept {n : Nat} {ps : List (Nat × Word)} {q : Nat} (hq : ¬covers n (ps.map (·.1)) q) {s : State}
    (he : s.errs.look (q / 64) = none) : (s.performParts n ps).mem.lookD q 0#8 = s.mem.lookD q 0#8 := by
  induction ps generalizing s with
  | nil => rfl
  | cons p ps ih =>
    have hp : ¬(p.1 ≤ q ∧ q < p.1 + n) := fun h => hq ⟨_, List.mem_cons_self .., h⟩
    have hr : ¬covers n (ps.map (·.1)) q := fun ⟨b, hb, h⟩ => hq ⟨b, List.mem_cons_of_mem _ hb, h⟩
    have he' : (s.performPart n p).errs.look (q / 64) = none := by
      rw [State.performPart_errs, he, ite_self]
    have hm : ¬(s.misread p.1 = true ∧ q / 64 = p.1 / 64) := by
      rintro ⟨hm, hl⟩
      rw [State.misread, ← hl, he] at hm
      cases hm
    rw [show s.performParts n (p :: ps) = (s.performPart n p).performParts n ps from rfl, ih hr he', State.performPart_byte,
      if_neg hp, State.eccRead_byte, if_neg hm]

/-- An aligned access lies in one line. -/
theorem same_line {n a i : Nat} (hn : n ∣ 64) (ha : a % n = 0) (hi : i < n) : (a + i) / 64 = a / 64 := by
  obtain ⟨k, hk⟩ := hn
  obtain ⟨m, rfl⟩ := Nat.dvd_of_mod_eq_zero ha
  rw [hk, ← Nat.div_div_eq_div_mul, ← Nat.div_div_eq_div_mul, Nat.mul_add_div (by omega), Nat.div_eq_of_lt hi,
    Nat.mul_div_cancel_left _ (by omega), Nat.add_zero]

/-- Where none overlaps a later one the planes hold what was written. -/
theorem State.performParts_byte {n : Nat} (hn : n ∣ 64) {ps : List (Nat × Word)} (hal : ∀ p ∈ ps, p.1 % n = 0)
    (hp : (ps.map (·.1)).Pairwise fun a b => a + n ≤ b ∨ b + n ≤ a) {p : Nat × Word} (hm : p ∈ ps) {i : Nat} (hi : i < n)
    (s : State) : (s.performParts n ps).mem.lookD (p.1 + i) 0#8 = cellByte n p i := by
  induction ps generalizing s with
  | nil => cases hm
  | cons x ps ih =>
    obtain ⟨hx, hr⟩ := List.pairwise_cons.mp hp
    rcases List.mem_cons.mp hm with rfl | hm
    · have hc : ¬covers n (ps.map (·.1)) (p.1 + i) := by
        rintro ⟨b, hb, h1, h2⟩
        have : p.1 + n ≤ b ∨ b + n ≤ p.1 := hx b hb
        omega
      have hl : (p.1 + i) / 64 = p.1 / 64 := same_line hn (hal p (List.mem_cons_self ..)) hi
      have he : (s.performPart n p).errs.look ((p.1 + i) / 64) = none := by rw [State.performPart_errs, if_pos hl]
      rw [show s.performParts n (p :: ps) = (s.performPart n p).performParts n ps from rfl, State.performParts_kept hc he,
        State.performPart_byte, if_pos ⟨by omega, by omega⟩, Nat.add_sub_cancel_left]
    · exact ih (fun y hy => hal y (List.mem_cons_of_mem _ hy)) hr hm _

/-! ### The two ways a store goes (R294, R340) -/

/-- A store without .acq leaves its planes pending. -/
theorem storePlanes_pending {o : MOrd} (ho : isAcq o = false) (n : Nat) (pas : List Nat) (ys : List Word) (s : State) :
    storePlanes o n pas ((pas.zip ys).map fun p => (cellsOf p.1 (leBytes n p.2.toNat), 0#32, false)) s =
      .ok ((), s.pendParts n (pas.zip ys)) := by
  obtain ⟨zs, hz⟩ := forAll_update (f := fun (p : Nat × List Host.Cell × Word32 × Bool) => devPend p.1 p.2.1 p.2.2.1 p.2.2.2 none)
    (fun _ _ => devPend_run ..) (pas.zip ((pas.zip ys).map fun p => (cellsOf p.1 (leBytes n p.2.toNat), 0#32, false))) s
  rw [zip_map_zip, List.foldl_map] at hz
  simp only [storePlanes, ho, Bool.false_eq_true, if_false, M.bind_run, zip_map_zip, hz, M.pure_run, State.pendParts]

/-- A store under .acq performs them, once no earlier store to its bytes or of its thread is on its way. -/
theorem storePlanes_performed {n : Nat} {pas : List Nat} {s : State} (hp : ∀ pa ∈ pas, NonePending s pa n)
    (hs : s.pendOf s.cur = []) (ys : List Word) :
    storePlanes .acq n pas ((pas.zip ys).map fun p => (cellsOf p.1 (leBytes n p.2.toNat), 0#32, false)) s =
      .ok ((), s.performParts n (pas.zip ys)) := by
  have hw : forAll (fun pa => do portOrder pa; acquireWait pa n) pas s = .ok (pas.map fun _ => (), s) :=
    forAll_pure fun pa hpa => by
      simp only [portOrder, M.bind_run, M.get_run, hs, List.any_nil, Bool.false_eq_true, if_false, M.pure_run, acquireWait_ok (hp pa hpa)]
  obtain ⟨zs, hz⟩ := forAll_update (f := fun (p : Nat × List Host.Cell × Word32 × Bool) =>
      (modify fun (s : State) => s.performNow ⟨0, s.cur, p.1, p.2.1, p.2.2.1, p.2.2.2, none⟩ : M Unit))
    (fun _ _ => M.modify_run _ _) (pas.zip ((pas.zip ys).map fun p => (cellsOf p.1 (leBytes n p.2.toNat), 0#32, false))) s
  rw [zip_map_zip, List.foldl_map] at hz
  simp only [storePlanes, isAcq, beq_self_eq_true, Bool.true_or, if_true, M.bind_run, hw, zip_map_zip, hz, M.pure_run]
  rfl

/-! ### Stores -/

theorem SameRest.dmByte {s t : State} (h : SameRest s t) (c q : Nat) : t.dmByte c q = s.dmByte c q := by
  obtain ⟨_, _, _, _, rfl⟩ := h
  rfl
theorem SameRest.mem {s t : State} (h : SameRest s t) : t.mem = s.mem := by
  obtain ⟨_, _, _, _, rfl⟩ := h
  rfl

theorem State.finish_fall_outSt {s : State} (hp : s.th.atPort = false) : (s.finish .fall).th.outSt = s.th.outSt := by
  obtain ⟨pc, m, ls, h⟩ := s.finish_fall_th hp
  rw [h]
  rfl

/-- Bytes of a machine that are those of what a store writes have its value. -/
theorem dmNat_of_cells {s : State} {c n : Nat} {p : Nat × Word} (h : ∀ i, i < n → s.dmByte c (p.1 + i) = cellByte n p i) :
    s.dmNat c p.1 n = p.2.toNat % 2 ^ (8 * n) := leNat_of_bytes h

/-- Places and values of a store that belong together. -/
theorem getD_mem_zip {pas : List Nat} {ys : List Word} (hl : ys.length = pas.length) {i : Nat} (hi : i < pas.length) :
    (pas.getD i 0, ys.getD i 0#64) ∈ pas.zip ys :=
  List.mem_iff_getElem.mpr ⟨i, by simp [hl, hi], by simp [hl, hi]⟩

/-- No store of the core on its way holds a byte the access covers. -/
theorem pendByte_none {s : State} {n : Nat} {pas : List Nat} (h : ∀ pa ∈ pas, NonePending s pa n) {q : Nat} (hq : covers n pas q) :
    pendByte (s.core s.th.core).pend q = none := by
  obtain ⟨pa, hpa, h1, h2⟩ := hq
  have hn := h pa hpa
  unfold NonePending at hn
  generalize (s.core s.th.core).pend = ps at hn ⊢
  induction ps using List.reverseRecOn with
  | nil => rfl
  | append_singleton ps p ih =>
    have hp : p.bytes.find? (fun e => e.1 == q) = none := List.find?_eq_none.mpr fun c hc he =>
      hn p (by simp) c hc (by rw [beq_iff_eq.mp he]; exact ⟨h1, h2⟩)
    rw [pendByte_append, hp, ih fun x hx => hn x (by simp [hx])]
    rfl

section
variable {s t : State} {n : Nat} {pas : List Nat} {ys : List Word} (hp : s.th.atPort = false) (hl : ys.length = pas.length)
include hp hl

/-- What a completed store without .acq leaves. -/
theorem pendParts_finished (ht : t = (s.pendParts n (pas.zip ys)).finish .fall) :
    (∀ q, ¬covers n pas q → t.dmByte s.th.core q = s.dmByte s.th.core q) ∧
      (apart n pas → ∀ i, i < pas.length → t.dmNat s.th.core (pas.getD i 0) n = (ys.getD i 0#64).toNat % 2 ^ (8 * n)) ∧
      t.mem = s.mem ∧ t.th.outSt = s.th.outSt + pas.length ∧
      (t.core s.th.core).pend.length = (s.core s.th.core).pend.length + pas.length := by
  have hfst : (pas.zip ys).map (·.1) = pas := List.map_fst_zip (by simp [hl])
  have hlen : (pas.zip ys).length = pas.length := by simp [hl]
  have hget := fun i => getD_mem_zip (i := i) hl
  generalize pas.zip ys = ps at *
  have hport : (s.pendParts n ps).th.atPort = false := by rw [State.pendParts_th]; exact hp
  have hr := State.finish_fall_rest _ hport
  subst ht
  refine ⟨fun q hq => ?_, fun hap i hi => ?_, ?_, ?_, ?_⟩
  · rw [hr.dmByte, State.pendParts_uncovered _ _ _ (by rwa [hfst])]
  · rw [hr.dmNat]
    exact dmNat_of_cells fun j hj => s.pendParts_byte n ps (by rwa [hfst]) (hget i hi) hj
  · rw [hr.mem, State.pendParts_mem]
  · rw [State.finish_fall_outSt hport, State.pendParts_th, hlen]
  · rw [hr.core, State.pendParts_pend_length, hlen]

/-- What a completed store under .acq leaves. -/
theorem performParts_finished (hn : n ∣ 64) (hal : ∀ pa ∈ pas, pa % n = 0) (hno : ∀ pa ∈ pas, NonePending s pa n)
    (ht : t = (s.performParts n (pas.zip ys)).finish .fall) :
    (∀ q, ¬covers n pas q → t.dmByte s.th.core q = (pas.foldl State.eccRead s).dmByte s.th.core q) ∧
      (apart n pas → ∀ i, i < pas.length → t.dmNat s.th.core (pas.getD i 0) n = (ys.getD i 0#64).toNat % 2 ^ (8 * n)) ∧
      t.th.outSt = s.th.outSt ∧ (t.core s.th.core).pend = (s.core s.th.core).pend := by
  have hfst : (pas.zip ys).map (·.1) = pas := List.map_fst_zip (by simp [hl])
  have hget := fun i => getD_mem_zip (i := i) hl
  generalize pas.zip ys = ps at *
  have hth := (s.performParts_sameThreads n ps).th
  have hport : (s.performParts n ps).th.atPort = false := hth ▸ hp
  have hr := State.finish_fall_rest _ hport
  have hecc : (pas.foldl State.eccRead s).cores = s.cores :=
    foldl_keeps (P := fun t => t.cores = s.cores) (fun t pa h => (t.eccRead_cores pa).trans h) pas rfl
  subst ht
  refine ⟨fun q hq => ?_, fun hap i hi => ?_, ?_, ?_⟩
  · have hag := AgreeBut.performParts (C := covers n pas) (n := n) (ps := ps)
      (fun p hm a h1 h2 => ⟨p.1, hfst ▸ List.mem_map_of_mem hm, h1, h2⟩) (u := s) (w := s) ⟨fun _ => rfl, rfl, fun _ _ => rfl⟩
    rw [hfst] at hag
    rw [hr.dmByte, State.dmByte_eq, State.dmByte_eq, State.performParts_pend, hag.bytes q hq]
    simp only [State.core, hecc]
  · rw [hr.dmNat]
    refine dmNat_of_cells (p := (pas.getD i 0, ys.getD i 0#64)) fun j hj => ?_
    have hmem : pas.getD i 0 ∈ pas := by rw [List.getD_eq_getElem _ _ hi]; exact List.getElem_mem hi
    have hc : covers n pas (pas.getD i 0 + j) := ⟨_, hmem, by omega, by omega⟩
    rw [State.dmByte_eq, State.performParts_pend, pendByte_none hno hc]
    exact State.performParts_byte hn (fun p hm => hal _ (hfst ▸ List.mem_map_of_mem hm)) (by rw [hfst]; exact pairwise_of_apart hap)
      (hget i hi) hj s
  · rw [State.finish_fall_outSt hport, hth]
  · rw [hr.core, State.performParts_pend]
end

theorem bytesOf_dvd (z : Sz) : bytesOf z ∣ 64 := by cases z <;> decide

/-- A store of device memory that reaches its ports completes as its planes are stored. -/
theorem exec_std {s s₁ s₂ u : State} {h : Head} {a b : Fld} {typed : Bool} {o : MOrd} {z : Sz} {imm : BitVec 16} {x y : Word}
    {pas : List Nat} (hi : Issues s h) (hf : FieldsOk s [(.rs, a), (.rs, b)]) (hst : StrideOk s typed)
    (hr : readOps [a, b] s = .ok ([x, y], s₁)) (hrel : ReleaseOk s₁ o)
    (hre : Reaches (bytesOf z) .write s₁ (planeVAs s₁ typed (x + imm.signExtend 64)) pas s₂)
    (hs : storePlanes o (bytesOf z) pas ((pas.zip (storeVals s typed b y)).map fun p =>
      (cellsOf p.1 (leBytes (bytesOf z) p.2.toNat), 0#32, false)) s₂ = .ok ((), u)) :
    exec (.std h a b typed o z imm) s = .next (u.finish .fall) := by
  have hrd := readOps_read hr
  have hrch := reachPlanes_ok hre (hrd.operated.atPort.trans hi.own)
  rw [hrd.operated.planeVAs] at hrch
  refine runU_done hi ?_ (by decide)
  simp only [M.bind_run, check1_ok hf, planesOf_ok hst, hr, addrOf, sext, bytesOf_eq, List.getD_cons_zero, List.getD_cons_succ, getTh_run]
  rw [checked_run fun hc => releaseWait_ok (hrel (isRel_iff.mp hc))]
  simp only [M.bind_run, offsets_vas, hrch, hrd.tanS, offsets_vals, hs, M.pure_run]

theorem deviceStores : DeviceStores := by
  intro s s₁ s₂ h a b typed o z imm x y pas hi hf hst hr hrel hre hacq hnone har n
  have ho := (readOps_read hr).operated
  have hth : s₂.th = s₁.th := (reaches_sameThreads hre).th
  have hcore : s₂.th.core = s.th.core := by rw [hth, ho.thCore]
  have hp : s₂.th.atPort = false := by rw [hth, ho.atPort, hi.own]
  have hout : s₂.th.outSt = s.th.outSt := by rw [hth, ho.outSt]
  have hl : (storeVals s typed b y).length = pas.length := by
    rw [reaches_length hre, ho.planeVAs]
    simp [storeVals, planeVAs]
  have hcur : s₂.cur = s.cur := (reaches_sameThreads hre).cur.trans ho.cur
  by_cases hq : o = .acq
  · subst hq
    have hal := reaches_aligned hre ((bytesOf_dvd z).trans (by decide))
    obtain ⟨hbut, hval, hst', hpend⟩ := performParts_finished hp hl (bytesOf_dvd z) hal (hacq rfl) rfl
    rw [hcore] at hbut hval hpend
    refine ⟨_, exec_std hi hf hst hr hrel hre (storePlanes_performed (hacq rfl) (hcur ▸ hnone rfl) _), ?_, hval, ?_, ?_⟩
    · simpa using hbut
    · exact fun h => absurd rfl h
    · exact fun _ => ⟨hst'.trans hout, hpend⟩
  · have hna : isAcq o = false := by cases o <;> simp_all [isAcq]
    obtain ⟨hbut, hval, hmem, hst', hpend⟩ := pendParts_finished (n := n) hp hl rfl
    rw [hcore] at hbut hval hpend
    refine ⟨_, exec_std hi hf hst hr hrel hre (storePlanes_pending hna ..), ?_, hval, ?_, ?_⟩
    · simpa [hq] using hbut
    · exact fun _ => ⟨hmem, hout ▸ hst', hpend⟩
    · exact fun h => absurd h hq

/-- Settles O47, by bringing the planes of an access to their ports: what a load reads there, and a store pending or performed. -/
theorem deviceAccess : Obligations.DeviceAccess := ⟨deviceLoads, deviceStores⟩

end Sys2Proof.Machine
end

section
/-!
Control registers (R13, R48, R228, R334): what each reads, what a write keeps of a value, and the instructions.
-/
namespace Sys2Proof.Machine
open Sys2Proof.Claims

/-! ### Values and what a write keeps of them (R13, R48, R189, R228) -/

/-- The assigned numbers, the writable ones first. -/
theorem csrAssigned_iff {n : BitVec 12} : csrAssigned n = true ↔ n.toNat ∈ [0x000, 0x001, 0x002, 0x003, 0x004, 0x010, 0x011, 0x012,
    0x013, 0x014, 0x015, 0x016, 0x020, 0x021, 0x022, 0x030, 0x031, 0x032] := by
  rw [csrAssigned, List.contains_iff_mem]

/-- The writable numbers. -/
def csrWritable : List Nat := [0x000, 0x001, 0x002, 0x003, 0x004, 0x010, 0x011, 0x012, 0x013, 0x014, 0x015, 0x016]

theorem csrWritable_of_open {s : State} {n : BitVec 12} (h : csrAssigned n = true) (hc : csrClosed s n = false) :
    n.toNat ∈ csrWritable := by
  have hlt : n.toNat < 0x020 := by
    by_contra hge
    simp [csrClosed, Nat.not_lt.mp hge] at hc
  have hm := csrAssigned_iff.mp h
  simp only [List.mem_cons, List.not_mem_nil, or_false, csrWritable] at hm ⊢
  omega

theorem csr_eq_csrValue {n : BitVec 12} (h : csrAssigned n = true) (s : State) : s.csr n.toNat = csrValue s n.toNat := by
  have hm := csrAssigned_iff.mp h
  simp only [List.mem_cons, List.not_mem_nil, or_false] at hm
  rcases hm with hn | hn | hn | hn | hn | hn | hn | hn | hn | hn | hn | hn | hn | hn | hn | hn | hn | hn <;>
    simp [hn, State.csr, csrValue, State.logOf]

/-- The bits a field of status is set to, and the others as they were. -/
theorem getLsbD_setBits (w : BitVec 12) (lo n x i : Nat) (hi : i < 12) :
    (setBits w lo n x).getLsbD i = if lo ≤ i ∧ i < lo + n then x.testBit (i - lo) else w.getLsbD i := by
  have hm : ((2 ^ n - 1) * 2 ^ lo).testBit i = decide (lo ≤ i ∧ i < lo + n) := by
    rw [Nat.testBit_mul_two_pow, Nat.testBit_two_pow_sub_one, ← Bool.decide_and]
    exact decide_eq_decide.mpr (by omega)
  simp only [setBits, BitVec.getLsbD_or, BitVec.getLsbD_and, BitVec.getLsbD_not, BitVec.getLsbD_ofNat, hi, hm, decide_true, Bool.true_and,
    Nat.testBit_mul_two_pow]
  by_cases h : lo ≤ i ∧ i < lo + n
  · simp [h]
  · simp [h]

/-- The low bits of a register narrower than a word, under its mask. -/
theorem setWidth_and_mask {w : Nat} (y : Word) (m : BitVec w) : (y.setWidth w &&& m).setWidth 64 = y &&& m.setWidth 64 := by
  refine BitVec.eq_of_getLsbD_eq fun i hi => ?_
  simp only [BitVec.getLsbD_setWidth, BitVec.getLsbD_and, hi, decide_true, Bool.true_and]
  by_cases hw : i < w
  · simp [hw]
  · simp [BitVec.getLsbD_of_ge m i (by omega)]

theorem setWidth_low {w : Nat} (y : Word) : (y.setWidth w).setWidth 64 = y &&& (BitVec.allOnes w).setWidth 64 := by
  rw [← setWidth_and_mask, BitVec.and_allOnes]

/-- A field of status of two bits after a write: 0b11 is discarded. -/
def fieldKept (old y sh : Nat) : Nat := if y / 2 ^ sh % 4 = 3 then old / 2 ^ sh % 4 else y / 2 ^ sh % 4

theorem fieldKept_lt (old y sh : Nat) : fieldKept old y sh < 4 := by
  unfold fieldKept
  split <;> exact Nat.mod_lt _ (by decide)

theorem statusKept_fields (o : BitVec 12) (y : Word) : statusKept o y = setBits (setBits ((o &&& 0x0F8#12) ||| (y.setWidth 12 &&& 0x304#12))
    0 2 (fieldKept o.toNat y.toNat 0)) 10 2 (fieldKept o.toNat y.toNat 10) := by
  have hf (x : BitVec 12) (sh : Nat) : (x.extractLsb' sh 2).toNat = x.toNat / 2 ^ sh % 4 := by
    rw [BitVec.extractLsb'_toNat, Nat.shiftRight_eq_div_pow]
  have h0 : (y.setWidth 12).toNat / 2 ^ 0 % 4 = y.toNat / 2 ^ 0 % 4 := by
    rw [BitVec.toNat_setWidth]; omega
  have h10 : (y.setWidth 12).toNat / 2 ^ 10 % 4 = y.toNat / 2 ^ 10 % 4 := by
    rw [BitVec.toNat_setWidth]; omega
  have h3 (x : BitVec 2) : x = 3#2 ↔ x.toNat = 3 := by rw [← BitVec.toNat_inj]; rfl
  simp only [statusKept, fieldKept, h3, hf, h0, h10]

/-- status after a write (R48). -/
theorem statusKept_eq (o : BitVec 12) (y : Word) : (statusKept o y).setWidth 64 = csrKept 0x000 (o.setWidth 64) y := by
  have ho : (o.setWidth 64).toNat = o.toNat := BitVec.toNat_setWidth_of_le (by decide)
  have hk : csrKept 0x000 (o.setWidth 64) y = (o.setWidth 64 &&& 0xF8#64) ||| (y &&& 0x304#64) |||
      BitVec.ofNat 64 (2 ^ 10 * fieldKept o.toNat y.toNat 10 + fieldKept o.toNat y.toNat 0) := by
    rw [Nat.mul_comm, Nat.add_comm, ← ho]
    rfl
  have hm := fieldKept_lt o.toNat y.toNat 0
  have hp := fieldKept_lt o.toNat y.toNat 10
  rw [hk, statusKept_fields]
  generalize fieldKept o.toNat y.toNat 0 = m at hm ⊢
  generalize fieldKept o.toNat y.toNat 10 = p at hp ⊢
  have hbit {x n i : Nat} (hx : x < 2 ^ n) (hi : n ≤ i) : x.testBit i = false :=
    Nat.testBit_lt_two_pow (Nat.lt_of_lt_of_le hx (Nat.pow_le_pow_right (by decide) hi))
  refine BitVec.eq_of_getLsbD_eq fun i hi => ?_
  simp only [BitVec.getLsbD_setWidth, BitVec.getLsbD_or, BitVec.getLsbD_and, BitVec.getLsbD_ofNat, hi, decide_true, Bool.true_and,
    Nat.testBit_two_pow_mul_add _ (show m < 2 ^ 10 by omega)]
  by_cases h12 : i < 12
  · simp only [getLsbD_setBits _ _ _ _ _ h12, BitVec.getLsbD_or, BitVec.getLsbD_and, BitVec.getLsbD_setWidth, h12]
    interval_cases i <;> simp [Nat.testBit, Nat.shiftRight_eq_div_pow] <;> omega
  · have hmask : (0x304 : Nat).testBit i = false := hbit (n := 12) (by decide) (by omega)
    rw [BitVec.getLsbD_of_ge _ i (by omega), BitVec.getLsbD_of_ge o i (by omega), if_neg (by omega), hbit (n := 2) hp (by omega)]
    simp [hmask]

/-- cause after a write (R209). -/
theorem causeKept_eq (t : Thread) (y : Word) : (t.setCsr 0x001 y).cause = y &&& 0xC0000000000000FF#64 := by
  have hmask : 0xC0000000000000FF#64 = BitVec.twoPow 64 63 ||| BitVec.twoPow 64 62 ||| (BitVec.allOnes 8).setWidth 64 := by decide
  rw [hmask, BitVec.and_or_distrib_left, BitVec.and_or_distrib_left, ← setWidth_low, BitVec.and_twoPow, BitVec.and_twoPow]
  rfl

/-- qlink after a write (R189). -/
theorem qlinkKept_eq (y : Word) :
    qlinkKept y = if y.toNat < 128 ∧ y.toNat / 16 ≤ 4 ∧ y.toNat % 16 ≤ 4 then y else 0#64 :=
  if_congr (by omega) rfl rfl

/-- slice after a write (R56). -/
theorem sliceKept_eq (y : Word) : BitVec.ofNat 64 (y.toNat % 65536) = y &&& 0xFFFF#64 := by
  have := setWidth_low (w := 16) y
  rw [show (BitVec.allOnes 16).setWidth 64 = 0xFFFF#64 from rfl] at this
  rw [← this]
  refine BitVec.eq_of_toNat_eq ?_
  simp [BitVec.toNat_setWidth]

/-! ### A register written -/

/-- A written register reads what a write keeps. -/
theorem csrValue_setCsr_self (s : State) {n : Nat} (hn : n ∈ csrWritable) (y : Word) {old : Word}
    (ho : n = 0x000 → old = BitVec.ofNat 64 s.th.status.toNat) :
    csrValue (s.modTh fun t => t.setCsr n y) n = csrKept n old y := by
  simp only [csrWritable, List.mem_cons, List.not_mem_nil, or_false] at hn
  simp only [csrValue, State.th_modTh]
  rcases hn with rfl | rfl | rfl | rfl | rfl | rfl | rfl | rfl | rfl | rfl | rfl | rfl
  · rw [ho rfl]
    exact (BitVec.ofNat_toNat _ _).trans ((statusKept_eq s.th.status y).trans (by rw [BitVec.ofNat_toNat]))
  · exact causeKept_eq s.th y
  · exact BitVec.and_allOnes.symm
  · rfl
  · rfl
  · exact (BitVec.ofNat_toNat _ _).trans (setWidth_and_mask y 0x1F07#13)
  · exact (BitVec.ofNat_toNat _ _).trans (setWidth_low (w := 5) y)
  · rfl
  · rfl
  · exact sliceKept_eq y
  · exact (BitVec.ofNat_toNat _ _).trans (setWidth_low (w := 2) y)
  · exact qlinkKept_eq y

/-- A write of one register leaves the others. -/
theorem csrValue_setCsr_ne (s : State) {n m : Nat} (hn : n ∈ csrWritable) (hm : m ≠ n) (y : Word) :
    csrValue (s.modTh fun t => t.setCsr n y) m = csrValue s m := by
  simp only [csrWritable, List.mem_cons, List.not_mem_nil, or_false] at hn
  simp only [csrValue, State.th_modTh]
  rcases hn with rfl | rfl | rfl | rfl | rfl | rfl | rfl | rfl | rfl | rfl | rfl | rfl <;>
    simp only [Thread.setCsr, hm, if_false] <;> rfl

theorem noCsr_setCsr (t : Thread) (n : Nat) (y : Word) : noCsr (t.setCsr n y) = noCsr t := by
  unfold Thread.setCsr
  split <;> rfl

/-- A write of slice restarts its timer, and no other write touches it. -/
theorem setCsr_timer (t : Thread) (n : Nat) (y : Word) :
    (n = 0x014 → (t.setCsr n y).sliceCnt = 0 ∧ (t.setCsr n y).slicePend = false) ∧
      (n ≠ 0x014 → (t.setCsr n y).sliceCnt = t.sliceCnt ∧ (t.setCsr n y).slicePend = t.slicePend) := by
  refine ⟨fun h => by subst h; exact ⟨rfl, rfl⟩, fun h => ?_⟩
  unfold Thread.setCsr
  split
  case h_10 => exact absurd rfl h
  all_goals exact ⟨rfl, rfl⟩

/-! ### The checks and the frame (R45, R202, R228) -/

theorem anchor_run {s : State} (h : AtAnchor s) : anchor s = .ok ((), s) := by
  have hn : ¬(s.th.roaming && decide (s.th.core ≠ homeOf s.cur) && !s.th.atAnchor) = true := by
    rcases h with h | h | h <;> simp [h]
  simp only [anchor, M.bind_run, M.get_run, if_neg hn, M.pure_run]

theorem anchor_wait {s : State} (h : ¬AtAnchor s) : anchor s = .error (.wait .anchor) := by
  simp only [AtAnchor, not_or, Bool.not_eq_false, Bool.not_eq_true] at h
  obtain ⟨hr, hc, ha⟩ := h
  simp only [anchor, M.bind_run, M.get_run, hr, hc, ha, ne_eq, not_false_eq_true, decide_true, Bool.not_false, Bool.and_true, if_true,
    waitFor_run]

theorem csrAnchored_iff {n : Nat} : csrAnchored n = true ↔ (1 ≤ n ∧ n ≤ 4) ∨ n = 0x012 := by
  simp [csrAnchored]

/-- At its anchor a thread goes on with any register. -/
theorem anchorIf_run {α : Type} {s : State} {n : Nat} {f : M α} (h : (1 ≤ n ∧ n ≤ 4) ∨ n = 0x012 → AtAnchor s) :
    (if csrAnchored n = true then anchor >>= fun _ => f else f) s = f s := by
  split
  · next ha => simp only [M.bind_run, anchor_run (h (csrAnchored_iff.mp ha))]
  · rfl

/-- What the mode forbids to write is what its instruction may not execute. -/
theorem csrForbidden_eq (s : State) (n : BitVec 12) : csrForbidden n.toNat s.th.user = csrClosed s n := by
  by_cases h : 0x020 ≤ n.toNat <;> simp [csrForbidden, csrClosed, Thread.user, h, Bool.or_assoc, beq_eq_decide]

theorem csrPriv_ok {s : State} {n : BitVec 12} (op : Nat) (h : csrClosed s n = false) : csrPriv op n s = .ok ((), s) := by
  simp only [csrPriv, M.bind_run, getTh_run, csrForbidden_eq, h, Bool.false_eq_true, if_false, M.pure_run]

/-- An instruction whose checks pass and whose body stops leaves the machine to the stop. -/
theorem runI_stop {h : Head} {pre : M Unit} {body : M Ctl} {s s' : State} {e : Stop} (hi : Issues s h) (hpre : pre s = .ok ((), s'))
    (hb : body s = .error e) : runI h none pre body s = .next (s.stopped e) := by
  simp [runI, hi.guard, hpre, hb]

theorem stopped_trap {s : State} {h : Head} (hi : Issues s h) (c : Byte) (tv : Word) :
    s.stopped (.trap c tv 0#5) = s.takeTrap s.cur c tv 0#5 := by
  simp [State.stopped, hi.own]

/-! ### csrr -/

theorem csrr_waits {s : State} {h : Head} {d : Fld} {n : BitVec 12} (hi : Issues s h) (hf : FieldsOk s [(.ws, d)])
    (ha : (1 ≤ n.toNat ∧ n.toNat ≤ 4) ∨ n.toNat = 0x012) (hw : ¬AtAnchor s) :
    exec (.csrr h d n) s = .next (s.stopped (.wait .anchor)) := by
  refine runU_stop hi ?_
  simp only [csrRead, M.bind_run, check1_ok hf, if_pos (csrAnchored_iff.mpr ha), anchor_wait hw]

theorem csrr_completes {s s₂ : State} {h : Head} {d : Fld} {n : BitVec 12} (hi : Issues s h) (hn : csrAssigned n = true)
    (hf : FieldsOk s [(.ws, d)]) (ha : (1 ≤ n.toNat ∧ n.toNat ≤ 4) ∨ n.toNat = 0x012 → AtAnchor s)
    (hw : writeS d (csrValue s n.toNat) s = .ok ((), s₂)) : exec (.csrr h d n) s = .next (s₂.finish .fall) := by
  refine runU_done hi ?_ (by decide)
  simp only [csrRead, M.bind_run, check1_ok hf, anchorIf_run ha, M.get_run, csr_eq_csrValue hn, hw, M.pure_run]

/-! ### csrw, csrs and csrc -/

/-- The opcode of an instruction that writes a control register, and the new value it makes of the old one and a: on fpflags and
elsewhere. -/
structure CsrForm (i : Instr) (h : Head) (d a : Fld) (n : BitVec 12) (op : Nat) (new flags : Word → Word → Word) : Prop where
  runs : ∀ s, exec i s = runI h none (csrPriv op n) (csrWrite op d a n new flags s) s
  value : ∀ old x, (if n.toNat = 0x011 then flags old x else new old x) = csrNew i old x
  opcode : BitVec.ofNat 64 op = csrOp i

theorem csrForm_of_writes {i : Instr} {h : Head} {d a : Fld} {n : BitVec 12}
    (hi : i = .csrw h d a n ∨ i = .csrs h d a n ∨ i = .csrc h d a n) : ∃ op new flags, CsrForm i h d a n op new flags := by
  rcases hi with rfl | rfl | rfl
  · exact ⟨_, _, _, fun _ => rfl, fun _ _ => rfl, rfl⟩
  · exact ⟨_, _, _, fun _ => rfl, fun _ _ => ite_self _, rfl⟩
  · exact ⟨_, _, _, fun _ => rfl, fun _ _ => ite_self _, rfl⟩

/-- The status word y puts a thread into firmware mode. -/
theorem firmware_iff (y : Word) : y.extractLsb' 0 2 = 2#2 ↔ y.toNat % 4 = 2 := by
  rw [← BitVec.toNat_inj, BitVec.extractLsb'_toNat]
  rfl

section
variable {s s₁ s₂ : State} {i : Instr} {h : Head} {d a : Fld} {n : BitVec 12} {x : Word} {op : Nat} {new flags : Word → Word → Word}
  (form : CsrForm i h d a n op new flags) (hi : Issues s h) (hc : csrClosed s n = false) (hf : FieldsOk s [(.ws, d), (.rs, a)])
include form hi hc hf

theorem CsrForm.waits (ha : (1 ≤ n.toNat ∧ n.toNat ≤ 4) ∨ n.toNat = 0x012) (hw : ¬AtAnchor s) :
    exec i s = .next (s.stopped (.wait .anchor)) := by
  rw [form.runs]
  refine runI_stop hi (csrPriv_ok op hc) ?_
  simp only [csrWrite, M.bind_run, check1_ok hf, if_pos (csrAnchored_iff.mpr ha), anchor_wait hw]

variable (hn : csrAssigned n = true) (ha : (1 ≤ n.toNat ∧ n.toNat ≤ 4) ∨ n.toNat = 0x012 → AtAnchor s) (hr : readS a s = .ok (x, s₁))
include hn ha hr

/-- A value for status with firmware mode in it, from a thread that is not there. -/
theorem CsrForm.traps (he : n.toNat = 0 ∧ (csrNew i (csrValue s₁ n.toNat) x).toNat % 4 = 2 ∧
    ¬(s.th.mode = 2#2 ∧ s.isGable s.th.core = true)) : exec i s = .next (s.takeTrap s.cur 0x07#8 (csrOp i) 0#5) := by
  have ho := (readS_read hr).operated
  rw [form.runs, ← form.opcode, ← stopped_trap hi]
  refine runI_stop hi (csrPriv_ok op hc) ?_
  simp only [csrWrite, M.bind_run, check1_ok hf, anchorIf_run ha, hr, M.get_run, csr_eq_csrValue hn, form.value, firmware_iff, ho.mode,
    ho.thCore, ho.isGable]
  rw [if_pos ⟨he.1, he.2.1, by simpa [imp_iff_not_or] using he.2.2⟩, trap_run]

theorem CsrForm.completes (he : ¬(n.toNat = 0 ∧ (csrNew i (csrValue s₁ n.toNat) x).toNat % 4 = 2 ∧
    ¬(s.th.mode = 2#2 ∧ s.isGable s.th.core = true))) (hw : writeS d (csrValue s₁ n.toNat) s₁ = .ok ((), s₂)) :
    exec i s = .next ((s₂.modTh fun t => t.setCsr n.toNat (csrNew i (csrValue s₁ n.toNat) x)).finish .fall) := by
  have ho := (readS_read hr).operated
  rw [form.runs]
  refine runI_done (.inl rfl) (by rw [csrPriv_ok op hc]; rfl) hi ?_ (by decide)
  simp only [csrWrite, M.bind_run, check1_ok hf, anchorIf_run ha, hr, M.get_run, csr_eq_csrValue hn, form.value, firmware_iff, ho.mode,
    ho.thCore, ho.isGable]
  rw [if_neg (by simpa using he)]
  simp only [M.bind_run, hw, modTh_run, M.pure_run]
end

/-- The status register stands where operands are read and written. -/
theorem Operated.status {s t : State} (h : Operated s t) : t.th.status = s.th.status := (congrArg (fun t : Thread => t.status) h.thread :)

/-- Settles O23: each number's value and what a write of it keeps, by cases over the numbers; then the one run of the three writing
instructions. -/
theorem controlRegisters : Obligations.ControlRegisters := by
  intro s s₁ s₂ h d a n x i hi hn anchored
  refine ⟨fun hf => ⟨csrr_waits hi hf, csrr_completes hi hn hf⟩, fun hw hc hf => ?_⟩
  obtain ⟨op, new, flags, form⟩ := csrForm_of_writes hw
  refine ⟨form.waits hi hc hf, fun ha hr => ⟨form.traps hi hc hf hn ha hr, fun he hd => ?_⟩⟩
  let y := csrNew i (csrValue s₁ n.toNat) x
  have hcur : s₂.cur = s.cur := (writeS_operated hd).cur.trans (readS_read hr).operated.cur
  have hm := csrWritable_of_open hn hc
  have hth : (s₂.modTh fun t => t.setCsr n.toNat y).th = s₂.th.setCsr n.toNat y := State.th_modTh ..
  refine ⟨_, form.completes hi hc hf hn ha hr he hd, csrValue_setCsr_self s₂ hm y fun h0 => ?_, fun m _ hne => ?_, ?_, ?_, ?_,
    fun id hid => ?_, rfl⟩
  · rw [(writeS_operated hd).status]
    simp only [h0]
    rfl
  · exact csrValue_setCsr_ne s₂ hm (fun he => hne (BitVec.eq_of_toNat_eq he)) y
  · exact hth ▸ (setCsr_timer s₂.th n.toNat y).1
  · exact hth ▸ (setCsr_timer s₂.th n.toNat y).2
  · rw [hth, noCsr_setCsr]
  · exact State.thr_setThr_ne _ _ (hcur ▸ hid)

end Sys2Proof.Machine
end

section
/-!
The integer instructions: numbers and their bits, each function as exact arithmetic narrowed at the end, and the three shapes
the instructions have.
-/
namespace Sys2Proof.Machine
open Sys2Proof.Claims

/-! ### Numbers from their bits -/

/-- The number below 2^n whose bits are those of p. -/
def bitSum (n : Nat) (p : Nat → Bool) : Nat := ((List.range n).map fun i => if p i then 2 ^ i else 0).sum

theorem bitSum_succ (n : Nat) (p : Nat → Bool) : bitSum (n + 1) p = bitSum n p + if p n then 2 ^ n else 0 := by
  simp [bitSum, List.range_succ]

theorem bitSum_lt (n : Nat) (p : Nat → Bool) : bitSum n p < 2 ^ n := by
  induction n with
  | zero => simp [bitSum]
  | succ n ih =>
    rw [bitSum_succ, Nat.pow_succ]
    split <;> omega

theorem testBit_bitSum (n : Nat) (p : Nat → Bool) (i : Nat) : (bitSum n p).testBit i = (decide (i < n) && p i) := by
  induction n with
  | zero => simp [bitSum]
  | succ n ih =>
    rw [bitSum_succ]
    have hlt := bitSum_lt n p
    rcases Nat.lt_trichotomy i n with h | h | h
    · rw [show decide (i < n + 1) = decide (i < n) by simp [h, Nat.lt_succ_of_lt h], ← ih]
      split
      · rw [Nat.add_comm, Nat.testBit_two_pow_add_gt h]
      · rw [Nat.add_zero]
    · subst h
      cases hp : p i
      · simp [Nat.testBit_lt_two_pow hlt]
      · simp [Nat.add_comm, Nat.testBit_two_pow_add_eq, Nat.testBit_lt_two_pow hlt]
    · have : (bitSum n p + if p n then 2 ^ n else 0) < 2 ^ i := by
        have := Nat.pow_le_pow_right (n := 2) (by decide) h
        rw [Nat.pow_succ] at this
        split <;> omega
      simp [Nat.testBit_lt_two_pow this, show ¬i < n + 1 by omega]

theorem ofNat_bitSum (w : Nat) (p : Nat → Bool) (x : BitVec w) (h : ∀ i, i < w → x.getLsbD i = p i) : x = BitVec.ofNat w (bitSum w p) := by
  refine BitVec.eq_of_getLsbD_eq fun i hi => ?_
  rw [h i hi, BitVec.getLsbD_ofNat, testBit_bitSum]
  simp [hi]

/-! ### Bits counted and reversed (R270) -/

theorem popAux_eq (n x : Nat) : popAux n x = ((List.range n).filter fun i => x.testBit i).length := by
  induction n generalizing x with
  | zero => rfl
  | succ n ih =>
    rw [popAux, ih, List.range_succ_eq_map, List.filter_cons, List.filter_map]
    have h2 : x % 2 = 0 ∨ x % 2 = 1 := by omega
    rcases h2 with h | h <;> simp [Function.comp_def, Nat.testBit_succ, h, Nat.testBit_zero, Nat.add_comm]

theorem ctzAux_eq (n x : Nat) : ctzAux n x = ((List.range n).takeWhile fun i => !x.testBit i).length := by
  induction n generalizing x with
  | zero => rfl
  | succ n ih =>
    rw [ctzAux, ih, List.range_succ_eq_map, List.takeWhile_cons, List.takeWhile_map]
    have h2 : x % 2 = 0 ∨ x % 2 = 1 := by omega
    rcases h2 with h | h <;> simp [Function.comp_def, Nat.testBit_succ, h, Nat.testBit_zero, Nat.add_comm]

theorem testBit_revAux (n x acc i : Nat) : (revAux n x acc).testBit i = if i < n then x.testBit (n - 1 - i) else acc.testBit (i - n) := by
  induction n generalizing x acc with
  | zero => simp [revAux]
  | succ n ih =>
    rw [revAux, ih]
    by_cases h : i < n
    · rw [if_pos h, if_pos (by omega), show n + 1 - 1 - i = n - 1 - i + 1 by omega, Nat.testBit_succ]
    · rw [if_neg h]
      by_cases h' : i = n
      · subst h'
        simp [Nat.testBit_zero]
      · rw [if_neg (by omega), show i - n = i - (n + 1) + 1 by omega, Nat.testBit_succ]
        congr 1
        omega

theorem bitsW_pop (x : Word) : bitsW .pop x = BitVec.ofNat 64 ((List.range 64).filter fun i => x.getLsbD i).length :=
  congrArg (BitVec.ofNat 64) (popAux_eq 64 x.toNat)
theorem bitsW_ctz (x : Word) : bitsW .ctz x = BitVec.ofNat 64 ((List.range 64).takeWhile fun i => !x.getLsbD i).length :=
  congrArg (BitVec.ofNat 64) (ctzAux_eq 64 x.toNat)
theorem takeWhile_congr {α : Type} {p q : α → Bool} {xs : List α} (h : ∀ x ∈ xs, p x = q x) : xs.takeWhile p = xs.takeWhile q := by
  induction xs with
  | nil => rfl
  | cons x xs ih =>
    obtain ⟨hx, hr⟩ := List.forall_mem_cons.mp h
    rw [List.takeWhile_cons, List.takeWhile_cons, hx, ih hr]
theorem bitsW_clz (x : Word) : bitsW .clz x = BitVec.ofNat 64 ((List.range 64).takeWhile fun i => !x.getLsbD (63 - i)).length := by
  refine congrArg (BitVec.ofNat 64) ((ctzAux_eq 64 _).trans (congrArg List.length (takeWhile_congr fun i hi => ?_)))
  rw [testBit_revAux, if_pos (List.mem_range.mp hi)]
  rfl
theorem bitsW_rev (x : Word) : bitsW .rev x = BitVec.ofNat 64 (bitSum 64 fun i => x.getLsbD (63 - i)) :=
  ofNat_bitSum 64 _ _ fun i hi => by
    rw [bitsW, BitVec.getLsbD_ofNat, testBit_revAux, if_pos hi, decide_eq_true hi, Bool.true_and]
    rfl

/-! ### Fields (R271) -/

theorem extW_unsigned (pos w : Nat) (x : Word) : extW false pos w x = BitVec.ofNat 64 (fieldAt pos w x) := by
  simp [extW, fieldAt]

theorem extW_signed (pos : Nat) {w : Nat} (hw : w < 64) (x : Word) : extW true pos (w + 1) x =
    BitVec.ofInt 64 (if 2 ^ w ≤ fieldAt pos (w + 1) x then (fieldAt pos (w + 1) x : Int) - 2 ^ (w + 1) else fieldAt pos (w + 1) x) := by
  have hf : fieldAt pos (w + 1) x < 2 ^ (w + 1) := Nat.mod_lt _ (Nat.two_pow_pos _)
  have hb : (fieldAt pos (w + 1) x).testBit w = decide (2 ^ w ≤ fieldAt pos (w + 1) x) := by
    rw [Nat.testBit_eq_decide_div_mod_eq]
    refine decide_eq_decide.mpr ?_
    rw [Nat.pow_succ] at hf
    have hlt : fieldAt pos (w + 1) x / 2 ^ w < 2 := (Nat.div_lt_iff_lt_mul (Nat.two_pow_pos w)).mpr (by omega)
    rw [Nat.mod_eq_of_lt hlt, ← Nat.one_le_div_iff (Nat.two_pow_pos w)]
    omega
  have hle : 2 ^ (w + 1) ≤ 2 ^ 64 := Nat.pow_le_pow_right (by decide) hw
  have hx : extW true pos (w + 1) x = if (fieldAt pos (w + 1) x).testBit w then
    BitVec.ofNat 64 (fieldAt pos (w + 1) x + (2 ^ 64 - 2 ^ (w + 1))) else BitVec.ofNat 64 (fieldAt pos (w + 1) x) := by
    simp [extW, fieldAt]
  rw [hx, hb]
  generalize fieldAt pos (w + 1) x = f at hf
  by_cases h : 2 ^ w ≤ f
  · rw [decide_eq_true h, if_pos rfl, if_pos h]
    rw [← BitVec.ofInt_natCast]
    refine BitVec.eq_of_toInt_eq ?_
    rw [BitVec.toInt_ofInt, BitVec.toInt_ofInt]
    have hs : ((f + (2 ^ 64 - 2 ^ (w + 1)) : Nat) : Int) = f - 2 ^ (w + 1) + (2 ^ 64 : Nat) := by
      rw [Nat.cast_add, Nat.cast_sub hle]
      push_cast
      ring
    rw [hs, Int.add_bmod_right]
  · rw [decide_eq_false h, if_neg (by decide), if_neg h, BitVec.ofInt_natCast]

theorem insW_eq (pos w : Nat) (x y : Word) : insW pos w x y =
    BitVec.ofNat 64 (y.toNat - fieldAt pos w y * 2 ^ pos + x.toNat % 2 ^ w * 2 ^ pos) := by
  have hy : y.toNat - fieldAt pos w y * 2 ^ pos = 2 ^ pos * (2 ^ w * (y.toNat / 2 ^ pos / 2 ^ w)) + y.toNat % 2 ^ pos := by
    have h1 := Nat.div_add_mod y.toNat (2 ^ pos)
    have h2 := Nat.div_add_mod (y.toNat / 2 ^ pos) (2 ^ w)
    rw [fieldAt, Nat.mul_comm _ (2 ^ pos)]
    refine Nat.sub_eq_of_eq_add ?_
    rw [Nat.add_right_comm, ← Nat.mul_add, h2, h1]
  have hsum : y.toNat - fieldAt pos w y * 2 ^ pos + x.toNat % 2 ^ w * 2 ^ pos =
      2 ^ pos * (2 ^ w * (y.toNat / 2 ^ pos / 2 ^ w) + x.toNat % 2 ^ w) + y.toNat % 2 ^ pos := by
    rw [hy]; ring
  rw [hsum]
  refine BitVec.eq_of_getLsbD_eq fun i hi => ?_
  have hm : ((2 ^ w - 1) * 2 ^ pos).testBit i = decide (pos ≤ i ∧ i < pos + w) := by
    rw [Nat.testBit_mul_two_pow, Nat.testBit_two_pow_sub_one, ← Bool.decide_and]
    exact decide_eq_decide.mpr (by omega)
  simp only [insW, BitVec.getLsbD_or, BitVec.getLsbD_and, BitVec.getLsbD_not, BitVec.getLsbD_ofNat, hi, decide_true, Bool.true_and, hm,
    Nat.testBit_mul_two_pow, Nat.testBit_two_pow_mul_add _ (Nat.mod_lt y.toNat (Nat.two_pow_pos pos)),
    Nat.testBit_two_pow_mul_add _ (Nat.mod_lt x.toNat (Nat.two_pow_pos w)), Nat.testBit_mod_two_pow, Nat.testBit_div_two_pow]
  by_cases h1 : i < pos
  · simp [h1, Nat.not_le.mpr h1, BitVec.testBit_toNat]
  · by_cases h2 : i < pos + w
    · simp [h1, h2, Nat.not_lt.mp h1, show i - pos < w by omega]
    · simp [h1, h2, Nat.not_lt.mp h1, show ¬i - pos < w by omega, show i - pos - w + w + pos = i by omega, BitVec.testBit_toNat]

/-! ### Exact results narrowed to 64 bits (R263 to R271) -/

theorem add_narrowed (x y : Word) : x + y = BitVec.ofInt 64 (x.toInt + y.toInt) := by simp [BitVec.ofInt_add]
theorem sub_narrowed (x y : Word) : x - y = BitVec.ofInt 64 (x.toInt - y.toInt) := by
  refine BitVec.eq_of_toInt_eq ?_
  rw [BitVec.toInt_sub, BitVec.toInt_ofInt]
theorem mul_narrowed (x y : Word) : x * y = BitVec.ofInt 64 (x.toInt * y.toInt) := by simp [BitVec.ofInt_mul]

theorem addi_narrowed (x : Word) (imm : BitVec 16) : x + sext 16 imm = BitVec.ofInt 64 (x.toInt + imm.toInt) := by
  rw [add_narrowed, sext, BitVec.toInt_signExtend_of_le (by decide)]

/-- The upper half of a product of 128 bits. -/
theorem high_ofInt (z : Int) : (BitVec.ofInt 128 z).extractLsb' 64 64 = BitVec.ofInt 64 (z / 2 ^ 64) := by
  refine BitVec.eq_of_toNat_eq ?_
  rw [BitVec.extractLsb'_toNat, BitVec.toNat_ofInt, BitVec.toNat_ofInt, Nat.shiftRight_eq_div_pow]
  have h := Int.emod_emod_of_dvd
  omega

theorem mulHigh_exact (x y : Word) : mulHigh x y = BitVec.ofInt 64 (x.toInt * y.toInt / 2 ^ 64) := by
  rw [← high_ofInt, BitVec.ofInt_mul, mulHigh]
  rfl

theorem mulHighU_exact (x y : Word) : mulHighU x y = BitVec.ofNat 64 (x.toNat * y.toNat / 2 ^ 64) := by
  have hlt : x.toNat * y.toNat < 2 ^ 128 := by
    have := Nat.mul_lt_mul'' x.isLt y.isLt
    simpa using this
  refine BitVec.eq_of_toNat_eq ?_
  simp [mulHighU, BitVec.extractLsb'_toNat, Nat.shiftRight_eq_div_pow, BitVec.toNat_mul]
  omega

theorem sdiv_narrowed (x y : Word) : x.sdiv y = BitVec.ofInt 64 (x.toInt.tdiv y.toInt) := by
  refine BitVec.eq_of_toInt_eq ?_
  rw [BitVec.toInt_sdiv, BitVec.toInt_ofInt]
theorem srem_narrowed (x y : Word) : x.srem y = BitVec.ofInt 64 (x.toInt.tmod y.toInt) := by
  rw [← BitVec.toInt_srem, BitVec.ofInt_toInt]
theorem udiv_narrowed (x y : Word) : x / y = BitVec.ofNat 64 (x.toNat / y.toNat) := by
  rw [← BitVec.toNat_udiv, BitVec.ofNat_toNat, BitVec.setWidth_eq]
theorem umod_narrowed (x y : Word) : x % y = BitVec.ofNat 64 (x.toNat % y.toNat) := by
  rw [← BitVec.toNat_umod, BitVec.ofNat_toNat, BitVec.setWidth_eq]

theorem and_narrowed (x y : Word) : x &&& y = BitVec.ofNat 64 (x.toNat &&& y.toNat) := by
  rw [← BitVec.toNat_and, BitVec.ofNat_toNat, BitVec.setWidth_eq]
theorem or_narrowed (x y : Word) : x ||| y = BitVec.ofNat 64 (x.toNat ||| y.toNat) := by
  rw [← BitVec.toNat_or, BitVec.ofNat_toNat, BitVec.setWidth_eq]
theorem xor_narrowed (x y : Word) : x ^^^ y = BitVec.ofNat 64 (x.toNat ^^^ y.toNat) := by
  rw [← BitVec.toNat_xor, BitVec.ofNat_toNat, BitVec.setWidth_eq]
theorem toNat_zext (imm : BitVec 16) : (zext 16 imm).toNat = imm.toNat := BitVec.toNat_setWidth_of_le (by decide)

theorem shl_narrowed (x : Word) (n : Nat) : shiftW .ll x n = BitVec.ofNat 64 (x.toNat * 2 ^ n) := by
  refine BitVec.eq_of_toNat_eq ?_
  simp [shiftW, BitVec.toNat_shiftLeft, Nat.shiftLeft_eq]
theorem shr_narrowed (x : Word) (n : Nat) : shiftW .rl x n = BitVec.ofNat 64 (x.toNat / 2 ^ n) := by
  rw [← Nat.shiftRight_eq_div_pow, ← BitVec.toNat_ushiftRight, BitVec.ofNat_toNat, BitVec.setWidth_eq]
  rfl
theorem sra_narrowed (x : Word) (n : Nat) : shiftW .ra x n = BitVec.ofInt 64 (x.toInt / 2 ^ n) := by
  have h : (x.sshiftRight n).toInt = x.toInt / 2 ^ n := by
    rw [BitVec.toInt_sshiftRight, Int.shiftRight_eq_div_pow]
    norm_cast
  rw [← h, BitVec.ofInt_toInt]
  rfl

/-- A rotation is the two shifts joined: their bits do not meet. -/
theorem rot_narrowed (x : Word) {n : Nat} (h : n < 64) :
    shiftW .rot x n = BitVec.ofNat 64 (x.toNat / 2 ^ n + x.toNat * 2 ^ (64 - n)) := by
  have hlow : x.toNat / 2 ^ n < 2 ^ (64 - n) := by
    rw [Nat.div_lt_iff_lt_mul (Nat.two_pow_pos n), ← Nat.pow_add, Nat.sub_add_cancel (Nat.le_of_lt h)]
    exact x.isLt
  have hor : x.toNat / 2 ^ n + x.toNat * 2 ^ (64 - n) = x.toNat * 2 ^ (64 - n) ||| x.toNat / 2 ^ n := by
    rw [Nat.add_comm, ← Nat.shiftLeft_eq, Nat.shiftLeft_add_eq_or_of_lt hlow]
  rw [hor, BitVec.ofNat_or, ← shl_narrowed, ← shr_narrowed]
  simp only [shiftW, BitVec.rotateRight_def, Nat.mod_eq_of_lt h, BitVec.or_comm]

/-! ### Choices and constants (R266, R263, R269) -/

theorem minW_signed (x y : Word) : minW false x y = if x.toInt < y.toInt then x else y := by
  simp [minW, BitVec.slt_iff_toInt_lt]
theorem minW_unsigned (x y : Word) : minW true x y = if x.toNat < y.toNat then x else y := by
  simp [minW, BitVec.ult_iff_lt, BitVec.lt_def]
theorem maxW_signed (x y : Word) : maxW false x y = if x.toInt < y.toInt then y else x := by
  simp [maxW, BitVec.slt_iff_toInt_lt]
theorem maxW_unsigned (x y : Word) : maxW true x y = if x.toNat < y.toNat then y else x := by
  simp [maxW, BitVec.ult_iff_lt, BitVec.lt_def]

theorem movi_narrowed (zx : Bool) (imm : BitVec 32) :
    (if zx then zext 32 imm else sext 32 imm) = if zx then BitVec.ofNat 64 imm.toNat else BitVec.ofInt 64 imm.toInt := by
  split
  · exact (BitVec.ofNat_toNat ..).symm
  · rfl

theorem movh_joined (imm : BitVec 32) (x : Word) :
    imm ++ x.extractLsb' 0 32 = BitVec.ofNat 64 (imm.toNat * 2 ^ 32 + x.toNat % 2 ^ 32) := by
  have hlow : x.toNat % 2 ^ 32 < 2 ^ 32 := Nat.mod_lt _ (by decide)
  refine BitVec.eq_of_toNat_eq ?_
  rw [BitVec.toNat_append, BitVec.extractLsb'_toNat, Nat.shiftRight_zero, ← Nat.shiftLeft_add_eq_or_of_lt hlow, BitVec.toNat_ofNat,
    Nat.shiftLeft_eq]
  omega

theorem lea_narrowed (pc : Word) (imm : BitVec 32) : pc + sext 32 imm = BitVec.ofInt 64 (pc.toInt + imm.toInt) := by
  rw [add_narrowed, sext, BitVec.toInt_signExtend_of_le (by decide)]

/-- The predicates as one number; predicate 0 reads 1 (R272). -/
theorem preds_bitSum (t : Thread) : zext 16 (t.pred ||| 1#16) = BitVec.ofNat 64 (bitSum 16 t.p) := by
  have h : t.pred ||| 1#16 = BitVec.ofNat 16 (bitSum 16 t.p) := ofNat_bitSum 16 t.p _ fun i hi => by
    rw [BitVec.getLsbD_or, Thread.p, Bool.or_comm, BitVec.getLsbD_one]
    simp [Bool.beq_eq_decide_eq]
  rw [h, zext]
  refine BitVec.eq_of_toNat_eq ?_
  have := bitSum_lt 16 t.p
  simp
  omega

/-! ### Completion of the shapes -/

/-- The operands of one and of two fields, read one after the other. -/
theorem readAll_one {a : Fld} {s s₁ : State} {xs : List Word} (h : readAll [a] s = .ok (xs, s₁)) :
    ∃ x, xs = [x] ∧ readS a s = .ok (x, s₁) := by
  simp only [readAll, M.bind_run, M.pure_run] at h
  split at h
  · next x u hx => cases h; exact ⟨x, rfl, hx⟩
  · cases h

theorem readAll_two {a b : Fld} {s s₁ : State} {xs : List Word} (h : readAll [a, b] s = .ok (xs, s₁)) :
    ∃ x y u, xs = [x, y] ∧ readS a s = .ok (x, u) ∧ readS b u = .ok (y, s₁) := by
  simp only [readAll, M.bind_run, M.pure_run] at h
  split at h
  case h_2 => cases h
  next x u hx =>
  split at h
  case h_2 => cases h
  next ys v hy =>
  split at hy
  · next y w hb => cases hy; cases h; exact ⟨x, y, u, rfl, hx, hb⟩
  · cases hy

section
variable {s s₁ s₂ : State} {h : Head} {d a b : Fld} {f g : Word → Word → Word} {f₁ g₁ : Word → Word} {xs : List Word}

theorem int2_completes (hg : ∀ x y, f x y = g x y) (hi : Issues s h) (hf : FieldsOk s [(.ws, d), (.rs, a), (.rs, b)])
    (hr : readAll [a, b] s = .ok (xs, s₁)) (hw : writeS d (g (xs.getD 0 0#64) (xs.getD 1 0#64)) s₁ = .ok ((), s₂)) :
    runU h (int2 d a b f) s = .next (s₂.finish .fall) := by
  obtain ⟨x, y, u, rfl, ha, hb⟩ := readAll_two hr
  refine runU_done hi ?_ (by decide)
  simp only [int2, M.bind_run, check1_ok hf, ha, hb, hg]
  simp only [List.getD_cons_zero, List.getD_cons_succ] at hw
  simp only [hw, M.pure_run]

theorem int1_completes (hg : ∀ x, f₁ x = g₁ x) (hi : Issues s h) (hf : FieldsOk s [(.ws, d), (.rs, a)])
    (hr : readAll [a] s = .ok (xs, s₁)) (hw : writeS d (g₁ (xs.getD 0 0#64)) s₁ = .ok ((), s₂)) :
    runU h (int1 d a f₁) s = .next (s₂.finish .fall) := by
  obtain ⟨x, rfl, ha⟩ := readAll_one hr
  refine runU_done hi ?_ (by decide)
  simp only [int1, M.bind_run, check1_ok hf, ha, hg]
  simp only [List.getD_cons_zero] at hw
  simp only [hw, M.pure_run]

/-- A division by another number than 0. -/
theorem intDiv_completes (hg : ∀ x y, f x y = g x y) (hi : Issues s h) (hf : FieldsOk s [(.ws, d), (.rs, a), (.rs, b)])
    (hr : readAll [a, b] s = .ok (xs, s₁)) (h0 : xs.getD 1 0#64 ≠ 0#64)
    (hw : writeS d (g (xs.getD 0 0#64) (xs.getD 1 0#64)) s₁ = .ok ((), s₂)) :
    runU h (intDiv d a b f) s = .next (s₂.finish .fall) := by
  obtain ⟨x, y, u, rfl, ha, hb⟩ := readAll_two hr
  simp only [List.getD_cons_zero, List.getD_cons_succ] at hw h0
  refine runU_done hi ?_ (by decide)
  simp only [intDiv, M.bind_run, check1_ok hf, ha, hb, hg, M.ite_run, if_neg h0, hw, M.pure_run]

theorem movi_completes {zx : Bool} {imm : BitVec 32} (hi : Issues s h) (hf : FieldsOk s [(.ws, d)])
    (hw : writeS d (if zx then BitVec.ofNat 64 imm.toNat else BitVec.ofInt 64 imm.toInt) s = .ok ((), s₂)) :
    exec (.movi h d zx imm) s = .next (s₂.finish .fall) := by
  refine runU_done hi ?_ (by decide)
  simp only [M.bind_run, check1_ok hf, movi_narrowed, hw, M.pure_run]

theorem lea_completes {imm : BitVec 32} (hi : Issues s h) (hf : FieldsOk s [(.ws, d)])
    (hw : writeS d (BitVec.ofInt 64 (s.th.pc.toInt + imm.toInt)) s = .ok ((), s₂)) :
    exec (.lea h d imm) s = .next (s₂.finish .fall) := by
  refine runU_done hi ?_ (by decide)
  simp only [M.bind_run, check1_ok hf, pcM, getTh_run, lea_narrowed, hw, M.pure_run]

theorem plogGet_completes (hi : Issues s h) (hf : FieldsOk s [(.ws, d)])
    (hw : writeS d (BitVec.ofNat 64 (bitSum 16 s.th.p)) s = .ok ((), s₂)) :
    exec (.plogGet h d) s = .next (s₂.finish .fall) := by
  refine runU_done hi ?_ (by decide)
  simp only [M.bind_run, check1_ok hf, getTh_run, preds_bitSum, hw, M.pure_run]

end

/-- Settles O11: each instruction is one of four shapes, and its function is the exact one narrowed. -/
theorem integerResults : Obligations.IntegerResults := by
  unfold Obligations.IntegerResults
  intro s s₁ s₂ i h d srcs f xs hres hi hf hr h0 hw
  unfold intResult at hres
  split at hres <;> cases hres
  · exact int2_completes add_narrowed hi hf hr hw
  · exact int2_completes sub_narrowed hi hf hr hw
  · exact int1_completes (fun x => addi_narrowed x _) hi hf hr hw
  · exact int2_completes mul_narrowed hi hf hr hw
  · exact int2_completes mulHigh_exact hi hf hr hw
  · exact int2_completes mulHighU_exact hi hf hr hw
  · exact intDiv_completes sdiv_narrowed hi hf hr (h0 rfl) hw
  · exact intDiv_completes udiv_narrowed hi hf hr (h0 rfl) hw
  · exact intDiv_completes srem_narrowed hi hf hr (h0 rfl) hw
  · exact intDiv_completes umod_narrowed hi hf hr (h0 rfl) hw
  · exact int2_completes and_narrowed hi hf hr hw
  · exact int2_completes or_narrowed hi hf hr hw
  · exact int2_completes xor_narrowed hi hf hr hw
  · next imm => exact int1_completes (fun x => toNat_zext imm ▸ and_narrowed x (zext 16 imm)) hi hf hr hw
  · next imm => exact int1_completes (fun x => toNat_zext imm ▸ or_narrowed x (zext 16 imm)) hi hf hr hw
  · next imm => exact int1_completes (fun x => toNat_zext imm ▸ xor_narrowed x (zext 16 imm)) hi hf hr hw
  · exact int2_completes (fun x y => shl_narrowed x _) hi hf hr hw
  · exact int2_completes (fun x y => shr_narrowed x _) hi hf hr hw
  · exact int2_completes (fun x y => sra_narrowed x _) hi hf hr hw
  · exact int1_completes (fun x => shl_narrowed x _) hi hf hr hw
  · exact int1_completes (fun x => shr_narrowed x _) hi hf hr hw
  · exact int1_completes (fun x => sra_narrowed x _) hi hf hr hw
  · next n => exact int1_completes (fun x => rot_narrowed x n.isLt) hi hf hr hw
  · exact int2_completes minW_signed hi hf hr hw
  · exact int2_completes minW_unsigned hi hf hr hw
  · exact int2_completes maxW_signed hi hf hr hw
  · exact int2_completes maxW_unsigned hi hf hr hw
  · cases hr
    exact movi_completes hi hf hw
  · exact int1_completes (movh_joined _) hi hf hr hw
  · cases hr
    exact lea_completes hi hf hw
  · exact int1_completes bitsW_pop hi hf hr hw
  · exact int1_completes bitsW_clz hi hf hr hw
  · exact int1_completes bitsW_ctz hi hf hr hw
  · exact int1_completes bitsW_rev hi hf hr hw
  · exact int1_completes (extW_unsigned _ _) hi hf hr hw
  · next wm1 => exact int1_completes (extW_signed _ wm1.isLt) hi hf hr hw
  · exact int2_completes (insW_eq _ _) hi hf hr hw
  · cases hr
    exact plogGet_completes hi hf hw

end Sys2Proof.Machine
end

section
/-!
Scalar floating point: exceptions accrued or trapped, and a machine on which the statement of its results fails.
-/
namespace Sys2Proof.Machine
open Sys2Proof.Claims

/-! ### Exceptions (R23, R24) -/

/-- The cause of the lowest exception is the one of the lowest flag. -/
theorem lowestFp_cause (fl : Flags) : (lowestFp fl).map (·.1) = fpCause fl := by
  revert fl
  decide

/-- Exceptions that are not enabled accrue. -/
theorem raise_ok {fl : Flags} {s : State} (h : fpCause (fl &&& s.th.enables) = none) : raise fl s = .ok ((), withFlags s fl) := by
  rw [← lowestFp_cause, Option.map_eq_none_iff] at h
  simp only [raise, M.bind_run, getTh_run, h, modTh_run]
  rfl

/-- An enabled one traps. -/
theorem raise_trap {fl : Flags} {s : State} {c : Byte} (h : fpCause (fl &&& s.th.enables) = some c) :
    raise fl s = .error (.trap c 1#64 fl) := by
  rw [← lowestFp_cause] at h
  obtain ⟨⟨c', e⟩, he, rfl⟩ := Option.map_eq_some_iff.mp h
  simp only [raise, M.bind_run, getTh_run, he, M.throw_run]

/-- No exception has no cause. -/
theorem fpCause_zero : fpCause 0#5 = none := by decide

/-! ### Traps of scalar floating point (R24, R201) -/

theorem OperandsRead.enables {s t : State} (h : OperandsRead s t) : t.th.enables = s.th.enables :=
  (congrArg (fun t : Thread => t.enables) h.thread :)

/-- A trap with exceptions of an instruction on its own core. -/
theorem stopped_raised {s : State} {h : Head} (hi : Issues s h) (c : Byte) (tv : Word) (fl : Flags) :
    s.stopped (.trap c tv fl) = s.takeTrap s.cur c tv fl := by
  simp [State.stopped, hi.own]

section
variable {s s₁ : State} {h : Head} {d : Fld} {c : Byte} {xs : List Word}

theorem fArith_traps {o : FOp} {t : FTy} {rc : Rc} {a b c' : Fld} {reads : List Fld} (hi : Issues s h)
    (hf : FieldsOk s ((.ws, d) :: fieldsAs .rs reads)) (hr : readAll reads s = .ok (xs, s₁)) (r : Nat × Flags)
    (hq : r = fop (ftySpec t) (s.th.rmode rc) o (lowNat (ftySpec t) (xs.getD 0 0#64)) (lowNat (ftySpec t) (xs.getD 1 0#64))
      (lowNat (ftySpec t) (xs.getD 2 0#64))) (hc : fpCause (r.2 &&& s.th.enables) = some c) :
    runU h (fArith o t rc d a b c' reads) s = .next (s.takeTrap s.cur c 1#64 r.2) := by
  rw [← stopped_raised hi]
  refine runU_stop hi ?_
  rw [← (readAll_read hr).enables] at hc
  have hk : check1 ((.ws, d) :: reads.map fun f => (.rs, f)) s = .ok ((), s) := check1_ok hf
  simp only [fArith, M.bind_run, hk, getTh_run, hr, ← hq, raise_trap hc]

theorem convert_traps {a : Fld} {x : Word} {fl : Thread → Word → Flags} {k : Thread → Word → M Ctl} (hi : Issues s h)
    (hf : FieldsOk s [(.ws, d), (.rs, a)]) (ha : readS a s = .ok (x, s₁)) (hc : fpCause (fl s.th x &&& s.th.enables) = some c) :
    runU h (do check1 [(.ws, d), (.rs, a)]; let th ← getTh; let x ← readS a; raise (fl th x); k th x) s =
      .next (s.takeTrap s.cur c 1#64 (fl s.th x)) := by
  rw [← stopped_raised hi]
  refine runU_stop hi ?_
  rw [← (readS_read ha).enables] at hc
  simp only [M.bind_run, check1_ok hf, getTh_run, ha, raise_trap hc]

end

/-- The trap of an enabled exception. -/
theorem scalarFloatTraps : ScalarFloatTraps := by
  intro s s₁ i o xs c hs hi hf hr r hc
  unfold fpIns at hs
  split at hs <;> cases hs
  · exact fArith_traps hi hf hr _ rfl hc
  · exact fArith_traps hi hf hr _ rfl hc
  · exact fArith_traps hi hf hr _ rfl hc
  · exact fArith_traps hi hf hr _ rfl hc
  · exact fArith_traps hi hf hr _ rfl hc
  · exact fArith_traps hi hf hr _ rfl hc
  · exact fArith_traps hi hf hr _ rfl hc
  · exact fArith_traps hi hf hr _ rfl hc
  · -- a sign operation raises nothing
    simp [r, fpCause_zero] at hc
  · next tgt src rc =>
    obtain ⟨x, rfl, ha⟩ := readAll_one hr
    exact convert_traps (fl := fun th x => (cvt src tgt (th.rmode rc) th.sat8 (x.toNat % 2 ^ fmtWidth src)).2) hi hf ha hc
  · next tgt src rc =>
    obtain ⟨x, rfl, ha⟩ := readAll_one hr
    exact convert_traps (fl := fun th x => (cvtIntegral (ftySpec src) (ftySpec tgt) (th.rmode rc) (lowNat (ftySpec src) x)).2) hi hf ha hc

/-! ### A machine whose thread table is out of order -/

/-- A thread of core 0 that waits for the full bit of the first shared register. -/
def waiter (n : Nat) : Thread := { Thread.blank with thid := BitVec.ofNat 32 n, W := 128, wait := .fullBit 0x90#8 true }

/-- Thread 1 is in hand, and its record stands after that of thread 2: a table no run of the machine makes, for its keys do not rise. -/
def unordered : State := { State.reset with agenda := [], cur := 1#32, threads := [(2, waiter 2), (1, waiter 1)] }

/-- A sign operation on zr that writes the first shared register. -/
def negShared : Instr := .fsgn ⟨0#4, false⟩ ⟨0x90#8, false⟩ ⟨0x80#8, false⟩ ⟨0x80#8, false⟩ .s .neg

/-- The events an outcome has posted, oldest first. -/
def eventsOf (o : Host.Outcome State Fault Refusal) : List Instr :=
  match o with | .next t => t.agenda.map fun p : Posting => p.ev | _ => []

/-- The machine that writing −0 to a shared register with no tangents leaves. -/
def wroteShared (s : State) : State :=
  match writeST ⟨0x90#8, false⟩ 0x80000000#64 [] s with | .ok (_, t) => t | .error _ => s

/-- Refutes O12: fsgn raises no exception and writes fpflags not at all, where the statement writes them with nothing added. That
replaces the record of the thread in hand; in a table out of order the new record comes first, and of two threads that wait for the
register written the one is told before the other. -/
theorem not_scalarFloat : ¬ Obligations.ScalarFloat := by
  unfold Obligations.ScalarFloat
  intro hall
  have h := hall unordered unordered (wroteShared (withFlags unordered 0#5)) negShared _ [0#64] [] rfl ⟨rfl, rfl⟩
    (by unfold FieldsOk; decide) rfl (by decide) rfl (by decide) rfl
  exact absurd (congrArg eventsOf h) (by decide +kernel)

end Sys2Proof.Machine
end

section
/-!
A synchronous cause while ie = 0 (R206): what ending a thread and posting a cause leave of the threads and of the logs.
-/
namespace Sys2Proof.Machine
open Sys2Proof.Claims

/-! ### Steps that touch one thread (R53, R246, R204) -/

/-- From s to t only the record of one thread has changed, in other fields than p reads; dumps, life log and kernels are as they were. -/
structure OneThread {α : Type} (p : Thread → α) (id : Word32) (s t : State) : Prop where
  others : ∀ x, x ≠ id → t.threads.look x.toNat = s.threads.look x.toNat
  thread : p (t.thr id) = p (s.thr id)
  dumps : t.dumps = s.dumps
  lifelog : t.lifelog = s.lifelog
  kernels : t.kernels = s.kernels

section
variable {α : Type} {p : Thread → α} {id : Word32} {s t u : State}

theorem OneThread.refl (s : State) : OneThread p id s s := ⟨fun _ _ => rfl, rfl, rfl, rfl, rfl⟩
theorem OneThread.trans (h : OneThread p id s t) (g : OneThread p id t u) : OneThread p id s u :=
  ⟨fun x hx => (g.others x hx).trans (h.others x hx), g.thread.trans h.thread, g.dumps.trans h.dumps, g.lifelog.trans h.lifelog,
    g.kernels.trans h.kernels⟩
/-- A reading of the thread that the one given determines. -/
theorem OneThread.map {β : Type} {q : Thread → β} (f : α → β) (hq : ∀ t, q t = f (p t)) (h : OneThread p id s t) : OneThread q id s t :=
  ⟨h.others, by rw [hq, hq, h.thread], h.dumps, h.lifelog, h.kernels⟩

variable (h : OneThread p id s t)
include h

/-- A step that leaves the threads and the logs alone. -/
theorem OneThread.elsewhere (ht : u.threads = t.threads := by rfl) (hd : u.dumps = t.dumps := by rfl) (hl : u.lifelog = t.lifelog := by rfl)
    (hk : u.kernels = t.kernels := by rfl) : OneThread p id s u :=
  h.trans ⟨fun _ _ => by rw [ht], by simp only [State.thr, ht], hd, hl, hk⟩
theorem OneThread.setThr {x : Thread} (hx : p x = p (t.thr id) := by rfl) : OneThread p id s (t.setThr id x) := by
  refine h.trans ⟨fun y hy => ?_, by rw [State.thr_setThr_self, hx], rfl, rfl, rfl⟩
  rw [State.setThr_threads, Tbl.look_ins, if_neg fun he => hy (BitVec.eq_of_toNat_eq he)]
theorem OneThread.modThr {f : Thread → Thread} (hf : ∀ x, p (f x) = p x := by intro; rfl) : OneThread p id s (t.modThr id f) :=
  h.setThr (hf _)
theorem OneThread.foldl {β : Type} {f : State → β → State} (step : ∀ u x, OneThread p id s u → OneThread p id s (f u x)) (xs : List β) :
    OneThread p id s (xs.foldl f t) :=
  foldl_keeps step xs h

theorem OneThread.modCore (c : Nat) (f : Core → Core) : OneThread p id s (t.modCore c f) := h.elsewhere
theorem OneThread.post (e : Instr) (c d : Nat) : OneThread p id s (t.post e c d) := h.elsewhere
theorem OneThread.leaveRun (x : Word32) : OneThread p id s (t.leaveRun x) := h.elsewhere
theorem OneThread.cacheOut (x : Word32) : OneThread p id s (t.cacheOut x) := h.elsewhere
theorem OneThread.ite {c : Prop} [Decidable c] (g : OneThread p id s u) : OneThread p id s (if c then t else u) := by
  split
  · exact h
  · exact g

theorem OneThread.postOnce (e : Instr) : OneThread p id s (t.postOnce e) := by
  unfold State.postOnce
  split
  · exact h
  · exact h.elsewhere
theorem OneThread.vacate : OneThread p id s (t.vacate id) := by
  unfold State.vacate
  split
  · exact h
  · exact OneThread.postOnce (OneThread.elsewhere h) _
theorem OneThread.taskDone (x : Thread) : OneThread p id s (t.taskDone x) := by
  unfold State.taskDone
  split
  · exact h
  · exact h.elsewhere
theorem OneThread.untake (hf : ∀ (x : Thread) (n : Nat) (b : Bool), p (x.setFull n b) = p x)
    (hb : ∀ x : Thread, p { x with taken := [], vals := [], planes := [] } = p x) : OneThread p id s (t.untake id) := by
  refine OneThread.modThr (OneThread.foldl h (fun u e hu => ?_) _) hb
  dsimp only
  split
  · exact hu.modThr fun x => hf x _ _
  · split
    · exact hu.elsewhere
    · split
      · exact hu
      · exact hu.elsewhere
theorem OneThread.pokeAll (q : Thread → Bool) : OneThread p id s (t.pokeAll q) := h.foldl (fun _ _ hu => hu.postOnce _) _
theorem OneThread.pokeHires (q : Hire → Bool) : OneThread p id s (t.pokeHires q) := h.foldl (fun _ _ hu => hu.postOnce _) _
theorem OneThread.setBook (r i : Nat) (b : Booking) : OneThread p id s (t.setBook r i b) := by
  unfold State.setBook
  split <;> exact h.elsewhere
theorem OneThread.cancelBook (r i : Nat) (b : Booking) (adv : Bool) : OneThread p id s (t.cancelBook r i b adv) := by
  unfold State.cancelBook
  refine OneThread.pokeAll (OneThread.foldl (OneThread.pokeHires ?_ _) (fun _ _ hu => hu.postOnce _) _) _
  split
  · exact (h.setBook ..).elsewhere
  · exact h.setBook ..
theorem OneThread.cancelBooks (x : Word32) : OneThread p id s (t.cancelBooks x) :=
  h.foldl (fun _ _ hu => hu.foldl (fun _ _ hv => hv.cancelBook ..) _) _
theorem OneThread.revokeAll (hg : ∀ (x : Thread) g, p { x with copyGen := g } = p x) : OneThread p id s (t.revokeAll id) := by
  refine OneThread.foldl (OneThread.modThr (h.foldl (fun _ _ hu => hu.postOnce _) _) fun x => hg x _) (fun _ _ hu => ?_) _
  exact OneThread.postOnce (OneThread.elsewhere hu) _
theorem OneThread.completeBarrier (k : Nat) (b : Barrier) : OneThread p id s (t.completeBarrier k b) :=
  OneThread.foldl (t := { t with barriers := t.barriers.ins k (b.complete (t.releaseCores k b)) }) h.elsewhere (fun _ _ hu => hu.post ..) _
theorem OneThread.dropMember (x : Word32) : OneThread p id s (t.dropMember x) := by
  unfold State.dropMember
  dsimp only
  refine OneThread.foldl (OneThread.elsewhere h) (fun u e hu => ?_) _
  split
  · exact hu.completeBarrier ..
  · exact hu.elsewhere
theorem OneThread.tryFree (x : Word32) : OneThread p id s (t.tryFree x) := by
  unfold State.tryFree
  dsimp only
  split
  · exact h.postOnce _
  · exact h
theorem OneThread.unseat (hf : ∀ x : Thread, p { x with saving := true, sliceCnt := 0, slicePend := false } = p x) :
    OneThread p id s (t.unseat id) := by
  unfold State.unseat
  split
  · exact h
  · exact OneThread.post (OneThread.modThr (OneThread.elsewhere h) hf) ..
end

/-- What an ending thread leaves behind is looked after while its record stands as it is. -/
def endTail (s : State) (id : Word32) (killed : Bool) : State :=
  let s := s.cancelBooks id
  let s := if killed then s.revokeAll id else s
  (s.dropMember id).tryFree id

theorem endTail_keeps (s : State) (id : Word32) (killed : Bool) : OneThread (fun t => (t.cCode, t.life)) id s (endTail s id killed) := by
  unfold endTail
  refine OneThread.tryFree (OneThread.dropMember ?_ _) _
  split
  · exact OneThread.revokeAll (OneThread.cancelBooks (.refl s) _) fun _ _ => rfl
  · exact OneThread.cancelBooks (.refl s) _

/-- Ending a thread marks its record and then looks after what it leaves behind. -/
theorem endThread_eq (s : State) (id : Word32) (killed : Bool) : ∃ u, OneThread (fun t => t.cCode) id s u ∧ (u.thr id).life = .exited ∧
    s.endThread id killed = endTail u id killed := by
  refine ⟨_, ?_, ?_, rfl⟩
  · refine OneThread.modThr (OneThread.cacheOut (OneThread.vacate (OneThread.leaveRun ?_ _)) _)
    split
    · exact OneThread.taskDone (.refl s) _
    · exact OneThread.untake (OneThread.taskDone (.refl s) _) (fun x n b => by unfold Thread.setFull; split <;> rfl) fun _ => rfl
  · simp [State.modThr]

/-- Ending a thread touches no other and keeps the cause it stopped with. -/
theorem oneThread_endThread (s : State) (id : Word32) (killed : Bool) : OneThread (fun t => t.cCode) id s (s.endThread id killed) := by
  obtain ⟨u, hu, -, he⟩ := endThread_eq s id killed
  rw [he]
  exact hu.trans ((endTail_keeps u id killed).map Prod.fst fun _ => rfl)

theorem endThread_exited (s : State) (id : Word32) (killed : Bool) : ((s.endThread id killed).thr id).life = .exited := by
  obtain ⟨u, -, hl, he⟩ := endThread_eq s id killed
  rw [he, ← hl]
  exact ((endTail_keeps u id killed).map Prod.snd fun _ => rfl).thread

/-! ### Posting a cause (R204) -/

section
variable {s t : State} {id : Word32} (h : OneThread (fun x => x.posted) id s t)
include h

theorem OneThread.joinRun : OneThread (fun x => x.posted) id s (t.joinRun id) :=
  OneThread.postOnce (OneThread.modCore (OneThread.setThr h) ..) _

theorem OneThread.wake : OneThread (fun x => x.posted) id s (t.wake id) := by
  have h' := h.modThr (f := fun t => { t with reissue := t.wait != .none, bound := t.wait != .none && !t.interruptible })
  unfold State.wake
  dsimp only
  split
  · exact OneThread.setThr h'
  · exact h'.joinRun
  all_goals exact h'

theorem OneThread.abandonWait : OneThread (fun x => x.posted) id s (t.abandonWait id) :=
  OneThread.modThr (OneThread.wake (OneThread.modThr h))

theorem OneThread.startWait (w : Wait) : OneThread (fun x => x.posted) id s (t.startWait id w) := by
  unfold State.startWait
  extract_lets _ _ _ _ _ x u held
  have hu : OneThread (fun x => x.posted) id s u := by
    refine OneThread.ite (OneThread.unseat (OneThread.setThr h ?_) fun _ => rfl) (OneThread.setThr h ?_) <;> exact (rfl : x.posted = _)
  exact hu.abandonWait.ite hu
end

/-- A thread that a cause has been posted to; a fifth is dropped. -/
def Thread.given (t : Thread) (c : Posted) : Thread :=
  if t.posted.length < 4 then { t with posted := t.posted ++ [c] } else { t with lost := true }

theorem Thread.posted_given {t : Thread} {c : Posted} (h : t.posted.length < 4) : c ∈ (t.given c).posted := by
  simp [Thread.given, h]

/-- Posting a cause to a thread that has not exited gives it the cause and keeps what it holds. -/
theorem postCause_gives {s : State} {id : Word32} {t : Thread} (code : Byte) (tv : Word) (hk : s.threads.look id.toNat = some t)
    (hl : t.life ≠ .exited) :
    OneThread (fun x => x.posted) id (s.setThr id (t.given ⟨code, tv⟩)) (s.postCause id code tv) := by
  have h := OneThread.refl (p := fun x : Thread => x.posted) (id := id) (s.setThr id (t.given ⟨code, tv⟩))
  unfold State.postCause
  rw [hk]
  dsimp only
  rw [if_neg (by simpa using hl), ← Thread.given]
  refine OneThread.ite h ?_
  split
  · exact OneThread.post (h.startWait _) ..
  · exact .ite (h.postOnce _) (h.abandonWait.ite h)

/-! ### The double trap (R206) -/

/-- The lowest live rank beside a thread is the same where no other thread has changed. -/
theorem lowestRank_eq {id : Word32} {s t : State} (hk : t.kernels = s.kernels)
    (ho : ∀ x, x ≠ id → t.threads.look x.toNat = s.threads.look x.toNat) (k : Nat) :
    t.lowestRank k (some id) = s.lowestRank k (some id) := by
  unfold State.lowestRank
  rw [hk]
  split
  · rfl
  · next x =>
    congr 2
    funext e
    by_cases he : e.2 = id
    · simp [he]
    · simp only [State.live, ho e.2 he]

/-- The lowest live rank beside a thread is live, and another thread. -/
theorem lowestRank_live {s : State} {k : Nat} {id r : Word32} (h : s.lowestRank k (some id) = some r) : r ≠ id ∧ s.live r = true := by
  unfold State.lowestRank at h
  split at h
  · cases h
  · next x hx =>
    obtain ⟨e, he, rfl⟩ := Option.map_eq_some_iff.mp h
    have hp := List.find?_some he
    simpa using hp

/-- The machine a double trap ends the thread in: its dump is written, its cause recorded. -/
def State.dumped (s : State) (id : Word32) (code : Byte) : State :=
  let t := { s.thr id with cCode := code, cAsync := false }
  { s with dumps := s.dumps.ins t.core (t.image 5 t.core []) }.setThr id t

/-- The lowest live rank of the kernel, if there is one, learns of the end of a thread. -/
def State.toldRank (s : State) (id : Word32) (k : Option Nat) : State :=
  match k with
  | none => s
  | some k => match s.lowestRank k (some id) with
    | some r => s.postCause r 0xE3#8 (id.zeroExtend 64)
    | none => s

theorem doubleTrap_eq (s : State) (id : Word32) (code : Byte) (tv : Word) :
    s.doubleTrap id code tv = (((s.dumped id code).endThread id true).toldRank id (s.thr id).kernel).count lgDouble := by
  unfold State.doubleTrap
  extract_lets _ t _ a b c
  have ha : a = s.dumped id code := rfl
  have hb : b = (s.dumped id code).endThread id true := by rw [← ha]
  have hk : t.kernel = (s.thr id).kernel := rfl
  have hc : c = b.toldRank id (s.thr id).kernel := by
    rw [← hk]
    clear_value b t
    cases ht : t.kernel with
    | none => simp only [c, ht, State.toldRank]
    | some k =>
      cases hr : b.lowestRank k (some id) <;> simp only [c, ht, hr, State.toldRank]
  rw [hc, hb]

/-- Telling a rank leaves the thread that ended and the logs as they were. -/
theorem toldRank_keeps (s : State) (id : Word32) (k : Option Nat) :
    (s.toldRank id k).thr id = s.thr id ∧ (s.toldRank id k).dumps = s.dumps ∧ (s.toldRank id k).lifelog = s.lifelog := by
  unfold State.toldRank
  split
  · exact ⟨rfl, rfl, rfl⟩
  split
  · next r hr =>
    obtain ⟨hne, hl⟩ := lowestRank_live hr
    unfold State.live at hl
    split at hl
    · next t ht =>
      have h := postCause_gives 0xE3#8 (id.zeroExtend 64) ht (by simpa using hl)
      refine ⟨?_, h.dumps, h.lifelog⟩
      rw [State.thr, Tbl.lookD, h.others id (Ne.symm hne), ← Tbl.lookD, ← State.thr, State.thr_setThr_ne _ _ (Ne.symm hne)]
    · cases hl
  · exact ⟨rfl, rfl, rfl⟩

/-- The rank told holds the cause if it held fewer than four. -/
theorem toldRank_posted {s : State} {id r : Word32} {k : Nat} (hr : s.lowestRank k (some id) = some r) (h4 : (s.thr r).posted.length < 4) :
    ⟨0xE3#8, id.zeroExtend 64⟩ ∈ ((s.toldRank id (some k)).thr r).posted := by
  obtain ⟨hne, hl⟩ := lowestRank_live hr
  simp only [State.toldRank, hr]
  unfold State.live at hl
  split at hl
  · next t ht =>
    have h := (postCause_gives 0xE3#8 (id.zeroExtend 64) ht (by simpa using hl)).thread
    rw [h, State.thr_setThr_self]
    rw [State.thr, Tbl.lookD, ht] at h4
    exact Thread.posted_given h4
  · cases hl

/-- A double trap: the dump, the end of the thread, the cause for the lowest live rank, and the count. -/
theorem doubleTraps : DoubleTrap := by
  intro s id code tv fl t u hie
  have hu : u = (s.setThr id { t with fpflags := t.fpflags ||| fl }).doubleTrap id code tv := by
    show s.takeTrap id code tv fl = _
    unfold State.takeTrap
    dsimp only
    rw [if_pos (by simpa [Thread.ie] using hie)]
  rw [doubleTrap_eq, State.thr_setThr_self] at hu
  generalize ha : (s.setThr id { t with fpflags := t.fpflags ||| fl }).dumped id code = a at hu
  have hathr : a.thr id = { t with fpflags := t.fpflags ||| fl, cCode := code, cAsync := false } := by
    rw [← ha, State.dumped, State.thr_setThr_self, State.thr_setThr_self]
  have haothers : ∀ x, x ≠ id → a.threads.look x.toNat = s.threads.look x.toNat := by
    intro x hx
    have hn : x.toNat ≠ id.toNat := fun he => hx (BitVec.eq_of_toNat_eq he)
    rw [← ha]
    simp [State.dumped, Tbl.look_ins, hn]
  have hadump : (a.dumps.look t.core).isSome = true := by
    rw [← ha]
    simp [State.dumped]
  have halog : a.lifelog = s.lifelog := by rw [← ha]; rfl
  have hakernels : a.kernels = s.kernels := by rw [← ha]; rfl
  have he := oneThread_endThread a id true
  have hlife := endThread_exited a id true
  generalize hb : a.endThread id true = b at hu he hlife
  obtain ⟨hthr, hdumps, hlog⟩ := toldRank_keeps b id t.kernel
  have hothers : ∀ x, x ≠ id → b.threads.look x.toNat = s.threads.look x.toNat := fun x hx => (he.others x hx).trans (haothers x hx)
  have hcount : ∀ x, u.thr x = (b.toldRank id t.kernel).thr x := fun x => by rw [hu]; rfl
  refine ⟨?_, ?_, ?_, ?_, ?_⟩
  · rw [hcount, hthr, hlife]
  · rw [hcount, hthr, he.thread, hathr]
  · rw [hu]
    show ((b.toldRank id t.kernel).dumps.look t.core).isSome = true
    rw [hdumps, he.dumps, hadump]
  · rw [hu]
    show ((b.toldRank id t.kernel).lifelog.ins lgDouble _).lookD lgDouble 0 = _
    rw [Tbl.lookD_ins, if_pos rfl, hlog, he.lifelog, halog]
    rfl
  · intro k r hk hr h4 hsome
    rw [hcount, hk]
    have hne := (lowestRank_live hr).1
    refine toldRank_posted ((lowestRank_eq (he.kernels.trans hakernels) hothers k).trans hr) ?_
    rw [State.thr, Tbl.lookD, hothers r hne]
    exact h4

/-- The trap of a thread's own instruction. -/
theorem trapIsPrecise : TrapIsPrecise := by
  intro s code tv fl
  exact ⟨fun h => by simp [State.stopped, h], fun h => by simp [State.stopped, h]⟩

end Sys2Proof.Machine
end

section
/-!
Vector registers as lanes (R16, R279): lanes read, joined and merged, masks, and the exceptions of lanes.
-/
namespace Sys2Proof.Machine
open Sys2Proof.Claims

/-! ### Lanes -/

/-- The widths of the lanes that instructions name. -/
def LaneWidth (w : Nat) : Prop := w = 8 ∨ w = 16 ∨ w = 32 ∨ w = 64

theorem laneWidth_fty (t : FTy) : LaneWidth (ftySpec t).width := by
  unfold LaneWidth
  cases t <;> decide
theorem laneWidth_fmt {t : Fmt} (h : t ≠ .f4) : LaneWidth (fmtWidth t) := by
  unfold LaneWidth
  revert h
  cases t <;> decide

section
variable {w : Nat} (hw : LaneWidth w)
include hw
theorem LaneWidth.pos : 0 < w := by rcases hw with rfl | rfl | rfl | rfl <;> decide
theorem LaneWidth.mul_lanes : w * (512 / w) = 512 := by rcases hw with rfl | rfl | rfl | rfl <;> rfl
theorem LaneWidth.lanes_le : 512 / w ≤ 64 := by rcases hw with rfl | rfl | rfl | rfl <;> decide
theorem LaneWidth.lanes_pos : 0 < 512 / w := by rcases hw with rfl | rfl | rfl | rfl <;> decide
end

theorem laneN_lt (w : Nat) (x : Vec) (i : Nat) : laneN w x i < 2 ^ w := Nat.mod_lt _ (Nat.two_pow_pos w)

/-- There is nothing above the last lane. -/
theorem laneN_above {w i : Nat} (hw : LaneWidth w) (x : Vec) (hi : 512 / w ≤ i) : laneN w x i = 0 := by
  have h : 512 ≤ w * i := hw.mul_lanes ▸ Nat.mul_le_mul_left w hi
  rw [laneN, Nat.div_eq_of_lt (Nat.lt_of_lt_of_le x.isLt (Nat.pow_le_pow_right (by decide) h)), Nat.zero_mod]

theorem getD_map_range (n : Nat) (f : Nat → α) (i : Nat) (d : α) : ((List.range n).map f).getD i d = if i < n then f i else d := by
  rw [List.getD_eq_getElem?_getD, List.getElem?_map]
  by_cases h : i < n <;> simp [h]

@[simp] theorem length_lanesOf (w : Nat) (x : Vec) : (lanesOf w x).length = 512 / w := by simp [lanesOf]

theorem getD_lanesOf {w : Nat} (hw : LaneWidth w) (x : Vec) (i : Nat) : (lanesOf w x).getD i 0 = laneN w x i := by
  rw [lanesOf, getD_map_range]
  split
  · rfl
  · next h => exact (laneN_above hw x (Nat.not_lt.mp h)).symm

/-- The number a list of lanes joins to. -/
def joined (w : Nat) (xs : List Nat) : Nat := xs.foldr (fun x acc => x % 2 ^ w + 2 ^ w * acc) 0

theorem joined_lt (w : Nat) (xs : List Nat) : joined w xs < 2 ^ (w * xs.length) := by
  induction xs with
  | nil => simp [joined]
  | cons x xs ih =>
    have hx : x % 2 ^ w < 2 ^ w := Nat.mod_lt _ (Nat.two_pow_pos w)
    calc x % 2 ^ w + 2 ^ w * joined w xs < 2 ^ w * (joined w xs + 1) := by rw [Nat.mul_add]; omega
      _ ≤ 2 ^ w * 2 ^ (w * xs.length) := Nat.mul_le_mul_left _ ih
      _ = 2 ^ (w * (x :: xs).length) := by rw [← Nat.pow_add, List.length_cons, Nat.mul_add, Nat.mul_one, Nat.add_comm]

theorem joined_lane (w : Nat) (xs : List Nat) (i : Nat) : joined w xs / 2 ^ (w * i) % 2 ^ w = xs.getD i 0 % 2 ^ w := by
  induction xs generalizing i with
  | nil => simp [joined]
  | cons x xs ih =>
    show (x % 2 ^ w + 2 ^ w * joined w xs) / 2 ^ (w * i) % 2 ^ w = _
    cases i with
    | zero => simp
    | succ i =>
      rw [Nat.mul_add, Nat.mul_one, Nat.add_comm (w * i), Nat.pow_add, ← Nat.div_div_eq_div_mul,
        Nat.add_mul_div_left _ _ (Nat.two_pow_pos w), Nat.div_eq_of_lt (Nat.mod_lt _ (Nat.two_pow_pos w)), Nat.zero_add, ih]
      rfl

theorem laneN_joinLanes {w : Nat} {xs : List Nat} (h : w * xs.length ≤ 512) (i : Nat) :
    laneN w (joinLanes w xs) i = xs.getD i 0 % 2 ^ w := by
  rw [laneN, joinLanes, ← joined, BitVec.toNat_ofNat,
    Nat.mod_eq_of_lt (Nat.lt_of_lt_of_le (joined_lt w xs) (Nat.pow_le_pow_right (by decide) h)), joined_lane]

/-- A register with new lanes put in under a mask. -/
def putLanes (w mask : Nat) (old : Vec) (new : List Nat) : Vec := joinLanes w (mergeLanes mask (lanesOf w old) new)

theorem laneN_putLanes {w i : Nat} (hw : LaneWidth w) (hi : i < 512 / w) (mask : Nat) (old : Vec) (new : List Nat) :
    laneN w (putLanes w mask old new) i = if mask.testBit i then new.getD i 0 % 2 ^ w else laneN w old i := by
  have hl : w * (mergeLanes mask (lanesOf w old) new).length ≤ 512 := by simp [mergeLanes, hw.mul_lanes]
  rw [putLanes, laneN_joinLanes hl, mergeLanes, length_lanesOf, getD_map_range, if_pos hi]
  split
  · rfl
  · rw [getD_lanesOf hw, Nat.mod_eq_of_lt (laneN_lt w old i)]

/-! ### Masks -/

theorem active_eq (s : State) (m : BitVec 3) {i : Nat} (hi : i < 64) : (s.th.mask m).testBit i = active s m i := by
  unfold Thread.mask active
  by_cases hm : m = 0#3
  · simp only [hm, if_true, Nat.testBit_two_pow_sub_one, hi, decide_true]
    rfl
  · rw [if_neg hm, Nat.testBit_mod_two_pow, decide_eq_true hi, Bool.true_and, beq_false_of_ne hm, Bool.false_or, BitVec.testBit_toNat]

theorem getD_lanewise (n mask : Nat) (f : Nat → Nat) (i : Nat) :
    (lanewise n mask f).getD i 0 = if i < n ∧ mask.testBit i = true then f i else 0 := by
  rw [lanewise, getD_map_range, ite_and]

theorem length_lanewise (n mask : Nat) (f : Nat → Nat) : (lanewise n mask f).length = n := by simp [lanewise]

/-- The lanes of a list that a mask selects, as numbers of lanes. -/
theorem activeOf_eq (mask : Nat) (xs : List Nat) {n : Nat} (h : xs.length = n) :
    activeOf mask xs = ((List.range n).filter mask.testBit).map fun i => xs.getD i 0 := by rw [activeOf, h]

/-- The values a mask selects of the lanes computed are those of the function. -/
theorem activeOf_lanewise (n mask : Nat) (f : Nat → Nat) : activeOf mask (lanewise n mask f) = ((List.range n).filter mask.testBit).map f := by
  rw [activeOf_eq _ _ (length_lanewise n mask f)]
  refine List.map_congr_left fun i hi => ?_
  obtain ⟨hi, hm⟩ := List.mem_filter.mp hi
  rw [getD_lanewise, if_pos ⟨List.mem_range.mp hi, hm⟩]

theorem filter_active (s : State) (m : BitVec 3) {n : Nat} (hn : n ≤ 64) :
    (List.range n).filter (s.th.mask m).testBit = (List.range n).filter (active s m) :=
  List.filter_congr fun _ hi => active_eq s m (Nat.lt_of_lt_of_le (List.mem_range.mp hi) hn)

/-! ### Exceptions of lanes (R24) -/

theorem foldl_or_eq (fls : List Flags) (a : Flags) : fls.foldl (· ||| ·) a = a ||| fls.foldl (· ||| ·) 0#5 := by
  induction fls generalizing a with
  | nil => simp
  | cons x xs ih => rw [List.foldl_cons, List.foldl_cons, ih, ih (0#5 ||| x), BitVec.zero_or, BitVec.or_assoc]

/-- The exceptions a list of lanes holds together. -/
theorem foldl_laneFlags {n : Nat} {w : Nat → Bool} {f : Nat → Flags} {fls : List Flags}
    (h : fls = (List.range n).map fun i => if w i then f i else 0#5) : fls.foldl (· ||| ·) 0#5 = allFlags n w f := by
  rw [h, List.foldl_map, allFlags]
  congr 1
  funext a i
  split <;> simp

/-- The lanes that raised one of the five exceptions. -/
theorem lanesRaising_eq {n : Nat} {w : Nat → Bool} {f : Nat → Flags} {fls : List Flags}
    (h : fls = (List.range n).map fun i => if w i then f i else 0#5) {e : Flags} {b : Nat}
    (he : ∀ x : Flags, x &&& e ≠ 0#5 ↔ x.getLsbD b = true) : lanesRaising fls e = raising n w f b := by
  have hsum : ∀ (is : List Nat) (a : Nat), is.foldl (fun n i => if fls.getD i 0#5 &&& e ≠ 0#5 then n + 2 ^ i else n) a =
      a + (is.map fun i => if fls.getD i 0#5 &&& e ≠ 0#5 then 2 ^ i else 0).sum := by
    intro is
    induction is with
    | nil => simp
    | cons i is ih =>
      intro a
      rw [List.foldl_cons, ih, List.map_cons, List.sum_cons]
      split <;> omega
  rw [lanesRaising, hsum, Nat.zero_add, raising, show fls.length = n by simp [h]]
  congr 1
  refine List.map_congr_left fun i hi => ?_
  have hf : fls.getD i 0#5 = if w i then f i else 0#5 := by rw [h, getD_map_range, if_pos (List.mem_range.mp hi)]
  simp only [he, hf]
  cases w i <;> simp

theorem lowestFp_bit {fl : Flags} {c : Byte} {e : Flags} (h : lowestFp fl = some (c, e)) :
    ∀ x : Flags, x &&& e ≠ 0#5 ↔ x.getLsbD (0xC4 - c.toNat) = true := by
  unfold lowestFp at h
  split at h
  · cases h; decide
  split at h
  · cases h; decide
  split at h
  · cases h; decide
  split at h
  · cases h; decide
  split at h
  · cases h; decide
  · cases h

variable {n : Nat} {w : Nat → Bool} {f : Nat → Flags} {fls : List Flags} {s : State}

theorem raiseV_ok (hf : fls = (List.range n).map fun i => if w i then f i else 0#5)
    (h : fpCause (allFlags n w f &&& s.th.enables) = none) : raiseV fls s = .ok ((), withFlags s (allFlags n w f)) := by
  rw [← lowestFp_cause, Option.map_eq_none_iff] at h
  simp only [raiseV, M.bind_run, getTh_run, foldl_laneFlags hf, h, modTh_run]
  rfl

theorem raiseV_trap {c : Byte} (hf : fls = (List.range n).map fun i => if w i then f i else 0#5)
    (h : fpCause (allFlags n w f &&& s.th.enables) = some c) :
    raiseV fls s = .error (.trap c (BitVec.ofNat 64 (raising n w f (0xC4 - c.toNat))) (allFlags n w f)) := by
  rw [← lowestFp_cause] at h
  obtain ⟨⟨c', e⟩, he, rfl⟩ := Option.map_eq_some_iff.mp h
  simp only [raiseV, M.bind_run, getTh_run, foldl_laneFlags hf, he, M.throw_run, lanesRaising_eq hf (lowestFp_bit he)]

end Sys2Proof.Machine
end

section
/-!
Vector operands read and vector results written (R34, R130, R279): what an instruction that completes leaves.
-/
namespace Sys2Proof.Machine
open Sys2Proof.Claims

/-- The first step of a body goes on, or stops it. -/
theorem M.bind_ok {α β : Type} {x : M α} {k : α → M β} {a : α} {s u : State} (h : x s = .ok (a, u)) : (x >>= k) s = k a u := by
  rw [M.bind_run, h]
theorem M.bind_error {α β : Type} {x : M α} {k : α → M β} {e : Stop} {s : State} (h : x s = .error e) : (x >>= k) s = .error e := by
  rw [M.bind_run, h]

/-! ### Reading (R210, R279) -/

section
variable {s : State} {d : Fld} {srcs : List Fld} {m : BitVec 3}

theorem regCheck_run (h : s.th.regErr = []) (f : BitVec 8) : regCheck true f s = .ok ((), s) := by
  simp [regCheck, State.regBad, h]

theorem regChecks_run (h : s.th.regErr = []) (fs : List Fld) : (fs.forM fun f => regCheck true f.spec) s = .ok ((), s) := by
  induction fs with
  | nil => rfl
  | cons f r ih =>
    show (regCheck true f.spec >>= fun _ => r.forM fun f => regCheck true f.spec) s = _
    rw [M.bind_run, regCheck_run h]
    exact ih

theorem checkMask_run (h : m ≠ 0#3 → m.toNat < s.th.V) : checkMask m s = .ok ((), s) := by
  simp only [checkMask, M.bind_run, getTh_run, M.ite_run, M.pure_run]
  rw [if_neg fun hm => Nat.not_lt.mpr hm.2 (h hm.1)]

theorem readMask_run (h : s.th.regErr = []) : readMask m s = .ok (s.th.mask m, s) := by
  simp only [readMask, M.bind_run, M.ite_run, regCheck_run h, M.pure_run, ite_self, getTh_run]

theorem vecReady_readVs (h : VecReady s d srcs m) (w : Nat) :
    readVs w srcs m s = .ok ((srcs.map fun f => s.th.vsrc w f.spec.toNat, s.th.mask m), s) := by
  simp only [readVs, M.bind_run, checkMask_run h.mask, regChecks_run h.sound, readMask_run h.sound, getTh_run, M.pure_run]

theorem vecReady_check1 (h : VecReady s d srcs m) : check1 ((.vec, d) :: srcs.map fun f => (.vec, f)) s = .ok ((), s) :=
  check1_ok h.fields

/-- A vector field that passes names one of the 32 registers. -/
theorem vec_lt {s : State} {f : Fld} (h : s.fieldCause s.th .vec f = none) : f.spec.toNat < 32 := by
  simp only [State.fieldCause] at h
  split at h
  · cases h
  · next hn => simp at hn; omega

theorem vecReady_dest (h : VecReady s d srcs m) : d.spec.toNat < 32 := vec_lt (h.fields _ (List.mem_cons_self ..))

theorem getD_map {α β : Type} (f : α → β) (xs : List α) (k : Nat) (e : β) :
    (xs.map f).getD k e = match xs[k]? with | some x => f x | none => e := by
  rw [List.getD_eq_getElem?_getD, List.getElem?_map]
  cases xs[k]? <;> rfl

/-- Lane i of source k. -/
theorem getD_srcs {w : Nat} (hw : LaneWidth w) (k i : Nat) :
    (((srcs.map fun f => s.th.vsrc w f.spec.toNat).map (·.xs)).getD k []).getD i 0 = lane s srcs w k i := by
  rw [List.map_map, getD_map, lane]
  cases srcs[k]? with
  | none => rfl
  | some f => exact getD_lanesOf hw _ i

/-- Lane i of tangent j of source k. -/
theorem getD_srcTans {w j : Nat} (hw : LaneWidth w) (hj : j < s.th.k) (k i : Nat) :
    (((srcs.map fun f => s.th.vsrc w f.spec.toNat).map fun v => (v.tan j).1).getD k []).getD i 0 = tanLane s srcs w j k i := by
  rw [List.map_map, getD_map, tanLane]
  cases srcs[k]? with
  | none => rfl
  | some f =>
    have ht : ((s.th.vsrc w f.spec.toNat).tan j).1 = lanesOf w (s.th.vT j f.spec.toNat) := by
      rw [VSrc.tan, Thread.vsrc, getD_map_range, if_pos hj]
    show ((s.th.vsrc w f.spec.toNat).tan j).1.getD i 0 = _
    rw [ht]
    exact getD_lanesOf hw _ i

end

/-! ### Writing (R34, R130, R281) -/

/-- What a vector instruction writes: lanes of a width under a mask, whether the old bounds are kept, the bound, and for each tangent its
lanes and bound. -/
structure VecWrite where
  w : Nat
  mask : Nat
  masked : Bool
  res : List Nat
  b : Word32
  ts : List (List Nat × Word32)

def VecWrite.bound (v : VecWrite) (old b : Word32) : Word32 := if v.masked then bMax old b else b
def VecWrite.tan (v : VecWrite) (j : Nat) : List Nat × Word32 := v.ts.getD j ([], 0#32)

/-- A thread with a register written, and of each of its tangents a value and a bound. -/
def Thread.putV (t : Thread) (i : Nat) (x : Vec) (b : Word32) (ts : Nat → Vec × Word32) : Thread :=
  (List.range t.k).foldl (fun t j => (t.setVT j i (ts j).1).setVTb j i (ts j).2) ((t.setV i x).setVb i b)

/-- Only the tangents and their bounds of a register change. -/
theorem putTans_fields (t : Thread) (i : Nat) (ts : Nat → Vec × Word32) (js : List Nat) :
    ∃ vt vtb, js.foldl (fun t j => (t.setVT j i (ts j).1).setVTb j i (ts j).2) t = { t with vt := vt, vtb := vtb } := by
  induction js generalizing t with
  | nil => exact ⟨_, _, rfl⟩
  | cons j js ih =>
    obtain ⟨vt, vtb, h⟩ := ih ((t.setVT j i (ts j).1).setVTb j i (ts j).2)
    exact ⟨vt, vtb, h⟩

theorem putTans_read (t : Thread) {i n : Nat} (ts : Nat → Vec × Word32) (hi : i < 32) (hn : n < 32) (k j : Nat) :
    let u := (List.range k).foldl (fun t j => (t.setVT j i (ts j).1).setVTb j i (ts j).2) t
    u.vT j n = (if n = i ∧ j < k then (ts j).1 else t.vT j n) ∧ u.vTb j n = (if n = i ∧ j < k then (ts j).2 else t.vTb j n) := by
  induction k with
  | zero => simp
  | succ k ih =>
    obtain ⟨h1, h2⟩ := ih
    have hk : 32 * j + n = 32 * k + i ↔ n = i ∧ j = k := by omega
    have hlt : (n = i ∧ j < k + 1) ↔ (n = i ∧ j = k) ∨ (n = i ∧ j < k) := by omega
    simp only [List.range_succ, List.foldl_append, List.foldl_cons, List.foldl_nil]
    generalize (List.range k).foldl (fun t j => (t.setVT j i (ts j).1).setVTb j i (ts j).2) t = u at h1 h2
    have hT : ((u.setVT k i (ts k).1).setVTb k i (ts k).2).vT j n = if n = i ∧ j = k then (ts k).1 else u.vT j n :=
      (Thread.vT_setVT u k i j n _).trans (if_congr hk rfl rfl)
    have hTb : ((u.setVT k i (ts k).1).setVTb k i (ts k).2).vTb j n = if n = i ∧ j = k then (ts k).2 else u.vTb j n :=
      (Thread.vTb_setVTb _ k i j n _).trans (if_congr hk rfl rfl)
    rw [hT, hTb, h1, h2]
    by_cases hn : n = i ∧ j = k
    · obtain ⟨rfl, rfl⟩ := hn
      simp
    · simp only [hlt, hn, if_false, false_or, and_self]

section
variable (t : Thread) {i n : Nat} (x : Vec) (b : Word32) (ts : Nat → Vec × Word32)

theorem Thread.putV_fields : ∃ vt vtb, t.putV i x b ts = { (t.setV i x).setVb i b with vt := vt, vtb := vtb } := putTans_fields ..

theorem Thread.putV_vR : (t.putV i x b ts).vR n = if n = i then x else t.vR n := by
  obtain ⟨vt, vtb, h⟩ := t.putV_fields (i := i) x b ts
  rw [h]
  exact t.vR_setV i n x

theorem Thread.putV_vB : (t.putV i x b ts).vB n = if n = i then b else t.vB n := by
  obtain ⟨vt, vtb, h⟩ := t.putV_fields (i := i) x b ts
  rw [h]
  exact (t.setV i x).vB_setVb i n b

theorem Thread.putV_vT (hi : i < 32) (hn : n < 32) (j : Nat) :
    (t.putV i x b ts).vT j n = if n = i ∧ j < t.k then (ts j).1 else t.vT j n :=
  (putTans_read _ ts hi hn t.k j).1

theorem Thread.putV_vTb (hi : i < 32) (hn : n < 32) (j : Nat) :
    (t.putV i x b ts).vTb j n = if n = i ∧ j < t.k then (ts j).2 else t.vTb j n :=
  (putTans_read _ ts hi hn t.k j).2

theorem Thread.putV_rest (h : t.regErr = []) : (t.putV i x b ts).rest = t.rest := by
  obtain ⟨vt, vtb, hp⟩ := t.putV_fields (i := i) x b ts
  rw [hp]
  simp [Thread.rest, Thread.setV, Thread.setVb, h]
end

/-- A thread with what an instruction writes put in register i. -/
def Thread.put (t : Thread) (i : Nat) (v : VecWrite) : Thread :=
  t.putV i (putLanes v.w v.mask (t.vR i) v.res) (v.bound (t.vB i) v.b)
    fun j => (putLanes v.w v.mask (t.vT j i) (v.tan j).1, v.bound (t.vTb j i) (v.tan j).2)

theorem foldl_congr_range {α : Type} {k : Nat} {f g : α → Nat → α} (h : ∀ a j, j < k → f a j = g a j) (a : α) :
    (List.range k).foldl f a = (List.range k).foldl g a :=
  List.foldl_ext f g a fun a j hj => h a j (List.mem_range.mp hj)

theorem writeLanes_run (d : Fld) (v : VecWrite) (s : State) :
    writeLanes d v.w v.mask v.masked v.res v.b v.ts s = .ok ((), s.modTh fun t => t.put d.spec.toNat v) := by
  simp only [writeLanes, M.bind_run, getTh_run, writeV, modTh_run]
  refine congrArg (fun x => Except.ok ((), s.setThr s.cur x)) (foldl_congr_range (fun t j hj => ?_) _)
  rw [getD_map_range, if_pos hj]
  rfl

/-- What stands after an instruction that has raised exceptions and written v to register i. -/
structure Wrote (s t : State) (i : Nat) (fl : Flags) (v : VecWrite) : Prop where
  lanes : ∀ l, l < 512 / v.w → laneN v.w (t.th.vR i) l = if v.mask.testBit l then v.res.getD l 0 % 2 ^ v.w else laneN v.w (s.th.vR i) l
  bound : t.th.vB i = v.bound (s.th.vB i) v.b
  tans : ∀ j, j < s.th.k → ∀ l, l < 512 / v.w → laneN v.w (t.th.vT j i) l =
    if v.mask.testBit l then (v.tan j).1.getD l 0 % 2 ^ v.w else laneN v.w (s.th.vT j i) l
  tanBounds : ∀ j, j < s.th.k → t.th.vTb j i = v.bound (s.th.vTb j i) (v.tan j).2
  flags : t.th.fpflags = s.th.fpflags ||| fl
  frame : Frame s t ⟨none, none, some i, true, []⟩

/-! ### The frame of an instruction that only changes the thread in hand -/

theorem SameRest.module {s t : State} (h : SameRest s t) : SameModule s t := by
  obtain ⟨_, _, _, _, rfl⟩ := h
  exact ⟨rfl, rfl, rfl, ⟨rfl, rfl⟩, rfl, rfl, ⟨rfl, rfl⟩, ⟨rfl, rfl, rfl⟩, rfl, ⟨rfl, rfl, rfl, rfl⟩⟩

section
variable {s : State} {x : Thread}

/-- A thread with the files that hold scalars, predicates and messages alone. -/
def Thread.scalars (t : Thread) : Tbl Word × List Nat × Tbl Word × BitVec 16 × List Word := (t.g, t.gEmpty, t.gt, t.pred, t.mailbox)

theorem frame_of_setTh (hp : s.th.atPort = false) (hr : x.rest = s.th.rest) (hs : x.scalars = s.th.scalars) {w : Writes}
    (hv : ∀ n, n < 32 → w.v ≠ some n → x.vR n = s.th.vR n ∧ x.vB n = s.th.vB n ∧
      ∀ j, j < s.th.k → x.vT j n = s.th.vT j n ∧ x.vTb j n = s.th.vTb j n)
    (hf : w.flags = false → x.fpflags = s.th.fpflags) : Frame s ((s.setTh x).finish .fall) w := by
  have hxp : (s.setTh x).th.atPort = false := by
    rw [State.th_setTh]
    exact (congrArg (fun t : Thread => t.atPort) hr).trans hp
  have hrest : SameRest s ((s.setTh x).finish .fall) := (sameRest_setThr s _ _).trans ((s.setTh x).finish_fall_rest hxp)
  obtain ⟨pc, m, ls, hth⟩ := (s.setTh x).finish_fall_th hxp
  rw [State.th_setTh] at hth
  simp only [Thread.scalars, Prod.mk.injEq] at hs
  obtain ⟨hg, hge, hgt, hpred, hmail⟩ := hs
  refine ⟨hrest.memory, hrest.module, fun c => by rw [hrest.core], fun id hid => ?_, hrest.cur, hrest.time, ?_, ?_, ?_, ?_, ?_, ?_, ?_, ?_, ?_, ?_⟩
  · rw [(s.setTh x).finish_fall_thr_ne hxp (by exact hid)]
    exact State.thr_setThr_ne _ _ hid
  · rw [hth]; exact hr
  · intro n _ _
    rw [hth]
    exact ⟨congrArg (fun g : Tbl Word => g.lookD n 0#64) hg, fun j _ => congrArg (fun g : Tbl Word => g.lookD _ 0#64) hgt⟩
  · intro n _ _
    rw [hth]
    exact congrArg (fun g : List Nat => !g.contains n) hge
  · intro n _ _
    rw [hth]
    exact congrArg (fun p : BitVec 16 => n == 0 || p.getLsbD n) hpred
  · intro n hn hw
    rw [hth]
    exact hv n hn hw
  · intro hw
    rw [hth]
    exact hf hw
  · intro c n _ _
    rw [hrest.core]
  · intro c _
    rw [hrest.core]
  · intro c _
    rw [hrest.core]
  · intro _
    rw [hth]
    exact hmail
end

/-- A machine after exceptions that may be none: they are added to the flags, or there are none and nothing is touched. -/
def Accrued (s : State) (fl : Flags) (u : State) : Prop := u = withFlags s fl ∨ (fl = 0#5 ∧ u = s)

theorem Accrued.modTh {s u : State} {fl : Flags} (h : Accrued s fl u) (f : Thread → Thread) :
    u.modTh f = s.setTh (f { s.th with fpflags := s.th.fpflags ||| fl }) := by
  rcases h with rfl | ⟨rfl, rfl⟩
  · show ((s.modTh _).setThr s.cur (f (s.modTh _).th)) = _
    rw [State.th_modTh]
    exact State.setThr_setThr_self ..
  · rw [BitVec.or_zero]
    rfl

theorem Thread.put_scalars (t : Thread) (i : Nat) (v : VecWrite) : (t.put i v).scalars = t.scalars := by
  obtain ⟨vt, vtb, h⟩ := t.putV_fields (i := i) (putLanes v.w v.mask (t.vR i) v.res) (v.bound (t.vB i) v.b)
    fun j => (putLanes v.w v.mask (t.vT j i) (v.tan j).1, v.bound (t.vTb j i) (v.tan j).2)
  rw [Thread.put, h]
  rfl

/-- An instruction that writes lanes to register i and completes. -/
theorem wrote_finish {s u : State} {fl : Flags} {v : VecWrite} {i : Nat} (hp : s.th.atPort = false) (he : s.th.regErr = [])
    (hw : LaneWidth v.w) (hi : i < 32) (hu : Accrued s fl u) : Wrote s ((u.modTh fun t => t.put i v).finish .fall) i fl v := by
  rw [hu.modTh]
  generalize ht : ({ s.th with fpflags := s.th.fpflags ||| fl } : Thread) = t
  have hrest : (t.put i v).rest = s.th.rest := (Thread.putV_rest _ _ _ _ (ht ▸ he)).trans (ht ▸ rfl)
  have hxp : (s.setTh (t.put i v)).th.atPort = false := by
    rw [State.th_setTh]
    exact (congrArg (fun t : Thread => t.atPort) hrest).trans hp
  obtain ⟨pc, m, ls, hth⟩ := (s.setTh (t.put i v)).finish_fall_th hxp
  rw [State.th_setTh] at hth
  have hk : t.k = s.th.k := by rw [← ht]
  have hvR : ∀ n, (t.put i v).vR n = if n = i then putLanes v.w v.mask (s.th.vR i) v.res else s.th.vR n := fun n =>
    (Thread.putV_vR ..).trans (by rw [← ht]; rfl)
  have hvB : ∀ n, (t.put i v).vB n = if n = i then v.bound (s.th.vB i) v.b else s.th.vB n := fun n =>
    (Thread.putV_vB ..).trans (by rw [← ht]; rfl)
  have hvT : ∀ n, n < 32 → ∀ j, (t.put i v).vT j n =
      if n = i ∧ j < s.th.k then putLanes v.w v.mask (s.th.vT j i) (v.tan j).1 else s.th.vT j n := fun n hn j =>
    (Thread.putV_vT _ _ _ _ hi hn j).trans (by rw [← ht]; rfl)
  have hvTb : ∀ n, n < 32 → ∀ j, (t.put i v).vTb j n =
      if n = i ∧ j < s.th.k then v.bound (s.th.vTb j i) (v.tan j).2 else s.th.vTb j n := fun n hn j =>
    (Thread.putV_vTb _ _ _ _ hi hn j).trans (by rw [← ht]; rfl)
  refine ⟨fun l hl => ?_, ?_, fun j hj l hl => ?_, fun j hj => ?_, ?_, frame_of_setTh hp hrest ?_ (fun n hn hne => ?_) (fun h => nomatch h)⟩
  · rw [hth]
    show laneN v.w ((t.put i v).vR i) l = _
    rw [hvR, if_pos rfl, laneN_putLanes hw hl]
  · rw [hth]
    show (t.put i v).vB i = _
    rw [hvB, if_pos rfl]
  · rw [hth]
    show laneN v.w ((t.put i v).vT j i) l = _
    rw [hvT i hi, if_pos ⟨rfl, hj⟩, laneN_putLanes hw hl]
  · rw [hth]
    show (t.put i v).vTb j i = _
    rw [hvTb i hi, if_pos ⟨rfl, hj⟩]
  · rw [hth]
    show (t.put i v).fpflags = _
    obtain ⟨vt, vtb, h⟩ := t.putV_fields (i := i) (putLanes v.w v.mask (t.vR i) v.res) (v.bound (t.vB i) v.b)
      fun j => (putLanes v.w v.mask (t.vT j i) (v.tan j).1, v.bound (t.vTb j i) (v.tan j).2)
    rw [Thread.put, h, ← ht]
    rfl
  · rw [Thread.put_scalars, ← ht]
    rfl
  · have hni : n ≠ i := fun h => hne (h ▸ rfl)
    exact ⟨by rw [hvR, if_neg hni], by rw [hvB, if_neg hni], fun j _ => ⟨by rw [hvT n hn, if_neg fun h => hni h.1],
      by rw [hvTb n hn, if_neg fun h => hni h.1]⟩⟩

end Sys2Proof.Machine
end

section
/-!
The lane-wise vector instructions (R282 to R287, R290, R291): each reads its lanes, raises the exceptions of the lanes it writes, and
writes lanes, a bound and tangents.
-/
namespace Sys2Proof.Machine
open Sys2Proof.Claims

/-! ### What an instruction is to leave -/

/-- A lane-wise instruction o with an outcome: it traps on an enabled exception, and else writes what v says: in the lanes it writes its
values, with a bound, and for each tangent the values and the bound given. -/
structure LaneRuns (s : State) (o : LaneIns) (out : Host.Outcome State Fault Refusal) (keeps : Bool) (b : Word32)
    (tan : Nat → (Nat → Nat) × Word32) (v : VecWrite) : Prop where
  traps : ∀ c, fpCause (laneFlagsOf s o &&& s.th.enables) = some c → out = .next (s.takeTrap s.cur c
    (BitVec.ofNat 64 (raising (512 / o.wt) (o.writes (active s o.m)) (fun j => (o.val (lane s o.srcs o.ws) j).2) (0xC4 - c.toNat)))
    (laneFlagsOf s o))
  done : fpCause (laneFlagsOf s o &&& s.th.enables) = none →
    ∃ u, Accrued s (laneFlagsOf s o) u ∧ out = .next ((u.modTh fun t => t.put o.d.spec.toNat v).finish .fall)
  width : v.w = o.wt
  good : LaneWidth o.wt
  mask : ∀ l, l < 512 / o.wt → v.mask.testBit l = o.writes (active s o.m) l
  masked : v.masked = keeps
  res : ∀ l, l < 512 / o.wt → o.writes (active s o.m) l = true →
    v.res.getD l 0 % 2 ^ o.wt = (o.val (lane s o.srcs o.ws) l).1 % 2 ^ o.wt
  bound : v.b = b
  tans : ∀ j, j < s.th.k → (∀ l, l < 512 / o.wt → o.writes (active s o.m) l = true →
    (v.tan j).1.getD l 0 % 2 ^ o.wt = (tan j).1 l % 2 ^ o.wt) ∧ (v.tan j).2 = (tan j).2

/-- The exceptions of lanes under a mask operand. -/
theorem laneFlags_active (s : State) (m : BitVec 3) {n : Nat} (hn : n ≤ 64) (f : Nat → Flags) :
    laneFlags n (s.th.mask m) f = (List.range n).map fun i => if active s m i then f i else 0#5 := by
  refine List.map_congr_left fun i hi => ?_
  rw [active_eq s m (Nat.lt_of_lt_of_le (List.mem_range.mp hi) hn)]

/-- Tangents of a vector result: those the instruction is dual for, and +0 with bound 0. -/
theorem getD_vTansFor {t : Thread} {j : Nat} (hj : j < t.k) (f : Nat → List Nat × Word32) :
    (vTansFor t f).getD j ([], 0#32) = if j ∉ t.sel then ([], 0#32) else f j := by
  rw [vTansFor, getD_map_range, if_pos hj, ← ite_not]
  simp

/-- What a list of sources is read as, source by source. -/
theorem map_srcs {β : Type} {srcs : List Fld} {g : Fld → β} {g' : Nat → β} (h : ∀ k f, srcs[k]? = some f → g f = g' k) :
    srcs.map g = (List.range srcs.length).map g' := by
  refine List.ext_getElem (by simp) fun k h1 h2 => ?_
  have hk : k < srcs.length := by simpa using h1
  simpa using h k srcs[k] (List.getElem?_eq_getElem hk)

section
variable {s : State} {srcs : List Fld} {m : BitVec 3} {w : Nat} (hw : LaneWidth w)

theorem lane_src {k : Nat} {f : Fld} (h : srcs[k]? = some f) : lane s srcs w k = laneN w (s.th.vR f.spec.toNat) := by
  funext i
  simp only [lane, h]
  rfl
theorem tanLane_src {j k : Nat} {f : Fld} (h : srcs[k]? = some f) : tanLane s srcs w j k = laneN w (s.th.vT j f.spec.toNat) := by
  funext i
  simp only [tanLane, h]
  rfl

/-- The bounds of the sources. -/
theorem bounds_srcs (s : State) (srcs : List Fld) (w : Nat) : (srcs.map fun f => s.th.vsrc w f.spec.toNat).map (·.b) =
    (List.range srcs.length).map (boundOf s srcs) := by
  rw [List.map_map]
  exact map_srcs fun k f hk => by simp only [boundOf, hk]; rfl

theorem tan_vsrc {j : Nat} (hj : j < s.th.k) (i : Nat) : (s.th.vsrc w i).tan j = (lanesOf w (s.th.vT j i), s.th.vTb j i) := by
  rw [VSrc.tan, Thread.vsrc, getD_map_range, if_pos hj]

theorem tanBounds_srcs {j : Nat} (hj : j < s.th.k) : (srcs.map fun f => s.th.vsrc w f.spec.toNat).map (fun v => (v.tan j).2) =
    (List.range srcs.length).map (tanBoundOf s srcs j) := by
  rw [List.map_map]
  exact map_srcs fun k f hk => by simp only [tanBoundOf, hk, Function.comp_apply, tan_vsrc hj]

include hw
/-- The lanes of a register that a mask operand selects. -/
theorem activeOf_lanes (x : Vec) : activeOf (s.th.mask m) (lanesOf w x) = ((List.range (512 / w)).filter (active s m)).map (laneN w x) := by
  rw [activeOf_eq _ _ (length_lanesOf w x), filter_active s m hw.lanes_le]
  exact List.map_congr_left fun i _ => getD_lanesOf hw x i

/-- The largest magnitudes of the active lanes of the sources. -/
theorem mags_srcs (f : FSpec) : (srcs.map fun f => s.th.vsrc w f.spec.toNat).map (fun v => maxMag f (activeOf (s.th.mask m) v.xs)) =
    (List.range srcs.length).map fun k => maxMag f (((List.range (512 / w)).filter (active s m)).map (lane s srcs w k)) := by
  rw [List.map_map]
  exact map_srcs fun k _ hk => by
    rw [lane_src hk]
    exact congrArg (maxMag f) (activeOf_lanes hw _)

theorem tanActives_srcs {j : Nat} (hj : j < s.th.k) :
    (srcs.map fun f => s.th.vsrc w f.spec.toNat).map (fun v => activeOf (s.th.mask m) (v.tan j).1) =
    (List.range srcs.length).map fun k => ((List.range (512 / w)).filter (active s m)).map (tanLane s srcs w j k) := by
  rw [List.map_map]
  exact map_srcs fun k f hk => by
    rw [tanLane_src hk, Function.comp_apply, tan_vsrc hj]
    exact activeOf_lanes hw _
end

theorem bMax_zero (b : Word32) : bMax 0#32 b = b := if_pos (Nat.zero_le _)

/-! ### Arithmetic (R282, R283) -/

/-- The bound of an arithmetic result (R36). -/
def arithBound (op : FOp) (M : Nat → Mag) (b : Nat → Word32) (h : Word32) : Word32 :=
  match op with
  | .add | .sub => bSum [b 0, b 1, h]
  | .mul => bAdd (boundOfProduct M b) h
  | .fma => bSum [boundOfProduct M b, b 2, h]
  | .div => if b 0 = 0#32 ∧ b 1 = 0#32 then h else bInf
  | .sqrt => if b 0 = 0#32 then h else bInf
  | .min | .max => bMax (b 0) (b 1)

/-- The bound of a tangent of an arithmetic result (R135). -/
def arithTanBound (op : FOp) (M M' : Nat → Mag) (b b' : Nat → Word32) (flat : Bool) (h : Word32) : Word32 :=
  match op with
  | .add | .sub => bSum [b' 0, b' 1, h]
  | .mul => boundOfProductTangent M M' b b' h
  | .fma => bAdd (boundOfProductTangent M M' b b' h) (b' 2)
  | .div | .sqrt => if flat then 0#32 else bInf
  | .min | .max => bMax (b' 0) (b' 1)

/-- The number of operands. -/
def FOp.args : FOp → Nat
  | .fma => 3
  | .sqrt => 1
  | .add | .sub | .mul | .div | .min | .max => 2

theorem vBound_eq (f : FSpec) (op : FOp) (M : Nat → Mag) (b : Nat → Word32) (h : Word32) :
    vBound f op ((List.range op.args).map M) ((List.range op.args).map b) h = arithBound op M b h := by
  cases op with
  | div => simp [vBound, arithBound, FOp.args, List.range_succ]
  | sqrt => simp [vBound, arithBound, FOp.args, List.range_succ]
  | min => exact congrArg (bMax · (b 1)) (bMax_zero (b 0))
  | max => exact congrArg (bMax · (b 1)) (bMax_zero (b 0))
  | add => rfl
  | sub => rfl
  | mul => rfl
  | fma => rfl

theorem vTanBound_eq (op : FOp) (M M' : Nat → Mag) (b b' : Nat → Word32) (z : Bool) (h : Word32) :
    vTanBound op ((List.range op.args).map M) ((List.range op.args).map b) ((List.range op.args).map M')
      ((List.range op.args).map b') z h = arithTanBound op M M' b b' z h := by
  cases op with
  | min => exact congrArg (bMax · (b' 1)) (bMax_zero (b' 0))
  | max => exact congrArg (bMax · (b' 1)) (bMax_zero (b' 0))
  | add => rfl
  | sub => rfl
  | mul => rfl
  | fma => rfl
  | div => rfl
  | sqrt => rfl

/-- What arithmetic writes: results in the active lanes, the bound of R36, the tangents of R132 with the bounds of R135. -/
def arithWrite (s : State) (op : FOp) (t : FTy) (rm : RMode) (srcs : List Fld) (m : BitVec 3) : VecWrite :=
  let f := ftySpec t
  let n := 512 / f.width
  let mask := s.th.mask m
  let vs := srcs.map fun f' => s.th.vsrc f.width f'.spec.toNat
  let x := lane s srcs f.width
  let out (i : Nat) : Nat × Flags := fop f rm op (x 0 i) (x 1 i) (x 2 i)
  let res := lanewise n mask fun i => (out i).1
  let ms := vs.map fun v => maxMag f (activeOf mask v.xs)
  let bs := vs.map (·.b)
  { w := f.width, mask := mask, masked := m ≠ 0#3, res := res
    b := vBound f op ms bs (halfUlp f (maxMag f ((List.range n).map fun i => (out i).1)))
    ts := vTansFor s.th fun j =>
      let y (k i : Nat) : Nat := ((vs.map fun v => (v.tan j).1).getD k []).getD i 0
      let d (q : Nat → Nat) (i : Nat) : Nat := fopTan f rm op (x 0 i) (x 1 i) (x 2 i) (y 0 i) (y 1 i) (y 2 i) (q i)
      let act := vs.map fun v => activeOf mask (v.tan j).1
      (lanewise n mask (d fun i => res.getD i 0), vTanBound op ms bs (act.map (maxMag f)) (vs.map fun v => (v.tan j).2)
        (act.all fun l => l.all fun z => (decodeF f z).isZero)
        (halfUlp f (maxMag f ((List.range n).map (d fun i => (out i).1))))) }

section
variable {s : State} {op : FOp} {t : FTy} {rm : RMode} {srcs : List Fld} {m : BitVec 3} (hl : srcs.length = op.args)
include hl

theorem arithWrite_bound :
    let f := ftySpec t
    let n := 512 / f.width
    let x := lane s srcs f.width
    (arithWrite s op t rm srcs m).b = arithBound op (fun k => maxMag f (((List.range n).filter (active s m)).map (x k))) (boundOf s srcs)
      (halfUlp f (maxMag f ((List.range n).map fun i => (fop f rm op (x 0 i) (x 1 i) (x 2 i)).1))) := by
  intro f n x
  have hM := mags_srcs (s := s) (srcs := srcs) (m := m) (laneWidth_fty t) f
  have hb := bounds_srcs s srcs f.width
  rw [hl] at hM hb
  simp only [arithWrite]
  rw [hM, hb]
  exact vBound_eq ..

/-- A tangent the instruction is dual for. -/
theorem arithWrite_tan {j : Nat} (hj : j < s.th.k) (hs : j ∈ s.th.sel) :
    let f := ftySpec t
    let n := 512 / f.width
    let x := lane s srcs f.width
    let y := tanLane s srcs f.width j
    let act := fun (g : Nat → Nat) => ((List.range n).filter (active s m)).map g
    let out := fun l => (fop f rm op (x 0 l) (x 1 l) (x 2 l)).1
    let d := fun l => fopTan f rm op (x 0 l) (x 1 l) (x 2 l) (y 0 l) (y 1 l) (y 2 l) (out l)
    (∀ l, l < n → active s m l = true → ((arithWrite s op t rm srcs m).tan j).1.getD l 0 = d l) ∧
    ((arithWrite s op t rm srcs m).tan j).2 = arithTanBound op (fun k => maxMag f (act (x k))) (fun k => maxMag f (act (y k)))
      (boundOf s srcs) (tanBoundOf s srcs j) ((List.range srcs.length).all fun k => (act (y k)).all fun z => (decodeF f z).isZero)
      (halfUlp f (maxMag f ((List.range n).map d))) := by
  intro f n x y act out d
  have hw := laneWidth_fty t
  have hM := mags_srcs (s := s) (srcs := srcs) (m := m) (laneWidth_fty t) f
  have hb := bounds_srcs s srcs f.width
  have hA := tanActives_srcs (s := s) (srcs := srcs) (m := m) (laneWidth_fty t) hj
  have hbt := tanBounds_srcs (s := s) (srcs := srcs) (w := f.width) hj
  have htan : (arithWrite s op t rm srcs m).tan j = _ := getD_vTansFor hj _
  rw [if_neg (not_not.mpr hs)] at htan
  rw [htan]
  simp only [getD_srcTans hw hj]
  constructor
  · intro l hl ha
    have hm := (active_eq s m (Nat.lt_of_lt_of_le hl hw.lanes_le)).trans ha
    rw [getD_lanewise, if_pos ⟨hl, hm⟩, getD_lanewise, if_pos ⟨hl, hm⟩]
  · rw [hM, hb, hA, hbt, List.map_map, List.all_map, hl]
    exact vTanBound_eq ..
end

section
variable {s : State} {h : Head} {d : Fld} {srcs : List Fld} {m : BitVec 3}

theorem vArith_runs {op : FOp} {t : FTy} {rc : Rc} (hl : srcs.length = op.args) (hi : Issues s h) (hr : VecReady s d srcs m) :
    let f := ftySpec t
    let n := 512 / f.width
    let o := laneIns.fl op h d srcs m t (s.th.rmode rc)
    let x := lane s srcs f.width
    let act := fun (g : Nat → Nat) => ((List.range n).filter (active s m)).map g
    let mags := fun k => maxMag f (act (x k))
    LaneRuns s o (runU h (vArith op t rc d srcs m) s) (m != 0#3)
      (arithBound op mags (boundOf s srcs) (halfUlp f (maxMag f ((List.range n).map fun j => (o.val x j).1))))
      (fun j => if j ∉ s.th.sel then (fun _ => 0, 0#32) else
        let y := tanLane s srcs f.width j
        let d := fun l => fopTan f (s.th.rmode rc) op (x 0 l) (x 1 l) (x 2 l) (y 0 l) (y 1 l) (y 2 l) (o.val x l).1
        (d, arithTanBound op mags (fun k => maxMag f (act (y k))) (boundOf s srcs) (tanBoundOf s srcs j)
          ((List.range srcs.length).all fun k => (act (y k)).all fun z => (decodeF f z).isZero)
          (halfUlp f (maxMag f ((List.range n).map d))))) (arithWrite s op t (s.th.rmode rc) srcs m) := by
  intro f n o x act mags
  have hw : LaneWidth f.width := laneWidth_fty t
  have hn : n ≤ 64 := hw.lanes_le
  refine ⟨fun c hc => ?_, fun hc => ⟨withFlags s (laneFlagsOf s o), .inl rfl, ?_⟩, rfl, hw, fun l hl' => ?_, ?_, fun l hl' ha => ?_, ?_,
    fun j hj => ?_⟩
  · rw [← stopped_raised hi]
    refine runU_stop hi ((M.bind_ok (vecReady_check1 hr)).trans ((M.bind_ok (getTh_run s)).trans ((M.bind_ok (vecReady_readVs hr _)).trans ?_)))
    simp only [getD_srcs (laneWidth_fty t)]
    exact M.bind_error (raiseV_trap (laneFlags_active s m hn _) hc)
  · refine runU_done hi ((M.bind_ok (vecReady_check1 hr)).trans ((M.bind_ok (getTh_run s)).trans ((M.bind_ok (vecReady_readVs hr _)).trans ?_)))
      (by decide)
    simp only [getD_srcs (laneWidth_fty t)]
    exact (M.bind_ok (raiseV_ok (laneFlags_active s m hn _) hc)).trans
      (M.bind_ok (writeLanes_run d (arithWrite s op t (s.th.rmode rc) srcs m) _))
  · exact active_eq s m (Nat.lt_of_lt_of_le hl' hn)
  · simp [arithWrite, bne, Bool.beq_eq_decide_eq]
  · show (lanewise n _ _).getD l 0 % _ = _
    rw [getD_lanewise, if_pos ⟨hl', (active_eq s m (Nat.lt_of_lt_of_le hl' hn)).trans ha⟩]
    rfl
  · exact arithWrite_bound hl
  · by_cases hsel : j ∈ s.th.sel
    · obtain ⟨hv, hb⟩ := arithWrite_tan (rm := s.th.rmode rc) (t := t) (m := m) hl hj hsel
      rw [if_neg (not_not.mpr hsel)]
      exact ⟨fun l hl' ha => congrArg (· % _) (hv l hl' ha), hb⟩
    · have htan : (arithWrite s op t (s.th.rmode rc) srcs m).tan j = _ := getD_vTansFor hj _
      rw [htan, if_pos hsel, if_pos hsel]
      exact ⟨fun _ _ _ => rfl, rfl⟩

end

end Sys2Proof.Machine
end

section
/-!
Signs, moves, integers and conversions lane by lane (R286, R287, R290, R291), and the table of all lane-wise instructions.
-/
namespace Sys2Proof.Machine
open Sys2Proof.Claims

/-! ### Instructions that raise no exception -/

theorem allFlags_none (n : Nat) (w : Nat → Bool) : allFlags n w (fun _ => 0#5) = 0#5 := by
  rw [← foldl_laneFlags rfl]
  simp only [ite_self]
  induction n with
  | zero => rfl
  | succ n ih => rw [List.range_succ, List.map_append, List.foldl_append, ih]; simp

section
variable {s : State} {o : LaneIns} {out : Host.Outcome State Fault Refusal} {keeps : Bool} {b : Word32} {tan : Nat → (Nat → Nat) × Word32}
  {v : VecWrite}

/-- One that raises no exception completes, and leaves the flags alone. -/
theorem LaneRuns.of_silent (hv : ∀ x i, (o.val x i).2 = 0#5)
    (hrun : out = .next ((s.modTh fun t => t.put o.d.spec.toNat v).finish .fall)) (width : v.w = o.wt) (good : LaneWidth o.wt)
    (mask : ∀ l, l < 512 / o.wt → v.mask.testBit l = o.writes (active s o.m) l) (masked : v.masked = keeps)
    (res : ∀ l, l < 512 / o.wt → o.writes (active s o.m) l = true →
      v.res.getD l 0 % 2 ^ o.wt = (o.val (lane s o.srcs o.ws) l).1 % 2 ^ o.wt)
    (bound : v.b = b) (tans : ∀ j, j < s.th.k → (∀ l, l < 512 / o.wt → o.writes (active s o.m) l = true →
      (v.tan j).1.getD l 0 % 2 ^ o.wt = (tan j).1 l % 2 ^ o.wt) ∧ (v.tan j).2 = (tan j).2) : LaneRuns s o out keeps b tan v := by
  have hfl : laneFlagsOf s o = 0#5 := by
    rw [laneFlagsOf]
    simp only [hv]
    exact allFlags_none _ _
  refine ⟨fun c hc => ?_, fun _ => ⟨s, .inr ⟨hfl, rfl⟩, hrun⟩, width, good, mask, masked, res, bound, tans⟩
  rw [hfl, BitVec.zero_and] at hc
  cases hc
end

/-! ### Signs (R286) -/

def sgnSrcs (op : SgnOp) (a b : Fld) : List Fld := if op = .neg ∨ op = .abs then [a] else [a, b]

/-- What a sign operation writes. -/
def sgnWrite (s : State) (op : SgnOp) (t : FTy) (a b : Fld) (m : BitVec 3) : VecWrite :=
  let f := ftySpec t
  let n := 512 / f.width
  let mask := s.th.mask m
  let srcs := sgnSrcs op a b
  let x := lane s srcs f.width
  let res := lanewise n mask fun i => fSgn f op (x 0 i) (x 1 i)
  let u := s.th.vsrc f.width a.spec.toNat
  { w := f.width, mask := mask, masked := m ≠ 0#3, res := res
    b := bMaxL ((List.range srcs.length).map (boundOf s srcs))
    ts := vTansFor s.th fun j => (lanewise n mask fun i => sgnTan f (x 0 i) ((u.tan j).1.getD i 0) (res.getD i 0), (u.tan j).2) }

section
variable {s : State} {h : Head} {d a b : Fld} {m : BitVec 3} {op : SgnOp} {t : FTy}

theorem sgnSrcs_head : ∃ r, sgnSrcs op a b = a :: r := by
  unfold sgnSrcs
  split
  · exact ⟨_, rfl⟩
  · exact ⟨_, rfl⟩

theorem vfsgn_runs (hi : Issues s h) (hr : VecReady s d (sgnSrcs op a b) m) :
    let f := ftySpec t
    let o : LaneIns := ⟨h, d, sgnSrcs op a b, m, f.width, f.width, fun act i => act i, fun x i => (fSgn f op (x 0 i) (x 1 i), 0#5)⟩
    let x := lane s o.srcs f.width
    LaneRuns s o (exec (.vfsgn h d a b m t op) s) (m != 0#3)
      (if op = .neg ∨ op = .abs then boundOf s o.srcs 0 else bMax (boundOf s o.srcs 0) (boundOf s o.srcs 1))
      (fun j => if j ∉ s.th.sel then (fun _ => 0, 0#32) else
        let y := tanLane s o.srcs f.width j
        (fun l => if signBit f (o.val x l).1 = signBit f (x 0 l) then y 0 l else fSgn f .neg (y 0 l) 0, tanBoundOf s o.srcs j 0))
      (sgnWrite s op t a b m) := by
  intro f o x
  have hw : LaneWidth f.width := laneWidth_fty t
  have hn : 512 / f.width ≤ 64 := hw.lanes_le
  obtain ⟨r, hsrc⟩ := sgnSrcs_head (op := op) (a := a) (b := b)
  refine .of_silent (fun _ _ => rfl) (runU_done hi ?_ (by decide)) rfl hw (fun l hl => active_eq s m (Nat.lt_of_lt_of_le hl hn)) ?_
    (fun l hl ha => ?_) ?_ (fun j hj => ?_)
  · have hone : (if (op == .neg || op == .abs) = true then [a] else [a, b]) = sgnSrcs op a b := by simp [sgnSrcs]
    simp only [hone]
    refine (M.bind_ok (vecReady_check1 hr)).trans ((M.bind_ok (getTh_run s)).trans ((M.bind_ok (vecReady_readVs hr _)).trans ?_))
    simp only [getD_srcs (laneWidth_fty t), bounds_srcs]
    have hu : (List.map (fun f' => s.th.vsrc (ftySpec t).width f'.spec.toNat) (sgnSrcs op a b)).getD 0 ⟨[], 0#32, []⟩ =
      s.th.vsrc (ftySpec t).width a.spec.toNat := by rw [hsrc]; rfl
    rw [hu]
    exact M.bind_ok (writeLanes_run d (sgnWrite s op t a b m) _)
  · simp [sgnWrite, bne, Bool.beq_eq_decide_eq]
  · show (lanewise _ _ _).getD l 0 % _ = _
    rw [getD_lanewise, if_pos ⟨hl, (active_eq s m (Nat.lt_of_lt_of_le hl hn)).trans ha⟩]
  · show bMaxL _ = _
    by_cases h1 : op = .neg ∨ op = .abs
    · rw [if_pos h1, show o.srcs = [a] from if_pos h1, show sgnSrcs op a b = [a] from if_pos h1]
      exact bMax_zero _
    · rw [if_neg h1, show o.srcs = [a, b] from if_neg h1, show sgnSrcs op a b = [a, b] from if_neg h1]
      exact congrArg (bMax · _) (bMax_zero _)
  · have htan : (sgnWrite s op t a b m).tan j = _ := getD_vTansFor hj _
    rw [htan]
    by_cases hsel : j ∉ s.th.sel
    · rw [if_pos hsel, if_pos hsel]
      exact ⟨fun _ _ _ => rfl, rfl⟩
    · have h0 : o.srcs[0]? = some a := by rw [show o.srcs = sgnSrcs op a b from rfl, hsrc]; rfl
      rw [if_neg hsel, if_neg hsel, tan_vsrc hj]
      refine ⟨fun l hl ha => ?_, by simp only [tanBoundOf, h0]⟩
      have hm := (active_eq s m (Nat.lt_of_lt_of_le hl hn)).trans ha
      rw [getD_lanewise, if_pos ⟨hl, hm⟩, getD_lanewise, if_pos ⟨hl, hm⟩, getD_lanesOf hw, ← congrFun (tanLane_src h0) l]
      simp only [sgnTan, beq_iff_eq]
      rfl
end

/-! ### Moves (R290) -/

/-- What a move writes: destination lane i takes lane g i of the first source. -/
def moveWrite (s : State) (a : Fld) (others : List Fld) (m : BitVec 3) (t : Fmt) (g : Nat → Nat) : VecWrite :=
  let w := fmtWidth t
  let n := 512 / w
  let mask := s.th.mask m
  let u := s.th.vsrc w a.spec.toNat
  { w := w, mask := mask, masked := m ≠ 0#3, res := lanewise n mask fun i => u.xs.getD (g i) 0
    b := bMaxL ((List.range (others.length + 1)).map (boundOf s (a :: others)))
    ts := vTansFor s.th fun j => (lanewise n mask fun i => (u.tan j).1.getD (g i) 0, (u.tan j).2) }

section
variable {s : State} {h : Head} {d a : Fld} {others : List Fld} {m : BitVec 3} {t : Fmt}

/-- A move whose lane choice the model reads from lanes, and the statement from the same lanes whatever the first source holds. -/
theorem vMove_runs {g : List VSrc → Nat → Nat} {g' : (Nat → Nat → Nat) → Nat → Nat} {b : Word32} (ht : t ≠ .f4)
    (hg : ∀ i, g ((a :: others).map fun f => s.th.vsrc (fmtWidth t) f.spec.toNat) i = g' (lane s (a :: others) (fmtWidth t)) i)
    (hg' : ∀ (y : Nat → Nat) i, g' (fun k l => if k = 0 then y l else lane s (a :: others) (fmtWidth t) k l) i =
      g' (lane s (a :: others) (fmtWidth t)) i)
    (hb : bMaxL ((List.range (others.length + 1)).map (boundOf s (a :: others))) = b)
    (hi : Issues s h) (hr : VecReady s d (a :: others) m) :
    let o := laneIns.move h d (a :: others) m t g'
    let x := lane s o.srcs (fmtWidth t)
    LaneRuns s o (runU h (vMove d a others m t g) s) (m != 0#3) b
      (fun j => if j ∉ s.th.sel then (fun _ => 0, 0#32) else
        let y := tanLane s o.srcs (fmtWidth t) j
        (fun l => (o.val (fun k l => if k = 0 then y 0 l else x k l) l).1, tanBoundOf s o.srcs j 0))
      (moveWrite s a others m t (g' (lane s (a :: others) (fmtWidth t)))) := by
  intro o x
  have hw : LaneWidth (fmtWidth t) := laneWidth_fmt ht
  have hn : 512 / fmtWidth t ≤ 64 := hw.lanes_le
  have h0 : o.srcs[0]? = some a := rfl
  refine .of_silent (fun _ _ => rfl) (runU_done hi ?_ (by decide)) rfl hw (fun l hl => active_eq s m (Nat.lt_of_lt_of_le hl hn)) ?_
    (fun l hl ha => ?_) hb (fun j hj => ?_)
  · refine (M.bind_ok (vecReady_check1 hr)).trans ((M.bind_ok (getTh_run s)).trans ((M.bind_ok (vecReady_readVs hr _)).trans ?_))
    simp only [hg, bounds_srcs]
    exact M.bind_ok (writeLanes_run d (moveWrite s a others m t _) _)
  · simp [moveWrite, bne, Bool.beq_eq_decide_eq]
  · show (lanewise _ _ _).getD l 0 % _ = (x 0 (g' x l)) % _
    rw [getD_lanewise, if_pos ⟨hl, (active_eq s m (Nat.lt_of_lt_of_le hl hn)).trans ha⟩]
    exact congrArg (· % _) ((getD_lanesOf hw _ _).trans (congrFun (lane_src h0) _).symm)
  · have htan : (moveWrite s a others m t (g' (lane s (a :: others) (fmtWidth t)))).tan j = _ := getD_vTansFor hj _
    rw [htan]
    by_cases hsel : j ∉ s.th.sel
    · rw [if_pos hsel, if_pos hsel]
      exact ⟨fun _ _ _ => rfl, rfl⟩
    · rw [if_neg hsel, if_neg hsel, tan_vsrc hj]
      refine ⟨fun l hl ha => ?_, rfl⟩
      rw [getD_lanewise, if_pos ⟨hl, (active_eq s m (Nat.lt_of_lt_of_le hl hn)).trans ha⟩, getD_lanesOf hw, ← congrFun (tanLane_src h0) _]
      exact congrArg (fun i => tanLane s o.srcs (fmtWidth t) j 0 i % _) (hg' _ l).symm
end

/-! ### Integers (R291) -/

/-- What an integer instruction writes: values, bound 0 and zero tangents. -/
def intWrite (s : State) (srcs : List Fld) (m : BitVec 3) (t : Fmt) (g : Nat → Nat → Nat → Nat) : VecWrite :=
  let w := fmtWidth t
  let x := lane s srcs w
  { w := w, mask := s.th.mask m, masked := m ≠ 0#3
    res := lanewise (512 / w) (s.th.mask m) fun i => g i (x 0 i) (x 1 i) % 2 ^ w, b := 0#32, ts := [] }

section
variable {s : State} {h : Head} {d : Fld} {srcs : List Fld} {m : BitVec 3} {t : Fmt}

theorem vInt_runs {g : Nat → Nat → Nat → Nat} {g' : (Nat → Nat → Nat) → Nat → Nat} (ht : t ≠ .f4)
    (hg : ∀ i, let x := lane s srcs (fmtWidth t); g i (x 0 i) (x 1 i) % 2 ^ fmtWidth t = g' x i % 2 ^ fmtWidth t)
    (hi : Issues s h) (hr : VecReady s d srcs m) :
    LaneRuns s (laneIns.int h d srcs m t g') (runU h (vInt d srcs m t g) s) (m != 0#3) 0#32
      (fun j => if j ∉ s.th.sel then (fun _ => 0, 0#32) else (fun _ => 0, 0#32)) (intWrite s srcs m t g) := by
  have hw : LaneWidth (fmtWidth t) := laneWidth_fmt ht
  have hn : 512 / fmtWidth t ≤ 64 := hw.lanes_le
  refine .of_silent (fun _ _ => rfl) (runU_done hi ?_ (by decide)) rfl hw (fun l hl => active_eq s m (Nat.lt_of_lt_of_le hl hn)) ?_
    (fun l hl ha => ?_) rfl (fun j hj => ?_)
  · refine (M.bind_ok (vecReady_check1 hr)).trans ((M.bind_ok (vecReady_readVs hr _)).trans ?_)
    simp only [getD_srcs hw]
    exact M.bind_ok (writeLanes_run d (intWrite s srcs m t g) _)
  · simp [intWrite, bne, Bool.beq_eq_decide_eq]
  · show (lanewise _ _ _).getD l 0 % _ = _
    rw [getD_lanewise, if_pos ⟨hl, (active_eq s m (Nat.lt_of_lt_of_le hl hn)).trans ha⟩]
    exact (Nat.mod_mod _ _).trans (hg l)
  · rw [ite_self]
    exact ⟨fun _ _ _ => rfl, rfl⟩
end

/-! ### Conversion (R287) -/

theorem foldl_bitSum (n : Nat) (p : Nat → Bool) : (List.range n).foldl (fun r i => if p i then r + 2 ^ i else r) 0 = bitSum n p := by
  induction n with
  | zero => rfl
  | succ n ih =>
    rw [List.range_succ, List.foldl_append, ih, bitSum_succ]
    show (if p n then bitSum n p + 2 ^ n else bitSum n p) = _
    split <;> rfl

/-- The lanes a conversion writes: active ones of its group. -/
def cvtMask (s : State) (m : BitVec 3) (ns nt q : Nat) : Nat := bitSum nt fun i => (s.th.mask m).testBit i && (cvtLane ns nt q i).isSome

/-- A lane of a conversion, from the lanes of its source. -/
def cvtOf (s : State) (tgt src : Fmt) (q : Nat) (rc : Rc) (xs : List Nat) (i : Nat) : Nat × Flags :=
  cvt src tgt (s.th.rmode rc) s.th.sat8 (xs.getD ((cvtLane (512 / fmtWidth src) (512 / fmtWidth tgt) q i).getD 0) 0)

/-- What a conversion writes: for a floating-point target, if it is one, with a bound and the tangents converted. -/
def cvtWrite (s : State) (a : Fld) (m : BitVec 3) (tgt src : Fmt) (q : Nat) (rc : Rc) (f : Option FSpec) : VecWrite :=
  let nt := 512 / fmtWidth tgt
  let ns := 512 / fmtWidth src
  let u := s.th.vsrc (fmtWidth src) a.spec.toNat
  let mask := cvtMask s m ns nt q
  let lanes (xs : List Nat) : List Nat := lanewise nt mask fun i => (cvtOf s tgt src q rc xs i).1
  let bd (f : FSpec) (b : Word32) (xs : List Nat) : Word32 := bAdd b (halfUlp f (maxMag f (activeOf mask xs)))
  { w := fmtWidth tgt, mask := mask, masked := m ≠ 0#3 || decide (ns < nt), res := lanes u.xs
    b := match f with | some f => bd f u.b (lanes u.xs) | none => 0#32
    ts := match f with
      | some f => vTansFor s.th fun j => (lanes (u.tan j).1, bd f (u.tan j).2 (lanes (u.tan j).1))
      | none => [] }

section
variable {s : State} {h : Head} {d a : Fld} {m : BitVec 3} {tgt src : Fmt} {q : BitVec 3} {rc : Rc}

/-- The row of a conversion. -/
def cvtIns (s : State) (h : Head) (d a : Fld) (m : BitVec 3) (tgt src : Fmt) (q : BitVec 3) (rc : Rc) : LaneIns :=
  let from' := cvtLane (512 / fmtWidth src) (512 / fmtWidth tgt) q.toNat
  ⟨h, d, [a], m, fmtWidth src, fmtWidth tgt, fun act i => act i && (from' i).isSome,
    fun x i => cvt src tgt (s.th.rmode rc) s.th.sat8 (x 0 ((from' i).getD 0))⟩

theorem laneIns_vcvt : laneIns s (.vcvt h d a m tgt src q rc) = some (cvtIns s h d a m tgt src q rc) := by
  refine congrArg (fun f : Nat → Option Nat => some (⟨h, d, [a], m, fmtWidth src, fmtWidth tgt, fun act i => act i && (f i).isSome,
    fun x i => cvt src tgt (s.th.rmode rc) s.th.sat8 (x 0 ((f i).getD 0))⟩ : LaneIns)) (funext fun i => ?_)
  unfold cvtLane
  rcases Nat.lt_trichotomy (512 / fmtWidth src) (512 / fmtWidth tgt) with hlt | heq | hgt
  · rw [if_neg (Nat.ne_of_lt hlt), if_neg (Nat.not_lt.mpr (Nat.le_of_lt hlt)), if_neg (Nat.ne_of_lt hlt), if_pos hlt]
  · rw [if_pos heq, if_pos heq]
  · rw [if_neg (Nat.ne_of_gt hgt), if_pos hgt, if_neg (Nat.ne_of_gt hgt), if_neg (Nat.not_lt.mpr (Nat.le_of_lt hgt))]

theorem vcvt_runs (ht : tgt ≠ .f4) (hs : src ≠ .f4) (hi : Issues s h) (hr : VecReady s d [a] m) :
    let n := 512 / fmtWidth tgt
    let o := cvtIns s h d a m tgt src q rc
    let w := o.writes (active s m)
    let x := lane s [a] (fmtWidth src)
    LaneRuns s o (exec (.vcvt h d a m tgt src q rc) s) (m != 0#3 || decide (512 / fmtWidth src < n))
      (match fspec? tgt with
        | some f => bAdd (boundOf s [a] 0) (halfUlp f (maxMag f (((List.range n).filter w).map fun j => (o.val x j).1)))
        | none => 0#32)
      (fun j => if j ∉ s.th.sel then (fun _ => 0, 0#32) else match fspec? tgt with
        | some f =>
          let d := fun l => (o.val (tanLane s [a] (fmtWidth src) j) l).1
          (d, bAdd (tanBoundOf s [a] j 0) (halfUlp f (maxMag f (((List.range n).filter w).map d))))
        | none => (fun _ => 0, 0#32)) (cvtWrite s a m tgt src q.toNat rc (fspec? tgt)) := by
  intro n o w x
  have hw : LaneWidth (fmtWidth tgt) := laneWidth_fmt ht
  have hws : LaneWidth (fmtWidth src) := laneWidth_fmt hs
  have hn : n ≤ 64 := hw.lanes_le
  have hmask : ∀ l, l < n → (cvtMask s m (512 / fmtWidth src) n q.toNat).testBit l = w l := fun l hl => by
    rw [cvtMask, testBit_bitSum, decide_eq_true hl, Bool.true_and, active_eq s m (Nat.lt_of_lt_of_le hl hn)]
    rfl
  have hfilter : (List.range n).filter (cvtMask s m (512 / fmtWidth src) n q.toNat).testBit = (List.range n).filter w :=
    List.filter_congr fun l hl => hmask l (List.mem_range.mp hl)
  have h0 : [a][0]? = some a := rfl
  have hval : ∀ (v : Vec) (y : Nat → Nat → Nat), y 0 = laneN (fmtWidth src) v →
      cvtOf s tgt src q.toNat rc (lanesOf (fmtWidth src) v) = o.val y := fun v y hy => funext fun i => by
    rw [cvtOf, getD_lanesOf hws, ← hy]
    rfl
  have hx : cvtOf s tgt src q.toNat rc (s.th.vsrc (fmtWidth src) a.spec.toNat).xs = o.val x := hval _ _ (lane_src h0)
  have hall : laneFlagsOf s o = allFlags n w fun i => (cvtOf s tgt src q.toNat rc (s.th.vsrc (fmtWidth src) a.spec.toNat).xs i).2 := by
    rw [hx]
    rfl
  have hflags : ∀ f : Nat → Flags, laneFlags n (cvtMask s m (512 / fmtWidth src) n q.toNat) f = (List.range n).map fun i =>
      if w i then f i else 0#5 := fun f => List.map_congr_left fun i hi => by rw [hmask i (List.mem_range.mp hi)]
  have hpre : ∀ k : Thread → Thread → Nat → M Ctl, (do
      check1 [(.vec, d), (.vec, a)]
      let th ← getTh
      let t ← getTh
      checkMask m
      regCheck true a.spec
      let bits ← readMask m
      k th t bits) s = k s.th s.th (s.th.mask m) s := fun k =>
    (M.bind_ok (vecReady_check1 hr)).trans ((M.bind_ok (getTh_run s)).trans ((M.bind_ok (getTh_run s)).trans
      ((M.bind_ok (checkMask_run hr.mask)).trans ((M.bind_ok (regCheck_run hr.sound _)).trans (M.bind_ok (readMask_run hr.sound))))))
  refine ⟨fun c hc => ?_, fun hc => ⟨withFlags s (laneFlagsOf s o), .inl rfl, ?_⟩, rfl, hw, hmask, ?_, fun l hl ha => ?_, ?_,
    fun j hj => ?_⟩
  · rw [hall] at hc ⊢
    show _ = Host.Outcome.next (s.takeTrap s.cur c (BitVec.ofNat 64 (raising n w (fun j => (o.val x j).2) (0xC4 - c.toNat))) _)
    rw [← stopped_raised hi, ← hx]
    refine runU_stop hi ((hpre _).trans ?_)
    simp only [foldl_bitSum]
    exact M.bind_error (raiseV_trap (hflags _) hc)
  · rw [hall] at hc ⊢
    refine runU_done hi ((hpre _).trans ?_) (by decide)
    simp only [foldl_bitSum]
    refine (M.bind_ok (raiseV_ok (hflags _) hc)).trans ?_
    cases fspec? tgt with
    | none => exact M.bind_ok (writeLanes_run d (cvtWrite s a m tgt src q.toNat rc none) _)
    | some f => exact M.bind_ok (writeLanes_run d (cvtWrite s a m tgt src q.toNat rc (some f)) _)
  · simp [cvtWrite, bne, Bool.beq_eq_decide_eq]; rfl
  · show (lanewise _ _ _).getD l 0 % _ = _
    rw [getD_lanewise, if_pos ⟨hl, (hmask l hl).trans ha⟩, hx]
    rfl
  · cases fspec? tgt with
    | none => rfl
    | some f => exact congrArg (fun xs => bAdd _ (halfUlp f (maxMag f xs))) (by rw [activeOf_lanewise, hfilter, hx])
  · cases fspec? tgt with
    | none =>
      rw [ite_self]
      exact ⟨fun _ _ _ => rfl, rfl⟩
    | some f =>
      have htan : (cvtWrite s a m tgt src q.toNat rc (some f)).tan j = _ := getD_vTansFor hj _
      rw [htan]
      by_cases hsel : j ∉ s.th.sel
      · rw [if_pos hsel, if_pos hsel]
        exact ⟨fun _ _ _ => rfl, rfl⟩
      · rw [if_neg hsel, if_neg hsel, tan_vsrc hj]
        have hy := hval (s.th.vT j a.spec.toNat) (tanLane s [a] (fmtWidth src) j) (tanLane_src h0)
        refine ⟨fun l hl ha => ?_, congrArg (fun xs => bAdd _ (halfUlp f (maxMag f xs))) (by rw [activeOf_lanewise, hfilter, hy])⟩
        rw [getD_lanewise, if_pos ⟨hl, (hmask l hl).trans ha⟩, hy]
end

end Sys2Proof.Machine
end

section
/-!
The values of integer lanes, and every lane-wise vector instruction in one table.
-/
namespace Sys2Proof.Machine
open Sys2Proof.Claims

/-! ### Integer lanes as exact arithmetic (R20, R291) -/

theorem lane_lt (s : State) (srcs : List Fld) (w k i : Nat) : lane s srcs w k i < 2 ^ w := by
  unfold lane
  split
  · exact Nat.mod_lt _ (Nat.two_pow_pos w)
  · exact Nat.two_pow_pos w

theorem isI_intFmt (t : Fmt) : t.isI = (intFmt? t).isSome := by cases t <;> rfl

theorem intFmt_width {t : Fmt} (h : t.isI = true) : ∃ b, intFmt? t = some (fmtWidth t, b) := by
  cases t <;> simp [intFmt?, fmtWidth, isI_intFmt] at h ⊢

theorem isI_ne {t : Fmt} (h : t.isI = true) : t ≠ .f4 := by rintro rfl; cases h
theorem isM_ne {t : Fmt} (h : t.isM = true) : t ≠ .f4 := by rintro rfl; cases h

theorem isC_ne {t : Fmt} (h : t.isC = true) : t ≠ .f4 := by rintro rfl; cases h

/-- The top bit of a number of w bits. -/
theorem testBit_top {w x : Nat} (hw : 0 < w) (hx : x < 2 ^ w) : x.testBit (w - 1) = decide (2 ^ (w - 1) ≤ x) := by
  obtain ⟨v, rfl⟩ : ∃ v, w = v + 1 := ⟨w - 1, by omega⟩
  rw [Nat.pow_succ] at hx
  rw [Nat.add_sub_cancel, Nat.testBit_eq_decide_div_mod_eq]
  refine decide_eq_decide.mpr ?_
  have hlt : x / 2 ^ v < 2 := (Nat.div_lt_iff_lt_mul (Nat.two_pow_pos v)).mpr (by omega)
  rw [Nat.mod_eq_of_lt hlt, ← Nat.one_le_div_iff (Nat.two_pow_pos v)]
  omega

theorem intVal_signed {w x : Nat} (hw : 0 < w) (hx : x < 2 ^ w) : intVal w true x = if 2 ^ (w - 1) ≤ x then (x : Int) - 2 ^ w else x := by
  simp only [intVal, Nat.mod_eq_of_lt hx, testBit_top hw hx, Bool.true_and, decide_eq_true_eq]

theorem intVal_laneInt {t : Fmt} (h : t.isI = true) {x : Nat} (hx : x < 2 ^ fmtWidth t) : intVal (fmtWidth t) (isSgn t) x = laneInt t x := by
  obtain ⟨b, hb⟩ := intFmt_width h
  have hw := (laneWidth_fmt (isI_ne h)).pos
  cases b
  · simp [isSgn, laneInt, hb, intVal, Nat.mod_eq_of_lt hx]
  · simp only [isSgn, laneInt, hb, intVal_signed hw hx]

/-- Clamping into a range is what the model's max and min do. -/
theorem clampInt_narrow (t : Fmt) (sat : Bool) (z : Int) : clampInt (fmtWidth t) (isSgn t) sat z = narrow t sat z := by
  have h1 : (0 : Int) < 2 ^ (fmtWidth t - 1) := by positivity
  have h2 : (0 : Int) < 2 ^ fmtWidth t := by positivity
  show _ = ((if sat then (if z < (if isSgn t then -2 ^ (fmtWidth t - 1) else 0) then (if isSgn t then -2 ^ (fmtWidth t - 1) else 0)
    else if (if isSgn t then 2 ^ (fmtWidth t - 1) - 1 else 2 ^ fmtWidth t - 1) < z then
      (if isSgn t then 2 ^ (fmtWidth t - 1) - 1 else 2 ^ fmtWidth t - 1) else z) else z) % 2 ^ fmtWidth t).toNat
  unfold clampInt
  push_cast
  congr 2
  cases sat
  · rfl
  · cases isSgn t <;> simp only [if_true, Bool.false_eq_true, if_false] <;> omega

theorem addSubLane_eq {t : Fmt} (h : t.isI = true) (sat sub : Bool) {x y : Nat} (hx : x < 2 ^ fmtWidth t) (hy : y < 2 ^ fmtWidth t) :
    addSubLane t sat sub x y = narrow t sat (if sub then laneInt t x - laneInt t y else laneInt t x + laneInt t y) := by
  rw [← clampInt_narrow, addSubLane, intVal_laneInt h hx, intVal_laneInt h hy]

theorem and_halves (x y : Nat) : x &&& y = 2 * (x / 2 &&& y / 2) + (x % 2 &&& y % 2) := by
  have h := Nat.and_mod_two_pow (a := x) (b := y) (n := 1)
  rw [Nat.pow_one] at h
  rw [← Nat.and_div_two, ← h, Nat.div_add_mod]

/-- A number is its bits that another has, and those that it lacks. -/
theorem and_add_andn {w x y : Nat} (hx : x < 2 ^ w) (hy : y < 2 ^ w) : (x &&& (2 ^ w - 1 - y)) + (x &&& y) = x := by
  induction w generalizing x y with
  | zero =>
    obtain rfl : x = 0 := by omega
    simp
  | succ w ih =>
    rw [Nat.pow_succ] at hx hy ⊢
    have h := ih (x := x / 2) (y := y / 2) (by omega) (by omega)
    rw [and_halves x y, and_halves x (2 ^ w * 2 - 1 - y), show (2 ^ w * 2 - 1 - y) / 2 = 2 ^ w - 1 - y / 2 by omega,
      show (2 ^ w * 2 - 1 - y) % 2 = 1 - y % 2 by omega]
    have hb : ((x % 2) &&& (1 - y % 2)) + ((x % 2) &&& (y % 2)) = x % 2 := by
      rcases Nat.mod_two_eq_zero_or_one x with hx2 | hx2 <;> rcases Nat.mod_two_eq_zero_or_one y with hy2 | hy2 <;> rw [hx2, hy2] <;> rfl
    omega

theorem andn_eq_sub {w x y : Nat} (hx : x < 2 ^ w) (hy : y < 2 ^ w) : x &&& (2 ^ w - 1 - y) = x - (x &&& y) := by
  have h := and_add_andn hx hy
  omega

theorem rot_mod {w n x : Nat} (hn : n ≤ w) : (x / 2 ^ n + x % 2 ^ n * 2 ^ (w - n)) % 2 ^ w = (x / 2 ^ n + x * 2 ^ (w - n)) % 2 ^ w := by
  have hx : x * 2 ^ (w - n) = x % 2 ^ n * 2 ^ (w - n) + 2 ^ w * (x / 2 ^ n) := by
    have hp : 2 ^ w = 2 ^ n * 2 ^ (w - n) := by rw [← Nat.pow_add, Nat.add_sub_cancel' hn]
    conv_lhs => rw [← Nat.mod_add_div x (2 ^ n)]
    rw [hp]
    ring
  rw [hx, ← Nat.add_assoc, Nat.add_mul_mod_self_left]

theorem shLane_eq {w : Nat} (hw : 0 < w) (op : ShKind) {x : Nat} (hx : x < 2 ^ w) (n : Nat) (hn : n < w) :
    shLane w op x n % 2 ^ w = (match op with
      | .ll => x * 2 ^ n % 2 ^ w
      | .rl => x / 2 ^ n
      | .ra => (((if 2 ^ (w - 1) ≤ x then (x : Int) - 2 ^ w else x) / 2 ^ n) % 2 ^ w).toNat
      | .rot => (x / 2 ^ n + x * 2 ^ (w - n)) % 2 ^ w) % 2 ^ w := by
  cases op with
  | ll => exact (Nat.mod_mod _ _).symm
  | rl => rfl
  | ra =>
    rw [shLane, intVal_signed hw hx]
    push_cast
    rfl
  | rot => exact (rot_mod (Nat.le_of_lt hn)).trans (Nat.mod_mod _ _).symm

/-! ### The bound and the tangents each instruction gives its result -/

/-- The bound of a result (R36 to R38, R287, R290, R291). -/
def laneBound (s : State) (i : Instr) (o : LaneIns) : Word32 :=
  let n := 512 / o.wt
  let act := fun (g : Nat → Nat) => ((List.range n).filter (active s o.m)).map g
  let x := lane s o.srcs o.ws
  let b := boundOf s o.srcs
  match laneOp s i with
  | some (f, op, _) => arithBound op (fun k => maxMag f (act (x k))) b (halfUlp f (maxMag f ((List.range n).map fun j => (o.val x j).1)))
  | none => match i with
    | .vfsgn _ _ _ _ _ _ op => if op = .neg ∨ op = .abs then b 0 else bMax (b 0) (b 1)
    | .vcvt _ _ _ _ tgt _ _ _ => match fspec? tgt with
      | some f => bAdd (b 0) (halfUlp f (maxMag f (((List.range n).filter (o.writes (active s o.m))).map fun j => (o.val x j).1)))
      | none => 0#32
    | .vperm .. => bMax (b 0) (b 1)
    | .vmov .. | .vbcast .. => b 0
    | _ => 0#32

/-- Tangent j of a result, lane by lane, and its bound (R130 to R132, R135). -/
def laneTangent (s : State) (i : Instr) (o : LaneIns) (j : Nat) : (Nat → Nat) × Word32 :=
  let n := 512 / o.wt
  let x := lane s o.srcs o.ws
  let w := o.writes (active s o.m)
  let y := tanLane s o.srcs o.ws j
  let b := boundOf s o.srcs
  let b' := tanBoundOf s o.srcs j
  if j ∉ s.th.sel then (fun _ => 0, 0#32)
  else match laneOp s i with
    | some (f, op, rm) =>
      let d (l : Nat) : Nat := fopTan f rm op (x 0 l) (x 1 l) (x 2 l) (y 0 l) (y 1 l) (y 2 l) (o.val x l).1
      let act := fun (g : Nat → Nat) => ((List.range n).filter (active s o.m)).map g
      (d, arithTanBound op (fun k => maxMag f (act (x k))) (fun k => maxMag f (act (y k))) b b'
        ((List.range o.srcs.length).all fun k => (act (y k)).all fun z => (decodeF f z).isZero)
        (halfUlp f (maxMag f ((List.range n).map d))))
    | none => match i with
      | .vfsgn _ _ _ _ _ ty _ =>
        let f := ftySpec ty
        (fun l => if signBit f (o.val x l).1 = signBit f (x 0 l) then y 0 l else fSgn f .neg (y 0 l) 0, b' 0)
      | .vcvt _ _ _ _ tgt _ _ _ => match fspec? tgt with
        | some f =>
          let d (l : Nat) : Nat := (o.val y l).1
          (d, bAdd (b' 0) (halfUlp f (maxMag f (((List.range n).filter w).map d))))
        | none => (fun _ => 0, 0#32)
      | .vmov .. | .vperm .. | .vbcast .. => (fun l => (o.val (fun k l => if k = 0 then y 0 l else x k l) l).1, b' 0)
      | _ => (fun _ => 0, 0#32)

/-- Every lane-wise instruction runs as its row says. -/
theorem laneIns_runs {s : State} {i : Instr} {o : LaneIns} (hs : laneIns s i = some o) (hwf : WellFormed.instr i = true)
    (hi : Issues s o.h) (hr : VecReady s o.d o.srcs o.m) :
    ∃ v, LaneRuns s o (exec i s) (keepsOld o.m i) (laneBound s i o) (laneTangent s i o) v := by
  cases i with
  | vadd => cases hs; exact ⟨_, vArith_runs rfl hi hr⟩
  | vsub => cases hs; exact ⟨_, vArith_runs rfl hi hr⟩
  | vmul => cases hs; exact ⟨_, vArith_runs rfl hi hr⟩
  | vfma => cases hs; exact ⟨_, vArith_runs rfl hi hr⟩
  | vdiv => cases hs; exact ⟨_, vArith_runs rfl hi hr⟩
  | vsqrt => cases hs; exact ⟨_, vArith_runs rfl hi hr⟩
  | vmin => cases hs; exact ⟨_, vArith_runs rfl hi hr⟩
  | vmax => cases hs; exact ⟨_, vArith_runs rfl hi hr⟩
  | vfsgn => cases hs; exact ⟨_, vfsgn_runs hi hr⟩
  | vcvt h d a m tgt src q rc =>
    rw [laneIns_vcvt] at hs
    cases hs
    simp only [WellFormed.instr, Bool.and_eq_true] at hwf
    exact ⟨_, vcvt_runs (isC_ne hwf.1.1.1) (isC_ne hwf.1.1.2) hi hr⟩
  | vmov => cases hs; exact ⟨_, vMove_runs (isM_ne hwf) (fun _ => rfl) (fun _ _ => rfl) (bMax_zero _) hi hr⟩
  | vperm h d a b m t =>
    cases hs
    have hw := laneWidth_fmt (isM_ne hwf)
    exact ⟨_, vMove_runs (isM_ne hwf) (fun i => congrArg (· % _) (getD_lanesOf hw _ i)) (fun _ _ => rfl)
      (congrArg (bMax · _) (bMax_zero _)) hi hr⟩
  | vbcast =>
    cases hs
    have ht := isM_ne (Bool.and_eq_true_iff.mp hwf).1
    exact ⟨_, vMove_runs ht (fun _ => rfl) (fun _ _ => rfl) (bMax_zero _) hi hr⟩
  | viadd =>
    cases hs
    exact ⟨_, vInt_runs (isI_ne hwf) (fun i => congrArg (· % _) (addSubLane_eq hwf _ false (lane_lt ..) (lane_lt ..))) hi hr⟩
  | visub =>
    cases hs
    exact ⟨_, vInt_runs (isI_ne hwf) (fun i => congrArg (· % _) (addSubLane_eq hwf _ true (lane_lt ..) (lane_lt ..))) hi hr⟩
  | vimul => cases hs; exact ⟨_, vInt_runs (isI_ne hwf) (fun i => (Nat.mod_mod _ _).symm) hi hr⟩
  | vlog h d a b m t op =>
    cases hs
    refine ⟨_, vInt_runs (isI_ne hwf) (fun i => congrArg (· % _) ?_) hi hr⟩
    cases op with
    | andn => exact andn_eq_sub (lane_lt ..) (lane_lt ..)
    | and => rfl
    | or => rfl
    | xor => rfl
  | vsh h d a b m t op =>
    cases hs
    have hw := (laneWidth_fmt (isI_ne hwf)).pos
    exact ⟨_, vInt_runs (isI_ne hwf) (fun i => shLane_eq hw op (lane_lt ..) _ (Nat.mod_lt _ hw)) hi hr⟩
  | viota => cases hs; exact ⟨_, vInt_runs (isI_ne hwf) (fun i => (Nat.mod_mod _ _).symm) hi hr⟩
  | _ => cases hs

end Sys2Proof.Machine
end

section
/-!
The statements about lane-wise vector instructions: values and exceptions, traps, bounds, tangents.
-/
namespace Sys2Proof.Machine
open Sys2Proof.Claims

/-- What a lane-wise instruction that raises no enabled exception leaves. -/
theorem LaneRuns.wrote {s : State} {o : LaneIns} {out : Host.Outcome State Fault Refusal} {keeps : Bool} {b : Word32}
    {tan : Nat → (Nat → Nat) × Word32} {v : VecWrite} (hl : LaneRuns s o out keeps b tan v) (hi : Issues s o.h)
    (hr : VecReady s o.d o.srcs o.m) (hc : fpCause (laneFlagsOf s o &&& s.th.enables) = none) :
    ∃ t, out = .next t ∧ Wrote s t o.d.spec.toNat (laneFlagsOf s o) v := by
  obtain ⟨u, hu, hout⟩ := hl.done hc
  exact ⟨_, hout, wrote_finish hi.own hr.sound (hl.width.symm ▸ hl.good) (vecReady_dest hr) hu⟩

/-- The lanes of a result as the table gives them. -/
theorem Wrote.lane {s t : State} {o : LaneIns} {out : Host.Outcome State Fault Refusal} {keeps : Bool} {b : Word32}
    {tan : Nat → (Nat → Nat) × Word32} {v : VecWrite} {fl : Flags} (ht : Wrote s t o.d.spec.toNat fl v) (hl : LaneRuns s o out keeps b tan v)
    {j : Nat} (hj : j < 512 / o.wt) : laneN o.wt (t.th.vR o.d.spec.toNat) j =
      if o.writes (active s o.m) j then (o.val (lane s o.srcs o.ws) j).1 % 2 ^ o.wt else laneN o.wt (s.th.vR o.d.spec.toNat) j := by
  have h := ht.lanes j (hl.width.symm ▸ hj)
  rw [hl.width, hl.mask j hj] at h
  rw [h]
  split
  · next hw => exact hl.res j hj hw
  · rfl

/-- Settles O13, by the table of lane-wise instructions: what each writes, and the frame of a vector write. -/
theorem vectorLanes : Obligations.VectorLanes := by
  unfold Obligations.VectorLanes
  intro s i o hs hwf hi hr x w n all hc
  obtain ⟨v, hl⟩ := laneIns_runs hs hwf hi hr
  obtain ⟨t, hout, ht⟩ := hl.wrote hi hr hc
  exact ⟨t, hout, fun j hj => ht.lane hl hj, ht.flags, ht.frame⟩

/-- The trap of an enabled exception. -/
theorem vectorFloatTraps : VectorFloatTraps := by
  intro s i o c hs hwf hi hr x w n all hc
  obtain ⟨v, hl⟩ := laneIns_runs hs hwf hi hr
  exact hl.traps c hc

/-- The bound of a result. -/
theorem vectorBounds : VectorBounds := by
  intro s t i o hs hwf hi hr hc hout n act x b new r
  obtain ⟨v, hl⟩ := laneIns_runs hs hwf hi hr
  obtain ⟨t', hout', ht⟩ := hl.wrote hi hr hc
  obtain rfl : t' = t := Host.Outcome.next.inj (hout'.symm.trans hout)
  rw [ht.bound, VecWrite.bound, hl.masked, hl.bound]
  rfl

/-- The tangents of a result. -/
theorem vectorTangents : VectorTangents := by
  intro s t i o hs hwf hi hr hc hout n x w j hj y b b' r
  obtain ⟨v, hl⟩ := laneIns_runs hs hwf hi hr
  obtain ⟨t', hout', ht⟩ := hl.wrote hi hr hc
  obtain rfl : t' = t := Host.Outcome.next.inj (hout'.symm.trans hout)
  obtain ⟨hv, hb⟩ := hl.tans j hj
  have hrt : r = laneTangent s i o j := rfl
  rw [hrt]
  refine ⟨fun l hll => ?_, ?_⟩
  · have h := ht.tans j hj l (hl.width.symm ▸ hll)
    rw [hl.width, hl.mask l hll] at h
    refine h.trans ?_
    split
    · next hw => exact hv l hll hw
    · rfl
  · rw [ht.tanBounds j hj, VecWrite.bound, hl.masked, hb]

/-- Settles O38: what ending a thread and posting a cause leave, the run of scalar floating point, and the table of lanes. -/
theorem trapRules : Obligations.TrapRules := ⟨doubleTraps, trapIsPrecise, scalarFloatTraps, vectorFloatTraps⟩

end Sys2Proof.Machine
end

section
/-!
Reductions and scans (R31, R288, R289): the levels of a reduction are those of the tree, and a scan gives the running sums.
-/
namespace Sys2Proof.Machine
open Sys2Proof.Claims

/-! ### The tree of a reduction (R31) -/

section
variable (f : FSpec) (rm : RMode) (leaf : Nat → Nat)

/-- Level k of the tree over 2^q leaves: its nodes, each with the first lane and the number of lanes below it. -/
def treeNodes (q k : Nat) : List RNode := (List.range (2 ^ (q - k))).map fun i => ⟨tree f rm leaf k (i * 2 ^ k), i * 2 ^ k, 2 ^ k⟩

/-- The exceptions of the additions above level k, with the lanes they belong to. -/
def treeAdds (q k : Nat) : List (Nat × Nat × Flags) :=
  (List.range (2 ^ (q - (k + 1)))).map fun i => (i * 2 ^ (k + 1), 2 ^ (k + 1),
    (fAdd f rm (tree f rm leaf k (i * 2 ^ (k + 1))) (tree f rm leaf k (i * 2 ^ (k + 1) + 2 ^ k))).2)

/-- Adding neighbours of a list of even length. -/
theorem redPair_map (n : Nat) (p : Nat → RNode) : redPair f rm ((List.range (2 * n)).map p) =
    ((List.range n).map fun i => ⟨(fAdd f rm (p (2 * i)).x (p (2 * i + 1)).x).1, (p (2 * i)).lo, (p (2 * i)).n + (p (2 * i + 1)).n⟩,
     (List.range n).map fun i => ((p (2 * i)).lo, (p (2 * i)).n + (p (2 * i + 1)).n, (fAdd f rm (p (2 * i)).x (p (2 * i + 1)).x).2)) := by
  induction n generalizing p with
  | zero => rfl
  | succ n ih =>
    have hr : (List.range (2 * (n + 1))).map p = p 0 :: p 1 :: (List.range (2 * n)).map fun i => p (i + 2) := by
      rw [show 2 * (n + 1) = 2 * n + 2 by omega, List.range_succ_eq_map, List.map_cons, List.range_succ_eq_map, List.map_cons, List.map_cons,
        List.map_map, List.map_map]
      rfl
    rw [hr, redPair, ih, List.range_succ_eq_map, List.map_cons, List.map_cons, List.map_map, List.map_map]
    rfl

/-- The next level of the tree. -/
theorem redPair_treeNodes {q k : Nat} (h : k < q) :
    redPair f rm (treeNodes f rm leaf q k) = (treeNodes f rm leaf q (k + 1), treeAdds f rm leaf q k) := by
  have hq : 2 ^ (q - k) = 2 * 2 ^ (q - (k + 1)) := by
    rw [← Nat.pow_succ', Nat.succ_eq_add_one, show q - (k + 1) + 1 = q - k by omega]
  have h2 : ∀ i, (2 * i) * 2 ^ k = i * 2 ^ (k + 1) := fun i => by rw [Nat.pow_succ]; ring
  have h3 : ∀ i, (2 * i + 1) * 2 ^ k = i * 2 ^ (k + 1) + 2 ^ k := fun i => by rw [Nat.pow_succ]; ring
  have h4 : 2 ^ k + 2 ^ k = 2 ^ (k + 1) := by rw [Nat.pow_succ]; ring
  rw [treeNodes, hq, redPair_map]
  simp only [h2, h3, h4, treeNodes, treeAdds, tree]

/-- The levels above level k, and the exceptions of their additions. -/
theorem redLevels_treeNodes (q n k : Nat) (h : k + n ≤ q) : redLevels f rm n (treeNodes f rm leaf q k) =
    ((List.range n).map fun i => treeNodes f rm leaf q (k + 1 + i), (List.range n).flatMap fun i => treeAdds f rm leaf q (k + i)) := by
  induction n generalizing k with
  | zero => rfl
  | succ n ih =>
    rw [redLevels, redPair_treeNodes f rm leaf (by omega)]
    dsimp only
    rw [ih (k + 1) (by omega), List.range_succ_eq_map, List.map_cons, List.map_map, List.flatMap_cons, List.flatMap_map]
    simp only [Function.comp_def, Nat.add_right_comm, Nat.add_assoc, Nat.add_zero]

/-- A fold over numbers that acts at one of them. -/
theorem foldl_at {α : Type} (n m : Nat) (g : α → Nat → α) (a : α) :
    (List.range n).foldl (fun a j => if j = m then g a j else a) a = if m < n then g a m else a := by
  induction n with
  | zero => rfl
  | succ n ih =>
    rw [List.range_succ, List.foldl_append, ih]
    show (if n = m then g _ n else _) = _
    rcases Nat.lt_trichotomy m n with h | h | h
    · rw [if_neg (Nat.ne_of_gt h), if_pos h, if_pos (Nat.lt_succ_of_lt h)]
    · subst h
      rw [if_pos rfl, if_neg (Nat.lt_irrefl m), if_pos (Nat.lt_succ_self m)]
    · rw [if_neg (Nat.ne_of_lt h), if_neg (Nat.not_lt.mpr (Nat.le_of_lt h)), if_neg (by omega)]

/-- The exceptions of the additions a lane feeds. -/
theorem foldl_treeAdds {q i : Nat} (hi : i < 2 ^ q) (a : Flags) (fl : Nat → Flags) (ha : a = fl i) :
    ((List.range q).flatMap fun k => treeAdds f rm leaf q (0 + k)).foldl
      (fun a g => if g.1 ≤ i ∧ i < g.1 + g.2.1 then a ||| g.2.2 else a) a = treeFlags f rm leaf fl q i := by
  rw [List.foldl_flatMap, treeFlags, ha]
  refine List.foldl_ext _ _ _ fun a k hk => ?_
  have hk : k < q := List.mem_range.mp hk
  have hp := Nat.two_pow_pos (k + 1)
  have hin : i / 2 ^ (k + 1) < 2 ^ (q - (k + 1)) := by
    rw [Nat.div_lt_iff_lt_mul hp, ← Nat.pow_add, Nat.sub_add_cancel (by omega)]
    exact hi
  have hat : ∀ j, (j * 2 ^ (k + 1) ≤ i ∧ i < j * 2 ^ (k + 1) + 2 ^ (k + 1)) ↔ j = i / 2 ^ (k + 1) := fun j => by
    rw [eq_comm, Nat.div_eq_iff hp]
    constructor <;> rintro ⟨h1, h2⟩ <;> constructor <;> omega
  rw [Nat.zero_add, treeAdds, List.foldl_map]
  simp only [hat]
  rw [foldl_at, if_pos hin]

/-! ### Its tangents (R132) -/

variable (leaf' : Nat → Nat)

def treeTans (q k : Nat) : List Nat := (List.range (2 ^ (q - k))).map fun i => treeTan f rm leaf leaf' k (i * 2 ^ k)

theorem tanPair_map (n : Nat) (p s : Nat → RNode) (t : Nat → Nat) :
    tanPair f rm ((List.range (2 * n)).map p) ((List.range n).map s) ((List.range (2 * n)).map t) =
      (List.range n).map fun i => fopTan f rm .add (p (2 * i)).x (p (2 * i + 1)).x 0 (t (2 * i)) (t (2 * i + 1)) 0 (s i).x := by
  induction n generalizing p s t with
  | zero => rfl
  | succ n ih =>
    have hr : ∀ {α : Type} (p : Nat → α), (List.range (2 * (n + 1))).map p = p 0 :: p 1 :: (List.range (2 * n)).map fun i => p (i + 2) := by
      intro α p
      rw [show 2 * (n + 1) = 2 * n + 2 by omega, List.range_succ_eq_map, List.map_cons, List.range_succ_eq_map, List.map_cons, List.map_cons,
        List.map_map, List.map_map]
      rfl
    rw [hr, hr, List.range_succ_eq_map, List.map_cons, List.map_cons, List.map_map, List.map_map, tanPair, ih]
    rfl

theorem tanPair_treeTans {q k : Nat} (h : k < q) :
    tanPair f rm (treeNodes f rm leaf q k) (treeNodes f rm leaf q (k + 1)) (treeTans f rm leaf leaf' q k) = treeTans f rm leaf leaf' q (k + 1) := by
  have hq : 2 ^ (q - k) = 2 * 2 ^ (q - (k + 1)) := by
    rw [← Nat.pow_succ', Nat.succ_eq_add_one, show q - (k + 1) + 1 = q - k by omega]
  have h2 : ∀ i, (2 * i) * 2 ^ k = i * 2 ^ (k + 1) := fun i => by rw [Nat.pow_succ]; ring
  have h3 : ∀ i, (2 * i + 1) * 2 ^ k = i * 2 ^ (k + 1) + 2 ^ k := fun i => by rw [Nat.pow_succ]; ring
  rw [treeTans, treeNodes, treeNodes, hq, tanPair_map]
  simp only [h2, h3, treeTans, treeTan]

theorem tanLevels_treeNodes (q n k : Nat) (h : k + n ≤ q) :
    tanLevels f rm (treeNodes f rm leaf q k) ((List.range n).map fun i => treeNodes f rm leaf q (k + 1 + i)) (treeTans f rm leaf leaf' q k) =
      (List.range n).map fun i => treeTans f rm leaf leaf' q (k + 1 + i) := by
  induction n generalizing k with
  | zero => rfl
  | succ n ih =>
    rw [List.range_succ_eq_map, List.map_cons, List.map_cons, List.map_map, List.map_map, tanLevels, Nat.add_zero,
      tanPair_treeTans f rm leaf leaf' (by omega)]
    have h := ih (k + 1) (by omega)
    simp only [Function.comp_def, Nat.add_right_comm, Nat.add_assoc] at h ⊢
    rw [h]

/-! ### Its bound (R36) -/

theorem redBound_concat (b : Word32) (ls : List (List Nat)) (l : List Nat) : redBound f b (ls ++ [l]) =
    bSum [bAdd (redBound f b ls) (redBound f b ls), halfUlp f (maxMag f l)] := by
  rw [redBound, List.foldl_append]
  rfl

theorem redBound_levels (q : Nat) (node : Nat → Nat → Nat) (b : Word32) (k : Nat) (h : k ≤ q) :
    redBound f b ((List.range k).map fun i => (List.range (2 ^ (q - (i + 1)))).map fun j => node (i + 1) (j * 2 ^ (i + 1))) =
      treeBound f (2 ^ q) node b k := by
  induction k with
  | zero => rfl
  | succ k ih =>
    rw [List.range_succ, List.map_append, List.map_singleton, redBound_concat, ih (by omega), treeBound, Nat.pow_div h (by decide)]

/-- The last level holds the root alone. -/
theorem root_levels {q : Nat} (hq : 0 < q) (node : Nat → Nat → Nat) :
    (((List.range q).map fun i => (List.range (2 ^ (q - (i + 1)))).map fun j => node (i + 1) (j * 2 ^ (i + 1))).getLastD []).take 1 = [node q 0] := by
  obtain ⟨p, rfl⟩ : ∃ p, q = p + 1 := ⟨q - 1, by omega⟩
  simp [List.range_succ]
end

/-! ### vred and vdot (R288) -/

/-- What a reduction over 2^q leaves writes: the root in lane 0, zeros beside it, in every tangent too. -/
def redWrite (s : State) (f : FSpec) (rm : RMode) (q : Nat) (leaf : Nat → Nat) (b : Word32) (leaf' : Nat → Nat → Nat) (b' : Nat → Word32) :
    VecWrite :=
  { w := f.width, mask := 2 ^ 64 - 1, masked := false, res := [tree f rm leaf q 0], b := treeBound f (512 / f.width) (tree f rm leaf) b q
    ts := vTansFor s.th fun j => ([treeTan f rm leaf (leaf' j) q 0], treeBound f (512 / f.width) (treeTan f rm leaf (leaf' j)) (b' j) q) }

theorem vTansFor_congr {t : Thread} {f g : Nat → List Nat × Word32} (h : ∀ j, j < t.k → f j = g j) : vTansFor t f = vTansFor t g :=
  List.map_congr_left fun j hj => by rw [h j (List.mem_range.mp hj)]

section
variable {s : State} {f : FSpec} {rm : RMode} {d : Fld} {mask q : Nat} {leaves : List Nat} {fls : List Flags} {b₀ b : Word32}
  {tl : Nat → List Nat × Word32} {act : Nat → Bool} {leaf : Nat → Nat} {fl : Nat → Flags} {leaf' : Nat → Nat → Nat} {b' : Nat → Word32}
  (hn : 512 / f.width = 2 ^ q) (hq : 0 < q) (hb : b₀ = b) (hact : ∀ i, i < 512 / f.width → mask.testBit i = act i)
  (hleaf : ∀ i, i < 512 / f.width → leaves.getD i 0 = leaf i) (hfl : ∀ i, i < 512 / f.width → act i = true → fls.getD i 0#5 = fl i)
  (htl : ∀ j, j < s.th.k → tl j = ((List.range (512 / f.width)).map (leaf' j), b' j))
include hn hq hb hact hleaf hfl htl

/-- A reduction raises the exceptions of its tree, lane by lane, and then writes its root. -/
theorem reduce_eq : reduce f rm d mask leaves fls b₀ tl s =
    (raiseV ((List.range (512 / f.width)).map fun i => if act i then treeFlags f rm leaf fl q i else 0#5) >>= fun _ =>
      writeLanes d f.width (2 ^ 64 - 1) false (redWrite s f rm q leaf b leaf' b').res (redWrite s f rm q leaf b leaf' b').b
        (redWrite s f rm q leaf b leaf' b').ts) s := by
  subst hb
  rw [hn] at hact hleaf hfl htl ⊢
  have hns : (List.range (2 ^ q)).map (fun i => RNode.mk (leaves.getD i 0) i 1) = treeNodes f rm leaf q 0 := by
    simp only [treeNodes, Nat.sub_zero, Nat.pow_zero, Nat.mul_one, tree]
    exact List.map_congr_left fun i hi => by rw [hleaf i (List.mem_range.mp hi)]
  have hlev := redLevels_treeNodes f rm leaf q q 0 (by omega)
  have hraise : (List.range (2 ^ q)).map (fun i => if mask.testBit i then ((List.range q).flatMap fun k => treeAdds f rm leaf q (0 + k)).foldl
      (fun a g => if g.1 ≤ i ∧ i < g.1 + g.2.1 then a ||| g.2.2 else a) (fls.getD i 0#5) else 0#5) =
      (List.range (2 ^ q)).map fun i => if act i then treeFlags f rm leaf fl q i else 0#5 := by
    refine List.map_congr_left fun i hi => ?_
    have hi := List.mem_range.mp hi
    rw [hact i hi]
    split
    · next ha => exact foldl_treeAdds f rm leaf hi _ fl (hfl i hi ha)
    · rfl
  have hvals : ((List.range q).map fun i => treeNodes f rm leaf q (0 + 1 + i)).map (fun l => l.map (·.x)) =
      (List.range q).map fun i => (List.range (2 ^ (q - (i + 1)))).map fun j => tree f rm leaf (i + 1) (j * 2 ^ (i + 1)) := by
    simp only [List.map_map, treeNodes, Function.comp_def, Nat.zero_add, Nat.add_comm 1]
  have htans : ∀ j, j < s.th.k → tanLevels f rm (treeNodes f rm leaf q 0) ((List.range q).map fun i => treeNodes f rm leaf q (0 + 1 + i)) (tl j).1 =
      (List.range q).map fun i => (List.range (2 ^ (q - (i + 1)))).map fun i' => treeTan f rm leaf (leaf' j) (i + 1) (i' * 2 ^ (i + 1)) := by
    intro j hj
    have h0 : (tl j).1 = treeTans f rm leaf (leaf' j) q 0 := by
      rw [htl j hj]
      simp only [treeTans, Nat.sub_zero, Nat.pow_zero, Nat.mul_one, treeTan]
    rw [h0, tanLevels_treeNodes f rm leaf (leaf' j) q q 0 (by omega)]
    simp only [treeTans, Nat.zero_add, Nat.add_comm 1]
  simp only [reduce, M.bind_run, getTh_run, hn, Nat.log2_two_pow]
  simp only [hns, hlev, hraise, hvals, root_levels hq, redBound_levels f q _ b₀ q (Nat.le_refl q)]
  rw [vTansFor_congr fun j hj => by rw [htans j hj, root_levels hq, redBound_levels f q _ _ q (Nat.le_refl q), htl j hj]]
  simp only [redWrite, hn]
end

/-- A reduction or a scan r with destination d: it traps on an enabled exception, and else writes v. -/
structure RedRuns (s : State) (d : Fld) (r : RedIns) (v : VecWrite) : Prop where
  traps : ∀ c, fpCause (r.all &&& s.th.enables) = some c →
    exec r.i s = .next (s.takeTrap s.cur c (BitVec.ofNat 64 (raising r.n r.act r.fl (0xC4 - c.toNat))) r.all)
  done : r.quiet s → ∃ t, exec r.i s = .next t ∧ Wrote s t d.spec.toNat r.all v

/-- An instruction that raises the exceptions of its lanes and then writes. -/
theorem redRuns_of {s : State} {h : Head} {d : Fld} {srcs : List Fld} {m : BitVec 3} {r : RedIns} {v : VecWrite} {body : M Ctl}
    (hi : Issues s h) (hr : VecReady s d srcs m) (hw : LaneWidth v.w) (hexec : exec r.i s = runU h body s)
    (hbody : body s = (raiseV ((List.range r.n).map fun i => if r.act i then r.fl i else 0#5) >>= fun _ =>
      writeLanes d v.w v.mask v.masked v.res v.b v.ts >>= fun _ => pure .fall) s) : RedRuns s d r v := by
  refine ⟨fun c hc => ?_, fun hc => ⟨_, ?_, wrote_finish hi.own hr.sound hw (vecReady_dest hr) (.inl rfl)⟩⟩
  · rw [hexec, ← stopped_raised hi]
    exact runU_stop hi (hbody.trans (M.bind_error (raiseV_trap rfl hc)))
  · rw [hexec]
    exact runU_done hi (hbody.trans ((M.bind_ok (raiseV_ok rfl hc)).trans (M.bind_ok (writeLanes_run d v _)))) (by decide)

/-- The first source alone is as ready as both. -/
theorem vecReady_first {s : State} {d a b : Fld} {m : BitVec 3} (h : VecReady s d [a, b] m) : VecReady s d [a] m :=
  ⟨fun p hp => h.fields p (by simp [fieldsAs] at hp ⊢; tauto), h.mask, h.sound⟩

theorem fty_lanes (t : FTy) : 512 / (ftySpec t).width = 2 ^ Nat.log2 (512 / (ftySpec t).width) ∧ 0 < Nat.log2 (512 / (ftySpec t).width) := by
  cases t <;> decide

/-- A computation that runs as one followed by another, with what follows. -/
theorem M.bind_congr_run {α β γ : Type} {x : M β} {y : M α} {z : α → M β} {s : State} (h : x s = (y >>= z) s) (k : β → M γ) :
    (x >>= k) s = (y >>= fun a => z a >>= k) s := by
  rw [M.bind_run, h, M.bind_run, M.bind_run]
  cases y s with
  | error e => rfl
  | ok p => exact (M.bind_run ..).symm

/-- Lanes computed under a mask operand. -/
theorem lanewise_active (s : State) (m : BitVec 3) {n : Nat} (hn : n ≤ 64) (g : Nat → Nat) :
    lanewise n (s.th.mask m) g = (List.range n).map fun i => if active s m i then g i else 0 :=
  List.map_congr_left fun i hi => by rw [active_eq s m (Nat.lt_of_lt_of_le (List.mem_range.mp hi) hn)]

/-- The active ones of computed lanes. -/
theorem activeOf_map_range (s : State) (m : BitVec 3) {n : Nat} (hn : n ≤ 64) (g : Nat → Nat) :
    activeOf (s.th.mask m) ((List.range n).map g) = ((List.range n).filter (active s m)).map g := by
  rw [activeOf_eq (s.th.mask m) _ (n := n) (by simp), filter_active s m hn]
  exact List.map_congr_left fun i hi => by rw [getD_map_range, if_pos (List.mem_range.mp (List.mem_filter.mp hi).1)]

section
variable {s : State} {h : Head} {d a b : Fld} {m : BitVec 3} {ty : FTy} {rc : Rc} (hi : Issues s h) (hr : VecReady s d [a, b] m)
include hi hr

theorem vred_runs :
    let f := ftySpec ty
    let x := lane s [a, b] f.width
    RedRuns s d (redIns s h d a b m ty rc).1 (redWrite s f (s.th.rmode rc) (Nat.log2 (512 / f.width))
      (fun i => if active s m i then x 0 i else 0) (boundOf s [a, b] 0)
      (fun j i => if active s m i then tanLane s [a, b] f.width j 0 i else 0) (fun j => tanBoundOf s [a, b] j 0)) := by
  intro f x
  have hw := laneWidth_fty ty
  obtain ⟨hn, hq⟩ := fty_lanes ty
  have hr' := vecReady_first hr
  refine redRuns_of hi hr hw rfl ?_
  refine (M.bind_ok (vecReady_check1 hr')).trans ((M.bind_ok (getTh_run s)).trans ((M.bind_ok (vecReady_readVs hr' _)).trans ?_))
  refine M.bind_congr_run (reduce_eq hn hq rfl (act := active s m) (leaf := fun i => if active s m i then x 0 i else 0)
    (leaf' := fun j i => if active s m i then tanLane s [a, b] f.width j 0 i else 0) (b' := fun j => tanBoundOf s [a, b] j 0)
    (fun i hi => active_eq s m (Nat.lt_of_lt_of_le hi hw.lanes_le)) (fun i hi => ?_) (fun _ _ _ => rfl) fun j hj => ?_) _
  · rw [lanewise_active s m hw.lanes_le, getD_map_range, if_pos hi]
    exact if_congr Iff.rfl (getD_lanesOf hw _ i) rfl
  · rw [lanewise_active s m hw.lanes_le]
    refine Prod.ext (List.map_congr_left fun i _ => if_congr Iff.rfl ?_ rfl) ?_
    · exact (congrArg (fun v => v.1.getD i 0) (tan_vsrc hj a.spec.toNat)).trans (getD_lanesOf hw _ i)
    · exact congrArg (·.2) (tan_vsrc hj a.spec.toNat)

theorem vdot_runs :
    let f := ftySpec ty
    let n := 512 / f.width
    let x := lane s [a, b] f.width
    let rm := s.th.rmode rc
    let act := active s m
    let on (g : Nat → Nat) : List Nat := ((List.range n).filter act).map g
    let bs := boundOf s [a, b]
    let mags := fun k => maxMag f (on (x k))
    let prod (i : Nat) : Nat := (fMul f rm (x 0 i) (x 1 i)).1
    let leaf' (j i : Nat) : Nat :=
      let y := tanLane s [a, b] f.width j
      if act i then fopTan f rm .mul (x 0 i) (x 1 i) 0 (y 0 i) (y 1 i) 0 (prod i) else 0
    RedRuns s d (redIns s h d a b m ty rc).2.1 (redWrite s f rm (Nat.log2 n) (fun i => if act i then prod i else 0)
      (bAdd (boundOfProduct mags bs) (halfUlp f (maxMag f (on prod)))) leaf'
      fun j => boundOfProductTangent mags (fun k => maxMag f (on (tanLane s [a, b] f.width j k))) bs (tanBoundOf s [a, b] j)
        (halfUlp f (maxMag f (on (leaf' j))))) := by
  intro f n x rm act on bs mags prod leaf'
  have hw := laneWidth_fty ty
  obtain ⟨hn, hq⟩ := fty_lanes ty
  refine redRuns_of hi hr hw rfl ?_
  refine (M.bind_ok (vecReady_check1 hr)).trans ((M.bind_ok (getTh_run s)).trans ((M.bind_ok (vecReady_readVs hr _)).trans ?_))
  have hx : ∀ i, (lanesOf f.width (s.th.vR a.spec.toNat)).getD i 0 = x 0 i := fun i => getD_lanesOf hw _ i
  have hy : ∀ i, (lanesOf f.width (s.th.vR b.spec.toNat)).getD i 0 = x 1 i := fun i => getD_lanesOf hw _ i
  have hp : ∀ i, (fMul f rm ((lanesOf f.width (s.th.vR a.spec.toNat)).getD i 0) ((lanesOf f.width (s.th.vR b.spec.toNat)).getD i 0)) =
      fMul f rm (x 0 i) (x 1 i) := fun i => by rw [hx, hy]
  refine M.bind_congr_run (reduce_eq hn hq (act := act) (leaf := fun i => if act i then prod i else 0) (leaf' := leaf')
    (fl := fun i => (fMul f rm (x 0 i) (x 1 i)).2) ?_
    (fun i hi => active_eq s m (Nat.lt_of_lt_of_le hi hw.lanes_le)) (fun i hi => ?_) (fun i hi ha => ?_) fun j hj => ?_) _
  · have hM := mags_srcs (s := s) (srcs := [a, b]) (m := m) (laneWidth_fty ty) f
    have hb := bounds_srcs s [a, b] f.width
    rw [hM, hb]
    refine (vBound_eq f .mul mags bs _).trans (congrArg (fun z => bAdd (boundOfProduct mags bs) (halfUlp f (maxMag f z))) ?_)
    rw [activeOf_lanewise, filter_active s m hw.lanes_le]
    exact List.map_congr_left fun i _ => congrArg (·.1) (hp i)
  · rw [lanewise_active s m hw.lanes_le, getD_map_range, if_pos hi]
    exact if_congr Iff.rfl (congrArg (·.1) (hp i)) rfl
  · rw [laneFlags_active s m hw.lanes_le, getD_map_range, if_pos hi, if_pos ha]
    exact congrArg (·.2) (hp i)
  · have hleaf : lanewise n (s.th.mask m) (fun i => fopTan f rm .mul ((lanesOf f.width (s.th.vR a.spec.toNat)).getD i 0)
        ((lanesOf f.width (s.th.vR b.spec.toNat)).getD i 0) 0 (((s.th.vsrc f.width a.spec.toNat).tan j).1.getD i 0)
        (((s.th.vsrc f.width b.spec.toNat).tan j).1.getD i 0) 0
        ((lanewise n (s.th.mask m) fun i => (fMul f rm ((lanesOf f.width (s.th.vR a.spec.toNat)).getD i 0)
          ((lanesOf f.width (s.th.vR b.spec.toNat)).getD i 0)).1).getD i 0)) = (List.range n).map (leaf' j) := by
      rw [lanewise_active s m hw.lanes_le, lanewise_active s m hw.lanes_le]
      refine List.map_congr_left fun i hi => if_ctx_congr Iff.rfl (fun ha => ?_) fun _ => rfl
      rw [getD_map_range, if_pos (List.mem_range.mp hi), if_pos ha, hp, hx, hy, tan_vsrc hj, tan_vsrc hj, getD_lanesOf hw, getD_lanesOf hw]
      rfl
    have hM := mags_srcs (s := s) (srcs := [a, b]) (m := m) hw f
    have hb := bounds_srcs s [a, b] f.width
    have hA := tanActives_srcs (s := s) (srcs := [a, b]) (m := m) hw hj
    have hbt : [((s.th.vsrc f.width a.spec.toNat).tan j).2, ((s.th.vsrc f.width b.spec.toNat).tan j).2] =
        (List.range 2).map (tanBoundOf s [a, b] j) := by
      rw [tan_vsrc hj, tan_vsrc hj]
      rfl
    refine Prod.ext hleaf ?_
    dsimp only
    rw [hM, hb, hA, List.map_map]
    exact (congrArg₂ (fun l x => vTanBound .mul ((List.range 2).map mags) ((List.range 2).map bs)
      ((List.range 2).map fun k => maxMag f (on (tanLane s [a, b] f.width j k))) l false (halfUlp f (maxMag f x))) hbt
      ((congrArg (activeOf (s.th.mask m)) hleaf).trans (activeOf_map_range s m hw.lanes_le _))).trans (vTanBound_eq .mul mags _ bs (tanBoundOf s [a, b] j) false _)

end

/-! ### vscan (R289) -/

section
variable (f : FSpec) (rm : RMode) {mask n : Nat} {act : Nat → Bool} (hact : ∀ l, l < n → mask.testBit l = act l)
include hact

/-- The scan of the lanes from lane i on gives the running sums and their exceptions. -/
theorem scanAux_map (x : Nat → Nat) {i k : Nat} (hk : i + k ≤ n) :
    scanAux f rm mask ((List.range' i k).map x) i (running f rm act x i) = (List.range' i k).map fun l =>
      if act l then (running f rm act x (l + 1), (fAdd f rm (running f rm act x l) (x l)).2) else (0, 0#5) := by
  induction k generalizing i with
  | zero => rfl
  | succ k ih =>
    have h := ih (i := i + 1) (by omega)
    rw [List.range'_succ, List.map_cons, List.map_cons, scanAux, hact i (by omega)]
    rw [running] at h
    by_cases ha : act i = true
    · rw [if_pos ha] at h
      rw [if_pos ha, if_pos ha, running, if_pos ha]
      exact congrArg (_ :: ·) h
    · rw [if_neg ha] at h
      rw [if_neg ha, if_neg ha, h]

/-- Its tangents are the running tangents. -/
theorem scanTan_map (x y : Nat → Nat) {i k : Nat} (hk : i + k ≤ n) :
    scanTan f rm mask ((List.range' i k).map x) ((List.range' i k).map fun l => if act l then running f rm act x (l + 1) else 0)
      ((List.range' i k).map y) i (running f rm act x i) (runningTan f rm act x y i) = (List.range' i k).map fun l =>
      if act l then runningTan f rm act x y (l + 1) else 0 := by
  induction k generalizing i with
  | zero => rfl
  | succ k ih =>
    have h := ih (i := i + 1) (by omega)
    rw [List.range'_succ, List.map_cons, List.map_cons, List.map_cons, List.map_cons, scanTan, hact i (by omega)]
    rw [running, runningTan, running] at h
    by_cases ha : act i = true
    · rw [if_pos ha, if_pos ha] at h
      rw [if_pos ha, if_pos ha, if_pos ha, runningTan, if_pos ha, running, if_pos ha]
      exact congrArg (_ :: ·) h
    · rw [if_neg ha, if_neg ha] at h
      rw [if_neg ha, if_neg ha, h]
end

/-- What a scan writes: the running sums in the active lanes, in every tangent too. -/
def scanWrite (s : State) (f : FSpec) (rm : RMode) (m : BitVec 3) (x : Nat → Nat) (b : Word32) (y : Nat → Nat → Nat) (b' : Nat → Word32) :
    VecWrite :=
  let act := active s m
  { w := f.width, mask := s.th.mask m, masked := m ≠ 0#3
    res := (List.range (512 / f.width)).map fun l => if act l then running f rm act x (l + 1) else 0
    b := scanBound f (512 / f.width) act (running f rm act x) b
    ts := vTansFor s.th fun j => ((List.range (512 / f.width)).map fun l => if act l then runningTan f rm act x (y j) (l + 1) else 0,
      scanBound f (512 / f.width) act (runningTan f rm act x (y j)) (b' j)) }

section
variable {s : State} {h : Head} {d a b : Fld} {m : BitVec 3} {f : FSpec} (rm : RMode) (hw : LaneWidth f.width)
include hw

theorem scanAux_lanes : scanAux f rm (s.th.mask m) (lanesOf f.width (s.th.vR a.spec.toNat)) 0 0 = (List.range (512 / f.width)).map fun l =>
    let sum := running f rm (active s m) (lane s [a, b] f.width 0)
    if active s m l then (sum (l + 1), (fAdd f rm (sum l) (lane s [a, b] f.width 0 l)).2) else (0, 0#5) := by
  have hact : ∀ l, l < 512 / f.width → (s.th.mask m).testBit l = active s m l := fun l hl =>
    active_eq s m (Nat.lt_of_lt_of_le hl hw.lanes_le)
  have h := scanAux_map f rm hact (lane s [a, b] f.width 0) (i := 0) (k := 512 / f.width) (by omega)
  rw [← List.range_eq_range'] at h
  exact h

theorem scanAux_sums : (scanAux f rm (s.th.mask m) (lanesOf f.width (s.th.vR a.spec.toNat)) 0 0).map (·.1) =
    (List.range (512 / f.width)).map fun l => if active s m l then running f rm (active s m) (lane s [a, b] f.width 0) (l + 1) else 0 := by
  rw [scanAux_lanes (b := b) rm hw, List.map_map]
  exact List.map_congr_left fun l _ => apply_ite Prod.fst _ _ _

theorem scanAux_flags : (scanAux f rm (s.th.mask m) (lanesOf f.width (s.th.vR a.spec.toNat)) 0 0).map (·.2) =
    (List.range (512 / f.width)).map fun l => if active s m l then
      (fAdd f rm (running f rm (active s m) (lane s [a, b] f.width 0) l) (lane s [a, b] f.width 0 l)).2 else 0#5 := by
  rw [scanAux_lanes (b := b) rm hw, List.map_map]
  exact List.map_congr_left fun l _ => apply_ite Prod.snd _ _ _

theorem scanTan_lanes {j : Nat} (hj : j < s.th.k) : scanTan f rm (s.th.mask m) (lanesOf f.width (s.th.vR a.spec.toNat))
    ((scanAux f rm (s.th.mask m) (lanesOf f.width (s.th.vR a.spec.toNat)) 0 0).map (·.1)) ((s.th.vsrc f.width a.spec.toNat).tan j).1 0 0 0 =
    (List.range (512 / f.width)).map fun l => if active s m l then
      runningTan f rm (active s m) (lane s [a, b] f.width 0) (tanLane s [a, b] f.width j 0) (l + 1) else 0 := by
  have hact : ∀ l, l < 512 / f.width → (s.th.mask m).testBit l = active s m l := fun l hl =>
    active_eq s m (Nat.lt_of_lt_of_le hl hw.lanes_le)
  have h := scanTan_map f rm hact (lane s [a, b] f.width 0) (tanLane s [a, b] f.width j 0) (i := 0) (k := 512 / f.width) (by omega)
  rw [scanAux_sums (b := b) rm hw, tan_vsrc hj]
  rw [← List.range_eq_range'] at h
  exact h

/-- The bound of a scan, from the lanes it has computed. -/
theorem scanBound_eq (sum : Nat → Nat) (old : Word32) :
    bAdd (bMul (some ((activeOf (s.th.mask m) (lanesOf f.width (s.th.vR a.spec.toNat))).length, 0)) old)
      (bMul (some ((activeOf (s.th.mask m) (lanesOf f.width (s.th.vR a.spec.toNat))).length - 1, 0)) (halfUlp f (maxMag f
        (activeOf (s.th.mask m) ((List.range (512 / f.width)).map fun l => if active s m l then sum (l + 1) else 0))))) =
    scanBound f (512 / f.width) (active s m) sum old := by
  rw [activeOf_map_range s m hw.lanes_le, activeOf_lanes hw, List.length_map]
  refine congrArg (fun l => bAdd _ (bMul _ (halfUlp f (maxMag f l)))) (List.map_congr_left fun l hl => ?_)
  rw [if_pos (List.mem_filter.mp hl).2]
end

/-- What the model's scan writes. -/
def scanOut (s : State) (f : FSpec) (rm : RMode) (m : BitVec 3) (u : VSrc) : VecWrite :=
  let mask := s.th.mask m
  let res := (scanAux f rm mask u.xs 0 0).map (·.1)
  let bd (b : Word32) (xs : List Nat) : Word32 := bAdd (bMul (some ((activeOf mask u.xs).length, 0)) b)
    (bMul (some ((activeOf mask u.xs).length - 1, 0)) (halfUlp f (maxMag f (activeOf mask xs))))
  { w := f.width, mask := mask, masked := m ≠ 0#3, res := res, b := bd u.b res
    ts := vTansFor s.th fun j =>
      let tr := scanTan f rm mask u.xs res (u.tan j).1 0 0 0
      (tr, bd (u.tan j).2 tr) }

theorem scanOut_eq (s : State) {f : FSpec} (hw : LaneWidth f.width) (rm : RMode) (m : BitVec 3) (a b : Fld) :
    scanOut s f rm m (s.th.vsrc f.width a.spec.toNat) = scanWrite s f rm m (lane s [a, b] f.width 0) (boundOf s [a, b] 0)
      (fun j => tanLane s [a, b] f.width j 0) fun j => tanBoundOf s [a, b] j 0 := by
  have hres := scanAux_sums (s := s) (m := m) (a := a) (b := b) rm hw
  have hb : (scanOut s f rm m (s.th.vsrc f.width a.spec.toNat)).b =
      scanBound f (512 / f.width) (active s m) (running f rm (active s m) (lane s [a, b] f.width 0)) (boundOf s [a, b] 0) :=
    (congrArg (fun l => bAdd _ (bMul _ (halfUlp f (maxMag f (activeOf (s.th.mask m) l))))) hres).trans (scanBound_eq hw _ _)
  simp only [scanOut, scanWrite, VecWrite.mk.injEq, true_and]
  refine ⟨hres, hb, vTansFor_congr fun j hj => ?_⟩
  have ht := scanTan_lanes (s := s) (m := m) (a := a) (b := b) rm hw hj
  have htb : ((s.th.vsrc f.width a.spec.toNat).tan j).2 = tanBoundOf s [a, b] j 0 := congrArg (·.2) (tan_vsrc hj a.spec.toNat)
  refine Prod.ext ht ?_
  exact (congrArg₂ (fun l z => bAdd (bMul _ z) (bMul _ (halfUlp f (maxMag f (activeOf (s.th.mask m) l))))) ht htb).trans (scanBound_eq hw _ _)

theorem vscan_runs {s : State} {h : Head} {d a b : Fld} {m : BitVec 3} {ty : FTy} {rc : Rc} (hi : Issues s h) (hr : VecReady s d [a, b] m) :
    let f := ftySpec ty
    RedRuns s d (redIns s h d a b m ty rc).2.2 (scanWrite s f (s.th.rmode rc) m (lane s [a, b] f.width 0) (boundOf s [a, b] 0)
      (fun j => tanLane s [a, b] f.width j 0) fun j => tanBoundOf s [a, b] j 0) := by
  intro f
  have hw := laneWidth_fty ty
  have hr' := vecReady_first hr
  refine redRuns_of hi hr hw rfl ?_
  refine (M.bind_ok (vecReady_check1 hr')).trans ((M.bind_ok (getTh_run s)).trans ((M.bind_ok (vecReady_readVs hr' _)).trans ?_))
  refine Eq.trans (b := (raiseV ((scanAux f (s.th.rmode rc) (s.th.mask m) (lanesOf f.width (s.th.vR a.spec.toNat)) 0 0).map (·.2)) >>= fun _ =>
    let v := scanOut s f (s.th.rmode rc) m (s.th.vsrc f.width a.spec.toNat)
    writeLanes d v.w v.mask v.masked v.res v.b v.ts >>= fun _ => pure Ctl.fall) s) ?_ ?_
  · simp only [List.map_cons, List.map_nil, List.getD_cons_zero, scanOut]
    rfl
  rw [scanAux_flags (b := b) (s.th.rmode rc) hw, scanOut_eq s hw (s.th.rmode rc) m a b]
  rfl

/-! ### The statements -/

theorem getD_vTansFor_sel {t : Thread} {j : Nat} (hj : j < t.k) (f : Nat → List Nat × Word32) :
    (vTansFor t f).getD j ([], 0#32) = if t.sel.contains j then f j else ([], 0#32) := by
  rw [vTansFor, getD_map_range, if_pos hj]

/-- The bound of a write under a mask operand: with a mask, the old one counts. -/
theorem bound_masked (m : BitVec 3) (old r : Word32) : (if decide (m ≠ 0#3) = true then bMax old r else r) = if m = 0#3 then r else bMax old r := by
  by_cases hm : m = 0#3 <;> simp [hm]

/-- A lane of a register that a reduction has written. -/
theorem root_lane (w : Nat) {l : Nat} (hl : l < 64) (x old : Nat) :
    (if (2 ^ 64 - 1).testBit l then [x].getD l 0 % 2 ^ w else old) = if l = 0 then x % 2 ^ w else 0 := by
  rw [Nat.testBit_two_pow_sub_one, decide_eq_true hl, if_pos rfl]
  cases l with
  | zero => rfl
  | succ l => exact Nat.zero_mod _

section
variable {s t : State} {f : FSpec} {rm : RMode} {q i : Nat} {leaf : Nat → Nat} {b : Word32} {leaf' : Nat → Nat → Nat} {b' : Nat → Word32}
  {fl : Flags} (ht : Wrote s t i fl (redWrite s f rm q leaf b leaf' b')) (hw : LaneWidth f.width)
include ht hw

theorem Wrote.redLane {l : Nat} (hl : l < 512 / f.width) :
    laneN f.width (t.th.vR i) l = if l = 0 then tree f rm leaf q 0 % 2 ^ f.width else 0 :=
  (ht.lanes l hl).trans (root_lane _ (Nat.lt_of_lt_of_le hl hw.lanes_le) _ _)

theorem Wrote.redTan {j : Nat} (hj : j < s.th.k) :
    let on := s.th.sel.contains j
    (∀ l, l < 512 / f.width → laneN f.width (t.th.vT j i) l =
      if l = 0 then (if on then treeTan f rm leaf (leaf' j) q 0 else 0) % 2 ^ f.width else 0) ∧
    t.th.vTb j i = if on then treeBound f (512 / f.width) (treeTan f rm leaf (leaf' j)) (b' j) q else 0#32 := by
  intro on
  have htan : (redWrite s f rm q leaf b leaf' b').tan j = _ := getD_vTansFor_sel hj _
  have hb := ht.tanBounds j hj
  rw [htan] at hb
  refine ⟨fun l hl => ?_, hb.trans (apply_ite Prod.snd _ _ _)⟩
  have h := ht.tans j hj l hl
  rw [htan] at h
  have h0 := root_lane f.width (Nat.lt_of_lt_of_le hl hw.lanes_le) (if on then treeTan f rm leaf (leaf' j) q 0 else 0) (laneN f.width (s.th.vT j i) l)
  refine h.trans (Eq.trans ?_ h0)
  by_cases ho : on = true
  · rw [if_pos ho, if_pos ho]
    rfl
  · rw [if_neg ho, if_neg ho]
    cases l <;> rfl
end

section
variable {s t : State} {f : FSpec} {rm : RMode} {m : BitVec 3} {i : Nat} {x : Nat → Nat} {b : Word32} {y : Nat → Nat → Nat} {b' : Nat → Word32}
  {fl : Flags} (ht : Wrote s t i fl (scanWrite s f rm m x b y b')) (hw : LaneWidth f.width)
include ht hw

theorem Wrote.scanLane {l : Nat} (hl : l < 512 / f.width) : laneN f.width (t.th.vR i) l =
    if active s m l then running f rm (active s m) x (l + 1) % 2 ^ f.width else laneN f.width (s.th.vR i) l := by
  have h := ht.lanes l hl
  have hact := active_eq s m (Nat.lt_of_lt_of_le hl hw.lanes_le)
  refine h.trans (if_ctx_congr (by rw [← hact]; rfl) (fun ha => ?_) fun _ => rfl)
  refine congrArg (· % 2 ^ f.width) ((getD_map_range _ _ l 0).trans ?_)
  rw [if_pos hl, if_pos ha]

theorem Wrote.scanTan {j : Nat} (hj : j < s.th.k) :
    let on := s.th.sel.contains j
    (∀ l, l < 512 / f.width → laneN f.width (t.th.vT j i) l = if active s m l then
      (if on then runningTan f rm (active s m) x (y j) (l + 1) % 2 ^ f.width else 0) else laneN f.width (s.th.vT j i) l) ∧
    t.th.vTb j i = (let r := if on then scanBound f (512 / f.width) (active s m) (runningTan f rm (active s m) x (y j)) (b' j) else 0#32
      if m = 0#3 then r else bMax (s.th.vTb j i) r) := by
  intro on
  have htan : (scanWrite s f rm m x b y b').tan j = _ := getD_vTansFor_sel hj _
  constructor
  · intro l hl
    have h := ht.tans j hj l hl
    have hact := active_eq s m (Nat.lt_of_lt_of_le hl hw.lanes_le)
    rw [htan] at h
    refine h.trans (if_ctx_congr (by rw [← hact]; rfl) (fun ha => ?_) fun _ => rfl)
    by_cases ho : on = true
    · rw [if_pos ho, if_pos ho]
      refine congrArg (· % 2 ^ f.width) ((getD_map_range _ _ l 0).trans ?_)
      rw [if_pos hl, if_pos ha]
    · rw [if_neg ho, if_neg ho]
      exact Nat.zero_mod _
  · have hb := ht.tanBounds j hj
    rw [htan] at hb
    refine hb.trans ((bound_masked m _ _).trans ?_)
    rw [apply_ite Prod.snd]
end

/-- Settles O14: each of the three raises the exceptions of its lanes and writes its sums. -/
theorem vectorReductions : Obligations.VectorReductions := by
  unfold Obligations.VectorReductions
  intro s h d a b m ty rc hi hr f n rm x
  have hw := laneWidth_fty ty
  have hred := vred_runs (rc := rc) (ty := ty) hi hr
  have hdot := vdot_runs (rc := rc) (ty := ty) hi hr
  have hscan := vscan_runs (rc := rc) (ty := ty) hi hr
  refine ⟨fun hq => ?_, fun hq => ?_, fun hq => ?_, fun r hr c hc => ?_⟩
  · obtain ⟨t, he, ht⟩ := hred.done hq
    exact ⟨t, he, ht.flags, fun j hj => ht.redLane hw hj⟩
  · obtain ⟨t, he, ht⟩ := hdot.done hq
    exact ⟨t, he, ht.flags, fun j hj => ht.redLane hw hj⟩
  · obtain ⟨t, he, ht⟩ := hscan.done hq
    exact ⟨t, he, ht.flags, fun j hj => ht.scanLane hw hj⟩
  · rcases List.mem_cons.mp hr with rfl | hr
    · exact hred.traps c hc
    rcases List.mem_cons.mp hr with rfl | hr
    · exact hdot.traps c hc
    · rw [List.mem_singleton] at hr
      subst hr
      exact hscan.traps c hc

/-- The bound and the tangents of the three. -/
theorem reductionSidecars : ReductionSidecars := by
  intro s t h d a b m ty rc hi hr f n q rm act on x bs M prod plain leaf bdot merged lane0 dn
  have hw := laneWidth_fty ty
  have hred := vred_runs (rc := rc) (ty := ty) hi hr
  have hdot := vdot_runs (rc := rc) (ty := ty) hi hr
  have hscan := vscan_runs (rc := rc) (ty := ty) hi hr
  have hat : ∀ {r : RedIns} {v : VecWrite}, RedRuns s d r v → r.quiet s → exec r.i s = .next t → Wrote s t dn r.all v := by
    intro r v hv hq he
    obtain ⟨u, hu, hwr⟩ := hv.done hq
    obtain rfl : u = t := Host.Outcome.next.inj (hu.symm.trans he)
    exact hwr
  refine ⟨fun hq he => (hat hred hq he).bound, fun hq he => (hat hdot hq he).bound,
    fun hq he => (hat hscan hq he).bound.trans (bound_masked m _ _), fun j hj => ⟨fun hq he => ?_, fun hq he => ?_, fun hq he => ?_⟩⟩
  · exact (hat hred hq he).redTan hw hj
  · exact (hat hdot hq he).redTan hw hj
  · exact (hat hscan hq he).scanTan hw hj

/-- Settles O43: the table of lane-wise instructions gives the bound and the tangents of each, and reductions have theirs. -/
theorem vectorSidecars : Obligations.VectorSidecars := ⟨vectorBounds, vectorTangents, reductionSidecars⟩

end Sys2Proof.Machine
end

section
/-!
Masks, choice by a mask, and moves between a lane and a scalar register (R284, R285, R290, R292).
-/
namespace Sys2Proof.Machine
open Sys2Proof.Claims

/-! ### Masks -/

/-- Passing an instruction that has changed the thread in hand leaves what is neither its place nor its passing state. -/
theorem finish_field {α : Type} {s : State} {x : Thread} (hx : x.atPort = false) (F : Thread → α)
    (hF : ∀ t pc m ls, F { t.settled with pc := pc, pcMode := m, loops := ls } = F t := by intros; rfl) :
    F ((s.setTh x).finish .fall).th = F x := by
  have hp : (s.setTh x).th.atPort = false := (congrArg (fun t : Thread => t.atPort) (State.th_setTh s x)).trans hx
  obtain ⟨pc, m, ls, h⟩ := (s.setTh x).finish_fall_th hp
  rw [h, State.th_setTh, hF]

/-- It leaves the vector registers and the flags as they then are. -/
theorem finish_setTh_vectors {s : State} {x : Thread} (hx : x.atPort = false) :
    let t := ((s.setTh x).finish .fall).th
    (∀ n, t.vR n = x.vR n) ∧ (∀ n, t.vB n = x.vB n) ∧ t.vt = x.vt ∧ t.fpflags = x.fpflags :=
  ⟨fun n => finish_field hx (fun t => t.vR n), fun n => finish_field hx (fun t => t.vB n), finish_field hx (fun t => t.vt),
    finish_field hx (fun t => t.fpflags)⟩

section
variable {s : State} {h : Head} {d a b : Fld} {m : BitVec 3}

/-- What vcmp leaves: a mask with bound 0, and the exceptions of its active lanes. -/
theorem vcmp_runs {ty : Fmt} {c : FCond} (ht : ty ≠ .f4) (hi : Issues s h) (hr : VecReady s d [a, b] m) :
    let r := cmpIns s h d a b m ty c
    let x := lane s [a, b] (fmtWidth ty)
    (∀ q, fpCause (r.all &&& s.th.enables) = some q → exec r.i s =
      .next (s.takeTrap s.cur q (BitVec.ofNat 64 (raising r.n r.act r.fl (0xC4 - q.toNat))) r.all)) ∧
    (r.quiet s → exec r.i s = .next (((withFlags s r.all).modTh fun t => (t.setV d.spec.toNat (BitVec.ofNat 512
      (bitSum r.n fun i => (s.th.mask m).testBit i && (cmpLane ty c (x 0 i) (x 1 i)).1))).setVb d.spec.toNat 0#32).finish .fall)) := by
  intro r x
  have hw := laneWidth_fmt ht
  have hfl := laneFlags_active s m hw.lanes_le fun i => (cmpLane ty c (x 0 i) (x 1 i)).2
  constructor
  · intro q hq
    rw [← stopped_raised hi]
    refine runU_stop hi ((M.bind_ok (vecReady_check1 hr)).trans ((M.bind_ok (vecReady_readVs hr _)).trans ?_))
    simp only [getD_srcs hw]
    exact M.bind_error (raiseV_trap hfl hq)
  · intro hq
    refine runU_done hi ((M.bind_ok (vecReady_check1 hr)).trans ((M.bind_ok (vecReady_readVs hr _)).trans ?_)) (by decide)
    simp only [getD_srcs hw, foldl_bitSum]
    exact M.bind_ok (raiseV_ok hfl hq)

/-- What vsel writes. -/
def selWrite (s : State) (a b : Fld) (m : BitVec 3) (ty : Fmt) : VecWrite :=
  let w := fmtWidth ty
  let n := 512 / w
  let u := s.th.vsrc w a.spec.toNat
  let v := s.th.vsrc w b.spec.toNat
  { w := w, mask := 2 ^ 64 - 1, masked := false, res := pickLanes (s.th.mask m) n u.xs v.xs, b := bMax u.b v.b
    ts := vTansFor s.th fun j => (pickLanes (s.th.mask m) n (u.tan j).1 (v.tan j).1, bMax (u.tan j).2 (v.tan j).2) }

theorem vsel_runs {ty : Fmt} (ht : ty ≠ .f4) (hi : Issues s h) (hr : VecReady s d [a, b] m) :
    ∃ t, exec (.vsel h d a b m ty) s = .next t ∧ Wrote s t d.spec.toNat 0#5 (selWrite s a b m ty) := by
  refine ⟨_, runU_done hi ?_ (by decide), wrote_finish hi.own hr.sound (laneWidth_fmt ht) (vecReady_dest hr) (.inr ⟨rfl, rfl⟩)⟩
  refine (M.bind_ok (vecReady_check1 hr)).trans ((M.bind_ok (getTh_run s)).trans ((M.bind_ok (vecReady_readVs hr _)).trans ?_))
  exact M.bind_ok (writeLanes_run d (selWrite s a b m ty) s)

/-- A lane chosen by a mask. -/
theorem getD_pickLanes {w : Nat} (hw : LaneWidth w) (m : BitVec 3) (x y : Vec) {l : Nat} (hl : l < 512 / w) :
    (pickLanes (s.th.mask m) (512 / w) (lanesOf w x) (lanesOf w y)).getD l 0 = if active s m l then laneN w x l else laneN w y l := by
  rw [pickLanes, getD_map_range, if_pos hl, active_eq s m (Nat.lt_of_lt_of_le hl hw.lanes_le), getD_lanesOf hw, getD_lanesOf hw]

theorem testBit_all {l : Nat} (hl : l < 64) : (2 ^ 64 - 1).testBit l = true := by
  rw [Nat.testBit_two_pow_sub_one, decide_eq_true hl]

/-- Choosing between two sources by a condition. -/
theorem lane_choice (w : Nat) (p : Bool) (l : Nat) : lane s [a, b] w (if p then 0 else 1) l =
    if p then laneN w (s.th.vR a.spec.toNat) l else laneN w (s.th.vR b.spec.toNat) l := by cases p <;> rfl
theorem tanLane_choice (w j : Nat) (p : Bool) (l : Nat) : tanLane s [a, b] w j (if p then 0 else 1) l =
    if p then laneN w (s.th.vT j a.spec.toNat) l else laneN w (s.th.vT j b.spec.toNat) l := by cases p <;> rfl

theorem selWrite_lane {t : State} {ty : Fmt} {i : Nat} {fl : Flags} (ht : ty ≠ .f4) (hwr : Wrote s t i fl (selWrite s a b m ty)) {l : Nat}
    (hl : l < 512 / fmtWidth ty) : laneN (fmtWidth ty) (t.th.vR i) l = lane s [a, b] (fmtWidth ty) (if active s m l then 0 else 1) l := by
  have hw := laneWidth_fmt ht
  refine (hwr.lanes l hl).trans ?_
  rw [show (selWrite s a b m ty).mask.testBit l = true from testBit_all (Nat.lt_of_lt_of_le hl hw.lanes_le), if_pos rfl,
    show (selWrite s a b m ty).res.getD l 0 = _ from getD_pickLanes hw m _ _ hl, lane_choice]
  refine Nat.mod_eq_of_lt ?_
  split
  · exact laneN_lt ..
  · exact laneN_lt ..

theorem selWrite_tan {t : State} {ty : Fmt} {i : Nat} {fl : Flags} (ht : ty ≠ .f4) (hwr : Wrote s t i fl (selWrite s a b m ty)) {q : Nat}
    (hq : q < s.th.k) : (∀ l, l < 512 / fmtWidth ty → laneN (fmtWidth ty) (t.th.vT q i) l =
      if q ∈ s.th.sel then tanLane s [a, b] (fmtWidth ty) q (if active s m l then 0 else 1) l else 0) ∧
    t.th.vTb q i = if q ∈ s.th.sel then bMax (tanBoundOf s [a, b] q 0) (tanBoundOf s [a, b] q 1) else 0#32 := by
  have hw := laneWidth_fmt ht
  have htan : (selWrite s a b m ty).tan q = _ := getD_vTansFor hq _
  have hb : t.th.vTb q i = ((selWrite s a b m ty).tan q).2 := hwr.tanBounds q hq
  have hlane : ∀ l, l < 512 / fmtWidth ty → laneN (fmtWidth ty) (t.th.vT q i) l = ((selWrite s a b m ty).tan q).1.getD l 0 % 2 ^ fmtWidth ty :=
    fun l hl => (hwr.tans q hq l hl).trans (if_pos (testBit_all (Nat.lt_of_lt_of_le hl hw.lanes_le)))
  rw [htan] at hb hlane
  by_cases hs : q ∈ s.th.sel
  · rw [if_neg (not_not.mpr hs), tan_vsrc hq, tan_vsrc hq] at hb hlane
    rw [if_pos hs]
    refine ⟨fun l hl => ?_, hb⟩
    rw [hlane l hl, getD_pickLanes hw m _ _ hl, if_pos hs, tanLane_choice]
    refine Nat.mod_eq_of_lt ?_
    split
    · exact laneN_lt ..
    · exact laneN_lt ..
  · rw [if_pos hs] at hb hlane
    rw [if_neg hs]
    exact ⟨fun l hl => by rw [hlane l hl, if_neg hs]; exact Nat.zero_mod _, hb⟩

/-- A bit of a combined mask. -/
theorem getLsbD_maskW (op : MaskOp) (x y : Word) {j : Nat} (hj : j < 64) : (maskW op x y).getLsbD j =
    (match op with
      | .and => x.getLsbD j && y.getLsbD j
      | .or => x.getLsbD j || y.getLsbD j
      | .xor => x.getLsbD j != y.getLsbD j
      | .andn => x.getLsbD j && !y.getLsbD j
      | .not => !x.getLsbD j) := by
  cases op <;> simp [maskW, hj]

theorem readV_run (he : s.th.regErr = []) (f : BitVec 8) : readV f s = .ok ((s.th.vR f.toNat, s.th.vB f.toNat), s) := by
  simp only [readV, M.bind_run, regCheck_run he, getTh_run, M.pure_run]

theorem vmask_runs (op : MaskOp) (hi : Issues s h) (hr : VecReady s d [a, b] m) : exec (.vmask h d a b op) s =
    .next ((s.modTh fun t => t.putV d.spec.toNat ((maskW op ((s.th.vR a.spec.toNat).setWidth 64)
      ((if op = .not then 0#512 else s.th.vR b.spec.toNat).setWidth 64)).zeroExtend 512) 0#32 fun _ => (0#512, 0#32)).finish .fall) := by
  refine runU_done hi ?_ (by decide)
  by_cases hop : op = .not
  · subst hop
    exact (M.bind_ok (vecReady_check1 (vecReady_first hr))).trans ((M.bind_ok (readV_run hr.sound _)).trans rfl)
  · simp only [if_neg hop]
    exact (M.bind_ok (vecReady_check1 hr)).trans ((M.bind_ok (readV_run hr.sound _)).trans ((M.bind_ok (readV_run hr.sound _)).trans rfl))
end

/-- Comparisons, choice and combinations. -/
theorem vectorMasks : VectorMasks := by
  intro s h d a b m hi hr
  refine ⟨fun ty c hwf => ?_, fun ty hwf => ?_, fun op => ?_⟩
  · intro r
    have ht : ty ≠ .f4 := by
      rintro rfl
      cases hwf
    obtain ⟨htrap, hdone⟩ := vcmp_runs (c := c) ht hi hr
    refine ⟨fun hq => ⟨_, hdone hq, ?_⟩, htrap⟩
    rw [Accrued.modTh (.inl rfl)]
    obtain ⟨hvR, hvB, hvt, hfl⟩ := finish_setTh_vectors (s := s) (x := (Thread.setV { s.th with fpflags := s.th.fpflags ||| r.all } d.spec.toNat
      (BitVec.ofNat 512 (bitSum r.n fun i => (s.th.mask m).testBit i &&
        (cmpLane ty c (lane s [a, b] (fmtWidth ty) 0 i) (lane s [a, b] (fmtWidth ty) 1 i)).1))).setVb d.spec.toNat 0#32) hi.own
    refine ⟨hfl, fun j hj => ?_, (hvB _).trans ((Thread.vB_setVb ..).trans (if_pos rfl)), hvt⟩
    refine (congrArg (fun v : Vec => v.getLsbD j) ((hvR _).trans ((Thread.vR_setV ..).trans (if_pos rfl)))).trans ?_
    rw [BitVec.getLsbD_ofNat, decide_eq_true hj, Bool.true_and, testBit_bitSum, Bool.and_assoc]
    show (decide (j < 512 / fmtWidth ty) && _) = _
    by_cases hjn : j < 512 / fmtWidth ty
    · rw [active_eq s m (Nat.lt_of_lt_of_le hjn (laneWidth_fmt ht).lanes_le)]
    · rw [decide_eq_false hjn, Bool.false_and, Bool.false_and]
  · have ht := isM_ne (t := ty) hwf
    obtain ⟨t, he, hwr⟩ := vsel_runs ht hi hr
    exact ⟨t, he, fun j hj => selWrite_lane ht hwr hj, hwr.bound, fun q hq => selWrite_tan ht hwr hq⟩
  · refine ⟨_, vmask_runs op hi hr, ?_⟩
    obtain ⟨hvR, hvB, -, -⟩ := finish_setTh_vectors (s := s) (x := s.th.putV d.spec.toNat ((maskW op ((s.th.vR a.spec.toNat).setWidth 64)
      ((if op = .not then 0#512 else s.th.vR b.spec.toNat).setWidth 64)).zeroExtend 512) 0#32 fun _ => (0#512, 0#32))
      ((congrArg (fun t : Thread => t.atPort) (Thread.putV_rest _ _ _ _ hr.sound)).trans hi.own)
    refine ⟨fun j hj => ?_, (hvB _).trans ((Thread.putV_vB ..).trans (if_pos rfl))⟩
    refine (congrArg (fun v : Vec => v.getLsbD j) ((hvR _).trans ((Thread.putV_vR ..).trans (if_pos rfl)))).trans ?_
    rw [BitVec.getLsbD_setWidth, decide_eq_true hj, Bool.true_and]
    by_cases h64 : j < 64
    · rw [getLsbD_maskW op _ _ h64, decide_eq_true h64, Bool.true_and]
      cases op <;> simp [h64]
    · rw [BitVec.getLsbD_of_ge _ _ (Nat.not_lt.mp h64), decide_eq_false h64, Bool.false_and]

/-! ### Moves between a lane and a scalar register (R290) -/

section
variable {s t : State} (h : OperandsRead s t)
include h
/-- Reading scalar operands leaves the vector registers. -/
theorem OperandsRead.vR (n : Nat) : t.th.vR n = s.th.vR n := (congrArg (fun t : Thread => t.vR n) h.thread :)
theorem OperandsRead.vB (n : Nat) : t.th.vB n = s.th.vB n := (congrArg (fun t : Thread => t.vB n) h.thread :)
theorem OperandsRead.vT (j n : Nat) : t.th.vT j n = s.th.vT j n := (congrArg (fun t : Thread => t.vT j n) h.thread :)
theorem OperandsRead.vTb (j n : Nat) : t.th.vTb j n = s.th.vTb j n := (congrArg (fun t : Thread => t.vTb j n) h.thread :)
theorem OperandsRead.regErr : t.th.regErr = s.th.regErr := (congrArg (fun t : Thread => t.regErr) h.thread :)
end

/-- A lane as a scalar register holds it. -/
theorem placeS_lane (ty : Fmt) {x : Nat} (hx : x < 2 ^ fmtWidth ty) :
    placeS ty x = (match intFmt? ty with | some _ => BitVec.ofInt 64 (laneInt ty x) | none => BitVec.ofNat 64 x) := by
  unfold placeS
  cases hf : intFmt? ty with
  | none => rfl
  | some p =>
    have hi : ty.isI = true := by rw [isI_intFmt, hf]; rfl
    obtain ⟨b, hb⟩ := intFmt_width hi
    have hp : p = (fmtWidth ty, b) := Option.some.inj (hf.symm.trans hb)
    have h := intVal_laneInt hi hx
    rw [isSgn, hb] at h
    subst hp
    exact congrArg (BitVec.ofInt 64) h

theorem mem_sel {t : Thread} {j : Nat} (h : j ∈ t.sel) : j < t.k := List.mem_range.mp (List.mem_of_mem_filter h)

/-- A list of tangents from its entries. -/
theorem tans_eq {t : Thread} {ts : List Word} {f : Nat → Word} (hl : ts.length = t.k)
    (h0 : ∀ j, j < t.k → j ∉ t.sel → ts.getD j 0#64 = 0#64) (h1 : ∀ j, j ∈ t.sel → ts.getD j 0#64 = f j) :
    ((List.range t.k).map fun j => if t.sel.contains j then f j else 0#64) = ts := by
  refine List.ext_getElem (by simp [hl]) fun j hj hj' => ?_
  have hk : j < t.k := hl ▸ hj'
  rw [List.getElem_map, List.getElem_range, ← List.getD_eq_getElem (d := 0#64) ts hj']
  by_cases hs : j ∈ t.sel
  · rw [if_pos (List.contains_iff_mem.mpr hs), h1 j hs]
  · rw [if_neg (by simpa using hs), h0 j hk hs]

section
variable {s s₁ : State} {h : Head} {d a : Fld} {ty : Fmt} {k : BitVec 6}

theorem vext_completes {s₂ : State} {y : Word} {ts : List Word} (hi : Issues s h) (he : s.th.regErr = [])
    (hf : FieldsOk s [(.ws, d), (.vec, a)]) (hy : placeS ty (laneN (fmtWidth ty) (s.th.vR a.spec.toNat) k.toNat) = y)
    (hts : ((List.range s.th.k).map fun j => if s.th.sel.contains j then placeS ty (laneN (fmtWidth ty) (s.th.vT j a.spec.toNat) k.toNat)
      else 0#64) = ts)
    (hw : writeST d y ts s = .ok ((), s₂)) : exec (.vext h d a ty k) s = .next (s₂.finish .fall) := by
  subst hy
  subst hts
  exact runU_done hi ((M.bind_ok (check1_ok hf)).trans ((M.bind_ok (getTh_run s)).trans ((M.bind_ok (readV_run he _)).trans (M.bind_ok hw))))
    (by decide)

/-- What vins writes: one lane, and the same lane of each tangent. -/
def insWrite (s : State) (a : Fld) (ty : Fmt) (k : Nat) (x : Word) : VecWrite :=
  let w := fmtWidth ty
  let one (y : Word) : List Nat := lanewise (512 / w) (2 ^ k) fun _ => y.toNat % 2 ^ w
  { w := w, mask := 2 ^ k, masked := true, res := one x, b := 0#32, ts := vTansFor s.th fun j => (one (s.th.tanS a j), 0#32) }

theorem vins_runs {x : Word} (ht : ty ≠ .f4) (hi : Issues s h) (he : s.th.regErr = []) (hf : FieldsOk s [(.vec, d), (.rs, a)])
    (hx : readS a s = .ok (x, s₁)) :
    ∃ t, exec (.vins h d a ty k) s = .next t ∧ Wrote s₁ t d.spec.toNat 0#5 (insWrite s a ty k.toNat x) := by
  have hrd := readS_read hx
  refine ⟨_, runU_done hi ?_ (by decide), wrote_finish (hrd.operated.atPort.trans hi.own) (hrd.regErr.trans he) (laneWidth_fmt ht)
    (vec_lt (hf _ (List.mem_cons_self ..))) (.inr ⟨rfl, rfl⟩)⟩
  exact (M.bind_ok (check1_ok hf)).trans ((M.bind_ok (getTh_run s)).trans ((M.bind_ok hx).trans
    (M.bind_ok (writeLanes_run d (insWrite s a ty k.toNat x) s₁))))

/-- One lane computed. -/
theorem getD_one {n k : Nat} (hk : k < n) (x : Nat) : (lanewise n (2 ^ k) fun _ => x).getD k 0 = x := by
  rw [getD_lanewise, if_pos ⟨hk, Nat.testBit_two_pow_self⟩]

theorem insWrite_lane {t : State} {i l : Nat} {fl : Flags} {x : Word} (hwr : Wrote s₁ t i fl (insWrite s a ty k.toNat x))
    (hl : l < 512 / fmtWidth ty) : laneN (fmtWidth ty) (t.th.vR i) l =
      if l = k.toNat then x.toNat % 2 ^ fmtWidth ty else laneN (fmtWidth ty) (s₁.th.vR i) l := by
  refine (hwr.lanes l hl).trans ?_
  show (if (2 ^ k.toNat).testBit l = true then (lanewise _ _ _).getD l 0 % 2 ^ fmtWidth ty else laneN (fmtWidth ty) (s₁.th.vR i) l) = _
  rw [Nat.testBit_two_pow]
  by_cases h : l = k.toNat
  · subst h
    rw [if_pos (decide_eq_true rfl), if_pos rfl, getD_one hl, Nat.mod_mod]
  · rw [if_neg (by simpa using Ne.symm h), if_neg h]

theorem insWrite_tan {t : State} {i q : Nat} {fl : Flags} {x : Word} (hwr : Wrote s₁ t i fl (insWrite s a ty k.toNat x))
    (hq : q < s.th.k) (hq₁ : q < s₁.th.k) (hk : k.toNat < 512 / fmtWidth ty) :
    laneN (fmtWidth ty) (t.th.vT q i) k.toNat = (if q ∈ s.th.sel then (s.th.tanS a q).toNat % 2 ^ fmtWidth ty else 0) ∧
    t.th.vTb q i = bMax (s₁.th.vTb q i) 0#32 := by
  have htan : (insWrite s a ty k.toNat x).tan q = _ := getD_vTansFor hq _
  have hl := hwr.tans q hq₁ k.toNat hk
  have hb : t.th.vTb q i = bMax (s₁.th.vTb q i) ((insWrite s a ty k.toNat x).tan q).2 := hwr.tanBounds q hq₁
  rw [show (insWrite s a ty k.toNat x).mask.testBit k.toNat = true from Nat.testBit_two_pow_self, if_pos rfl] at hl
  rw [htan] at hl hb
  by_cases hs : q ∈ s.th.sel
  · rw [if_neg (not_not.mpr hs)] at hl hb
    rw [if_pos hs]
    exact ⟨hl.trans ((congrArg (· % _) (getD_one hk _)).trans (Nat.mod_mod _ _)), hb⟩
  · rw [if_pos hs] at hl hb
    rw [if_neg hs]
    exact ⟨hl.trans (Nat.zero_mod _), hb⟩
end

/-- Both moves. -/
theorem vectorScalarMoves : VectorScalarMoves := by
  intro s s₁ s₂ h d a ty k hi he w
  refine ⟨fun y ts hf => ?_, fun x hwf hf hx => ?_⟩
  · intro _ hy hl h0 h1 hw
    exact vext_completes hi he hf ((placeS_lane ty (laneN_lt ..)).trans hy.symm) (tans_eq hl h0 h1) hw
  · have hw : ty.isM = true ∧ k.toNat < ty.lanes := by simpa [WellFormed.instr] using hwf
    have hrd := readS_read hx
    obtain ⟨t, he, hwr⟩ := vins_runs (k := k) (isM_ne hw.1) hi he hf hx
    refine ⟨t, he, fun j hj => ?_, ?_, fun q hq => ?_⟩
    · have hl := insWrite_lane hwr hj
      rw [hrd.vR] at hl
      exact hl
    · exact hwr.bound.trans (congrArg (bMax · 0#32) (hrd.vB _))
    · obtain ⟨hl, hb⟩ := insWrite_tan hwr hq (hrd.operated.k ▸ hq) hw.2
      exact ⟨hl, hb.trans (congrArg (bMax · 0#32) (hrd.vTb _ _))⟩

/-- Settles O44: what masks, choices and moves of single lanes leave. -/
theorem vectorMoves : Obligations.VectorMoves := ⟨vectorMasks, vectorScalarMoves⟩

end Sys2Proof.Machine
end

section
/-!
The instruction dual, and the bounds and tangents read and written (R129, R331 to R333).
-/
namespace Sys2Proof.Machine
open Sys2Proof.Claims

/-! ### dual (R129, R331) -/

theorem stopped_own {s : State} (hp : s.th.atPort = false) (c : Byte) (tv : Word) : s.stopped (.trap c tv 0#5) = s.takeTrap s.cur c tv 0#5 := by
  simp [State.stopped, hp]

theorem dualPrefix : DualPrefix := by
  intro s m hp
  have hrun : exec (.dual m) s = execDual m s := rfl
  have htail : NotTail s ↔ s.th.isTail s.th.pc = false := Iff.rfl
  rw [hrun]
  unfold execDual
  dsimp only
  refine ⟨fun hk => ?_, fun hk hm => ?_, fun hk h0 hm ht => ?_, fun hk h0 hm ht => ?_⟩
  · rw [if_pos hk, stopped_own hp]
  · rw [if_neg hk, if_pos hm, stopped_own hp]
    rw [BitVec.zeroExtend, ← BitVec.ofNat_toNat]
  · have hmask : ¬(m = 0#4 ∨ 2 ^ s.th.k ≤ m.toNat) := fun h => h.elim h0 (Nat.not_le.mpr hm)
    rw [if_neg hk, if_neg hmask, if_pos (by simpa [htail] using ht), stopped_own hp]
  · have hmask : ¬(m = 0#4 ∨ 2 ^ s.th.k ≤ m.toNat) := fun h => h.elim h0 (Nat.not_le.mpr hm)
    rw [if_neg hk, if_neg hmask, if_neg (by simpa [htail] using ht)]
    refine ⟨_, rfl, ?_⟩
    rw [State.th_setTh]
    refine ⟨rfl, rfl, rfl, (sameRest_setThr s s.cur _).memory, fun j => ?_⟩
    simp [Thread.sel]

/-! ### Bounds and tangents (R332, R333) -/

section
variable {s s₁ : State} {h : Head} {d a : Fld} {j : BitVec 3}

theorem planeCheck_run {lo : Nat} (h1 : lo ≤ j.toNat) (h2 : j.toNat ≤ s.th.k) : planeCheck lo j s = .ok ((), s) := by
  simp only [planeCheck, M.bind_run, getTh_run, M.ite_run, M.pure_run]
  rw [if_neg (by omega)]

/-- An instruction over planes of a thread that has them. -/
theorem runI_plane {lo : Nat} {body : M Ctl} {s' : State} {c : Ctl} (h1 : lo ≤ j.toNat) (h2 : j.toNat ≤ s.th.k) (hi : Issues s h)
    (hb : body s = .ok (c, s')) (hc : c ≠ .held) : runI h none (planeCheck lo j) body s = .next (s'.finish c) :=
  runI_done (.inl rfl) (by rw [planeCheck_run h1 h2]; rfl) hi hb hc

variable (hi : Issues s h) (hj : j.toNat ≤ s.th.k)
include hi hj

theorem bndr_completes {s₂ : State} (he : s.th.regErr = []) (hf : FieldsOk s [(.ws, d), (.vec, a)])
    (hw : writeS d (BitVec.ofNat 64 (s.th.planeB j.toNat a.spec.toNat).toNat) s = .ok ((), s₂)) :
    exec (.bndr h d a j) s = .next (s₂.finish .fall) := by
  rw [BitVec.ofNat_toNat] at hw
  exact runI_plane (Nat.zero_le _) hj hi ((M.bind_ok (check1_ok hf)).trans ((M.bind_ok (readV_run he _)).trans ((M.bind_ok (getTh_run s)).trans
    (M.bind_ok hw)))) (by decide)

theorem bndw_completes {x : Word} (mx : Bool) (hf : FieldsOk s [(.vec, d), (.rs, a)]) (hx : readS a s = .ok (x, s₁)) :
    exec (.bndw h d a j mx) s = .next ((s₁.modTh fun t =>
      let y := bClean (x.setWidth 32)
      let b := if mx then bMax (t.planeB j.toNat d.spec.toNat) y else y
      if j.toNat = 0 then t.setVb d.spec.toNat b else t.setVTb (j.toNat - 1) d.spec.toNat b).finish .fall) :=
  runI_plane (Nat.zero_le _) hj hi ((M.bind_ok (check1_ok hf)).trans ((M.bind_ok hx).trans rfl)) (by decide)

variable (h1 : 1 ≤ j.toNat)
include h1

theorem tanr_completes {x : Word} {s₂ : State} (hf : FieldsOk s [(.ws, d), (.gOnly, a)]) (hx : readS a s = .ok (x, s₁))
    (hw : writeS d (s.th.gT (j.toNat - 1) a.spec.toNat) s₁ = .ok ((), s₂)) : exec (.tanr h d a j false) s = .next (s₂.finish .fall) :=
  runI_plane h1 hj hi ((M.bind_ok (check1_ok hf)).trans ((M.bind_ok (getTh_run s)).trans ((M.bind_ok hx).trans (M.bind_ok hw)))) (by decide)

theorem tanr_vector_completes (he : s.th.regErr = []) (hf : FieldsOk s [(.vec, d), (.vec, a)]) : exec (.tanr h d a j true) s =
    .next ((s.modTh fun t => t.putV d.spec.toNat (s.th.vT (j.toNat - 1) a.spec.toNat) (s.th.vTb (j.toNat - 1) a.spec.toNat)
      fun _ => (0#512, 0#32)).finish .fall) :=
  runI_plane h1 hj hi ((M.bind_ok (check1_ok hf)).trans ((M.bind_ok (readV_run he _)).trans ((M.bind_ok (getTh_run s)).trans rfl))) (by decide)

theorem tanw_sync_traps (hs : d.sync = true) :
    exec (.tanw h d a j false) s = .next (s.takeTrap s.cur 0x23#8 (BitVec.ofNat 64 d.spec.toNat) 0#5) := by
  rw [← stopped_trap hi, BitVec.ofNat_toNat]
  refine runI_stop hi (planeCheck_run h1 hj) ?_
  simp only [hs]
  rfl

theorem tanw_completes {x : Word} (hs : d.sync = false) (hf : FieldsOk s [(.gOnly, d), (.rs, a)]) (hg : s.th.gFull d.spec.toNat = true)
    (hx : readS a s = .ok (x, s₁)) : exec (.tanw h d a j false) s =
      .next ((s₁.modTh fun t => t.setGT (j.toNat - 1) d.spec.toNat x).finish .fall) := by
  refine runI_plane h1 hj hi ?_ (by decide)
  simp only [hs]
  refine (M.bind_ok (check1_ok hf)).trans ((M.bind_ok (getTh_run s)).trans ?_)
  rw [hg]
  exact (M.bind_ok hx).trans rfl

theorem tanw_vector_completes (he : s.th.regErr = []) (hf : FieldsOk s [(.vec, d), (.vec, a)]) : exec (.tanw h d a j true) s =
    .next ((s.modTh fun t => (t.setVT (j.toNat - 1) d.spec.toNat (s.th.vR a.spec.toNat)).setVTb (j.toNat - 1) d.spec.toNat
      (s.th.vB a.spec.toNat)).finish .fall) :=
  runI_plane h1 hj hi ((M.bind_ok (check1_ok hf)).trans ((M.bind_ok (readV_run he _)).trans rfl)) (by decide)
end

/-- A thread with the bound of a plane of a register put. -/
def Thread.setPlaneB (t : Thread) (j i : Nat) (b : Word32) : Thread := if j = 0 then t.setVb i b else t.setVTb (j - 1) i b

theorem Thread.planeB_setPlaneB (t : Thread) (j i : Nat) (b : Word32) : (t.setPlaneB j i b).planeB j i = b := by
  unfold setPlaneB planeB
  split
  · exact (t.vB_setVb i i b).trans (if_pos rfl)
  · exact (t.vTb_setVTb (j - 1) i (j - 1) i b).trans (if_pos rfl)

theorem Thread.setPlaneB_rest (t : Thread) (j i : Nat) (b : Word32) : ∃ vb vtb, t.setPlaneB j i b = { t with vb := vb, vtb := vtb } := by
  unfold setPlaneB
  split
  · exact ⟨_, _, rfl⟩
  · exact ⟨_, _, rfl⟩

theorem boundsAndTangents : BoundsAndTangents := by
  intro s s₁ s₂ h d a j x hi he hj plane
  refine ⟨fun hf hw => bndr_completes hi hj he hf hw, fun mx hf hx => ⟨_, bndw_completes hi hj mx hf hx, ?_⟩, fun h1 =>
    ⟨fun hf hx hw => tanr_completes hi hj h1 hf hx hw, fun hf => ⟨_, tanr_vector_completes hi hj h1 he hf, ?_⟩,
      tanw_sync_traps hi hj h1, fun hs hf hg hx => ⟨_, tanw_completes hi hj h1 hs hf hg hx, ?_⟩,
      fun hf => ⟨_, tanw_vector_completes hi hj h1 he hf, ?_⟩⟩⟩
  · have hrd := readS_read hx
    generalize hb : (if mx then bMax (s₁.th.planeB j.toNat d.spec.toNat) (bClean (x.setWidth 32)) else bClean (x.setWidth 32)) = b
    have hb' : (if mx then bMax (plane s.th d.spec.toNat) (bClean (BitVec.ofNat 32 x.toNat)) else bClean (BitVec.ofNat 32 x.toNat)) = b := by
      have hpl : s₁.th.planeB j.toNat d.spec.toNat = s.th.planeB j.toNat d.spec.toNat :=
        (congrArg (fun t : Thread => t.planeB j.toNat d.spec.toNat) hrd.thread :)
      rw [← hb, BitVec.ofNat_toNat, hpl]
      rfl
    obtain ⟨vb, vtb, hset⟩ := s₁.th.setPlaneB_rest j.toNat d.spec.toNat b
    have hp : (s₁.th.setPlaneB j.toNat d.spec.toNat b).atPort = false := by
      rw [hset]
      exact hrd.operated.atPort.trans hi.own
    have hmod : (s₁.modTh fun t =>
        let y := bClean (x.setWidth 32)
        let b := if mx then bMax (t.planeB j.toNat d.spec.toNat) y else y
        if j.toNat = 0 then t.setVb d.spec.toNat b else t.setVTb (j.toNat - 1) d.spec.toNat b) =
        s₁.setTh (s₁.th.setPlaneB j.toNat d.spec.toNat b) := by rw [← hb]; rfl
    rw [hmod]
    refine ⟨(finish_field hp (fun t => t.planeB j.toNat d.spec.toNat)).trans ((s₁.th.planeB_setPlaneB ..).trans hb'.symm),
      (finish_field hp (fun t => t.v)).trans ?_, (finish_field hp (fun t => t.vt)).trans ?_⟩
    · rw [hset]
      exact (congrArg (fun t : Thread => t.v) hrd.thread :)
    · rw [hset]
      exact (congrArg (fun t : Thread => t.vt) hrd.thread :)
  · have hd := vec_lt (hf _ (List.mem_cons_self ..))
    have hp : (s.th.putV d.spec.toNat (s.th.vT (j.toNat - 1) a.spec.toNat) (s.th.vTb (j.toNat - 1) a.spec.toNat)
        fun _ => (0#512, 0#32)).atPort = false :=
      ((congrArg (fun t : Thread => t.atPort) (Thread.putV_rest _ _ _ _ he)).trans hi.own)
    exact ⟨(finish_field hp (fun t => t.vR d.spec.toNat)).trans ((Thread.putV_vR ..).trans (if_pos rfl)),
      (finish_field hp (fun t => t.vB d.spec.toNat)).trans ((Thread.putV_vB ..).trans (if_pos rfl)),
      fun i hik => (finish_field hp (fun t => t.vT i d.spec.toNat)).trans ((Thread.putV_vT _ _ _ _ hd hd i).trans (if_pos ⟨rfl, hik⟩))⟩
  · have hrd := readS_read hx
    have hp : (s₁.th.setGT (j.toNat - 1) d.spec.toNat x).atPort = false := hrd.operated.atPort.trans hi.own
    refine ⟨(finish_field hp (fun t => t.gT (j.toNat - 1) d.spec.toNat)).trans ((Thread.gT_setGT ..).trans (if_pos rfl)),
      (finish_field hp (fun t => t.g)).trans ((congrArg (fun t : Thread => t.g) hrd.thread :)), fun i hne => ?_⟩
    refine (finish_field hp (fun t => t.gT i d.spec.toNat)).trans ((Thread.gT_setGT ..).trans ((if_neg (by omega)).trans (hrd.gT ..)))
  · have hp : ((s.th.setVT (j.toNat - 1) d.spec.toNat (s.th.vR a.spec.toNat)).setVTb (j.toNat - 1) d.spec.toNat
        (s.th.vB a.spec.toNat)).atPort = false := hi.own
    exact ⟨(finish_field hp (fun t => t.vT (j.toNat - 1) d.spec.toNat)).trans ((Thread.vT_setVT ..).trans (if_pos rfl)),
      (finish_field hp (fun t => t.vTb (j.toNat - 1) d.spec.toNat)).trans ((Thread.vTb_setVTb ..).trans (if_pos rfl)),
      finish_field hp (fun t => t.v)⟩

/-- Settles O55: dual by its tests, and each access to a plane by what it leaves. -/
theorem dualBoundsTangents : Obligations.DualBoundsTangents := ⟨dualPrefix, boundsAndTangents⟩

end Sys2Proof.Machine
end

section
/-!
Sideband words, bound words and bank formats read and written (R33, R39, R40, R303, R304).
-/
namespace Sys2Proof.Machine
open Sys2Proof.Claims

/-! ### The words written -/

theorem metaByte_lt (p q : Bool) (v : BitVec 2) : (if p then 128 else 0) + 32 * v.toNat + (if q then 16 else 0) < 2 ^ 8 := by
  have h2 := v.isLt
  have h3 : (if p then 128 else 0) ≤ 128 := by split <;> omega
  have h4 : (if q then 16 else 0) ≤ 16 := by split <;> omega
  omega

/-- The sideband word stsb leaves, as its bound and its low byte. -/
theorem toNat_sbStored (w b : Word32) : (sbStored w b).toNat = 256 * (b.toNat / 256 % 2 ^ 23) + ((if b.getLsbD 7 then 128 else 0)
    + 32 * (sbSev w).toNat + (if sbPoison w || b.getLsbD 4 then 16 else 0)) := by
  have h1 := Nat.mod_lt (b.toNat / 256) (Nat.two_pow_pos 23)
  have h2 := metaByte_lt (b.getLsbD 7) (sbPoison w || b.getLsbD 4) (sbSev w)
  rw [sbStored, BitVec.toNat_ofNat, Nat.mod_eq_of_lt (by omega)]
  ring

theorem sbStored_high (w b : Word32) {i : Nat} (hi : 8 ≤ i) : (sbStored w b).getLsbD i = (decide (i < 31) && b.getLsbD i) := by
  rw [← BitVec.testBit_toNat, toNat_sbStored, show (256 : Nat) = 2 ^ 8 from rfl, Nat.testBit_two_pow_mul_add _ (metaByte_lt ..),
    if_neg (Nat.not_lt.mpr hi), Nat.testBit_mod_two_pow, ← Nat.shiftRight_eq_div_pow, Nat.testBit_shiftRight, Nat.add_sub_cancel' hi,
    BitVec.testBit_toNat]
  exact congrArg (· && _) (decide_eq_decide.mpr (by omega))

/-- The low byte of a sideband word, bit by bit. -/
theorem testBit_metaByte : ∀ (p q : Bool) (v : BitVec 2) (i : Fin 8), ((if p then 128 else 0) + 32 * v.toNat + (if q then 16 else 0)).testBit i =
    ((decide (i.val = 7) && p) || (decide (i.val = 5) && v.getLsbD 0) || (decide (i.val = 6) && v.getLsbD 1) || (decide (i.val = 4) && q)) := by
  decide

theorem sbStored_low (w b : Word32) {i : Nat} (hi : i < 8) : (sbStored w b).getLsbD i = ((decide (i = 7) && b.getLsbD 7) ||
    (decide (i = 5) && w.getLsbD 5) || (decide (i = 6) && w.getLsbD 6) || (decide (i = 4) && (w.getLsbD 4 || b.getLsbD 4))) := by
  have h := testBit_metaByte (b.getLsbD 7) (sbPoison w || b.getLsbD 4) (sbSev w) ⟨i, hi⟩
  have h5 : (sbSev w).getLsbD 0 = w.getLsbD 5 := by simp [sbSev]
  have h6 : (sbSev w).getLsbD 1 = w.getLsbD 6 := by simp [sbSev]
  rw [h5, h6] at h
  refine Eq.trans ?_ h
  rw [← BitVec.testBit_toNat, toNat_sbStored, show (256 : Nat) = 2 ^ 8 from rfl, Nat.testBit_two_pow_mul_add _ (metaByte_lt ..), if_pos hi]

/-- The register of a bank as stsb leaves it: format, block and band planes. -/
theorem toNat_fmtStored (x : Word) : (fmtStored x).toNat =
    65536 * (x.toNat / 65536 % 2 ^ 20) + (if x.toNat % 16 = 6 then 7 else x.toNat % 16) := by
  have hand : (x &&& 0x0000000FFFFF000F#64).toNat = 65536 * (x.toNat / 65536 % 2 ^ 20) + x.toNat % 16 := by
    rw [BitVec.toNat_and, show (0x0000000FFFFF000F#64).toNat = 2 ^ 16 * (2 ^ 20 - 1) + (2 ^ 4 - 1) from rfl, show (65536 : Nat) = 2 ^ 16 from rfl,
      show x.toNat % 16 = x.toNat % 2 ^ 4 from rfl]
    refine Nat.eq_of_testBit_eq fun i => ?_
    rw [Nat.testBit_and, Nat.testBit_two_pow_mul_add _ (by decide), Nat.testBit_two_pow_mul_add _ (by omega)]
    by_cases hi : i < 16
    · rw [if_pos hi, if_pos hi, Nat.testBit_two_pow_sub_one, Nat.testBit_mod_two_pow, Bool.and_comm]
    · rw [if_neg hi, if_neg hi, Nat.testBit_two_pow_sub_one, Nat.testBit_mod_two_pow, Bool.and_comm, ← Nat.shiftRight_eq_div_pow,
        Nat.testBit_shiftRight, Nat.add_sub_cancel' (Nat.not_lt.mp hi)]
  have h6 : (x &&& 0x0000000FFFFF000F#64).toNat % 16 = x.toNat % 16 := by omega
  unfold fmtStored
  dsimp only
  rw [h6]
  split
  · rw [BitVec.toNat_add, hand]
    simp only [BitVec.toNat_ofNat]
    omega
  · exact hand

/-! ### The accesses -/

/-- A core with the format register of a bank put. -/
def Core.setFmtReg (c : Core) (bank : Nat) (x : Word) : Core := { c with fmt := c.fmt.ins bank x }
theorem Core.fmtReg_setFmtReg (c : Core) (bank b : Nat) (x : Word) : (c.setFmtReg bank x).fmtReg b = if b = bank then x else c.fmtReg b :=
  Tbl.lookD_ins ..

/-- Whether a piece of the stencil meets a range. -/
theorem any_hits {st : List Piece} {lo n : Nat} : st.any (·.hits lo n) = true ↔ ∃ p ∈ st, p.lo < lo + n ∧ lo < p.hi := by
  simp [Piece.hits]


section
variable {s s₁ : State} {va : Word} {align : Nat} {w : Bool}

/-- A line or a bank of the own scratchpad that passes the tests. -/
theorem spMeta_run (ho : Operated s s₁) (hok : SpOk s va 64 align w) : spMeta va align w s₁ = .ok (va.toNat, s₁) := by
  have h := ho.spOk hok
  have hin : ¬Config.spBytes ≤ va.toNat := Nat.not_le.mpr (Nat.lt_of_lt_of_le (by omega) h.inside)
  simp only [spMeta, M.ite_run, M.bind_run, M.get_run, h.aligned, h.free, ne_eq, not_true, if_false, if_neg hin, M.pure_run]

theorem devReach_run {acc : Acc} {s₂ : State} {pa : Nat} (hp : s₁.th.atPort = false) (h : Reaches 64 acc s₁ [va] [pa] s₂) :
    devReach va 64 64 acc s₁ = .ok (pa, s₂) := by
  simp only [devReach, M.bind_run, reachPlanes_ok h hp, M.pure_run]
  rfl
end

section
variable {s s₁ : State} {h : Head} {d a : Fld} {imm : BitVec 16} {x : Word} (hi : Issues s h)
include hi

section
variable (hf : FieldsOk s [(.ws, d), (.rs, a)]) (hr : readOps [a] s = .ok ([x], s₁))
include hf hr

theorem ldsb_dev {s₂ s₃ : State} {pa : Nat} (hre : Reaches 64 .side s₁ [x + imm.signExtend 64] [pa] s₂)
    (hw : writeS d (BitVec.ofNat 64 (s₂.dmSb s.th.core pa).toNat) s₂ = .ok ((), s₃)) :
    exec (.ldsb h d a .dev imm) s = .next (s₃.finish .fall) := by
  have ho := (readOps_read hr).operated
  have hc : s₂.th.core = s.th.core := (congrArg (fun t : Thread => t.core) (reaches_sameThreads hre).th).trans ho.thCore
  rw [BitVec.ofNat_toNat] at hw
  refine runU_done hi ?_ (by decide)
  simp only [M.bind_run, check1_ok hf, hr, addrOf, sext, List.getD_cons_zero, devReach_run (ho.atPort.trans hi.own) hre, M.get_run, M.pure_run, hc]
  simp only [BitVec.zeroExtend_eq_setWidth, hw]

theorem ldsb_spb {s₃ : State} (hok : SpOk s (x + imm.signExtend 64) 64 64 false)
    (hw : writeS d (BitVec.ofNat 64 ((s.core s.th.core).spB (x + imm.signExtend 64).toNat).toNat) s₁ = .ok ((), s₃)) :
    exec (.ldsb h d a .spb imm) s = .next (s₃.finish .fall) := by
  have ho := (readOps_read hr).operated
  rw [BitVec.ofNat_toNat] at hw
  refine runU_done hi ?_ (by decide)
  simp only [M.bind_run, check1_ok hf, hr, addrOf, sext, List.getD_cons_zero, spMeta_run ho hok, M.get_run, M.pure_run, ho.thCore, ho.spB]
  simp only [BitVec.zeroExtend_eq_setWidth, hw]

theorem ldsb_fmt {s₃ : State} (hok : SpOk s (x + imm.signExtend 64) 64 65536 false)
    (hw : writeS d ((s.core s.th.core).fmtReg ((x + imm.signExtend 64).toNat / 65536)) s₁ = .ok ((), s₃)) :
    exec (.ldsb h d a .fmt imm) s = .next (s₃.finish .fall) := by
  have ho := (readOps_read hr).operated
  have hfmt : (s₁.core s.th.core).fmtReg = (s.core s.th.core).fmtReg := (congrArg (fun c : Core => c.fmtReg) (ho.core s.th.core) :)
  refine runU_done hi ?_ (by decide)
  simp only [M.bind_run, check1_ok hf, hr, addrOf, sext, List.getD_cons_zero, spMeta_run ho hok, M.get_run, M.pure_run, ho.thCore, hfmt, hw]
end

section
variable {y : Word} (hf : FieldsOk s [(.rs, a), (.rs, d)]) (hr : readOps [a, d] s = .ok ([x, y], s₁))
include hf hr

theorem stsb_dev {s₂ : State} {pa : Nat} (hre : Reaches 64 .write s₁ [x + imm.signExtend 64] [pa] s₂) :
    exec (.stsb h a d .dev imm) s = .next ((s₂.pended pa [] 0#32 false (some (y.setWidth 32))).finish .fall) := by
  have ho := (readOps_read hr).operated
  refine runU_done hi ?_ (by decide)
  simp only [M.bind_run, check1_ok hf, hr, addrOf, sext, List.getD_cons_zero, List.getD_cons_succ, devReach_run (ho.atPort.trans hi.own) hre,
    devPend_run, M.pure_run]

theorem stsb_spb (hok : SpOk s (x + imm.signExtend 64) 64 64 true) : exec (.stsb h a d .spb imm) s =
    .next ((s₁.modCore s₁.th.core fun c => c.setSpB (x + imm.signExtend 64).toNat (bClean (y.setWidth 32))).finish .fall) := by
  have ho := (readOps_read hr).operated
  refine runU_done hi ?_ (by decide)
  simp only [M.bind_run, check1_ok hf, hr, addrOf, sext, List.getD_cons_zero, List.getD_cons_succ, spMeta_run ho hok, modCoreM_run, M.pure_run]

theorem stsb_fmt (hok : SpOk s (x + imm.signExtend 64) 64 65536 false)
    (hn : ∀ p ∈ (s.core s.th.core).stencil, ¬(p.lo < spKey s.th.core (x + imm.signExtend 64).toNat + 65536 ∧
      spKey s.th.core (x + imm.signExtend 64).toNat < p.hi)) : exec (.stsb h a d .fmt imm) s =
    .next ((s₁.modCore s₁.th.core fun c => c.setFmtReg ((x + imm.signExtend 64).toNat / 65536) (fmtStored y)).finish .fall) := by
  have ho := (readOps_read hr).operated
  have hany : ¬(s.core s.th.core).stencil.any (·.hits (spKey s.th.core (x + imm.signExtend 64).toNat) 65536) = true := fun h => by
    obtain ⟨p, hp, hm⟩ := any_hits.mp h
    exact hn p hp hm
  refine runU_done hi ?_ (by decide)
  simp only [M.bind_run, check1_ok hf, hr, addrOf, sext, List.getD_cons_zero, List.getD_cons_succ, spMeta_run ho hok, M.get_run, M.ite_run,
    ho.thCore, ho.stencil, if_neg hany, modCoreM_run, M.pure_run]
  rfl

theorem stsb_fmt_traps (hok : SpOk s (x + imm.signExtend 64) 64 65536 false)
    (hm : ∃ p ∈ (s.core s.th.core).stencil, p.lo < spKey s.th.core (x + imm.signExtend 64).toNat + 65536 ∧
      spKey s.th.core (x + imm.signExtend 64).toNat < p.hi) : exec (.stsb h a d .fmt imm) s =
    .next (s.takeTrap s.cur 0x81#8 (x + imm.signExtend 64) 0#5) := by
  have ho := (readOps_read hr).operated
  rw [← stopped_trap hi]
  refine runU_stop hi ?_
  simp only [M.bind_run, check1_ok hf, hr, addrOf, sext, List.getD_cons_zero, List.getD_cons_succ, spMeta_run ho hok, M.get_run, M.ite_run,
    ho.thCore, ho.stencil, if_pos (any_hits.mpr hm)]
  rfl
end
end

/-! ### What they leave -/

/-- The sideband word of a line after a store to it is pending. -/
theorem State.dmSb_pended (s : State) (pa : Nat) (bytes : List Host.Cell) (b : Word32) (full : Bool) (sb : Option Word32) (q : Nat) :
    (s.pended pa bytes b full sb).dmSb s.th.core q =
      if pa / 64 = q / 64 then sbApply (s.dmSb s.th.core q) ⟨s.nextOp, s.cur, pa, bytes, b, full, sb⟩ else s.dmSb s.th.core q := by
  have hsb : (s.pended pa bytes b full sb).sbWord q = s.sbWord q := rfl
  rw [State.dmSb, State.pended_pend, hsb, List.filter_append, List.foldl_append]
  by_cases h : pa / 64 = q / 64
  · rw [if_pos h, List.filter_cons, if_pos (by simpa using h)]
    rfl
  · rw [if_neg h, List.filter_cons, if_neg (by simpa using h)]
    rfl

/-- A core changed in neither bytes nor code. -/
theorem byteAt_modCore (s : State) (c : Nat) {f : Core → Core} (hsp : ∀ x, (f x).sp = x.sp) (hcode : ∀ x, (f x).code = x.code) (m : Space) (q : Nat) :
    (s.modCore c f).byteAt m q = s.byteAt m q := by
  have hc : ∀ d, ((s.modCore c f).core d).sp = (s.core d).sp ∧ ((s.modCore c f).core d).code = (s.core d).code := fun d => by
    rw [State.modCore_eq, State.core_setCore]
    split
    · next h => rw [h]; exact ⟨hsp _, hcode _⟩
    · exact ⟨rfl, rfl⟩
  cases m with
  | device | host | peer => rfl
  | code d => simp only [State.byteAt, (hc d).2]
  | sp d => simp only [State.byteAt, (hc d).1]

/-- What an instruction that changes the own core leaves of the cores and of the bytes. -/
theorem finish_modCore {s s₁ : State} (ho : Operated s s₁) (hp : s.th.atPort = false) {f : Core → Core} (hsp : ∀ x, (f x).sp = x.sp)
    (hcode : ∀ x, (f x).code = x.code) : let t := (s₁.modCore s₁.th.core f).finish .fall
    t.core s.th.core = f (s₁.core s.th.core) ∧ ∀ m q, t.byteAt m q = s.byteAt m q := by
  have hp' : (s₁.modCore s₁.th.core f).th.atPort = false := ho.atPort.trans hp
  refine ⟨?_, fun m q => ?_⟩
  · rw [(State.finish_fall_rest _ hp').core, State.modCore_eq, ho.thCore, State.core_setCore_self]
  · rw [State.finish_fall_byteAt hp', byteAt_modCore _ _ hsp hcode, ho.byteAt]

/-- Settles O17: each access by its run, and the words written bit by bit. -/
theorem sidebandAccess : Obligations.SidebandAccess := by
  unfold Obligations.SidebandAccess
  intro s s₁ s₂ s₃ h d a imm x y pa hi va c
  refine ⟨fun hf hr => ⟨fun r hre hrw hw => ldsb_dev hi hf hr hre (hrw ▸ hw), fun hok hw => ldsb_spb hi hf hr hok hw,
    fun hok hw => ldsb_fmt hi hf hr hok hw⟩, fun hf hr => ⟨fun hre => ⟨_, stsb_dev hi hf hr hre, ?_⟩, fun hok => ⟨_, stsb_spb hi hf hr hok, ?_⟩,
    fun hok hn => ⟨_, stsb_fmt hi hf hr hok hn, ?_⟩, fun hok hm => stsb_fmt_traps hi hf hr hok hm⟩⟩
  · have ho := (readOps_read hr).operated
    have hth := (reaches_sameThreads hre).th
    have hp : s₂.th.atPort = false := hth ▸ ho.atPort.trans hi.own
    have hp' : (s₂.pended pa [] 0#32 false (some (y.setWidth 32))).th.atPort = false := by rw [State.pended_th]; exact hp
    have hrest := State.finish_fall_rest _ hp'
    have hnew : ((s₂.pended pa [] 0#32 false (some (y.setWidth 32))).finish .fall).dmSb s.th.core pa =
        sbStored (s₂.dmSb s.th.core pa) (y.setWidth 32) := by
      have hc : s₂.th.core = s.th.core := (congrArg (fun t : Thread => t.core) hth).trans ho.thCore
      rw [hrest.dmSb, ← hc, State.dmSb_pended, if_pos rfl]
      rfl
    refine ⟨hrest.mem, ?_, ?_⟩
    · rw [State.finish_fall_outSt hp', State.pended_th]
      exact congrArg (· + 1) ((congrArg (fun t : Thread => t.outSt) hth).trans ho.outSt)
    · intro old new
      have hhi : ∀ i, 8 ≤ i → new.getLsbD i = (decide (i < 31) && (y.setWidth 32).getLsbD i) := fun i h => by
        rw [show new = _ from hnew, sbStored_high _ _ h]
      have hlo : ∀ i, i < 8 → new.getLsbD i = _ := fun i h => (congrArg (fun z : Word32 => z.getLsbD i) hnew).trans (sbStored_low _ _ h)
      refine ⟨hhi 31 (by decide), fun i h1 h2 => ?_, ?_, ⟨?_, ?_⟩, ?_, fun i hi4 => ?_⟩
      · rw [hhi i h1, BitVec.getLsbD_setWidth, decide_eq_true h2, decide_eq_true (by omega : i < 32), Bool.true_and, Bool.true_and]
      · rw [hlo 7 (by decide)]; simp
      · rw [hlo 5 (by decide)]; simp [old]
      · rw [hlo 6 (by decide)]; simp [old]
      · rw [hlo 4 (by decide)]; simp [old]
      · rw [hlo i (by omega), decide_eq_false (by omega), decide_eq_false (by omega), decide_eq_false (by omega), decide_eq_false (by omega)]
        rfl
  · have ho := (readOps_read hr).operated
    obtain ⟨hcore, hbytes⟩ := finish_modCore ho hi.own (f := fun c => c.setSpB va.toNat (bClean (y.setWidth 32))) (fun _ => rfl) (fun _ => rfl)
    refine ⟨?_, fun o hne => ?_, hbytes⟩
    · rw [hcore, Core.spB_setSpB, if_pos rfl]
    · rw [hcore, Core.spB_setSpB, if_neg hne, ho.spB]
  · have ho := (readOps_read hr).operated
    obtain ⟨hcore, hbytes⟩ := finish_modCore ho hi.own (f := fun c => c.setFmtReg (va.toNat / 65536) (fmtStored y))
      (fun _ => rfl) (fun _ => rfl)
    refine ⟨?_, fun b hne => ?_, hbytes⟩
    · rw [hcore, Core.fmtReg_setFmtReg, if_pos rfl]
      intro r
      rw [show r.toNat = _ from toNat_fmtStored y]
      split <;> omega
    · rw [hcore, Core.fmtReg_setFmtReg, if_neg hne]
      exact (congrArg (fun c : Core => c.fmtReg b) (ho.core s.th.core) :)

end Sys2Proof.Machine
end

section
/-!
Gather and scatter (R305, R306), and what a list of changes to the own core leaves.
-/
namespace Sys2Proof.Machine
open Sys2Proof.Claims

/-! ### What a list of changes leaves of one place -/

section
variable {σ α β : Type} {I : σ → Prop} {ρ : σ → β} {step : σ → α → σ} (hI : ∀ s x, I s → I (step s x))
include hI

theorem foldl_inv {xs : List α} {s : σ} (hs : I s) : I (xs.foldl step s) := by
  induction xs generalizing s with
  | nil => exact hs
  | cons x xs ih => exact ih (hI s x hs)

/-- What no change touches is as it was. -/
theorem foldl_untouched {xs : List α} (h : ∀ y ∈ xs, ∀ s, I s → ρ (step s y) = ρ s) {s : σ} (hs : I s) : ρ (xs.foldl step s) = ρ s := by
  induction xs generalizing s with
  | nil => rfl
  | cons x xs ih =>
    exact (ih (fun y hy => h y (List.mem_cons_of_mem _ hy)) (hI s x hs)).trans (h x (List.mem_cons_self ..) s hs)

/-- What of the changes after it no one touches is left as a change made it. -/
theorem foldl_last {pre post : List α} {x : α} (h : ∀ y ∈ post, ∀ s, I s → ρ (step s y) = ρ s) {s : σ} (hs : I s) :
    ∃ u, I u ∧ u = pre.foldl step s ∧ ρ ((pre ++ x :: post).foldl step s) = ρ (step u x) :=
  have hu := foldl_inv hI (xs := pre) hs
  ⟨_, hu, rfl, by rw [List.foldl_append, List.foldl_cons]; exact foldl_untouched hI h (hI _ x hu)⟩

/-- What one change of a list alone touches is what it makes of it. -/
theorem foldl_alone {xs : List α} {R : α → α → Prop} (hp : xs.Pairwise R) {x : α} (hx : x ∈ xs)
    (h : ∀ y, R x y ∨ R y x → ∀ s, I s → ρ (step s y) = ρ s) {s : σ} (hs : I s) :
    ∃ u, I u ∧ ρ u = ρ s ∧ ρ (xs.foldl step s) = ρ (step u x) := by
  obtain ⟨pre, post, rfl⟩ := List.append_of_mem hx
  obtain ⟨-, hpost, hpre⟩ := List.pairwise_append.mp hp
  obtain ⟨u, hu, rfl, h1⟩ := foldl_last hI (pre := pre) (post := post) (x := x) (ρ := ρ)
    (fun y hy => h y (.inl ((List.pairwise_cons.mp hpost).1 y hy))) hs
  exact ⟨_, hu, foldl_untouched hI (fun y hy => h y (.inr (hpre y hy x (List.mem_cons_self ..)))) hs, h1⟩
end

/-! ### A list of changes to the own core -/

/-- The machine after changes to the core of the thread in hand. -/
def State.onCore {α : Type} (s : State) (g : α → Core → Core) (xs : List α) : State := xs.foldl (fun s x => s.modCore s.th.core (g x)) s

section
variable {α : Type} (s : State) (g : α → Core → Core) (xs : List α)

theorem State.onCore_eq : ∃ cs, s.onCore g xs = { s with cores := cs } := by
  induction xs generalizing s with
  | nil => exact ⟨_, rfl⟩
  | cons p ps ih =>
    obtain ⟨cs, h⟩ := ih (s.modCore s.th.core (g p))
    exact ⟨cs, h⟩

theorem State.onCore_th : (s.onCore g xs).th = s.th := by
  obtain ⟨cs, h⟩ := s.onCore_eq g xs
  rw [h]
  rfl

theorem State.onCore_core (c : Nat) :
    (s.onCore g xs).core c = if c = s.th.core then xs.foldl (fun c x => g x c) (s.core c) else s.core c := by
  induction xs generalizing s with
  | nil => exact (ite_self _).symm
  | cons p ps ih =>
    have hp : s.onCore g (p :: ps) = (s.setCore s.th.core (g p (s.core s.th.core))).onCore g ps := rfl
    rw [hp, ih, State.th_setCore, State.core_setCore]
    split
    · next h => rw [h, List.foldl_cons]
    · rfl

/-- Bytes beside those of the own scratchpad that a change touches are as they were. -/
theorem State.onCore_byteAt (hcode : ∀ x c, (g x c).code = c.code) {m : Space} {q : Nat}
    (hq : m = .sp s.th.core → ∀ x ∈ xs, ∀ c, (g x c).sp.lookD q 0#8 = c.sp.lookD q 0#8) : (s.onCore g xs).byteAt m q = s.byteAt m q := by
  cases m with
  | device | host | peer =>
    obtain ⟨cs, h⟩ := s.onCore_eq g xs
    rw [h]
    rfl
  | code c =>
    simp only [State.byteAt, State.onCore_core]
    split
    · exact congrArg (fun t : Tbl Byte => t.lookD q 0#8) (foldl_untouched (I := fun _ => True) (ρ := fun c : Core => c.code) (fun _ _ h => h)
        (fun x _ c _ => hcode x c) trivial)
    · rfl
  | sp c =>
    simp only [State.byteAt, State.onCore_core]
    split
    · next h =>
      exact foldl_untouched (I := fun _ => True) (ρ := fun c : Core => c.sp.lookD q 0#8) (fun _ _ h => h)
        (fun x hx c _ => hq (by rw [h]) x hx c) trivial
    · rfl
end

/-! ### Lanes at their addresses -/

theorem Operated.sameMemory {s t : State} (h : Operated s t) : SameMemory s t where
  bytes := h.byteAt
  meta' := ⟨fun pa => (congrArg (fun u : State => u.sbWord pa) h.state :), fun c o => h.spB c o,
    fun c b => (congrArg (fun c : Core => c.fmtReg b) (h.core c) :), fun c => (congrArg (fun c : Core => c.pend) (h.core c) :)⟩

theorem sameMemory_trans {s t u : State} (h : SameMemory s t) (g : SameMemory t u) : SameMemory s u where
  bytes m a := (g.bytes m a).trans (h.bytes m a)
  meta' := ⟨fun pa => (g.meta'.sideband pa).trans (h.meta'.sideband pa), fun c o => (g.meta'.bounds c o).trans (h.meta'.bounds c o),
    fun c b => (g.meta'.formats c b).trans (h.meta'.formats c b), fun c => (g.meta'.pending c).trans (h.meta'.pending c)⟩

theorem readVs_run {s : State} {m : BitVec 3} (hm : m ≠ 0#3 → m.toNat < s.th.V) (he : s.th.regErr = []) (w : Nat) (fs : List Fld) :
    readVs w fs m s = .ok ((fs.map fun f => s.th.vsrc w f.spec.toNat, s.th.mask m), s) := by
  simp only [readVs, M.bind_run, checkMask_run hm, regChecks_run he, readMask_run he, getTh_run, M.pure_run]

/-- The lanes a mask operand selects. -/
def lanesOn (s : State) (m : BitVec 3) (w : Nat) : List Nat := (List.range (512 / w)).filter (active s m)

theorem mem_lanesOn {s : State} {m : BitVec 3} {w i : Nat} : i ∈ lanesOn s m w ↔ i < 512 / w ∧ active s m i = true := by
  rw [lanesOn, List.mem_filter, List.mem_range]

theorem lanesOn_sorted (s : State) (m : BitVec 3) (w : Nat) : (lanesOn s m w).Pairwise (· < ·) :=
  List.Pairwise.filter _ List.pairwise_lt_range

/-- The address of a lane: the base plus its index scaled. -/
def laneAt (s : State) (b : Fld) (w : Nat) (sc : BitVec 3) (x : Word) (i : Nat) : Word :=
  x + BitVec.ofNat 64 (lane s [b] w 0 i * 2 ^ sc.toNat)

section
variable {s s₁ : State} {b : Fld} {m : BitVec 3} {w : Nat} {sc : BitVec 3} {x : Word} (hw : LaneWidth w)
include hw

theorem lanesAt_run (ho : Operated s s₁) {wr : Bool}
    (hok : ∀ i, i < 512 / w → active s m i = true → SpOk s (laneAt s b w sc x i) (w / 8) (w / 8) wr ∧
      SpOk s (laneAt s b w sc x i) (w / 8) (w / 8) false ∧ (laneAt s b w sc x i).toNat < 0x100000) :
    lanesAt x (lanesOf w (s.th.vR b.spec.toNat)) (s.th.mask m) w sc.toNat wr s₁ =
      .ok ((lanesOn s m w).map fun i => (i, (laneAt s b w sc x i).toNat), s₁) := by
  rw [lanesAt, length_lanesOf, filter_active s m hw.lanes_le]
  refine forAll_pure fun i hi => ?_
  obtain ⟨h1, h2, h3⟩ := hok i (mem_lanesOn.mp hi).1 (mem_lanesOn.mp hi).2
  have haddr : x + BitVec.ofNat 64 ((lanesOf w (s.th.vR b.spec.toNat)).getD i 0 * 2 ^ sc.toNat) = laneAt s b w sc x i := by
    rw [getD_lanesOf hw]
    rfl
  have hin : ¬Config.spBytes ≤ (laneAt s b w sc x i).toNat := Nat.not_le.mpr h3
  rw [haddr, M.ite_run, if_neg hin]
  have hsoft := softCheck_ok (ho.spOk h2)
  cases wr with
  | true => simp only [spCheck, M.bind_run, spPlace_ok (ho.spOk h1), hsoft, M.pure_run, Bool.not_true, Bool.false_eq_true, if_false, if_true]
  | false => simp only [spCheck, M.bind_run, spPlace_ok (ho.spOk h1), hsoft, M.pure_run, Bool.not_false, Bool.false_eq_true, if_false, if_true]

/-- A lane lies in one line. -/
theorem spGet_lane {o : Nat} (ha : o % (w / 8) = 0) : spGet o (w / 8) s = .ok ((valueAt s (.sp s.th.core) o (w / 8),
    (s.core s.th.core).spB o), s) := by
  have h1 : (o % 64 + w / 8 + 63) / 64 = 1 := by rcases hw with rfl | rfl | rfl | rfl <;> omega
  have h2 : (s.core s.th.core).spB (o / 64 * 64 + 64 * 0) = (s.core s.th.core).spB o := by
    simp only [Core.spB]
    rw [show (o / 64 * 64 + 64 * 0) / 64 = o / 64 by omega]
  simp only [spGet, M.bind_run, M.get_run, M.pure_run, h1, valueAt_sp, List.range_one, List.map_cons, List.map_nil, h2]
  exact congrArg (fun b => Except.ok ((_, b), s)) (bMax_zero _)
end

theorem leNat_lt (bs : List Byte) : leNat bs < 2 ^ (8 * bs.length) := by
  induction bs with
  | nil => exact Nat.one_pos
  | cons b bs ih =>
    have hb := b.isLt
    rw [List.length_cons, Nat.mul_succ, Nat.pow_add]
    show b.toNat + 256 * leNat bs < _
    omega

theorem valueAt_lt (s : State) (m : Space) (a n : Nat) : valueAt s m a n < 2 ^ (8 * n) := by
  have h := leNat_lt ((List.range n).map fun i => s.byteAt m (a + i))
  rwa [List.length_map, List.length_range] at h

/-- What is kept beside a list for one of its entries. -/
theorem getD_idxOf {α : Type} {L : List Nat} {i : Nat} (hi : i ∈ L) (f : Nat → α) (e : α) :
    (match L.idxOf? i with | some q => (L.map f).getD q e | none => e) = f i := by
  cases h : L.idxOf? i with
  | none => exact absurd hi (List.idxOf?_eq_none_iff.mp h)
  | some q =>
    obtain ⟨hlt, hq, -⟩ := List.idxOf?_eq_some_iff.mp h
    simp only [getD_map, List.getElem?_eq_getElem hlt, hq]

/-! ### vgas (R305) -/

/-- What vgas writes: the lanes read, the largest bound of their lines, and zero tangents. -/
def gasWrite (s : State) (b : Fld) (m : BitVec 3) (w : Nat) (sc : BitVec 3) (x : Word) : VecWrite :=
  let at' (i : Nat) := (laneAt s b w sc x i).toNat
  let rs := (lanesOn s m w).map fun i => (valueAt s (.sp s.th.core) (at' i) (w / 8), (s.core s.th.core).spB (at' i))
  { w := w, mask := s.th.mask m, masked := m ≠ 0#3
    res := (List.range (512 / w)).map fun i => match (lanesOn s m w).idxOf? i with | some q => (rs.getD q (0, 0#32)).1 | none => 0
    b := bMaxL (rs.map (·.2)), ts := [] }

section
variable {s s₁ : State} {h : Head} {d a b : Fld} {m : BitVec 3} {ty : Fmt} {sc : BitVec 3} {x : Word}

theorem gasWrite_lane {w l : Nat} (hl : l < 512 / w) (ha : active s m l = true) :
    (gasWrite s b m w sc x).res.getD l 0 = valueAt s (.sp s.th.core) (laneAt s b w sc x l).toNat (w / 8) := by
  refine (getD_map_range _ _ l 0).trans ((if_pos hl).trans ?_)
  have h := getD_idxOf (mem_lanesOn.mpr ⟨hl, ha⟩) (fun i => (valueAt s (.sp s.th.core) (laneAt s b w sc x i).toNat (w / 8),
    (s.core s.th.core).spB (laneAt s b w sc x i).toNat)) (0, 0#32)
  refine Eq.trans ?_ (congrArg (·.1) h)
  cases (lanesOn s m w).idxOf? l <;> rfl

theorem vgas_runs (ht : ty ≠ .f4) (hi : Issues s h) (he : s.th.regErr = []) (hm : m ≠ 0#3 → m.toNat < s.th.V)
    (hr : readS a s = .ok (x, s₁)) (hf : FieldsOk s [(.vec, d), (.rs, a), (.vec, b)])
    (hok : ∀ i, i < 512 / fmtWidth ty → active s m i = true → SpOk s (laneAt s b (fmtWidth ty) sc x i) (fmtWidth ty / 8) (fmtWidth ty / 8) false ∧
      (laneAt s b (fmtWidth ty) sc x i).toNat < 0x100000) :
    ∃ t, exec (.vgas h d a b m ty sc) s = .next t ∧ Wrote s₁ t d.spec.toNat 0#5 (gasWrite s b m (fmtWidth ty) sc x) := by
  have hw := laneWidth_fmt ht
  have hrd := readS_read hr
  have ho := hrd.operated
  have hlanes := lanesAt_run (s₁ := s₁) hw ho (b := b) (m := m) (sc := sc) (x := x) (wr := false)
    fun i h1 h2 => ⟨(hok i h1 h2).1, hok i h1 h2⟩
  have hgets : forAll (fun (e : Nat × Nat) => spGet e.2 (fmtWidth ty / 8)) ((lanesOn s m (fmtWidth ty)).map fun i => (i, (laneAt s b (fmtWidth ty) sc x i).toNat)) s₁ =
      .ok ((lanesOn s m (fmtWidth ty)).map fun i => (valueAt s (.sp s.th.core) (laneAt s b (fmtWidth ty) sc x i).toNat (fmtWidth ty / 8),
        (s.core s.th.core).spB (laneAt s b (fmtWidth ty) sc x i).toNat), s₁) := by
    rw [forAll_pure (g := fun e : Nat × Nat => (valueAt s (.sp s.th.core) e.2 (fmtWidth ty / 8), (s.core s.th.core).spB e.2)), List.map_map]
    · rfl
    · intro e hmem
      obtain ⟨i, hon, rfl⟩ := List.mem_map.mp hmem
      obtain ⟨h1, h2⟩ := mem_lanesOn.mp hon
      rw [spGet_lane hw (hok i h1 h2).1.aligned, ho.thCore, ho.valueAt, ho.spB]
  refine ⟨_, runU_done hi ?_ (by decide), wrote_finish (ho.atPort.trans hi.own) (hrd.regErr.trans he) hw
    (vec_lt (hf _ (List.mem_cons_self ..))) (.inr ⟨rfl, rfl⟩)⟩
  refine (M.bind_ok (check1_ok hf)).trans ((M.bind_ok (readVs_run hm he _ _)).trans ((M.bind_ok hr).trans ((M.bind_ok hlanes).trans
    ((M.bind_ok hgets).trans ?_))))
  have hfst : ((lanesOn s m (fmtWidth ty)).map fun i => (i, (laneAt s b (fmtWidth ty) sc x i).toNat)).map (·.1) = lanesOn s m (fmtWidth ty) := by
    rw [List.map_map]
    exact List.map_id _
  simp only [hfst]
  exact M.bind_ok (writeLanes_run d (gasWrite s b m (fmtWidth ty) sc x) s₁)
/-! ### vscs (R306) -/

/-- A lane written with the bound of its register. -/
def scatter (s : State) (b c : Fld) (w : Nat) (sc : BitVec 3) (x : Word) (i : Nat) (k : Core) : Core :=
  k.spPut (laneAt s b w sc x i).toNat (w / 8) (lane s [c] w 0 i) (s.th.vB c.spec.toNat) false

theorem vscs_runs {c : Fld} (ht : ty ≠ .f4) (hi : Issues s h) (he : s.th.regErr = []) (hm : m ≠ 0#3 → m.toNat < s.th.V)
    (hr : readS a s = .ok (x, s₁)) (hf : FieldsOk s [(.rs, a), (.vec, b), (.vec, c)])
    (hok : ∀ i, i < 512 / fmtWidth ty → active s m i = true → SpOk s (laneAt s b (fmtWidth ty) sc x i) (fmtWidth ty / 8) (fmtWidth ty / 8) true ∧
      SpOk s (laneAt s b (fmtWidth ty) sc x i) (fmtWidth ty / 8) (fmtWidth ty / 8) false ∧ (laneAt s b (fmtWidth ty) sc x i).toNat < 0x100000) :
    exec (.vscs h a b c m ty sc) s = .next ((s₁.onCore (scatter s b c (fmtWidth ty) sc x) (lanesOn s m (fmtWidth ty))).finish .fall) := by
  have hw := laneWidth_fmt ht
  have ho := (readS_read hr).operated
  have hlanes := lanesAt_run (s₁ := s₁) hw ho (b := b) (m := m) (sc := sc) (x := x) (wr := true) hok
  obtain ⟨ys, hys⟩ := forAll_update (f := fun (e : Nat × Nat) => spSet e.2 (fmtWidth ty / 8) ((lanesOf (fmtWidth ty) (s.th.vR c.spec.toNat)).getD e.1 0)
    (s.th.vB c.spec.toNat) false) (fun _ _ => rfl)
    ((lanesOn s m (fmtWidth ty)).map fun i => (i, (laneAt s b (fmtWidth ty) sc x i).toNat)) s₁
  refine runU_done hi ?_ (by decide)
  refine (M.bind_ok (check1_ok hf)).trans ((M.bind_ok (readVs_run hm he _ _)).trans ((M.bind_ok hr).trans ((M.bind_ok hlanes).trans
    ((M.bind_ok hys).trans ?_))))
  rw [List.foldl_map]
  simp only [getD_lanesOf hw]
  rfl

/-- The bytes and the bounds a scattered lane touches. -/
theorem scatter_byte (s : State) (b c : Fld) (w : Nat) (sc : BitVec 3) (x : Word) (i : Nat) (k : Core) (q : Nat) :
    (scatter s b c w sc x i k).sp.lookD q 0#8 = if (laneAt s b w sc x i).toNat ≤ q ∧ q < (laneAt s b w sc x i).toNat + w / 8 then
      (leBytes (w / 8) (lane s [c] w 0 i)).getD (q - (laneAt s b w sc x i).toNat) 0#8 else k.sp.lookD q 0#8 := by
  have h := spWrite_byte k (laneAt s b w sc x i).toNat (leBytes (w / 8) (lane s [c] w 0 i)) q
  rwa [leBytes_length] at h

theorem scatter_spB (s : State) (b c : Fld) (w : Nat) (sc : BitVec 3) (x : Word) (i : Nat) (k : Core) (o : Nat) :
    (scatter s b c w sc x i k).spB o = if o / 64 = (laneAt s b w sc x i).toNat / 64 then bMax (k.spB o) (s.th.vB c.spec.toNat) else k.spB o := by
  refine (Core.spB_setSpB _ _ o _).trans (if_ctx_congr Iff.rfl (fun h => ?_) fun _ => rfl)
  simp only [Core.spB, h]
  rfl

theorem bMax_idem (a b : Word32) : bMax (bMax a b) b = bMax a b := by
  by_cases h : a.toNat ≤ b.toNat <;> simp [bMax, h]

/-- The bound of a line after lanes are scattered: where one meets it the larger of the two. -/
theorem scatters_spB (s : State) (b c : Fld) (w : Nat) (sc : BitVec 3) (x : Word) (L : List Nat) (k : Core) (o : Nat) :
    (L.foldl (fun k i => scatter s b c w sc x i k) k).spB o =
      if L.any (fun i => decide ((laneAt s b w sc x i).toNat / 64 = o / 64)) then bMax (k.spB o) (s.th.vB c.spec.toNat) else k.spB o := by
  induction L generalizing k with
  | nil => rfl
  | cons i L ih =>
    rw [List.foldl_cons, ih, scatter_spB, List.any_cons]
    by_cases h : (laneAt s b w sc x i).toNat / 64 = o / 64
    · rw [if_pos h.symm, decide_eq_true h, Bool.true_or, if_pos rfl, bMax_idem, ite_self]
    · rw [if_neg (Ne.symm h), decide_eq_false h, Bool.false_or]

/-- Two aligned lanes at different addresses do not meet. -/
theorem aligned_apart {w a b : Nat} (hw : LaneWidth w) (ha : a % (w / 8) = 0) (hb : b % (w / 8) = 0) (hne : a ≠ b) {q : Nat}
    (hq : a ≤ q ∧ q < a + w / 8) : ¬(b ≤ q ∧ q < b + w / 8) := by
  rcases hw with rfl | rfl | rfl | rfl <;> omega

/-- A lane at whose address no later one stands holds what was written. -/
theorem scatters_byte {c : Fld} {w : Nat} (hw : LaneWidth w) {L : List Nat} (hL : L.Pairwise (· < ·))
    (hal : ∀ i ∈ L, (laneAt s b w sc x i).toNat % (w / 8) = 0) {i : Nat} (hi : i ∈ L)
    (hlast : ∀ j ∈ L, i < j → laneAt s b w sc x j ≠ laneAt s b w sc x i) {l : Nat} (hl : l < w / 8) (k : Core) :
    (L.foldl (fun k i => scatter s b c w sc x i k) k).sp.lookD ((laneAt s b w sc x i).toNat + l) 0#8 =
      (leBytes (w / 8) (lane s [c] w 0 i)).getD l 0#8 := by
  obtain ⟨pre, post, rfl⟩ := List.append_of_mem hi
  obtain ⟨u, -, -, hu⟩ := foldl_last (I := fun _ => True) (ρ := fun k : Core => k.sp.lookD ((laneAt s b w sc x i).toNat + l) 0#8)
    (step := fun k i => scatter s b c w sc x i k) (pre := pre) (post := post) (x := i) (fun _ _ h => h) (fun j hj k _ => by
      have hmem : j ∈ pre ++ i :: post := List.mem_append_right _ (List.mem_cons_of_mem _ hj)
      have hlt : i < j := (List.pairwise_cons.mp (List.pairwise_append.mp hL).2.1).1 j hj
      refine (scatter_byte ..).trans (if_neg ?_)
      exact aligned_apart hw (hal i hi) (hal j hmem) (fun he => hlast j hmem hlt (BitVec.eq_of_toNat_eq he.symm)) ⟨by omega, by omega⟩) (s := k) trivial
  refine hu.trans ((scatter_byte ..).trans ((if_pos ⟨by omega, by omega⟩).trans ?_))
  rw [Nat.add_sub_cancel_left]
end

/-- Settles O16: what vgas writes, and the lanes vscs scatters one after another. -/
theorem gatherScatter : Obligations.GatherScatter := by
  unfold Obligations.GatherScatter
  intro s s₁ h d a b c m ty sc x hi he hm hr w n at'
  have hrd := readS_read hr
  have ho := hrd.operated
  refine ⟨fun hwf hf hok => ?_, fun hwf hf hok => ⟨_, vscs_runs (isM_ne hwf) hi he hm hr hf hok, ?_⟩⟩
  · have ht := isM_ne (t := ty) hwf
    have hw := laneWidth_fmt ht
    have h8 : 8 * (w / 8) = w := by rcases hw with h | h | h | h <;> simp [w, h]
    obtain ⟨t, hex, hwr⟩ := vgas_runs ht hi he hm hr hf hok
    have hmask : ∀ i, i < n → (gasWrite s b m w sc x).mask.testBit i = active s m i := fun i hi =>
      active_eq s m (Nat.lt_of_lt_of_le hi hw.lanes_le)
    refine ⟨t, hex, ?_, fun i hin => ?_, ?_⟩
    · exact sameMemory_trans ho.sameMemory hwr.frame.memory
    · have hl := hwr.lanes i hin
      rw [hmask i hin] at hl
      refine hl.trans (if_ctx_congr Iff.rfl (fun ha => ?_) fun _ => ?_)
      · rw [gasWrite_lane hin ha]
        exact Nat.mod_eq_of_lt (Nat.lt_of_lt_of_eq (valueAt_lt ..) (congrArg (2 ^ ·) h8))
      · rw [hrd.vR]
        rfl
    · intro r
      have hb : bMaxL ((lanesOn s m w).map fun i => (s.core s.th.core).spB (at' i).toNat) = r := List.foldl_map
      refine ⟨?_, fun j hj => ⟨fun i hin => ?_, ?_⟩⟩
      · refine hwr.bound.trans ((bound_masked m _ _).trans ?_)
        have hbw : (gasWrite s b m w sc x).b = r := by
          rw [← hb]
          exact congrArg bMaxL (List.map_map ..)
        rw [hrd.vB, hbw]
      · have hl := hwr.tans j (ho.k ▸ hj) i hin
        rw [hmask i hin] at hl
        refine hl.trans (if_ctx_congr Iff.rfl (fun ha => Nat.zero_mod _) fun _ => ?_)
        rw [hrd.vT]
        rfl
      · refine (hwr.tanBounds j (ho.k ▸ hj)).trans ((bound_masked m _ _).trans ?_)
        rw [hrd.vTb]
        rfl
  · have hw := laneWidth_fmt (isM_ne (t := ty) hwf)
    have hp : (s₁.onCore (scatter s b c w sc x) (lanesOn s m w)).th.atPort = false := by
      rw [State.onCore_th]
      exact ho.atPort.trans hi.own
    have hcore : ((s₁.onCore (scatter s b c w sc x) (lanesOn s m w)).finish .fall).core s.th.core =
        (lanesOn s m w).foldl (fun k i => scatter s b c w sc x i k) (s₁.core s.th.core) := by
      rw [(State.finish_fall_rest _ hp).core, State.onCore_core, ho.thCore, if_pos rfl]
    refine ⟨?_, fun sp q hq => ?_, fun i hin ha hlast => ?_, fun q hq _ => ?_⟩
    · rw [State.finish_fall_th_rest hp, State.onCore_th]
    · rw [State.finish_fall_byteAt hp, s₁.onCore_byteAt (scatter s b c w sc x) _ (fun _ _ => rfl) (fun hsp i hon k => ?_), ho.byteAt]
      obtain ⟨h1, h2⟩ := mem_lanesOn.mp hon
      exact (scatter_byte ..).trans (if_neg fun hq' => hq ⟨ho.thCore ▸ hsp, i, h1, h2, hq'⟩)
    · have hv := leNat_of_bytes (n := w / 8) (w := lane s [c] w 0 i)
        (f := fun l => ((s₁.onCore (scatter s b c w sc x) (lanesOn s m w)).finish .fall).byteAt (.sp s.th.core) ((at' i).toNat + l)) fun l hl => by
          rw [State.byteAt, hcore]
          exact scatters_byte hw (lanesOn_sorted s m w) (fun j hj => (hok j (mem_lanesOn.mp hj).1 (mem_lanesOn.mp hj).2).1.aligned)
            (mem_lanesOn.mpr ⟨hin, ha⟩) (fun j hj hlt => hlast j hlt (mem_lanesOn.mp hj).1 (mem_lanesOn.mp hj).2) hl _
      refine hv.trans (Nat.mod_eq_of_lt ?_)
      have h8 : 8 * (w / 8) = w := by rcases hw with h | h | h | h <;> simp [w, h]
      rw [h8]
      exact lane_lt ..
    · rw [hcore, scatters_spB, ho.spB]
      have hany : (lanesOn s m w).any (fun i => decide ((laneAt s b w sc x i).toNat / 64 = q / 64)) =
          (List.range n).any fun i => active s m i && decide ((at' i).toNat / 64 * 64 = q) := by
        rw [lanesOn, List.any_filter]
        refine congrArg ((List.range n).any ·) (funext fun i => congrArg (_ && ·) (decide_eq_decide.mpr ?_))
        show (at' i).toNat / 64 = q / 64 ↔ _
        omega
      rw [hany]

end Sys2Proof.Machine
end

section
/-!
Vector loads (R41, R133, R298): whole lines with their bounds, and the lines of the tangents at their planes.
-/
namespace Sys2Proof.Machine
open Sys2Proof.Claims

/-! ### Numbers from bytes -/

/-- The number that n bytes make up, from byte 0 on. -/
def numAt (f : Nat → Byte) (n : Nat) : Nat := leNat ((List.range n).map f)

theorem numAt_lt (f : Nat → Byte) (n : Nat) : numAt f n < 2 ^ (8 * n) := by
  have h := leNat_lt ((List.range n).map f)
  rwa [List.length_map, List.length_range] at h

theorem numAt_succ (f : Nat → Byte) (n : Nat) : numAt f (n + 1) = (f 0).toNat + 256 * numAt (fun i => f (i + 1)) n := by
  rw [numAt, List.range_succ_eq_map, List.map_cons, List.map_map]
  rfl

theorem numAt_div (f : Nat → Byte) (n k : Nat) : numAt f n / 2 ^ (8 * k) = numAt (fun i => f (k + i)) (n - k) := by
  induction k generalizing f n with
  | zero => simp
  | succ k ih =>
    have hp : 2 ^ (8 * (k + 1)) = 256 * 2 ^ (8 * k) := by rw [Nat.mul_succ, Nat.pow_add, Nat.mul_comm]
    cases n with
    | zero => rw [Nat.zero_sub]; exact Nat.zero_div _
    | succ n =>
      have hb := (f 0).isLt
      rw [hp, ← Nat.div_div_eq_div_mul, numAt_succ, Nat.add_mul_div_left _ _ (by decide), Nat.div_eq_of_lt hb, Nat.zero_add, ih, Nat.add_sub_add_right]
      exact congrArg (numAt · (n - k)) (funext fun i => congrArg f (by omega))

theorem numAt_mod (f : Nat → Byte) {n k : Nat} (h : k ≤ n) : numAt f n % 2 ^ (8 * k) = numAt f k := by
  induction k generalizing f n with
  | zero => exact Nat.mod_one _
  | succ k ih =>
    obtain ⟨n, rfl⟩ : ∃ m, n = m + 1 := ⟨n - 1, by omega⟩
    have hp : 2 ^ (8 * (k + 1)) = 256 * 2 ^ (8 * k) := by rw [Nat.mul_succ, Nat.pow_add, Nat.mul_comm]
    have hb := (f 0).isLt
    rw [numAt_succ, numAt_succ, hp, Nat.mod_mul, ← ih (fun i => f (i + 1)) (n := n) (by omega), Nat.add_mul_mod_self_left, Nat.mod_eq_of_lt hb,
      Nat.add_mul_div_left _ _ (by decide), Nat.div_eq_of_lt hb, Nat.zero_add]

/-- A part of a number is the number its bytes make up. -/
theorem numAt_part (f : Nat → Byte) {N k n : Nat} (h : k + n ≤ N) : numAt f N / 2 ^ (8 * k) % 2 ^ (8 * n) = numAt (fun i => f (k + i)) n := by
  rw [numAt_div, numAt_mod _ (by omega)]

/-- A dword of a line as a lane of the register that holds it. -/
theorem laneN_line (f : Nat → Byte) {i : Nat} (hi : i < 8) : laneN 64 (BitVec.ofNat 512 (numAt f 64)) i = numAt (fun k => f (8 * i + k)) 8 := by
  have h : numAt f 64 < 2 ^ 512 := Nat.lt_of_lt_of_le (numAt_lt f 64) (Nat.pow_le_pow_right (by decide) (show 8 * 64 ≤ 512 by decide))
  rw [laneN, BitVec.toNat_ofNat, Nat.mod_eq_of_lt h, show 64 * i = 8 * (8 * i) by omega]
  exact numAt_part f (k := 8 * i) (n := 8) (by omega)

/-- A register is its dwords. -/
theorem eq_of_dwords {x y : Vec} (h : ∀ i, i < 8 → laneN 64 x i = laneN 64 y i) : x = y := by
  refine BitVec.eq_of_getLsbD_eq fun j hj => ?_
  have hbit : ∀ z : Vec, z.getLsbD j = (laneN 64 z (j / 64)).testBit (j % 64) := fun z => by
    rw [laneN, Nat.testBit_mod_two_pow, decide_eq_true (Nat.mod_lt _ (by decide)), Bool.true_and, ← Nat.shiftRight_eq_div_pow,
      Nat.testBit_shiftRight, Nat.div_add_mod, BitVec.testBit_toNat]
  rw [hbit, hbit, h (j / 64) (by omega)]

/-! ### Lines written to a register -/

/-- A line read, as dwords with a bound. -/
def readLine (xs : List (Nat × Word32)) (i : Nat) : List Nat × Word32 :=
  (lanesOf 64 (BitVec.ofNat 512 (xs.getD i (0, 0#32)).1), (xs.getD i (0, 0#32)).2)
/-- The lines of the tangents that an access carries, and nothing for the others. -/
def lineTans (k : Nat) (js : List Nat) (xs : List (Nat × Word32)) : List (List Nat × Word32) :=
  (List.range k).map fun j => (js.idxOf? j).elim ([], 0#32) fun i => readLine xs (i + 1)

/-- What the lines read at the planes of an access write: the first to the register, and each other one to its tangent. -/
def lineWrite (s : State) (m : BitVec 3) (js : List Nat) (xs : List (Nat × Word32)) : VecWrite :=
  { w := 64, mask := s.th.mask m, masked := m ≠ 0#3, res := (readLine xs 0).1, b := (readLine xs 0).2, ts := lineTans s.th.k js xs }

theorem writeLines_run {s : State} (d : Fld) (m : BitVec 3) (ps : List (Nat × Word)) (xs : List (Nat × Word32)) :
    writeLines d m (s.th.mask m) ps xs s = .ok ((), s.modTh fun t => t.put d.spec.toNat (lineWrite s m (ps.map (·.1)) xs)) := by
  rw [← writeLanes_run]
  simp only [writeLines, M.bind_run, getTh_run, lineWrite, lineTans]
  refine congrArg (fun ts => writeLanes d 64 (s.th.mask m) (m ≠ 0#3) (readLine xs 0).1 (readLine xs 0).2 ts s) (List.map_congr_left fun j _ => ?_)
  cases (ps.map (·.1)).idxOf? j <;> rfl

theorem lineWrite_lanes (s : State) (m : BitVec 3) (js : List Nat) (xs : List (Nat × Word32)) : 512 / (lineWrite s m js xs).w = 8 := by
  rw [show (lineWrite s m js xs).w = 64 from rfl]

section
variable {s t : State} {m : BitVec 3} {js : List Nat} {xs : List (Nat × Word32)} {n : Nat} {fl : Flags}

theorem lineWrite_tan {j : Nat} (hj : j < s.th.k) :
    (lineWrite s m js xs).tan j = (js.idxOf? j).elim ([], 0#32) fun i => readLine xs (i + 1) :=
  (getD_map_range _ _ j _).trans (if_pos hj)

theorem lineWrite_mask {i : Nat} (hi : i < 8) : (lineWrite s m js xs).mask.testBit i = active s m i := active_eq s m (by omega)

/-- Dwords of a line as read. -/
theorem getD_readLine {i l : Nat} {f : Nat → Byte} {b : Word32} (hx : xs.getD i (0, 0#32) = (numAt f 64, b)) (hl : l < 8) :
    (readLine xs i).1.getD l 0 % 2 ^ 64 = numAt (fun k => f (8 * l + k)) 8 := by
  rw [readLine, hx, getD_lanesOf (.inr (.inr (.inr rfl))), Nat.mod_eq_of_lt (laneN_lt ..), laneN_line f hl]

variable (hwr : Wrote s t n fl (lineWrite s m js xs))
include hwr

/-- The register after a line has been written to it. -/
theorem line_loaded {f : Nat → Byte} {b : Word32} (hx : xs.getD 0 (0, 0#32) = (numAt f 64, b)) :
    LineLoaded s.th.vR s.th.vB t.th.vR t.th.vB n (active s m) m (fun i => numAt (fun k => f (8 * i + k)) 8) b := by
  refine ⟨fun i hi => ?_, hwr.bound.trans ((bound_masked m _ _).trans ?_)⟩
  · have h := hwr.lanes i (lineWrite_lanes s m js xs ▸ hi)
    rw [lineWrite_mask hi] at h
    refine h.trans (if_ctx_congr Iff.rfl (fun _ => ?_) fun _ => rfl)
    exact getD_readLine hx hi
  · rw [show (lineWrite s m js xs).b = b from congrArg (·.2) hx]

/-- A tangent after its line has been written to it. -/
theorem tangent_loaded {j i : Nat} (hj : j < s.th.k) (hi : js.idxOf? j = some i) {f : Nat → Byte} {b : Word32}
    (hx : xs.getD (i + 1) (0, 0#32) = (numAt f 64, b)) :
    LineLoaded (s.th.vT j) (s.th.vTb j) (t.th.vT j) (t.th.vTb j) n (active s m) m (fun i => numAt (fun k => f (8 * i + k)) 8) b := by
  have htan := lineWrite_tan (m := m) (js := js) (xs := xs) hj
  rw [hi, Option.elim_some] at htan
  refine ⟨fun l hl => ?_, (hwr.tanBounds j hj).trans ((bound_masked m _ _).trans ?_)⟩
  · have h := hwr.tans j hj l (lineWrite_lanes s m js xs ▸ hl)
    rw [lineWrite_mask hl, htan] at h
    refine h.trans (if_ctx_congr Iff.rfl (fun _ => ?_) fun _ => rfl)
    exact getD_readLine hx hl
  · rw [htan, show (readLine xs (i + 1)).2 = b from congrArg (·.2) hx]

/-- A tangent that no plane is read for. -/
theorem tangent_cleared {j : Nat} (hj : j < s.th.k) (hi : js.idxOf? j = none) :
    LineLoaded (s.th.vT j) (s.th.vTb j) (t.th.vT j) (t.th.vTb j) n (active s m) m (fun _ => 0) 0#32 := by
  have htan := lineWrite_tan (m := m) (js := js) (xs := xs) hj
  rw [hi] at htan
  refine ⟨fun l hl => ?_, (hwr.tanBounds j hj).trans ((bound_masked m _ _).trans ?_)⟩
  · have h := hwr.tans j hj l (lineWrite_lanes s m js xs ▸ hl)
    rw [lineWrite_mask hl, htan] at h
    exact h.trans (if_ctx_congr Iff.rfl (fun _ => Nat.zero_mod _) fun _ => rfl)
  · rw [htan]
    rfl
end

/-! ### vlds and vldd (R298) -/

theorem mask_read {s s₁ : State} (h : OperandsRead s s₁) (m : BitVec 3) : s₁.th.mask m = s.th.mask m :=
  (congrArg (fun t : Thread => t.mask m) h.thread :)
theorem active_read {s s₁ : State} (h : s₁.th.unread = s.th.unread) (m : BitVec 3) : active s₁ m = active s m :=
  funext fun i => congrArg (fun x : Vec => m == 0#3 || x.getLsbD i) (congrArg (fun t : Thread => t.vR m.toNat) h :)

/-- A line of the own scratchpad read with its bound. -/
theorem spGet_line {s : State} {o : Nat} (ha : o % 64 = 0) :
    spGet o 64 s = .ok ((valueAt s (.sp s.th.core) o 64, (s.core s.th.core).spB o), s) := by
  have h1 : (o % 64 + 64 + 63) / 64 = 1 := by omega
  have h2 : (s.core s.th.core).spB (o / 64 * 64 + 64 * 0) = (s.core s.th.core).spB o := by
    simp only [Core.spB]
    rw [show (o / 64 * 64 + 64 * 0) / 64 = o / 64 by omega]
  simp only [spGet, M.bind_run, M.get_run, M.pure_run, h1, valueAt_sp, List.range_one, List.map_cons, List.map_nil, h2]
  rw [show bMaxL [(s.core s.th.core).spB o] = (s.core s.th.core).spB o from bMax_zero _]

theorem Thread.put_atPort (t : Thread) (i : Nat) (v : VecWrite) : (t.put i v).atPort = t.atPort := by
  obtain ⟨vt, vtb, h⟩ := t.putV_fields (i := i) (putLanes v.w v.mask (t.vR i) v.res) (v.bound (t.vB i) v.b)
    fun j => (putLanes v.w v.mask (t.vT j i) (v.tan j).1, v.bound (t.vTb j i) (v.tan j).2)
  rw [Thread.put, h]
  rfl

section
variable {s s₁ : State} {h : Head} {d a : Fld} {typed : Bool} {m : BitVec 3} {imm : BitVec 16} {x : Word}
  (hi : Issues s h) (he : s.th.regErr = []) (hm : m ≠ 0#3 → m.toNat < s.th.V) (hst : StrideOk s typed)
include hi he hm hst

theorem vlds_runs (hf : FieldsOk s [(.vec, d), (.rs, a)]) (hr : readS a s = .ok (x, s₁))
    (hok : ∀ v ∈ planeVAs s typed (x + imm.signExtend 64), SpOk s v 64 64 false) :
    ∃ t, exec (.vlds h d a typed m imm) s = .next t ∧ Wrote s₁ t d.spec.toNat 0#5 (lineWrite s₁ m (s.carried typed)
      ((planeVAs s typed (x + imm.signExtend 64)).map fun v => (valueAt s (.sp s.th.core) v.toNat 64, (s.core s.th.core).spB v.toNat))) := by
  have hrd := readS_read hr
  have ho := hrd.operated
  generalize hva : x + imm.signExtend 64 = va at hok ⊢
  have hpl : spPlanes 64 64 false (planeVAs s typed va) s₁ = .ok ((planeVAs s typed va).map (·.toNat), s₁) :=
    spPlanes_ok fun v hv => ho.spOk (hok v hv)
  have hg : forAll (fun o => spGet o 64) ((planeVAs s typed va).map (·.toNat)) s₁ =
      .ok ((planeVAs s typed va).map fun v => (valueAt s (.sp s.th.core) v.toNat 64, (s.core s.th.core).spB v.toNat), s₁) := by
    rw [forAll_pure (g := fun o => (valueAt s (.sp s.th.core) o 64, (s.core s.th.core).spB o)), List.map_map]
    · rfl
    · intro o hmem
      obtain ⟨v, hv, rfl⟩ := List.mem_map.mp hmem
      rw [spGet_line (hok v hv).aligned, ho.thCore, ho.valueAt, ho.spB]
  have hwr := writeLines_run (s := s₁) d m (s.offsets typed) ((planeVAs s typed va).map fun v =>
    (valueAt s (.sp s.th.core) v.toNat 64, (s.core s.th.core).spB v.toNat))
  rw [offsets_planes] at hwr
  refine ⟨_, runU_done hi ?_ (by decide), wrote_finish (ho.atPort.trans hi.own) (hrd.regErr.trans he) (.inr (.inr (.inr rfl)))
    (vec_lt (hf _ (List.mem_cons_self ..))) (.inr ⟨rfl, rfl⟩)⟩
  simp only [M.bind_run, check1_ok hf, checkMask_run hm, planesOf_ok hst, hr, addrOf, sext, hva, readMask_run (hrd.regErr.trans he), offsets_vas, hpl, hg,
    hwr, M.pure_run]

theorem vldd_runs {s₂ : State} {pas : List Nat} (hf : FieldsOk s [(.vec, d), (.rs, a)]) (hr : readOps [a] s = .ok ([x], s₁))
    (hre : Reaches 64 .read s₁ (planeVAs s₁ typed (x + imm.signExtend 64)) pas s₂) :
    ∃ t, exec (.vldd h d a typed m imm) s = .next t ∧ t.mem = s₂.mem ∧ Wrote s₂ t d.spec.toNat 0#5 (lineWrite s₂ m (s.carried typed)
      (pas.map fun pa => (s₂.dmNat s.th.core pa 64, sbBound (s₂.dmSb s.th.core pa)))) := by
  have hrd := readOps_read hr
  have ho := hrd.operated
  have hp₁ : s₁.th.atPort = false := ho.atPort.trans hi.own
  have hth : s₂.th = s₁.th := (reaches_sameThreads hre).th
  have hp₂ : s₂.th.atPort = false := hth ▸ hp₁
  have hrch := reachPlanes_ok hre hp₁
  rw [ho.planeVAs] at hrch
  have hwr := writeLines_run (s := s₂) d m (s.offsets typed) (pas.map fun pa => (s₂.dmNat s.th.core pa 64, sbBound (s₂.dmSb s.th.core pa)))
  rw [offsets_planes, hth] at hwr
  have hfin := wrote_finish (s := s₂) hp₂ (hth ▸ hrd.regErr.trans he) (.inr (.inr (.inr rfl))) (vec_lt (hf _ (List.mem_cons_self ..)))
    (.inr ⟨rfl, rfl⟩) (v := lineWrite s₂ m (s.carried typed) (pas.map fun pa => (s₂.dmNat s.th.core pa 64, sbBound (s₂.dmSb s.th.core pa)))) (u := s₂)
  refine ⟨_, runU_done hi ?_ (by decide), ?_, hfin⟩
  · simp only [M.bind_run, check1_ok hf, checkMask_run hm, planesOf_ok hst, hr, addrOf, sext, List.getD_cons_zero, readMask_run (hrd.regErr.trans he),
      offsets_vas, hrch, devGets_ok hp₂, hth, ho.thCore, hwr, M.pure_run]
  · refine (State.finish_fall_rest _ ?_).mem
    rw [State.th_modTh, Thread.put_atPort, hp₂]
end

/-! ### What the loads leave -/

section
variable {s s₁ t : State} (hrd : s₁.th.unread = s.th.unread) {n j : Nat} {m : BitVec 3} {val : Nat → Nat} {b : Word32}
include hrd
/-- Line loads into the registers of a thread whose operands have been read. -/
theorem lineLoaded_read (h : LineLoaded s₁.th.vR s₁.th.vB t.th.vR t.th.vB n (active s₁ m) m val b) :
    LineLoaded s.th.vR s.th.vB t.th.vR t.th.vB n (active s m) m val b := by
  have hR : s₁.th.vR = s.th.vR := (congrArg (fun t : Thread => t.vR) hrd :)
  have hB : s₁.th.vB = s.th.vB := (congrArg (fun t : Thread => t.vB) hrd :)
  rwa [active_read hrd, hR, hB] at h
theorem tangentLoaded_read (h : LineLoaded (s₁.th.vT j) (s₁.th.vTb j) (t.th.vT j) (t.th.vTb j) n (active s₁ m) m val b) :
    LineLoaded (s.th.vT j) (s.th.vTb j) (t.th.vT j) (t.th.vTb j) n (active s m) m val b := by
  have hT : s₁.th.vT = s.th.vT := (congrArg (fun t : Thread => t.vT) hrd :)
  have hTb : s₁.th.vTb = s.th.vTb := (congrArg (fun t : Thread => t.vTb) hrd :)
  rwa [active_read hrd, hT, hTb] at h
end

/-- The dwords of a line of a memory. -/
theorem valueAt_dword (s : State) (sp : Space) (a i : Nat) : numAt (fun k => s.byteAt sp (a + (8 * i + k))) 8 = valueAt s sp (a + 8 * i) 8 := by
  simp only [numAt, valueAt, Nat.add_assoc]
theorem dmNat_dword (s : State) (c a i : Nat) : numAt (fun k => s.dmByte c (a + (8 * i + k))) 8 = s.dmNat c (a + 8 * i) 8 := by
  simp only [numAt, State.dmNat, State.dmBytes, Nat.add_assoc]

section
variable {s s₁ : State} {h : Head} {d a : Fld} {typed : Bool} {m : BitVec 3} {imm : BitVec 16} {x : Word}

theorem vlds_loads (hi : Issues s h) (he : s.th.regErr = []) (hm : m ≠ 0#3 → m.toNat < s.th.V) (hst : StrideOk s typed)
    (hr : readS a s = .ok (x, s₁)) (hf : FieldsOk s [(.vec, d), (.rs, a)])
    (hok : ∀ v ∈ planeVAs s typed (x + imm.signExtend 64), SpOk s v 64 64 false) :
    let va := x + imm.signExtend 64
    let own := Space.sp s.th.core
    ∃ t, exec (.vlds h d a typed m imm) s = .next t ∧ SameMemory s t ∧
      LineLoaded s.th.vR s.th.vB t.th.vR t.th.vB d.spec.toNat (active s m) m (fun i => valueAt s own (va.toNat + 8 * i) 8)
        ((s.core s.th.core).spB va.toNat) ∧
      ∀ j, j < s.th.k →
        let pl := (va + BitVec.ofNat 64 (j + 1) * s.th.tstride).toNat
        let on := typed = true ∧ j ∈ s.th.sel
        LineLoaded (s.th.vT j) (s.th.vTb j) (t.th.vT j) (t.th.vTb j) d.spec.toNat (active s m) m
          (fun i => if on then valueAt s own (pl + 8 * i) 8 else 0) (if on then (s.core s.th.core).spB pl else 0#32) := by
  intro va own
  have hrd := readS_read hr
  obtain ⟨t, hex, hwr⟩ := vlds_runs hi he hm hst hf hr hok
  refine ⟨t, hex, sameMemory_trans hrd.operated.sameMemory hwr.frame.memory, ?_, fun j hj => ?_⟩
  · have hl := lineLoaded_read hrd.thread (line_loaded hwr (f := fun k => s.byteAt own (va.toNat + k)) (b := (s.core s.th.core).spB va.toNat) rfl)
    simpa only [valueAt_dword] using hl
  · intro pl on
    have hj₁ : j < s₁.th.k := hrd.operated.k ▸ hj
    cases hidx : (s.carried typed).idxOf? j with
    | none =>
      have hoff : ¬on := mt mem_carried.mpr (List.idxOf?_eq_none_iff.mp hidx)
      simp only [if_neg hoff]
      exact tangentLoaded_read hrd.thread (tangent_cleared hwr hj₁ hidx)
    | some i =>
      obtain ⟨hlt, hget, -⟩ := List.idxOf?_eq_some_iff.mp hidx
      have hon : on := mem_carried.mp (hget ▸ List.getElem_mem hlt)
      have hx : ((planeVAs s typed va).map fun v => (valueAt s own v.toNat 64, (s.core s.th.core).spB v.toNat)).getD (i + 1) (0, 0#32) =
          (numAt (fun k => s.byteAt own (pl + k)) 64, (s.core s.th.core).spB pl) := by
        rw [← offsets_vas]
        simp [State.offsets, hlt, hget, pl, valueAt, numAt]
      have hl := tangentLoaded_read hrd.thread (tangent_loaded hwr hj₁ hidx hx)
      simpa only [valueAt_dword, if_pos hon] using hl

theorem vldd_loads {s₂ : State} {pas : List Nat} (hi : Issues s h) (he : s.th.regErr = []) (hm : m ≠ 0#3 → m.toNat < s.th.V)
    (hst : StrideOk s typed) (hr : readOps [a] s = .ok ([x], s₁)) (hf : FieldsOk s [(.vec, d), (.rs, a)])
    (hre : Reaches 64 .read s₁ (planeVAs s₁ typed (x + imm.signExtend 64)) pas s₂) :
    let c := s.th.core
    ∃ t, exec (.vldd h d a typed m imm) s = .next t ∧ t.mem = s₂.mem ∧
      (∀ pa, pas[0]? = some pa → LineLoaded s.th.vR s.th.vB t.th.vR t.th.vB d.spec.toNat (active s m) m
        (fun i => s₂.dmNat c (pa + 8 * i) 8) (sbBound (s₂.dmSb c pa))) ∧
      ∀ j, j < s.th.k →
        let pl := match (if typed then s.th.sel else []).idxOf? j with | some i => pas[i + 1]? | none => none
        LineLoaded (s.th.vT j) (s.th.vTb j) (t.th.vT j) (t.th.vTb j) d.spec.toNat (active s m) m
          (fun i => match pl with | some pa => s₂.dmNat c (pa + 8 * i) 8 | none => 0)
          (match pl with | some pa => sbBound (s₂.dmSb c pa) | none => 0#32) := by
  intro c
  have hrd := readOps_read hr
  have hth : s₂.th = s₁.th := (reaches_sameThreads hre).th
  have hrd₂ : s₂.th.unread = s.th.unread := hth ▸ hrd.thread
  obtain ⟨t, hex, hmem, hwr⟩ := vldd_runs hi he hm hst hf hr hre
  have hlen : pas.length = (s.carried typed).length + 1 := by
    rw [reaches_length hre, hrd.operated.planeVAs, ← offsets_vas]
    simp [State.offsets]
  refine ⟨t, hex, hmem, fun pa hpa => ?_, fun j hj => ?_⟩
  · have hx : (pas.map fun pa => (s₂.dmNat c pa 64, sbBound (s₂.dmSb c pa))).getD 0 (0, 0#32) =
        (numAt (fun k => s₂.dmByte c (pa + k)) 64, sbBound (s₂.dmSb c pa)) := by
      simp only [getD_map, hpa]
      rfl
    have hl := lineLoaded_read hrd₂ (line_loaded hwr hx)
    simpa only [dmNat_dword] using hl
  · intro pl
    have hj₂ : j < s₂.th.k := (congrArg (fun t : Thread => t.k) hrd₂ :) ▸ hj
    cases hidx : (s.carried typed).idxOf? j with
    | none =>
      have hpl : pl = none := by
        show (match (s.carried typed).idxOf? j with | some i => pas[i + 1]? | none => none) = none
        rw [hidx]
      rw [hpl]
      exact tangentLoaded_read hrd₂ (tangent_cleared hwr hj₂ hidx)
    | some i =>
      obtain ⟨hlt, -, -⟩ := List.idxOf?_eq_some_iff.mp hidx
      have hpa : pas[i + 1]? = some (pas[i + 1]'(by omega)) := List.getElem?_eq_getElem _
      generalize pas[i + 1]'(by omega) = pa at hpa
      have hpl : pl = some pa := by
        show (match (s.carried typed).idxOf? j with | some i => pas[i + 1]? | none => none) = some pa
        rw [hidx]
        exact hpa
      have hx : (pas.map fun pa => (s₂.dmNat c pa 64, sbBound (s₂.dmSb c pa))).getD (i + 1) (0, 0#32) =
          (numAt (fun k => s₂.dmByte c (pa + k)) 64, sbBound (s₂.dmSb c pa)) := by
        simp only [getD_map, hpa]
        rfl
      have hl := tangentLoaded_read hrd₂ (tangent_loaded hwr hj₂ hidx hx)
      rw [hpl]
      simpa only [dmNat_dword] using hl
end

end Sys2Proof.Machine
end

section
/-!
Vector stores (R41, R133, R298): whole lines or the bytes a mask selects, with their bounds, in the own scratchpad and in device memory.
-/
namespace Sys2Proof.Machine
open Sys2Proof.Claims

/-! ### The bytes of a line that a mask selects -/

/-- A byte of a register. -/
def lineByte (x : Vec) (i : Nat) : Byte := BitVec.ofNat 8 (x.toNat / 2 ^ (8 * i))

/-- An address lies in the bytes of a line that a mask selects. -/
abbrev lineHit (mask pa q : Nat) : Prop := pa ≤ q ∧ q < pa + 64 ∧ mask.testBit ((q - pa) / 8) = true

theorem mem_lineCells {mask pa : Nat} {x : Vec} {e : Host.Cell} :
    e ∈ lineCells mask pa x ↔ lineHit mask pa e.1 ∧ e.2 = lineByte x (e.1 - pa) := by
  obtain ⟨q, b⟩ := e
  simp only [lineCells, List.mem_map, List.mem_filter, List.mem_range, Prod.mk.injEq, lineHit, lineByte, Nat.shiftRight_eq_div_pow]
  constructor
  · rintro ⟨i, ⟨hi, hm⟩, rfl, rfl⟩
    simp only [Nat.add_sub_cancel_left]
    exact ⟨⟨by omega, by omega, hm⟩, trivial⟩
  · rintro ⟨⟨h1, h2, hm⟩, rfl⟩
    exact ⟨q - pa, ⟨by omega, hm⟩, by omega, rfl⟩

/-- The cell of an address among those of a line. -/
theorem find_lineCells_hit {mask pa q : Nat} (x : Vec) (h : lineHit mask pa q) :
    (lineCells mask pa x).find? (fun e => e.1 == q) = some (q, lineByte x (q - pa)) := by
  cases hf : (lineCells mask pa x).find? (fun e => e.1 == q) with
  | none => exact absurd (beq_self_eq_true q) (List.find?_eq_none.mp hf (q, lineByte x (q - pa)) (mem_lineCells.mpr ⟨h, rfl⟩))
  | some e =>
    obtain ⟨q', b⟩ := e
    obtain ⟨-, hb⟩ := mem_lineCells.mp (List.mem_of_find?_eq_some hf)
    obtain rfl : q' = q := by simpa using List.find?_some hf
    exact congrArg (fun b => some (q', b)) hb

theorem find_lineCells_miss {mask pa q : Nat} (x : Vec) (h : ¬lineHit mask pa q) : (lineCells mask pa x).find? (fun e => e.1 == q) = none :=
  List.find?_eq_none.mpr fun e he => by
    rintro heq
    obtain rfl : e.1 = q := by simpa using heq
    exact h (mem_lineCells.mp he).1

/-- Cells put one by one. -/
theorem lookD_putCells (cells : List Host.Cell) (m : Tbl Byte) (q : Nat)
    (hu : ∀ e ∈ cells, ∀ f ∈ cells, e.1 = f.1 → e.2 = f.2) :
    (cells.foldl (fun (m : Tbl Byte) (e : Host.Cell) => m.put 0#8 e.1 e.2) m).lookD q 0#8 =
      ((cells.find? fun e => e.1 == q).map (·.2)).getD (m.lookD q 0#8) := by
  induction cells generalizing m with
  | nil => rfl
  | cons e r ih =>
    rw [List.foldl_cons, ih _ fun a ha b hb => hu a (List.mem_cons_of_mem _ ha) b (List.mem_cons_of_mem _ hb), List.find?_cons, Tbl.lookD_put]
    by_cases h : e.1 = q
    · subst h
      rw [if_pos rfl, beq_self_eq_true]
      cases hf : r.find? (fun f => f.1 == e.1) with
      | none => rfl
      | some f =>
        have hfe := List.find?_some hf
        exact (hu e (List.mem_cons_self ..) f (List.mem_cons_of_mem _ (List.mem_of_find?_eq_some hf)) (eq_of_beq hfe).symm).symm
    · rw [if_neg (Ne.symm h), beq_false_of_ne h]

theorem lookD_lineCells (mask pa : Nat) (x : Vec) (m : Tbl Byte) (q : Nat) :
    ((lineCells mask pa x).foldl (fun (m : Tbl Byte) (e : Host.Cell) => m.put 0#8 e.1 e.2) m).lookD q 0#8 =
      if lineHit mask pa q then lineByte x (q - pa) else m.lookD q 0#8 := by
  rw [lookD_putCells _ _ _ fun e he f hf hef => by rw [(mem_lineCells.mp he).2, (mem_lineCells.mp hf).2, hef]]
  split
  · next h => rw [find_lineCells_hit x h]; rfl
  · next h => rw [find_lineCells_miss x h]; rfl

/-! ### Lines of the own scratchpad -/

/-- A line written: whole, or the bytes a mask register selects with the larger bound. -/
def linePut (m : BitVec 3) (mask : Nat) (p : Nat × Vec × Word32) (c : Core) : Core :=
  if m = 0#3 then c.spPut p.1 64 p.2.1.toNat p.2.2 true
  else { c with sp := (lineCells mask p.1 p.2.1).foldl (fun (m : Tbl Byte) (e : Host.Cell) => m.put 0#8 e.1 e.2) c.sp }.setSpB p.1
    (bMax (c.spB p.1) p.2.2)

/-- m0 selects every byte of a line. -/
theorem lineHit_full {mask pa q : Nat} (hmask : mask = 2 ^ 64 - 1) : lineHit mask pa q ↔ pa ≤ q ∧ q < pa + 64 := by
  subst hmask
  refine ⟨fun h => ⟨h.1, h.2.1⟩, fun h => ⟨h.1, h.2, ?_⟩⟩
  rw [Nat.testBit_two_pow_sub_one, decide_eq_true (by omega)]

section
variable (t : Thread) (m : BitVec 3) (p : Nat × Vec × Word32) (c : Core)

theorem linePut_byte (q : Nat) : (linePut m (t.mask m) p c).sp.lookD q 0#8 =
    if lineHit (t.mask m) p.1 q then lineByte p.2.1 (q - p.1) else c.sp.lookD q 0#8 := by
  unfold linePut
  split
  · next hm =>
    have hf : t.mask m = 2 ^ 64 - 1 := if_pos hm
    have h := spWrite_byte c p.1 (leBytes 64 p.2.1.toNat) q
    rw [leBytes_length] at h
    refine h.trans (if_ctx_congr (lineHit_full hf).symm (fun hq => ?_) fun _ => rfl)
    obtain ⟨h1, h2, -⟩ := hq
    rw [getD_leBytes _ _ _ (by omega), lineByte, Nat.pow_mul]
  · exact lookD_lineCells ..

theorem linePut_spB (mask o : Nat) : (linePut m mask p c).spB o =
    if o / 64 = p.1 / 64 then (if m = 0#3 then p.2.2 else bMax (c.spB o) p.2.2) else c.spB o := by
  unfold linePut
  split
  · next hm => exact Core.spB_setSpB _ _ o _
  · refine (Core.spB_setSpB _ _ o _).trans (if_ctx_congr Iff.rfl (fun h => ?_) fun _ => rfl)
    simp only [Core.spB, h]

theorem linePut_code (mask : Nat) : (linePut m mask p c).code = c.code := by
  unfold linePut
  split <;> rfl
end

/-- The lines a vector store writes, at the addresses of their planes. -/
def linesAt (s : State) (typed : Bool) (n : Nat) (as : List Nat) : List (Nat × Vec × Word32) := as.zip (storedLines s typed n)

theorem lines_stored (s : State) (typed : Bool) (b : Fld) : s.th.lines b (s.offsets typed) = storedLines s typed b.spec.toNat := by
  simp [Thread.lines, storedLines, State.offsets, State.carried]

theorem storedLines_read {s s₁ : State} (h : s₁.th.unread = s.th.unread) (typed : Bool) (n : Nat) : storedLines s₁ typed n = storedLines s typed n :=
  (congrArg (fun t : Thread => (t.vR n, t.vB n) :: (if typed then t.sel else []).map fun j => (t.vT j n, t.vTb j n)) h :)

section
variable {s s₁ : State} {h : Head} {d a : Fld} {typed : Bool} {m : BitVec 3} {imm : BitVec 16} {x : Word}
  (hi : Issues s h) (he : s.th.regErr = []) (hm : m ≠ 0#3 → m.toNat < s.th.V) (hst : StrideOk s typed)
include hi he hm hst

theorem vsts_runs (hf : FieldsOk s [(.rs, a), (.vec, d)]) (hr : readS a s = .ok (x, s₁))
    (hok : ∀ v ∈ planeVAs s typed (x + imm.signExtend 64), SpOk s v 64 64 true) :
    exec (.vsts h a d typed m imm) s = .next ((s₁.onCore (linePut m (s₁.th.mask m)) (linesAt s typed d.spec.toNat
      ((planeVAs s typed (x + imm.signExtend 64)).map (·.toNat)))).finish .fall) := by
  have hrd := readS_read hr
  have ho := hrd.operated
  have he₁ := hrd.regErr.trans he
  generalize hva : x + imm.signExtend 64 = va at hok ⊢
  have hpl : spPlanes 64 64 true (planeVAs s typed va) s₁ = .ok ((planeVAs s typed va).map (·.toNat), s₁) :=
    spPlanes_ok fun v hv => ho.spOk (hok v hv)
  have hoff : s₁.offsets typed = s.offsets typed := by simp only [State.offsets, ho.carried, ho.tstride]
  have hlines : s₁.th.lines d (s.offsets typed) = storedLines s typed d.spec.toNat := by
    rw [← hoff, lines_stored, storedLines_read hrd.thread]
  obtain ⟨ys, hys⟩ := forAll_update (f := fun (p : Nat × Vec × Word32) => modCoreM (linePut m (s₁.th.mask m) p)) (fun _ _ => rfl)
    (linesAt s typed d.spec.toNat ((planeVAs s typed va).map (·.toNat))) s₁
  refine runU_done hi ?_ (by decide)
  refine (M.bind_ok (check1_ok hf)).trans ((M.bind_ok (checkMask_run hm)).trans ((M.bind_ok (planesOf_ok hst)).trans ((M.bind_ok hr).trans
    ((M.bind_ok (readV_run he₁ _)).trans ((M.bind_ok (readMask_run he₁)).trans ?_)))))
  simp only [addrOf, sext, hva, offsets_vas]
  refine (M.bind_ok hpl).trans ((M.bind_ok (getTh_run _)).trans ?_)
  rw [hlines]
  exact M.bind_ok hys
end

/-! ### What vsts leaves -/

/-- The lines of a store, pairwise apart. -/
theorem linesAt_apart {s : State} {typed : Bool} {n : Nat} {as : List Nat} (hl : as.length = (storedLines s typed n).length) (hap : apart 64 as) :
    (linesAt s typed n as).Pairwise fun p r => p.1 + 64 ≤ r.1 ∨ r.1 + 64 ≤ p.1 := by
  have hfst : (linesAt s typed n as).map (·.1) = as := List.map_fst_zip (by omega)
  have h := pairwise_of_apart hap
  rw [← hfst, List.pairwise_map] at h
  exact h

theorem mem_linesAt {s : State} {typed : Bool} {n : Nat} {as : List Nat} {p a : Nat} {l : Vec × Word32} (ha : as[p]? = some a)
    (hl : (storedLines s typed n)[p]? = some l) : (a, l) ∈ linesAt s typed n as :=
  List.mem_of_getElem? (i := p) (by rw [linesAt, List.getElem?_zip_eq_some]; exact ⟨ha, hl⟩)

theorem storedLines_length (s : State) (typed : Bool) (n : Nat) : (storedLines s typed n).length = (s.carried typed).length + 1 := by
  simp [storedLines, State.carried]

theorem vsts_stores {s s₁ : State} {h : Head} {d a : Fld} {typed : Bool} {m : BitVec 3} {imm : BitVec 16} {x : Word}
    (hi : Issues s h) (he : s.th.regErr = []) (hm : m ≠ 0#3 → m.toNat < s.th.V) (hst : StrideOk s typed) (hr : readS a s = .ok (x, s₁))
    (hf : FieldsOk s [(.rs, a), (.vec, d)]) (hok : ∀ v ∈ planeVAs s typed (x + imm.signExtend 64), SpOk s v 64 64 true) :
    let vas := planeVAs s typed (x + imm.signExtend 64)
    let own := Space.sp s.th.core
    ∃ t, exec (.vsts h a d typed m imm) s = .next t ∧ t.th.rest = s₁.th.rest ∧
      SameBytesBut s t (fun sp q => sp = own ∧ covers 64 (vas.map (·.toNat)) q) ∧
      (apart 64 (vas.map (·.toNat)) → ∀ (p : Nat) (v : Word) (l : Vec × Word32), vas[p]? = some v →
        (storedLines s typed d.spec.toNat)[p]? = some l →
        (∀ i, i < 64 → t.byteAt own (v.toNat + i) =
          if active s m (i / 8) then BitVec.ofNat 8 (l.1.toNat / 2 ^ (8 * i)) else s.byteAt own (v.toNat + i)) ∧
        (t.core s.th.core).spB v.toNat = if m = 0#3 then l.2 else bMax ((s.core s.th.core).spB v.toNat) l.2) := by
  intro vas own
  have hrd := readS_read hr
  have ho := hrd.operated
  have hlen : (vas.map (·.toNat)).length = (storedLines s typed d.spec.toNat).length := by
    rw [storedLines_length, List.length_map]
    simp [vas, planeVAs, State.carried]
  generalize hL : linesAt s typed d.spec.toNat (vas.map (·.toNat)) = L
  have hfst : L.map (·.1) = vas.map (·.toNat) := by
    rw [← hL]
    exact List.map_fst_zip (Nat.le_of_eq hlen)
  have hp : (s₁.onCore (linePut m (s₁.th.mask m)) L).th.atPort = false := by
    rw [State.onCore_th]
    exact ho.atPort.trans hi.own
  refine ⟨(s₁.onCore (linePut m (s₁.th.mask m)) L).finish .fall, hL ▸ vsts_runs hi he hm hst hf hr hok, ?_, fun sp q hq => ?_, fun hap p v l hv hl => ?_⟩
  · rw [State.finish_fall_th_rest hp, State.onCore_th]
  · rw [State.finish_fall_byteAt hp, s₁.onCore_byteAt _ _ (fun r c => linePut_code m r c _) (fun hsp r hr c => ?_), ho.byteAt]
    refine (linePut_byte ..).trans (if_neg fun hhit => hq ⟨hsp.trans (congrArg Space.sp ho.thCore), r.1, ?_, hhit.1, hhit.2.1⟩)
    rw [← hfst]
    exact List.mem_map_of_mem hr
  · have hcore : ((s₁.onCore (linePut m (s₁.th.mask m)) L).finish .fall).core s.th.core =
        L.foldl (fun c p => linePut m (s₁.th.mask m) p c) (s₁.core s.th.core) := by
      rw [(State.finish_fall_rest _ hp).core, State.onCore_core, ho.thCore, if_pos rfl]
    have hpair : L.Pairwise fun p r => p.1 + 64 ≤ r.1 ∨ r.1 + 64 ≤ p.1 := hL ▸ linesAt_apart hlen hap
    have hal : ∀ p ∈ L, p.1 % 64 = 0 := fun p hp => by
      have hp' : p.1 ∈ vas.map (·.toNat) := hfst ▸ List.mem_map_of_mem hp
      obtain ⟨v', hv', he'⟩ := List.mem_map.mp hp'
      rw [← he']
      exact (hok v' hv').aligned
    have hmem : (v.toNat, l) ∈ L := hL ▸ mem_linesAt (by rw [List.getElem?_map, hv]; rfl) hl
    refine ⟨fun i hi64 => ?_, ?_⟩
    · obtain ⟨u, -, hu, hb⟩ := foldl_alone (I := fun _ => True) (ρ := fun c : Core => c.sp.lookD (v.toNat + i) 0#8)
        (step := fun c p => linePut m (s₁.th.mask m) p c) (fun _ _ h => h) hpair hmem
        (fun r hr c _ => (linePut_byte ..).trans (if_neg fun hh => by obtain ⟨h1, h2, -⟩ := hh; omega)) (s := s₁.core s.th.core) trivial
      rw [State.byteAt, hcore, hb, linePut_byte]
      have hact : lineHit (s₁.th.mask m) v.toNat (v.toNat + i) ↔ active s m (i / 8) = true := by
        rw [lineHit, Nat.add_sub_cancel_left, mask_read hrd, active_eq s m (by omega)]
        exact ⟨fun h => h.2.2, fun h => ⟨by omega, by omega, h⟩⟩
      refine if_ctx_congr hact (fun _ => ?_) fun _ => hu.trans ?_
      · rw [Nat.add_sub_cancel_left, lineByte]
      · exact ho.byteAt (.sp s.th.core) (v.toNat + i)
    · have hlines : L.Pairwise fun p r => p.1 / 64 ≠ r.1 / 64 :=
        hpair.imp_of_mem fun {p r} hp hr hpr => by
          have h1 := hal p hp
          have h2 := hal r hr
          omega
      obtain ⟨u, -, hu, hb⟩ := foldl_alone (I := fun _ => True) (ρ := fun c : Core => c.spB v.toNat)
        (step := fun c p => linePut m (s₁.th.mask m) p c) (fun _ _ h => h) hlines hmem
        (fun r hr c _ => (linePut_spB ..).trans (if_neg fun hh => hr.elim (fun h => h hh) fun h => h hh.symm)) (s := s₁.core s.th.core) trivial
      rw [hcore, hb, linePut_spB, if_pos rfl, hu, ho.spB]

/-! ### Lines of device memory -/

/-- A line store pending. -/
def linePend (m : BitVec 3) (mask : Nat) (s : State) (p : Nat × Vec × Word32) : State :=
  s.pended p.1 (lineCells mask p.1 p.2.1) p.2.2 (decide (m = 0#3)) none

section
variable (m : BitVec 3) (mask : Nat) (s : State) (p : Nat × Vec × Word32)

theorem linePend_core : (linePend m mask s p).th.core = s.th.core := by
  rw [linePend, State.pended_th]

theorem linePend_byte (q : Nat) : (linePend m mask s p).dmByte s.th.core q =
    if lineHit mask p.1 q then lineByte p.2.1 (q - p.1) else s.dmByte s.th.core q := by
  rw [linePend, State.dmByte_eq, State.dmByte_eq, State.pended_pend, pendByte_append, State.pended_mem]
  dsimp only
  split
  · next h => rw [find_lineCells_hit _ h]; rfl
  · next h => rw [find_lineCells_miss _ h]; rfl

theorem linePend_sb (q : Nat) : (linePend m mask s p).dmSb s.th.core q =
    if p.1 / 64 = q / 64 then sbAfter (s.dmSb s.th.core q) (decide (m = 0#3)) p.2.2 else s.dmSb s.th.core q :=
  State.dmSb_pended ..
end

section
variable (m : BitVec 3) (mask : Nat) (s : State) (L : List (Nat × Vec × Word32))

theorem linePends_mem : (L.foldl (linePend m mask) s).mem = s.mem :=
  foldl_untouched (I := fun _ => True) (ρ := fun s : State => s.mem) (fun _ _ h => h) (fun _ _ _ _ => State.pended_mem ..) trivial

theorem linePends_th : (L.foldl (linePend m mask) s).th = { s.th with outSt := s.th.outSt + L.length } := by
  induction L generalizing s with
  | nil => rfl
  | cons p L ih =>
    rw [List.foldl_cons, ih, linePend, State.pended_th, List.length_cons, Nat.add_assoc, Nat.add_comm 1]
end

theorem storePlanes_lines (m : BitVec 3) (mask : Nat) (pas : List Nat) (ls : List (Vec × Word32)) (s : State) :
    storePlanes .plain 64 pas ((pas.zip ls).map fun p => (lineCells mask p.1 p.2.1, p.2.2, decide (m = 0#3))) s =
      .ok ((), (pas.zip ls).foldl (linePend m mask) s) := by
  obtain ⟨ys, hys⟩ := forAll_update (f := fun (p : Nat × List Host.Cell × Word32 × Bool) => devPend p.1 p.2.1 p.2.2.1 p.2.2.2 none)
    (fun _ _ => devPend_run ..) (pas.zip ((pas.zip ls).map fun p => (lineCells mask p.1 p.2.1, p.2.2, decide (m = 0#3)))) s
  rw [zip_map_zip, List.foldl_map] at hys
  simp only [storePlanes, show isAcq .plain = false from rfl, Bool.false_eq_true, if_false, M.bind_run, zip_map_zip, hys, M.pure_run]
  rfl

section
variable {s s₁ s₂ : State} {h : Head} {d a : Fld} {typed : Bool} {m : BitVec 3} {imm : BitVec 16} {x : Word} {pas : List Nat}
  (hi : Issues s h) (he : s.th.regErr = []) (hm : m ≠ 0#3 → m.toNat < s.th.V) (hst : StrideOk s typed) (hr : readOps [a] s = .ok ([x], s₁))
  (hf : FieldsOk s [(.rs, a), (.vec, d)]) (hre : Reaches 64 .write s₁ (planeVAs s₁ typed (x + imm.signExtend 64)) pas s₂)
include hi he hm hst hr hf hre

theorem vstd_runs : exec (.vstd h a d typed m imm) s =
    .next (((linesAt s typed d.spec.toNat pas).foldl (linePend m (s.th.mask m)) s₂).finish .fall) := by
  have hrd := readOps_read hr
  have ho := hrd.operated
  have he₁ := hrd.regErr.trans he
  have hth : s₂.th = s₁.th := (reaches_sameThreads hre).th
  have hrch := reachPlanes_ok hre (ho.atPort.trans hi.own)
  rw [ho.planeVAs] at hrch
  have hoff : s₁.offsets typed = s.offsets typed := by simp only [State.offsets, ho.carried, ho.tstride]
  have hlines : s₂.th.lines d (s.offsets typed) = storedLines s typed d.spec.toNat := by
    rw [hth, ← hoff, lines_stored, storedLines_read hrd.thread]
  refine runU_done hi ?_ (by decide)
  refine (M.bind_ok (check1_ok hf)).trans ((M.bind_ok (checkMask_run hm)).trans ((M.bind_ok (planesOf_ok hst)).trans ((M.bind_ok hr).trans
    ((M.bind_ok (readV_run he₁ _)).trans ((M.bind_ok (readMask_run he₁)).trans ?_)))))
  simp only [addrOf, sext, List.getD_cons_zero, offsets_vas]
  refine (M.bind_ok hrch).trans ((M.bind_ok (getTh_run _)).trans ?_)
  rw [hlines, mask_read hrd]
  exact M.bind_ok (storePlanes_lines m (s.th.mask m) pas _ s₂)

theorem vstd_stores :
    let n := d.spec.toNat
    let c := s.th.core
    ∃ t, exec (.vstd h a d typed m imm) s = .next t ∧ t.mem = s₂.mem ∧ t.th.outSt = s.th.outSt + pas.length ∧
      (∀ q, ¬covers 64 pas q → t.dmByte c q = s₂.dmByte c q) ∧
      (apart 64 pas → ∀ (p pa : Nat) (l : Vec × Word32), pas[p]? = some pa → (storedLines s typed n)[p]? = some l →
        (∀ i, i < 64 → t.dmByte c (pa + i) =
          if active s m (i / 8) then BitVec.ofNat 8 (l.1.toNat / 2 ^ (8 * i)) else s₂.dmByte c (pa + i)) ∧
        t.dmSb c pa = (let old := s₂.dmSb c pa
          if m = 0#3 then mkSb l.2 true 0#2 false
          else mkSb (bMax (sbBound old) l.2) true (sbSev old) (sbPoison old))) := by
  intro n c
  have hrd := readOps_read hr
  have ho := hrd.operated
  have hth : s₂.th = s₁.th := (reaches_sameThreads hre).th
  have hp₂ : s₂.th.atPort = false := hth ▸ ho.atPort.trans hi.own
  have hc : s₂.th.core = c := (congrArg (fun t : Thread => t.core) hth).trans ho.thCore
  have hlen : pas.length = (storedLines s typed n).length := by
    rw [storedLines_length, reaches_length hre, ho.planeVAs]
    simp [planeVAs, State.carried]
  generalize hL : linesAt s typed n pas = L
  have hfst : L.map (·.1) = pas := by
    rw [← hL]
    exact List.map_fst_zip (Nat.le_of_eq hlen)
  have hp : (L.foldl (linePend m (s.th.mask m)) s₂).th.atPort = false := by
    rw [linePends_th]
    exact hp₂
  have hrest := State.finish_fall_rest _ hp
  have hI : ∀ (u : State) p, u.th.core = c → (linePend m (s.th.mask m) u p).th.core = c := fun u p h => (linePend_core ..).trans h
  refine ⟨(L.foldl (linePend m (s.th.mask m)) s₂).finish .fall, hL ▸ vstd_runs hi he hm hst hr hf hre, ?_, ?_, fun q hq => ?_,
    fun hap p pa l hpa hl => ?_⟩
  · rw [hrest.mem, linePends_mem]
  · rw [State.finish_fall_outSt hp, linePends_th]
    have hl' : L.length = pas.length := by rw [← hfst, List.length_map]
    rw [hl']
    exact congrArg (· + pas.length) ((congrArg (fun t : Thread => t.outSt) hth).trans ho.outSt)
  · rw [hrest.dmByte]
    refine foldl_untouched (ρ := fun u : State => u.dmByte c q) hI (fun r hr u hu => ?_) hc
    rw [← hu]
    refine (linePend_byte ..).trans (if_neg fun hh => hq ⟨r.1, ?_, hh.1, hh.2.1⟩)
    rw [← hfst]
    exact List.mem_map_of_mem hr
  · have hpair : L.Pairwise fun p r => p.1 + 64 ≤ r.1 ∨ r.1 + 64 ≤ p.1 := hL ▸ linesAt_apart hlen hap
    have hmem : (pa, l) ∈ L := hL ▸ mem_linesAt hpa hl
    have hal : ∀ p ∈ L, p.1 % 64 = 0 := fun p hp => reaches_aligned hre (by decide) p.1 (hfst ▸ List.mem_map_of_mem hp)
    refine ⟨fun i hi64 => ?_, ?_⟩
    · obtain ⟨u, huc, hu, hb⟩ := foldl_alone (ρ := fun u : State => u.dmByte c (pa + i)) hI hpair hmem
        (fun r hr u hu => by rw [← hu]; exact (linePend_byte ..).trans (if_neg fun hh => by obtain ⟨h1, h2, -⟩ := hh; omega)) hc
      have hact : lineHit (s.th.mask m) pa (pa + i) ↔ active s m (i / 8) = true := by
        rw [lineHit, Nat.add_sub_cancel_left, active_eq s m (by omega)]
        exact ⟨fun h => h.2.2, fun h => ⟨by omega, by omega, h⟩⟩
      rw [hrest.dmByte, hb]
      rw [← hu, ← huc]
      refine (linePend_byte ..).trans (if_ctx_congr hact (fun _ => ?_) fun _ => rfl)
      rw [Nat.add_sub_cancel_left, lineByte]
    · have hlines : L.Pairwise fun p r => p.1 / 64 ≠ r.1 / 64 :=
        hpair.imp_of_mem fun {p r} hp hr hpr => by
          have h1 := hal p hp
          have h2 := hal r hr
          omega
      obtain ⟨u, huc, hu, hb⟩ := foldl_alone (ρ := fun u : State => u.dmSb c pa) hI hlines hmem
        (fun r hr u hu => by
          rw [← hu]
          exact (linePend_sb ..).trans (if_neg fun hh => hr.elim (fun h => h hh.symm) fun h => h hh)) hc
      rw [hrest.dmSb, hb, ← hu, ← huc]
      refine (linePend_sb ..).trans ((if_pos rfl).trans ?_)
      unfold sbAfter
      by_cases hm0 : m = 0#3
      · rw [if_pos (decide_eq_true hm0)]
        exact (if_pos hm0).symm
      · rw [if_neg (by simpa using hm0)]
        exact (if_neg hm0).symm
end

end Sys2Proof.Machine
end

section
/-!
Typed accesses of whole lines (R133, R298), and the claims about vector loads and stores.
-/
namespace Sys2Proof.Machine
open Sys2Proof.Claims

theorem vectorScratchpad : VectorScratchpad := fun _ _ _ _ _ _ _ _ _ hi he hm hst hr =>
  ⟨vlds_loads hi he hm hst hr, vsts_stores hi he hm hst hr⟩

theorem vectorDevice : VectorDevice := fun _ _ _ _ _ _ _ _ _ _ _ hi he hm hst hr =>
  ⟨vldd_loads hi he hm hst hr, vstd_stores hi he hm hst hr⟩

/-! ### Whole lines -/

/-- A register loaded whole holds the line. -/
theorem line_whole {s : State} {old new : Nat → Vec} {oldB newB : Nat → Word32} {n : Nat} {val : Nat → Nat} {b : Word32} (f : Nat → Byte)
    (h : LineLoaded old oldB new newB n (active s 0#3) 0#3 val b) (hv : ∀ i, numAt (fun k => f (8 * i + k)) 8 = val i) :
    (new n).toNat = numAt f 64 ∧ newB n = b := by
  obtain ⟨hl, hb⟩ := h
  have hx : new n = BitVec.ofNat 512 (numAt f 64) := eq_of_dwords fun i hi => (hl i hi).trans ((hv i).symm.trans (laneN_line f hi).symm)
  have hlt : numAt f 64 < 2 ^ 512 := Nat.lt_of_lt_of_le (numAt_lt f 64) (Nat.pow_le_pow_right (by decide) (show 8 * 64 ≤ 512 by decide))
  exact ⟨by rw [hx, BitVec.toNat_ofNat, Nat.mod_eq_of_lt hlt], hb⟩

/-- A register loaded with zeros. -/
theorem line_zero {s : State} {old new : Nat → Vec} {oldB newB : Nat → Word32} {n : Nat} {b : Word32}
    (h : LineLoaded old oldB new newB n (active s 0#3) 0#3 (fun _ => 0) b) : (new n).toNat = 0 ∧ newB n = b := by
  obtain ⟨hl, hb⟩ := h
  have hx : new n = 0#512 := eq_of_dwords fun i hi => (hl i hi).trans (by
    rw [show active s 0#3 i = true from rfl, if_pos rfl, laneN, BitVec.toNat_ofNat, Nat.zero_mod, Nat.zero_div, Nat.zero_mod])
  exact ⟨by rw [hx, BitVec.toNat_ofNat, Nat.zero_mod], hb⟩

/-- A memory that holds the bytes of a register. -/
theorem stored_whole {x : Vec} {f : Nat → Byte} (h : ∀ i, i < 64 → f i = BitVec.ofNat 8 (x.toNat / 2 ^ (8 * i))) :
    leNat ((List.range 64).map f) = x.toNat := by
  have hx : x.toNat < 2 ^ (8 * 64) := x.isLt
  refine (leNat_of_bytes fun i hi => (h i hi).trans ?_).trans (Nat.mod_eq_of_lt hx)
  rw [getD_leBytes _ _ _ hi, Nat.pow_mul]

theorem sel_nodup (t : Thread) : t.sel.Nodup := List.nodup_range.filter _

/-- Where the plane of a tangent stands among those of an access. -/
theorem idxOf?_of_getElem? {l : List Nat} (hn : l.Nodup) {i j : Nat} (h : l[i]? = some j) : l.idxOf? j = some i := by
  obtain ⟨hi, hj⟩ := List.getElem?_eq_some_iff.mp h
  exact List.idxOf?_eq_some_iff.mpr ⟨hi, hj, fun k hk hkj => absurd ((hn.getElem_inj_iff).mp (hkj.trans hj.symm)) (Nat.ne_of_lt hk)⟩

section
variable {s : State} {va : Word} {n i j : Nat} (h : s.th.sel[i]? = some j)
include h

/-- The plane of a tangent, and what a typed store has for it. -/
theorem planeVAs_tangent : (planeVAs s true va)[i + 1]? = some (va + BitVec.ofNat 64 (j + 1) * s.th.tstride) := by
  rw [planeVAs, if_pos rfl, List.getElem?_cons_succ, List.getElem?_map, h]
  rfl

theorem storedLines_tangent : (storedLines s true n)[i + 1]? = some (s.th.vT j n, s.th.vTb j n) := by
  rw [storedLines, if_pos rfl, List.getElem?_cons_succ, List.getElem?_map, h]
  rfl
end

/-! ### Every plane of a typed access -/

section
variable {s s₁ s₂ : State} {h : Head} {d a : Fld} {imm : BitVec 16} {x : Word} {pas : List Nat}
  (hi : Issues s h) (he : s.th.regErr = []) (hz : s.th.tstride ≠ 0#64)
include hi he hz

theorem vlds_planes (hf : FieldsOk s [(.vec, d), (.rs, a)]) (hr : readS a s = .ok (x, s₁))
    (hok : ∀ v ∈ planeVAs s true (x + imm.signExtend 64), SpOk s v 64 64 false) :
    let va := x + imm.signExtend 64
    let plane := fun (j : Nat) => (va + BitVec.ofNat 64 (j + 1) * s.th.tstride).toNat
    ∃ t, exec (.vlds h d a true 0#3 imm) s = .next t ∧
      (t.th.vR d.spec.toNat).toNat = valueAt s (.sp s.th.core) va.toNat 64 ∧
      ∀ j, j < s.th.k →
        ((t.th.vT j d.spec.toNat).toNat = if j ∈ s.th.sel then valueAt s (.sp s.th.core) (plane j) 64 else 0) ∧
        t.th.vTb j d.spec.toNat = if j ∈ s.th.sel then (s.core s.th.core).spB (plane j) else 0#32 := by
  intro va plane
  obtain ⟨t, hex, -, hline, htans⟩ := vlds_loads hi he (fun h => absurd rfl h) (fun _ _ => hz) hr hf hok
  refine ⟨t, hex, (line_whole (fun k => s.byteAt (.sp s.th.core) (va.toNat + k)) hline fun i => valueAt_dword s _ va.toNat i).1, fun j hj => ?_⟩
  have ht := htans j hj
  by_cases hsel : j ∈ s.th.sel
  · simp only [hsel, and_true, if_true] at ht ⊢
    exact line_whole (fun k => s.byteAt (.sp s.th.core) (plane j + k)) ht fun i => valueAt_dword s _ (plane j) i
  · simp only [hsel, and_false, if_false] at ht ⊢
    exact line_zero ht

theorem vsts_planes (hf : FieldsOk s [(.rs, a), (.vec, d)]) (hr : readS a s = .ok (x, s₁))
    (hok : ∀ v ∈ planeVAs s true (x + imm.signExtend 64), SpOk s v 64 64 true)
    (hap : apart 64 ((planeVAs s true (x + imm.signExtend 64)).map (·.toNat))) :
    let va := x + imm.signExtend 64
    let plane := fun (j : Nat) => (va + BitVec.ofNat 64 (j + 1) * s.th.tstride).toNat
    ∃ t, exec (.vsts h a d true 0#3 imm) s = .next t ∧
      valueAt t (.sp s.th.core) va.toNat 64 = (s.th.vR d.spec.toNat).toNat ∧
      (∀ j, j ∈ s.th.sel → valueAt t (.sp s.th.core) (plane j) 64 = (s.th.vT j d.spec.toNat).toNat ∧
        (t.core s.th.core).spB (plane j) = s.th.vTb j d.spec.toNat) ∧
      SameBytesBut s t (fun m q => m = .sp s.th.core ∧ covers 64 ((planeVAs s true va).map (·.toNat)) q) := by
  intro va plane
  obtain ⟨t, hex, -, hbut, hlines⟩ := vsts_stores hi he (fun h => absurd rfl h) (fun _ _ => hz) hr hf hok
  refine ⟨t, hex, stored_whole (hlines hap 0 va _ rfl rfl).1, fun j hj => ?_, hbut⟩
  obtain ⟨i, hget⟩ := List.mem_iff_getElem?.mp hj
  obtain ⟨hbytes, hbound⟩ := hlines hap (i + 1) _ _ (planeVAs_tangent hget) (storedLines_tangent hget)
  exact ⟨stored_whole hbytes, hbound⟩

theorem vldd_planes (hf : FieldsOk s [(.vec, d), (.rs, a)]) (hr : readOps [a] s = .ok ([x], s₁))
    (hre : Reaches 64 .read s₁ (planeVAs s true (x + imm.signExtend 64)) pas s₂) :
    ∃ t, exec (.vldd h d a true 0#3 imm) s = .next t ∧
      (t.th.vR d.spec.toNat).toNat = s₂.dmNat s.th.core (pas.getD 0 0) 64 ∧
      ∀ i j, s.th.sel[i]? = some j → (t.th.vT j d.spec.toNat).toNat = s₂.dmNat s.th.core (pas.getD (i + 1) 0) 64 := by
  have hlen := reaches_length hre
  rw [← (readOps_read hr).operated.planeVAs] at hre
  obtain ⟨t, hex, -, hline, htans⟩ := vldd_loads hi he (fun h => absurd rfl h) (fun _ _ => hz) hr hf hre
  have hat : ∀ p, p < (planeVAs s true (x + imm.signExtend 64)).length → pas[p]? = some (pas.getD p 0) := fun p hp => by
    rw [List.getElem?_eq_getElem (hlen ▸ hp), List.getD_eq_getElem _ _ (hlen ▸ hp)]
  refine ⟨t, hex, (line_whole (fun k => s₂.dmByte s.th.core (pas.getD 0 0 + k)) (hline _ (hat 0 (Nat.zero_lt_succ _)))
    fun i => dmNat_dword s₂ _ _ i).1, fun i j hij => ?_⟩
  have ht := htans j (mem_sel (List.mem_of_getElem? hij))
  have hpa := hat (i + 1) (List.getElem?_eq_some_iff.mp (planeVAs_tangent hij)).1
  simp only [if_true, idxOf?_of_getElem? (sel_nodup s.th) hij, hpa] at ht
  exact (line_whole (fun k => s₂.dmByte s.th.core (pas.getD (i + 1) 0 + k)) ht fun l => dmNat_dword s₂ _ _ l).1

theorem vstd_planes (hf : FieldsOk s [(.rs, a), (.vec, d)]) (hr : readOps [a] s = .ok ([x], s₁))
    (hre : Reaches 64 .write s₁ (planeVAs s true (x + imm.signExtend 64)) pas s₂) (hap : apart 64 pas) :
    ∃ t, exec (.vstd h a d true 0#3 imm) s = .next t ∧
      t.dmNat s.th.core (pas.getD 0 0) 64 = (s.th.vR d.spec.toNat).toNat ∧
      ∀ i j, s.th.sel[i]? = some j → t.dmNat s.th.core (pas.getD (i + 1) 0) 64 = (s.th.vT j d.spec.toNat).toNat := by
  have hlen := reaches_length hre
  rw [← (readOps_read hr).operated.planeVAs] at hre
  obtain ⟨t, hex, -, -, -, hlines⟩ := vstd_stores hi he (fun h => absurd rfl h) (fun _ _ => hz) hr hf hre
  have hat : ∀ p, p < (planeVAs s true (x + imm.signExtend 64)).length → pas[p]? = some (pas.getD p 0) := fun p hp => by
    rw [List.getElem?_eq_getElem (hlen ▸ hp), List.getD_eq_getElem _ _ (hlen ▸ hp)]
  refine ⟨t, hex, stored_whole (hlines hap 0 _ _ (hat 0 (Nat.zero_lt_succ _)) rfl).1, fun i j hij => ?_⟩
  have hpa := hat (i + 1) (List.getElem?_eq_some_iff.mp (planeVAs_tangent hij)).1
  exact stored_whole (hlines hap (i + 1) _ _ hpa (storedLines_tangent hij)).1
end

theorem vectorPlanes : VectorPlanes := fun _ _ _ _ _ _ _ _ _ hi he _ hz =>
  ⟨vlds_planes hi he hz, vsts_planes hi he hz, vldd_planes hi he hz, vstd_planes hi he hz⟩

/-- Settles O46: a vector access is its planes, each read or written whole or by the bytes its mask selects. -/
theorem vectorAccess : Obligations.VectorAccess := ⟨vectorScratchpad, vectorDevice, vectorPlanes⟩

end Sys2Proof.Machine
end

section
/-!
Rounding on a scale (R21): the place of a strictly rising sequence of numbers that a mode rounds a number to.
-/
namespace Sys2Proof.Machine
open Sys2Proof.Claims

theorem mode_cases (rm : RMode) (s : Bool) : towardZero rm s ∨ awayFromZero rm s ∨ rm = .rne := by
  cases rm <;> cases s <;> simp [towardZero, awayFromZero]

theorem not_away_of_toward {rm : RMode} {s : Bool} (h : towardZero rm s) : ¬awayFromZero rm s ∧ rm ≠ .rne := by
  cases rm <;> cases s <;> simp [towardZero, awayFromZero] at h ⊢

theorem ne_rne_of_away {rm : RMode} {s : Bool} (h : awayFromZero rm s) : rm ≠ .rne := by
  cases rm <;> cases s <;> simp [awayFromZero] at h ⊢

/-- A number v lies between the neighbours lo and hi, at the places N and N + 1 of a scale, and is rounded to place P. -/
structure Chosen (rm : RMode) (s : Bool) (lo hi v : ℝ) (N P : ℕ) : Prop where
  ge : lo ≤ v
  lt : v < hi
  step : P = N ∨ P = N + 1
  toward : towardZero rm s → P = N
  away : awayFromZero rm s → (P = N ↔ v = lo)
  near : rm = .rne → (P = N + 1 ↔ lo + hi < 2 * v ∨ (lo + hi = 2 * v ∧ N % 2 = 1))

theorem Chosen.exact_iff {rm : RMode} {s : Bool} {lo hi v : ℝ} {N P : ℕ} (h : Chosen rm s lo hi v N P) (hv : v = lo) : P = N := by
  rcases mode_cases rm s with ht | ha | hn
  · exact h.toward ht
  · exact (h.away ha).mpr hv
  · refine h.step.resolve_right fun hP => ?_
    have hlt := h.lt
    rcases (h.near hn).mp hP with h1 | ⟨h1, -⟩ <;> linarith

/-- A choice between two neighbours on another scale, with an even number of places below. -/
theorem Chosen.scale {rm : RMode} {s : Bool} {lo hi v c : ℝ} {N P k : ℕ} (h : Chosen rm s lo hi v N P) (hc : 0 < c) (hk : k % 2 = 0) :
    Chosen rm s (lo * c) (hi * c) (v * c) (k + N) (k + P) where
  ge := mul_le_mul_of_nonneg_right h.ge hc.le
  lt := mul_lt_mul_of_pos_right h.lt hc
  step := h.step.imp (fun h => by omega) fun h => by omega
  toward ht := by rw [h.toward ht]
  away ha := by rw [mul_left_inj' hc.ne', ← h.away ha, Nat.add_left_cancel_iff]
  near hn := by
    have h2 : 2 * (v * c) = 2 * v * c := by ring
    have hN : (k + N) % 2 = N % 2 := by omega
    rw [h2, ← add_mul, mul_lt_mul_iff_left₀ hc, mul_left_inj' hc.ne', hN, Nat.add_assoc, Nat.add_left_cancel_iff, h.near hn]

/-- The place of a rising scale that a mode rounds a number to. -/
structure RoundedPlace (V : ℕ → ℝ) (rm : RMode) (s : Bool) (v : ℝ) (P : ℕ) : Prop where
  toward : towardZero rm s → ∀ M, M ≤ P ↔ V M ≤ v
  away : awayFromZero rm s → ∀ M, P ≤ M ↔ v ≤ V M
  near : rm = .rne → ∀ M, M < P ↔ V M + V (M + 1) < 2 * v ∨ (V M + V (M + 1) = 2 * v ∧ M % 2 = 1)

section
variable {V : ℕ → ℝ} (hV : StrictMono V) {rm : RMode} {s : Bool} {v : ℝ} {N P : ℕ}
include hV

theorem Chosen.place (h : Chosen rm s (V N) (V (N + 1)) v N P) : RoundedPlace V rm s v P where
  toward ht M := by
    rw [h.toward ht]
    refine ⟨fun hM => (hV.monotone hM).trans h.ge, fun hM => ?_⟩
    by_contra hN
    have := hV.monotone (show N + 1 ≤ M by omega)
    linarith [h.lt]
  away ha M := by
    rcases h.step with hP | hP
    · have hv := (h.away ha).mp hP
      rw [hP, hv, hV.le_iff_le]
    · rw [hP]
      refine ⟨fun hM => h.lt.le.trans (hV.monotone hM), fun hM => ?_⟩
      by_contra hN
      have := hV.monotone (show M ≤ N by omega)
      have hv := (h.away ha).mpr (by linarith [h.ge])
      omega
  near hn M := by
    have hge := h.ge
    have hlt := h.lt
    have h1 := hV (Nat.lt_add_one M)
    rcases lt_trichotomy M N with hM | rfl | hM
    · have h2 := hV.monotone (show M + 1 ≤ N by omega)
      exact ⟨fun _ => .inl (by linarith), fun _ => by have := h.step; omega⟩
    · rw [← h.near hn]
      have := h.step
      omega
    · have h2 := hV.monotone (show N + 1 ≤ M by omega)
      refine ⟨fun hP => absurd hP (by have := h.step; omega), fun hs => ?_⟩
      rcases hs with hs | ⟨hs, -⟩ <;> linarith

variable (h : RoundedPlace V rm s v P)
include h

/-- Rounding does not pass a number of the scale. -/
theorem RoundedPlace.le_of_le {M : ℕ} (hv : v ≤ V M) : P ≤ M := by
  have h1 := hV (Nat.lt_add_one M)
  rcases mode_cases rm s with ht | ha | hn
  · by_contra hM
    have := (h.toward ht (M + 1)).mp (by omega)
    linarith
  · exact (h.away ha M).mpr hv
  · by_contra hM
    rcases (h.near hn M).mp (by omega) with hs | ⟨hs, -⟩ <;> linarith

theorem RoundedPlace.greatest (ht : towardZero rm s) : V P ≤ v ∧ ∀ M, V M ≤ v → V M ≤ V P :=
  ⟨(h.toward ht P).mp le_rfl, fun M hM => hV.monotone ((h.toward ht M).mpr hM)⟩

theorem RoundedPlace.least (ha : awayFromZero rm s) : v ≤ V P ∧ ∀ M, v ≤ V M → V P ≤ V M :=
  ⟨(h.away ha P).mp le_rfl, fun M hM => hV.monotone ((h.away ha M).mpr hM)⟩

/-- The number rounded to is the closest, and the even one of two equally close. -/
theorem RoundedPlace.closest (hn : rm = .rne) (M : ℕ) : |V P - v| ≤ |V M - v| ∧ (|V P - v| = |V M - v| → M ≠ P → P % 2 = 0) := by
  have hself := h.near hn P
  have hdown : ∀ Q, P = Q + 1 → V Q + V P < 2 * v ∨ (V Q + V P = 2 * v ∧ Q % 2 = 1) := fun Q hQ => by
    have := (h.near hn Q).mp (by omega)
    rwa [← hQ] at this
  have hup := (not_congr hself).mp (lt_irrefl P)
  push Not at hup
  obtain ⟨hup, hodd⟩ := hup
  rcases lt_trichotomy M P with hM | rfl | hM
  · obtain ⟨Q, rfl⟩ : ∃ Q, P = Q + 1 := ⟨P - 1, by omega⟩
    have hMQ := hV.monotone (show M ≤ Q by omega)
    have hQP := hV (Nat.lt_add_one Q)
    have hcases := hdown Q rfl
    have hle : V Q + V (Q + 1) ≤ 2 * v := hcases.elim le_of_lt fun h => h.1.le
    have hvM : |V M - v| = v - V M := by rw [abs_sub_comm, abs_of_nonneg (by linarith)]
    rw [hvM]
    refine ⟨abs_le.mpr ⟨by linarith, by linarith⟩, fun heq _ => ?_⟩
    rcases abs_cases (V (Q + 1) - v) with ⟨ha, -⟩ | ⟨ha, -⟩ <;> rw [ha] at heq
    · rcases hcases with h1 | ⟨-, h1⟩
      · linarith
      · omega
    · linarith
  · exact ⟨le_rfl, fun _ h => absurd rfl h⟩
  · have hPM := hV.monotone (show P + 1 ≤ M by omega)
    have hPP := hV (Nat.lt_add_one P)
    have hvM : |V M - v| = V M - v := abs_of_nonneg (by linarith)
    rw [hvM]
    refine ⟨abs_le.mpr ⟨by linarith, by linarith⟩, fun heq _ => ?_⟩
    rcases abs_cases (V P - v) with ⟨ha, -⟩ | ⟨ha, -⟩ <;> rw [ha] at heq
    · linarith
    · have := hodd (by linarith)
      omega
end

/-! ### The integers as a scale -/

/-- Numbers that no multiple of a half separates. -/
def SameHalf (x y : ℝ) : Prop := ∀ k : ℕ, ((k : ℝ) ≤ 2 * x ↔ (k : ℝ) ≤ 2 * y) ∧ (2 * x ≤ k ↔ 2 * y ≤ k)

theorem Chosen.of_sameHalf {rm : RMode} {s : Bool} {x y : ℝ} {N P : ℕ} (h : Chosen rm s N (N + 1) x N P) (hxy : SameHalf x y) :
    Chosen rm s N (N + 1) y N P := by
  have h0 := hxy (2 * N)
  have h1 := hxy (2 * N + 1)
  have h2 := hxy (2 * N + 2)
  push_cast at h0 h1 h2
  obtain ⟨h0g, h0l⟩ := h0
  obtain ⟨h1g, h1l⟩ := h1
  obtain ⟨h2g, -⟩ := h2
  refine { ge := ?_, lt := ?_, step := h.step, toward := h.toward, away := fun ha => ?_, near := fun hn => ?_ }
  · have := h0g.mp (by linarith [h.ge])
    linarith
  · by_contra hy
    have := h2g.mpr (by linarith)
    linarith [h.lt]
  · rw [h.away ha]
    constructor <;> intro he
    · have hg := h0g.mp (by linarith)
      have hl := h0l.mp (by linarith)
      linarith
    · have hg := h0g.mpr (by linarith)
      have hl := h0l.mpr (by linarith)
      linarith
  · rw [h.near hn]
    have hlt : (N : ℝ) + (N + 1) < 2 * x ↔ (N : ℝ) + (N + 1) < 2 * y := by
      have := not_congr h1l
      rw [not_le, not_le] at this
      constructor <;> intro he
      · linarith [this.mp (by linarith)]
      · linarith [this.mpr (by linarith)]
    have heq : (N : ℝ) + (N + 1) = 2 * x ↔ (N : ℝ) + (N + 1) = 2 * y := by
      constructor <;> intro he
      · have hg := h1g.mp (by linarith)
        have hl := h1l.mp (by linarith)
        linarith
      · have hg := h1g.mpr (by linarith)
        have hl := h1l.mpr (by linarith)
        linarith
    rw [hlt, heq]

end Sys2Proof.Machine
end

section
/-!
Magnitudes m · 2^e and their rounding to an integer (rndShift, rndAt; R21).
-/
namespace Sys2Proof.Machine
open Sys2Proof.Claims

/-! ### Magnitudes -/

theorem mag_zero (e : ℤ) : mag 0 e = 0 := by rw [mag, Nat.cast_zero, zero_mul]

theorem mag_pos {m : ℕ} (h : 0 < m) (e : ℤ) : 0 < mag m e := mul_pos (Nat.cast_pos.mpr h) (zpow_pos two_pos e)

theorem mag_add_exp (m : ℕ) (e k : ℤ) : mag m (e + k) = mag m e * 2 ^ k := by
  rw [mag, mag, mul_assoc, zpow_add₀ two_ne_zero]

theorem mag_two_pow_mul (m k : ℕ) (e : ℤ) : mag (2 ^ k * m) e = mag m (e + k) := by
  rw [mag_add_exp, mag, mag, zpow_natCast]
  push_cast
  ring

theorem mag_mul (m n : ℕ) (e k : ℤ) : mag (m * n) (e + k) = mag m e * mag n k := by
  rw [mag, mag, mag, zpow_add₀ two_ne_zero]
  push_cast
  ring

theorem mag_le {m n : ℕ} (h : m ≤ n) (e : ℤ) : mag m e ≤ mag n e :=
  mul_le_mul_of_nonneg_right (Nat.cast_le.mpr h) (zpow_pos two_pos e).le

theorem mag_lt {m n : ℕ} (h : m < n) (e : ℤ) : mag m e < mag n e :=
  mul_lt_mul_of_pos_right (Nat.cast_lt.mpr h) (zpow_pos two_pos e)

/-- The leading bit of a magnitude. -/
theorem mag_log2 {m : ℕ} (h : 0 < m) (e : ℤ) : mag 1 (Nat.log2 m + e) ≤ mag m e ∧ mag m e < mag 1 (Nat.log2 m + e + 1) := by
  have hpow : ∀ k : ℕ, mag 1 (k + e) = mag (2 ^ k) e := fun k => by rw [add_comm, ← mag_two_pow_mul, mul_one]
  rw [show (Nat.log2 m : ℤ) + e + 1 = ((Nat.log2 m + 1 : ℕ) : ℤ) + e by push_cast; ring, hpow, hpow]
  exact ⟨mag_le (Nat.log2_self_le h.ne') e, mag_lt Nat.lt_log2_self e⟩

/-! ### Rounding to an integer -/

/-- A part of a step against none and against its half. -/
theorem part_compare {Q R D : ℕ} (hD : 0 < D) :
    let x := ((D * Q + R : ℕ) : ℝ) / D
    (x = Q ↔ R = 0) ∧ ((Q : ℝ) + (Q + 1) < 2 * x ↔ D < 2 * R) ∧ ((Q : ℝ) + (Q + 1) = 2 * x ↔ D = 2 * R) ∧ (Q : ℝ) ≤ x ∧ (R < D → x < Q + 1) := by
  intro x
  have hD' : (0 : ℝ) < D := Nat.cast_pos.mpr hD
  have hx : x = Q + R / D := by
    simp only [x]
    push_cast
    field_simp
  have hR : (0 : ℝ) ≤ R / D := by positivity
  have h2 : 2 * (Q + (R : ℝ) / D) = 2 * Q + (2 * R : ℕ) / D := by push_cast; ring
  have h1 : ((Q : ℝ) + (Q + 1) < 2 * x ↔ D < 2 * R) := by
    rw [hx, h2, show (Q : ℝ) + (Q + 1) = 2 * Q + 1 by ring, add_lt_add_iff_left, one_lt_div hD', Nat.cast_lt]
  have h3 : ((Q : ℝ) + (Q + 1) = 2 * x ↔ D = 2 * R) := by
    rw [hx, h2, show (Q : ℝ) + (Q + 1) = 2 * Q + 1 by ring, add_right_inj, eq_div_iff hD'.ne', one_mul, Nat.cast_inj]
  refine ⟨?_, h1, h3, by rw [hx]; linarith, fun hlt => ?_⟩
  · rw [hx, add_eq_left, div_eq_zero_iff]
    simp [hD.ne']
  · rw [hx, add_lt_add_iff_left, div_lt_one hD', Nat.cast_lt]
    exact hlt

/-- A number rounded to an integer, with the mark that it was none. -/
def RoundedInt (rm : RMode) (s : Bool) (x : ℝ) (r : ℕ × Bool) : Prop :=
  ∃ N : ℕ, Chosen rm s N (N + 1) x N r.1 ∧ (r.2 = true ↔ x ≠ N)

/-- Whether a part R of a step D rounds up, from place Q. -/
def roundsUp (rm : RMode) (s : Bool) (Q R D : ℕ) : Bool :=
  match rm with
  | .rne => decide (D < 2 * R) || (decide (D = 2 * R) && decide (Q % 2 = 1))
  | .rtz => false
  | .rup => !s
  | .rdn => s

theorem rndShift_eq (rm : RMode) (s : Bool) (m sh : ℕ) :
    rndShift rm s m sh = if m % 2 ^ sh = 0 then (m / 2 ^ sh, false)
      else (if roundsUp rm s (m / 2 ^ sh) (m % 2 ^ sh) (2 ^ sh) then m / 2 ^ sh + 1 else m / 2 ^ sh, true) := by
  have hr : m - (m / 2 ^ sh) <<< sh = m % 2 ^ sh := by
    rw [Nat.shiftLeft_eq, Nat.mod_eq_sub_div_mul]
  simp only [rndShift, Nat.shiftRight_eq_div_pow, hr]
  refine if_ctx_congr Iff.rfl (fun _ => rfl) fun h0 => ?_
  cases sh with
  | zero => exact absurd (Nat.mod_one m) h0
  | succ k =>
    have hp : 2 ^ (k + 1) = 2 * 2 ^ k := by rw [Nat.pow_succ, Nat.mul_comm]
    have hup : (match rm with
        | .rne => decide (m % 2 ^ (k + 1) > 2 ^ (k + 1 - 1)) || (decide (m % 2 ^ (k + 1) = 2 ^ (k + 1 - 1)) && (m / 2 ^ (k + 1)).testBit 0)
        | .rtz => false
        | .rup => !s
        | .rdn => s) = roundsUp rm s (m / 2 ^ (k + 1)) (m % 2 ^ (k + 1)) (2 ^ (k + 1)) := by
      cases rm with
      | rne =>
        generalize m % 2 ^ (k + 1) = R
        have hgt : decide (R > 2 ^ k) = decide (2 ^ (k + 1) < 2 * R) := decide_eq_decide.mpr (by omega)
        have heq : decide (R = 2 ^ k) = decide (2 ^ (k + 1) = 2 * R) := decide_eq_decide.mpr (by omega)
        rw [roundsUp, Nat.add_sub_cancel, Nat.testBit_zero, hgt, heq]
      | rtz => rfl
      | rup => rfl
      | rdn => rfl
    exact congrArg (fun u : Bool => (if u then m / 2 ^ (k + 1) + 1 else m / 2 ^ (k + 1), true)) hup

theorem roundsUp_toward {rm : RMode} {s : Bool} (h : towardZero rm s) (Q R D : ℕ) : roundsUp rm s Q R D = false := by
  rcases h with rfl | ⟨rfl, rfl⟩ | ⟨rfl, rfl⟩ <;> rfl

theorem roundsUp_away {rm : RMode} {s : Bool} (h : awayFromZero rm s) (Q R D : ℕ) : roundsUp rm s Q R D = true := by
  rcases h with ⟨rfl, rfl⟩ | ⟨rfl, rfl⟩ <;> rfl

theorem roundsUp_near (s : Bool) (Q R D : ℕ) : roundsUp .rne s Q R D = true ↔ D < 2 * R ∨ (D = 2 * R ∧ Q % 2 = 1) := by
  simp [roundsUp]

theorem rndShift_rounded (rm : RMode) (s : Bool) (m sh : ℕ) : RoundedInt rm s ((m : ℝ) / (2 ^ sh : ℕ)) (rndShift rm s m sh) := by
  have hD : 0 < 2 ^ sh := Nat.two_pow_pos sh
  have hR := Nat.mod_lt m hD
  obtain ⟨h0, hlt, heq, hge, hup⟩ := part_compare (Q := m / 2 ^ sh) (R := m % 2 ^ sh) hD
  rw [Nat.div_add_mod] at h0 hlt heq hge hup
  rw [rndShift_eq]
  generalize m / 2 ^ sh = Q at *
  generalize m % 2 ^ sh = R at *
  generalize (m : ℝ) / (2 ^ sh : ℕ) = x at *
  generalize 2 ^ sh = D at *
  refine ⟨Q, { ge := hge, lt := hup hR, step := ?_, toward := fun ht => ?_, away := fun ha => ?_, near := fun hn => ?_ }, ?_⟩
  · split
    · exact .inl rfl
    · split
      · exact .inr rfl
      · exact .inl rfl
  · split
    · rfl
    · rw [roundsUp_toward ht]; rfl
  · rw [h0]
    split
    · next h => exact ⟨fun _ => h, fun _ => rfl⟩
    · next h => rw [roundsUp_away ha]; exact ⟨fun hq => absurd hq (by simp), fun hr => absurd hr h⟩
  · subst hn
    rw [hlt, heq, ← roundsUp_near s]
    split
    · next h =>
      rw [roundsUp_near]
      dsimp only
      omega
    · split <;> simp_all
  · rw [Ne, h0]
    split <;> simp_all

/-- m · 2^e rounded to a multiple of 2^q. -/
theorem rndAt_rounded (rm : RMode) (s : Bool) (m : ℕ) (e q : ℤ) : RoundedInt rm s (mag m (e - q)) (rndAt rm s m e q) := by
  unfold rndAt
  split
  · next h =>
    obtain ⟨k, hk⟩ := Int.eq_ofNat_of_zero_le (sub_nonneg.mpr h)
    have hx : mag m (e - q) = ((m <<< k : ℕ) : ℝ) := by
      rw [hk, mag, zpow_natCast, Nat.shiftLeft_eq]
      push_cast
      rfl
    rw [hx, hk, Int.toNat_natCast]
    generalize m <<< k = N
    refine ⟨N, { ge := le_rfl, lt := by simp, step := .inl rfl, toward := fun _ => rfl, away := fun _ => by simp, near := fun _ => ?_ }, by simp⟩
    refine ⟨fun h => absurd h (by simp), fun h => ?_⟩
    rcases h with h | ⟨h, -⟩ <;> linarith
  · next h =>
    obtain ⟨k, hk⟩ := Int.eq_ofNat_of_zero_le (show 0 ≤ q - e by omega)
    have hx : mag m (e - q) = (m : ℝ) / (2 ^ k : ℕ) := by
      rw [← neg_sub, hk, mag, zpow_neg, zpow_natCast, div_eq_mul_inv]
      push_cast
      rfl
    rw [hx, hk, Int.toNat_natCast]
    exact rndShift_rounded rm s m k

end Sys2Proof.Machine
end

section
/-!
The finite patterns of a format as a scale of magnitudes, and roundFin as rounding on that scale (R14, R21, R24).
-/
namespace Sys2Proof.Machine
open Sys2Proof.Claims

theorem RoundedPlace.lt_iff {V : ℕ → ℝ} {rm : RMode} {s : Bool} {v : ℝ} {P M : ℕ} (h : RoundedPlace V rm s v P) (hM : M % 2 = 1) :
    M < P ↔ (towardZero rm s ∧ V (M + 1) ≤ v) ∨ (awayFromZero rm s ∧ V M < v) ∨ (rm = .rne ∧ V M + V (M + 1) ≤ 2 * v) := by
  rcases mode_cases rm s with ht | ha | hn
  · obtain ⟨hna, hnn⟩ := not_away_of_toward ht
    simp only [ht, hna, hnn, true_and, false_and, or_false, ← h.toward ht, Nat.succ_le_iff]
  · have hnt : ¬towardZero rm s := fun ht => (not_away_of_toward ht).1 ha
    simp only [hnt, ha, ne_rne_of_away ha, true_and, false_and, false_or, or_false, ← not_le, ← h.away ha]
  · subst hn
    have hnt : ¬towardZero .rne s := fun ht => (not_away_of_toward ht).2 rfl
    have hna : ¬awayFromZero .rne s := fun ha => ne_rne_of_away ha rfl
    simp only [hnt, hna, true_and, false_and, false_or, h.near rfl, hM, and_true, le_iff_lt_or_eq]

/-! ### Patterns as a scale -/

/-- A format with infinities, as those of scalar arithmetic. -/
structure Binary (f : FSpec) : Prop where
  kind : f.kind = .ieee
  mb : 1 ≤ f.mb
  eb : 2 ≤ f.eb

theorem Binary.of_arith {f : FSpec} (h : arith f) : Binary f := by
  rcases h with rfl | rfl | rfl <;> exact ⟨rfl, by decide, by decide⟩

/-- The magnitude of the pattern at place P of those with sign plus. -/
noncomputable def patVal (f : FSpec) (P : ℕ) : ℝ :=
  if P / 2 ^ f.mb = 0 then mag (P % 2 ^ f.mb) (f.emin - f.mb) else mag (P % 2 ^ f.mb + 2 ^ f.mb) ((P / 2 ^ f.mb : ℕ) - f.bias - f.mb)

section
variable {f : FSpec} {B n P : ℕ}

/-- Exponent field and fraction of the place that n steps of a binade come to. -/
theorem place_fields (h : B = 0 ∨ 2 ^ f.mb ≤ n) (hn : n ≤ 2 ^ (f.mb + 1)) :
    (n < 2 ^ f.mb ∧ B = 0 ∧ (B * 2 ^ f.mb + n) / 2 ^ f.mb = 0 ∧ (B * 2 ^ f.mb + n) % 2 ^ f.mb = n) ∨
    (2 ^ f.mb ≤ n ∧ n < 2 ^ (f.mb + 1) ∧ (B * 2 ^ f.mb + n) / 2 ^ f.mb = B + 1 ∧ (B * 2 ^ f.mb + n) % 2 ^ f.mb = n - 2 ^ f.mb) ∨
    (n = 2 ^ (f.mb + 1) ∧ (B * 2 ^ f.mb + n) / 2 ^ f.mb = B + 2 ∧ (B * 2 ^ f.mb + n) % 2 ^ f.mb = 0) := by
  have hT : 0 < 2 ^ f.mb := Nat.two_pow_pos _
  rw [Nat.pow_succ] at hn ⊢
  generalize 2 ^ f.mb = T at *
  rcases Nat.lt_or_ge n T with h1 | h1
  · obtain rfl : B = 0 := h.resolve_right (by omega)
    exact .inl ⟨h1, rfl, by rw [Nat.zero_mul, Nat.zero_add, Nat.div_eq_of_lt h1], by rw [Nat.zero_mul, Nat.zero_add, Nat.mod_eq_of_lt h1]⟩
  · obtain ⟨k, rfl⟩ := Nat.exists_eq_add_of_le h1
    have hB : B * T + (T + k) = k + T * (B + 1) := by ring
    refine .inr ?_
    rcases Nat.lt_or_ge k T with h2 | h2
    · refine .inl ⟨h1, by omega, ?_, ?_⟩
      · rw [hB, Nat.add_mul_div_left _ _ hT, Nat.div_eq_of_lt h2, Nat.zero_add]
      · rw [hB, Nat.add_mul_mod_self_left, Nat.mod_eq_of_lt h2, Nat.add_sub_cancel_left]
    · obtain rfl : k = T := by omega
      refine .inr ⟨by omega, ?_, ?_⟩
      · rw [hB, Nat.add_mul_div_left _ _ hT, Nat.div_self hT]; omega
      · rw [hB, Nat.add_mul_mod_self_left, Nat.mod_self]

theorem patVal_at (h : B = 0 ∨ 2 ^ f.mb ≤ n) (hn : n ≤ 2 ^ (f.mb + 1)) : patVal f (B * 2 ^ f.mb + n) = mag n (B + f.emin - f.mb) := by
  unfold patVal
  rcases place_fields h hn with ⟨-, rfl, hd, hm⟩ | ⟨hT, -, hd, hm⟩ | ⟨rfl, hd, hm⟩
  · rw [hd, hm, if_pos rfl, Nat.cast_zero, zero_add]
  · rw [hd, hm, if_neg (by omega), Nat.sub_add_cancel hT]
    congr 1
    rw [FSpec.emin]
    push_cast
    ring
  · rw [hd, hm, if_neg (by omega), Nat.zero_add, Nat.pow_succ', ← Nat.pow_one 2, mag_two_pow_mul]
    congr 1
    rw [FSpec.emin]
    push_cast
    ring

theorem exists_binade (f : FSpec) (P : ℕ) : ∃ B n, P = B * 2 ^ f.mb + n ∧ (B = 0 ∨ 2 ^ f.mb ≤ n) ∧ n < 2 ^ (f.mb + 1) := by
  have hT : 0 < 2 ^ f.mb := Nat.two_pow_pos _
  have hm := Nat.mod_lt P hT
  have hP := Nat.div_add_mod P (2 ^ f.mb)
  rw [Nat.pow_succ]
  generalize 2 ^ f.mb = T at *
  cases hB : P / T with
  | zero => exact ⟨0, P % T, by rw [hB] at hP; omega, .inl rfl, by omega⟩
  | succ B => exact ⟨B, P % T + T, by rw [hB, Nat.mul_succ] at hP; rw [Nat.mul_comm]; omega, .inr (by omega), by omega⟩

theorem patVal_strictMono (f : FSpec) : StrictMono (patVal f) := strictMono_nat_of_lt_succ fun P => by
  obtain ⟨B, n, rfl, hB, hn⟩ := exists_binade f P
  rw [patVal_at hB hn.le, Nat.add_assoc, patVal_at (hB.imp_right fun h => by omega) hn]
  exact mag_lt (Nat.lt_add_one n) _
end

/-! ### The patterns of finite numbers -/

theorem signPat_place (f : FSpec) (s : Bool) {M : ℕ} (h : M < 2 ^ (f.eb + f.mb)) :
    signPat f s + M < 2 ^ f.width ∧ (signPat f s + M) % 2 ^ (f.eb + f.mb) = M ∧ signBit f (signPat f s + M) = s := by
  have hw : 2 ^ f.width = 2 * 2 ^ (f.eb + f.mb) := by rw [FSpec.width, Nat.add_assoc, Nat.pow_add, Nat.pow_one]
  cases s
  · simp only [signPat, Bool.false_eq_true, if_false, Nat.zero_add, signBit]
    exact ⟨by omega, Nat.mod_eq_of_lt h, Nat.testBit_lt_two_pow h⟩
  · simp only [signPat, if_true, signBit]
    refine ⟨by omega, by rw [Nat.add_mod_left, Nat.mod_eq_of_lt h], ?_⟩
    rw [Nat.testBit_two_pow_add_eq, Nat.testBit_lt_two_pow h]
    rfl

theorem pattern_eq {f : FSpec} {p : ℕ} (h : p < 2 ^ f.width) : p = signPat f (signBit f p) + p % 2 ^ (f.eb + f.mb) := by
  have hw : 2 ^ f.width = 2 * 2 ^ (f.eb + f.mb) := by rw [FSpec.width, Nat.add_assoc, Nat.pow_add, Nat.pow_one]
  have hT := Nat.two_pow_pos (f.eb + f.mb)
  rcases Nat.lt_or_ge p (2 ^ (f.eb + f.mb)) with hlt | hge
  · rw [signBit, Nat.testBit_lt_two_pow hlt, signPat, if_neg (by decide), Nat.zero_add, Nat.mod_eq_of_lt hlt]
  · obtain ⟨k, rfl⟩ := Nat.exists_eq_add_of_le hge
    have hk : k < 2 ^ (f.eb + f.mb) := by omega
    rw [signBit, Nat.testBit_two_pow_add_eq, Nat.testBit_lt_two_pow hk, Nat.add_mod_left, Nat.mod_eq_of_lt hk]
    rfl

/-- The places of finite patterns end here. -/
def infPlace (f : FSpec) : ℕ := (2 ^ f.eb - 1) * 2 ^ f.mb

section
variable {f : FSpec} (hf : Binary f)
include hf

theorem Binary.two_pow_eb : 2 ^ f.eb = 2 * f.bias + 2 ∧ 1 ≤ f.bias := by
  obtain ⟨k, hk⟩ : ∃ k, f.eb = k + 2 := ⟨f.eb - 2, by have := hf.eb; omega⟩
  have hT := Nat.two_pow_pos k
  rw [FSpec.bias, hk, show k + 2 - 1 = k + 1 by omega, Nat.pow_succ, Nat.pow_succ]
  omega

theorem Binary.two_pow_mb : 2 ^ f.mb % 2 = 0 := by
  obtain ⟨k, hk⟩ : ∃ k, f.mb = k + 1 := ⟨f.mb - 1, by have := hf.mb; omega⟩
  rw [hk, Nat.pow_succ, Nat.mul_mod_left]

theorem infPlace_pos : 0 < infPlace f := by
  have h := hf.two_pow_eb
  exact Nat.mul_pos (by omega) (Nat.two_pow_pos _)

theorem infPlace_even : infPlace f % 2 = 0 := by
  rw [infPlace, Nat.mul_mod, hf.two_pow_mb, Nat.mul_zero, Nat.zero_mod]

/-- The end of the places is the last step of the last binade. -/
theorem infPlace_eq : infPlace f = (2 * f.bias - 1) * 2 ^ f.mb + 2 ^ (f.mb + 1) ∧ ((2 * f.bias - 1 : ℕ) + f.emin - f.mb : ℤ) = f.bias - f.mb := by
  obtain ⟨h, hb⟩ := hf.two_pow_eb
  constructor
  · rw [infPlace, h, Nat.pow_succ, show 2 * f.bias + 2 - 1 = 2 * f.bias - 1 + 2 by omega, Nat.add_mul, Nat.mul_comm (2 ^ f.mb)]
  · rw [FSpec.emin]
    omega

theorem patVal_infPlace : patVal f (infPlace f) = mag (2 ^ (f.mb + 1)) (f.bias - f.mb) := by
  obtain ⟨hP, he⟩ := infPlace_eq hf
  rw [hP, patVal_at (.inr (Nat.pow_le_pow_right (by decide) (by omega))) le_rfl, he]

theorem patVal_maxPlace : patVal f (infPlace f - 1) = mag (2 ^ (f.mb + 1) - 1) (f.bias - f.mb) := by
  obtain ⟨hP, he⟩ := infPlace_eq hf
  have hT : 1 ≤ 2 ^ f.mb := Nat.one_le_two_pow
  rw [hP, Nat.add_sub_assoc Nat.one_le_two_pow, patVal_at (.inr (by rw [Nat.pow_succ]; omega)) (by omega), he]

/-- The fields of a pattern, by its place. -/
theorem decodeF_place (p : ℕ) : decodeF f p =
    (let M := p % 2 ^ (f.eb + f.mb)
    if M / 2 ^ f.mb = 2 ^ f.eb - 1 then
      if M % 2 ^ f.mb = 0 then .inf (signBit f p) else .nan (signBit f p) (!(M % 2 ^ f.mb).testBit (f.mb - 1))
    else if M / 2 ^ f.mb = 0 then .fin (signBit f p) (M % 2 ^ f.mb) (f.emin - f.mb)
    else .fin (signBit f p) (M % 2 ^ f.mb + 2 ^ f.mb) ((M / 2 ^ f.mb : ℕ) - f.bias - f.mb)) := by
  have he : p % 2 ^ (f.eb + f.mb) / 2 ^ f.mb = expOf f p := by
    rw [Nat.add_comm, Nat.pow_add, Nat.mod_mul_right_div_self, expOf]
  have hm : p % 2 ^ (f.eb + f.mb) % 2 ^ f.mb = fracOf f p := by
    rw [Nat.pow_add, Nat.mod_mul_left_mod, fracOf]
  have hne : f.kind ≠ .e4 := by rw [hf.kind]; decide
  simp only [decodeF, he, hm, hf.kind, true_and, reduceCtorEq, false_and, if_false]

/-- A finite pattern is one of the scale. -/
theorem place_of_finite {p n : ℕ} {s : Bool} {k : ℤ} (hp : p < 2 ^ f.width) (h : decodeF f p = .fin s n k) :
    ∃ M, p = signPat f s + M ∧ mag n k = patVal f M := by
  rw [decodeF_place hf] at h
  refine ⟨p % 2 ^ (f.eb + f.mb), ?_⟩
  have hpe := pattern_eq hp
  simp only [patVal] at h ⊢
  split at h
  · split at h <;> cases h
  · split at h
    · next h0 =>
      cases h
      exact ⟨hpe, by rw [if_pos h0]⟩
    · next h0 =>
      cases h
      exact ⟨hpe, by rw [if_neg h0]⟩

/-- The scale up to its end is finite patterns. -/
theorem finite_of_place (s : Bool) {M : ℕ} (h : M < infPlace f) :
    signPat f s + M < 2 ^ f.width ∧ ∃ n k, decodeF f (signPat f s + M) = .fin s n k ∧ mag n k = patVal f M := by
  have hlt : M < 2 ^ (f.eb + f.mb) := by
    refine lt_of_lt_of_le h ?_
    rw [Nat.pow_add]
    exact Nat.mul_le_mul_right _ (Nat.sub_le ..)
  obtain ⟨hw, hmod, hsign⟩ := signPat_place f s hlt
  have he : M / 2 ^ f.mb ≠ 2 ^ f.eb - 1 := ne_of_lt (Nat.div_lt_of_lt_mul (by rwa [Nat.mul_comm]))
  refine ⟨hw, ?_⟩
  rw [decodeF_place hf, hmod, hsign]
  simp only [patVal, if_neg he]
  split <;> exact ⟨_, _, rfl, rfl⟩

theorem signPat_even (s : Bool) : signPat f s % 2 = 0 := by
  cases s
  · rfl
  · rw [signPat, if_pos rfl, Nat.pow_add, Nat.mul_mod, hf.two_pow_mb, Nat.mul_zero, Nat.zero_mod]

theorem infPat_place (s : Bool) : infPat f s = signPat f s + infPlace f := by rw [infPat, hf.kind, infPlace]
theorem maxPat_place (s : Bool) : maxPat f s = signPat f s + (infPlace f - 1) := by
  have := infPlace_pos hf
  rw [maxPat, hf.kind]
  exact Nat.add_sub_assoc this _
end

end Sys2Proof.Machine
end

section
/-!
roundFin rounds a magnitude to a place of its format (R21, R24).
-/
namespace Sys2Proof.Machine
open Sys2Proof.Claims

/-! ### The result by its place -/

/-- The result of a rounding to a place: the pattern there, or an overflow. -/
def placed (f : FSpec) (rm : RMode) (s : Bool) (P : ℕ) (fl : Flags) : ℕ × Flags :=
  if infPlace f ≤ P then (if ovfMax rm s then maxPat f s else infPat f s, fl ||| fOF ||| fNX) else (signPat f s + P, fl)

/-- Exceptions of a rounding without overflow. -/
def roundFlags (inx tiny : Bool) : Flags := (if inx then fNX else 0#5) ||| (if inx && tiny then fUF else 0#5)

/-- The number is below the normal ones after rounding without a least exponent, to u steps of the binade of its leading bit. -/
def tinyMark (f : FSpec) (lead : ℤ) (u : ℕ) : Bool := decide (lead < f.emin) && !(decide (lead = f.emin - 1) && decide (u = 2 ^ (f.mb + 1)))

/-- The binade of a leading bit, above the least one. -/
def binade (f : FSpec) (lead : ℤ) : ℕ := (max lead f.emin - f.emin).toNat

theorem binade_exp (f : FSpec) (lead : ℤ) : (binade f lead : ℤ) + f.emin = max lead f.emin := by
  rw [binade, Int.toNat_of_nonneg (by omega)]
  omega

section
variable {f : FSpec} (hf : Binary f)
include hf

/-- Exponent field and fraction, put together. -/
theorem placed_fields {rm : RMode} {s : Bool} {P F : ℕ} {E : ℤ} {fl : Flags} (hE : ((P / 2 ^ f.mb : ℕ) : ℤ) = E) (hF : P % 2 ^ f.mb = F) :
    (if E > f.efMax ∨ (f.kind = .e4 ∧ E = f.efMax ∧ F = 2 ^ f.mb - 1) then
      (if ovfMax rm s then maxPat f s else infPat f s, fl ||| fOF ||| fNX) else (signPat f s + E.toNat * 2 ^ f.mb + F, fl)) =
      placed f rm s P fl := by
  obtain ⟨heb, -⟩ := hf.two_pow_eb
  have hmax : f.efMax = 2 ^ f.eb - 2 := by rw [FSpec.efMax, hf.kind]
  have hcond : (E > f.efMax ∨ (f.kind = .e4 ∧ E = f.efMax ∧ F = 2 ^ f.mb - 1)) ↔ infPlace f ≤ P := by
    rw [infPlace, ← Nat.le_div_iff_mul_le (Nat.two_pow_pos _), hf.kind, ← hE, hmax]
    simp only [reduceCtorEq, false_and, or_false]
    omega
  refine if_ctx_congr hcond (fun _ => rfl) fun _ => ?_
  rw [← hE, ← hF, Int.toNat_natCast, Nat.add_assoc, Nat.div_add_mod']

theorem roundFin_eq {rm : RMode} {s : Bool} {m : ℕ} {e lead : ℤ} {r u : ℕ × Bool} (hm : 0 < m) (hlead : Nat.log2 m + e = lead)
    (hr : rndAt rm s m e (max lead f.emin - f.mb) = r) (hu : rndAt rm s m e (lead - f.mb) = u)
    (hB : binade f lead = 0 ∨ 2 ^ f.mb ≤ r.1) (hle : r.1 ≤ 2 ^ (f.mb + 1)) :
    roundFin f rm s m e = placed f rm s (binade f lead * 2 ^ f.mb + r.1) (roundFlags r.2 (tinyMark f lead u.1)) := by
  have hq := binade_exp f lead
  have hT : 2 ^ (f.mb + 1) = 2 * 2 ^ f.mb := Nat.pow_succ'
  have hT0 := Nat.two_pow_pos f.mb
  obtain ⟨r, inx⟩ := r
  have hemin : f.emin = 1 - f.bias := rfl
  dsimp only at hB hle ⊢
  have hkey : ∀ (r' : ℕ) (q' : ℤ), (if 2 ^ (f.mb + 1) ≤ r then (r / 2, max lead f.emin - f.mb + 1) else (r, max lead f.emin - f.mb)) = (r', q') →
      (((binade f lead * 2 ^ f.mb + r) / 2 ^ f.mb : ℕ) : ℤ) = (if 2 ^ f.mb ≤ r' then q' + f.mb + f.bias else 0) →
      (binade f lead * 2 ^ f.mb + r) % 2 ^ f.mb = (if 2 ^ f.mb ≤ r' then r' - 2 ^ f.mb else r') →
      roundFin f rm s m e = placed f rm s (binade f lead * 2 ^ f.mb + r) (roundFlags inx (tinyMark f lead u.1)) := fun r' q' hn hE hF => by
    simp only [roundFin, if_neg hm.ne', hlead, hr, hu, hn]
    exact placed_fields hf hE hF
  rcases place_fields hB hle with ⟨hlt, hB0, hd, hmod⟩ | ⟨hge, hlt, hd, hmod⟩ | ⟨rfl, hd, hmod⟩
  · exact hkey r _ (if_neg (by omega)) (by rw [hd, if_neg (by omega)]; rfl) (by rw [hmod, if_neg (by omega)])
  · exact hkey r _ (if_neg (by omega)) (by rw [hd, if_pos hge]; push_cast; omega) (by rw [hmod, if_pos hge])
  · have hhalf : 2 ^ (f.mb + 1) / 2 = 2 ^ f.mb := by omega
    exact hkey (2 ^ f.mb) _ ((if_pos le_rfl).trans (by rw [hhalf])) (by rw [hd, if_pos le_rfl]; push_cast; omega)
      (by rw [hmod, if_pos le_rfl, Nat.sub_self])
end

/-! ### Where a magnitude is rounded to -/

theorem mag_two_pow (k : ℕ) (e : ℤ) : mag (2 ^ k) e = mag 1 (e + k) := by rw [← mag_two_pow_mul, mul_one]

theorem mag_one_le {e k : ℤ} (h : e ≤ k) : mag 1 e ≤ mag 1 k :=
  mul_le_mul_of_nonneg_left (zpow_le_zpow_right₀ one_le_two h) (Nat.cast_nonneg _)

/-- A mode moves a magnitude in one way only. -/
theorem mode_not {rm : RMode} {s : Bool} {a b c : Prop} :
    ¬((towardZero rm s ∧ a) ∨ (awayFromZero rm s ∧ b) ∨ (rm = .rne ∧ c)) ↔ (towardZero rm s ∧ ¬a) ∨ (awayFromZero rm s ∧ ¬b) ∨ (rm = .rne ∧ ¬c) := by
  cases rm <;> cases s <;> simp [towardZero, awayFromZero]

/-- A magnitude that is below the normal ones when it is rounded without a least exponent (R24). -/
def TinyMag (f : FSpec) (rm : RMode) (s : Bool) (v : ℝ) : Prop :=
  (towardZero rm s ∧ v < mag 1 f.emin) ∨ (awayFromZero rm s ∧ v ≤ mag (2 ^ (f.mb + 1) - 1) (f.emin - f.mb - 1)) ∨
    (rm = .rne ∧ v < mag (2 ^ (f.mb + 2) - 1) (f.emin - f.mb - 2))

/-- The least normal magnitude in steps of the binade below it. -/
theorem emin_steps (f : FSpec) : mag 1 f.emin = mag (2 ^ (f.mb + 1)) (f.emin - f.mb - 1) := by
  rw [mag_two_pow, show f.emin - f.mb - 1 + (f.mb + 1 : ℕ) = f.emin by push_cast; ring]

theorem TinyMag.lt {f : FSpec} {rm : RMode} {s : Bool} {v : ℝ} (h : TinyMag f rm s v) : v < mag 1 f.emin := by
  have hT : 1 ≤ 2 ^ (f.mb + 1) := Nat.one_le_two_pow
  have hT2 : 1 ≤ 2 ^ (f.mb + 2) := Nat.one_le_two_pow
  rcases h with ⟨-, h⟩ | ⟨-, h⟩ | ⟨-, h⟩
  · exact h
  · exact h.trans_lt (emin_steps f ▸ mag_lt (by omega) _)
  · refine h.trans ((mag_lt (show 2 ^ (f.mb + 2) - 1 < 2 ^ (f.mb + 2) by omega) _).trans_eq ?_)
    rw [mag_two_pow, show f.emin - f.mb - 2 + (f.mb + 2 : ℕ) = f.emin by push_cast; ring]

section
variable {f : FSpec} {rm : RMode} {s : Bool} {v x : ℝ} {lead : ℤ} {r : ℕ × Bool} (hlo : mag 1 lead ≤ v) (hhi : v < mag 1 (lead + 1))

/-- A magnitude in steps of a binade that is not below its leading bit. -/
theorem steps_lt (hhi : v < mag 1 (lead + 1)) {q : ℤ} (hq : lead - f.mb ≤ q) (hx : v = x * 2 ^ q) : x < (2 ^ (f.mb + 1) : ℕ) := by
  have hpos : (0 : ℝ) < 2 ^ q := zpow_pos two_pos q
  refine lt_of_mul_lt_mul_right ?_ hpos.le
  rw [← hx]
  refine hhi.trans_le ((mag_one_le (k := q + (f.mb + 1 : ℕ)) (by push_cast; omega)).trans_eq ?_)
  rw [← mag_two_pow, mag]

theorem steps_ge (hlo : mag 1 lead ≤ v) (hx : v = x * 2 ^ (lead - f.mb : ℤ)) : (2 ^ f.mb : ℕ) ≤ x := by
  have hpos : (0 : ℝ) < 2 ^ (lead - f.mb : ℤ) := zpow_pos two_pos _
  refine le_of_mul_le_mul_right ?_ hpos
  rw [← hx]
  rwa [← mag, mag_two_pow, sub_add_cancel]

include hlo hhi

theorem rounded_place (hf : Binary f) (hr : RoundedInt rm s x r) (hx : v = x * 2 ^ (max lead f.emin - f.mb : ℤ)) :
    let P := binade f lead * 2 ^ f.mb + r.1
    (binade f lead = 0 ∨ 2 ^ f.mb ≤ r.1) ∧ r.1 ≤ 2 ^ (f.mb + 1) ∧ RoundedPlace (patVal f) rm s v P ∧ (r.2 = true ↔ patVal f P ≠ v) := by
  intro P
  obtain ⟨N, hc, hinx⟩ := hr
  have hq := binade_exp f lead
  have hpos : (0 : ℝ) < 2 ^ (max lead f.emin - f.mb : ℤ) := zpow_pos two_pos _
  have hN : N < 2 ^ (f.mb + 1) := by
    have h := hc.ge.trans_lt (steps_lt (f := f) hhi (by omega) hx)
    exact_mod_cast h
  have hB : binade f lead = 0 ∨ 2 ^ f.mb ≤ N := by
    refine or_iff_not_imp_left.mpr fun hB0 => ?_
    rw [max_eq_left (show f.emin ≤ lead by omega)] at hx
    have h := (steps_ge (f := f) hlo hx).trans_lt hc.lt
    have h' : 2 ^ f.mb < N + 1 := by exact_mod_cast h
    omega
  have hstep := hc.step
  have hVN : patVal f (binade f lead * 2 ^ f.mb + N) = N * 2 ^ (max lead f.emin - f.mb : ℤ) := by
    rw [patVal_at hB hN.le, hq, mag]
  have hVN1 : patVal f (binade f lead * 2 ^ f.mb + N + 1) = (N + 1) * 2 ^ (max lead f.emin - f.mb : ℤ) := by
    rw [Nat.add_assoc, patVal_at (hB.imp_right fun h => by omega) hN, hq, mag]
    push_cast
    rfl
  have hscale := hc.scale hpos (show binade f lead * 2 ^ f.mb % 2 = 0 by rw [Nat.mul_mod, hf.two_pow_mb, Nat.mul_zero, Nat.zero_mod])
  rw [← hx, ← hVN, ← hVN1] at hscale
  refine ⟨hB.imp_right fun h => by omega, by omega, hscale.place (patVal_strictMono f), ?_⟩
  rw [hinx, not_iff_not]
  constructor
  · intro hxN
    have hP := hc.exact_iff hxN
    show patVal f (binade f lead * 2 ^ f.mb + r.1) = v
    rw [hP, hVN, ← hxN, ← hx]
  · intro hP
    rcases hstep with h | h <;> rw [show P = binade f lead * 2 ^ f.mb + r.1 from rfl, h] at hP
    · rw [hVN, hx] at hP
      exact (mul_right_cancel₀ hpos.ne' hP).symm
    · have hlt := hscale.lt
      rw [← hP] at hlt
      exact absurd hlt (lt_irrefl _)

/-- Tininess (R24). -/
theorem tinyMark_iff (hr : RoundedInt rm s x r) (hx : v = x * 2 ^ (lead - f.mb : ℤ)) :
    tinyMark f lead r.1 = true ↔ TinyMag f rm s v := by
  have hT : 1 ≤ 2 ^ f.mb := Nat.one_le_two_pow
  have hT1 : 2 ^ (f.mb + 1) = 2 * 2 ^ f.mb := Nat.pow_succ'
  have hT2 : 2 ^ (f.mb + 2) = 4 * 2 ^ f.mb := by rw [Nat.pow_add, Nat.mul_comm]
  rw [tinyMark, Bool.and_eq_true, decide_eq_true_iff, Bool.not_eq_true', Bool.and_eq_false_iff, decide_eq_false_iff_not, decide_eq_false_iff_not]
  rcases lt_trichotomy lead (f.emin - 1) with hl | rfl | hl
  · have hsub : v < mag 1 (f.emin - 1) := hhi.trans_le (mag_one_le (by omega))
    have h1 : mag 1 (f.emin - 1) ≤ mag (2 ^ (f.mb + 1) - 1) (f.emin - f.mb - 1) := by
      rw [show f.emin - 1 = f.emin - f.mb - 1 + f.mb by ring, ← mag_two_pow]
      exact mag_le (by omega) _
    have h2 : mag 1 (f.emin - 1) ≤ mag (2 ^ (f.mb + 2) - 1) (f.emin - f.mb - 2) := by
      rw [show f.emin - 1 = f.emin - f.mb - 2 + (f.mb + 1 : ℕ) by push_cast; ring, ← mag_two_pow]
      exact mag_le (by omega) _
    refine iff_of_true ⟨by omega, .inl (by omega)⟩ ?_
    exact (mode_cases rm s).imp (fun h => ⟨h, hsub.trans_le (mag_one_le (by omega))⟩) (Or.imp (fun h => ⟨h, by linarith⟩) fun h => ⟨h, by linarith⟩)
  · have hx' : v = x * 2 ^ (f.emin - f.mb - 1 : ℤ) := by rw [hx]; congr 2; ring
    have hpos : (0 : ℝ) < 2 ^ (f.emin - f.mb - 1 : ℤ) := zpow_pos two_pos _
    obtain ⟨N, hc, -⟩ := hr
    have hplace : RoundedPlace (fun n : ℕ => (n : ℝ)) rm s x r.1 :=
      Chosen.place (N := N) Nat.strictMono_cast (by push_cast; exact hc)
    have hle := hplace.le_of_le Nat.strictMono_cast (steps_lt (f := f) hhi le_rfl hx).le
    have hodd := hplace.lt_iff (M := 2 ^ (f.mb + 1) - 1) (by omega)
    rw [Nat.sub_add_cancel Nat.one_le_two_pow] at hodd
    have hu : (f.emin - 1 < f.emin ∧ (¬f.emin - 1 = f.emin - 1 ∨ ¬r.1 = 2 ^ (f.mb + 1))) ↔ ¬2 ^ (f.mb + 1) - 1 < r.1 := by omega
    have hn : mag (2 ^ (f.mb + 2) - 1) (f.emin - f.mb - 2) * 2 =
        (((2 ^ (f.mb + 1) - 1 : ℕ) : ℝ) + (2 ^ (f.mb + 1) : ℕ)) * 2 ^ (f.emin - f.mb - 1 : ℤ) := by
      rw [← Nat.cast_add, show 2 ^ (f.mb + 1) - 1 + 2 ^ (f.mb + 1) = 2 ^ (f.mb + 2) - 1 by omega, mag, mul_assoc, ← zpow_add_one₀ two_ne_zero]
      congr 2
      ring
    rw [hu, hodd, mode_not, not_le, not_lt, not_le, TinyMag, emin_steps, mag, mag, hx', mul_lt_mul_iff_left₀ hpos, mul_le_mul_iff_left₀ hpos,
      ← mul_lt_mul_iff_left₀ (two_pos (α := ℝ)) (b := x * _), hn, mul_right_comm, mul_lt_mul_iff_left₀ hpos, mul_comm x]
  · have hsub : mag 1 f.emin ≤ v := (mag_one_le (by omega)).trans hlo
    exact iff_of_false (fun h => by omega) fun h => absurd h.lt (not_lt.mpr hsub)
end

end Sys2Proof.Machine
end

section
/-!
A rounded magnitude, exact or with a sticky bit below, meets R21 and R24.
-/
namespace Sys2Proof.Machine
open Sys2Proof.Claims

/-! ### From the place to the result -/

theorem ovfMax_toward {rm : RMode} {s : Bool} (h : towardZero rm s) : ovfMax rm s = true := by
  rcases h with rfl | ⟨rfl, rfl⟩ | ⟨rfl, rfl⟩ <;> rfl

theorem ovfMax_other {rm : RMode} {s : Bool} (h : rm = .rne ∨ awayFromZero rm s) : ovfMax rm s = false := by
  rcases h with rfl | ⟨rfl, rfl⟩ | ⟨rfl, rfl⟩ <;> rfl

section
variable {f : FSpec} (hf : Binary f) {rm : RMode} {s : Bool} {v : ℝ} {P : ℕ} (hp : RoundedPlace (patVal f) rm s v P)
include hf hp

/-- A number rounded past the finite places. -/
theorem beyond_iff : infPlace f ≤ P ↔ (towardZero rm s ∧ mag 1 (f.bias + 1) ≤ v) ∨
    (awayFromZero rm s ∧ mag (2 ^ (f.mb + 1) - 1) (f.bias - f.mb) < v) ∨ (rm = .rne ∧ mag (2 ^ (f.mb + 2) - 1) (f.bias - f.mb - 1) ≤ v) := by
  have hpos := infPlace_pos hf
  have heven := infPlace_even hf
  have hT : 1 ≤ 2 ^ (f.mb + 1) := Nat.one_le_two_pow
  have hT2 : 2 ^ (f.mb + 2) = 2 * 2 ^ (f.mb + 1) := Nat.pow_succ'
  have h := hp.lt_iff (M := infPlace f - 1) (by omega)
  rw [Nat.sub_add_cancel hpos, patVal_infPlace hf, patVal_maxPlace hf] at h
  have htop : mag (2 ^ (f.mb + 1)) (f.bias - f.mb) = mag 1 (f.bias + 1) := by
    rw [mag_two_pow]
    congr 1
    push_cast
    ring
  have hmid : mag (2 ^ (f.mb + 1) - 1) (f.bias - f.mb) + mag (2 ^ (f.mb + 1)) (f.bias - f.mb) =
      2 * mag (2 ^ (f.mb + 2) - 1) (f.bias - f.mb - 1) := by
    rw [mag, mag, mag, ← add_mul, ← Nat.cast_add, show 2 ^ (f.mb + 1) - 1 + 2 ^ (f.mb + 1) = 2 ^ (f.mb + 2) - 1 by omega,
      mul_left_comm, ← zpow_one_add₀ two_ne_zero]
    congr 2
    ring
  rw [hmid, mul_le_mul_iff_right₀ two_pos, htop] at h
  rw [← h]
  omega

theorem isRound_placed {inx tiny : Bool} (hinx : inx = true ↔ patVal f P ≠ v) (htiny : tiny = true ↔ TinyMag f rm s v) :
    IsRound f rm s v (placed f rm s P (roundFlags inx tiny)) := by
  have hV := patVal_strictMono f
  have hbeyond := beyond_iff hf hp
  unfold IsRound
  by_cases hP : infPlace f ≤ P
  · rw [placed, if_pos hP]
    have htiny' : tiny = false := by
      by_contra h
      have hlt := (htiny.mp (by simpa using h)).lt
      have hmin : mag 1 f.emin = patVal f (0 * 2 ^ f.mb + 2 ^ f.mb) := by
        rw [patVal_at (.inl rfl) (Nat.pow_le_pow_right (by decide) (by omega)), mag_two_pow]
        congr 1
        push_cast
        ring
      have hle := hp.le_of_le hV (hmin ▸ hlt.le)
      obtain ⟨he, hb⟩ := hf.two_pow_eb
      have := Nat.mul_le_mul_right (2 ^ f.mb) (show 2 ≤ 2 ^ f.eb - 1 by omega)
      have := Nat.two_pow_pos f.mb
      unfold infPlace at hP
      omega
    subst htiny'
    have hflags : (roundFlags inx false ||| fOF ||| fNX) &&& fOF ≠ 0#5 ∧ (roundFlags inx false ||| fOF ||| fNX) &&& (fNV ||| fDZ) = 0#5 ∧
        (roundFlags inx false ||| fOF ||| fNX) &&& fNX ≠ 0#5 ∧ (roundFlags inx false ||| fOF ||| fNX) &&& fUF = 0#5 := by
      cases inx <;> decide
    obtain ⟨hof, hnv, hnx, huf⟩ := hflags
    refine ⟨iff_of_true hof (hbeyond.mp hP), hnv, fun _ => ⟨hnx, huf, fun ht => ?_, fun hn => ?_⟩, fun h => absurd (hbeyond.mp hP) h⟩
    · rw [ovfMax_toward ht]; rfl
    · rw [ovfMax_other hn]; rfl
  · obtain ⟨hw, n, k, hdec, hmag⟩ := finite_of_place hf s (Nat.not_le.mp hP)
    rw [placed, if_neg hP]
    have hflags : ¬(roundFlags inx tiny &&& fOF ≠ 0#5) ∧ roundFlags inx tiny &&& (fNV ||| fDZ) = 0#5 ∧
        (roundFlags inx tiny &&& fNX ≠ 0#5 ↔ inx = true) ∧ (roundFlags inx tiny &&& fUF ≠ 0#5 ↔ inx = true ∧ tiny = true) := by
      cases inx <;> cases tiny <;> decide
    obtain ⟨hof, hnv, hnx, huf⟩ := hflags
    refine ⟨iff_of_false hof fun h => hP (hbeyond.mpr h), hnv, fun h => absurd (hbeyond.mpr h) hP, fun _ => ⟨n, k, ⟨hw, hdec⟩, ?_, ?_, fun ht => ?_,
      fun ha => ?_, fun hn p n' k' hfin => ?_⟩⟩
    · rw [hnx, hinx, hmag]
    · rw [huf, hinx, htiny, hmag]
      rfl
    · obtain ⟨hle, hmax⟩ := hp.greatest hV ht
      refine ⟨hmag ▸ hle, fun p n' k' hfin hv => ?_⟩
      obtain ⟨M, -, hM⟩ := place_of_finite hf hfin.1 hfin.2
      rw [hM] at hv ⊢
      rw [hmag]
      exact hmax M hv
    · obtain ⟨hge, hmin⟩ := hp.least hV ha
      refine ⟨hmag ▸ hge, fun p n' k' hfin hv => ?_⟩
      obtain ⟨M, -, hM⟩ := place_of_finite hf hfin.1 hfin.2
      rw [hM] at hv ⊢
      rw [hmag]
      exact hmin M hv
    · obtain ⟨M, hpM, hM⟩ := place_of_finite hf hfin.1 hfin.2
      obtain ⟨hle, htie⟩ := hp.closest hV hn M
      rw [hM, hmag]
      refine ⟨hle, fun heq hne => ?_⟩
      have := htie heq fun h => hne (by rw [hpM, h])
      have := signPat_even hf s
      omega
end

/-! ### Magnitudes with a sticky bit -/

/-- The magnitude m · 2^e is v, or m has more bits than a format keeps and its last bit stands for what v has below it. -/
def Stands (f : FSpec) (m : ℕ) (e : ℤ) (v : ℝ) : Prop :=
  v = mag m e ∨ (2 ^ (f.mb + 3) ≤ m ∧ m % 2 = 1 ∧ mag (m - 1) e < v ∧ v < mag (m + 1) e)

section
variable {f : FSpec} {m : ℕ} {e : ℤ} {v : ℝ} (hm : 0 < m) (h : Stands f m e v)
include hm h

theorem Stands.lead : mag 1 (Nat.log2 m + e) ≤ v ∧ v < mag 1 (Nat.log2 m + e + 1) := by
  rcases h with rfl | ⟨hbig, hodd, hlo, hhi⟩
  · exact mag_log2 hm e
  · have hlow := Nat.log2_self_le hm.ne'
    have hhigh : m < 2 ^ (m.log2 + 1) := Nat.lt_log2_self
    have heven : 2 ^ m.log2 % 2 = 0 := by
      have hlog : f.mb + 3 ≤ m.log2 := (Nat.le_log2 hm.ne').mpr hbig
      rw [show m.log2 = m.log2 - 1 + 1 by omega, Nat.pow_succ, Nat.mul_mod_left]
    have heven' : 2 ^ (m.log2 + 1) % 2 = 0 := by rw [Nat.pow_succ, Nat.mul_mod_left]
    rw [show (Nat.log2 m : ℤ) + e + 1 = e + (Nat.log2 m + 1 : ℕ) by push_cast; ring, add_comm (m.log2 : ℤ), ← mag_two_pow, ← mag_two_pow]
    exact ⟨(mag_le (by omega) e).trans hlo.le, hhi.trans_le (mag_le (by omega) e)⟩

theorem Stands.sameHalf {q : ℤ} (hq : Nat.log2 m + e - f.mb ≤ q) : SameHalf (mag m (e - q)) (v * 2 ^ (-q)) := by
  rcases h with rfl | ⟨hbig, hodd, hlo, hhi⟩
  · rw [← mag_add_exp, sub_eq_add_neg]
    exact fun _ => ⟨Iff.rfl, Iff.rfl⟩
  · have hlog : f.mb + 3 ≤ m.log2 := (Nat.le_log2 hm.ne').mpr hbig
    obtain ⟨j, hj⟩ := Int.eq_ofNat_of_zero_le (show 0 ≤ q - e - 2 by omega)
    intro k
    have hpos : (0 : ℝ) < 2 ^ (q - 1) := zpow_pos two_pos _
    have hK : (k : ℝ) * 2 ^ (q - 1) = mag (2 ^ (j + 1) * k) e := by
      rw [mag_two_pow_mul, mag]
      congr 2
      push_cast
      omega
    have hv : ∀ y : ℝ, 2 * (y * 2 ^ (-q)) * 2 ^ (q - 1) = y := fun y => by
      rw [mul_comm 2, mul_assoc, mul_assoc, ← zpow_one_add₀ two_ne_zero, ← zpow_add₀ two_ne_zero, show -q + (1 + (q - 1)) = 0 by ring, zpow_zero, mul_one]
    have heven : 2 ^ (j + 1) * k % 2 = 0 := by rw [Nat.pow_succ', Nat.mul_assoc, Nat.mul_mod_right]
    rw [sub_eq_add_neg e, mag_add_exp, ← mul_le_mul_iff_left₀ hpos, ← mul_le_mul_iff_left₀ hpos (c := 2 * (v * _)),
      ← mul_le_mul_iff_left₀ hpos (b := 2 * (mag m e * _)), ← mul_le_mul_iff_left₀ hpos (b := 2 * (v * _)), hv, hv, hK]
    rcases Nat.lt_or_ge (2 ^ (j + 1) * k) m with hlt | hge
    · have h1 := (mag_le (show 2 ^ (j + 1) * k ≤ m - 1 by omega) e).trans_lt hlo
      have h2 := mag_lt hlt e
      exact ⟨iff_of_true h2.le h1.le, iff_of_false (not_le.mpr h2) (not_le.mpr h1)⟩
    · have h1 := hhi.trans_le (mag_le (show m + 1 ≤ 2 ^ (j + 1) * k by omega) e)
      have h2 := mag_lt (show m < 2 ^ (j + 1) * k by omega) e
      exact ⟨iff_of_false (not_le.mpr h2) (not_le.mpr h1), iff_of_true h2.le h1.le⟩
end

theorem RoundedInt.of_sameHalf {rm : RMode} {s : Bool} {x y : ℝ} {r : ℕ × Bool} (h : RoundedInt rm s x r) (hxy : SameHalf x y) :
    RoundedInt rm s y r := by
  obtain ⟨N, hc, hinx⟩ := h
  refine ⟨N, hc.of_sameHalf hxy, hinx.trans (not_congr ?_)⟩
  obtain ⟨hge, hle⟩ := hxy (2 * N)
  push_cast at hge hle
  constructor <;> intro he
  · linarith [hge.mp (by linarith), hle.mp (by linarith)]
  · linarith [hge.mpr (by linarith), hle.mpr (by linarith)]

/-- roundFin rounds what its magnitude stands for (R21, R24). -/
theorem isRound_roundFin {f : FSpec} (hf : Binary f) (rm : RMode) (s : Bool) {m : ℕ} {e : ℤ} {v : ℝ} (hm : 0 < m) (h : Stands f m e v) :
    IsRound f rm s v (roundFin f rm s m e) := by
  obtain ⟨hlo, hhi⟩ := h.lead hm
  generalize hlead : (Nat.log2 m : ℤ) + e = lead at hlo hhi
  have hrounded : ∀ q, lead - f.mb ≤ q → RoundedInt rm s (v * 2 ^ (-q)) (rndAt rm s m e q) := fun q hq =>
    (rndAt_rounded rm s m e q).of_sameHalf (h.sameHalf hm (by omega))
  have hscale : ∀ q : ℤ, v = v * 2 ^ (-q) * 2 ^ q := fun q => by
    rw [mul_assoc, ← zpow_add₀ two_ne_zero, neg_add_cancel, zpow_zero, mul_one]
  obtain ⟨hB, hle, hplace, hinx⟩ := rounded_place hlo hhi hf (hrounded (max lead f.emin - f.mb) (by omega)) (hscale _)
  rw [roundFin_eq hf hm hlead rfl rfl hB hle]
  exact isRound_placed hf hplace hinx (tinyMark_iff hlo hhi (hrounded (lead - f.mb) le_rfl) (hscale _))

end Sys2Proof.Machine
end

section
/-!
The exact results of the operations on finite numbers and their rounding (R21, R274).
-/
namespace Sys2Proof.Machine
open Sys2Proof.Claims

/-! ### Signed numbers -/

/-- The number of sign s and magnitude v. -/
noncomputable def signed (s : Bool) (v : ℝ) : ℝ := if s then -v else v

theorem num_fin (s : Bool) (m : ℕ) (e : ℤ) : num (.fin s m e) = signed s (mag m e) := rfl

theorem signed_mul (s t : Bool) (v w : ℝ) : signed (s != t) (v * w) = signed s v * signed t w := by
  cases s <;> cases t <;> simp [signed]

theorem signed_div (s t : Bool) (v w : ℝ) : signed (s != t) (v / w) = signed s v / signed t w := by
  cases s <;> cases t <;> simp [signed, div_neg, neg_div]

theorem num_product (s t : Bool) (m n : ℕ) (i j : ℤ) : num (.fin (s != t) (m * n) (i + j)) = num (.fin s m i) * num (.fin t n j) := by
  rw [num_fin, mag_mul, signed_mul]
  rfl

section
variable {f : FSpec} {rm : RMode}

theorem rounds_zero (f : FSpec) (rm : RMode) (zs : Bool) : Rounds f rm 0 zs (zeroPat f zs, 0#5) :=
  ⟨fun h => absurd h (lt_irrefl _), fun h => absurd h (lt_irrefl _), fun _ => rfl⟩

theorem rounds_of_isRound {s : Bool} {v : ℝ} {r : ℕ × Flags} (h : IsRound f rm s v r) (hv : 0 < v) (zs : Bool) : Rounds f rm (signed s v) zs r := by
  cases s
  · exact ⟨fun h' => absurd h' (not_lt.mpr hv.le), fun _ => h, fun h' => absurd h' hv.ne'⟩
  · refine ⟨fun _ => ?_, fun h' => absurd h' (not_lt.mpr (neg_nonpos.mpr hv.le)), fun h' => absurd h' (neg_ne_zero.mpr hv.ne')⟩
    rwa [signed, if_pos rfl, neg_neg]

variable (hf : Binary f)
include hf

theorem roundFin_rounds (s : Bool) (m : ℕ) (e : ℤ) : Rounds f rm (num (.fin s m e)) s (roundFin f rm s m e) := by
  rw [num_fin]
  rcases Nat.eq_zero_or_pos m with rfl | hm
  · rw [mag_zero, show signed s 0 = 0 by cases s <;> simp [signed], roundFin, if_pos rfl]
    exact rounds_zero f rm s
  · exact rounds_of_isRound (isRound_roundFin hf rm s hm (.inl rfl)) (mag_pos hm e) s
end

/-! ### Sums -/

/-- The number a term stands for. -/
noncomputable def Term.val (t : Term) : ℝ := t.m * 2 ^ t.e

theorem termOf_val (s : Bool) (m : ℕ) (e : ℤ) : (termOf s m e).val = num (.fin s m e) := by
  cases s <;> simp [termOf, Term.val, num, mag]

/-- A sum of terms is exact. -/
theorem sumTerms_val (ts : List Term) : (sumTerms ts).val = (ts.map Term.val).sum := by
  induction ts with
  | nil => simp [sumTerms, Term.val]
  | cons t ts ih =>
    have hshift : ∀ (m : ℤ) (e q : ℤ), q ≤ e → (m : ℝ) * 2 ^ (e - q).toNat * 2 ^ q = m * 2 ^ e := fun m e q h => by
      rw [mul_assoc, ← zpow_natCast, Int.toNat_of_nonneg (by omega), ← zpow_add₀ two_ne_zero, sub_add_cancel]
    rw [List.map_cons, List.sum_cons, ← ih]
    simp only [sumTerms, Term.val]
    push_cast
    rw [add_mul, hshift _ _ _ (min_le_left ..), hshift _ _ _ (min_le_right ..)]

theorem sumTerms_pair (s t : Bool) (m n : ℕ) (i j : ℤ) :
    (sumTerms [termOf s m i, termOf t n j]).val = num (.fin s m i) + num (.fin t n j) := by
  rw [sumTerms_val]
  simp [termOf_val]

theorem Term.val_sign (t : Term) : (t.m < 0 ↔ t.val < 0) ∧ (t.m = 0 ↔ t.val = 0) := by
  have hpos : (0 : ℝ) < 2 ^ t.e := zpow_pos two_pos _
  constructor
  · rw [Term.val, mul_neg_iff]
    simp [hpos, hpos.not_gt]
  · rw [Term.val, mul_eq_zero]
    simp [hpos.ne']

section
variable {f : FSpec} {rm : RMode} (hf : Binary f)
include hf

theorem roundTerm_rounds (zs : Bool) (t : Term) : Rounds f rm t.val zs (roundTerm f rm zs t) := by
  unfold roundTerm
  obtain ⟨hneg, hzero⟩ := t.val_sign
  split
  · next h =>
    rw [hzero.mp h]
    exact rounds_zero f rm zs
  · next h =>
    have hval : t.val = signed (decide (t.m < 0)) (mag t.m.natAbs t.e) := by
      rcases lt_or_ge t.m 0 with hlt | hge
      · rw [decide_eq_true hlt, signed, if_pos rfl, mag, Term.val, Nat.cast_natAbs, abs_of_neg hlt]
        push_cast
        ring
      · rw [decide_eq_false (not_lt.mpr hge), signed, if_neg (by decide), mag, Term.val, Nat.cast_natAbs, abs_of_nonneg hge]
    have hm := Int.natAbs_pos.mpr h
    rw [hval]
    exact rounds_of_isRound (isRound_roundFin hf rm _ hm (.inl rfl)) (mag_pos hm _) zs

theorem addV_rounds (s t : Bool) (m n : ℕ) (i j : ℤ) :
    Rounds f rm (num (.fin s m i) + num (.fin t n j)) (sumSign rm s t) (addV f rm (.fin s m i) (.fin t n j)) := by
  unfold addV
  dsimp only
  split
  · next h =>
    obtain ⟨rfl, rfl⟩ := h
    rw [num_fin, num_fin, mag_zero, mag_zero]
    simp only [signed, neg_zero, ite_self, add_zero]
    exact rounds_zero f rm _
  · next h =>
    have hr := roundTerm_rounds hf (rm := rm) (decide (rm = .rdn)) (sumTerms [termOf s m i, termOf t n j])
    rw [sumTerms_pair] at hr
    obtain ⟨hneg, hpos, hzero⟩ := hr
    refine ⟨hneg, hpos, fun h0 => ?_⟩
    have hst : s ≠ t := by
      rintro rfl
      have hmm := mul_nonneg (Nat.cast_nonneg (α := ℝ) m) (zpow_pos two_pos i).le
      have hnn := mul_nonneg (Nat.cast_nonneg (α := ℝ) n) (zpow_pos two_pos j).le
      have hz : mag m i = 0 ∧ mag n j = 0 := by
        rw [num_fin, num_fin] at h0
        cases s <;> simp only [signed, Bool.false_eq_true, if_false, if_true] at h0 <;> exact ⟨by unfold mag at h0 ⊢; linarith, by unfold mag at h0 ⊢; linarith⟩
      refine h ⟨?_, ?_⟩
      · exact Nat.eq_zero_of_not_pos fun hp => (mag_pos hp i).ne' hz.1
      · exact Nat.eq_zero_of_not_pos fun hp => (mag_pos hp j).ne' hz.2
    rw [sumSign, if_neg hst]
    exact hzero h0

/-! ### Quotients and roots -/

omit hf in
theorem mag_mul_nat (k n : ℕ) (e : ℤ) : mag k e * n = mag (n * k) e := by
  rw [mag, mag, mul_right_comm, ← Nat.cast_mul, Nat.mul_comm]

theorem roundRatio_isRound (s : Bool) {m n : ℕ} (hm : 0 < m) (hn : 0 < n) (e : ℤ) : IsRound f rm s (mag m e / n) (roundRatio f rm s m n e) := by
  unfold roundRatio
  dsimp only
  generalize hsh : f.mb + 4 + Nat.log2 n + 1 = sh
  have hnpos : (0 : ℝ) < n := Nat.cast_pos.mpr hn
  have hval : mag m e / n = mag (m <<< sh) (e - sh) / n := by
    rw [Nat.shiftLeft_eq, Nat.mul_comm, mag_two_pow_mul, sub_add_cancel]
  have hbig : 2 ^ (f.mb + 4) ≤ m <<< sh / n := by
    rw [Nat.le_div_iff_mul_le hn, Nat.shiftLeft_eq, ← hsh, Nat.add_assoc _ (Nat.log2 n), Nat.pow_add 2 (f.mb + 4)]
    exact (Nat.mul_le_mul_left _ Nat.lt_log2_self.le).trans (Nat.le_mul_of_pos_left _ hm)
  have hexp : ∀ k : ℕ, mag (2 * k) (e - sh - 1) = mag k (e - sh) := fun k => by
    rw [← Nat.pow_one 2, mag_two_pow_mul]
    congr 1
    push_cast
    ring
  have hp4 : 2 ^ (f.mb + 4) = 2 * 2 ^ (f.mb + 3) := Nat.pow_succ'
  have hp3 := Nat.two_pow_pos (f.mb + 3)
  have hdm := Nat.div_add_mod (m <<< sh) n
  have hmod := Nat.mod_lt (m <<< sh) hn
  rw [hval]
  generalize m <<< sh = N at *
  generalize N / n = Q at *
  generalize N % n = R at *
  refine isRound_roundFin hf rm s (by omega) ?_
  rw [← hdm]
  split
  · next h0 =>
    left
    rw [Nat.add_zero, hexp, h0, Nat.add_zero, mag, mag]
    push_cast
    field_simp
  · next h0 =>
    refine .inr ⟨by omega, by omega, ?_, ?_⟩
    · rw [Nat.add_sub_cancel, hexp, lt_div_iff₀ hnpos, mag_mul_nat]
      exact mag_lt (by omega) _
    · rw [show 2 * Q + 1 + 1 = 2 * (Q + 1) by ring, hexp, div_lt_iff₀ hnpos, mag_mul_nat]
      exact mag_lt (by rw [Nat.mul_succ]; omega) _
end

/-- Integer roots, bit by bit. -/
theorem isqrtAux_root (b n r : ℕ) (hlo : r * r ≤ n) (hhi : n < (r + 2 ^ (b + 1)) * (r + 2 ^ (b + 1))) :
    isqrtAux b n r * isqrtAux b n r ≤ n ∧ n < (isqrtAux b n r + 1) * (isqrtAux b n r + 1) := by
  induction b generalizing r with
  | zero =>
    unfold isqrtAux
    split
    · next h => exact ⟨h, hhi⟩
    · next h => exact ⟨hlo, Nat.lt_of_not_le h⟩
  | succ b ih =>
    unfold isqrtAux
    dsimp only
    split
    · next h =>
      refine ih _ h ?_
      rwa [Nat.add_assoc, ← Nat.two_mul, ← Nat.pow_succ']
    · next h => exact ih _ hlo (Nat.lt_of_not_le h)

theorem isqrt_root (n : ℕ) : isqrt n * isqrt n ≤ n ∧ n < (isqrt n + 1) * (isqrt n + 1) := by
  refine isqrtAux_root _ n 0 (Nat.zero_le n) ?_
  rw [Nat.zero_add, ← Nat.pow_add]
  exact Nat.lt_log2_self.trans_le (Nat.pow_le_pow_right (by decide) (by omega))

section
variable {f : FSpec} {rm : RMode} (hf : Binary f)
include hf

/-- The root of an even power of two times a number of enough bits. -/
theorem root_isRound {n : ℕ} {k : ℤ} (hbig : 2 ^ (2 * (f.mb + 4)) ≤ n) :
    IsRound f rm false (Real.sqrt (mag n (2 * k))) (roundFin f rm false (2 * isqrt n + if isqrt n * isqrt n = n then 0 else 1) (k - 1)) := by
  obtain ⟨hlo, hhi⟩ := isqrt_root n
  generalize isqrt n = r at *
  have hpos : (0 : ℝ) < 2 ^ k := zpow_pos two_pos k
  have hsqrt : Real.sqrt (mag n (2 * k)) = Real.sqrt n * 2 ^ k := by
    rw [mag, Real.sqrt_mul (Nat.cast_nonneg _), two_mul, zpow_add₀ two_ne_zero, Real.sqrt_mul_self hpos.le]
  have hr : 2 ^ (f.mb + 4) ≤ r := by
    by_contra h
    have : (r + 1) * (r + 1) ≤ 2 ^ (f.mb + 4) * 2 ^ (f.mb + 4) := Nat.mul_le_mul (by omega) (by omega)
    rw [← Nat.pow_add, ← Nat.two_mul] at this
    omega
  have hp4 : 2 ^ (f.mb + 4) = 2 * 2 ^ (f.mb + 3) := Nat.pow_succ'
  have hp3 := Nat.two_pow_pos (f.mb + 3)
  have hexp : ∀ q : ℕ, mag (2 * q) (k - 1) = q * 2 ^ k := fun q => by
    rw [← Nat.pow_one 2, mag_two_pow_mul, Nat.cast_one, sub_add_cancel, mag]
  refine isRound_roundFin hf rm false (by omega) ?_
  rw [hsqrt]
  split
  · next h =>
    left
    rw [Nat.add_zero, hexp, ← h, Nat.cast_mul, Real.sqrt_mul_self (Nat.cast_nonneg _)]
  · next h =>
    have hlt : r * r < n := Nat.lt_of_le_of_ne hlo h
    refine .inr ⟨by omega, by omega, ?_, ?_⟩
    · rw [Nat.add_sub_cancel, hexp]
      refine mul_lt_mul_of_pos_right (Real.lt_sqrt_of_sq_lt ?_) hpos
      rw [sq]
      exact_mod_cast hlt
    · rw [show 2 * r + 1 + 1 = 2 * (r + 1) by ring, hexp]
      refine mul_lt_mul_of_pos_right ((Real.sqrt_lt' (by positivity)).mpr ?_) hpos
      rw [sq]
      exact_mod_cast hhi

theorem sqrt_isRound {m : ℕ} (hm : 0 < m) (e : ℤ) :
    let sh := 2 * (f.mb + 4) + (if e % 2 = 0 then 0 else 1)
    let n := m <<< sh
    let r := isqrt n
    IsRound f rm false (Real.sqrt (mag m e)) (roundFin f rm false (2 * r + if r * r = n then 0 else 1) ((e - sh) / 2 - 1)) := by
  intro sh n r
  have hval : mag m e = mag n (2 * ((e - sh) / 2)) := by
    have he : 2 * ((e - (sh : ℤ)) / 2) = e - sh := by
      simp only [sh]
      split <;> push_cast <;> omega
    rw [he, show n = 2 ^ sh * m by simp only [n, Nat.shiftLeft_eq, Nat.mul_comm], mag_two_pow_mul, sub_add_cancel]
  rw [hval]
  refine root_isRound hf ?_
  rw [show n = m * 2 ^ sh from Nat.shiftLeft_eq ..]
  exact (Nat.pow_le_pow_right (by decide) (Nat.le_add_right ..)).trans (Nat.le_mul_of_pos_left _ hm)
end

/-! ### The operations -/

/-- The result of operands that are no NaN. -/
theorem nanRes_none {f : FSpec} {xs : List ℕ} (h : ∀ x ∈ xs, (decodeF f x).isNaN = false) (k : ℕ × Flags) : nanRes f xs k = k := by
  have hp : pickNaN f xs = none := by
    induction xs with
    | nil => rfl
    | cons x xs ih =>
      rw [pickNaN, if_neg (by rw [h x (List.mem_cons_self ..)]; decide)]
      exact ih fun y hy => h y (List.mem_cons_of_mem _ hy)
  rw [nanRes, hp]

section
variable {f : FSpec} (hf : Binary f) {rm : RMode} {a b c : ℕ} {s t u : Bool} {m n l : ℕ} {i j k : ℤ}
  (ha : decodeF f a = .fin s m i) (hb : decodeF f b = .fin t n j) (hc : decodeF f c = .fin u l k)

include ha in
theorem nanRes_one (r : ℕ × Flags) : nanRes f [a] r = r := nanRes_none (by simp [ha, FVal.isNaN]) r
include ha hb in
theorem nanRes_two (r : ℕ × Flags) : nanRes f [a, b] r = r := nanRes_none (by simp [ha, hb, FVal.isNaN]) r

include hf ha

theorem fSqrt_rounds (h : s = false ∨ m = 0) : Rounds f rm (Real.sqrt (num (.fin s m i))) s (fSqrt f rm a) := by
  rw [fSqrt, nanRes_one ha, ha]
  dsimp only
  split
  · next h0 =>
    subst h0
    rw [num_fin, mag_zero, show signed s 0 = 0 by cases s <;> simp [signed], Real.sqrt_zero]
    exact rounds_zero f rm s
  · next h0 =>
    have hm : 0 < m := Nat.pos_of_ne_zero h0
    obtain rfl : s = false := h.resolve_right h0
    exact rounds_of_isRound (sqrt_isRound hf hm i) (Real.sqrt_pos.mpr (mag_pos hm i)) false

include hb

theorem fAdd_rounds : Rounds f rm (num (.fin s m i) + num (.fin t n j)) (sumSign rm s t) (fAdd f rm a b) := by
  rw [fAdd, nanRes_two ha hb, ha, hb]
  exact addV_rounds hf ..

theorem fSub_rounds : Rounds f rm (num (.fin s m i) - num (.fin t n j)) (sumSign rm s (!t)) (fSub f rm a b) := by
  have hneg : num (.fin s m i) - num (.fin t n j) = num (.fin s m i) + num (.fin (!t) n j) := by
    cases t <;> simp [num, sub_eq_add_neg]
  rw [fSub, nanRes_two ha hb, ha, hb, hneg]
  exact addV_rounds hf ..

theorem fMul_rounds : Rounds f rm (num (.fin s m i) * num (.fin t n j)) (s != t) (fMul f rm a b) := by
  rw [fMul, nanRes_two ha hb, ha, hb, ← num_product]
  exact roundFin_rounds hf ..

theorem fDiv_rounds (hn : 0 < n) : Rounds f rm (num (.fin s m i) / num (.fin t n j)) (s != t) (fDiv f rm a b) := by
  rw [fDiv, nanRes_two ha hb, ha, hb, num_fin, num_fin, ← signed_div]
  dsimp only
  rw [if_neg hn.ne']
  split
  · next h0 =>
    subst h0
    rw [mag_zero, zero_div, show signed (s != t) 0 = 0 by cases s <;> cases t <;> simp [signed]]
    exact rounds_zero f rm _
  · next h0 =>
    have hm : 0 < m := Nat.pos_of_ne_zero h0
    have hval : mag m i / mag n j = mag m (i - j) / n := by
      rw [mag, mag, mag, zpow_sub₀ two_ne_zero]
      field_simp
    refine rounds_of_isRound ?_ (div_pos (mag_pos hm i) (mag_pos hn j)) _
    rw [hval]
    exact roundRatio_isRound hf _ hm hn _

include hc

theorem fFma_rounds : Rounds f rm (num (.fin s m i) * num (.fin t n j) + num (.fin u l k)) (sumSign rm (s != t) u) (fFma f rm a b c) := by
  simp only [fFma, ha, hb, hc, FVal.isNaN, Bool.or_self, Bool.false_eq_true, if_false, mulV, nanRes_one hc, ← num_product]
  exact addV_rounds hf ..
end

theorem roundingDirection : RoundingDirection :=
  ⟨fun _ rm s _ _ hf hm => isRound_roundFin (.of_arith hf) rm s hm (.inl rfl), fun _ _ _ _ _ _ _ _ _ _ _ _ _ _ hf ha hb hc =>
    have hf := Binary.of_arith hf
    ⟨fAdd_rounds hf ha hb, fSub_rounds hf ha hb, fMul_rounds hf ha hb, fFma_rounds hf ha hb hc, fDiv_rounds hf ha hb, fSqrt_rounds hf ha⟩⟩

end Sys2Proof.Machine
end

section
/-!
Special values (R25, R274, R275): NaN operands, invalid operations, infinities, and the order of values.
-/
namespace Sys2Proof.Machine
open Sys2Proof.Claims

/-! ### NaN operands -/

/-- The exceptions of operands of which one may be a signalling NaN. -/
def sigFlags (q : Bool) : Flags := if q then fNV else 0#5

theorem nanRes_head {f : FSpec} {a : ℕ} {xs : List ℕ} (h : (decodeF f a).isNaN = true) (r : ℕ × Flags) :
    nanRes f (a :: xs) r = (quiet f a, sigFlags (anySig f (a :: xs))) := by
  rw [nanRes, pickNaN, if_pos h]
  rfl

theorem nanRes_second {f : FSpec} {a b : ℕ} {xs : List ℕ} (ha : (decodeF f a).isNaN = false) (hb : (decodeF f b).isNaN = true) (r : ℕ × Flags) :
    nanRes f (a :: b :: xs) r = (quiet f b, sigFlags (anySig f (b :: xs))) := by
  have hsig : (decodeF f a).isSig = false := by
    cases h : decodeF f a <;> simp_all [FVal.isSig, FVal.isNaN]
  rw [nanRes, pickNaN, if_neg (by rw [ha]; decide), pickNaN, if_pos hb, anySig, List.any_cons, hsig, Bool.false_or]
  rfl

section
variable {f : FSpec} {rm : RMode} {a b c : ℕ}

theorem fop_nan_first (h : (decodeF f a).isNaN = true) (o : FOp) (ho : o = .add ∨ o = .sub ∨ o = .mul ∨ o = .div ∨ o = .sqrt) :
    fop f rm o a b 0 = (quiet f a, sigFlags ((decodeF f a).isSig || (o != .sqrt && (decodeF f b).isSig))) := by
  have htwo : ∀ r, nanRes f [a, b] r = (quiet f a, sigFlags ((decodeF f a).isSig || (decodeF f b).isSig)) := fun r => by
    rw [nanRes_head h, anySig, List.any_cons, List.any_cons, List.any_nil, Bool.or_false]
  rcases ho with rfl | rfl | rfl | rfl | rfl
  · exact htwo _
  · exact htwo _
  · exact htwo _
  · exact htwo _
  · exact nanRes_head h _

theorem fop_nan_second (ha : (decodeF f a).isNaN = false) (hb : (decodeF f b).isNaN = true) (o : FOp)
    (ho : o = .add ∨ o = .sub ∨ o = .mul ∨ o = .div) : fop f rm o a b 0 = (quiet f b, sigFlags (decodeF f b).isSig) := by
  have htwo : ∀ r, nanRes f [a, b] r = (quiet f b, sigFlags (decodeF f b).isSig) := fun r => by
    rw [nanRes_second ha hb, anySig, List.any_cons, List.any_nil, Bool.or_false]
  rcases ho with rfl | rfl | rfl | rfl <;> exact htwo _

theorem fma_nan_first (h : (decodeF f a).isNaN = true) :
    fop f rm .fma a b c = (quiet f a, sigFlags ((decodeF f a).isSig || (decodeF f b).isSig || (decodeF f c).isSig)) := by
  rw [fop, fFma]
  simp only [h, Bool.true_or, if_true, nanRes_head h, anySig, List.any_cons, List.any_nil, Bool.or_false, Bool.or_assoc]

theorem fma_nan_second (ha : (decodeF f a).isNaN = false) (hb : (decodeF f b).isNaN = true) :
    fop f rm .fma a b c = (quiet f b, sigFlags ((decodeF f b).isSig || (decodeF f c).isSig)) := by
  rw [fop, fFma]
  simp only [hb, Bool.or_true, if_true, nanRes_second ha hb, anySig, List.any_cons, List.any_nil, Bool.or_false]

end

/-! ### Operands that are no NaN -/

section
variable {f : FSpec} {rm : RMode} {a b c : ℕ} {x y : FVal} (hx : decodeF f a = x) (hy : decodeF f b = y) (ha : x.isNaN = false) (hb : y.isNaN = false)
include hx ha

theorem nanRes_single (r : ℕ × Flags) : nanRes f [a] r = r := nanRes_none (by simp [hx, ha]) r

include hy hb

theorem nanRes_pair (r : ℕ × Flags) : nanRes f [a, b] r = r := nanRes_none (by simp [hx, hy, ha, hb]) r

theorem fop_add : fop f rm .add a b 0 = addV f rm x y := by rw [fop, fAdd, nanRes_pair hx hy ha hb, hx, hy]
theorem fop_sub : fop f rm .sub a b 0 = addV f rm x y.neg := by rw [fop, fSub, nanRes_pair hx hy ha hb, hx, hy]

theorem fop_mul_some {q : FVal} (h : mulV x y = some q) : fop f rm .mul a b 0 = roundV f rm q := by
  rw [fop, fMul, nanRes_pair hx hy ha hb, hx, hy, h]

theorem fop_mul_none (h : mulV x y = none) : fop f rm .mul a b 0 = (dNaN f, fNV) := by
  rw [fop, fMul, nanRes_pair hx hy ha hb, hx, hy, h]

theorem fma_none (h : mulV x y = none) : fop f rm .fma a b c = (if (decodeF f c).isNaN then quiet f c else dNaN f, fNV) := by
  simp only [fop, fFma, hx, hy, ha, hb, Bool.or_self, Bool.false_eq_true, if_false, h]
  split <;> rfl

theorem fma_some {q : FVal} (h : mulV x y = some q) : fop f rm .fma a b c = nanRes f [c] (addV f rm q (decodeF f c)) := by
  simp only [fop, fFma, hx, hy, ha, hb, Bool.or_self, Bool.false_eq_true, if_false, h]
end

/-! ### Invalid operations -/

theorem isZero_fin {v : FVal} (h : v.isZero = true) : ∃ s e, v = .fin s 0 e := by
  cases v with
  | fin s m e => exact ⟨s, e, by rw [show m = 0 from eq_of_beq h]⟩
  | inf s => cases h
  | nan s g => cases h

theorem isFin_fin {v : FVal} (h : v.isFin = true) : ∃ s m e, v = .fin s m e := by
  cases v with
  | fin s m e => exact ⟨s, m, e, rfl⟩
  | inf s => cases h
  | nan s g => cases h

section
variable {f : FSpec} {rm : RMode} {a b c : ℕ} {s t : Bool}

theorem add_opposite (hx : decodeF f a = .inf s) (hy : decodeF f b = .inf (!s)) : fop f rm .add a b 0 = (dNaN f, fNV) := by
  rw [fop_add hx hy rfl rfl]
  exact if_neg (by cases s <;> decide)

theorem sub_equal (hx : decodeF f a = .inf s) (hy : decodeF f b = .inf s) : fop f rm .sub a b 0 = (dNaN f, fNV) := by
  rw [fop_sub hx hy rfl rfl]
  exact if_neg (by cases s <;> decide)

theorem mul_inf_zero (hx : decodeF f a = .inf s) (hy : (decodeF f b).isZero = true) :
    fop f rm .mul a b 0 = (dNaN f, fNV) ∧ fop f rm .mul b a 0 = (dNaN f, fNV) ∧
      fop f rm .fma a b c = (if (decodeF f c).isNaN then quiet f c else dNaN f, fNV) ∧
      fop f rm .fma b a c = (if (decodeF f c).isNaN then quiet f c else dNaN f, fNV) := by
  obtain ⟨t, e, hy⟩ := isZero_fin hy
  exact ⟨fop_mul_none hx hy rfl rfl rfl, fop_mul_none hy hx rfl rfl rfl, fma_none hx hy rfl rfl rfl, fma_none hy hx rfl rfl rfl⟩

theorem div_inf_inf (hx : decodeF f a = .inf s) (hy : decodeF f b = .inf t) : fop f rm .div a b 0 = (dNaN f, fNV) := by
  rw [fop, fDiv, nanRes_pair hx hy rfl rfl, hx, hy]

theorem div_zero_zero (hx : (decodeF f a).isZero = true) (hy : (decodeF f b).isZero = true) : fop f rm .div a b 0 = (dNaN f, fNV) := by
  obtain ⟨s, e, hx⟩ := isZero_fin hx
  obtain ⟨t, k, hy⟩ := isZero_fin hy
  rw [fop, fDiv, nanRes_pair hx hy rfl rfl, hx, hy]
  rfl

theorem sqrt_negative {m : ℕ} {e : ℤ} (hx : decodeF f a = .fin true m e) (hm : 0 < m) : fop f rm .sqrt a b 0 = (dNaN f, fNV) := by
  rw [fop, fSqrt, nanRes_single hx rfl, hx]
  exact if_neg hm.ne'

theorem sqrt_minus_inf (hx : decodeF f a = .inf true) : fop f rm .sqrt a b 0 = (dNaN f, fNV) := by
  rw [fop, fSqrt, nanRes_single hx rfl, hx]
  rfl

/-- An infinity times a value that is no zero and no NaN. -/
theorem mulV_inf {y : FVal} (s : Bool) (hn : y.isNaN = false) (hz : y.isZero = false) : mulV (.inf s) y = some (.inf (s != y.sign)) := by
  cases y with
  | fin t n k => exact if_neg (fun h => by rw [h] at hz; cases hz)
  | inf t => rfl
  | nan t g => cases hn

theorem fma_conflict (hx : decodeF f a = .inf s) (hn : (decodeF f b).isNaN = false) (hz : (decodeF f b).isZero = false) (hc : decodeF f c = .inf t)
    (hst : (s != (decodeF f b).sign) ≠ t) : fop f rm .fma a b c = (dNaN f, fNV) := by
  rw [fma_some hx rfl rfl hn (mulV_inf s hn hz), nanRes_single hc rfl, hc]
  exact if_neg hst

/-- A product that is one, with a NaN to be added. -/
theorem fma_nan_third (ha : (decodeF f a).isNaN = false) (hb : (decodeF f b).isNaN = false) (hc : (decodeF f c).isNaN = true)
    (h1 : ¬((decodeF f a).isFin = false ∧ (decodeF f b).isZero = true)) (h2 : ¬((decodeF f a).isZero = true ∧ (decodeF f b).isFin = false)) :
    fop f rm .fma a b c = (quiet f c, sigFlags (decodeF f c).isSig) := by
  have hsome : ∃ q, mulV (decodeF f a) (decodeF f b) = some q := by
    cases hx : decodeF f a with
    | nan s g => rw [hx] at ha; cases ha
    | inf s =>
      rw [hx] at h1
      exact ⟨_, mulV_inf s hb (by simpa [FVal.isFin] using h1)⟩
    | fin s m e =>
      cases hy : decodeF f b with
      | nan t g => rw [hy] at hb; cases hb
      | fin t n k => exact ⟨_, rfl⟩
      | inf t =>
        rw [hx, hy] at h2
        exact ⟨_, if_neg fun h => h2 ⟨by rw [h]; rfl, rfl⟩⟩
  obtain ⟨q, hq⟩ := hsome
  rw [fma_some rfl rfl ha hb hq, nanRes_head hc, anySig, List.any_cons, List.any_nil, Bool.or_false]

/-! ### Exact results -/

theorem div_by_zero {m : ℕ} {e : ℤ} (hx : decodeF f a = .fin s m e) (hm : 0 < m) (hy : (decodeF f b).isZero = true) :
    fop f rm .div a b 0 = (infPat f (s != (decodeF f b).sign), fDZ) := by
  obtain ⟨t, k, hy⟩ := isZero_fin hy
  rw [fop, fDiv, nanRes_pair hx hy rfl rfl, hx, hy]
  exact (if_pos rfl).trans (if_neg hm.ne')

theorem inf_finite (hx : decodeF f a = .inf s) (hy : (decodeF f b).isFin = true) :
    let y := decodeF f b
    fop f rm .add a b 0 = (infPat f s, 0#5) ∧ fop f rm .add b a 0 = (infPat f s, 0#5) ∧
      fop f rm .sub a b 0 = (infPat f s, 0#5) ∧ fop f rm .sub b a 0 = (infPat f (!s), 0#5) ∧
      fop f rm .div a b 0 = (infPat f (s != y.sign), 0#5) ∧ fop f rm .div b a 0 = (zeroPat f (y.sign != s), 0#5) ∧
      (y.isZero = false → fop f rm .mul a b 0 = (infPat f (s != y.sign), 0#5) ∧ fop f rm .mul b a 0 = (infPat f (y.sign != s), 0#5)) := by
  obtain ⟨t, n, k, hy⟩ := isFin_fin hy
  intro y
  simp only [y, hy]
  refine ⟨fop_add hx hy rfl rfl, fop_add hy hx rfl rfl, fop_sub hx hy rfl rfl, fop_sub hy hx rfl rfl, ?_, ?_, fun hz => ?_⟩
  · rw [fop, fDiv, nanRes_pair hx hy rfl rfl, hx, hy]
  · rw [fop, fDiv, nanRes_pair hy hx rfl rfl, hx, hy]
  · have hn : n ≠ 0 := fun h => by rw [h] at hz; cases hz
    exact ⟨fop_mul_some hx hy rfl rfl (if_neg hn), fop_mul_some hy hx rfl rfl (if_neg hn)⟩

theorem sqrt_inf (hx : decodeF f a = .inf false) : fop f rm .sqrt a b 0 = (infPat f false, 0#5) := by
  rw [fop, fSqrt, nanRes_single hx rfl, hx]
  rfl

theorem sqrt_zero {m : ℕ} {e : ℤ} (hx : decodeF f a = .fin s m e) (hm : m = 0) : fop f rm .sqrt a b 0 = (zeroPat f s, 0#5) := by
  rw [fop, fSqrt, nanRes_single hx rfl, hx]
  exact if_pos hm
end

/-! ### Order -/

theorem cmpV_fin (s t : Bool) (m n : ℕ) (e k : ℤ) :
    (cmpV (.fin s m e) (.fin t n k) = .lt ↔ num (.fin s m e) < num (.fin t n k)) ∧
      (cmpV (.fin s m e) (.fin t n k) = .eq ↔ num (.fin s m e) = num (.fin t n k)) := by
  obtain ⟨hneg, hzero⟩ := (sumTerms [termOf s m e, termOf (!t) n k]).val_sign
  have hnum : num (.fin (!t) n k) = -num (.fin t n k) := by cases t <;> simp [num]
  rw [sumTerms_pair, hnum, ← sub_eq_add_neg] at hneg hzero
  rw [sub_neg] at hneg
  rw [sub_eq_zero] at hzero
  rw [← hneg, ← hzero, cmpV]
  split
  · next h => exact ⟨iff_of_true rfl h, iff_of_false (by decide) h.ne⟩
  · next h =>
    split
    · next h0 => exact ⟨iff_of_false (by decide) h, iff_of_true rfl h0⟩
    · next h0 => exact ⟨iff_of_false (by decide) h, iff_of_false (by decide) h0⟩

theorem cmpV_inf (s : Bool) {y : FVal} (hy : y.isFin = true) :
    cmpV (.inf s) y = (if s then .lt else .gt) ∧ cmpV y (.inf s) = (if s then .gt else .lt) := by
  obtain ⟨t, n, k, rfl⟩ := isFin_fin hy
  exact ⟨rfl, rfl⟩

theorem fop_minmax (f : FSpec) (rm : RMode) (a b : ℕ) (mn : Bool) :
    let x := decodeF f a
    let y := decodeF f b
    fop f rm (if mn then .min else .max) a b 0 =
      (if x.isNaN && y.isNaN then quiet f a else if x.isNaN then b else if y.isNaN then a
        else if cmpV x y = .eq ∨ cmpV x y = (if mn then .lt else .gt) then a else b, sigFlags (x.isSig || y.isSig)) := by
  intro x y
  have hfop : fop f rm (if mn then .min else .max) a b 0 = fMinMax f mn a b := by cases mn <;> rfl
  have hfl : (if anySig f [a, b] then fNV else 0#5) = sigFlags (x.isSig || y.isSig) := by
    rw [anySig, List.any_cons, List.any_cons, List.any_nil, Bool.or_false]
    rfl
  rw [hfop, fMinMax, hfl, takeA]
  change (if x.isNaN && y.isNaN then _ else (if (if x.isNaN && y.isNaN then true else if x.isNaN then false else if y.isNaN then true
    else match cmpV x y with | .eq => true | .lt => mn | .gt => !mn) then a else b, _)) = _
  cases x.isNaN
  · cases y.isNaN
    · cases cmpV x y <;> cases mn <;> rfl
    · rfl
  · cases y.isNaN <;> rfl

/-! ### The claim -/

theorem specialValues : SpecialValues := fun f rm a b _ _ =>
  ⟨fop_nan_first, fop_nan_second, fma_nan_first, fma_nan_second, fun _ => add_opposite, fun _ => sub_equal, fun _ => mul_inf_zero,
    fun _ _ => div_inf_inf, div_zero_zero, fun _ _ => sqrt_negative, sqrt_minus_inf, fun _ _ => fma_conflict, fma_nan_third,
    fun _ _ _ => div_by_zero, fun _ => inf_finite, sqrt_inf, fun _ _ _ => sqrt_zero,
    fun _ _ _ _ _ _ hx hy => hx ▸ hy ▸ cmpV_fin .., fun s hx hy => hx ▸ cmpV_inf s hy, fop_minmax f rm a b⟩

/-- Settles O42: a rounded magnitude is a place of the scale of its format's patterns, also when it stands for a quotient or a root by a
sticky bit; special values by their kinds. -/
theorem roundingRules : Obligations.RoundingRules := ⟨roundingDirection, specialValues⟩

end Sys2Proof.Machine
end
